-- ==== Sys2Proof/Word.lean ====
section
/-! DEFINITION. The word types of the DR2: widths that the spec fixes, as bit vectors (spec/01_machine.md, R15). -/

namespace Sys2Proof

/-- A byte of memory. -/
abbrev Byte := BitVec 8
/-- A scalar register, an address, a control register: 64 bits (R15). -/
abbrev Word := BitVec 64
/-- One 32-bit slot (R76). -/
abbrev SlotWord := BitVec 32
/-- A 6-bit register field (R78). -/
abbrev Reg := BitVec 6
/-- A token field: k0 to k15, k0 meaning none (R103). -/
abbrev Tok := BitVec 4
/-- A mask field: m0 to m7, m0 reading as all ones (R15). -/
abbrev MReg := BitVec 3
/-- A vector register or accumulator row: 2,048 bytes, lane 0 in the lowest bytes (R18). -/
abbrev Row := BitVec 16384
/-- A lane mask: one bit per byte of a row (R15, R18). -/
abbrev Mask := BitVec 2048

end Sys2Proof
end

