-- ==== Sys2Proof/Syntax.lean ====
section
/-! DEFINITION. The instruction set as data: one constructor of Instr for each row of the opcode table. The first 163 are the
slots of spec/03_encoding.md (R85 to R89); the rest are the events of spec/95_what_each_step_holds.md, each with the arguments
that say which agent, command, packet or message it is about. -/

namespace Sys2Proof

/-- A context by its global number (R7) or a command sequencer by its die (R35). -/
inductive Agent where
  | ctx (n : Nat)
  | seq (die : Nat)
deriving DecidableEq, Repr

/-- Element types of V slots, in the order of their codes 0 to 7 (R87). -/
inductive ETy where
  | f32 | bf16 | f16 | s32 | s16 | s8 | n32 | n8
deriving DecidableEq, Repr

/-- Rounding modes, in the order of their codes 0 to 5 (R61). -/
inductive RMode where
  | rne | rtz | rup | rdn | rna | sr
deriving DecidableEq, Repr

/-- Scope codes 0 to 3 (R88, R315). -/
inductive Scope where
  | ctx | grp | dev | sys
deriving DecidableEq, Repr

/-- Conditions of WAITC, codes 0 to 3 (R128). -/
inductive WCond where
  | ge | eq | ne | geu
deriving DecidableEq, Repr

/-- Width codes of the MUL group and size codes of LDA and STL: 8, 16, 32, 64 bits (R85, R88). -/
inductive Width where
  | w8 | w16 | w32 | w64
deriving DecidableEq, Repr

/-- Functions of VSFN, codes 0 to 7 (R146). -/
inductive SFn where
  | rcp | rsq | sqrt | exp2 | log2 | tanh | sigm | erf
deriving DecidableEq, Repr

/-- Conditions of VCMP, codes 0 to 7 (R148). -/
inductive VCond where
  | eq | ne | lt | le | gt | ge | un | ord
deriving DecidableEq, Repr

/-- Operations of VRED, codes 0 to 4 (R158). -/
inductive RedOp where
  | sum | max | min | maxm | minm
deriving DecidableEq, Repr

/-- Operations of VBITS, codes 0 to 3 (R161). -/
inductive BitOp where
  | clz | ffs | popc | brev
deriving DecidableEq, Repr

/-- Operations of VMSK, codes 0 to 6 (R165). -/
inductive MaskOp where
  | and | or | xor | andn | not | set | clr
deriving DecidableEq, Repr

/-- Orders of the atomics, codes 0 to 3 (R202). -/
inductive AmoOrd where
  | relaxed | acq | rel | acqrel
deriving DecidableEq, Repr

/-- Functions of the atomics, codes 0 to 10 (R203). -/
inductive AmoFn where
  | add | and | or | xor | min | max | minn | maxn | swp | cas | fadd
deriving DecidableEq, Repr

/-- Kinds of FENCE, codes 0 to 2 (R204). -/
inductive FenceKind where
  | acq | rel | full
deriving DecidableEq, Repr

/-- A place where a sweep looks for packets: an ingress port, a bridge direction, a local queue (R419, R420). -/
inductive Place where
  | port (p : Nat)
  | bridge (into : Nat)
  | localq (die : Nat)
deriving DecidableEq, Repr

/-- The instructions and events of the DR2: one constructor per row of the opcode table, in the table's order. -/
inductive Instr where
  -- N class (R91 to R94)
  | nop
  | rep (cnt : BitVec 6) (ds as bs : BitVec 2)
  -- ALU group (R114)
  | add (d a b : Reg) (wa wb : Bool)
  | sub (d a b : Reg) (wa wb : Bool)
  | and (d a b : Reg) (wa wb : Bool)
  | or (d a b : Reg) (wa wb : Bool)
  | xor (d a b : Reg) (wa wb : Bool)
  | andn (d a b : Reg) (wa wb : Bool)
  | shl (d a b : Reg) (wa wb : Bool)
  | shr (d a b : Reg) (wa wb : Bool)
  | sra (d a b : Reg) (wa wb : Bool)
  | ror (d a b : Reg) (wa wb : Bool)
  | slt (d a b : Reg) (wa wb : Bool)
  | sltn (d a b : Reg) (wa wb : Bool)
  | seq (d a b : Reg) (wa wb : Bool)
  | min (d a b : Reg) (wa wb : Bool)
  | max (d a b : Reg) (wa wb : Bool)
  | sel (d a b : Reg) (wa wb : Bool)
  -- MUL group (R115 to R117)
  | mul (d a b : Reg) (wa wb : Bool)
  | mulh (d a b : Reg) (wa wb : Bool)
  | mulhn (d a b : Reg) (wa wb : Bool)
  | div (d a b : Reg) (wa wb : Bool)
  | divn (d a b : Reg) (wa wb : Bool)
  | rem (d a b : Reg) (wa wb : Bool)
  | remn (d a b : Reg) (wa wb : Bool)
  | minn (d a b : Reg) (wa wb : Bool)
  | maxn (d a b : Reg) (wa wb : Bool)
  | clz (d a : Reg) (w : Width) (wa : Bool)
  | ffs (d a : Reg) (w : Width) (wa : Bool)
  | popc (d a : Reg) (w : Width) (wa : Bool)
  | brev (d a : Reg) (w : Width) (wa : Bool)
  | sext (d a : Reg) (w : Width) (wa : Bool)
  | zext (d a : Reg) (w : Width) (wa : Bool)
  -- Immediate forms (R118)
  | addi (d a : Reg) (wa : Bool) (imm : BitVec 11)
  | andi (d a : Reg) (wa : Bool) (imm : BitVec 11)
  | ori (d a : Reg) (wa : Bool) (imm : BitVec 11)
  | xori (d a : Reg) (wa : Bool) (imm : BitVec 11)
  | shli (d a : Reg) (wa : Bool) (n : BitVec 6)
  | shri (d a : Reg) (wa : Bool) (n : BitVec 6)
  | srai (d a : Reg) (wa : Bool) (n : BitVec 6)
  | slti (d a : Reg) (wa : Bool) (imm : BitVec 11)
  | sltni (d a : Reg) (wa : Bool) (imm : BitVec 11)
  -- U format (R119)
  | li (d : Reg) (imm : BitVec 18)
  | lis (d : Reg) (imm : BitVec 18)
  | addpc (d : Reg) (imm : BitVec 18)
  -- C class (R120 to R135)
  | beq (a b : Reg) (off : BitVec 12)
  | bne (a b : Reg) (off : BitVec 12)
  | blt (a b : Reg) (off : BitVec 12)
  | bge (a b : Reg) (off : BitVec 12)
  | bltn (a b : Reg) (off : BitVec 12)
  | bgen (a b : Reg) (off : BitVec 12)
  | jmp (off : BitVec 24)
  | jal (off : BitVec 24)
  | jr (d a : Reg) (wa : Bool)
  | loop (a : Reg) (l : BitVec 2) (off : BitVec 12)
  | quiet (a : Reg) (n : BitVec 12)
  | tkw (ka kb kc : Tok)
  | waitc (a b : Reg) (wa wb : Bool) (sc : Scope) (c : WCond)
  | bar (id : BitVec 12)
  | tend
  | slk (n : BitVec 12)
  -- V class (R138 to R165)
  | vadd (d a b : Reg) (mk : MReg) (t : ETy)
  | vsub (d a b : Reg) (mk : MReg) (t : ETy)
  | vmul (d a b : Reg) (mk : MReg) (t : ETy)
  | vfma (d a b : Reg) (mk : MReg) (t : ETy)
  | vfms (d a b : Reg) (mk : MReg) (t : ETy)
  | vfnm (d a b : Reg) (mk : MReg) (t : ETy)
  | vmin (d a b : Reg) (mk : MReg) (t : ETy)
  | vmax (d a b : Reg) (mk : MReg) (t : ETy)
  | vminm (d a b : Reg) (mk : MReg) (t : ETy)
  | vmaxm (d a b : Reg) (mk : MReg) (t : ETy)
  | vabs (d a : Reg) (mk : MReg) (t : ETy)
  | vneg (d a : Reg) (mk : MReg) (t : ETy)
  | vsfn (d a : Reg) (fn : SFn) (mk : MReg) (t : ETy)
  | vcmp (e : MReg) (c : VCond) (a b : Reg) (mk : MReg) (t : ETy)
  | vsel (d a b : Reg) (mk : MReg) (t : ETy)
  | vand (d a b : Reg) (mk : MReg) (t : ETy)
  | vor (d a b : Reg) (mk : MReg) (t : ETy)
  | vxor (d a b : Reg) (mk : MReg) (t : ETy)
  | vshl (d a b : Reg) (mk : MReg) (t : ETy)
  | vshr (d a b : Reg) (mk : MReg) (t : ETy)
  | vsra (d a b : Reg) (mk : MReg) (t : ETy)
  | vcvt (d a : Reg) (dt : ETy) (rm : RMode) (mk : MReg) (t : ETy)
  | vqmx (a b : Reg) (mk : MReg) (t : ETy)
  | vred (d a : Reg) (op : RedOp) (mk : MReg) (t : ETy)
  | vscan (d a : Reg) (mk : MReg) (t : ETy)
  | vperm (d a b : Reg) (mk : MReg) (t : ETy)
  | vbcst (d a : Reg) (mk : MReg) (t : ETy)
  | vext (d a b : Reg) (t : ETy)
  | vins (d a b : Reg) (mk : MReg) (t : ETy)
  | viota (d : Reg) (mk : MReg) (t : ETy)
  | vbits (d a : Reg) (op : BitOp) (mk : MReg) (t : ETy)
  | vprune (d a b : Reg) (mk : MReg) (t : ETy)
  | vrand (d : Reg) (uniform : Bool) (mk : MReg) (t : ETy)
  | vscl (d a b : Reg) (mk : MReg) (t : ETy)
  | vmov (d a : Reg) (mk : MReg) (t : ETy)
  | vmsk (e f : MReg) (op : MaskOp)
  | vmcnt (d : Reg) (f : MReg) (t : ETy)
  -- X class (R166 to R189)
  | mpcw (a : Reg) (wa : Bool)
  | mlw (p : Reg) (kd ka kb kc : Tok)
  | mla (p : Reg) (kd ka kb kc : Tok)
  | mma (p : Reg) (kd ka kb kc : Tok)
  | mman (p : Reg) (kd ka kb kc : Tok)
  | mmab (p : Reg) (kd ka kb kc : Tok)
  | mdr (p : Reg) (kd ka kb kc : Tok)
  | mza (p : Reg) (kd ka kb kc : Tok)
  | mrb (p : Reg) (kd ka kb kc : Tok)
  | mstat (p : Reg) (kd ka kb kc : Tok)
  -- L class (R197 to R215)
  | ldbs (t a : Reg) (wa : Bool) (disp : BitVec 11)
  | ldbn (t a : Reg) (wa : Bool) (disp : BitVec 11)
  | ldhs (t a : Reg) (wa : Bool) (disp : BitVec 11)
  | ldhn (t a : Reg) (wa : Bool) (disp : BitVec 11)
  | ldws (t a : Reg) (wa : Bool) (disp : BitVec 11)
  | ldwn (t a : Reg) (wa : Bool) (disp : BitVec 11)
  | ldd (t a : Reg) (wa : Bool) (disp : BitVec 11)
  | stb (t a : Reg) (wa : Bool) (disp : BitVec 11)
  | sth (t a : Reg) (wa : Bool) (disp : BitVec 11)
  | stw (t a : Reg) (wa : Bool) (disp : BitVec 11)
  | std (t a : Reg) (wa : Bool) (disp : BitVec 11)
  | ldv (t a : Reg) (wa : Bool) (disp : BitVec 11)
  | stv (t a : Reg) (wa : Bool) (disp : BitVec 11)
  | lda (d a : Reg) (wa : Bool) (z : Width) (sc : Scope)
  | stl (a b : Reg) (wa wb : Bool) (z : Width) (sc : Scope)
  | amog (d a b : Reg) (o : AmoOrd) (fn : AmoFn)
  | amod (d a b : Reg) (o : AmoOrd) (fn : AmoFn)
  | amos (d a b : Reg) (o : AmoOrd) (fn : AmoFn)
  | fence (eng : Bool) (k : FenceKind) (sc : Scope)
  | rgmap (p : Reg) (kd ka kb kc : Tok)
  | rgwb (p : Reg) (kd ka kb kc : Tok)
  | rginv (p : Reg) (kd ka kb kc : Tok)
  | wlpsh (d a b : Reg) (wa wb : Bool)
  | wlpop (p : Reg) (kd ka kb kc : Tok)
  | wlins (d a b : Reg) (wa wb : Bool)
  -- E class (R217 to R243)
  | cpy (p : Reg) (kd ka kb kc : Tok)
  | cprWrite (p : Reg) (kd ka kb kc : Tok)
  | cprRead (p : Reg) (kd ka kb kc : Tok)
  | crd (p : Reg) (kd ka kb kc : Tok)
  | csg (p : Reg) (kd ka kb kc : Tok) (sc : Scope)
  | gth (p : Reg) (kd ka kb kc : Tok)
  | sct (p : Reg) (kd ka kb kc : Tok)
  | sca (p : Reg) (kd ka kb kc : Tok)
  | spl (p : Reg) (kd ka kb kc : Tok)
  | sps (p : Reg) (kd ka kb kc : Tok)
  | spa (p : Reg) (kd ka kb kc : Tok)
  | spi (p : Reg) (kd ka kb kc : Tok)
  | spd (p : Reg) (kd ka kb kc : Tok)
  | lnch (p : Reg) (kd ka kb kc : Tok)
  -- Z class and RNG (R249 to R265)
  | mfc (d : Reg) (n : BitVec 12)
  | mtc (a : Reg) (n : BitVec 12)
  | trap (n : BitVec 12)
  | sysRft
  | sysHalt
  | sysTlbi (a : Reg)
  | sysTlbia
  | sysGsw (a : Reg)
  | sysCut (a : Reg)
  | sysCeresume (a : Reg)
  | sysSrgrow (a : Reg)
  | rget (d : Reg)
  | rskip (a b : Reg) (wa wb : Bool)
  | rseed (a b : Reg) (wa wb : Bool)
  | rctl (d : Reg)
  | rcth (d : Reg)
  -- Events of the pipeline and the memory path; sn is the producer's issue number
  | repRepeat (ag : Agent)
  | hogRotation (core : Nat)
  | stallClear (ag : Agent)
  | divideComplete (ag : Agent) (sn : Nat)
  | loadComplete (ag : Agent) (sn : Nat)
  | vextDeferredFill (ag : Agent) (sn : Nat)
  | atomicPerform (ag : Agent) (sn : Nat)
  | memoryFaultReport (ag : Agent)
  | waitcRecheck (ag : Agent)
  | barrierRelease (grp : Nat) (id : BitVec 12)
  | tendDrainEnd (ag : Agent)
  | taskCommit (ag : Agent)
  | haltDrainEnd (ag : Agent)
  -- Events of the matrix engine; c is the command's number
  | matrixCommandStart (c : Nat)
  | matrixCommandComplete (c : Nat)
  | arrayEnableGrant (cluster : Nat)
  | arrayDisable (cluster : Nat)
  -- Events of the other engines and translation units
  | engineCommandStart (c : Nat)
  | nbHoldRelease (c : Nat)
  | engineCommandComplete (c : Nat)
  | enginePark (c : Nat)
  | faultRingDrain (die : Nat)
  | pageWalkComplete (unit n : Nat)
  | replicatedWrite (n : Nat)
  | workListOperation (core : Nat)
  | workListSpillComplete (core : Nat)
  | sparseOperation (c : Nat)
  -- Events of launches; m is the place of a message, l a launch, t a task
  | launchDistribution (m : Nat)
  | launchAcceptance (m : Nat)
  | launchRefusal (m : Nat)
  | phaseStart (m : Nat)
  | phaseBegin (sh : Nat)
  | phaseReport (m : Nat)
  | taskPlacement (die : Nat)
  | tileFillComplete (t tile : Nat)
  | taskBind (t : Nat)
  | taskAging (sh idx : Nat)
  | groupReservation (sh idx : Nat)
  -- Events of the fabric; n is the place of a packet, r of a request
  | write (n : Nat)
  | read (n : Nat)
  | reduce (n : Nat)
  | counterAdd (n : Nat)
  | acknowledge (n : Nat)
  | readData (n : Nat)
  | parkNotice (n : Nat)
  | resumeNotice (n : Nat)
  | floor (n : Nat)
  | heldRequestRelease (n : Nat)
  | requestResend (r : Nat)
  | requestTimeout (r : Nat)
  | tagQuarantineEnd (die : Nat)
  | packetForward (n : Nat)
  | packetExpiry (n : Nat)
  | creditReturn (port ch : Nat) (reserved : Bool)
  | linkResendRequest (port : Nat)
  | trainingComplete (port ndev nport : Nat)
  | trainingTimeout (port : Nat)
  | retrainingStart (port : Nat)
  | retrainingComplete (port : Nat)
  | retrainingTimeout (port : Nat)
  | beaconSend
  | beacon (port : Nat) (cyc : BitVec 80)
  | echo (port delay : Nat)
  | alignmentLoss
  | manage (n : Nat)
  -- Events of cuts and gang switches
  | cutOpen (m : Nat)
  | cutReport (m : Nat)
  | cutTarget (m : Nat)
  | cutTimeLimit (ag : Agent)
  | contextSave (ag : Agent)
  | switchAcceptance (m : Nat)
  | switchFreeze (die job : Nat)
  | sweepFence (job : Nat) (pl : Place)
  | sweepTimeout (job : Nat) (pl : Place)
  | localSweepComplete (job : Nat)
  | tagChange (m : Nat)
  | switchResume (job : Nat)
  -- Events of the platform and the host
  -- `fail` is the code of the boot step that fails, 0 when none does
  | powerOn (fail : Nat)
  | seqgo (die : Nat) (v : Word)
  | ctxrst (v : Word)
  | quoteNonce (nonce : BitVec 256)
  | quoteComplete
  | routeEntryWrite (d : Nat) (v : BitVec 32)
  | fstepWrite (v : Word)
  | portEnable (port : Nat)
  | portDisable (port : Nat)
  | counterWrite (i : Nat) (v : Word)
  | hostRegisterWrite (off : Nat) (v : Word)
  | hostMemoryAccess (off : Nat) (w : Option Word)
  | thermalUpdate (region temp stackTemp : Nat)
  | powerMonitor (above : Bool)
  | saveCompleteReport (m : Nat)
  | launchAnswerTimeout (l : Nat)
deriving DecidableEq, Repr

end Sys2Proof
end

