-- ==== Sys2Proof/WellFormed.lean ====
section
/-! DEFINITION. The checks of step 3 of R84 that depend on the slot's word alone and that the opcode map states as limits on a
listed form (R78, R86, R123, R152, R252). A slot that breaks one faults Illegal Instruction. -/

namespace Sys2Proof

/-- Why a decoded slot is ill-formed. -/
inductive IllForm where
  /-- x[P + n − 1] lies past x63 (R78). -/
  | paramsPastX63
  /-- The element type is outside those the opcode allows (R86). -/
  | elementType
  /-- m0 is named as a destination mask (R17). -/
  | maskZero
  /-- LOOP with OFF12 zero or negative (R124). -/
  | loopOffset
  /-- A VCVT register group runs past v63 (R152). -/
  | groupPastV63
  /-- VMSK set or clr with a non-zero A[2:0] (R165). -/
  | maskSource
  /-- A control-register number that R253 does not assign. -/
  | controlNumber
  /-- MTC to a register that is read-only in both modes (R252). -/
  | controlReadOnly
deriving DecidableEq, Repr

/-- The code of an element type (R87). -/
def ETy.num : ETy → Nat
  | .f32 => 0 | .bf16 => 1 | .f16 => 2 | .s32 => 3 | .s16 => 4 | .s8 => 5 | .n32 => 6 | .n8 => 7

/-- The width of an element type in bytes (R87). -/
def ETy.bytes : ETy → Nat
  | .f32 | .s32 | .n32 => 4
  | .bf16 | .f16 | .s16 => 2
  | .s8 | .n8 => 1

/-- The floating types, codes 0 to 2 (R87). -/
def ETy.isFloat : ETy → Bool
  | .f32 | .bf16 | .f16 => true
  | _ => false

/-- The integer types, codes 3 to 7 (R87). -/
def ETy.isInt (t : ETy) : Bool := !t.isFloat

/-- The types that carry a sign, codes 0 to 5 (R87). -/
def ETy.hasSign : ETy → Bool
  | .n32 | .n8 => false
  | _ => true

/-- Check n parameter registers from x[P] on (R78). -/
def paramsFit (p : Reg) (n : Nat) : Option IllForm :=
  if p.toNat + n ≤ 64 then none else some .paramsPastX63

/-- Check the element type. -/
def typeFit (ok : Bool) : Option IllForm := if ok then none else some .elementType

/-- The number of registers of the wide side of a VCVT (R152). -/
def cvtGroup (src dst : ETy) : Nat := max (src.bytes / dst.bytes) (dst.bytes / src.bytes)

/-- The first ill-formedness of an instruction, if any. Events have none. -/
def illFormed? : Instr → Option IllForm
  | .mlw p _ _ _ _ | .mma p _ _ _ _ | .mman p _ _ _ _ | .mmab p _ _ _ _ | .mdr p _ _ _ _ => paramsFit p 3
  | .mla p _ _ _ _ => paramsFit p 4
  | .rgmap p _ _ _ _ | .spd p _ _ _ _ => paramsFit p 3
  | .wlpop p _ _ _ _ | .csg p _ _ _ _ _ => paramsFit p 2
  | .cpy p _ _ _ _ => paramsFit p 9
  | .cprWrite p _ _ _ _ | .cprRead p _ _ _ _ | .crd p _ _ _ _ | .gth p _ _ _ _ | .sct p _ _ _ _ | .sca p _ _ _ _ =>
    paramsFit p 5
  | .spl p _ _ _ _ | .sps p _ _ _ _ | .spa p _ _ _ _ | .spi p _ _ _ _ => paramsFit p 4
  | .loop _ _ off => if 0 < off.toInt then none else some .loopOffset
  | .vfma _ _ _ _ t | .vfms _ _ _ _ t | .vfnm _ _ _ _ t | .vminm _ _ _ _ t | .vmaxm _ _ _ _ t | .vsfn _ _ _ _ t
  | .vqmx _ _ _ t | .vprune _ _ _ _ t | .vscl _ _ _ _ t => typeFit t.isFloat
  | .vabs _ _ _ t | .vneg _ _ _ t => typeFit t.hasSign
  | .vshl _ _ _ _ t | .vshr _ _ _ _ t | .vsra _ _ _ _ t | .vbits _ _ _ _ t => typeFit t.isInt
  | .vcmp e c _ _ _ t =>
    if e = 0 then some .maskZero else typeFit (t.isFloat || (c != .un && c != .ord))
  | .vred _ _ op _ t => typeFit (t.isFloat || (op != .maxm && op != .minm))
  | .vrand _ u _ t => typeFit (!u || t == .f32)
  | .vcvt d a dt _ _ t =>
    if t.bytes > dt.bytes then (if a.toNat + cvtGroup t dt ≤ 64 then none else some .groupPastV63)
    else if t.bytes < dt.bytes then (if d.toNat + cvtGroup t dt ≤ 64 then none else some .groupPastV63)
    else none
  | .vmsk e f op =>
    if e = 0 then some .maskZero
    else if (op == .set || op == .clr) && f != 0 then some .maskSource else none
  | .mfc _ n => if n.toNat < 0x18 then none else some .controlNumber
  | .mtc _ n =>
    if n.toNat ≥ 0x18 then some .controlNumber
    else if n.toNat ∈ [0x06, 0x07, 0x08, 0x09, 0x0A, 0x0F, 0x16] then some .controlReadOnly else none
  | _ => none

/-- A well-formed instruction. -/
def Instr.wf (i : Instr) : Bool := (illFormed? i).isNone

end Sys2Proof
end

