-- ==== Sys2Proof/Decode.lean ====
section
/-! DEFINITION. The decoder of slot words (spec/03_encoding.md, R76 to R92) and, after it, the encoder written from the same
tables. Decoding is total: a word that is no listed form is rejected by name, and the machine then takes Illegal Instruction (R90).
Limits that a listed form has beside its layout are in WellFormed. -/

namespace Sys2Proof

/-- Why a word is no listed form (R90). -/
inductive DecodeError where
  /-- One of the opcodes 0x45 to 0x47, 0x52, 0x53, 0x7F. -/
  | reservedOpcode (op : Nat)
  /-- A function code, selector, rounding mode or subfunction that the opcode map does not list. -/
  | unlistedFunction (op fn : Nat)
  /-- A must-be-zero field holds another value (R41). -/
  | fieldNotZero (op : Nat)
deriving DecidableEq, Repr

/-! Codes of the selectors. -/

def ETy.code : ETy → BitVec 3
  | .f32 => 0 | .bf16 => 1 | .f16 => 2 | .s32 => 3 | .s16 => 4 | .s8 => 5 | .n32 => 6 | .n8 => 7

def ETy.ofCode (c : BitVec 3) : ETy :=
  match c.toNat with
  | 0 => .f32 | 1 => .bf16 | 2 => .f16 | 3 => .s32 | 4 => .s16 | 5 => .s8 | 6 => .n32 | _ => .n8

def RMode.code : RMode → BitVec 3
  | .rne => 0 | .rtz => 1 | .rup => 2 | .rdn => 3 | .rna => 4 | .sr => 5

def RMode.ofCode (c : BitVec 3) : Option RMode :=
  match c.toNat with
  | 0 => some .rne | 1 => some .rtz | 2 => some .rup | 3 => some .rdn | 4 => some .rna | 5 => some .sr | _ => none

def Scope.code : Scope → BitVec 2
  | .ctx => 0 | .grp => 1 | .dev => 2 | .sys => 3

def Scope.ofCode (c : BitVec 2) : Scope :=
  match c.toNat with
  | 0 => .ctx | 1 => .grp | 2 => .dev | _ => .sys

def WCond.code : WCond → BitVec 2
  | .ge => 0 | .eq => 1 | .ne => 2 | .geu => 3

def WCond.ofCode (c : BitVec 2) : WCond :=
  match c.toNat with
  | 0 => .ge | 1 => .eq | 2 => .ne | _ => .geu

def Width.code : Width → BitVec 2
  | .w8 => 0 | .w16 => 1 | .w32 => 2 | .w64 => 3

def Width.ofCode (c : BitVec 2) : Width :=
  match c.toNat with
  | 0 => .w8 | 1 => .w16 | 2 => .w32 | _ => .w64

def SFn.code : SFn → BitVec 6
  | .rcp => 0 | .rsq => 1 | .sqrt => 2 | .exp2 => 3 | .log2 => 4 | .tanh => 5 | .sigm => 6 | .erf => 7

def SFn.ofCode (c : BitVec 6) : Option SFn :=
  match c.toNat with
  | 0 => some .rcp | 1 => some .rsq | 2 => some .sqrt | 3 => some .exp2 | 4 => some .log2 | 5 => some .tanh
  | 6 => some .sigm | 7 => some .erf | _ => none

def VCond.code : VCond → BitVec 3
  | .eq => 0 | .ne => 1 | .lt => 2 | .le => 3 | .gt => 4 | .ge => 5 | .un => 6 | .ord => 7

def VCond.ofCode (c : BitVec 3) : VCond :=
  match c.toNat with
  | 0 => .eq | 1 => .ne | 2 => .lt | 3 => .le | 4 => .gt | 5 => .ge | 6 => .un | _ => .ord

def RedOp.code : RedOp → BitVec 6
  | .sum => 0 | .max => 1 | .min => 2 | .maxm => 3 | .minm => 4

def RedOp.ofCode (c : BitVec 6) : Option RedOp :=
  match c.toNat with
  | 0 => some .sum | 1 => some .max | 2 => some .min | 3 => some .maxm | 4 => some .minm | _ => none

def BitOp.code : BitOp → BitVec 6
  | .clz => 0 | .ffs => 1 | .popc => 2 | .brev => 3

def BitOp.ofCode (c : BitVec 6) : Option BitOp :=
  match c.toNat with
  | 0 => some .clz | 1 => some .ffs | 2 => some .popc | 3 => some .brev | _ => none

def MaskOp.code : MaskOp → BitVec 6
  | .and => 0 | .or => 1 | .xor => 2 | .andn => 3 | .not => 4 | .set => 5 | .clr => 6

def MaskOp.ofCode (c : BitVec 6) : Option MaskOp :=
  match c.toNat with
  | 0 => some .and | 1 => some .or | 2 => some .xor | 3 => some .andn | 4 => some .not | 5 => some .set
  | 6 => some .clr | _ => none

def AmoOrd.code : AmoOrd → BitVec 2
  | .relaxed => 0 | .acq => 1 | .rel => 2 | .acqrel => 3

def AmoOrd.ofCode (c : BitVec 2) : AmoOrd :=
  match c.toNat with
  | 0 => .relaxed | 1 => .acq | 2 => .rel | _ => .acqrel

def AmoFn.code : AmoFn → BitVec 4
  | .add => 0 | .and => 1 | .or => 2 | .xor => 3 | .min => 4 | .max => 5 | .minn => 6 | .maxn => 7 | .swp => 8
  | .cas => 9 | .fadd => 10

def AmoFn.ofCode (c : BitVec 4) : Option AmoFn :=
  match c.toNat with
  | 0 => some .add | 1 => some .and | 2 => some .or | 3 => some .xor | 4 => some .min | 5 => some .max
  | 6 => some .minn | 7 => some .maxn | 8 => some .swp | 9 => some .cas | 10 => some .fadd | _ => none

def FenceKind.code : FenceKind → BitVec 2
  | .acq => 0 | .rel => 1 | .full => 2

def FenceKind.ofCode (c : BitVec 2) : Option FenceKind :=
  match c.toNat with
  | 0 => some .acq | 1 => some .rel | 2 => some .full | _ => none

/-! The fields of a slot word (R77). -/

/-- Bits lo + len − 1 to lo of a slot word. -/
abbrev fld (w : SlotWord) (lo len : Nat) : BitVec len := w.extractLsb' lo len
/-- OP, bits [30:24] (R76). -/
def opField (w : SlotWord) : Nat := (fld w 24 7).toNat
/-- S, bit 31 (R76). -/
def stopBit (w : SlotWord) : Bool := w.getLsbD 31
/-- The first register field, bits [23:18]. -/
def rD (w : SlotWord) : Reg := fld w 18 6
/-- The second register field, bits [17:12]. -/
def rA (w : SlotWord) : Reg := fld w 12 6
/-- The third register field, bits [11:6]. -/
def rB (w : SlotWord) : Reg := fld w 6 6
/-- WA of the R format, bit 5. -/
def fWA (w : SlotWord) : Bool := w.getLsbD 5
/-- WB of the R format, bit 4. -/
def fWB (w : SlotWord) : Bool := w.getLsbD 4
/-- FN of the R format, bits [3:0]. -/
def fFN (w : SlotWord) : BitVec 4 := fld w 0 4
/-- WA of the I and M formats, bit 11. -/
def fWI (w : SlotWord) : Bool := w.getLsbD 11
/-- IMM11 or DISP11, bits [10:0]. -/
def fI11 (w : SlotWord) : BitVec 11 := fld w 0 11
/-- IMM12 or OFF12, bits [11:0]. -/
def fI12 (w : SlotWord) : BitVec 12 := fld w 0 12
/-- IMM18, bits [17:0]. -/
def fI18 (w : SlotWord) : BitVec 18 := fld w 0 18
/-- OFF24, bits [23:0]. -/
def fI24 (w : SlotWord) : BitVec 24 := fld w 0 24
/-- MK of the V format, bits [5:3]. -/
def fMK (w : SlotWord) : MReg := fld w 3 3
/-- T of the V format, bits [2:0]. -/
def fT (w : SlotWord) : ETy := ETy.ofCode (fld w 0 3)
/-- KD, KA, KB, KC and FN of the E format. -/
def fKD (w : SlotWord) : Tok := fld w 14 4
def fKA (w : SlotWord) : Tok := fld w 10 4
def fKB (w : SlotWord) : Tok := fld w 6 4
def fKC (w : SlotWord) : Tok := fld w 2 4
def fE2 (w : SlotWord) : BitVec 2 := fld w 0 2

/-- Accept an instruction when the fields that must be zero are zero (R41). -/
def needZero (w : SlotWord) (z : Bool) (i : Instr) : Except DecodeError Instr :=
  if z then .ok i else .error (.fieldNotZero (opField w))

/-- Accept what a selector field names, or reject the selector. -/
def needSel {α : Type} (w : SlotWord) (sel : Nat) (o : Option α) (f : α → Except DecodeError Instr) :
    Except DecodeError Instr :=
  match o with
  | some a => f a
  | none => .error (.unlistedFunction (opField w) sel)

/-- OP 0x02, the ALU group (R85, R114). -/
def decodeAlu (w : SlotWord) : Except DecodeError Instr :=
  let d := rD w; let a := rA w; let b := rB w; let wa := fWA w; let wb := fWB w
  match (fFN w).toNat with
  | 0 => .ok (.add d a b wa wb)
  | 1 => .ok (.sub d a b wa wb)
  | 2 => .ok (.and d a b wa wb)
  | 3 => .ok (.or d a b wa wb)
  | 4 => .ok (.xor d a b wa wb)
  | 5 => .ok (.andn d a b wa wb)
  | 6 => .ok (.shl d a b wa wb)
  | 7 => .ok (.shr d a b wa wb)
  | 8 => .ok (.sra d a b wa wb)
  | 9 => .ok (.ror d a b wa wb)
  | 10 => .ok (.slt d a b wa wb)
  | 11 => .ok (.sltn d a b wa wb)
  | 12 => .ok (.seq d a b wa wb)
  | 13 => .ok (.min d a b wa wb)
  | 14 => .ok (.max d a b wa wb)
  | _ => .ok (.sel d a b wa wb)

/-- OP 0x03, the MUL group (R85, R115 to R117). -/
def decodeMul (w : SlotWord) : Except DecodeError Instr :=
  let d := rD w; let a := rA w; let b := rB w; let wa := fWA w; let wb := fWB w
  let z := fld w 8 4 == 0 && !wb
  let n := Width.ofCode (fld w 6 2)
  match (fFN w).toNat with
  | 0 => .ok (.mul d a b wa wb)
  | 1 => .ok (.mulh d a b wa wb)
  | 2 => .ok (.mulhn d a b wa wb)
  | 3 => .ok (.div d a b wa wb)
  | 4 => .ok (.divn d a b wa wb)
  | 5 => .ok (.rem d a b wa wb)
  | 6 => .ok (.remn d a b wa wb)
  | 7 => .ok (.minn d a b wa wb)
  | 8 => .ok (.maxn d a b wa wb)
  | 9 => needZero w z (.clz d a n wa)
  | 10 => needZero w z (.ffs d a n wa)
  | 11 => needZero w z (.popc d a n wa)
  | 12 => needZero w z (.brev d a n wa)
  | 13 => needZero w z (.sext d a n wa)
  | 14 => needZero w z (.zext d a n wa)
  | n => .error (.unlistedFunction 0x03 n)

/-- OP 0x00 to 0x1F, the N, S and C classes (R85). -/
def decodeNSC (w : SlotWord) : Except DecodeError Instr :=
  let d := rD w; let a := rA w; let b := rB w
  match opField w with
  | 0x00 => needZero w (fI24 w == 0) .nop
  | 0x01 => needZero w (fI12 w == 0) (.rep d (fld w 16 2) (fld w 14 2) (fld w 12 2))
  | 0x02 => decodeAlu w
  | 0x03 => decodeMul w
  | 0x04 => .ok (.addi d a (fWI w) (fI11 w))
  | 0x05 => .ok (.andi d a (fWI w) (fI11 w))
  | 0x06 => .ok (.ori d a (fWI w) (fI11 w))
  | 0x07 => .ok (.xori d a (fWI w) (fI11 w))
  | 0x08 => needZero w (fld w 6 5 == 0) (.shli d a (fWI w) (fld w 0 6))
  | 0x09 => needZero w (fld w 6 5 == 0) (.shri d a (fWI w) (fld w 0 6))
  | 0x0A => needZero w (fld w 6 5 == 0) (.srai d a (fWI w) (fld w 0 6))
  | 0x0B => .ok (.slti d a (fWI w) (fI11 w))
  | 0x0C => .ok (.sltni d a (fWI w) (fI11 w))
  | 0x0D => .ok (.li d (fI18 w))
  | 0x0E => .ok (.lis d (fI18 w))
  | 0x0F => .ok (.addpc d (fI18 w))
  | 0x10 => .ok (.beq d a (fI12 w))
  | 0x11 => .ok (.bne d a (fI12 w))
  | 0x12 => .ok (.blt d a (fI12 w))
  | 0x13 => .ok (.bge d a (fI12 w))
  | 0x14 => .ok (.bltn d a (fI12 w))
  | 0x15 => .ok (.bgen d a (fI12 w))
  | 0x16 => .ok (.jmp (fI24 w))
  | 0x17 => .ok (.jal (fI24 w))
  | 0x18 => needZero w (b == 0 && !fWB w && fFN w == 0) (.jr d a (fWA w))
  | 0x19 => needZero w (fld w 14 4 == 0) (.loop d (fld w 12 2) (fI12 w))
  | 0x1A => needZero w (d == 0) (.quiet a (fI12 w))
  | 0x1B => needZero w (d == 0 && fKD w == 0 && fE2 w == 0) (.tkw (fKA w) (fKB w) (fKC w))
  | 0x1C => needZero w (d == 0) (.waitc a b (fWA w) (fWB w) (Scope.ofCode (fld w 2 2)) (WCond.ofCode (fld w 0 2)))
  | 0x1D => needZero w (d == 0 && a == 0) (.bar (fI12 w))
  | 0x1E => needZero w (d == 0 && a == 0 && fI12 w == 0) .tend
  | 0x1F => needZero w (d == 0 && a == 0) (.slk (fI12 w))
  | n => .error (.reservedOpcode n)

/-- OP 0x20 to 0x44, the V class (R86). -/
def decodeV (w : SlotWord) : Except DecodeError Instr :=
  let d := rD w; let a := rA w; let b := rB w; let m := fMK w; let t := fT w
  match opField w with
  | 0x20 => .ok (.vadd d a b m t)
  | 0x21 => .ok (.vsub d a b m t)
  | 0x22 => .ok (.vmul d a b m t)
  | 0x23 => .ok (.vfma d a b m t)
  | 0x24 => .ok (.vfms d a b m t)
  | 0x25 => .ok (.vfnm d a b m t)
  | 0x26 => .ok (.vmin d a b m t)
  | 0x27 => .ok (.vmax d a b m t)
  | 0x28 => .ok (.vminm d a b m t)
  | 0x29 => .ok (.vmaxm d a b m t)
  | 0x2A => needZero w (b == 0) (.vabs d a m t)
  | 0x2B => needZero w (b == 0) (.vneg d a m t)
  | 0x2C => needSel w b.toNat (SFn.ofCode b) fun fn => .ok (.vsfn d a fn m t)
  | 0x2D => .ok (.vcmp (fld w 18 3) (VCond.ofCode (fld w 21 3)) a b m t)
  | 0x2E => .ok (.vsel d a b m t)
  | 0x2F => .ok (.vand d a b m t)
  | 0x30 => .ok (.vor d a b m t)
  | 0x31 => .ok (.vxor d a b m t)
  | 0x32 => .ok (.vshl d a b m t)
  | 0x33 => .ok (.vshr d a b m t)
  | 0x34 => .ok (.vsra d a b m t)
  | 0x35 => needSel w (fld w 6 3).toNat (RMode.ofCode (fld w 6 3)) fun rm => .ok (.vcvt d a (ETy.ofCode (fld w 9 3)) rm m t)
  | 0x36 => needZero w (d == 0) (.vqmx a b m t)
  | 0x37 => needSel w b.toNat (RedOp.ofCode b) fun op => .ok (.vred d a op m t)
  | 0x38 => needZero w (b == 0) (.vscan d a m t)
  | 0x39 => .ok (.vperm d a b m t)
  | 0x3A => needZero w (b == 0) (.vbcst d a m t)
  | 0x3B => needZero w (m == 0) (.vext d a b t)
  | 0x3C => .ok (.vins d a b m t)
  | 0x3D => needZero w (a == 0 && b == 0) (.viota d m t)
  | 0x3E => needSel w b.toNat (BitOp.ofCode b) fun op => .ok (.vbits d a op m t)
  | 0x3F => .ok (.vprune d a b m t)
  | 0x40 =>
    match b.toNat with
    | 0 => needZero w (a == 0) (.vrand d false m t)
    | 1 => needZero w (a == 0) (.vrand d true m t)
    | n => .error (.unlistedFunction 0x40 n)
  | 0x41 => .ok (.vscl d a b m t)
  | 0x42 => needZero w (b == 0) (.vmov d a m t)
  | 0x43 => needSel w b.toNat (MaskOp.ofCode b) fun op =>
      needZero w (fld w 21 3 == 0 && fld w 15 3 == 0 && fld w 0 6 == 0) (.vmsk (fld w 18 3) (fld w 12 3) op)
  | 0x44 => needZero w (fld w 15 3 == 0 && b == 0 && m == 0) (.vmcnt d (fld w 12 3) t)
  | n => .error (.reservedOpcode n)

/-- The atomics, OP 0x63 to 0x65 (R88). -/
def decodeAmo (w : SlotWord) (mk : Reg → Reg → Reg → AmoOrd → AmoFn → Instr) : Except DecodeError Instr :=
  needSel w (fFN w).toNat (AmoFn.ofCode (fFN w)) fun fn =>
    .ok (mk (rD w) (rA w) (rB w) (AmoOrd.ofCode (fld w 4 2)) fn)

/-- An E-format command whose FN must be zero. -/
def decodeE (w : SlotWord) (mk : Reg → Tok → Tok → Tok → Tok → Instr) : Except DecodeError Instr :=
  needZero w (fE2 w == 0) (mk (rD w) (fKD w) (fKA w) (fKB w) (fKC w))

/-- OP 0x48 to 0x6C, the X and L classes (R88). -/
def decodeXL (w : SlotWord) : Except DecodeError Instr :=
  let d := rD w; let a := rA w; let b := rB w
  match opField w with
  | 0x48 => needZero w (d == 0 && b == 0 && !fWB w && fFN w == 0) (.mpcw a (fWA w))
  | 0x49 => decodeE w .mlw
  | 0x4A => decodeE w .mla
  | 0x4B => decodeE w .mma
  | 0x4C => decodeE w .mman
  | 0x4D => decodeE w .mmab
  | 0x4E => decodeE w .mdr
  | 0x4F => decodeE w .mza
  | 0x50 => decodeE w .mrb
  | 0x51 => decodeE w .mstat
  | 0x54 => .ok (.ldbs d a (fWI w) (fI11 w))
  | 0x55 => .ok (.ldbn d a (fWI w) (fI11 w))
  | 0x56 => .ok (.ldhs d a (fWI w) (fI11 w))
  | 0x57 => .ok (.ldhn d a (fWI w) (fI11 w))
  | 0x58 => .ok (.ldws d a (fWI w) (fI11 w))
  | 0x59 => .ok (.ldwn d a (fWI w) (fI11 w))
  | 0x5A => .ok (.ldd d a (fWI w) (fI11 w))
  | 0x5B => .ok (.stb d a (fWI w) (fI11 w))
  | 0x5C => .ok (.sth d a (fWI w) (fI11 w))
  | 0x5D => .ok (.stw d a (fWI w) (fI11 w))
  | 0x5E => .ok (.std d a (fWI w) (fI11 w))
  | 0x5F => .ok (.ldv d a (fWI w) (fI11 w))
  | 0x60 => .ok (.stv d a (fWI w) (fI11 w))
  | 0x61 => needZero w (b == 0 && !fWB w) (.lda d a (fWA w) (Width.ofCode (fld w 2 2)) (Scope.ofCode (fld w 0 2)))
  | 0x62 => needZero w (d == 0) (.stl a b (fWA w) (fWB w) (Width.ofCode (fld w 2 2)) (Scope.ofCode (fld w 0 2)))
  | 0x63 => decodeAmo w .amog
  | 0x64 => decodeAmo w .amod
  | 0x65 => decodeAmo w .amos
  | 0x66 => needSel w (fld w 2 2).toNat (FenceKind.ofCode (fld w 2 2)) fun k =>
      needZero w (d == 0 && a == 0 && fld w 5 7 == 0) (.fence (w.getLsbD 4) k (Scope.ofCode (fld w 0 2)))
  | 0x67 => decodeE w .rgmap
  | 0x68 => decodeE w .rgwb
  | 0x69 => decodeE w .rginv
  | 0x6A => needZero w (fFN w == 0) (.wlpsh d a b (fWA w) (fWB w))
  | 0x6B => decodeE w .wlpop
  | 0x6C => needZero w (fFN w == 0) (.wlins d a b (fWA w) (fWB w))
  | n => .error (.reservedOpcode n)

/-- OP 0x6D to 0x7F, the E and Z classes and RNG (R89). -/
def decodeEZ (w : SlotWord) : Except DecodeError Instr :=
  let d := rD w; let a := rA w; let b := rB w
  match opField w with
  | 0x6D => decodeE w .cpy
  | 0x6E =>
    match (fE2 w).toNat with
    | 0 => .ok (.cprWrite d (fKD w) (fKA w) (fKB w) (fKC w))
    | 1 => .ok (.cprRead d (fKD w) (fKA w) (fKB w) (fKC w))
    | n => .error (.unlistedFunction 0x6E n)
  | 0x6F => decodeE w .crd
  | 0x70 => .ok (.csg d (fKD w) (fKA w) (fKB w) (fKC w) (Scope.ofCode (fE2 w)))
  | 0x71 => decodeE w .gth
  | 0x72 => decodeE w .sct
  | 0x73 => decodeE w .sca
  | 0x74 => decodeE w .spl
  | 0x75 => decodeE w .sps
  | 0x76 => decodeE w .spa
  | 0x77 => decodeE w .spi
  | 0x78 => decodeE w .spd
  | 0x79 => decodeE w .lnch
  | 0x7A => needZero w (a == 0) (.mfc d (fI12 w))
  | 0x7B => needZero w (d == 0) (.mtc a (fI12 w))
  | 0x7C => needZero w (d == 0 && a == 0) (.trap (fI12 w))
  | 0x7D =>
    match (fI12 w).toNat with
    | 0 => needZero w (d == 0 && a == 0) .sysRft
    | 1 => needZero w (d == 0 && a == 0) .sysHalt
    | 2 => needZero w (d == 0) (.sysTlbi a)
    | 3 => needZero w (d == 0 && a == 0) .sysTlbia
    | 4 => needZero w (d == 0) (.sysGsw a)
    | 5 => needZero w (d == 0) (.sysCut a)
    | 6 => needZero w (d == 0) (.sysCeresume a)
    | 7 => needZero w (d == 0) (.sysSrgrow a)
    | n => .error (.unlistedFunction 0x7D n)
  | 0x7E =>
    match (fFN w).toNat with
    | 0 => needZero w (a == 0 && b == 0 && !fWA w && !fWB w) (.rget d)
    | 1 => needZero w (d == 0) (.rskip a b (fWA w) (fWB w))
    | 2 => needZero w (d == 0) (.rseed a b (fWA w) (fWB w))
    | 3 => needZero w (a == 0 && b == 0 && !fWA w && !fWB w) (.rctl d)
    | 4 => needZero w (a == 0 && b == 0 && !fWA w && !fWB w) (.rcth d)
    | n => .error (.unlistedFunction 0x7E n)
  | n => .error (.reservedOpcode n)

/-- The instruction of a slot word; S plays no part (R76, R90). -/
def decode (w : SlotWord) : Except DecodeError Instr :=
  if opField w < 0x20 then decodeNSC w
  else if opField w < 0x48 then decodeV w
  else if opField w < 0x6D then decodeXL w
  else decodeEZ w

/-- The decoder on a table word: a slot has 32 bits, an event has no bits and no word. -/
def decodeTableWord (nbits w : Nat) : Option Instr :=
  if nbits ≤ 32 && w < 2 ^ 32 then (decode (BitVec.ofNat 32 w)).toOption else none

/-! The encoder, written from the same tables (R77, R85 to R89). -/

def ofB (b : Bool) : BitVec 1 := BitVec.ofBool b

/-- R format. -/
def encR (op : BitVec 7) (d a b : Reg) (wa wb : Bool) (fn : BitVec 4) : SlotWord :=
  0#1 ++ op ++ d ++ a ++ b ++ ofB wa ++ ofB wb ++ fn
/-- I and M formats. -/
def encI (op : BitVec 7) (d a : Reg) (wa : Bool) (imm : BitVec 11) : SlotWord := 0#1 ++ op ++ d ++ a ++ ofB wa ++ imm
/-- U format. -/
def encU (op : BitVec 7) (d : Reg) (imm : BitVec 18) : SlotWord := 0#1 ++ op ++ d ++ imm
/-- B and Z formats. -/
def encZ (op : BitVec 7) (d a : Reg) (imm : BitVec 12) : SlotWord := 0#1 ++ op ++ d ++ a ++ imm
/-- J format. -/
def encJ (op : BitVec 7) (off : BitVec 24) : SlotWord := 0#1 ++ op ++ off
/-- V format. -/
def encV (op : BitVec 7) (d a b : BitVec 6) (m : MReg) (t : BitVec 3) : SlotWord := 0#1 ++ op ++ d ++ a ++ b ++ m ++ t
/-- E format. -/
def encE (op : BitVec 7) (p : Reg) (kd ka kb kc : Tok) (fn : BitVec 2) : SlotWord :=
  0#1 ++ op ++ p ++ kd ++ ka ++ kb ++ kc ++ fn
/-- Q format. -/
def encQ (op : BitVec 7) (cnt : BitVec 6) (ds as bs : BitVec 2) : SlotWord := 0#1 ++ op ++ cnt ++ ds ++ as ++ bs ++ 0#12

/-- The word of a slot instruction with S clear; an event has none. -/
def encode : Instr → Option SlotWord
  | .nop => some (encJ 0x00 0)
  | .rep c ds as bs => some (encQ 0x01 c ds as bs)
  | .add d a b wa wb => some (encR 0x02 d a b wa wb 0)
  | .sub d a b wa wb => some (encR 0x02 d a b wa wb 1)
  | .and d a b wa wb => some (encR 0x02 d a b wa wb 2)
  | .or d a b wa wb => some (encR 0x02 d a b wa wb 3)
  | .xor d a b wa wb => some (encR 0x02 d a b wa wb 4)
  | .andn d a b wa wb => some (encR 0x02 d a b wa wb 5)
  | .shl d a b wa wb => some (encR 0x02 d a b wa wb 6)
  | .shr d a b wa wb => some (encR 0x02 d a b wa wb 7)
  | .sra d a b wa wb => some (encR 0x02 d a b wa wb 8)
  | .ror d a b wa wb => some (encR 0x02 d a b wa wb 9)
  | .slt d a b wa wb => some (encR 0x02 d a b wa wb 10)
  | .sltn d a b wa wb => some (encR 0x02 d a b wa wb 11)
  | .seq d a b wa wb => some (encR 0x02 d a b wa wb 12)
  | .min d a b wa wb => some (encR 0x02 d a b wa wb 13)
  | .max d a b wa wb => some (encR 0x02 d a b wa wb 14)
  | .sel d a b wa wb => some (encR 0x02 d a b wa wb 15)
  | .mul d a b wa wb => some (encR 0x03 d a b wa wb 0)
  | .mulh d a b wa wb => some (encR 0x03 d a b wa wb 1)
  | .mulhn d a b wa wb => some (encR 0x03 d a b wa wb 2)
  | .div d a b wa wb => some (encR 0x03 d a b wa wb 3)
  | .divn d a b wa wb => some (encR 0x03 d a b wa wb 4)
  | .rem d a b wa wb => some (encR 0x03 d a b wa wb 5)
  | .remn d a b wa wb => some (encR 0x03 d a b wa wb 6)
  | .minn d a b wa wb => some (encR 0x03 d a b wa wb 7)
  | .maxn d a b wa wb => some (encR 0x03 d a b wa wb 8)
  | .clz d a n wa => some (encR 0x03 d a (0#4 ++ n.code) wa false 9)
  | .ffs d a n wa => some (encR 0x03 d a (0#4 ++ n.code) wa false 10)
  | .popc d a n wa => some (encR 0x03 d a (0#4 ++ n.code) wa false 11)
  | .brev d a n wa => some (encR 0x03 d a (0#4 ++ n.code) wa false 12)
  | .sext d a n wa => some (encR 0x03 d a (0#4 ++ n.code) wa false 13)
  | .zext d a n wa => some (encR 0x03 d a (0#4 ++ n.code) wa false 14)
  | .addi d a wa n => some (encI 0x04 d a wa n)
  | .andi d a wa n => some (encI 0x05 d a wa n)
  | .ori d a wa n => some (encI 0x06 d a wa n)
  | .xori d a wa n => some (encI 0x07 d a wa n)
  | .shli d a wa n => some (encI 0x08 d a wa (0#5 ++ n))
  | .shri d a wa n => some (encI 0x09 d a wa (0#5 ++ n))
  | .srai d a wa n => some (encI 0x0A d a wa (0#5 ++ n))
  | .slti d a wa n => some (encI 0x0B d a wa n)
  | .sltni d a wa n => some (encI 0x0C d a wa n)
  | .li d n => some (encU 0x0D d n)
  | .lis d n => some (encU 0x0E d n)
  | .addpc d n => some (encU 0x0F d n)
  | .beq a b off => some (encZ 0x10 a b off)
  | .bne a b off => some (encZ 0x11 a b off)
  | .blt a b off => some (encZ 0x12 a b off)
  | .bge a b off => some (encZ 0x13 a b off)
  | .bltn a b off => some (encZ 0x14 a b off)
  | .bgen a b off => some (encZ 0x15 a b off)
  | .jmp off => some (encJ 0x16 off)
  | .jal off => some (encJ 0x17 off)
  | .jr d a wa => some (encR 0x18 d a 0 wa false 0)
  | .loop a l off => some (encZ 0x19 a (0#4 ++ l) off)
  | .quiet a n => some (encZ 0x1A 0 a n)
  | .tkw ka kb kc => some (encE 0x1B 0 0 ka kb kc 0)
  | .waitc a b wa wb sc c => some (encR 0x1C 0 a b wa wb (sc.code ++ c.code))
  | .bar id => some (encZ 0x1D 0 0 id)
  | .tend => some (encZ 0x1E 0 0 0)
  | .slk n => some (encZ 0x1F 0 0 n)
  | .vadd d a b m t => some (encV 0x20 d a b m t.code)
  | .vsub d a b m t => some (encV 0x21 d a b m t.code)
  | .vmul d a b m t => some (encV 0x22 d a b m t.code)
  | .vfma d a b m t => some (encV 0x23 d a b m t.code)
  | .vfms d a b m t => some (encV 0x24 d a b m t.code)
  | .vfnm d a b m t => some (encV 0x25 d a b m t.code)
  | .vmin d a b m t => some (encV 0x26 d a b m t.code)
  | .vmax d a b m t => some (encV 0x27 d a b m t.code)
  | .vminm d a b m t => some (encV 0x28 d a b m t.code)
  | .vmaxm d a b m t => some (encV 0x29 d a b m t.code)
  | .vabs d a m t => some (encV 0x2A d a 0 m t.code)
  | .vneg d a m t => some (encV 0x2B d a 0 m t.code)
  | .vsfn d a fn m t => some (encV 0x2C d a fn.code m t.code)
  | .vcmp e c a b m t => some (encV 0x2D (c.code ++ e) a b m t.code)
  | .vsel d a b m t => some (encV 0x2E d a b m t.code)
  | .vand d a b m t => some (encV 0x2F d a b m t.code)
  | .vor d a b m t => some (encV 0x30 d a b m t.code)
  | .vxor d a b m t => some (encV 0x31 d a b m t.code)
  | .vshl d a b m t => some (encV 0x32 d a b m t.code)
  | .vshr d a b m t => some (encV 0x33 d a b m t.code)
  | .vsra d a b m t => some (encV 0x34 d a b m t.code)
  | .vcvt d a dt rm m t => some (encV 0x35 d a (dt.code ++ rm.code) m t.code)
  | .vqmx a b m t => some (encV 0x36 0 a b m t.code)
  | .vred d a op m t => some (encV 0x37 d a op.code m t.code)
  | .vscan d a m t => some (encV 0x38 d a 0 m t.code)
  | .vperm d a b m t => some (encV 0x39 d a b m t.code)
  | .vbcst d a m t => some (encV 0x3A d a 0 m t.code)
  | .vext d a b t => some (encV 0x3B d a b 0 t.code)
  | .vins d a b m t => some (encV 0x3C d a b m t.code)
  | .viota d m t => some (encV 0x3D d 0 0 m t.code)
  | .vbits d a op m t => some (encV 0x3E d a op.code m t.code)
  | .vprune d a b m t => some (encV 0x3F d a b m t.code)
  | .vrand d u m t => some (encV 0x40 d 0 (if u then 1 else 0) m t.code)
  | .vscl d a b m t => some (encV 0x41 d a b m t.code)
  | .vmov d a m t => some (encV 0x42 d a 0 m t.code)
  | .vmsk e f op => some (encV 0x43 (0#3 ++ e) (0#3 ++ f) op.code 0 0)
  | .vmcnt d f t => some (encV 0x44 d (0#3 ++ f) 0 0 t.code)
  | .mpcw a wa => some (encR 0x48 0 a 0 wa false 0)
  | .mlw p kd ka kb kc => some (encE 0x49 p kd ka kb kc 0)
  | .mla p kd ka kb kc => some (encE 0x4A p kd ka kb kc 0)
  | .mma p kd ka kb kc => some (encE 0x4B p kd ka kb kc 0)
  | .mman p kd ka kb kc => some (encE 0x4C p kd ka kb kc 0)
  | .mmab p kd ka kb kc => some (encE 0x4D p kd ka kb kc 0)
  | .mdr p kd ka kb kc => some (encE 0x4E p kd ka kb kc 0)
  | .mza p kd ka kb kc => some (encE 0x4F p kd ka kb kc 0)
  | .mrb p kd ka kb kc => some (encE 0x50 p kd ka kb kc 0)
  | .mstat p kd ka kb kc => some (encE 0x51 p kd ka kb kc 0)
  | .ldbs t a wa n => some (encI 0x54 t a wa n)
  | .ldbn t a wa n => some (encI 0x55 t a wa n)
  | .ldhs t a wa n => some (encI 0x56 t a wa n)
  | .ldhn t a wa n => some (encI 0x57 t a wa n)
  | .ldws t a wa n => some (encI 0x58 t a wa n)
  | .ldwn t a wa n => some (encI 0x59 t a wa n)
  | .ldd t a wa n => some (encI 0x5A t a wa n)
  | .stb t a wa n => some (encI 0x5B t a wa n)
  | .sth t a wa n => some (encI 0x5C t a wa n)
  | .stw t a wa n => some (encI 0x5D t a wa n)
  | .std t a wa n => some (encI 0x5E t a wa n)
  | .ldv t a wa n => some (encI 0x5F t a wa n)
  | .stv t a wa n => some (encI 0x60 t a wa n)
  | .lda d a wa z sc => some (encR 0x61 d a 0 wa false (z.code ++ sc.code))
  | .stl a b wa wb z sc => some (encR 0x62 0 a b wa wb (z.code ++ sc.code))
  | .amog d a b o fn => some (encR 0x63 d a b (o.code.getLsbD 1) (o.code.getLsbD 0) fn.code)
  | .amod d a b o fn => some (encR 0x64 d a b (o.code.getLsbD 1) (o.code.getLsbD 0) fn.code)
  | .amos d a b o fn => some (encR 0x65 d a b (o.code.getLsbD 1) (o.code.getLsbD 0) fn.code)
  | .fence e k sc => some (encZ 0x66 0 0 (0#7 ++ ofB e ++ k.code ++ sc.code))
  | .rgmap p kd ka kb kc => some (encE 0x67 p kd ka kb kc 0)
  | .rgwb p kd ka kb kc => some (encE 0x68 p kd ka kb kc 0)
  | .rginv p kd ka kb kc => some (encE 0x69 p kd ka kb kc 0)
  | .wlpsh d a b wa wb => some (encR 0x6A d a b wa wb 0)
  | .wlpop p kd ka kb kc => some (encE 0x6B p kd ka kb kc 0)
  | .wlins d a b wa wb => some (encR 0x6C d a b wa wb 0)
  | .cpy p kd ka kb kc => some (encE 0x6D p kd ka kb kc 0)
  | .cprWrite p kd ka kb kc => some (encE 0x6E p kd ka kb kc 0)
  | .cprRead p kd ka kb kc => some (encE 0x6E p kd ka kb kc 1)
  | .crd p kd ka kb kc => some (encE 0x6F p kd ka kb kc 0)
  | .csg p kd ka kb kc sc => some (encE 0x70 p kd ka kb kc sc.code)
  | .gth p kd ka kb kc => some (encE 0x71 p kd ka kb kc 0)
  | .sct p kd ka kb kc => some (encE 0x72 p kd ka kb kc 0)
  | .sca p kd ka kb kc => some (encE 0x73 p kd ka kb kc 0)
  | .spl p kd ka kb kc => some (encE 0x74 p kd ka kb kc 0)
  | .sps p kd ka kb kc => some (encE 0x75 p kd ka kb kc 0)
  | .spa p kd ka kb kc => some (encE 0x76 p kd ka kb kc 0)
  | .spi p kd ka kb kc => some (encE 0x77 p kd ka kb kc 0)
  | .spd p kd ka kb kc => some (encE 0x78 p kd ka kb kc 0)
  | .lnch p kd ka kb kc => some (encE 0x79 p kd ka kb kc 0)
  | .mfc d n => some (encZ 0x7A d 0 n)
  | .mtc a n => some (encZ 0x7B 0 a n)
  | .trap n => some (encZ 0x7C 0 0 n)
  | .sysRft => some (encZ 0x7D 0 0 0)
  | .sysHalt => some (encZ 0x7D 0 0 1)
  | .sysTlbi a => some (encZ 0x7D 0 a 2)
  | .sysTlbia => some (encZ 0x7D 0 0 3)
  | .sysGsw a => some (encZ 0x7D 0 a 4)
  | .sysCut a => some (encZ 0x7D 0 a 5)
  | .sysCeresume a => some (encZ 0x7D 0 a 6)
  | .sysSrgrow a => some (encZ 0x7D 0 a 7)
  | .rget d => some (encR 0x7E d 0 0 false false 0)
  | .rskip a b wa wb => some (encR 0x7E 0 a b wa wb 1)
  | .rseed a b wa wb => some (encR 0x7E 0 a b wa wb 2)
  | .rctl d => some (encR 0x7E d 0 0 false false 3)
  | .rcth d => some (encR 0x7E d 0 0 false false 4)
  | .repRepeat _ | .hogRotation _ | .stallClear _ | .divideComplete _ _ | .loadComplete _ _ | .vextDeferredFill _ _
  | .atomicPerform _ _ | .memoryFaultReport _ | .waitcRecheck _ | .barrierRelease _ _ | .tendDrainEnd _ | .taskCommit _
  | .matrixCommandStart _ | .matrixCommandComplete _ | .arrayEnableGrant _ | .arrayDisable _ | .engineCommandStart _
  | .nbHoldRelease _ | .engineCommandComplete _ | .enginePark _ | .faultRingDrain _ | .pageWalkComplete _ _
  | .replicatedWrite _ | .workListOperation _ | .workListSpillComplete _ | .sparseOperation _ | .launchDistribution _
  | .launchAcceptance _ | .launchRefusal _ | .phaseStart _ | .phaseBegin _ | .phaseReport _ | .taskPlacement _
  | .tileFillComplete _ _ | .taskBind _ | .taskAging _ _ | .groupReservation _ _ | .write _ | .read _ | .reduce _
  | .counterAdd _ | .acknowledge _ | .readData _ | .parkNotice _ | .resumeNotice _ | .floor _ | .heldRequestRelease _
  | .requestResend _ | .requestTimeout _ | .tagQuarantineEnd _ | .packetForward _ | .packetExpiry _
  | .creditReturn _ _ _ | .linkResendRequest _ | .trainingComplete _ _ _ | .trainingTimeout _ | .retrainingStart _
  | .retrainingComplete _ | .retrainingTimeout _ | .beaconSend | .beacon _ _ | .echo _ _ | .alignmentLoss | .manage _
  | .cutOpen _ | .cutReport _ | .cutTarget _ | .cutTimeLimit _ | .contextSave _ | .switchAcceptance _
  | .switchFreeze _ _ | .sweepFence _ _ | .sweepTimeout _ _ | .localSweepComplete _ | .tagChange _ | .switchResume _
  | .powerOn _ | .seqgo _ _ | .ctxrst _ | .quoteNonce _ | .quoteComplete | .routeEntryWrite _ _ | .fstepWrite _
  | .portEnable _ | .portDisable _ | .counterWrite _ _ | .hostRegisterWrite _ _ | .hostMemoryAccess _ _
  | .thermalUpdate _ _ _ | .powerMonitor _ | .haltDrainEnd _ | .saveCompleteReport _ | .launchAnswerTimeout _ => none

/-- The word of a slot instruction with its S bit. -/
def encodeS (s : Bool) (i : Instr) : Option SlotWord :=
  (encode i).map fun w => if s then w ||| 0x80000000#32 else w

end Sys2Proof
end

