-- ==== Sys2Proof/Machine/Bits.lean ====
section
/-! DEFINITION. Bit-field, sign-extension and byte-order helpers shared by the whole machine (R38, R39). -/

/-- Bits lo + len − 1 to lo of a bit vector, as a number. -/
def BitVec.bits {n : Nat} (w : BitVec n) (lo len : Nat) : Nat := (w.toNat >>> lo) % 2 ^ len

namespace Sys2Proof.Machine

/-- Bits lo + len − 1 to lo of a number. -/
def bitsOf (v lo len : Nat) : Nat := (v >>> lo) % 2 ^ len

/-- Bits hi to lo of a word, as a number. -/
def Word.bits (w : Word) (lo len : Nat) : Nat := bitsOf w.toNat lo len

/-- sext of R39: the integer whose w-bit two's complement form is the low w bits of v. -/
def sextNat (v w : Nat) : Int :=
  let u := v % 2 ^ w
  if w ≠ 0 ∧ 2 ^ (w - 1) ≤ u then (u : Int) - (2 ^ w : Nat) else u

/-- trunc of R39 for an integer: v mod 2^w as a natural number. -/
def truncInt (v : Int) (w : Nat) : Nat := (v % ((2 ^ w : Nat) : Int)).toNat

/-- A word from an integer, modulo 2^64. -/
def wordOfInt (i : Int) : Word := BitVec.ofInt 64 i

/-- A word from a number, modulo 2^64. -/
def wordOfNat (n : Nat) : Word := BitVec.ofNat 64 n

/-- Replace the bits of old that mask names by those of new. -/
def mergeBits (mask old new : Word) : Word := (old &&& ~~~mask) ||| (new &&& mask)

/-- A field of n placed at lo. -/
def place (n lo : Nat) : Nat := n <<< lo

/-- 1 for true. -/
def ofBoolNat (b : Bool) : Nat := if b then 1 else 0

/-- Round up to a multiple of m. -/
def roundUp (n m : Nat) : Nat := (n + m - 1) / m * m

/-- ceil(a / b). -/
def ceilDiv (a b : Nat) : Nat := (a + b - 1) / b

/-- Set or clear bit n of a 64-bit set. -/
def setBit64 (w : BitVec 64) (n : Nat) (b : Bool) : BitVec 64 :=
  if b then w ||| (1#64 <<< n) else w &&& ~~~(1#64 <<< n)

/-- The numbers below n, in rising order. -/
def upTo (n : Nat) : List Nat := List.range n

/-- Split a number into n little-endian bytes. -/
def bytesLE (v : Nat) : Nat → List Byte
  | 0 => []
  | n + 1 => BitVec.ofNat 8 v :: bytesLE (v / 256) n

/-- The number whose little-endian bytes these are. -/
def natLE : List Byte → Nat
  | [] => 0
  | b :: bs => b.toNat + 256 * natLE bs

end Sys2Proof.Machine
end

