-- ==== Sys2Proof/Machine/Maps.lean ====
section
/-! DEFINITION. Sparse maps as sorted lists, and byte memory in its one canonical form: addresses strictly rising, no byte equal
to what an unlisted address reads as. -/

namespace Sys2Proof.Machine

/-! Sparse maps from numbers, with a default for an unlisted key. -/

/-- The value at a key, or the default. -/
def mapGet {α : Type} (d : α) : List (Nat × α) → Nat → α
  | [], _ => d
  | (k, v) :: t, n => if n = k then v else if n < k then d else mapGet d t n

/-- Replace or insert the value at a key, keeping the keys rising. -/
def mapSet {α : Type} : List (Nat × α) → Nat → α → List (Nat × α)
  | [], n, x => [(n, x)]
  | (k, v) :: t, n, x =>
    if n < k then (n, x) :: (k, v) :: t
    else if n = k then (n, x) :: t
    else (k, v) :: mapSet t n x

/-! Byte memory. Key spaces: physical addresses (R302) below 2^48; scratch addresses (R26) from scrBase on. -/

/-- A memory: the listed bytes. -/
abbrev Mem := List Host.Cell

/-- What an unlisted byte reads as: 0x00 (DESIGN CHOICE, log entry 1). -/
def memDefault : Byte := 0

/-- The key of scratch address 0: scratch lies above every physical address. -/
def scrBase : Nat := 2 ^ 48

/-- The byte at a key. -/
def memGet : Mem → Nat → Byte
  | [], _ => memDefault
  | (k, v) :: t, n => if n = k then v else if n < k then memDefault else memGet t n

/-- Write one byte, keeping the canonical form. -/
def memSet : Mem → Nat → Byte → Mem
  | [], n, x => if x = memDefault then [] else [(n, x)]
  | (k, v) :: t, n, x =>
    if n < k then (if x = memDefault then (k, v) :: t else (n, x) :: (k, v) :: t)
    else if n = k then (if x = memDefault then t else (n, x) :: t)
    else (k, v) :: memSet t n x

/-- Every listed byte lies above lo, strictly rising, and differs from the default. -/
def memWfFrom (lo : Nat) : Mem → Bool
  | [] => true
  | (k, v) :: t => lo ≤ k && v != memDefault && memWfFrom (k + 1) t

/-- The canonical form of a memory. -/
def Mem.wf (m : Mem) : Bool := memWfFrom 0 m

/-- Make the bytes from lo up to hi read as the default. -/
def memClear (m : Mem) (lo hi : Nat) : Mem := m.filter fun c => c.1 < lo || hi ≤ c.1

/-- n bytes from a key, little-endian (R38). -/
def memReadN (m : Mem) (a : Nat) : Nat → Nat
  | 0 => 0
  | n + 1 => (memGet m a).toNat + 256 * memReadN m (a + 1) n

/-- Write n bytes from a key, little-endian. -/
def memWriteN (m : Mem) (a : Nat) : Nat → Nat → Mem
  | 0, _ => m
  | n + 1, v => memWriteN (memSet m a (BitVec.ofNat 8 v)) (a + 1) n (v / 256)

/-- The aligned 8-byte word at a key (R315). -/
def memWord (m : Mem) (a : Nat) : Word := BitVec.ofNat 64 (memReadN m a 8)

/-- Write the bytes of a word that the enables name, lowest first (R317). -/
def memMerge (m : Mem) (a : Nat) (v : Nat) : List Bool → Mem
  | [] => m
  | b :: bs => memMerge (if b then memSet m a (BitVec.ofNat 8 v) else m) (a + 1) (v / 256) bs

/-- The bytes of a list written from a key on. -/
def memWriteBytes (m : Mem) (a : Nat) : List Byte → Mem
  | [] => m
  | b :: bs => memWriteBytes (memSet m a b) (a + 1) bs

/-! Sorted sets of numbers: uncorrectable words. -/

def natIn : List Nat → Nat → Bool
  | [], _ => false
  | k :: t, n => if n = k then true else if n < k then false else natIn t n

def natAdd : List Nat → Nat → List Nat
  | [], n => [n]
  | k :: t, n => if n < k then n :: k :: t else if n = k then k :: t else k :: natAdd t n

def natDel (l : List Nat) (n : Nat) : List Nat := l.filter (· != n)

end Sys2Proof.Machine
end

