-- ==== Sys2Proof/Machine/State.lean ====
section
/-! DEFINITION. The state of one DR2 package as plain data (spec/01_machine.md R15 and the chapters that add to it), the
reasons a step can stop, and the state right after reset. INVENTORY.md lists every piece with its rule and reset value. -/

namespace Sys2Proof.Machine

/-! Reasons to stop. -/

/-- Faults of the machine as a whole. A trap of a context is no fault here: it is a next state (R402). -/
inductive Fault where
  /-- Raised by no meaning: a frame outside installed memory meets Protection like every access there (R303; log entry 35), so a trap
  into it is a Double Fault and an RFT from it a nested trap. The constructor keeps the type inhabited. Safe: nothing is claimed of it. -/
  | structureOutsideMemory (pa : Nat)
deriving DecidableEq, Repr

/-- Refusals. -/
inductive Refusal where
  /-- Raised by an arm of exec whose instruction has no meaning in the model yet. Safe: nothing is claimed of it. -/
  | notModelled (mnemonic : String)
deriving DecidableEq, Repr

/-! Traps. -/

/-- The causes of R266 that a context can take, with their codes. -/
inductive Cause where
  | illegalInstruction | illegalBundle | privileged | emptyRead | earlyRead | misaligned | guardTouch | pageFault
  | protection | orderingAttribute | nonCanonical | poison | tokenError | race | indexExhaustion | trap | cut | freeze
  | splitRefused | fabricTimeout | badPcw | latePacket
deriving DecidableEq, Repr

/-! Contexts. -/

/-- The states of R23. -/
inductive CtxSt where
  | free | ready | selected | stalled | frozen | halted | doubleFault
deriving DecidableEq, Repr

/-- What a Stalled context is draining, beside the stall causes of R107 that its next bundle meets. -/
inductive Drain where
  | none | rft | halt | tend
deriving DecidableEq, Repr

/-- A dependence token (R103): busy, the status, the commands still out under a shared REP token, whether repeats are still
to issue, one more than the repeat that set an error status (R93), and the address of the race that its status tells of (R266). -/
structure Token where
  busy : Bool := false
  status : BitVec 8 := 0
  left : Nat := 0
  more : Bool := false
  errRep : Nat := 0
  addr : Word := 0
deriving DecidableEq, Repr

/-- A loop level (R124). -/
structure Loop where
  start : Word := 0
  stop : Word := 0
  remaining : Word := 0
  active : Bool := false
deriving DecidableEq, Repr

/-- The value of a fixed-latency result (R95): a scalar, a vector with its byte enables, a mask with its bit enables, or only
VFLAGS bits. -/
inductive Result where
  | x (r : Reg) (v : Word)
  | v (r : Reg) (v : Row) (en : Mask)
  | m (r : MReg) (v en : Mask)
  | flags
deriving DecidableEq, Repr

/-- A pending fixed-latency result: it lands when `due` further bundles of the context have issued (R95, R396). -/
structure Pending where
  due : Nat
  res : Result
  flags : BitVec 6 := 0
deriving DecidableEq, Repr

/-- Page kinds (R301). -/
inductive Ord where
  | so | rc | uo
deriving DecidableEq, Repr

/-- Where a piece of an access lies after translation: the memory key of its first byte, the order of its page, for a replicated page
the device and die that sequence it, and the frame that names the page (R328). -/
structure Piece where
  key : Nat
  ord : Ord := .rc
  repl : Option (Nat × Nat) := Option.none
  page : Nat := 0
deriving DecidableEq, Repr

/-- Progress of an outstanding access or variable-latency producer. -/
inductive AccSt where
  /-- Not yet translated. -/
  | waiting
  /-- Waits on a page walk of this virtual page. -/
  | walking (page : Nat)
  /-- Translated; the second piece is that of a split access (R195). -/
  | ready (p0 : Piece) (p1 : Option Piece)
  /-- A value is on its way to the destination. -/
  | got (v : Word)
  /-- Ended in a fault reported after issue (R193). -/
  | faulted (c : Cause) (addr : Word) (part : Bool)
deriving DecidableEq, Repr

/-- An access of a context in program order, or a variable-latency producer, with its captured operands (R397, R401). -/
structure Access where
  sn : Nat
  ins : Instr
  word : SlotWord := 0
  ea : Word := 0
  va : Word := 0
  vb : Word := 0
  vd : Word := 0
  vt : Word := 0
  row : Row := 0
  /-- An uncorrectable word has been read into `row` (R198). -/
  bad : Bool := false
  kernel : Bool := false
  hold : Bool := false
  /-- Accesses replayed by RFT count no bundles; a VEXT counts two once its row is full (R102). -/
  due : Nat := 0
  /-- When it was issued, for the time of a division (R116). -/
  since : Nat := 0
  /-- Bytes of the first part of an access that is split at a page boundary (R195). -/
  cut : Nat := 0
  /-- 8-byte words of an LDV or an STV still to perform, bit i for word i. -/
  todo : BitVec 512 := 0
  /-- Writes of a VQMX still to perform, in order: scratch address, bytes, value (R157). -/
  wr : List (Nat × Nat × Nat) := []
  st : AccSt := .waiting
deriving DecidableEq, Repr

/-- An access or fence that a trap took out of the memory path: its frame level, its place in the replay queue, its issue number. -/
structure Pulled where
  lvl : Nat
  idx : Nat
  sn : Nat
  ins : Instr
deriving DecidableEq, Repr

/-- A row of the activation buffer (R180): element codes, format code, KACT, tile scale, poison; zero for a zero row. -/
structure ARow where
  loaded : Bool := false
  elems : List (BitVec 16) := []
  scales : List (BitVec 8) := []
  fmt : BitVec 4 := 0
  kact : Nat := 0
  ta : BitVec 32 := 0x3F800000
  poison : Bool := false
deriving DecidableEq, Repr

/-- A notice or asynchronous cause held for a context (R407). -/
inductive Notice where
  | cut | freeze | latePacket
deriving DecidableEq, Repr

/-- The entry window of R406: closed, or open, with the number of the first access once it is issued; the first bundle
has been fetched by then. -/
structure Window where
  isOpen : Bool := false
  first : Option Nat := Option.none
deriving DecidableEq, Repr

/-- The control registers at reset: ASYNC of PSW set (R254), PCW as R167 gives it, every other field zero. -/
def crReset : Vector Word 24 := ((Vector.replicate 24 (0 : Word)).set 0 0x20).set 0xB 0x0000FFFF00000033

/-- A context or a command sequencer. -/
structure Ctx where
  st : CtxSt := .free
  drain : Drain := .none
  /-- Slot and slot count of the RFT or TEND bundle whose drain runs. -/
  drainSlot : Nat := 0
  drainLen : Nat := 1
  x : Vector Word 64 := Vector.replicate 64 0
  v : Vector Row 64 := Vector.replicate 64 0
  m : Vector Mask 8 := Vector.replicate 8 0
  k : Vector Token 16 := Vector.replicate 16 {}
  fullX : BitVec 64 := BitVec.allOnes 64
  fullV : BitVec 64 := BitVec.allOnes 64
  poisonV : BitVec 64 := 0
  pc : Word := 0
  /-- The control registers 0x000 to 0x017 of R253; the live views (CTXID, STEP, TALLOW) are computed, not held. -/
  cr : Vector Word 24 := crReset
  crPend : List (Nat × Word) := []
  loops : Vector Loop 4 := Vector.replicate 4 {}
  pend : List Pending := []
  acc : List Access := []
  /-- What a trap left in the memory path: frame level, replay entries before it, entry. -/
  held : List (Nat × Nat × Access) := []
  /-- The entries of the replay queues of the frames held, with the issue numbers they keep (R323). -/
  pulled : List Pulled := []
  sn : Nat := 0
  abuf : Vector ARow 64 := Vector.replicate 64 {}
  budget : List Byte := List.replicate 512 32
  mstat : List (BitVec 32) := List.replicate 20 0
  frames : Nat := 0
  window : Window := {}
  notice : Option Notice := Option.none
  task : Option Nat := Option.none
  /-- The slot treated as NOP once after RFT (R259). -/
  stepover : Option Nat := Option.none
  /-- What traps taken before such a bundle issued have put off: frame level, bundle, slot (R259; log entry 43). -/
  steps : List (Nat × Word × Nat) := []
  /-- The frame levels whose HALT drain a trap has interrupted (R260; log entry 43). -/
  halts : List Nat := []
  /-- The WAITC of the bundle at pc has been satisfied (R128), or in the drain of TEND its writebacks have begun. -/
  satisfied : Bool := false
  /-- Its arrival at the barrier of the BAR at pc is recorded; the BAR that a barrier has let pass (R130). -/
  arrived : Bool := false
  passed : Option Word := Option.none
  /-- The live-row mask of the last QUIET and whether the bundle just issued was the stop point of a cut (R132, R133). -/
  live : Word := 0
  stopPoint : Bool := false
  pendingSince : Nat := 0
  /-- The cooperative group of the bound task; none for a group of one (R130, R315). -/
  grp : Option Nat := Option.none
  /-- A VEXT has met a poisoned row: its Poison trap is due at the next boundary (R102) of the code that issued it, which the frames held
  then tell: a handler taken in between does not meet its task's. -/
  vextBad : List (Nat × Reg) := []
  /-- Stopped by a freeze: quiet stop, full freeze or freeze at TEND, the KIND of its save record (R415). -/
  frozenKind : Nat := 0
  /-- A REP is between its repeats (R94), and where a transfer taken with its first repeat goes once they are done. -/
  repOn : Bool := false
  repNext : Option Word := Option.none
deriving DecidableEq, Repr

/-! Cores and clusters. -/

/-- The descriptor of a slab (R176): format, KACT, NACT, sparse mode, M code, N, group code. -/
structure SlabDesc where
  wf : Nat := 0
  kact : Nat := 0
  nact : Nat := 0
  sparse : Nat := 0
  mc : Nat := 0
  n : Nat := 0
  agrp : Nat := 0
deriving DecidableEq, Repr

/-- A 4-byte word of the weight store (R176, R299): its bits, its mark, and the hidden state of the block it was written with: format, words
of the block, its place there, the zero flags of the block's value planes. -/
structure WeightWord where
  val : BitVec 32 := 0
  bad : Bool := false
  wf : Nat := 0
  len : Nat := 0
  pos : Nat := 0
  zero : BitVec 8 := 0
deriving DecidableEq, Repr

/-- A granule of the weight store (R30, R176): the first granule of the slab it belongs to, its 512 words. -/
structure Granule where
  first : Option Nat := Option.none
  words : List WeightWord := List.replicate 512 {}
deriving DecidableEq, Repr

/-- A slab of the weight store: first granule and granules, hidden descriptor and validity (R176). -/
structure Slab where
  gran : Nat
  size : Nat
  desc : SlabDesc := {}
  valid : Bool := false
deriving DecidableEq, Repr

/-- An entry of a slice's region table (R205): offset, size, backing address, writeback flag, owner task, declared tile with
its descriptor number, dirty granules as a bit set; whether an agent other than a fill has written it (R298). -/
structure Region where
  base : Nat
  size : Nat
  back : Word
  wb : Bool
  owner : Nat
  tile : Option Nat := Option.none
  dirty : Nat := 0
  wrote : Bool := false
deriving DecidableEq, Repr

/-- A launch by its origin: job, job device, die, number. -/
structure LaunchKey where
  job : Nat
  dev : Nat
  die : Nat
  id : Nat
deriving DecidableEq, Repr

/-- An input tile that a committed task has left in its slice for later tasks of its launch (R298): offset, size, backing. -/
structure Kept where
  key : LaunchKey
  base : Nat
  size : Nat
  back : Word
deriving DecidableEq, Repr

structure CoreSt where
  sel : Option Nat := Option.none
  last : Nat := 0
  count : Nat := 0
  lastJob : Option Nat := Option.none
  slabs : List Slab := []
  store : List (Nat × Granule) := []
  regions : List Region := []
  kept : List Kept := []
  verify : Bool := false
  rr : Nat := 0
deriving DecidableEq, Repr

/-- A held leaf of a translation unit (R305). -/
structure Tlb where
  job : Nat
  page : Nat
  size : Nat
  leaf : Word
  pin : Bool
deriving DecidableEq, Repr

/-- A page walk under way for a job and a virtual address. -/
structure Walk where
  job : Nat
  root : Nat
  page : Nat
deriving DecidableEq, Repr

/-- A translation unit: 0 to 71 of the clusters, 72 and 73 of the sequencers (R305). -/
structure TransUnit where
  held : List Tlb := []
  walks : List Walk := []
deriving DecidableEq, Repr

structure ClusterSt where
  arraysOn : Bool := false
  lastBeat : Nat := 0
  asked : Option Nat := Option.none
  /-- The waiting group that has reserved the cluster: share and index (R351). -/
  reserved : Option (Nat × Nat) := Option.none
deriving DecidableEq, Repr

/-! Writes on their way (R316). -/

/-- A write performed for its own agent or group only: the word's key, the bytes, the writer and its group, whether the
group sees it; on a UO page the agents that have observed it; whether the writer's engines see it (R36, R157). -/
structure PWrite where
  key : Nat
  en : BitVec 8
  val : Word
  owner : Nat
  grp : Nat
  grpSeen : Bool := false
  uo : Bool := false
  seenBy : List Nat := []
  eng : Bool := false
deriving DecidableEq, Repr

/-- A write to a replicated page that the replicas of this package have yet to apply: the frame of the page, the word (R328), whether
the page is SO (R319). -/
structure RWrite where
  page : Nat
  key : Nat
  en : BitVec 8
  val : Word
  owner : Nat
  so : Bool := false
  die0 : Bool := false
  die1 : Bool := false
deriving DecidableEq, Repr

/-- What one agent observes at a location of a UO page before its writes have stopped (R317, R320). -/
structure UoView where
  agent : Nat
  key : Nat
  val : Word
deriving DecidableEq, Repr

/-- A word that an agent has read ahead of its program order (R318): it serves later plain reads of the agent until an acquire of scope
`need` or wider, a code of R315, or 4 while no other agent has written the word since (R322, R323). -/
structure Early where
  agent : Nat
  key : Nat
  val : Word
  need : Nat := 4
deriving DecidableEq, Repr

/-! Dies. -/

/-- A fault record (R224), with the words it holds. -/
structure FaultRecord where
  handle : Word
  va : Word
  lo : Word
  hi : Word
deriving DecidableEq, Repr

structure DieSt where
  frameb : Word := 0
  efring : Word := 0
  slip : Word := 0
  errors : Vector (BitVec 32) 8 := Vector.replicate 8 0
  seqpc : Word := 0
  seqpt : Word := 0
  seqtv : Word := 0
  seqjid : Word := 0
  /-- The holding area: fault records not yet in the ring, oldest first; and those for which it has no room yet (R309). -/
  records : List FaultRecord := []
  owed : List FaultRecord := []
  /-- The share last served at each priority (R351). -/
  turns : List Nat := List.replicate 8 0
deriving DecidableEq, Repr

/-! Tasks. -/

/-- A pending guard report (R294): scratch address of the first touch, touches, bank and agent (R255). -/
structure Guard where
  addr : Nat
  count : Nat
  bank : Nat
  agent : Nat
deriving DecidableEq, Repr

/-- The states of a declared tile (R296). -/
inductive TileSt where
  | placed | filling | resident | bound | writing | written | failed
deriving DecidableEq, Repr

/-- A declared tile of a task: descriptor number, slice, offset, size, backing, DIR, FILL, the command that fills or writes it back, its
failing status, whether its launch has written its backing since the fill (R298). -/
structure Tile where
  desc : Nat
  core : Nat
  off : Nat
  size : Nat
  back : Word
  dir : Nat
  fill : Nat
  st : TileSt := .placed
  cmd : Option Nat := Option.none
  status : BitVec 8 := 0
  stale : Bool := false
deriving DecidableEq, Repr

/-- The states of a task (R346). -/
inductive TaskSt where
  | waiting | placed | filling | resident | bound | committed | halted | failed | doubleFaulted
deriving DecidableEq, Repr

/-- A task: its share, job, linear index, phase, the first index and size of its group, class, launch tag of a verify launch,
context reserved or bound, tiles, pending guard report, BAR episodes its group has completed. -/
structure Task where
  id : Nat
  share : Nat
  job : Nat
  index : Nat
  phase : Nat
  first : Nat := 0
  gsize : Nat := 1
  coop : Bool := false
  ltag : Option Nat := Option.none
  ctx : Nat := 0
  st : TaskSt := .waiting
  since : Nat := 0
  tiles : List Tile := []
  guard : Option Guard := Option.none
  bars : Nat := 0
deriving DecidableEq, Repr

/-- Arrivals at a barrier of a group: group, identifier, contexts that wait (R130, R131). -/
structure Barrier where
  grp : Nat
  id : BitVec 12
  arrived : List Nat
deriving DecidableEq, Repr

/-! Launches (R243 to R247, R343 to R351). -/

/-- A tile descriptor (R245). -/
structure TileDesc where
  back : Word
  s0 : Word
  s1 : Word
  s2 : Word
  size : Nat
  off : Nat
  phase : Nat
  dir : Nat
  fill : Nat
deriving DecidableEq, Repr

/-- A partition entry: first index, job device, die (R246, R411). -/
structure Part where
  first : Nat
  dev : Nat
  die : Nat
deriving DecidableEq, Repr

/-- What a launch packet, its task table, its partition vector and its step table say (R244 to R246), and the packet's address. -/
structure LaunchHdr where
  pkt : Word := 0
  param : Word
  plen : Nat
  dim0 : Nat
  dim1 : Nat
  dim2 : Nat
  nphase : Nat
  coop : Bool
  prio : Nat
  verify : Bool
  dsplit : Bool
  racc : Bool
  detach : Bool
  gsize : Nat
  seed : Word
  tiles : List TileDesc
  parts : List Part
  entries : List Word
  steps : List Word
deriving DecidableEq, Repr

/-- The states that the origin keeps (R343); Checking ends within the step that hands the LNCH over, Done, Refused and Failed
remove the launch. -/
inductive LaunchSt where
  | distributing | running | failing
deriving DecidableEq, Repr

/-- A launch at its origin front end, which it names by job device and die: the LNCH command, the packet's address word, the dies that have
accepted and those that have reported the phase. -/
structure Launch where
  id : Nat
  jd : Nat := 0
  die : Nat
  job : Nat
  cmd : Nat
  pkt : Word
  hdr : LaunchHdr
  phase : Nat := 0
  st : LaunchSt := .distributing
  accepted : List (Nat × Nat) := []
  reported : List (Nat × Nat) := []
  status : BitVec 8 := 0
  since : Nat := 0
deriving DecidableEq, Repr

/-- The states of a die's share. -/
inductive ShareSt where
  /-- Accepted, or its phase reported: it waits for a start message. -/
  | idle
  /-- The start message has arrived; the start step may not have come (R349). -/
  | due
  | running
deriving DecidableEq, Repr

/-- A named die's share of a launch (R345): the indices of the phase that have committed, those before `next` to be run again after
a resume, when such an index began to wait again, the indices that have aged (R351), the status of the first failure, whether the
origin has been told of it. Its die is named by job device and die index (R411). -/
structure Share where
  id : Nat
  die : Nat
  jd : Nat := 0
  key : LaunchKey
  job : Nat
  hdr : LaunchHdr
  first : Nat
  count : Nat
  ltag : Option Nat := Option.none
  phase : Nat := 0
  st : ShareSt := .idle
  done : List Nat := []
  next : Nat := 0
  redo : List Nat := []
  waits : List (Nat × Nat) := []
  aged : List Nat := []
  failed : Option (BitVec 8) := Option.none
  told : Bool := false
  since : Nat := 0
deriving DecidableEq, Repr

/-! The fabric (R369 to R391). -/

/-- What a packet of the fabric control class says to its control unit: typed, since the spec gives no layout of these payloads. -/
inductive Ctl where
  | none
  | launch (key : LaunchKey) (jd die : Nat) (hdr : LaunchHdr)
  | accepted (key : LaunchKey) (jd die : Nat)
  | refused (key : LaunchKey) (jd die : Nat) (status : BitVec 8)
  | ended (key : LaunchKey) (jd die : Nat) (status : BitVec 8)
  | start (key : LaunchKey) (jd die phase : Nat)
  | report (key : LaunchKey) (jd die phase : Nat) (failed : Option (BitVec 8))
  | cutOpen (job die odev odie : Nat)
  | cutReport (job dev die : Nat) (last : Option Nat)
  | cutTarget (job die n : Nat)
  | switchOut (job die : Nat) (t : Word)
  | switchIn (job die : Nat) (resume dmap : Word) (galleys : List (Nat × Nat))
  | saved (job dev die : Nat) (restored : Bool)
  | tagChange (job dev die oldTag oldGen newTag newGen : Nat)
  | jobLost (job : Nat)
  | askGalley (job odev odie cmd : Nat) (galleys : List Word)
  | galleyIs (job dev cmd : Nat) (ok : Bool)
  | fence (job : Nat)
  | floor (job srcDev tgtDev cls : Nat)
  | manage (off : Nat) (v : Word)
  | beacon (cyc : BitVec 80)
  | echo
deriving DecidableEq, Repr

/-- A packet: the fields of the header (R373), the payload bytes, whether its CRC fails, what a control packet says, and the job device
that its requester numbered it for, where this device sent it or swept it (R380, R420). -/
structure Packet where
  dest : Nat
  src : Nat
  die : Nat
  cls : Nat
  hop : Nat := 0
  jid : Nat := 0
  tag : Nat := 0
  gen : Nat := 0
  op : Nat
  len : Nat := 0
  arg : Nat := 0
  va : Word := 0
  seq : Nat := 0
  floor : Nat := 0
  val : Word := 0
  birth : Word := 0
  kern : Bool := false
  data : List Byte := []
  crcBad : Bool := false
  ctl : Ctl := .none
  tgt : Option Nat := Option.none
deriving DecidableEq, Repr

/-- Where a packet stands: a local injection queue, the bridge into a die, an ingress pool, the retry buffer of a port it has left by;
at its target it waits for an earlier request of class 2, or is parked. -/
inductive Loc where
  | localq (die : Nat)
  | bridge (into : Nat)
  | ingress (port : Nat)
  | retry (port : Nat)
  | held (die : Nat)
  | parked (die handle : Nat)
deriving DecidableEq, Repr

/-- A packet in the device: its number, its place, whether it is a re-injected one (R425); of a request that has been performed on a
replicated page, the status of the acknowledgement that waits for the replicas (R326); the handle of its last park (R264); its
translation, made before it crossed the bridge to its home (R307, R472); the one port it is meant for; flits of it that have not left
yet, and flits that the neighbour has acknowledged (R378, R379). -/
structure Flight where
  id : Nat
  loc : Loc
  pkt : Packet
  re : Bool := false
  ack : Option Nat := Option.none
  handle : Option Nat := Option.none
  trans : Option (Word × Piece) := Option.none
  out : Option Nat := Option.none
  debt : Nat := 0
  acked : Nat := 0
deriving DecidableEq, Repr

/-- The states of a port (R379). -/
inductive PortSt where
  | down | training | up | retraining
deriving DecidableEq, Repr

/-- A port: its register fields (R389), the credits of its egress (R378), failed resends of the oldest flit, when it entered its
state, the measured one-way delay. -/
structure Port where
  en : Bool := false
  st : PortSt := .down
  retrain : Nat := 0
  ndev : Nat := 0
  nport : Nat := 0
  reserved : BitVec 64 := BitVec.allOnes 64
  shared : Nat := 4032
  used : List (Nat × Nat) := []
  resends : Nat := 0
  since : Nat := 0
  delay : Nat := 0
deriving DecidableEq, Repr

/-- An outstanding request (R380, R381): die, tag, generation, the command and the offset in it, when its timer began and when it
was last sent, whether a park notice has stopped the timer, and the packet to send again. -/
structure Req where
  id : Nat
  die : Nat
  tag : Nat
  gen : Nat
  cmd : Nat
  off : Nat
  began : Nat
  sent : Nat
  parked : Bool := false
  pkt : Packet
deriving DecidableEq, Repr

/-- The requester tags of a die (R380): tags never used yet from `fresh` on, then the released ones in order; generations that are
not 0; tags in quarantine with the step that ends it. -/
structure TagPool where
  fresh : Nat := 0
  free : List Nat := []
  gens : List (Nat × Nat) := []
  quar : List (Nat × Nat) := []
deriving DecidableEq, Repr

/-- A numbering of requests (R380): die index, job, own and target job device, class, the next number. -/
structure Numbering where
  die : Nat
  job : Nat
  me : Nat
  tgt : Nat
  cls : Nat
  next : Nat := 1
deriving DecidableEq, Repr

/-- A home's window (R384): home die, job, source job device and die index, class, target job device; H, the set of H − i that are
applied as bits i, F. -/
structure Home where
  die : Nat
  job : Nat
  src : Nat
  sdie : Nat
  cls : Nat
  tgt : Nat
  h : Nat := 0
  mask : Nat := 0
  f : Nat := 0
deriving DecidableEq, Repr

/-- The fabric of the device: registers beside FDEV and FSTEP (R389), the eight counters (R390), route entries, ports, packets,
requests, numberings, homes, steering (R387, R388). -/
structure Fabric where
  ftmo : Nat := 22
  fjobt : Word := 0
  counters : Vector Word 8 := Vector.replicate 8 0
  routes : List (Nat × BitVec 32) := []
  ports : Vector Port 16 := Vector.replicate 16 {}
  flights : List Flight := []
  reqs : List Req := []
  tags : Vector TagPool 2 := Vector.replicate 2 {}
  nums : List Numbering := []
  homes : List Home := []
  nextId : Nat := 0
  /-- Cycles still to add (or, negative, to hold) by steering. -/
  steer : Int := 0
  lastBeacon : Nat := 0
  goodBeacons : Nat := 0
  lastSent : Nat := 0
  /-- State changes of ports reported to the fabric manager, oldest first (R379). -/
  reports : List (Nat × PortSt) := []
deriving DecidableEq, Repr

/-- The platform: boot and identity (R462 to R464), switch registers (R408, R348), the sealing key (R465). -/
structure Platform where
  bootstat : Nat := 0
  booted : Bool := false
  m0 : BitVec 512 := 0
  m1 : BitVec 512 := 0
  nonce : BitVec 256 := 0
  quoting : Bool := false
  quoted : Bool := false
  quote : List Byte := []
  jsavet : Word := 0
  lgal : Word := 0
  jctxt : Word := 0
  sealk : Word := 0
  /-- The value of the last host read of memory or of a register. -/
  hostRead : Word := 0
deriving DecidableEq, Repr

/-! Engine and matrix commands. -/

/-- What a command does: the slot of a context, the fill of a declared tile, the writeback of a region, the spill that the list
operation `sn` waits for, the completion write of a DETACH launch, SRGROW, GSW. -/
inductive CmdKind where
  | slot
  | fill (task tile : Nat)
  | writeback (task core base : Nat)
  | spill (sn core : Nat)
  | detach
  | grow | gsw
deriving DecidableEq, Repr

/-- A park (R224): faulting address, cause code, kind code, handle. -/
structure Park where
  va : Word
  cause : Nat
  kind : Nat
  handle : Nat
deriving DecidableEq, Repr

/-- The states of an accepted command. -/
inductive CmdSt where
  | queued | held | running | faulting (va : Word) (cause kind : Nat) | parked (p : Park) | done
deriving DecidableEq, Repr

/-- An accepted command with everything it captured at issue (R36, R105, R169, R471). -/
structure Cmd where
  id : Nat
  kind : CmdKind := .slot
  ins : Instr
  agent : Nat
  job : Nat := 0
  root : Word := 0
  task : Option Nat := Option.none
  par : List Word := []
  pcw : Word := 0
  prov : Word := 0
  kernel : Bool := false
  hold : Bool := false
  key : Word := 0
  ctr : BitVec 128 := 0
  kd : Tok := 0
  ka : Tok := 0
  kb : Tok := 0
  kc : Tok := 0
  /-- Statuses of the consumed tokens that are free already: KA in the low byte, then KB and KC (R105, R106). -/
  kst : BitVec 24 := 0
  /-- The racing addresses that these statuses tell of; its own one (R266). -/
  kad : Word × Word × Word := (0, 0, 0)
  raceVa : Word := 0
  rep : Nat := 0
  /-- The issue number and the frames held at issue. -/
  sn : Nat := 0
  lvl : Nat := 0
  st : CmdSt := .queued
  /-- Progress in walk order (R416), bytes, rows or keys as the command counts. -/
  done : Nat := 0
  /-- Further progress of commands with more than one list: next output position, events counted, keys found. -/
  aux : Nat := 0
  aux2 : Nat := 0
  status : BitVec 8 := 0
  est : Nat := 0
  startAt : Nat := 0
  /-- Rows a gather has read, by index: value and bytes of uncorrectable words (R453). -/
  rows : List (Nat × Nat × Nat) := []
  /-- SEALK as captured by a mark-mode copy (R465). -/
  sealing : Word := 0
  /-- The handle of its last park, kept for a park at the same access (R264). -/
  handle : Option Nat := Option.none
deriving DecidableEq, Repr

/-! Cuts and switches (R408 to R426). -/

/-- A place of the sweep with the time it must end by. -/
structure Sweep where
  place : Place
  finished : Bool := false
deriving DecidableEq, Repr

/-- What a save record has no place for, kept beside it by die and record number: accesses that stay in the memory path, the budget
table, the matrix counters, and where the context stood (DESIGN CHOICE, log entry 12). -/
structure Aside where
  die : Nat
  recNo : Nat
  held : List (Nat × Nat × Access) := []
  pulled : List Pulled := []
  sn : Nat := 0
  budget : List Byte := []
  mstat : List (BitVec 32) := []
  drain : Drain := .none
  drainSlot : Nat := 0
  drainLen : Nat := 1
  stepover : Option Nat := Option.none
  steps : List (Nat × Word × Nat) := []
  halts : List Nat := []
  passed : Option Word := Option.none
  raceAt : List Word := []
  satisfied : Bool := false
  repOn : Bool := false
  repNext : Option Word := Option.none
  vextBad : List (Nat × Reg) := []
  window : Window := {}
  bars : Nat := 0
deriving DecidableEq, Repr

/-- A command that a save takes, with its outstanding requests: die, number of its context's record. -/
structure CmdRec where
  die : Nat
  recNo : Nat
  cmd : Cmd
  reqs : List Req
deriving DecidableEq, Repr

/-- A job's cut or switch on this device: STATE of both dies and JSTATE, whether this device is the origin and its members, reports,
the cut target and when it was set, the freeze or resume step, galleys to re-inject, sweep, packets kept, restored contexts, whether a die
has loaded its launch and sequence records, and the stamps of what it last saved. -/
structure JobCtl where
  job : Nat
  st0 : Nat := 0
  st1 : Nat := 0
  origin : Option Nat := Option.none
  odev : Nat := 0
  odie : Nat := 0
  members : List Nat := []
  reports : List (Nat × Nat × Option Nat) := []
  saved : List (Nat × Nat) := []
  back : List (Nat × Nat) := []
  since : Nat := 0
  isCut : Bool := false
  step : Word := 0
  frozen : Bool := false
  sweeps : List Sweep := []
  swept : Bool := false
  gcount : Nat := 0
  galleys : List (Nat × Nat) := []
  restored0 : Bool := false
  restored1 : Bool := false
  /-- Where each die's next save record goes, and how many of each kind it holds (R415). -/
  next0 : Nat := 4096
  next1 : Nat := 4096
  ctxRecs : List (Nat × Nat × Nat) := []
  kept : List Flight := []
  tagMap : List (Nat × Nat × Nat × Nat × Nat) := []
  asides : List Aside := []
  cmdRecs : List CmdRec := []
  resumed : Option Word := Option.none
  loaded0 : Bool := false
  loaded1 : Bool := false
  stamp0 : Nat := 0
  stamp1 : Nat := 0
deriving DecidableEq, Repr

/-! The model's own fields. -/

/-- What moves next. -/
inductive Pick where
  /-- The agent issues its next bundle. -/
  | issue (ag : Agent)
  /-- The memory path performs an outstanding access, or the named words of one. -/
  | perform (ag : Agent) (sn : Nat) (words : BitVec 512)
  /-- An agent reads the word at an address ahead of its program order (R318). -/
  | readAhead (ag : Agent) (a : Word)
  /-- A pending write becomes visible to the engines of its writer (R36, R157). -/
  | engSee (n : Nat)
  /-- A pending write becomes visible one level further: to its group, to every agent, or for a UO page to one agent. -/
  | propagate (n : Nat) (view : Option Nat)
  /-- An engine walks n more units of a command. -/
  | advance (c n : Nat)
  /-- A packet arrives from the neighbour of a port (R373). -/
  | deliver (port : Nat) (p : Packet)
  /-- The neighbour acknowledges the oldest flit of a port's retry buffer (R379). -/
  | linkAck (port : Nat)
  /-- A word takes a soft error, corrected when read or uncorrectable (R291, R461). -/
  | softError (key : Nat) (uncorrectable : Bool)
  /-- A word of the weight store takes a soft error, corrected when read or uncorrectable (R188, R299, R461). -/
  | weightError (core word : Nat) (uncorrectable : Bool)
  /-- A flit resent on the bridge (R461). -/
  | bridgeResend (die : Nat)
  /-- The host changes a word of its own memory, or reads a word of the control window (R457). -/
  | hostOwn (off : Nat) (v : Word)
  | hostRead (off : Nat)
  /-- A slice gives up a tile that it has kept (R298). -/
  | dropKept (core base : Nat)
  /-- An event of the table. -/
  | event (i : Instr)
deriving DecidableEq, Repr

/-- A move and the core cycles that pass before it. -/
structure Move where
  dt : Nat
  pick : Pick
deriving DecidableEq, Repr

/-- The bundle being issued: whether its checks are done, its address, its slot count, the slot at hand, the target of a taken
transfer. -/
structure Iss where
  isOpen : Bool := false
  pc : Word := 0
  len : Nat := 0
  slot : Nat := 0
  next : Word := 0
  taken : Bool := false
  /-- The repeat of a REP target at hand, and how many are still to issue after it (R93). -/
  repIdx : Nat := 0
  repLeft : Option Nat := Option.none
  /-- The slot of the REP target. -/
  repAt : Option Nat := Option.none
  /-- A trap to take once the bundle has completed: cause, TADDR, TINFO, IMPRECISE (R127, R130). -/
  post : Option (Cause × Word × Word × Bool) := Option.none
  /-- The tokens and the full bits of v0 to v63 as they stood at issue (R83). -/
  toks : Vector Token 16 := Vector.replicate 16 {}
  fullV : BitVec 64 := BitVec.allOnes 64
deriving DecidableEq, Repr

structure State where
  now : Nat := 0
  cyc : BitVec 80 := 0
  mem : Mem := []
  poison : List Nat := []
  pw : List PWrite := []
  rw : List RWrite := []
  uo : List UoView := []
  early : List Early := []
  ctxs : List (Nat × Ctx) := []
  cores : List (Nat × CoreSt) := []
  clusters : List (Nat × ClusterSt) := []
  tasks : List Task := []
  bars : List Barrier := []
  cmds : List Cmd := []
  nextId : Nat := 0
  handle : Nat := 0
  fdev : Word := 0
  fstep : Word := 1
  therm : Vector Word 6 := Vector.replicate 6 0
  overPower : Bool := false
  /-- When an enable slot was last granted (R355). -/
  lastGrant : Option Nat := none
  units : List (Nat × TransUnit) := []
  dies : Vector DieSt 2 := Vector.replicate 2 {}
  launches : List Launch := []
  shares : List Share := []
  fab : Fabric := {}
  jobs : List JobCtl := []
  plat : Platform := {}
  /-- When each stack last began to refresh at the doubled rate is not kept; only whether it does (R467). -/
  dblref : BitVec 6 := 0
  sched : List Move := []
  cur : Nat := 0
  iss : Iss := {}
  free : Nat := 0
deriving DecidableEq, Repr

/-- The machine right after reset. -/
def State.reset : State := {}

end Sys2Proof.Machine
end

