-- ==== Sys2Proof/Machine/Mem.lean ====
section
/-! DEFINITION. Memory as agents see it (spec/13_memory.md, spec/14_ordering.md): what a read at a location returns, how a write
spreads from its agent to its group to the package (R315 to R317), replicated pages (R328), scratch regions with dirty bits and
guard touches (R196, R205, R294), race shadows (R312 to R314), page tables and translation units (R300 to R306). -/

namespace Sys2Proof.Machine

/-! Numbers of agents (R7): contexts 0 to 1,151, then the sequencers of die 0 and die 1. -/

def numContexts : Nat := 1152

def agentNum : Agent → Nat
  | .ctx n => n
  | .seq d => numContexts + d

def isSeq (n : Nat) : Bool := numContexts ≤ n
def dieOf (n : Nat) : Nat := if isSeq n then n - numContexts else n / 576
def coreOf (n : Nat) : Nat := n / 4
/-- The cluster translation unit, or the unit of the sequencer (R305). -/
def unitOf (n : Nat) : Nat := if isSeq n then 72 + (n - numContexts) else n / 16
def coreDie (core : Nat) : Nat := core / 144

def State.ctxAt (s : State) (n : Nat) : Ctx := mapGet {} s.ctxs n
def State.setCtx (s : State) (n : Nat) (c : Ctx) : State := { s with ctxs := mapSet s.ctxs n c }
def State.modCtx (s : State) (n : Nat) (f : Ctx → Ctx) : State := s.setCtx n (f (s.ctxAt n))
def State.coreAt (s : State) (n : Nat) : CoreSt := mapGet {} s.cores n
def State.setCore (s : State) (n : Nat) (c : CoreSt) : State := { s with cores := mapSet s.cores n c }
def State.modCore (s : State) (n : Nat) (f : CoreSt → CoreSt) : State := s.setCore n (f (s.coreAt n))
def State.clusterAt (s : State) (n : Nat) : ClusterSt := mapGet {} s.clusters n
def State.setCluster (s : State) (n : Nat) (c : ClusterSt) : State := { s with clusters := mapSet s.clusters n c }
def State.unitAt (s : State) (n : Nat) : TransUnit := mapGet {} s.units n
def State.setUnit (s : State) (n : Nat) (u : TransUnit) : State := { s with units := mapSet s.units n u }
def State.die (s : State) (d : Nat) : DieSt := if d = 0 then s.dies[0] else s.dies[1]
def State.setDie (s : State) (d : Nat) (x : DieSt) : State :=
  { s with dies := if d = 0 then s.dies.set 0 x else s.dies.set 1 x }
def State.modDie (s : State) (d : Nat) (f : DieSt → DieSt) : State := s.setDie d (f (s.die d))
def State.setMem (s : State) (m : Mem) : State := { s with mem := m }

def State.findTask (s : State) (id : Nat) : Option Task := s.tasks.find? (·.id = id)
def State.modTask (s : State) (id : Nat) (f : Task → Task) : State :=
  { s with tasks := s.tasks.map fun t => if t.id = id then f t else t }

/-- The group of an agent: a cooperative group, or a group of one (R315). -/
def State.grpOf (s : State) (n : Nat) : Nat :=
  match (s.ctxAt n).grp with
  | some g => 2 * g
  | none => 2 * n + 1

/-! Scratch (R26, R205, R294 to R296). -/

def scrKey (sa : Nat) : Nat := scrBase + sa
def isScr (key : Nat) : Bool := scrBase ≤ key
/-- The core and the offset of a scratch key. -/
def scrCore (key : Nat) : Nat := (key - scrBase) / 2 ^ 22
def scrOff (key : Nat) : Nat := (key - scrBase) % 2 ^ 22

def overlaps (a alen b blen : Nat) : Bool := a < b + blen && b < a + alen

/-- The dirty bits of the 64-byte granules of a region that an access covers. -/
def dirtyMask (r : Region) (off len : Nat) : Nat :=
  let lo := max off r.base
  let hi := min (off + len) (r.base + r.size)
  if hi ≤ lo then 0
  else
    let a := (lo - r.base) / 64
    let b := (hi - 1 - r.base) / 64
    (2 ^ (b + 1 - a) - 1) <<< a

/-! Writes and views. -/

/-- The word whose bytes the enables name are all ones. -/
def enMask (en : BitVec 8) : Word :=
  wordOfNat ((upTo 8).foldl (fun a i => if en.getLsbD i then a + 0xFF <<< (8 * i) else a) 0)

/-- Merge the enabled bytes of val into old (R317). -/
def applyEn (old : Word) (en : BitVec 8) (val : Word) : Word := mergeBits (enMask en) old val

/-- The byte enables of an access of len bytes at byte offset off of its word. -/
def enOf (off len : Nat) : BitVec 8 := BitVec.ofNat 8 ((2 ^ len - 1) <<< off)

def enList (en : BitVec 8) : List Bool := (upTo 8).map fun i => en.getLsbD i

/-- Agent n sees a pending write: its own, or one its group sees. -/
def State.sees (s : State) (n : Nat) (p : PWrite) : Bool :=
  !p.uo && (p.owner = n || (p.grpSeen && p.grp = s.grpOf n))

/-- The die whose replica an agent reads: its own, and for a remote request the die at which it enters (R328). -/
def replicaOf (n : Nat) : Nat := if numContexts + 2 ≤ n then n - (numContexts + 2) else dieOf n

/-- A write to a replicated page has reached the replica of a die. -/
def RWrite.at (r : RWrite) (d : Nat) : Bool := if d = 0 then r.die0 else r.die1

/-- A word at its home and its replicas as agent n reads it, and above it the pending writes that f names (R316, R317, R328). -/
def State.viewBy (s : State) (n key : Nat) (f : PWrite → Bool) : Word :=
  let w0 := memWord s.mem key
  let w1 := s.rw.foldl (fun w r => if r.key = key && r.at (replicaOf n) then applyEn w r.en r.val else w) w0
  let w2 := match s.uo.find? (fun u => u.agent = n && u.key = key) with
    | some u => u.val
    | none => w1
  s.pw.foldl (fun w p => if p.key = key && f p then applyEn w p.en p.val else w) w2

/-- What agent n reads at a word's key (R316, R328). -/
def State.view (s : State) (n key : Nat) : Word := s.viewBy n key (s.sees n)

/-- Agent n can read the word in one piece: no partial write that f names, or of its own to a UO page, has yet to be merged at the home,
and its own write to a replicated page has reached the replica that it reads (R194, R317). -/
def State.readableBy (s : State) (n key : Nat) (f : PWrite → Bool) : Bool :=
  (s.pw.all fun p => !(p.key = key && (f p || (p.uo && p.owner = n))) || p.en = 0xFF#8) &&
  (s.rw.all fun r => !(r.key = key && r.owner = n) || r.at (replicaOf n))

def State.readable (s : State) (n key : Nat) : Bool := s.readableBy n key (s.sees n)

/-- The engines of agent n see a pending write that n sees: one of its own only once it has been shown to them, or to its group (R36,
R157, R325). -/
def State.engSees (s : State) (n : Nat) (p : PWrite) : Bool := s.sees n p && (p.owner != n || p.eng || p.grpSeen)

/-- A word holds an uncorrectable error: it is marked, and no whole write that f names stands above the mark. -/
def State.isPoisonBy (s : State) (key : Nat) (f : PWrite → Bool) : Bool :=
  natIn s.poison key && !(s.pw.any fun p => p.key = key && f p && p.en = 0xFF#8)

def State.isPoison (s : State) (n key : Nat) : Bool := s.isPoisonBy key (s.sees n)

/-! Words read ahead (R318, R321 to R323): a plain read may take its value long before its place in program order, until an acquire
whose scope reaches the writer of a newer value, or a release chain that ends in it. -/

/-- The number that stands for the engines of agent n. -/
def engOf (n : Nat) : Nat := 2048 + n

/-- The agent that a number stands for: itself, or the agent whose engines it names. -/
def agentBy (who : Nat) : Nat := if 2048 ≤ who then who - 2048 else who

/-- The code of the narrowest scope of agent n that holds agent w (R315). -/
def State.distance (s : State) (n w : Nat) : Nat :=
  if w = n then 0
  else if s.grpOf w = s.grpOf n then 1
  else if w < numContexts + 2 then 2
  else 3

/-- Agent `who` has written the word at a key, so far as agents that f names can tell: what others have read ahead of it holds until
they acquire from the writer; its own reads it overtakes at once, those of its engines with the next token (R220, R317, R322). -/
def State.noteFor (s : State) (who key : Nat) (f : Nat → Bool) : List Early :=
  s.early.filterMap fun e =>
    if e.key != key || !f e.agent then some e
    else if e.agent = who then none
    else some { e with need := min e.need (s.distance e.agent (agentBy who)) }

/-- An acquire of agent n at a scope: what it has read ahead of writes by agents within the scope serves no longer (R321, R322). -/
def State.acquire (s : State) (n sc : Nat) : State :=
  if s.early = [] then s else { s with early := s.early.filter fun e => !(e.agent = n && e.need ≤ sc) }

/-- Agent n reads nothing ahead any more. -/
def State.forget (s : State) (n : Nat) : State :=
  if s.early = [] then s else { s with early := s.early.filter (·.agent != n) }

/-- Agent n has read the word itself: what it read ahead there is behind it (R317). -/
def State.forgetAt (s : State) (n key : Nat) : State :=
  if s.early = [] then s else { s with early := s.early.filter fun e => !(e.agent = n && e.key = key) }

/-- A release of agent n is cumulative: through it, agents within its scope acquire what n has seen (R323). -/
def State.passOn (s : State) (n sc : Nat) : State :=
  if s.early = [] then s
  else { s with early := s.early.map fun e =>
    if e.agent != n && e.need < 4 && s.distance e.agent n ≤ sc then { e with need := min e.need (s.distance e.agent n) } else e }

/-- The word as agent n has read it ahead, if it has. -/
def State.earlyAt (s : State) (n key : Nat) : Option Word := (s.early.find? fun e => e.agent = n && e.key = key).map (·.val)

/-- What a plain read of agent n takes at a word's key. -/
def State.viewPlain (s : State) (n key : Nat) : Word := (s.earlyAt n key).getD (s.view n key)

/-- Agent `who` writes bytes of a word at its home (R317). A whole write removes an uncorrectable mark. -/
def State.homeWrite (s : State) (who key : Nat) (en : BitVec 8) (val : Word) : State :=
  { s with mem := memMerge s.mem key val.toNat (enList en)
           poison := if en = 0xFF#8 then natDel s.poison key else s.poison
           early := s.noteFor who key fun _ => true }

/-- The write of a word has reached its home: the dirty bit of its granule is set in the regions that hold it (R205). -/
def State.markDirty (s : State) (key : Nat) : State :=
  if isScr key && (s.coreAt (scrCore key)).regions.any (fun r => dirtyMask r (scrOff key) 8 != 0) then
    s.modCore (scrCore key) fun c => { c with regions := c.regions.map fun r => { r with dirty := r.dirty ||| dirtyMask r (scrOff key) 8 } }
  else s

/-- Agent a has observed a write to a UO location: its own, or one shown to it, unless its bytes have yet to be merged. -/
def PWrite.seenAt (p : PWrite) (a : Nat) : Bool := p.en = 0xFF#8 && (p.owner = a || p.seenBy.contains a)

/-- Agents that hold a value of a UO location, and have not yet observed the write that has just reached its home, observe it (R317). -/
def State.showUo (s : State) (key : Nat) (seen : Nat → Bool) : State :=
  { s with uo := s.uo.map fun u => if u.key = key && !seen u.agent then { u with val := memWord s.mem key } else u }

/-- A pending write reaches its home. When no write to a UO location is left, every agent sees the home's value. -/
def State.commitOne (s : State) (p : PWrite) (rest : List PWrite) : State :=
  let s := (((s.homeWrite p.owner p.key p.en p.val).markDirty p.key).showUo p.key fun a => p.uo && p.seenAt a)
  { s with pw := rest
           uo := if rest.any (fun q => q.key = p.key) then s.uo else s.uo.filter (fun u => u.key != p.key) }

/-- Write p may become visible before the write q that stands before it: no agent has seen both, and no one agent made both (R317). -/
def mayPass (p q : PWrite) : Bool :=
  !(p.key = q.key && (p.owner = q.owner || (p.grp = q.grp && (p.grpSeen || q.grpSeen))))

/-- Commit the writes of a list that f names, in order; f also sees the writes that follow. -/
def State.commitFrom (f : PWrite → List PWrite → Bool) : List PWrite → State → State
  | [], s => s
  | p :: rest, s => State.commitFrom f rest (if f p rest then s.commitOne p (s.pw.erase p) else s)

/-- Commit every pending write that f names, in order. -/
def State.commitWhere (s : State) (f : PWrite → Bool) : State := State.commitFrom (fun p _ => f p) s.pw s

/-- What agent n has made or seen through its group. -/
def State.covers (s : State) (n : Nat) (p : PWrite) : Bool := p.owner = n || (p.grpSeen && p.grp = s.grpOf n)

/-- Commit the writes that agent n has made or seen and that f names, and before each those that it may not pass (R317, R323). -/
def State.commitCovered (s : State) (n : Nat) (f : PWrite → Bool) : State :=
  let g := fun p => s.covers n p && f p
  State.commitFrom (fun p rest => g p || rest.any fun q => g q && !mayPass q p) s.pw s

/-- Agent a observes pending write i of a UO location, unless its bytes have yet to be merged, or an earlier write of the same agent there
has yet to be observed (R317, R320). -/
def State.observe (s : State) (i a : Nat) : State :=
  match s.pw[i]? with
  | none => s
  | some p =>
    let before := (s.pw.take i).any fun q => q.key = p.key && q.owner = p.owner && !q.seenAt a
    if !p.uo || p.en != 0xFF#8 || p.seenAt a || before then s
    else
      { s with uo := { agent := a, key := p.key, val := p.val } :: s.uo.filter (fun v => !(v.agent = a && v.key = p.key))
               pw := s.pw.set i { p with seenBy := p.seenBy ++ [a] } }

/-- Write r stands before write q in the order of a replicated page, or of a word (R317, R328). -/
def RWrite.leads (r q : RWrite) : Bool := r.page = q.page || r.key = q.key

/-- Apply the writes to replicated pages that f names to the replicas of this package, and before each those that lead it (R328). -/
def State.applyFrom (f : RWrite → Bool) : List RWrite → State → State
  | [], s => s
  | r :: rest, s =>
    State.applyFrom f rest
      (if f r || rest.any fun q => f q && r.leads q then { s.homeWrite r.owner r.key r.en r.val with rw := s.rw.erase r } else s)

/-- Apply them to both replicas, so that they are performed. -/
def State.applyWhere (s : State) (f : RWrite → Bool) : State := State.applyFrom f s.rw s

/-- Apply every write to a replicated page to both replicas, in order. -/
def State.applyRepl (s : State) : State := s.applyWhere fun _ => true

/-- The writes to replicated pages with those that f names, and those that lead them, applied at the replica of a die. -/
def replicaShown (d : Nat) (f : RWrite → Bool) : List RWrite → List RWrite
  | [] => []
  | r :: rest =>
    (if f r || rest.any fun q => f q && r.leads q then
      (if d = 0 then { r with die0 := true } else { r with die1 := true })
    else r) :: replicaShown d f rest

/-- The writes of agent n are performed for its group: its replicated pages' replica on its die applies them (R324, R328), the contexts of
its group observe those to UO locations, and one whose bytes have yet to be merged goes home first, with those of n before it (R316). -/
def State.showGroup (s : State) (n : Nat) : State :=
  let s := { s with rw := replicaShown (dieOf n) (fun r => r.owner = n) s.rw }
  let s := s.commitWhere fun p => p.owner = n && p.uo && s.pw.any fun q => q.owner = n && q.uo && q.key = p.key && q.en != 0xFF#8
  let mates := (s.ctxs.map (·.1)).filter fun a => s.grpOf a = s.grpOf n
  let s := (upTo s.pw.length).foldl (fun s i =>
    match s.pw[i]? with
    | some p => if p.owner = n && p.uo then mates.foldl (fun s a => s.observe i a) s else s
    | none => s) s
  s.pw.foldl (fun s p => if p.owner = n && !p.grpSeen then { s with early := s.noteFor n p.key fun a => s.grpOf a = s.grpOf n } else s)
    { s with pw := s.pw.map fun p => if p.owner = n then { p with grpSeen := true } else p }

/-- Perform at a scope every write that a release of agent n covers (R201, R323, R324). -/
def State.flushTo (s : State) (n : Nat) : Scope → State
  | .ctx => s
  | .grp => (s.showGroup n).passOn n 1
  | sc => ((s.commitCovered n fun _ => true).applyRepl).passOn n (match sc with | .dev => 2 | _ => 3)

/-- The engines of agent n see every write that it has performed: a release of its commands or a fence with the engines bit has come
(R204, R221, R325). -/
def State.showEng (s : State) (n : Nat) : State :=
  { s with pw := s.pw.map fun p => if p.owner = n then { p with eng := true } else p }

/-- The engines of its writer see pending write i, and with it those of the writer at the same word before it (R157, R317). -/
def State.engSee (s : State) (i : Nat) : State :=
  match s.pw[i]? with
  | none => s
  | some p => { s with pw := (s.pw.zipIdx).map fun q => if q.2 ≤ i && q.1.owner = p.owner && q.1.key = p.key then { q.1 with eng := true } else q.1 }

/-- Commit the pending writes of a location that agent n sees, before a write of its own that goes home directly. -/
def State.flushKey (s : State) (n key : Nat) : State := s.commitCovered n fun p => p.key = key

/-- An access of agent n to an SO page begins once its own earlier writes to replicated SO pages are performed (R319). -/
def State.beginSo (s : State) (n : Nat) (pc : Piece) : State :=
  if pc.ord = .so then s.applyWhere fun r => r.owner = n && r.so else s

/-- Agent n writes a word of a replicated page: the write goes to the page's sequencer (R328). -/
def State.sendRepl (s : State) (n : Nat) (pc : Piece) (key : Nat) (en : BitVec 8) (val : Word) : State :=
  { s with rw := s.rw ++ [{ page := pc.page, key := key, en := en, val := val, owner := n, so := pc.ord = .so }] }

/-- Agent n performs a write of one location: at home on an SO page, to its own view first elsewhere (R316, R319, R320). -/
def State.write (s : State) (n : Nat) (pc : Piece) (key : Nat) (en : BitVec 8) (val : Word) : State :=
  let s := (s.beginSo n pc).forgetAt n key
  match pc.repl with
  | some _ => s.sendRepl n pc key en val
  | none =>
    match pc.ord with
    | .so => ((s.flushKey n key).homeWrite n key en val).showUo key fun _ => false
    | .rc => { s with pw := s.pw ++ [{ key := key, en := en, val := val, owner := n, grp := s.grpOf n }] }
    | .uo =>
      { s with pw := s.pw ++ [{ key := key, en := en, val := val, owner := n, grp := s.grpOf n, uo := true }]
               uo := if en = 0xFF#8 then { agent := n, key := key, val := val } :: s.uo.filter (fun u => !(u.agent = n && u.key = key))
                     else s.uo }

/-- A write made for agent n, by itself or by its engines, that goes home directly. -/
def State.writeHome (s : State) (n who : Nat) (pc : Piece) (key : Nat) (en : BitVec 8) (val : Word) : State :=
  let s := s.beginSo n pc
  match pc.repl with
  | some _ => s.sendRepl n pc key en val
  | none => ((s.flushKey n key).homeWrite who key en val).showUo key fun _ => false

/-- An engine's plain write for agent n: at a UO location each agent comes to see it in its own time (R317, R320). -/
def State.writeEng (s : State) (n : Nat) (pc : Piece) (key : Nat) (en : BitVec 8) (val : Word) : State :=
  if pc.ord = .uo && pc.repl.isNone then
    { s with pw := s.pw ++ [{ key := key, en := en, val := val, owner := engOf n, grp := 2 * engOf n + 1, uo := true }] }
  else s.writeHome n (engOf n) pc key en val

/-- The engine writes of agent n to UO and replicated pages are performed, as its command ends (R220, R317, R328). -/
def State.settleEng (s : State) (n : Nat) : State := (s.commitWhere fun p => p.owner = engOf n).applyWhere fun r => r.owner = n

/-- Hardware writes of a structure named by physical address (R399, R415): n bytes at a key. -/
def State.putBytes (s : State) (a n v : Nat) : State := { s with mem := memWriteN s.mem a n v }

/-- An aligned doubleword that the hardware reads by physical address at dev scope. -/
def State.peek (s : State) (a : Nat) : Word := memWord s.mem a

/-! Touches of scratch (R205, R294, R295). -/

/-- The offset of the first guard byte of a region that an access covers, if any (R205, R295). -/
def guardHit (r : Region) (off len : Nat) : Option Nat :=
  if 64 ≤ r.base && overlaps off len (r.base - 64) 64 then some (max off (r.base - 64))
  else if overlaps off len (r.base + r.size) 64 then some (max off (r.base + r.size))
  else none

/-- Record a touch of a task's guard (R294). -/
def addGuard (t : Task) (addr agent : Nat) : Task :=
  match t.guard with
  | some g => { t with guard := some { g with count := min 0xFFFF (g.count + 1) } }
  | none => { t with guard := some { addr := addr, count := 1, bank := bitsOf addr 6 5, agent := agent } }

/-- What an access to scratch leaves in the region table, the tiles kept for reuse and the guard reports (R298); it is at most one touch, that of the lowest guard byte
it covers (R205, R295). -/
def State.touch (s : State) (key len : Nat) (isWrite : Bool) (agent : Nat) : State :=
  if isScr key then
    let core := scrCore key
    let off := scrOff key
    let rs := (s.coreAt core).regions
    let hitKept := fun (k : Kept) => isWrite && overlaps k.base k.size off len
    let s1 := if isWrite && rs.any (fun r => dirtyMask r off len != 0) then
        s.modCore core fun c => { c with regions := c.regions.map fun r =>
          { r with dirty := r.dirty ||| dirtyMask r off len, wrote := r.wrote || (agent != 4 && dirtyMask r off len != 0) } }
      else s
    let s1 := if (s1.coreAt core).kept.any hitKept then
        s1.modCore core fun c => { c with kept := c.kept.filter fun k => !hitKept k }
      else s1
    let hits := rs.filterMap fun r => (guardHit r off len).map fun o => (o, r.owner)
    match hits.foldl (fun (best : Option (Nat × Nat)) h => match best with
        | some b => if h.1 < b.1 then some h else best
        | none => some h) none with
    | some h => s1.modTask h.2 fun k => addGuard k (core * 2 ^ 22 + h.1) agent
    | none => s1
  else s

/-! Race shadows (R312 to R314). -/

/-- The era of a task (R313). -/
def Task.era (t : Task) : Nat := if t.coop then (t.phase % 256) * 256 + t.bars % 256 else t.phase

/-- near(s, a) of R314. -/
def shadowNear (sh : Word) (t : Task) : Bool :=
  let era := sh.bits 46 16
  let owner := sh.bits 0 40
  if !t.coop then era == t.era
  else if t.first % 2 ^ 40 ≤ owner && owner < t.first % 2 ^ 40 + t.gsize then era == t.era
  else era / 256 == t.era / 256

def shadowMk (st era tag owner : Nat) : Word :=
  wordOfNat (st * 2 ^ 62 + (era % 2 ^ 16) * 2 ^ 46 + (tag % 64) * 2 ^ 40 + owner % 2 ^ 40)

/-- The new shadow of a word after an access of a task, or none for a race (R314). -/
def shadowStep (sh : Word) (t : Task) (tag : Nat) (isWrite : Bool) : Option Word :=
  let st := sh.bits 62 2
  let own := t.index % 2 ^ 40
  let mine := sh.bits 0 40 == own
  let fresh := st == 0 || sh.bits 40 6 != tag || !shadowNear sh t
  if isWrite then
    if fresh || (st != 3 && mine) then some (shadowMk 1 t.era tag own) else none
  else if fresh then some (shadowMk 2 t.era tag own)
  else if st == 1 && !mine then none
  else if st == 2 && !mine then some (sh ||| wordOfNat (3 * 2 ^ 62))
  else some sh

/-- The words of an access, as keys of aligned words. -/
def wordKeys (key len : Nat) : List Nat :=
  if len = 0 then [] else (upTo ((key + len - 1) / 8 - key / 8 + 1)).map fun i => (key / 8 + i) * 8

/-- Check and update the shadows of a scratch access; none when it races (R314). A task of no verify launch, or with
RACECTL.HOLD set, is not checked. -/
def State.raceCheck (s : State) (task : Option Nat) (hold : Bool) (key len : Nat) (isWrite : Bool) : Option State :=
  if !isScr key || hold then some s
  else match task.bind s.findTask with
    | none => some s
    | some t =>
      match t.ltag with
      | none => some s
      | some tag =>
        if !(s.coreAt (scrCore key)).verify then some s
        else
          let ks := wordKeys key len
          let step := fun (acc : Option (List (Nat × Word))) k =>
            acc.bind fun l => (shadowStep (memWord s.mem (k + 0x200000)) t tag isWrite).map fun w => l ++ [(k + 0x200000, w)]
          match ks.foldl step (some []) with
          | none => none
          | some l => some { s with mem := l.foldl (fun m p => memWriteN m p.1 8 p.2.toNat) s.mem }

/-! Physical addresses (R302, R303). -/

/-- Installed memory of a stack: 48,000,000,000 bytes. -/
def stackBytes : Nat := 48000000000

/-- Every byte of the range exists: host memory, or below the limit of one stack of the package. -/
def installed (pa len : Nat) : Bool :=
  if pa < 2 ^ 47 then pa / 2 ^ 43 < 6 && pa % 2 ^ 43 + len ≤ stackBytes
  else pa + len ≤ 2 ^ 48

/-- The home die of a physical address; host memory counts as die 0. -/
def homeDie (pa : Nat) : Nat := if pa < 2 ^ 47 then pa / 2 ^ 43 / 3 else 0

/-! Page tables (R300, R301, R303). -/

/-- The low bit, the width of the index and the leaf size, by level. -/
def levelShift : Nat → Nat
  | 0 => 48 | 1 => 39 | 2 => 30 | 3 => 21 | 4 => 16 | _ => 12
def levelBits : Nat → Nat
  | 0 | 1 | 2 | 3 => 9 | 4 => 5 | _ => 4

def pteV (e : Word) : Bool := e.getLsbD 0
def pteLeaf (e : Word) : Bool := e.getLsbD 1
def pteW (e : Word) : Bool := e.getLsbD 2
def pteT (e : Word) : Bool := e.getLsbD 3
def pteX (e : Word) : Bool := e.getLsbD 4
def pteOrd (e : Word) : Nat := e.bits 5 2
def pteRepl (e : Word) : Bool := e.getLsbD 7
def pteSparse (e : Word) : Bool := e.getLsbD 8
def pteSealed (e : Word) : Bool := e.getLsbD 9
def ptePin (e : Word) : Bool := e.getLsbD 10
def pteHome (e : Word) : Nat := e.bits 11 1
def pteFrame (e : Word) : Nat := e.bits 12 36 * 4096
def pteSeqdev (e : Word) : Nat := e.bits 48 12

/-- A leaf is malformed (R303). -/
def pteMalformed (e : Word) (level : Nat) : Bool :=
  let pa := pteFrame e
  let dev := pa < 2 ^ 47
  e.bits 60 4 != 0 || pteOrd e == 3 || pa % 2 ^ levelShift level != 0 || (pteSeqdev e != 0 && !pteRepl e) ||
  (dev && (bitsOf pa 46 1 == 1 || 6 ≤ bitsOf pa 43 3)) || (dev && !pteRepl e && pteHome e != homeDie pa) || (!dev && pteRepl e)

/-- A walk from level `6 − fuel` of the table at t (R303): a leaf with its page size, or a fault. -/
def walkFrom (s : State) (va : Nat) : Nat → Nat → Except Cause (Word × Nat)
  | 0, _ => .error .pageFault
  | fuel + 1, t =>
    let level := 5 - fuel
    let a := t + 8 * bitsOf va (levelShift level) (levelBits level)
    if !installed a 8 then .error .protection
    else
      let e := s.peek a
      if !pteV e then .error .pageFault
      else if !pteLeaf e then
        if level = 5 || e.bits 48 16 != 0 || e.bits 2 10 != 0 then .error .pageFault
        else walkFrom s va fuel (pteFrame e)
      else if level < 2 || pteMalformed e level then .error .pageFault
      else .ok (e, 2 ^ levelShift level)

/-- A walk of the tables whose root is PTBASE.ROOT. -/
def State.walk (s : State) (root : Word) (va : Nat) : Except Cause (Word × Nat) :=
  walkFrom s va 6 (root.bits 12 45 * 4096)

/-! Translation units (R305, R306). -/

def Tlb.covers (t : Tlb) (job va : Nat) : Bool := t.job = job && t.page ≤ va && va < t.page + t.size

/-- The held leaf for a virtual address. -/
def TransUnit.find (u : TransUnit) (job va : Nat) : Option Tlb := u.held.find? (·.covers job va)

/-- Keep a walked leaf: pinned entries up to 1,024, all entries up to 4,096, the least recently used
unpinned one leaving first (R306). -/
def TransUnit.insert (u : TransUnit) (job va : Nat) (leaf : Word) (size : Nat) : TransUnit :=
  let pin := ptePin leaf && (u.held.countP (·.pin)) < 1024
  let e : Tlb := { job := job, page := va / size * size, size := size, leaf := leaf, pin := pin }
  let l := e :: u.held.filter fun t => !(t.job = job && t.page = e.page && t.size = size)
  let l := if l.length ≤ 4096 then l
    else match (l.reverse.find? fun t => !t.pin) with
      | some v => l.erase v
      | none => l.take 4096
  { u with held := l }

/-- A held leaf has served an access: it is the most recently used (R306). -/
def State.hit (s : State) (unit job va : Nat) : State :=
  let u := s.unitAt unit
  match u.find job va with
  | some t => if u.held.head? = some t then s else s.setUnit unit { u with held := t :: u.held.erase t }
  | none => s

/-- What an access asks of a leaf. -/
structure Ask where
  kernel : Bool
  isWrite : Bool := false
  /-- A core's atomic, LDA, STL or WAITC read, which no UO page takes (R191, R320). -/
  sync : Bool := false
  /-- Host frames are allowed: an access of a copy engine. -/
  host : Bool := false
  fetch : Bool := false
deriving DecidableEq, Repr

/-- The checks that follow a successful walk, in the order of R191 and R303, for an access of len bytes at va. -/
def checkLeaf (s : State) (leaf : Word) (size va len : Nat) (q : Ask) : Except Cause Piece :=
  let pa := pteFrame leaf + va % size
  let isHost := 2 ^ 47 ≤ pa
  if isHost && !q.host then .error .protection
  else if !installed pa len then .error .protection
  else if q.isWrite && !pteW leaf then .error .protection
  else if !q.kernel && !pteT leaf then .error .protection
  else if q.fetch && !pteX leaf then .error .protection
  else if q.isWrite && pteRepl leaf && pteSeqdev leaf != s.fdev.bits 0 12 then .error .protection
  else if q.sync && pteOrd leaf == 2 then .error .orderingAttribute
  else .ok { key := pa, page := pteFrame leaf, ord := if pteOrd leaf == 0 then .so else if pteOrd leaf == 1 then .rc else .uo,
             repl := if pteRepl leaf then some (pteSeqdev leaf, pteHome leaf) else none }

/-- The root of an agent's tables and its job. -/
def Ctx.root (c : Ctx) : Word := c.cr[0x14]
def Ctx.job (c : Ctx) : Nat := (c.cr[6]).bits 0 12
def Ctx.kernel (c : Ctx) : Bool := (c.cr[0]).getLsbD 0

/-- An access that waited on a walk of a page meets its outcome (R193, R303). -/
def walkServed (page : Nat) (r : Except Cause (Word × Nat)) (a : Access) : Access :=
  if a.st = .walking page then
    match r with
    | .ok _ => { a with st := .waiting }
    | .error e =>
      let split := a.ea.toNat % 2 ^ 57 / 4096 != page
      { a with st := .faulted e (if split then wordOfNat (page * 4096) else a.ea) split }
  else a

/-- The accesses of a job that waited at a unit on a walk of a page meet its outcome. -/
def State.serveWalk (s : State) (unit job page : Nat) (r : Except Cause (Word × Nat)) : State :=
  { s with ctxs := s.ctxs.map fun q => if unitOf q.1 = unit && q.2.job = job then
      (q.1, { q.2 with acc := q.2.acc.map (walkServed page r) }) else q }

/-- A walk of a page for a job ends at a unit: its leaf is held, and what waited on it is served (R305). -/
def State.endWalk (s : State) (unit job va : Nat) (r : Except Cause (Word × Nat)) : State :=
  let u := s.unitAt unit
  let u := { u with walks := u.walks.filter fun w => !(w.job = job && w.page = va / 4096) }
  let u := match r with | .ok (leaf, size) => u.insert job va leaf size | .error _ => u
  (s.setUnit unit u).serveWalk unit job (va / 4096) r

/-- Translate through a unit; a miss walks, or waits on the walk of its page that is under way, which ends with this step (R305; log
entry 32); the leaf walked is kept. -/
def State.translate (s : State) (unit job : Nat) (root : Word) (va len : Nat) (q : Ask) : State × Except Cause (Word × Piece) :=
  match (s.unitAt unit).find job va with
  | some t => (s.hit unit job va, (checkLeaf s t.leaf t.size va len q).map fun p => (t.leaf, p))
  | none =>
    let r := s.walk root va
    let under := (s.unitAt unit).walks.any fun w => w.job = job && w.page = va / 4096
    match r with
    | .error c => (if under then s.endWalk unit job va r else s, .error c)
    | .ok (leaf, size) =>
      (if under then s.endWalk unit job va r else s.setUnit unit ((s.unitAt unit).insert job va leaf size),
        (checkLeaf s leaf size va len q).map fun p => (leaf, p))

/-- What a core address names (R27). -/
inductive Target where
  | virt (va : Nat)
  | scratch (sa : Nat)
  | nonCanonical
deriving DecidableEq, Repr

def coreTarget (a : Word) : Target :=
  if a.bits 57 7 = 0 then .virt a.toNat
  else if a.bits 57 7 = 0x7F && a.bits 31 26 = 0 then .scratch (a.bits 0 31)
  else .nonCanonical

end Sys2Proof.Machine
end

