-- ==== Sys2Proof/Machine/Access.lean ====
section
/-! DEFINITION. Accesses of a context in the memory path: what kind of access a slot makes, which bytes it covers, and what the order of one
context asks of two of them (spec/07_memory_instr.md R190 to R204, spec/14_ordering.md R318, R319). -/

namespace Sys2Proof.Machine

/-! What kind of access a slot makes. -/

/-- The bytes of a size code (R200). -/
def widthBytes : Width → Nat
  | .w8 => 1 | .w16 => 2 | .w32 => 4 | .w64 => 8

/-- Bytes a scalar load or store, an LDA, STL or atomic, an LDV or STV touches, and the header of a list operation; 0 for a producer that
touches no memory. -/
def accBytes : Instr → Nat
  | .ldbs _ _ _ _ | .ldbn _ _ _ _ | .stb _ _ _ _ => 1
  | .ldhs _ _ _ _ | .ldhn _ _ _ _ | .sth _ _ _ _ => 2
  | .ldws _ _ _ _ | .ldwn _ _ _ _ | .stw _ _ _ _ => 4
  | .ldd _ _ _ _ | .std _ _ _ _ => 8
  | .ldv _ _ _ _ | .stv _ _ _ _ => 2048
  | .lda _ _ _ z _ | .stl _ _ _ _ z _ => widthBytes z
  | .amog _ _ _ _ fn | .amod _ _ _ _ fn | .amos _ _ _ _ fn => if fn = .fadd then 4 else 8
  | .wlpsh _ _ _ _ _ | .wlins _ _ _ _ _ => 64
  | _ => 0

def isAmo : Instr → Bool
  | .amog _ _ _ _ _ | .amod _ _ _ _ _ | .amos _ _ _ _ _ => true
  | _ => false

def isListOp : Instr → Bool
  | .wlpsh _ _ _ _ _ | .wlins _ _ _ _ _ => true
  | _ => false

/-- It takes a value from memory. -/
def isLoad : Instr → Bool
  | .ldbs _ _ _ _ | .ldbn _ _ _ _ | .ldhs _ _ _ _ | .ldhn _ _ _ _ | .ldws _ _ _ _ | .ldwn _ _ _ _ | .ldd _ _ _ _
  | .ldv _ _ _ _ | .lda _ _ _ _ _ => true
  | i => isAmo i || isListOp i

/-- It writes memory. -/
def isStore : Instr → Bool
  | .stb _ _ _ _ | .sth _ _ _ _ | .stw _ _ _ _ | .std _ _ _ _ | .stv _ _ _ _ | .stl _ _ _ _ _ _ | .vqmx _ _ _ _ => true
  | i => isAmo i || isListOp i

def isFence : Instr → Bool
  | .fence _ _ _ => true
  | _ => false

def isMem (i : Instr) : Bool := isLoad i || isStore i

/-- The scope of an acquire (R201, R202). -/
def acqScope : Instr → Option Scope
  | .lda _ _ _ _ sc => some sc
  | .amog _ _ _ o _ => if o = .acq || o = .acqrel then some .grp else none
  | .amod _ _ _ o _ => if o = .acq || o = .acqrel then some .dev else none
  | .amos _ _ _ o _ => if o = .acq || o = .acqrel then some .sys else none
  | _ => none

/-- The scope of a release. -/
def relScope : Instr → Option Scope
  | .stl _ _ _ _ _ sc => some sc
  | .amog _ _ _ o _ => if o = .rel || o = .acqrel then some .grp else none
  | .amod _ _ _ o _ => if o = .rel || o = .acqrel then some .dev else none
  | .amos _ _ _ o _ => if o = .rel || o = .acqrel then some .sys else none
  | _ => none

/-- Atomics, LDA and STL fault on a UO page (R191). -/
def isSync : Instr → Bool
  | .lda _ _ _ _ _ | .stl _ _ _ _ _ _ => true
  | i => isAmo i

/-- The access has taken its value, or needs none. -/
def Access.performed (a : Access) : Bool := match a.st with | .got _ => true | _ => !isMem a.ins

/-- The scratch address of a list operation. -/
def listAddr (a : Word) : Nat := match coreTarget a with | .scratch sa => sa | _ => 0

/-- The bytes an access covers from its address: for a list operation the ring and the set that its header gives, with the header
(R211). -/
def State.span (s : State) (n : Nat) (a : Access) : Nat :=
  if isListOp a.ins then
    let cap := (s.view n (scrKey (listAddr a.ea))).toNat
    if 4 ≤ cap && cap ≤ 65536 then 64 + 16 * cap else 64
  else max 8 (accBytes a.ins)

/-! Order. -/

/-- The key and the piece of word i of a 2,048-byte access. -/
def wordAt (a : Access) (p0 : Piece) (p1 : Option Piece) (i : Nat) : Piece × Nat :=
  match p1 with
  | some q => if 8 * i < a.cut then (p0, p0.key + 8 * i) else (q, q.key + 8 * i - a.cut)
  | none => (p0, p0.key + 8 * i)

/-- The key ranges of an access of l bytes that is translated. -/
def Access.ranges (a : Access) (l : Nat) (p0 : Piece) (p1 : Option Piece) : List (Nat × Nat) :=
  match p1 with
  | some q => [(p0.key, a.cut), (q.key, l - a.cut)]
  | none => [(p0.key / 8 * 8, l)]

/-- The access waits on a page walk. -/
def Access.walks (a : Access) : Bool := match a.st with | .walking _ => true | _ => false

/-- Two accesses, of pl and el bytes, may touch one location: by their keys when both are translated, by their addresses otherwise; two
untranslated accesses to different pages conflict when their page offsets overlap, since two virtual pages may share a frame. An access
that waits on a walk keeps a later one to the same 64-byte line behind it (R305). -/
def conflict (pl el : Nat) (p e : Access) : Bool :=
  match p.st, e.st with
  | .ready a a2, .ready b b2 => (p.ranges pl a a2).any fun x => (e.ranges el b b2).any fun y => overlaps x.1 x.2 y.1 y.2
  | _, _ =>
    match coreTarget p.ea, coreTarget e.ea with
    | .scratch x, .scratch y => overlaps (x / 8 * 8) pl (y / 8 * 8) el
    | .virt x, .virt y =>
      pl > 8 || el > 8 || x % 4096 / 8 = y % 4096 / 8 || (p.walks && x / 64 = y / 64)
    | _, _ => false

/-- The scratch words of a VQMX overlap an access of el bytes. -/
def vqmxConflict (v : Access) (el : Nat) (e : Access) : Bool :=
  match coreTarget e.ea with
  | .scratch y => v.wr.any fun w => overlaps w.1 w.2.1 (y / 8 * 8) el
  | _ => false

def anyConflict (pl el : Nat) (p e : Access) : Bool :=
  if !p.wr.isEmpty && !e.wr.isEmpty then true
  else if !p.wr.isEmpty then vqmxConflict p el e
  else if !e.wr.isEmpty then vqmxConflict e pl p
  else conflict pl el p e

/-- An access belongs to the earlier set of a fence of kind k (R204). -/
def inEarlierSet (k : FenceKind) (i : Instr) : Bool := match k with | .acq => isLoad i | _ => isMem i

/-- A fence that stands before e holds it, while an access of the fence's earlier set is outstanding (R204). -/
def fenceHolds (acc : List Access) (f : Access) (e : Instr) : Bool :=
  match f.ins with
  | .fence _ k _ =>
    (match k with | .rel => isStore e | _ => isMem e) && acc.any fun q => q.sn < f.sn && !q.performed && inEarlierSet k q.ins
  | _ => false

/-- An earlier outstanding access p, of pl bytes, keeps e, of el bytes, waiting, whatever the kind of its page. -/
def holdsBack (acc : List Access) (pl el : Nat) (p e : Access) : Bool :=
  if isFence p.ins then fenceHolds acc p e.ins
  else if p.performed || !isMem p.ins then false
  else
    anyConflict pl el p e || (isStore e.ins && isLoad p.ins) || (acqScope p.ins).isSome || (relScope e.ins).isSome ||
    (isListOp p.ins && isListOp e.ins)

/-- Access e of agent n may be performed now, SO pages apart (R194, R201, R204, R211, R318). -/
def mayPerform (s : State) (n : Nat) (e : Access) : Bool :=
  let acc := (s.ctxAt n).acc
  acc.all fun p => !(p.sn < e.sn) || !holdsBack acc (s.span n p) (s.span n e) p e

/-- Some part of an outstanding access lies, or for all that is known may lie, on an SO page and is still to be performed (R319). -/
def soLeft (p : Access) : Bool :=
  match p.st with
  | .ready r none => r.ord = .so
  | .ready r (some q) => (upTo 256).any fun i => p.todo.getLsbD i && (wordAt p r (some q) i).1.ord = .so
  | _ => p.wr.isEmpty && (match coreTarget p.ea with | .virt _ => true | _ => false)

/-- The part of e that lies in a piece may be performed now: on an SO page it waits for the earlier accesses of its context to such
pages (R319). -/
def soFree (c : Ctx) (e : Access) (q : Piece) : Bool :=
  q.ord != .so || c.acc.all fun p => !(p.sn < e.sn) || p.performed || !isMem p.ins || !soLeft p

end Sys2Proof.Machine
end

