-- ==== Sys2Proof/Machine/Ops.lean ====
section
/-! DEFINITION. The named operations over registers: reading and writing the files (R15, R16), control registers (R253 to R256),
fixed-latency results (R95 to R97), and, once for the whole machine, trap entry (R402) and the return from a trap (R403). -/

namespace Sys2Proof.Machine

/-- The three outcomes over this machine's state. -/
abbrev Out := Host.Outcome State Fault Refusal

/-- Go on from a next state. -/
def andThen (o : Out) (f : State → Out) : Out :=
  match o with
  | .next s => f s
  | .fault r => .fault r
  | .refused r => .refused r

/-! The register files. -/

/-- Read an x register; x0 reads as zero (R16). -/
def Ctx.getX (c : Ctx) (r : Reg) : Word := if r = 0 then 0 else c.x[r.toNat]'(by have := r.isLt; omega)
/-- Write an x register; a write of x0 is dropped (R16). -/
def Ctx.setX (c : Ctx) (r : Reg) (v : Word) : Ctx :=
  if r = 0 then c else { c with x := c.x.set r.toNat v (by have := r.isLt; omega) }
def Ctx.getV (c : Ctx) (r : Reg) : Row := c.v[r.toNat]'(by have := r.isLt; omega)
def Ctx.setV (c : Ctx) (r : Reg) (v : Row) : Ctx := { c with v := c.v.set r.toNat v (by have := r.isLt; omega) }
/-- Read a mask; m0 reads as all ones (R15). -/
def Ctx.getM (c : Ctx) (r : MReg) : Mask := if r = 0 then BitVec.allOnes 2048 else c.m[r.toNat]'(by have := r.isLt; omega)
def Ctx.setM (c : Ctx) (r : MReg) (v : Mask) : Ctx :=
  if r = 0 then c else { c with m := c.m.set r.toNat v (by have := r.isLt; omega) }
def Ctx.getK (c : Ctx) (r : Tok) : Token := if r = 0 then {} else c.k[r.toNat]'(by have := r.isLt; omega)
/-- Write a token; k0 means none (R103). -/
def Ctx.setK (c : Ctx) (r : Tok) (t : Token) : Ctx :=
  if r = 0 then c else { c with k := c.k.set r.toNat t (by have := r.isLt; omega) }

/-- x0 is always full (R16). -/
def Ctx.xFull (c : Ctx) (r : Reg) : Bool := r = 0 || c.fullX.getLsbD r.toNat
def Ctx.vFull (c : Ctx) (r : Reg) : Bool := c.fullV.getLsbD r.toNat
def Ctx.vBad (c : Ctx) (r : Reg) : Bool := c.poisonV.getLsbD r.toNat
def Ctx.markX (c : Ctx) (r : Reg) (full : Bool) : Ctx :=
  if r = 0 then c else { c with fullX := setBit64 c.fullX r.toNat full }
def Ctx.markV (c : Ctx) (r : Reg) (full : Bool) : Ctx := { c with fullV := setBit64 c.fullV r.toNat full }
def Ctx.markBad (c : Ctx) (r : Reg) (bad : Bool) : Ctx := { c with poisonV := setBit64 c.poisonV r.toNat bad }

/-! Control registers. -/

/-- Register numbers of R253. -/
def crPsw : Fin 24 := 0
def crTvec : Fin 24 := 1
def crTcause : Fin 24 := 2
def crTaddr : Fin 24 := 3
def crTinfo : Fin 24 := 4
def crTpc : Fin 24 := 5
def crJid : Fin 24 := 6
def crTaskid : Fin 24 := 8
def crPhase : Fin 24 := 9
def crPcw : Fin 24 := 0xB
def crSlack : Fin 24 := 0xC
def crVflags : Fin 24 := 0xD
def crVrm : Fin 24 := 0xE
def crRngk : Fin 24 := 0x10
def crRngcl : Fin 24 := 0x11
def crRngch : Fin 24 := 0x12
def crRepc : Fin 24 := 0x13
def crPtbase : Fin 24 := 0x14
def crRacectl : Fin 24 := 0x15
def crCutreq : Fin 24 := 0x16
def crProv : Fin 24 := 0x17

def Ctx.setCr (c : Ctx) (i : Fin 24) (v : Word) : Ctx := { c with cr := c.cr.set i.val v i.isLt }

def Ctx.psw (c : Ctx) : Word := c.cr[crPsw]
def Ctx.pendCheck (c : Ctx) : Bool := c.psw.getLsbD 1
def Ctx.vtrap (c : Ctx) : Bool := c.psw.getLsbD 2
def Ctx.hog (c : Ctx) : Bool := c.psw.getLsbD 3
def Ctx.async (c : Ctx) : Bool := c.psw.getLsbD 5
def Ctx.hold (c : Ctx) : Bool := c.cr[crRacectl].getLsbD 1
def Ctx.repc (c : Ctx) : Nat := c.cr[crRepc].bits 0 7
/-- The generator counter C = RNGCH:RNGCL (R70). -/
def Ctx.counter (c : Ctx) : BitVec 128 := c.cr[crRngch] ++ c.cr[crRngcl]
def Ctx.setCounter (c : Ctx) (v : BitVec 128) : Ctx :=
  (c.setCr crRngch (v.extractLsb' 64 64)).setCr crRngcl (v.extractLsb' 0 64)
/-- The half-draw bit VRM.RGH (R48). -/
def Ctx.rgh (c : Ctx) : Bool := c.cr[crVrm].getLsbD 8
def Ctx.setRgh (c : Ctx) (b : Bool) : Ctx := c.setCr crVrm (setBit64 c.cr[crVrm] 8 b)

/-- STEP, CYC[L + 63 : L] (R387). -/
def State.step64 (s : State) : Word := BitVec.ofNat 64 (s.cyc.toNat >>> (s.fstep.bits 0 4 + 8))

/-- The thermal region of a core (R466). -/
def regionOf (core : Nat) : Nat := 3 * (core / 144) + (core % 144) / 4 / 6 / 2

/-- The allowance of a core: its region's, lowered while the package draws too much (R466, R468). -/
def State.allowOf (s : State) (core : Nat) : Nat :=
  let a := (s.therm[regionOf core]?.getD 0).bits 24 8
  if s.overPower then a - 32 else a

/-- CTXID (R256). -/
def State.ctxid (s : State) (n : Nat) : Word :=
  wordOfNat (s.fdev.bits 0 12 * 65536 + if isSeq n then 0xFFF0 + (n - numContexts) else n)

/-- What MFC reads (R250, R256). -/
def State.readCr (s : State) (n : Nat) (i : Fin 24) : Word :=
  if i = 7 then s.ctxid n
  else if i = 0xA then s.step64
  else if i = 0xF then (if isSeq n then 255 else wordOfNat (s.allowOf (coreOf n)))
  else (s.ctxAt n).cr[i]

/-- The bits that a write of a control register changes (R253 to R256, R46, R48). -/
def crMask (i : Fin 24) : Word :=
  match i.val with
  | 0x00 => 0x3F
  | 0x01 => 0x01FFFFFFFFFFFFFC
  | 0x02 => 0x000000000FFF0F1F
  | 0x03 => 0xFFFFFFFFFFFFFFFF
  | 0x04 => 0xFFFFFFFF3FFFFFFF
  | 0x05 => 0xFFFFFFFFFFFFFFFF
  | 0x0B => 0xFFFFFFFFFFFFFFFF
  | 0x0C => 0xFFF
  | 0x0D => 0x3F
  | 0x0E => 0x107
  | 0x10 => 0xFFFFFFFFFFFFFFFF
  | 0x11 => 0xFFFFFFFFFFFFFFFF
  | 0x12 => 0xFFFFFFFFFFFFFFFF
  | 0x13 => 0x7F
  | 0x14 => 0x01FFFFFFFFFFF000
  | 0x15 => 0x2
  | 0x17 => 0xFFFFFFFFFFFFFFFF
  | _ => 0

/-- A write of a control register: reserved and read-only fields keep what they hold (R41, R250); a rounding mode of 6 or 7
written to VRM leaves 0 (R48). -/
def Ctx.writeCr (c : Ctx) (i : Fin 24) (v : Word) : Ctx :=
  let v' := if i = crVrm && 6 ≤ v.bits 0 3 then v &&& ~~~7#64 else v
  c.setCr i (mergeBits (crMask i) c.cr[i] v')

/-! Fixed-latency results. -/

/-- The row whose byte i is all ones where bit i of the mask is 1. -/
def expandMask (m : Mask) : Row :=
  if m = BitVec.allOnes 2048 then BitVec.allOnes 16384
  else BitVec.ofNat 16384 ((upTo 2048).foldl (fun a i => if m.getLsbD i then a + 0xFF <<< (8 * i) else a) 0)

/-- A result lands (R95, R97): a vector write of every byte clears the poison bit (R21), flags are ORed in (R47). -/
def Ctx.land (c : Ctx) (p : Pending) : Ctx :=
  let c := if p.flags = 0 then c else c.setCr crVflags (c.cr[crVflags] ||| p.flags.setWidth 64)
  match p.res with
  | .x r v => c.setX r v
  | .v r v en =>
    if en = BitVec.allOnes 2048 then (c.setV r v).markBad r false
    else c.setV r ((c.getV r &&& ~~~(expandMask en)) ||| (v &&& expandMask en))
  | .m r v en => c.setM r ((c.getM r &&& ~~~en) ||| (v &&& en))
  | .flags => c

/-- One more bundle has issued: results whose bundle is reached land, in the order they were issued. -/
def Ctx.tickPending (c : Ctx) : Ctx :=
  let aged := c.pend.map fun p => { p with due := p.due - 1 }
  let c := (aged.filter (·.due = 0)).foldl Ctx.land { c with pend := aged.filter (·.due != 0) }
  { c with acc := c.acc.map fun a => { a with due := a.due - 1 } }

/-- Every pending result lands at once, as the end of a drain makes it (R135, R260, R403). -/
def Ctx.landAll (c : Ctx) : Ctx := c.pend.foldl Ctx.land { c with pend := [] }

/-- Control-register writes of the bundle take effect (R83). -/
def Ctx.applyMtc (c : Ctx) : Ctx :=
  c.crPend.foldl (fun c p => if h : p.1 < 24 then c.writeCr ⟨p.1, h⟩ p.2 else c) { c with crPend := [] }

/-- Add a fixed-latency result of latency L to the bundle being issued (R95). -/
def Ctx.addPend (c : Ctx) (lat : Nat) (r : Result) (fl : BitVec 6) : Ctx :=
  { c with pend := c.pend ++ [{ due := lat, res := r, flags := fl }] }

/-- Add a scalar result; one for x0 is dropped (R16). -/
def Ctx.addX (c : Ctx) (lat : Nat) (d : Reg) (v : Word) : Ctx := if d = 0 then c else c.addPend lat (.x d v) 0

/-- The registers an access or producer will fill. -/
def accDestX : Instr → Option Reg
  | .div d _ _ _ _ | .divn d _ _ _ _ | .rem d _ _ _ _ | .remn d _ _ _ _ | .wlpsh d _ _ _ _ | .wlins d _ _ _ _ => some d
  | .ldbs t _ _ _ | .ldbn t _ _ _ | .ldhs t _ _ _ | .ldhn t _ _ _ | .ldws t _ _ _ | .ldwn t _ _ _ | .ldd t _ _ _ => some t
  | .lda d _ _ _ _ => some d
  | .amog d _ _ _ _ | .amod d _ _ _ _ | .amos d _ _ _ _ => some d
  | .vext d _ _ _ => some d
  | _ => none

def accDestV : Instr → Option Reg
  | .ldv t _ _ _ => some t
  | _ => none

/-- Mark the destination of an access empty, or full again (R99, R398). -/
def Ctx.markDest (c : Ctx) (i : Instr) (full : Bool) : Ctx :=
  let c := match accDestX i with | some r => c.markX r full | none => c
  match accDestV i with | some r => c.markV r full | none => c

/-! Fault records (R224, R309, R406). -/

/-- A record with its words laid out as R224 gives. -/
def mkRecord (va : Word) (cause kind op ctx token : Nat) (handle : Word) (dev : Nat) : FaultRecord :=
  { handle := handle, va := va,
    lo := wordOfNat (cause + kind * 2 ^ 16 + op * 2 ^ 24 + ctx * 2 ^ 32 + token * 2 ^ 48), hi := wordOfNat dev }

/-- A record joins the 64 of the holding area; with the area full it waits for room (R309). -/
def State.addRecord (s : State) (d : Nat) (r : FaultRecord) : State :=
  s.modDie d fun x => if x.records.length < 64 then { x with records := x.records ++ [r] } else { x with owed := x.owed ++ [r] }

/-! Trap entry. -/

/-- The code of a cause (R266). -/
def Cause.num : Cause → Nat
  | .illegalInstruction => 0 | .illegalBundle => 1 | .privileged => 2 | .emptyRead => 3 | .earlyRead => 4
  | .misaligned => 5 | .guardTouch => 6 | .pageFault => 7 | .protection => 8 | .orderingAttribute => 9
  | .nonCanonical => 10 | .poison => 11 | .tokenError => 12 | .race => 13 | .indexExhaustion => 14 | .trap => 15
  | .cut => 16 | .freeze => 17 | .splitRefused => 18 | .fabricTimeout => 19 | .badPcw => 20 | .latePacket => 21

/-- What a trap saves and reports. -/
structure TrapInfo where
  cause : Cause
  tpc : Word
  taddr : Word := 0
  tinfo : Word := 0
  code : Nat := 0
  imprecise : Bool := false
  isAsync : Bool := false
  atTend : Bool := false
  stepover : Bool := false
  /-- The access whose fault this is (R397), by its issue number. -/
  access : Option Nat := none
deriving DecidableEq, Repr

/-- TCAUSE of a trap (R255). -/
def TrapInfo.tcause (t : TrapInfo) : Word :=
  wordOfNat (t.cause.num + ofBoolNat t.isAsync <<< 8 + ofBoolNat t.imprecise <<< 9 + ofBoolNat t.atTend <<< 10 +
    ofBoolNat t.stepover <<< 11 + (t.code % 4096) <<< 16)

/-- The frame area of an agent (R399). -/
def State.frameBase (s : State) (n level : Nat) : Nat :=
  let d := dieOf n
  let i := if isSeq n then 576 else n - 576 * d
  (s.die d).frameb.bits 18 30 * 2 ^ 18 + 2 ^ 18 * i + 2 ^ 17 * level

def State.framesOn (s : State) (n : Nat) : Bool := (s.die (dieOf n)).frameb.getLsbD 0

/-- Opcode of a slot. -/
def opOf (i : Instr) : Nat := ((encode i).map opField).getD 0

/-! Fields of the parameters of matrix commands, and the accumulator rows they name (spec/06_matrix.md R169). -/

def Cmd.par0 (c : Cmd) : Word := c.par[0]?.getD 0
def Cmd.par1 (c : Cmd) : Word := c.par[1]?.getD 0
def Cmd.par2 (c : Cmd) : Word := c.par[2]?.getD 0
def Cmd.par3 (c : Cmd) : Word := c.par[3]?.getD 0

def mulInit (c : Cmd) : Bool := c.par0.getLsbD 40
def mulD0 (c : Cmd) : Nat := c.par0.bits 32 6
def mulM (c : Cmd) : Nat := c.par0.bits 24 6 + 1
def mulRow0 (c : Cmd) : Nat := c.par0.bits 16 6
def mulGran (c : Cmd) : Nat := c.par0.bits 0 11
/-- TW of weight square q (R181). -/
def mulTw (c : Cmd) (q : Nat) : Nat := (if q < 2 then c.par1 else c.par2).bits (32 * (q % 2)) 32

def mdrClr (c : Cmd) : Bool := c.par0.getLsbD 56
def mdrUnperm (c : Cmd) : Bool := c.par0.getLsbD 55
def mdrRm (c : Cmd) : RMode := (RMode.ofCode (c.par0.extractLsb' 52 3)).getD .rne
def mdrFmt (c : Cmd) : Nat := c.par0.bits 48 4
def mdrM (c : Cmd) : Nat := c.par0.bits 40 6 + 1
def mdrD0 (c : Cmd) : Nat := c.par0.bits 32 6

def mlaM (c : Cmd) : Nat := c.par2.bits 8 6 + 1
def mlaRow0 (c : Cmd) : Nat := c.par2.bits 0 6

def mzaM (c : Cmd) : Nat := c.par0.bits 8 6 + 1
def mzaD0 (c : Cmd) : Nat := c.par0.bits 0 6

def isMul : Instr → Bool
  | .mma _ _ _ _ _ | .mman _ _ _ _ _ | .mmab _ _ _ _ _ => true
  | _ => false

/-- X-class commands. -/
def isMatrix (i : Instr) : Bool := let op := opOf i; 0x49 ≤ op && op ≤ 0x51

/-- The accumulator rows that a command writes, and so leaves empty until it completes (R19, R169). -/
def rowsWritten (c : Cmd) : List Nat :=
  match c.ins with
  | .mma _ _ _ _ _ | .mman _ _ _ _ _ | .mmab _ _ _ _ _ => (upTo (mulM c)).map (mulD0 c + ·)
  | .mdr _ _ _ _ _ => if mdrClr c then (upTo (mdrM c)).map (mdrD0 c + ·) else []
  | .mza _ _ _ _ _ => (upTo (mzaM c)).map (mzaD0 c + ·)
  | _ => []

/-- Every accumulator row it reads or writes. -/
def rowsUsed (c : Cmd) : List Nat :=
  match c.ins with
  | .mdr _ _ _ _ _ => (upTo (mdrM c)).map (mdrD0 c + ·)
  | _ => rowsWritten c

/-- The rows that accepted commands of an agent have still to write, empty until then (R19). -/
def State.rowsOwed (s : State) (n : Nat) : List Nat := (s.cmds.filter fun d => d.agent = n && d.kind = .slot).flatMap rowsWritten

/-- Rows stay empty while a command has still to write them, whatever else has filled them (R19, R198). -/
def Ctx.emptyRows (c : Ctx) (rows : List Nat) : Ctx := rows.foldl (fun c r => c.markV (BitVec.ofNat 6 r) false) c
def State.keepOwed (s : State) (n : Nat) : State := s.modCtx n fun c => c.emptyRows (s.rowsOwed n)

/-- A task has failed, and with it its launch: the first failure gives the status (R350). -/
def State.failTask (s : State) (id : Nat) (ts : TaskSt) (st : BitVec 8) : State :=
  match s.findTask id with
  | none => s
  | some t =>
    { s.modTask id (fun t => { t with st := ts }) with
      shares := s.shares.map fun h => if h.id = t.share && h.failed.isNone then { h with failed := some st } else h }

/-- The failure of the task that a context runs. -/
def State.failCtx (s : State) (n : Nat) (ts : TaskSt) : State :=
  match (s.ctxAt n).task with
  | some id => s.failTask id ts 0x44
  | none => s

/-- The context stops in Double Fault, with a record in its die's ring (R406); its task fails (R350). -/
def State.doubleFault (s : State) (n : Nat) (t : TrapInfo) : State :=
  ((s.modCtx n fun c => { c with st := .doubleFault }).failCtx n .doubleFaulted).addRecord (dieOf n)
    (mkRecord t.taddr 22 3 (t.tinfo.bits 6 7) (if isSeq n then 0xFFFF else n) 0 (BitVec.allOnes 64) (s.fdev.bits 0 12))

/-- Accesses that stay in the memory path at a stop, because the replay queue has no entry for them: fences and the writes of a
VQMX (R204, R157; log entry 5). -/
def staysInPath : Instr → Bool
  | .fence _ _ _ | .vqmx _ _ _ _ => true
  | _ => false

/-- Fill the destination of an access whose value is on its way (R198, R397). -/
def Ctx.fillAccess (c : Ctx) (a : Access) (v : Word) : Ctx :=
  match accDestV a.ins with
  | some r => (((c.setV r a.row).markV r true).markBad r a.bad)
  | none =>
    match accDestX a.ins with
    | some r => (c.setX r v).markX r true
    | none => c

/-- An STV that has begun is finished, since a store pulled back has written nothing (R397); words on an SO page that the order of its
context does not let go yet stay in the path (R319). -/
def State.finishStv (s : State) (n : Nat) (a : Access) : State :=
  match a.st, a.ins with
  | .ready p0 p1, .stv _ _ _ _ =>
    if a.todo = (BitVec.allOnes 256).setWidth 512 then s
    else
      let c := s.ctxAt n
      let r := (upTo 256).foldl (fun (t : State × BitVec 512) i =>
        let w := wordAt a p0 p1 i
        if a.todo.getLsbD i && soFree c a w.1 then (t.1.write n w.1 w.2 0xFF (a.row.extractLsb' (64 * i) 64), t.2 &&& ~~~(1#512 <<< i))
        else t) (s, a.todo)
      let left := if r.2 = 0 then [] else [{ a with todo := r.2 }]
      r.1.modCtx n fun c => { c with acc := c.acc.flatMap fun b => if b.sn = a.sn then left else [b] }
  | _, _ => s

/-- The access has begun to write. -/
def Access.begun (a : Access) : Bool :=
  match a.st, a.ins with
  | .ready _ _, .stv _ _ _ _ => a.todo != (BitVec.allOnes 256).setWidth 512
  | _, _ => false

/-- The accesses that go to the replay queue at a stop (R397). -/
def Ctx.replay (c : Ctx) : List Access :=
  c.acc.filter fun a => !staysInPath a.ins && !a.begun && (match a.st with | .got _ => false | _ => true)

/-- The accesses that stay in the path, with how many replay entries stand before each. -/
def heldAccesses : Nat → Nat → List Access → List (Nat × Nat × Access)
  | _, _, [] => []
  | lvl, k, a :: t =>
    if staysInPath a.ins || a.begun then (lvl, k, a) :: heldAccesses lvl k t
    else match a.st with
      | .got _ => heldAccesses lvl k t
      | _ => heldAccesses lvl (k + 1) t

/-- The entries of the replay queue that a trap at frame level lvl writes, with the issue numbers that they keep. -/
def Ctx.pulledNow (c : Ctx) : List Pulled :=
  c.replay.zipIdx.map fun (p : Access × Nat) => { lvl := c.frames, idx := p.2, sn := p.1.sn, ins := p.1.ins }

/-- Write a row and its byte enables to row slot i of a frame (R400). -/
def putRowSlot (m : Mem) (f i : Nat) (v : Row) (en : Mask) : Mem :=
  memWriteN (memWriteN m (f + 0x3000 + 2304 * i) 2048 v.toNat) (f + 0x3000 + 2304 * i + 2048) 256 en.toNat

/-- Latches of a frame: the three sections from the pending results, with the next data and row slots (R400). -/
structure Latches where
  m : Mem
  nsl : Nat := 0
  nml : Nat := 0
  nvl : Nat := 0
  rows : Nat := 0

def putLatch (f : Nat) (l : Latches) (p : Pending) : Latches :=
  match p.res with
  | .x r v =>
    let a := f + 0x180 + 16 * l.nsl
    { l with m := memWriteN (memWriteN (memWriteN l.m a 8 v.toNat) (a + 8) 6 r.toNat) (a + 14) 1 p.due, nsl := l.nsl + 1 }
  | .m r v en =>
    let a := f + 0x380 + 8 * l.nml
    let d := f + 0x1000 + 512 * l.nml
    let m := memWriteN l.m a 4 (r.toNat + p.due <<< 8 + l.nml <<< 16 + p.flags.toNat <<< 24)
    { l with m := memWriteN (memWriteN m d 256 v.toNat) (d + 256) 256 en.toNat, nml := l.nml + 1 }
  | .v r v en =>
    let a := f + 0x400 + 16 * l.nvl
    let m := memWriteN l.m a 4 (r.toNat + p.due <<< 8 + l.rows <<< 16 + p.flags.toNat <<< 24)
    { l with m := putRowSlot m f l.rows v en, nvl := l.nvl + 1, rows := l.rows + 1 }
  | .flags =>
    let a := f + 0x400 + 16 * l.nvl
    let m := memWriteN l.m a 4 (p.due <<< 8 + l.rows <<< 16 + p.flags.toNat <<< 24)
    { l with m := putRowSlot m f l.rows 0 0, nvl := l.nvl + 1, rows := l.rows + 1 }

/-- Write a replay entry (R401). -/
def putReplay (f : Nat) (faulting : Option Nat) (acc : Mem × Nat × Nat) (a : Access) : Mem × Nat × Nat :=
  let (m, i, rows) := acc
  let p := f + 0x600 + 64 * i
  let isStv := match a.ins with | .stv _ _ _ _ => true | _ => false
  let part := match a.st with | .faulted _ _ b => b | _ => false
  let m := memWriteN m p 7 (a.word.toNat + ofBoolNat (faulting = some a.sn) <<< 32 + ofBoolNat part <<< 40 +
    (if isStv then rows <<< 48 else 0))
  let m := memWriteN m (p + 8) 40
    (a.ea.toNat + a.va.toNat <<< 64 + a.vb.toNat <<< 128 + a.vd.toNat <<< 192 + a.vt.toNat <<< 256)
  if isStv then (putRowSlot m f rows a.row (BitVec.allOnes 2048), i + 1, rows + 1) else (m, i + 1, rows)

/-- The bytes of a loop level in a frame (R400). -/
def loopNat (l : Loop) : Nat :=
  l.start.toNat + l.stop.toNat <<< 64 + l.remaining.toNat <<< 128 + ofBoolNat l.active <<< 192

/-- The frame that a trap of a context writes at F, over what was there (R400, R401). REPC of a fault at issue of repeat 0 is what the
register held, since the whole bundle is to issue again (log entry 42). -/
def frameMem (m : Mem) (c : Ctx) (f : Nat) (faulting : Option Nat) : Mem :=
  let m := memClear m f (f + 0x20000)
  let l := c.pend.foldl (putLatch f) { m := m }
  let (m, nrq, _) := c.replay.foldl (putReplay f faulting) (l.m, 0, l.rows)
  let m := memWriteN m f 54 (c.psw.toNat + c.cr[crTpc].toNat <<< 64 + c.cr[crTcause].toNat <<< 128 +
    c.cr[crTaddr].toNat <<< 192 + c.cr[crTinfo].toNat <<< 256 + c.cr[crRacectl].toNat <<< 320 +
    (c.cr[crRepc].bits 0 8) <<< 384 + l.nsl <<< 392 + l.nml <<< 400 + l.nvl <<< 408 + nrq <<< 416 + c.frames <<< 424)
  (upTo 4).foldl (fun m i => memWriteN m (f + 0x100 + 32 * i) 32 (loopNat (c.loops[i]?.getD {}))) m

/-- Values on their way are waited for (R397). -/
def Ctx.fillGot (c : Ctx) (a : Access) : Ctx :=
  match a.st with
  | .got v => c.fillAccess a v
  | _ => c
def Ctx.fillAll (c : Ctx) : Ctx := c.acc.foldl Ctx.fillGot c

/-- STVs that have begun are finished. -/
def State.finishStvs (s : State) (n : Nat) (l : List Access) : State := l.foldl (fun s a => s.finishStv n a) s

/-- The control registers as trap entry leaves them (R402). -/
def TrapInfo.regs (t : TrapInfo) (replay : Bool) (cr : Vector Word 24) : Vector Word 24 :=
  ((((((cr.set 5 t.tpc).set 2 t.tcause).set 3 t.taddr).set 4 (t.tinfo ||| wordOfNat (ofBoolNat replay <<< 29))).set 0x13 0).set 0
    ((cr[0] &&& ~~~0x26#64) ||| 1#64)).set 0x15 (cr[0x15] ||| 2#64)

/-- The destinations of the accesses that go to the replay queue count as full (R398). -/
def Ctx.pullBack (c : Ctx) : Ctx := c.replay.foldl (fun (d : Ctx) (a : Access) => d.markDest a.ins true) c

/-- The context at the start of its handler: pending results and unanswered accesses leave it (R402). A transfer taken with repeat 0 of a
REP that the trap interrupts is not kept: the frame has no place for it, and the context goes on after the last repeat with the word that
follows (DESIGN CHOICE, log entry 42). -/
def Ctx.enterHandler (c : Ctx) (t : TrapInfo) : Ctx :=
  { c.pullBack with cr := t.regs (!c.replay.isEmpty) c.cr, acc := [], held := c.held ++ heldAccesses c.frames 0 c.acc
                    pulled := c.pulled ++ c.pulledNow, pend := []
                    loops := Vector.replicate 4 {}, frames := c.frames + 1, window := { isOpen := true }, satisfied := false
                    arrived := false, drain := .none, stepover := none, repOn := false, repNext := none
                    steps := (match c.stepover with | some k => [(c.frames, c.pc, k)] | none => []) ++ c.steps.filter (·.1 != c.frames)
                    halts := (if c.drain = .halt then [c.frames] else []) ++ c.halts.filter (· != c.frames)
                    st := if c.st = .stalled || c.drain = .halt then .ready else c.st
                    pc := c.cr[crTvec] &&& 0x01FFFFFFFFFFFFFC#64 }

/-- The frame stands in memory over what was there (R400). -/
def State.putFrame (s : State) (c : Ctx) (f : Nat) (faulting : Option Nat) : State :=
  { s with mem := frameMem s.mem c f faulting
           poison := s.poison.filter fun k => k < f || f + 0x20000 ≤ k
           pw := s.pw.filter fun p => p.key < f || f + 0x20000 ≤ p.key }

/-- A context does not wait at a barrier any more: it arrives again with its BAR (R130). -/
def State.withdraw (s : State) (n : Nat) : State :=
  { s with bars := (s.bars.map fun (b : Barrier) => { b with arrived := b.arrived.filter (· != n) }).filter fun b => !b.arrived.isEmpty }

/-- No frame can be written for a trap of the context: two are in use, the entry window is open, frames are disabled (R402, R406), or the
frame would lie outside installed memory, where every access faults (R303; log entry 35). -/
def State.noFrame (s : State) (n : Nat) : Bool :=
  2 ≤ (s.ctxAt n).frames || (s.ctxAt n).window.isOpen || !s.framesOn n || !installed (s.frameBase n (s.ctxAt n).frames) 0x20000

/-- Take a trap: write the frame, move pending results and unperformed accesses into it, save the cause, enter kernel mode and
go on at the handler (R402); Double Fault where there is no frame to write (R406). -/
def takeTrap (s0 : State) (n : Nat) (t : TrapInfo) : Out :=
  if s0.noFrame n then .next (s0.doubleFault n t)
  else
    let s := ((s0.finishStvs n (s0.ctxAt n).acc).forget n).withdraw n
    let c := (s.ctxAt n).fillAll
    .next ((s.putFrame c (s0.frameBase n (s0.ctxAt n).frames) t.access).setCtx n ((c.enterHandler t).emptyRows (s.rowsOwed n)))

/-! Return from a trap. -/

/-- Read a result back from a scalar latch, a mask latch, a vector latch of a frame (R400). -/
def getScalarLatch (m : Mem) (f i : Nat) : Pending :=
  let a := f + 0x180 + 16 * i
  { due := memReadN m (a + 14) 1, res := .x (BitVec.ofNat 6 (memReadN m (a + 8) 6)) (memWord m a) }
def getMaskLatch (m : Mem) (f i : Nat) : Pending :=
  let a := f + 0x380 + 8 * i
  let d := f + 0x1000 + 512 * memReadN m (a + 2) 1
  { due := memReadN m (a + 1) 1, flags := BitVec.ofNat 6 (memReadN m (a + 3) 1),
    res := .m (BitVec.ofNat 3 (memReadN m a 1)) (BitVec.ofNat 2048 (memReadN m d 256)) (BitVec.ofNat 2048 (memReadN m (d + 256) 256)) }
def getVectorLatch (m : Mem) (f i : Nat) : Pending :=
  let a := f + 0x400 + 16 * i
  let d := f + 0x3000 + 2304 * memReadN m (a + 2) 1
  { due := memReadN m (a + 1) 1, flags := BitVec.ofNat 6 (memReadN m (a + 3) 1),
    res := .v (BitVec.ofNat 6 (memReadN m a 1)) (BitVec.ofNat 16384 (memReadN m d 2048))
      (BitVec.ofNat 2048 (memReadN m (d + 2048) 256)) }

/-- The opcodes that a replay entry may hold (R404). -/
def replayable : Instr → Bool
  | .div _ _ _ _ _ | .divn _ _ _ _ _ | .rem _ _ _ _ _ | .remn _ _ _ _ _ => true
  | .ldbs _ _ _ _ | .ldbn _ _ _ _ | .ldhs _ _ _ _ | .ldhn _ _ _ _ | .ldws _ _ _ _ | .ldwn _ _ _ _ | .ldd _ _ _ _ => true
  | .stb _ _ _ _ | .sth _ _ _ _ | .stw _ _ _ _ | .std _ _ _ _ | .ldv _ _ _ _ | .stv _ _ _ _ => true
  | .lda _ _ _ _ _ | .stl _ _ _ _ _ _ | .amog _ _ _ _ _ | .amod _ _ _ _ _ | .amos _ _ _ _ _ => true
  | .wlpsh _ _ _ _ _ | .wlins _ _ _ _ _ | .vext _ _ _ _ => true
  | _ => false

/-- A replay entry read back as an access to perform afresh; none for an entry to skip. -/
def getReplay (m : Mem) (f i : Nat) (kernel hold : Bool) : Except Unit (Option Access) :=
  let p := f + 0x600 + 64 * i
  let w : SlotWord := BitVec.ofNat 32 (memReadN m p 4)
  if w = 0 then .ok none
  else match decode w with
    | .error _ => .error ()
    | .ok ins =>
      if !replayable ins then .error ()
      else
        let slot := memReadN m (p + 6) 1
        let isStv := match ins with | .stv _ _ _ _ => true | _ => false
        if isStv && 48 ≤ slot then .error ()
        else .ok (some
          { sn := 0, ins := ins, word := w &&& 0x7FFFFFFF#32, ea := memWord m (p + 8), va := memWord m (p + 16)
            vb := memWord m (p + 24), vd := memWord m (p + 32), vt := memWord m (p + 40), kernel := kernel, hold := hold
            row := if isStv then BitVec.ofNat 16384 (memReadN m (f + 0x3000 + 2304 * slot) 2048) else 0
            todo := (BitVec.allOnes 256).setWidth 512 })

/-- The replay entries of a frame, or an error when one of them makes RFT fault (R404). -/
def getReplays (m : Mem) (f : Nat) (kernel hold : Bool) : List Nat → Except Unit (List (Option Access))
  | [] => .ok []
  | i :: t =>
    match getReplay m f i kernel hold with
    | .error e => .error e
    | .ok a => (getReplays m f kernel hold t).map fun l => a :: l

/-- Whether a frame's counts and slots lie inside their sections (R404). -/
def frameSane (m : Mem) (f : Nat) : Bool :=
  let nsl := memReadN m (f + 49) 1
  let nml := memReadN m (f + 50) 1
  let nvl := memReadN m (f + 51) 1
  nsl ≤ 32 && nml ≤ 16 && nvl ≤ 32 && memReadN m (f + 52) 1 ≤ 32 &&
  (upTo nml).all (fun i => memReadN m (f + 0x380 + 8 * i + 2) 1 < 16) &&
  (upTo nvl).all (fun i => memReadN m (f + 0x400 + 16 * i + 2) 1 < 48)

/-- What the memory path takes back at frame level lvl, at place k of the replay queue: what stayed in it there. -/
def putBackHeld (held : List (Nat × Nat × Access)) (f : Nat → Bool) (c : Ctx) : Ctx :=
  { c with acc := c.acc ++ (held.filter fun h => f h.2.1).map (·.2.2) }

/-- Re-issue replay entries in order, putting back between them the accesses that stayed in the path: each keeps the issue number it was
pulled back with, so that every order it stood in still holds (R323, R333), and marks its destination empty; one that the kernel has
added takes the next number (R403). -/
def reissue (held : List (Nat × Nat × Access)) (pulled : List Pulled) : Nat → List (Option Access) → Ctx → Ctx
  | k, [], c => putBackHeld held (k ≤ ·) c
  | k, e :: t, c =>
    let c := putBackHeld held (· = k) c
    let c := match e with
      | some a =>
        match pulled.find? (·.idx = k) with
        | some p => { (c.markDest a.ins false) with acc := c.acc ++ [{ a with sn := p.sn }] }
        | none => { (c.markDest a.ins false) with acc := c.acc ++ [{ a with sn := c.sn }], sn := c.sn + 1 }
      | none => c
    reissue held pulled (k + 1) t c

/-- The loop levels of a frame. -/
def getLoop (m : Mem) (f i : Nat) : Loop :=
  let a := f + 0x100 + 32 * i
  { start := memWord m a, stop := memWord m (a + 8), remaining := memWord m (a + 16), active := memReadN m (a + 24) 1 % 2 = 1 }

/-- The latches of a frame, scalar, mask, vector, as pending results. -/
def getLatches (m : Mem) (f : Nat) : List Pending :=
  (upTo (memReadN m (f + 49) 1)).map (getScalarLatch m f) ++ (upTo (memReadN m (f + 50) 1)).map (getMaskLatch m f) ++
    (upTo (memReadN m (f + 51) 1)).map (getVectorLatch m f)

/-- The rows that a held frame at f has still to write: those of its vector latches with a lane enabled, and of the LDVs in its replay
queue. -/
def frameRowsComing (m : Mem) (f : Nat) : List Nat :=
  ((upTo (memReadN m (f + 51) 1)).filterMap fun i =>
    match (getVectorLatch m f i).res with
    | .v r _ en => if en = 0 then none else some r.toNat
    | _ => none) ++
  (upTo (memReadN m (f + 52) 1)).filterMap fun i =>
    match decode (BitVec.ofNat 32 (memReadN m (f + 0x600 + 64 * i) 4)) with
    | .ok ins => (accDestV ins).map (·.toNat)
    | .error _ => none

/-- A vector write to row r that was issued has not landed: a result pending, an LDV, or one of these in a held frame (R20, R198,
R396). -/
def State.rowComing (s : State) (n r : Nat) : Bool :=
  let c := s.ctxAt n
  c.pend.any (fun p => match p.res with | .v q _ _ => q.toNat = r | _ => false) ||
  c.acc.any (fun a => (accDestV a.ins).any fun q => q.toNat = r) ||
  (upTo c.frames).any fun lvl => (frameRowsComing s.mem (s.frameBase n lvl)).contains r

/-- What makes RFT fault on the frame at f (R404). -/
def frameOk (m : Mem) (f : Nat) : Bool :=
  frameSane m f && (match getReplays m f true true (upTo (memReadN m (f + 52) 1)) with | .ok _ => true | .error _ => false)

/-- The frame that an RFT of the context would return from, and what stands there once the handler's writes to it are performed. -/
def State.topFrame (s : State) (n : Nat) : Nat := s.frameBase n ((s.ctxAt n).frames - 1)
def State.topFrameOk (s : State) (n : Nat) : Bool := frameOk (s.flushTo n .dev).mem (s.topFrame n)

/-- The control registers as the frame at f restores them (R403); a command sequencer stays in kernel mode (R35). -/
def frameRegs (m : Mem) (f : Nat) (seq : Bool) (cr : Vector Word 24) : Vector Word 24 :=
  ((((((cr.set 0 (memWord m f &&& 0x3F#64 ||| wordOfNat (ofBoolNat seq))).set 0x13 (wordOfNat (memReadN m (f + 48) 1 % 128))).set 5 (memWord m (f + 8))).set 2
    (memWord m (f + 16) &&& crMask crTcause)).set 3 (memWord m (f + 24))).set 4 (memWord m (f + 32) &&& crMask crTinfo)).set 0x15
    (mergeBits 2 cr[0x15] (memWord m (f + 40)))

/-- The context as its frame at f restores it; where it goes on, and whether a slot of its bundle is stepped over, the trap registers say
as they were found (R259, R403). A HALT whose drain the trap interrupted goes on draining, and a bundle that has still to issue with a
slot stepped over does so (log entry 43). -/
def Ctx.leaveHandler (c : Ctx) (m : Mem) (f now : Nat) (seq : Bool) (entries : List (Option Access)) : Ctx :=
  let lvl := c.frames - 1
  let atTend := c.cr[crTcause].getLsbD 10
  let halting := c.halts.contains lvl
  let pc := c.cr[crTpc] &&& ~~~3#64
  let putOff := (c.steps.find? fun p => p.1 = lvl && p.2.1 = pc).map (·.2.2)
  let d := reissue (c.held.filter (·.1 = lvl)) (c.pulled.filter (·.lvl = lvl)) 0 entries
    { c with held := c.held.filter (·.1 != lvl), pulled := c.pulled.filter (·.lvl != lvl), halts := c.halts.filter (· != lvl)
             steps := c.steps.filter (·.1 != lvl) }
  { d with loops := Vector.ofFn fun i => getLoop m f i.val
           cr := frameRegs m f seq c.cr, pend := getLatches m f, acc := d.acc.map fun a => { a with since := now }, frames := lvl, window := {}
           pc := pc, repOn := memReadN m (f + 48) 1 % 128 != 0, drain := if atTend then .tend else if halting then .halt else .none
           st := if atTend then .stalled else .selected
           stepover := if c.cr[crTcause].getLsbD 11 then some (c.cr[crTinfo].bits 0 3) else putOff }

/-- A context that goes on draining after a return is passed over by its core (R359). -/
def State.leaveCore (s : State) (n : Nat) : State :=
  if isSeq n || (s.ctxAt n).drain = .none then s
  else s.modCore (coreOf n) fun k => if k.sel = some (n % 4) then { k with sel := none, last := n % 4, count := 0 } else k

/-- Return from a trap, its waits over (R259, R403). `pc` and `slot`, `len` are those of the RFT's bundle, for the nested trap of a frame
that has come to be one that R404 rejects, or to lie outside memory, since the RFT issued (log entry 35). -/
def returnFromTrap (s : State) (n : Nat) (pc : Word) (slot len : Nat) : Out :=
  let c := s.ctxAt n
  let f := s.topFrame n
  let s := (s.flushTo n .dev).forget n
  let bad := fun (k : Cause) (a : Word) =>
    takeTrap s n { cause := k, tpc := pc, taddr := a, tinfo := wordOfNat (slot + (len - 1) <<< 3 + 0x7D <<< 6) }
  if !installed f 0x20000 then bad .protection (wordOfNat f)
  else
    match getReplays s.mem f ((memWord s.mem f).getLsbD 0) ((memWord s.mem (f + 40)).getLsbD 1) (upTo (memReadN s.mem (f + 52) 1)) with
    | .error _ => bad .illegalInstruction 0
    | .ok entries =>
      if !frameSane s.mem f then bad .illegalInstruction 0
      else .next ((s.setCtx n (c.leaveHandler s.mem f s.now (isSeq n) entries)).leaveCore n)

end Sys2Proof.Machine
end

