-- ==== Sys2Proof/Machine/Operands.lean ====
section
/-! DEFINITION. Every operand form: the class of a slot (R80, R85 to R89), what it reads and writes, with the wait/trap bit of each
source (R100), its tokens, and the stall and step-6 checks over those lists (R84, R98 to R101, R107). -/

namespace Sys2Proof.Machine

/-- Slot classes (R80). -/
inductive Cls where
  | n | s | v | x | l | e | c | z
deriving DecidableEq, Repr

/-- The class of an opcode (R85 to R89). -/
def clsOfOp (op : Nat) : Cls :=
  if op < 2 then .n else if op < 0x10 then .s else if op < 0x20 then .c else if op < 0x48 then .v
  else if op < 0x54 then .x else if op < 0x6D then .l else if op < 0x7A then .e else if op = 0x7E then .s else .z

def cls (i : Instr) : Cls := clsOfOp (opOf i)

/-- Pipe 1 executes the opcode (R81). -/
def pipe1 (op : Nat) : Bool := (0x2F ≤ op && op ≤ 0x34) || (0x39 ≤ op && op ≤ 0x3E) || (0x42 ≤ op && op ≤ 0x44)

/-- What a slot reads, writes, produces and consumes. -/
structure Uses where
  /-- Scalar sources with their trap bits. -/
  xs : List (Reg × Bool) := []
  /-- Scalar sources of V-format slots, governed by PSW.VTRAP. -/
  vx : List Reg := []
  vs : List Reg := []
  ms : List MReg := []
  dx : List Reg := []
  dv : List Reg := []
  dm : List MReg := []
  dc : List Nat := []
  kd : Tok := 0
  ks : List Tok := []
deriving DecidableEq, Repr

/-- n consecutive registers from r. -/
def regRun (r : Reg) (n : Nat) : List Reg := (upTo n).map fun i => BitVec.ofNat 6 (r.toNat + i)

/-- The uses of an E-format command with n parameters. -/
def useE (p : Reg) (n : Nat) (kd ka kb kc : Tok) : Uses :=
  { xs := (regRun p n).map fun r => (r, false), kd := kd, ks := [ka, kb, kc] }

/-- The uses of an R-format slot with two sources. -/
def useR (d a b : Reg) (wa wb : Bool) : Uses := { xs := [(a, wa), (b, wb)], dx := [d] }

/-- The registers that a VCVT reads and writes (R152). -/
def cvtRegs (r : Reg) (mine other : ETy) : List Reg :=
  if mine.bytes > other.bytes then regRun r (mine.bytes / other.bytes) else [r]

/-- What every slot uses. Events use nothing. -/
def uses : Instr → Uses
  | .add d a b wa wb | .sub d a b wa wb | .and d a b wa wb | .or d a b wa wb | .xor d a b wa wb | .andn d a b wa wb
  | .shl d a b wa wb | .shr d a b wa wb | .sra d a b wa wb | .ror d a b wa wb | .slt d a b wa wb | .sltn d a b wa wb
  | .seq d a b wa wb | .min d a b wa wb | .max d a b wa wb | .mul d a b wa wb | .mulh d a b wa wb
  | .mulhn d a b wa wb | .div d a b wa wb | .divn d a b wa wb | .rem d a b wa wb | .remn d a b wa wb
  | .minn d a b wa wb | .maxn d a b wa wb => useR d a b wa wb
  | .sel d a b wa wb => { xs := [(a, wa), (b, wb), (d, false)], dx := [d] }
  | .clz d a _ wa | .ffs d a _ wa | .popc d a _ wa | .brev d a _ wa | .sext d a _ wa | .zext d a _ wa => { xs := [(a, wa)], dx := [d] }
  | .addi d a wa _ | .andi d a wa _ | .ori d a wa _ | .xori d a wa _ | .shli d a wa _ | .shri d a wa _
  | .srai d a wa _ | .slti d a wa _ | .sltni d a wa _ => { xs := [(a, wa)], dx := [d] }
  | .li d _ | .addpc d _ => { dx := [d] }
  | .lis d _ => { xs := [(d, false)], dx := [d] }
  | .beq a b _ | .bne a b _ | .blt a b _ | .bge a b _ | .bltn a b _ | .bgen a b _ => { xs := [(a, false), (b, false)] }
  | .jal _ => { dx := [63] }
  | .jr d a wa => { xs := [(a, wa)], dx := [d] }
  | .loop a _ _ => { xs := [(a, false)] }
  | .quiet a _ => { xs := [(a, false)] }
  | .tkw ka kb kc => { ks := [ka, kb, kc] }
  | .waitc a b wa wb _ _ => { xs := [(a, wa), (b, wb)] }
  | .vadd d a b m _ | .vsub d a b m _ | .vmul d a b m _ | .vmin d a b m _ | .vmax d a b m _ | .vminm d a b m _
  | .vmaxm d a b m _ | .vsel d a b m _ | .vand d a b m _ | .vor d a b m _ | .vxor d a b m _ | .vshl d a b m _
  | .vshr d a b m _ | .vsra d a b m _ | .vperm d a b m _ => { vs := [a, b], ms := [m], dv := [d] }
  | .vfma d a b m _ | .vfms d a b m _ | .vfnm d a b m _ => { vs := [a, b, d], ms := [m], dv := [d] }
  | .vabs d a m _ | .vneg d a m _ | .vscan d a m _ | .vmov d a m _ => { vs := [a], ms := [m], dv := [d] }
  | .vsfn d a _ m _ => { vs := [a], ms := [m], dv := [d] }
  | .vcmp e _ a b m _ => { vs := [a, b], ms := [m], dm := [e] }
  | .vcvt d a dt _ m t => { vs := cvtRegs a t dt, ms := [m], dv := cvtRegs d dt t }
  | .vqmx a b m _ => { vs := [a], vx := [b], ms := [m] }
  | .vred d a _ m _ => { vs := [a], ms := [m], dv := [d] }
  | .vbcst d a m _ => { vx := [a], ms := [m], dv := [d] }
  | .vext d a b _ => { vs := [a], vx := [b], dx := [d] }
  | .vins d a b m _ => { vx := [a, b], ms := [m], dv := [d] }
  | .viota d m _ => { ms := [m], dv := [d] }
  | .vbits d a _ m _ => { vs := [a], ms := [m], dv := [d] }
  | .vprune d a b m _ => { vs := [a], vx := [b], ms := [m], dv := [d] }
  | .vrand d _ m _ => { ms := [m], dv := [d] }
  | .vscl d a b m _ => { vs := [a], vx := [b], ms := [m], dv := [d] }
  | .vmsk e f op =>
    match op with
    | .and | .or | .xor | .andn => { ms := [e, f], dm := [e] }
    | .not => { ms := [f], dm := [e] }
    | .set | .clr => { dm := [e] }
  | .vmcnt d f _ => { ms := [f], dx := [d] }
  | .mpcw a wa => { xs := [(a, wa)], dc := [0x0B] }
  | .mlw p kd ka kb kc | .mma p kd ka kb kc | .mman p kd ka kb kc | .mmab p kd ka kb kc | .mdr p kd ka kb kc
  | .rgmap p kd ka kb kc | .spd p kd ka kb kc => useE p 3 kd ka kb kc
  | .mla p kd ka kb kc | .spl p kd ka kb kc | .sps p kd ka kb kc | .spa p kd ka kb kc | .spi p kd ka kb kc => useE p 4 kd ka kb kc
  | .mza p kd ka kb kc | .mrb p kd ka kb kc | .mstat p kd ka kb kc | .rgwb p kd ka kb kc | .rginv p kd ka kb kc
  | .lnch p kd ka kb kc => useE p 1 kd ka kb kc
  | .wlpop p kd ka kb kc => useE p 2 kd ka kb kc
  | .cpy p kd ka kb kc => useE p 9 kd ka kb kc
  | .cprWrite p kd ka kb kc | .cprRead p kd ka kb kc | .crd p kd ka kb kc | .gth p kd ka kb kc | .sct p kd ka kb kc
  | .sca p kd ka kb kc => useE p 5 kd ka kb kc
  | .csg p kd ka kb kc _ => useE p 2 kd ka kb kc
  | .ldbs t a wa _ | .ldbn t a wa _ | .ldhs t a wa _ | .ldhn t a wa _ | .ldws t a wa _ | .ldwn t a wa _
  | .ldd t a wa _ => { xs := [(a, wa)], dx := [t] }
  | .stb t a wa _ | .sth t a wa _ | .stw t a wa _ | .std t a wa _ => { xs := [(a, wa), (t, false)] }
  | .ldv t a wa _ => { xs := [(a, wa)], dv := [t] }
  | .stv t a wa _ => { xs := [(a, wa)], vs := [t] }
  | .lda d a wa _ _ => { xs := [(a, wa)], dx := [d] }
  | .stl a b wa wb _ _ => { xs := [(a, wa), (b, wb)] }
  | .amog d a b _ fn | .amod d a b _ fn | .amos d a b _ fn =>
    { xs := [(a, false), (b, false)] ++ (if fn = .cas then [(d, false)] else []), dx := [d] }
  | .wlpsh d a b wa wb | .wlins d a b wa wb => useR d a b wa wb
  | .mfc d _ => { dx := [d] }
  | .mtc a n => { xs := [(a, false)], dc := [n.toNat] }
  | .sysTlbi a | .sysGsw a | .sysCut a | .sysCeresume a | .sysSrgrow a => { xs := [(a, false)] }
  | .rget d | .rctl d | .rcth d => { dx := [d] }
  | .rskip a b wa wb | .rseed a b wa wb => { xs := [(a, wa), (b, wb)] }
  | _ => {}

/-! Bundle rules over uses (R82). -/

def noDup {α : Type} [DecidableEq α] : List α → Bool
  | [] => true
  | a :: t => !t.contains a && noDup t

/-- No two slots name one destination; x0 and k0 do not count (R82). -/
def destsDistinct (us : List Uses) : Bool :=
  noDup ((us.flatMap (·.dx)).filter (· != 0)) && noDup (us.flatMap (·.dv)) && noDup (us.flatMap (·.dm)) &&
  noDup (us.flatMap (·.dc)) && noDup ((us.map (·.kd)).filter (· != 0))

/-! Stalls (R107). -/

/-- The row is still to be read by an accepted MDR of the context (R174): MDR holds M − 1 at [45:40] and D0 at [37:32]. -/
def Cmd.willRead (c : Cmd) (r : Reg) : Bool :=
  match c.ins with
  | .mdr _ _ _ _ _ =>
    let p := c.par.headD 0
    c.st != .done && p.bits 32 6 + c.done ≤ r.toNat && r.toNat ≤ p.bits 32 6 + p.bits 40 6
  | _ => false

def State.rowHeld (s : State) (n : Nat) (r : Reg) : Bool := s.cmds.any fun c => c.agent = n && c.willRead r

/-- A pending producer of a mask makes no mask empty, so masks never block (R99). Whether the sources of a slot block it: an
empty scalar with its bit clear, an empty vector or V-format scalar while PSW.VTRAP is 0 (R100). VEXT does not block on its
vector (R102). -/
def sourceStall (c : Ctx) (i : Instr) : Bool :=
  let u := uses i
  let vs := match i with | .vext _ _ _ _ => [] | _ => u.vs
  (u.xs.any fun p => !c.xFull p.1 && !p.2) ||
  (!c.vtrap && ((u.vx.any fun r => !c.xFull r) || (vs.any fun r => !c.vFull r)))

/-- A destination is empty, or a row that an accepted command has yet to read (R101, R19, R174). -/
def destStall (s : State) (n : Nat) (c : Ctx) (i : Instr) : Bool :=
  let u := uses i
  (u.dx.any fun r => !c.xFull r) || (u.dv.any fun r => !c.vFull r || s.rowHeld n r)

/-- A produced token is busy (R104), but for a later repeat of one REP (R93). -/
def tokenStall (c : Ctx) (i : Instr) (rep : Nat) : Bool :=
  let k := (uses i).kd
  k != 0 && rep = 0 && (c.getK k).busy

/-! Step 6 of R84. -/

/-- A fixed-latency result is pending for an x, v or mask register (R98). -/
def Ctx.pendingX (c : Ctx) (r : Reg) : Bool := c.pend.any fun p => match p.res with | .x q _ => q == r && r != 0 | _ => false
def Ctx.pendingV (c : Ctx) (r : Reg) : Bool := c.pend.any fun p => match p.res with | .v q _ _ => q == r | _ => false
def Ctx.pendingM (c : Ctx) (r : MReg) : Bool := c.pend.any fun p => match p.res with | .m q _ _ => q == r && r != 0 | _ => false

/-- The detail of a register fault: file and number (R255). -/
def regDetail (file r : Nat) : Nat := r + file <<< 6

/-- The first fault of step 6 that a slot meets: Empty Read, then Early Read, then Poison (R84). Early Read is R98's for every slot that
reads a pending register, RGMAP, RGWB, RGINV and WLPOP too, though R216 lists faults of theirs without it (log entry 50). -/
def step6 (c : Ctx) (i : Instr) : Option (Cause × Nat) :=
  let u := uses i
  let isVext := match i with | .vext _ _ _ _ => true | _ => false
  match (u.xs.find? fun p => !c.xFull p.1 && p.2) with
  | some p => some (.emptyRead, regDetail 0 p.1.toNat)
  | none =>
    match (if c.vtrap then u.vx.find? fun r => !c.xFull r else none) with
    | some r => some (.emptyRead, regDetail 0 r.toNat)
    | none =>
      match (if c.vtrap && !isVext then u.vs.find? fun r => !c.vFull r else none) with
      | some r => some (.emptyRead, regDetail 1 r.toNat)
      | none =>
        match (if c.pendCheck then (u.xs.map (·.1) ++ u.vx).find? fun r => c.pendingX r else none) with
        | some r => some (.earlyRead, regDetail 0 r.toNat)
        | none =>
          match (if c.pendCheck then u.vs.find? fun r => c.pendingV r else none) with
          | some r => some (.earlyRead, regDetail 1 r.toNat)
          | none =>
            match (if c.pendCheck then u.ms.find? fun r => c.pendingM r else none) with
            | some r => some (.earlyRead, regDetail 2 r.toNat)
            | none =>
              match (u.vs.find? fun r => c.vFull r && c.vBad r) with
              | some r => some (.poison, regDetail 1 r.toNat)
              | none => none

end Sys2Proof.Machine
end

