-- ==== Sys2Proof/Machine/Rng.lean ====
section
/-! DEFINITION. The counter-based generator (R70 to R73). -/

namespace Sys2Proof.Machine

/-- One round of the draw on c1:c0 with round number i. -/
def drawRound (k : Nat) (i : Nat) (c : Nat × Nat) : Nat × Nat :=
  let t := c.2 * 0xA2F16D3B95C84E27
  (t % 2 ^ 64, (t / 2 ^ 64) ^^^ c.1 ^^^ ((k + i * 0xB5E381C72D946A5F) % 2 ^ 64))

/-- draw(K, C) (R70): six rounds. -/
def draw (k : Word) (ctr : BitVec 128) : BitVec 128 :=
  let c0 := (ctr.toNat / 2 ^ 64, ctr.toNat % 2 ^ 64)
  let c := (upTo 6).foldl (fun c i => drawRound k.toNat i c) c0
  BitVec.ofNat 128 (c.1 * 2 ^ 64 + c.2)

/-- The low 24 bits of the draw at C + i (R63, R72). -/
def draw24 (k : Word) (ctr : BitVec 128) (i : Nat) : Nat := (draw k (ctr + BitVec.ofNat 128 i)).toNat % 2 ^ 24

/-- RGET (R71): the value, and the state after it. -/
def Ctx.rget (c : Ctx) : Word × Ctx :=
  let d := draw c.cr[crRngk] c.counter
  if c.rgh then (d.extractLsb' 64 64, (c.setCounter (c.counter + 1)).setRgh false)
  else (d.extractLsb' 0 64, c.setRgh true)

/-- A vector instruction takes n counters (R72). -/
def Ctx.takeDraws (c : Ctx) (n : Nat) : Ctx := (c.setCounter (c.counter + BitVec.ofNat 128 n)).setRgh false

end Sys2Proof.Machine
end

