-- ==== Sys2Proof/Machine/Checks.lean ====
section
/-! DEFINITION. The faults that a slot's own description decides at issue, step 7 of R84: addresses (R192), control registers
(R252), PCW values (R168), traps and the other checks of the single instructions. -/

namespace Sys2Proof.Machine

/-- A fault at issue: its cause and TADDR. -/
abbrev Flt := Cause × Word

/-- A check of an operand, by what its failure raises. -/
inductive Chk where
  | legal (ok : Bool)
  | allowed (ok : Bool)
  | aligned (a : Word) (n : Nat)
  | canon (ok : Bool) (a : Word)
  | inside (ok : Bool) (a : Word)
  | pcw (ok : Bool)
deriving DecidableEq, Repr

def Chk.rank : Chk → Nat
  | .legal _ => 0 | .pcw _ => 1 | .allowed _ => 2 | .aligned _ _ => 3 | .canon _ _ => 4 | .inside _ _ => 5

/-- What a check raises. -/
def Chk.fault : Chk → Option Flt
  | .legal ok => if ok then none else some (.illegalInstruction, 0)
  | .pcw ok => if ok then none else some (.badPcw, 0)
  | .allowed ok => if ok then none else some (.privileged, 0)
  | .aligned a n => if a.toNat % n = 0 then none else some (.misaligned, a)
  | .canon ok a => if ok then none else some (.nonCanonical, a)
  | .inside ok a => if ok then none else some (.protection, a)

/-- The first fault of a list of checks: Illegal Instruction before Bad PCW, Privileged, Misaligned, Non-canonical, Protection;
within one kind the first check decides (log entry 7). -/
def firstFault (l : List Chk) : Option Flt :=
  (upTo 6).findSome? fun r => l.findSome? fun c => if c.rank = r then c.fault else none

/-! Addresses. -/

/-- A range of scratch lies in an installed slice (R26, R192). -/
def scrInside (sa len : Nat) : Bool := sa / 2 ^ 22 < 288 && sa % 2 ^ 22 + len ≤ 2 ^ 22

/-- A core may access a range of scratch: it lies in a slice, and not among the shadows of one in verify layout (R192, R312). -/
def State.scrOpen (s : State) (sa len : Nat) : Bool :=
  scrInside sa len && !(0x200000 < sa % 2 ^ 22 + len && (s.coreAt (sa / 2 ^ 22)).verify)

/-- The checks of a core's access of len bytes at ea (R192). -/
def addrChecks (s : State) (ea : Word) (len align : Nat) : List Chk :=
  let t := coreTarget ea
  [.aligned ea align,
   .canon (match t with
     | .nonCanonical => false
     | .virt va => va + len ≤ 2 ^ 57
     | .scratch _ => true) ea,
   .inside (match t with
     | .scratch sa => s.scrOpen sa len
     | _ => true) ea]

/-- The effective address of the M format (R197). -/
def effAddr (base : Word) (disp : BitVec 11) (z : Nat) : Word := base + wordOfInt (disp.toInt * z)

/-! PCW (R167, R168). -/

def pcwWf (p : Word) : Nat := p.bits 0 4
def pcwAf (p : Word) : Nat := p.bits 4 4
def pcwAcc (p : Word) : Bool := p.getLsbD 8
def pcwP1 (p : Word) : Bool := p.getLsbD 9
def pcwSkip (p : Word) : Bool := p.getLsbD 10
def pcwEt (p : Word) : Bool := p.getLsbD 11
def pcwG (p : Word) : Nat := p.bits 12 4
def pcwSrseg (p : Word) : Bool := p.getLsbD 16
def pcwSparse (p : Word) : Nat := p.bits 18 2
def pcwMc (p : Word) : Nat := p.bits 20 2
/-- M of the N:M and budget modes. -/
def pcwM (p : Word) : Nat := 4 * 2 ^ pcwMc p
def pcwN (p : Word) : Nat := p.bits 22 6
def pcwTscale (p : Word) : Bool := p.getLsbD 28
def pcwAgrp (p : Word) : Nat := p.bits 29 2
/-- The AINT group size. -/
def pcwGroup (p : Word) : Nat := 32 * 2 ^ pcwAgrp p
def pcwKact (p : Word) : Nat := p.bits 32 7 + 1
def pcwNact (p : Word) : Nat := p.bits 39 9 + 1

def isAint (f : Nat) : Bool := f = 7 || f = 8

/-- A PCW value meets no condition of R168. -/
def pcwOk (p : Word) : Bool :=
  let wf := pcwWf p
  let af := pcwAf p
  let sp := pcwSparse p
  p.bits 48 16 = 0 && !p.getLsbD 31 && wf < 10 && af < 10 && !isAint af && (wf == 9) == (af == 9) && pcwAcc p == (wf == 9) &&
  p.bits 16 2 < 2 && !(pcwAcc p && (pcwSrseg p || pcwEt p || pcwTscale p)) && (pcwEt p || pcwG p == 0) &&
  !(pcwEt p && sp != 0) && sp != 3 && !(sp == 0 && (pcwMc p != 0 || pcwN p != 0)) &&
  !(sp == 1 && (pcwN p == 0 || pcwM p < pcwN p)) && !(sp == 2 && pcwN p != 0) && !(sp != 0 && isAint wf) &&
  !(sp != 0 && pcwKact p % pcwM p != 0) && pcwAgrp p != 3 && !(pcwAgrp p != 0 && !isAint wf) &&
  !(isAint wf && pcwKact p % pcwGroup p != 0)

/-! The checks of the instructions. -/

/-- A task of a deterministic queue. -/
def State.isDeterministic (s : State) (n : Nat) : Bool :=
  match (s.ctxAt n).task.bind s.findTask with
  | some t => !t.coop
  | none => false

/-- Words per block of a format code of VQMX and the PCW (R56). -/
def wordsPerBlock : Nat → Nat
  | 0 => 4 | 1 => 6 | 2 => 6 | 3 => 8 | 4 => 8 | 5 => 9 | 6 => 13 | 7 => 4 | 8 => 8 | _ => 9

/-- VQMX's checks of x[B] (R156). -/
def vqmxChecks (s : State) (t : ETy) (b : Word) : List Chk :=
  let fmt := b.bits 31 4
  let rm := b.bits 35 3
  let pa := b.bits 0 31
  let soff := b.bits 38 22
  let nb := 2048 / t.bytes / 32
  let a : Word := wordOfNat pa
  [.legal (b.bits 60 4 = 0 && fmt ≤ 5 && rm < 6), .aligned a 4,
   .inside (s.scrOpen pa (nb * 4 * wordsPerBlock fmt) && soff + nb ≤ 2 ^ 22) a]

/-- The checks of a scalar load or store. -/
def memChecks (s : State) (c : Ctx) (a : Reg) (disp : BitVec 11) (z : Nat) : List Chk := addrChecks s (effAddr (c.getX a) disp z) z z

def amoChecks (s : State) (n : Nat) (c : Ctx) (a : Reg) (fn : AmoFn) : List Chk :=
  let z := if fn = .fadd then 4 else 8
  .legal (!(fn = .fadd && s.isDeterministic n)) :: addrChecks s (c.getX a) z z

/-- The checks of WLPSH and WLINS: a scratch-form address aligned to 64 bytes (R213). -/
def listChecks (s : State) (a : Word) : List Chk :=
  [.aligned a 64, .inside (match coreTarget a with | .scratch sa => s.scrOpen sa 64 | _ => false) a]

/-- MTC (R252). -/
def mtcChecks (n : Nat) (c : Ctx) (v : Word) (num : Nat) : List Chk :=
  if num = 0 then
    [.legal (!(isSeq n && !v.getLsbD 0)), .allowed (c.kernel || (v ^^^ c.psw) &&& 0x39#64 = 0)]
  else if num = 0x0B then [.pcw (pcwOk v)]
  else if num = 0x13 then [.legal (v.toNat ≤ 64)]
  else []

/-- The checks that each slot's own description adds at issue; the engine and matrix commands have theirs in ParamChecks. -/
def ownChecks (s : State) (n : Nat) (c : Ctx) : Instr → List Chk
  | .jr _ a _ => [.aligned (c.getX a) 4, .canon ((c.getX a).bits 57 7 = 0) (c.getX a)]
  | .vqmx _ b _ t => vqmxChecks s t (c.getX b)
  | .mpcw a _ => [.pcw (pcwOk (c.getX a))]
  | .ldbs _ a _ d | .ldbn _ a _ d | .stb _ a _ d => memChecks s c a d 1
  | .ldhs _ a _ d | .ldhn _ a _ d | .sth _ a _ d => memChecks s c a d 2
  | .ldws _ a _ d | .ldwn _ a _ d | .stw _ a _ d => memChecks s c a d 4
  | .ldd _ a _ d | .std _ a _ d => memChecks s c a d 8
  | .ldv _ a _ d | .stv _ a _ d => addrChecks s (effAddr (c.getX a) d 64) 2048 64
  | .lda _ a _ z _ | .stl a _ _ _ z _ => addrChecks s (c.getX a) (widthBytes z) (widthBytes z)
  | .amog _ a _ _ fn | .amod _ a _ _ fn | .amos _ a _ _ fn => amoChecks s n c a fn
  | .wlpsh _ a _ _ _ | .wlins _ a _ _ _ => listChecks s (c.getX a)
  | .mtc a k => mtcChecks n c (c.getX a) k.toNat
  | .sysRft => [.legal (c.frames != 0 && (!installed (s.topFrame n) 0x20000 || s.topFrameOk n)),
      .inside (c.frames = 0 || installed (s.topFrame n) 0x20000) (wordOfNat (s.topFrame n))]
  | .sysTlbi a => [.canon ((c.getX a).bits 57 7 = 0) (c.getX a)]
  | .sysGsw a | .sysSrgrow a => [.aligned (c.getX a) 64, .canon ((c.getX a).bits 57 7 = 0) (c.getX a)]
  | .sysCut a => [.legal ((c.getX a).bits 12 52 = 0)]
  | _ => []

end Sys2Proof.Machine
end

