-- ==== Sys2Proof/Machine/Flags.lean ====
section
/-! DEFINITION. The sticky exception flags of VFLAGS (R46) and how a vector instruction gathers those of its active lanes (R47). -/

namespace Sys2Proof.Machine

abbrev Flags := BitVec 6
/-- Invalid: a signalling NaN operand, ∞ − ∞, 0 × ∞, a root or logarithm of a negative number, a bad conversion. -/
def fNV : Flags := 1
/-- RCP or LOG2 of a zero. -/
def fDZ : Flags := 2
/-- An FP32, FP16 or BF16 result overflowed. -/
def fOF : Flags := 4
/-- An inexact result whose magnitude, after rounding, is below the smallest normal of its format. -/
def fUF : Flags := 8
/-- A rounded result differed from the exact one. -/
def fNX : Flags := 16
/-- A conversion to an integer type or an MX format saturated. -/
def fSAT : Flags := 32

/-- The flags of the active lanes, ORed (R47). -/
def gatherFlags (l : List (Bool × Flags)) : Flags := l.foldl (fun a p => if p.1 then a ||| p.2 else a) 0

end Sys2Proof.Machine
end

