-- ==== Sys2Proof/Machine/Num.lean ====
section
/-! DEFINITION. Number formats and rounding (spec/02_numbers.md): exact dyadic values, the IEEE-style formats, the narrow formats,
the rounding modes and what each rounding signals. -/

namespace Sys2Proof.Machine

/-! Exact values. -/

/-- An exact value (−1)^neg × m × 2^e. -/
structure Dy where
  neg : Bool
  m : Nat
  e : Int
deriving DecidableEq, Repr

/-- What a floating-point bit pattern denotes. -/
inductive FVal where
  | nan (signalling : Bool)
  | inf (neg : Bool)
  | fin (d : Dy)
deriving DecidableEq, Repr

def FVal.isNan : FVal → Bool
  | .nan _ => true
  | _ => false
def FVal.isSnan : FVal → Bool
  | .nan s => s
  | _ => false
def FVal.isZero : FVal → Bool
  | .fin d => d.m = 0
  | _ => false
def FVal.neg : FVal → Bool
  | .nan _ => false
  | .inf n => n
  | .fin d => d.neg

/-- The integer that d denotes over 2^e, for e at most d.e. -/
def Dy.over (d : Dy) (e : Int) : Int :=
  let v : Int := (d.m <<< (d.e - e).toNat : Nat)
  if d.neg then -v else v

/-- The exact value of an integer times 2^e. -/
def dyOfInt (i : Int) (e : Int) : Dy := { neg := i < 0, m := i.natAbs, e := e }

def Dy.mul (a b : Dy) : Dy := { neg := a.neg != b.neg, m := a.m * b.m, e := a.e + b.e }

/-- The exact sum; its sign means nothing when it is zero. -/
def Dy.add (a b : Dy) : Dy :=
  if a.m = 0 then b else if b.m = 0 then a
  else
    let e := min a.e b.e
    dyOfInt (a.over e + b.over e) e

def Dy.flip (a : Dy) : Dy := { a with neg := !a.neg }

/-- Exact comparison. -/
def Dy.lt (a b : Dy) : Bool :=
  let e := min a.e b.e
  decide ((if a.m = 0 then (0 : Int) else a.over e) < (if b.m = 0 then 0 else b.over e))

def Dy.eqv (a b : Dy) : Bool := !a.lt b && !b.lt a

/-! Formats. -/

/-- A format with a sign bit, eb exponent bits and fb fraction bits. -/
structure Fmt where
  eb : Nat
  fb : Nat
deriving DecidableEq, Repr

def fmtF32 : Fmt := ⟨8, 23⟩
def fmtBf16 : Fmt := ⟨8, 7⟩
def fmtF16 : Fmt := ⟨5, 10⟩

def Fmt.bias (f : Fmt) : Nat := 2 ^ (f.eb - 1) - 1
def Fmt.width (f : Fmt) : Nat := f.eb + f.fb + 1
/-- The exponent of the least subnormal's unit. -/
def Fmt.qmin (f : Fmt) : Int := 1 - (f.bias : Int) - f.fb
/-- The code of +infinity. -/
def Fmt.infCode (f : Fmt) : Nat := (2 ^ f.eb - 1) <<< f.fb
/-- The canonical quiet NaN (R44). -/
def Fmt.qnan (f : Fmt) : Nat := f.infCode + 2 ^ (f.fb - 1)
def Fmt.signBit (f : Fmt) (neg : Bool) : Nat := if neg then 2 ^ (f.eb + f.fb) else 0

/-- The format of a floating element type. -/
def fmtOf : ETy → Fmt
  | .bf16 => fmtBf16
  | .f16 => fmtF16
  | _ => fmtF32

/-- The value of a pattern of an IEEE-style format (R42). -/
def Fmt.unpack (f : Fmt) (v : Nat) : FVal :=
  let neg := bitsOf v (f.eb + f.fb) 1 = 1
  let e := bitsOf v f.fb f.eb
  let m := v % 2 ^ f.fb
  if e = 2 ^ f.eb - 1 then (if m = 0 then .inf neg else .nan (bitsOf v (f.fb - 1) 1 = 0))
  else if e = 0 then .fin ⟨neg, m, f.qmin⟩
  else .fin ⟨neg, m + 2 ^ f.fb, (e : Int) - f.bias - f.fb⟩

/-! Rounding (R61 to R63). -/

/-- Whether to step away from zero, given the kept integer, the discarded part rem of 2^sh, and 24 random bits. -/
def roundsAway (rm : RMode) (neg : Bool) (kept rem sh u : Nat) : Bool :=
  match rm with
  | .rne => 2 * rem > 2 ^ sh || (2 * rem = 2 ^ sh && kept % 2 = 1 && rem != 0)
  | .rtz => false
  | .rup => !neg && rem != 0
  | .rdn => neg && rem != 0
  | .rna => 2 * rem ≥ 2 ^ sh && rem != 0
  | .sr => (rem * 2 ^ 24) / 2 ^ sh + u ≥ 2 ^ 24

/-- Round m × 2^e to a multiple of 2^q: the multiple and whether anything was discarded. -/
def roundAt (rm : RMode) (neg : Bool) (m : Nat) (e q : Int) (u : Nat) : Nat × Bool :=
  if q ≤ e then (m <<< (e - q).toNat, false)
  else
    let sh := min (q - e).toNat (Nat.log2 m + 64)
    let kept := m >>> sh
    let rem := m % 2 ^ sh
    (if roundsAway rm neg kept rem sh u then kept + 1 else kept, rem != 0)

/-- The unit in which a value is rounded: fb bits below its leading bit, and no finer than qmin. -/
def roundUnit (fb : Nat) (qmin : Int) (m : Nat) (e : Int) : Int := max (Nat.log2 m + e - fb) qmin

/-- What an overflow delivers (R62), without its sign. -/
def Fmt.overflow (f : Fmt) (rm : RMode) (neg : Bool) : Nat :=
  match rm with
  | .rtz => f.infCode - 1
  | .rup => if neg then f.infCode - 1 else f.infCode
  | .rdn => if neg then f.infCode else f.infCode - 1
  | _ => f.infCode

/-- Round an exact value to an IEEE-style format; `sticky` says that the value lies a little above m × 2^e in magnitude, by less
than the last place of m. -/
def Fmt.roundSticky (f : Fmt) (rm : RMode) (d : Dy) (sticky : Bool) (u : Nat) : Nat × Flags :=
  if d.m = 0 then (f.signBit d.neg, 0)
  else
    let m := if sticky then 4 * d.m + 1 else d.m
    let e := if sticky then d.e - 2 else d.e
    let q := roundUnit f.fb f.qmin m e
    let (k, inexact) := roundAt rm d.neg m e q u
    let code := (q - f.qmin).toNat * 2 ^ f.fb + k
    if f.infCode ≤ code then (f.signBit d.neg + f.overflow rm d.neg, fOF ||| fNX)
    else (f.signBit d.neg + code,
      if inexact then (if code < 2 ^ f.fb then fUF ||| fNX else fNX) else 0)

/-- round(x, mode) for an FP32, FP16 or BF16 destination (R39, R62). -/
def Fmt.round (f : Fmt) (rm : RMode) (d : Dy) (u : Nat) : Nat × Flags := f.roundSticky rm d false u

/-! Floating-point operations: a pattern and its flags. -/

/-- A NaN result; NV when an operand signals (R44, R46). -/
def Fmt.nanOf (f : Fmt) (vs : List FVal) : Nat × Flags := (f.qnan, if vs.any FVal.isSnan then fNV else 0)

/-- The rounded sum of two exact addends, with the sign rule for a zero sum (R141). -/
def Fmt.sum (f : Fmt) (rm : RMode) (a b : Dy) (u : Nat) : Nat × Flags :=
  if a.m = 0 && b.m = 0 then (f.signBit (if a.neg = b.neg then a.neg else rm = .rdn), 0)
  else
    let d := a.add b
    if d.m = 0 then (f.signBit (rm = .rdn), 0) else f.round rm d u

def FVal.negate : FVal → FVal
  | .nan s => .nan s
  | .inf n => .inf (!n)
  | .fin d => .fin d.flip

/-- a + b (R142). -/
def Fmt.addV (f : Fmt) (rm : RMode) (a b : FVal) (u : Nat) : Nat × Flags :=
  match a, b with
  | .nan _, _ | _, .nan _ => f.nanOf [a, b]
  | .inf x, .inf y => if x = y then (f.signBit x + f.infCode, 0) else (f.qnan, fNV)
  | .inf x, .fin _ | .fin _, .inf x => (f.signBit x + f.infCode, 0)
  | .fin x, .fin y => f.sum rm x y u

/-- a × b (R142). -/
def Fmt.mulV (f : Fmt) (rm : RMode) (a b : FVal) (u : Nat) : Nat × Flags :=
  match a, b with
  | .nan _, _ | _, .nan _ => f.nanOf [a, b]
  | .inf x, .inf y => (f.signBit (x != y) + f.infCode, 0)
  | .inf x, .fin y | .fin y, .inf x => if y.m = 0 then (f.qnan, fNV) else (f.signBit (x != y.neg) + f.infCode, 0)
  | .fin x, .fin y => f.round rm (x.mul y) u

/-- a × b + c with one rounding (R143). -/
def Fmt.fmaV (f : Fmt) (rm : RMode) (a b c : FVal) (u : Nat) : Nat × Flags :=
  let invalid : Bool := match a, b with
    | .inf _, .fin y | .fin y, .inf _ => y.m = 0
    | _, _ => false
  if invalid then (f.qnan, fNV)
  else if a.isNan || b.isNan || c.isNan then f.nanOf [a, b, c]
  else match a, b, c with
    | .fin x, .fin y, .fin z => f.sum rm (x.mul y) z u
    | .fin _, .fin _, .inf z => (f.signBit z + f.infCode, 0)
    | _, _, .inf z => if z = (a.neg != b.neg) then (f.signBit z + f.infCode, 0) else (f.qnan, fNV)
    | _, _, _ => (f.signBit (a.neg != b.neg) + f.infCode, 0)

/-- −0 orders below +0; infinities at the ends; no NaN (R67). -/
def fvLess (a b : FVal) : Bool :=
  match a, b with
  | .inf x, .inf y => x && !y
  | .inf x, .fin _ => x
  | .fin _, .inf y => !y
  | .fin x, .fin y => if x.m = 0 && y.m = 0 then x.neg && !y.neg else x.lt y
  | _, _ => false

/-- Minimum or maximum of two patterns (R67): `num` for the forms that prefer a number. -/
def Fmt.minmax (f : Fmt) (isMax num : Bool) (pa pb : Nat) : Nat × Flags :=
  let a := f.unpack pa
  let b := f.unpack pb
  if a.isSnan || b.isSnan then (f.qnan, fNV)
  else if a.isNan && b.isNan then (f.qnan, 0)
  else if a.isNan then (if num then pb else f.qnan, 0)
  else if b.isNan then (if num then pa else f.qnan, 0)
  else if isMax then (if fvLess a b then pb else pa, 0)
  else (if fvLess b a then pb else pa, 0)

/-- −0 equals +0 (R148). -/
def fvEq (a b : FVal) : Bool :=
  match a, b with
  | .inf x, .inf y => x = y
  | .fin x, .fin y => x.eqv y
  | _, _ => false
def fvLt (a b : FVal) : Bool :=
  match a, b with
  | .fin x, .fin y => x.lt y
  | _, _ => fvLess a b

/-- A comparison of two floats and its flag (R148). -/
def fcmp (c : VCond) (a b : FVal) : Bool × Flags :=
  let un := a.isNan || b.isNan
  let quiet : Flags := if a.isSnan || b.isSnan then fNV else 0
  let loud : Flags := if un then fNV else 0
  match c with
  | .eq => (!un && fvEq a b, quiet)
  | .ne => (un || !fvEq a b, quiet)
  | .lt => (!un && fvLt a b, loud)
  | .le => (!un && (fvLt a b || fvEq a b), loud)
  | .gt => (!un && fvLt b a, loud)
  | .ge => (!un && (fvLt b a || fvEq a b), loud)
  | .un => (un, quiet)
  | .ord => (!un, quiet)

/-! Integers. -/

/-- The range of an integer type. -/
def intMin (t : ETy) : Int := if t.hasSign then -(2 ^ (8 * t.bytes - 1) : Nat) else 0
def intMax (t : ETy) : Int := if t.hasSign then (2 ^ (8 * t.bytes - 1) : Nat) - 1 else (2 ^ (8 * t.bytes) : Nat) - 1

/-- The integer that a lane pattern of type t denotes. -/
def intOf (t : ETy) (v : Nat) : Int := if t.hasSign then sextNat v (8 * t.bytes) else v

/-- An exact value rounded to an integer: sign and magnitude, and whether it changed (R66). -/
def roundInt (rm : RMode) (d : Dy) (u : Nat) : Int × Bool :=
  if d.m = 0 then (0, false)
  else
    let (k, x) := roundAt rm d.neg d.m d.e 0 u
    (if d.neg then -(k : Int) else k, x)

/-- A float converted to an integer type (R66). -/
def cvtToInt (t : ETy) (rm : RMode) (v : FVal) (u : Nat) : Nat × Flags :=
  let lo := intMin t
  let hi := intMax t
  let w := 8 * t.bytes
  match v with
  | .nan _ => (0, fNV)
  | .inf n => (truncInt (if n then lo else hi) w, fNV ||| fSAT)
  | .fin d =>
    -- a magnitude far beyond every range need not be formed
    if 80 < Nat.log2 d.m + d.e && d.m != 0 then (truncInt (if d.neg then lo else hi) w, fNV ||| fSAT)
    else
      let (i, x) := roundInt rm d u
      if i < lo then (truncInt lo w, fNV ||| fSAT)
      else if hi < i then (truncInt hi w, fNV ||| fSAT)
      else (truncInt i w, if x then fNX else 0)

/-- An integer converted to a floating format (R66): no UF can arise. -/
def cvtFromInt (f : Fmt) (rm : RMode) (i : Int) (u : Nat) : Nat × Flags :=
  if i = 0 then (0, 0) else f.round rm (dyOfInt i 0) u

/-! Narrow formats (R49 to R53). -/

/-- The MX element formats by their codes: 0 MXFP4, 1 MXFP6A, 2 MXFP6B, 3 MXFP8A, 4 MXFP8B. -/
structure MxFmt where
  eb : Nat
  fb : Nat
  bias : Nat
  /-- The code of the largest finite value. -/
  top : Nat
  emax : Int
deriving DecidableEq, Repr

def mxFmt : Nat → MxFmt
  | 0 => ⟨2, 1, 1, 0x7, 2⟩
  | 1 => ⟨2, 3, 1, 0x1F, 2⟩
  | 2 => ⟨3, 2, 3, 0x1F, 4⟩
  | 3 => ⟨4, 3, 7, 0x7E, 8⟩
  | _ => ⟨5, 2, 15, 0x7B, 15⟩

def MxFmt.qmin (f : MxFmt) : Int := 1 - (f.bias : Int) - f.fb

/-- The value of an element code (R49): NaN and infinity exist in the eight-bit formats only. -/
def mxUnpack (fmt : Nat) (v : Nat) : FVal :=
  let f := mxFmt fmt
  let neg := bitsOf v (f.eb + f.fb) 1 = 1
  let mag := v % 2 ^ (f.eb + f.fb)
  if fmt = 3 && mag = 0x7F then .nan false
  else if fmt = 4 && mag = 0x7C then .inf neg
  else if fmt = 4 && 0x7C < mag then .nan false
  else
    let e := mag >>> f.fb
    let m := mag % 2 ^ f.fb
    if e = 0 then .fin ⟨neg, m, f.qmin⟩ else .fin ⟨neg, m + 2 ^ f.fb, (e : Int) - f.bias - f.fb⟩

/-- Round into an MX element format, saturating (R64). -/
def mxRound (fmt : Nat) (rm : RMode) (d : Dy) (u : Nat) : Nat × Flags :=
  let f := mxFmt fmt
  let sgn := if d.neg then 2 ^ (f.eb + f.fb) else 0
  if d.m = 0 then (sgn, 0)
  else
    let q := roundUnit f.fb f.qmin d.m d.e
    let (k, inexact) := roundAt rm d.neg d.m d.e q u
    let code := (q - f.qmin).toNat * 2 ^ f.fb + k
    if f.top < code then (sgn + f.top, fSAT ||| fNX)
    else (sgn + code, if inexact then (if code < 2 ^ f.fb then fUF ||| fNX else fNX) else 0)

/-- Round x × 64 to MXINT8 (R65). A non-zero value that rounds to zero sets NX and not UF: UF of R46 asks for a smallest normal, which the
spec does not give MXINT8 (log entry 48). -/
def mxint8Round (rm : RMode) (d : Dy) (u : Nat) : Nat × Flags :=
  let (i, x) := roundInt rm { d with e := d.e + 6 } u
  if i < -128 then (0x80, fSAT ||| fNX)
  else if 127 < i then (0x7F, fSAT ||| fNX)
  else (truncInt i 8, if x then fNX else 0)

/-- floor(log2 |d|) of a non-zero value. -/
def Dy.log2 (d : Dy) : Int := Nat.log2 d.m + d.e

/-- The scale byte of a block (R65), none when an element is NaN or infinite. Format code 5 is MXINT8. -/
def blockScale (fmt : Nat) (xs : List FVal) : Option Nat :=
  if xs.any fun v => match v with | .fin _ => false | _ => true then none
  else
    let nz := xs.filterMap fun v => match v with | .fin d => if d.m = 0 then none else some d | _ => none
    if nz.isEmpty then some 127
    else
      let top := nz.foldl (fun a d => max a d.log2) (-100000)
      let emax := if fmt = 5 then 0 else (mxFmt fmt).emax
      some (min (max (top - emax) (-127)) 127 + 127).toNat

/-- Quantise a block (R65): the scale byte, the element codes, and the flags of each element. `us` gives the random bits. -/
def quantBlock (fmt : Nat) (rm : RMode) (xs : List FVal) (us : List Nat) : Nat × List (Nat × Flags) :=
  match blockScale fmt xs with
  | none => (0xFF, xs.map fun _ => (0, 0))
  | some sc =>
    let zero := xs.all FVal.isZero
    (sc, (xs.zip us).map fun p =>
      match p.1 with
      | .fin d =>
        if zero then (0, 0)
        else
          let y : Dy := { d with e := d.e - ((sc : Int) - 127) }
          if fmt = 5 then mxint8Round rm y p.2 else mxRound fmt rm y p.2
      | _ => (0, 0))

/-- The value of an E8M0 scale (R54), none for NaN. -/
def scaleExp (b : Nat) : Option Int := if b = 0xFF then none else some ((b : Int) - 127)

end Sys2Proof.Machine
end

