-- ==== Sys2Proof/Machine/MemPath.lean ====
section
/-! DEFINITION. The memory path of a context: which outstanding access may be performed next (R194, R201, R204, R318, R319), its
translation (R191, R305), and performing it (R195 to R203). -/

namespace Sys2Proof.Machine

/-- The code of a scope (R315). -/
def scopeCode : Scope → Nat
  | .ctx => 0 | .grp => 1 | .dev => 2 | .sys => 3

/-- What a fence of agent n does once its earlier set has been performed: its release part performs what it covers at its scope, its
acquire part ends reads ahead, and with the engines bit later commands follow (R204, R321). -/
def State.fenceDone (s : State) (n : Nat) (eng : Bool) (k : FenceKind) (sc : Scope) : State :=
  let s := match k with | .acq => s | _ => s.flushTo n sc
  let s := match k with | .rel => s | _ => s.acquire n (scopeCode sc)
  if eng then s.showEng n else s

/-- Fences with nothing left before them leave the path. -/
def tidyFences (n : Nat) : List Access → State → State × List Access
  | [], s => (s, [])
  | a :: t, s =>
    match a.ins with
    | .fence eng k sc => tidyFences n t (s.fenceDone n eng k sc)
    | _ => if a.performed then (let (s, l) := tidyFences n t s; (s, a :: l)) else (s, a :: t)

def State.tidy (s : State) (n : Nat) : State :=
  let (s1, l) := tidyFences n (s.ctxAt n).acc s
  if l = (s.ctxAt n).acc then s else s1.modCtx n fun c => { c with acc := l }

/-! One access. -/

def Ctx.findAcc (c : Ctx) (sn : Nat) : Option Access := c.acc.find? (·.sn = sn)
def Ctx.putAcc (c : Ctx) (a : Access) : Ctx := { c with acc := c.acc.map fun b => if b.sn = a.sn then a else b }
def Ctx.dropAcc (c : Ctx) (sn : Nat) : Ctx := { c with acc := c.acc.filter (·.sn != sn) }

def State.putAcc (s : State) (n : Nat) (a : Access) : State := s.modCtx n fun c => c.putAcc a
def State.dropAcc (s : State) (n sn : Nat) : State := s.modCtx n fun c => c.dropAcc sn

/-- The first access of a handler has been performed: the entry window closes (R406). -/
def State.closeWindow (s : State) (n sn : Nat) : State :=
  if (s.ctxAt n).window.isOpen && (s.ctxAt n).window.first = some sn then s.modCtx n fun c => { c with window := {} } else s

/-- Translate one page of an access, through held entries only: the piece of its bytes that lies in the page, and how many they are
(R195). -/
def lookup (s : State) (n : Nat) (a : Access) (va len : Nat) : Option (Except Cause (Piece × Nat)) :=
  let c := s.ctxAt n
  match (s.unitAt (unitOf n)).find c.job va with
  | some t =>
    let first := min len (t.page + t.size - va)
    some ((checkLeaf s t.leaf t.size va first { kernel := a.kernel, isWrite := isStore a.ins, sync := isSync a.ins }).map (·, first))
  | none => none

/-- Accesses that wait on walks at a unit (R305). -/
def State.waitingAt (s : State) (unit : Nat) : Nat :=
  (s.ctxs.filter fun q => unitOf q.1 = unit).foldl (fun k q => k + q.2.acc.countP Access.walks) 0

/-- An access of agent n takes a waiting place at its unit, where a walk of its page is asked for unless one is under way; with all 128
places taken it waits at the unit as it is (R305). -/
def State.askWalk (s : State) (n : Nat) (a : Access) (va : Nat) : State :=
  let c := s.ctxAt n
  let unit := unitOf n
  let u := s.unitAt unit
  if 128 ≤ s.waitingAt unit then s.putAcc n { a with st := .waiting }
  else
    let s := if u.walks.any fun w => w.job = c.job && w.page = va / 4096 then s
      else s.setUnit unit { u with walks := u.walks ++ [{ job := c.job, root := c.root.toNat, page := va / 4096 }] }
    s.putAcc n { a with st := .walking (va / 4096) }

/-- Bring an access to the point where it is translated, waits on a walk, or has faulted (R191, R195). -/
def State.translateAcc (s : State) (n : Nat) (a : Access) : State :=
  let c := s.ctxAt n
  match coreTarget a.ea with
  | .scratch sa => s.putAcc n { a with st := .ready { key := scrKey sa } none }
  | .nonCanonical => s.putAcc n { a with st := .faulted .nonCanonical a.ea false }
  | .virt va =>
    let len := accBytes a.ins
    match lookup s n a va len with
    | none => s.askWalk n a va
    | some (.error e) => s.putAcc n { a with st := .faulted e a.ea false }
    | some (.ok (p0, first)) =>
      let s := s.hit (unitOf n) c.job va
      if first = len then s.putAcc n { a with st := .ready p0 none }
      else match lookup s n a (va + first) (len - first) with
        | none => s.askWalk n a (va + first)
        | some (.error e) => s.putAcc n { a with st := .faulted e (wordOfNat (va + first)) true }
        | some (.ok (p1, _)) =>
          (s.hit (unitOf n) c.job (va + first)).putAcc n { a with st := .ready p0 (some p1), cut := first }

/-- The pieces of an access as key ranges. -/
def accRanges (a : Access) (p0 : Piece) (p1 : Option Piece) : List (Nat × Nat) :=
  let len := accBytes a.ins
  match p1 with
  | some q => [(p0.key, a.cut), (q.key, len - a.cut)]
  | none => [(p0.key, len)]

/-- The agent code of a core access (R255). -/
def agentCode (n : Nat) : Nat := if isSeq n then 5 else 0

/-- A register value from loaded bytes (R197, R200). -/
def loadValue (i : Instr) (v : Nat) : Word :=
  match i with
  | .ldbs _ _ _ _ => wordOfInt (sextNat v 8)
  | .ldhs _ _ _ _ => wordOfInt (sextNat v 16)
  | .ldws _ _ _ _ => wordOfInt (sextNat v 32)
  | _ => wordOfNat v

/-- TADDR of a race: the scratch address of the access (R314). -/
def raceAddr (ea : Word) : Word :=
  match coreTarget ea with
  | .scratch sa => wordOfNat sa
  | _ => ea

/-- A scalar load or LDA takes its value; LDA is an acquire (R198, R201). -/
def performLoad (s : State) (n : Nat) (a : Access) (p : Piece) : State :=
  let key := p.key / 8 * 8
  let len := accBytes a.ins
  if !s.readable n key then s
  else match s.raceCheck (s.ctxAt n).task a.hold p.key len false with
    | none => s.putAcc n { a with st := .faulted .race (raceAddr a.ea) false }
    | some s =>
      let s := s.touch p.key len false (agentCode n)
      if s.isPoison n key then s.putAcc n { a with st := .faulted .poison a.ea false }
      else
        let take := fun (s : State) (w : Word) =>
          (s.closeWindow n a.sn).putAcc n { a with st := .got (loadValue a.ins (bitsOf w.toNat (8 * (p.key % 8)) (8 * len))) }
        match acqScope a.ins with
        | none => take s (s.viewPlain n key)
        | some sc => take ((s.forgetAt n key).acquire n (scopeCode sc)) (s.view n key)

/-- A scalar store or STL is performed. -/
def performStore (s : State) (n : Nat) (a : Access) (p : Piece) : State :=
  let key := p.key / 8 * 8
  let len := accBytes a.ins
  let off := p.key % 8
  match s.raceCheck (s.ctxAt n).task a.hold p.key len true with
  | none => s.putAcc n { a with st := .faulted .race (raceAddr a.ea) false }
  | some s =>
    let s := match relScope a.ins with | some sc => s.flushTo n sc | none => s
    let s := (s.touch p.key len true (agentCode n)).closeWindow n a.sn
    (s.write n p key (enOf off len) (a.vt <<< (8 * off))).dropAcc n a.sn

/-- Words of an LDV that f names are read (R194, R198). -/
def performLdv (s : State) (n : Nat) (a : Access) (p0 : Piece) (p1 : Option Piece) (f : Nat → Bool) : State :=
  let fresh := a.todo = (BitVec.allOnes 256).setWidth 512
  let checked := if fresh then
      (accRanges a p0 p1).foldl (fun o r => o.bind fun t => t.raceCheck (s.ctxAt n).task a.hold r.1 r.2 false) (some s)
    else some s
  match checked with
  | none => s.putAcc n { a with st := .faulted .race (raceAddr a.ea) false }
  | some s =>
    let s := if fresh then (accRanges a p0 p1).foldl (fun t r => t.touch r.1 r.2 false (agentCode n)) s else s
    let a := (upTo 256).foldl (fun (a : Access) i =>
      let (_, key) := wordAt a p0 p1 i
      if a.todo.getLsbD i && f i && s.readable n key then
        { a with row := a.row ||| ((s.viewPlain n key).setWidth 16384 <<< (64 * i)), todo := a.todo &&& ~~~(1#512 <<< i)
                 bad := a.bad || s.isPoison n key }
      else a) a
    if a.todo = 0 then (s.closeWindow n a.sn).putAcc n { a with st := .got 0 } else s.putAcc n a

/-- Words of an STV that f names are written. -/
def performStv (s : State) (n : Nat) (a : Access) (p0 : Piece) (p1 : Option Piece) (f : Nat → Bool) : State :=
  let fresh := a.todo = (BitVec.allOnes 256).setWidth 512
  let checked := if fresh then
      (accRanges a p0 p1).foldl (fun o r => o.bind fun t => t.raceCheck (s.ctxAt n).task a.hold r.1 r.2 true) (some s)
    else some s
  match checked with
  | none => s.putAcc n { a with st := .faulted .race (raceAddr a.ea) false }
  | some s =>
    let s := if fresh then (accRanges a p0 p1).foldl (fun t r => t.touch r.1 r.2 true (agentCode n)) s else s
    let (s, todo) := (upTo 256).foldl (fun (t : State × BitVec 512) i =>
      if t.2.getLsbD i && f i then
        let (pc, key) := wordAt a p0 p1 i
        (t.1.write n pc key 0xFF (a.row.extractLsb' (64 * i) 64), t.2 &&& ~~~(1#512 <<< i))
      else t) (s, a.todo)
    if todo = 0 then (s.closeWindow n a.sn).dropAcc n a.sn else s.putAcc n { a with todo := todo }

/-- A write of n bytes of scratch by the context itself, word by word (R157). -/
def State.writeScr (s : State) (n sa len v : Nat) : State :=
  (wordKeys (scrKey sa) len).foldl (fun t k =>
    let lo := max k (scrKey sa)
    let hi := min (k + 8) (scrKey sa + len)
    let part := bitsOf v (8 * (lo - scrKey sa)) (8 * (hi - lo))
    t.write n { key := k } k (enOf (lo - k) (hi - lo)) (wordOfNat (part <<< (8 * (lo - k))))) s

/-- The next writes of a VQMX, in order (R157). -/
def performVqmx (n : Nat) (a : Access) : Nat → State → State
  | 0, s => s
  | k + 1, s =>
    match (s.ctxAt n).findAcc a.sn with
    | none => s
    | some a =>
      match a.wr with
      | [] => s.dropAcc n a.sn
      | (sa, len, v) :: rest =>
        match s.raceCheck (s.ctxAt n).task a.hold (scrKey sa) len true with
        | none => s.putAcc n { a with st := .faulted .race (wordOfNat sa) false }
        | some s =>
          let s := ((s.touch (scrKey sa) len true (agentCode n)).writeScr n sa len v).closeWindow n a.sn
          let s := if rest.isEmpty then s.dropAcc n a.sn else s.putAcc n { a with wr := rest }
          performVqmx n a k s

/-- The new value of an atomic (R203); none when nothing is written. -/
def amoNew (fn : AmoFn) (o b d : Word) : Option Word :=
  match fn with
  | .add => some (o + b)
  | .and => some (o &&& b)
  | .or => some (o ||| b)
  | .xor => some (o ^^^ b)
  | .min => some (if o.slt b then o else b)
  | .max => some (if b.slt o then o else b)
  | .minn => some (if o.ult b then o else b)
  | .maxn => some (if b.ult o then o else b)
  | .swp => some b
  | .cas => if o = d then some b else none
  | .fadd => some o

def amoFnOf : Instr → AmoFn
  | .amog _ _ _ _ fn | .amod _ _ _ _ fn | .amos _ _ _ _ fn => fn
  | _ => .add

/-- The FP32 sum of FADD, RNE, with no flag (R203). -/
def fadd32 (o b : Nat) : Nat := (fmtF32.addV .rne (fmtF32.unpack o) (fmtF32.unpack b) 0).1

/-- The old value of an atomic as its home holds it (R202). -/
def amoOld (s : State) (a : Access) (p : Piece) : Word :=
  wordOfNat (bitsOf (memWord s.mem (p.key / 8 * 8)).toNat (8 * (p.key % 8)) (8 * accBytes a.ins))

/-- An atomic is performed at its home: the old value is on its way. One that writes nothing, a CAS that fails, sets no dirty bit, and
its release part orders nothing; an acquire part applies to the read (R202, R203, R330). -/
def performAtomic (s : State) (n : Nat) (a : Access) (p : Piece) : State :=
  let key := p.key / 8 * 8
  let len := accBytes a.ins
  let off := p.key % 8
  let fn := amoFnOf a.ins
  match s.raceCheck (s.ctxAt n).task a.hold p.key len true with
  | none => s.putAcc n { a with st := .faulted .race (raceAddr a.ea) false }
  | some s =>
    let s := (if p.repl.isSome then s.applyRepl else s).flushKey n key
    let o := amoOld s a p
    let new := if fn = .fadd then some (wordOfNat (fadd32 o.toNat (a.vb.bits 0 32))) else amoNew fn o a.vb a.vd
    let s := s.touch p.key len new.isSome (agentCode n)
    if s.isPoison n key then s.putAcc n { a with st := .faulted .poison a.ea false }
    else
      let s := match new with
        | some v =>
          let s := match relScope a.ins with | some sc => s.flushTo n sc | none => s
          s.writeHome n n p key (enOf off len) (v <<< (8 * off))
        | none => s
      let s := (s.forgetAt n key).acquire n (match acqScope a.ins with | some sc => scopeCode sc | none => 0)
      (s.closeWindow n a.sn).putAcc n { a with st := .got o }

/-- The memory path takes up an outstanding access: it translates it, or performs it when the order allows (R318). Atomics, list
operations, divisions and extractions have events of their own. -/
def performAccess (s : State) (n sn : Nat) (words : BitVec 512) : State :=
  match (s.ctxAt n).findAcc sn with
  | none => s
  | some a =>
    if !isMem a.ins then s
    else if !a.wr.isEmpty then
      (if mayPerform s n a then (performVqmx n a (max 1 (words.toNat % 512)) s).tidy n else s)
    else match a.st with
      | .waiting => if isListOp a.ins then s else s.translateAcc n a
      | .ready p0 p1 =>
        if isAmo a.ins || !mayPerform s n a || (p1.isNone && !soFree (s.ctxAt n) a p0) then s
        else
          let s := (s.beginSo n p0).beginSo n (p1.getD p0)
          let f := fun i => words.getLsbD i && soFree (s.ctxAt n) a (wordAt a p0 p1 i).1
          let s := match a.ins with
            | .ldv _ _ _ _ => performLdv s n a p0 p1 f
            | .stv _ _ _ _ => performStv s n a p0 p1 f
            | i => if isStore i then performStore s n a p0 else performLoad s n a p0
          s.tidy n
      | _ => s

/-- A CAS that would fail now, as the order of its context takes it: a read, an acquire if it is one (R203, R330). -/
def Access.asRead (a : Access) : Access :=
  { a with ins := match acqScope a.ins with | some sc => .lda 0 0 false .w64 sc | none => .ldd 0 0 false 0 }

/-- An atomic may be performed now; one that would write nothing only as a read. -/
def amoReady (s : State) (n : Nat) (a : Access) (p : Piece) : Bool :=
  soFree (s.ctxAt n) a p &&
    (mayPerform s n a ||
      (amoFnOf a.ins = .cas && amoOld s a p != a.vd && p.repl.isNone && s.readable n (p.key / 8 * 8) &&
        s.view n (p.key / 8 * 8) = memWord s.mem (p.key / 8 * 8) && mayPerform s n a.asRead))

/-- ATOMIC_PERFORM. -/
def atomicStep (s : State) (n sn : Nat) : State :=
  match (s.ctxAt n).findAcc sn with
  | some a =>
    match a.st with
    | .ready p0 _ => if isAmo a.ins && amoReady s n a p0 then (performAtomic (s.beginSo n p0) n a p0).tidy n else s
    | _ => s
  | none => s

/-- LOAD_COMPLETE: a value on its way fills its register (R198, R99). -/
def loadComplete (s : State) (n sn : Nat) : State :=
  match (s.ctxAt n).findAcc sn with
  | some a =>
    match a.st with
    | .got v =>
      match a.ins with
      | .vext _ _ _ _ => s
      | _ => (s.modCtx n fun c => (c.fillAccess a v).dropAcc sn).tidy n
    | _ => s
  | none => s

end Sys2Proof.Machine
end

