-- ==== Sys2Proof/Machine/ParamChecks.lean ====
section
/-! DEFINITION. The checks at issue of the commands that read parameter registers: matrix commands (R169, R177 to R189), region and
list commands (R206, R207, R215, R312) and engine commands (R218, R219, R226 to R243). A command's numbers are x[P], x[P + 1], … -/

namespace Sys2Proof.Machine

/-- Parameter register i of a command that names x[P]. -/
def Ctx.par (c : Ctx) (p : Reg) (i : Nat) : Word := c.getX (BitVec.ofNat 6 (p.toNat + i))

/-- Bits lo + len − 1 to lo must be zero. -/
def mbz (w : Word) (lo len : Nat) : Chk := .legal (w.bits lo len = 0)

/-- A scratch area of len bytes from address sa, aligned (R169, R219); an empty area need only start in a slice. -/
def area (sa len align : Nat) : List Chk :=
  [.aligned (wordOfNat sa) align, .inside (scrInside sa (max 1 len)) (wordOfNat sa)]

/-- An address word (R218): virtual or scratch form, aligned, its scratch area inside a slice. -/
def addrWord (a : Word) (len align : Nat) : List Chk :=
  let t := coreTarget a
  [.aligned a align, .canon (t != .nonCanonical) a,
   .inside (match t with | .scratch sa => scrInside sa (max 1 len) | _ => true) a]

/-- An address word that must have the virtual form. -/
def virtOnly (a : Word) (align : Nat) : List Chk :=
  [.legal (match coreTarget a with | .scratch _ => false | _ => true), .aligned a align, .canon (a.bits 57 7 = 0) a]

/-- An address word that must have the scratch form. -/
def scratchOnly (a : Word) (len align : Nat) : List Chk :=
  .legal (match coreTarget a with | .virt _ => false | _ => true) :: addrWord a len align

/-- A remote VA (R218). -/
def remoteVa (a : Word) (align : Nat) : List Chk := [.aligned a align, .canon (a.bits 57 7 = 0) a]

/-- Bytes of n rows of `row` bytes, `stride` apart. -/
def rowsLen (n stride row : Nat) : Nat := (n - 1) * stride + row

/-! Matrix commands. -/

/-- Bytes of a column's side entries, and of a column's blocks, at the largest (R177). -/
def mlwSideLen (pcw : Word) : Nat :=
  if isAint (pcwWf pcw) then 4 * (128 / pcwGroup pcw) else if pcwWf pcw = 9 then 0 else 4

/-- The largest k(n) of a slab's columns as the budget table stands (R177). -/
def maxKept (pcw : Word) (budget : List Byte) : Nat :=
  match pcwSparse pcw with
  | 0 => pcwKact pcw
  | 1 => pcwKact pcw / pcwM pcw * pcwN pcw
  | _ => pcwKact pcw / pcwM pcw *
      (budget.take (pcwNact pcw)).foldl (fun a b => max a (min b.toNat (pcwM pcw))) 0

/-- Granules of the slab that the captured PCW describes (R175). -/
def pcwGranules (pcw : Word) (budget : List Byte) : Nat :=
  let nmax := budget.foldl (fun a b => max a (min b.toNat (pcwM pcw))) 0
  let bpc := match pcwSparse pcw with
    | 0 => 4
    | 1 => ceilDiv (4 * pcwN pcw) (pcwM pcw)
    | _ => ceilDiv (4 * nmax) (pcwM pcw)
  bpc * (wordsPerBlock (pcwWf pcw) + (if pcwSparse pcw = 0 then 0 else 5)) +
    (if isAint (pcwWf pcw) then 128 / pcwGroup pcw else if pcwWf pcw = 9 then 0 else 1) + (if pcwSparse pcw = 2 then 1 else 0)

/-- A granule range stays below 2,048; TADDR is the first granule (R169). -/
def granules (g n : Nat) : Chk := .inside (g + n ≤ 2048) (wordOfNat g)

def mlwChecks (c : Ctx) (p : Reg) : List Chk :=
  let pcw := c.cr[crPcw]
  let a := c.par p 0
  let b := c.par p 1
  let d := c.par p 2
  let wb := 4 * (wordsPerBlock (pcwWf pcw) + (if pcwSparse pcw = 0 then 0 else 5))
  let n := pcwNact pcw
  [mbz a 53 11, mbz a 31 1, .legal (a.bits 32 21 % 4 = 0), mbz b 48 16, mbz b 31 1, mbz d 11 53] ++
  area (a.bits 0 31) (rowsLen n (a.bits 32 21) (ceilDiv (maxKept pcw c.budget) 32 * wb)) 4 ++
  (if pcwWf pcw = 9 then [] else
    area (b.bits 0 31) (rowsLen n (b.bits 32 16) (mlwSideLen pcw)) 1) ++
  [granules (d.bits 0 11) (pcwGranules pcw c.budget)]

def mlaChecks (c : Ctx) (p : Reg) : List Chk :=
  let pcw := c.cr[crPcw]
  let a := c.par p 0
  let b := c.par p 1
  let d := c.par p 2
  let t := c.par p 3
  let m := d.bits 8 6 + 1
  let nb := ceilDiv (pcwKact pcw) 32
  [mbz a 53 11, mbz a 31 1, .legal (a.bits 32 21 % 4 = 0), mbz b 48 16, mbz b 31 1, mbz d 14 50, mbz d 6 2,
   .legal (d.bits 0 6 + m ≤ 64), mbz t 31 33] ++
  area (a.bits 0 31) (rowsLen m (a.bits 32 21) (nb * 4 * wordsPerBlock (pcwAf pcw))) 4 ++
  (if pcwAf pcw = 9 then [] else area (b.bits 0 31) (rowsLen m (b.bits 32 16) nb) 1) ++
  (if pcwTscale pcw then area (t.bits 0 31) (4 * m) 4 else [])

/-- The multiplies; `mode` is the SPARSE value that the opcode needs. -/
def mulChecks (c : Ctx) (p : Reg) (mode : Nat) : List Chk :=
  let pcw := c.cr[crPcw]
  let a := c.par p 0
  let m := a.bits 24 6 + 1
  [mbz a 41 23, mbz a 38 2, mbz a 30 2, mbz a 22 2, mbz a 11 5, .legal (a.bits 32 6 + m ≤ 64 && a.bits 16 6 + m ≤ 64),
   .pcw (pcwSparse pcw = mode), granules (a.bits 0 11) (pcwGranules pcw c.budget)]

/-- Bytes of an output row of MDR, and of its side entries (R186). -/
def mdrRowLen (dfmt nact : Nat) : Nat :=
  match dfmt with
  | 0 | 9 => 4 * nact
  | 2 => 2 * nact
  | 1 => ceilDiv nact 32 * 4 * 13
  | f => ceilDiv nact 32 * 4 * wordsPerBlock (f - 3)
def mdrSideLen (dfmt nact : Nat) : Nat :=
  if dfmt = 0 || dfmt = 2 || dfmt = 9 then 0 else ceilDiv nact 32

def mdrChecks (c : Ctx) (p : Reg) : List Chk :=
  let pcw := c.cr[crPcw]
  let a := c.par p 0
  let b := c.par p 1
  let d := c.par p 2
  let m := a.bits 40 6 + 1
  let f := a.bits 48 4
  let n := pcwNact pcw
  [mbz a 57 7, mbz a 46 2, mbz a 38 2, mbz a 31 1, .legal (a.bits 52 3 < 6 && f < 10 && a.bits 32 6 + m ≤ 64),
   mbz b 53 11, mbz b 31 1, .legal (b.bits 32 21 % 4 = 0), mbz d 48 16, mbz d 11 21] ++
  area (a.bits 0 31) (rowsLen m (b.bits 32 21) (mdrRowLen f n)) 4 ++
  (if mdrSideLen f n = 0 then [] else area (b.bits 0 31) (rowsLen m (d.bits 32 16) (mdrSideLen f n)) 1)

def mzaChecks (c : Ctx) (p : Reg) : List Chk :=
  let a := c.par p 0
  [mbz a 14 50, mbz a 6 2, .legal (a.bits 0 6 + a.bits 8 6 + 1 ≤ 64)]

def mrbChecks (c : Ctx) (p : Reg) : List Chk :=
  let a := c.par p 0
  mbz a 31 33 :: area (a.bits 0 31) (pcwNact c.cr[crPcw]) 1

def mstatChecks (c : Ctx) (p : Reg) : List Chk :=
  let a := c.par p 0
  [mbz a 33 31, mbz a 31 1] ++ area (a.bits 0 31) 80 8

/-! Region and list commands. -/

/-- RGMAP (R206); in verify layout the region ends below the shadows (R312). -/
def rgmapChecks (s : State) (c : Ctx) (p : Reg) : List Chk :=
  let a := c.par p 0
  let b := c.par p 1
  let d := c.par p 2
  let sa := a.bits 0 31
  let size := d.bits 0 22
  let top := if (s.coreAt (sa / 2 ^ 22)).verify then 0x200000 else 0x400000
  [mbz a 31 33, .legal (64 ≤ sa % 2 ^ 22), mbz b 57 7, mbz d 25 39,
   .legal (d.bits 22 2 < 3 && size % 64 = 0 && 64 ≤ size && size ≤ 0x3FFF80),
   .aligned (wordOfNat sa) 64, .aligned b 64, .inside (sa / 2 ^ 22 < 288 && sa % 2 ^ 22 + size + 64 ≤ top) (wordOfNat sa)]

/-- RGWB and RGINV (R207). -/
def rgwbChecks (c : Ctx) (p : Reg) : List Chk :=
  let a := c.par p 0
  [mbz a 33 31, mbz a 31 1, .inside (a.bits 0 31 / 2 ^ 22 < 288) (wordOfNat (a.bits 0 31))]

/-- WLPOP (R215). -/
def wlpopChecks (c : Ctx) (p : Reg) : List Chk :=
  let a := c.par p 0
  let b := c.par p 1
  [mbz a 44 20, mbz a 31 1, mbz b 31 33] ++ area (a.bits 0 31) 64 64 ++ area (b.bits 0 31) (8 + 8 * (a.bits 32 12 + 1)) 8

/-! Engine commands. -/

/-- Bytes of a side entry (R57): 4 for AINT, 1 for the other formats with a side bank, 0 for S8. -/
def sideEntry (f : Nat) : Nat := if isAint f then 4 else if f = 9 then 0 else 1

/-- The width in bits of an element of a format in element layout (R51). -/
def elemBits : Nat → Nat
  | 0 | 7 => 4
  | 1 | 2 => 6
  | 6 => 16
  | _ => 8

/-- Fields of CPY (R227). -/
def cpyLen (l : Word) : Nat := l.bits 0 32
def cpyRows (l : Word) : Nat := l.bits 32 24 + 1
def cpyMode (f : Word) : Nat := f.bits 0 4
def cpyFmt (f : Word) : Nat := f.bits 4 4
def cpyZfill (f : Word) : Bool := f.getLsbD 15
def cpyGroup (f : Word) : Nat := 32 * 2 ^ f.bits 20 2

/-- Side entries of a row (R229); a group that LEN ends within has one too (R57; log entry 37). -/
def cpySides (f : Word) (len : Nat) : Nat := if isAint (cpyFmt f) then ceilDiv len (cpyGroup f) else ceilDiv len 32

/-- CPY (R227, R229 to R232). -/
def cpyChecks (c : Ctx) (p : Reg) : List Chk :=
  let sa := c.par p 0
  let da := c.par p 1
  let l := c.par p 2
  let st := c.par p 3
  let ss := c.par p 4
  let ds := c.par p 5
  let f := c.par p 6
  let nb := c.par p 7
  let rec_ := c.par p 8
  let mode := cpyMode f
  let fmt := cpyFmt f
  let len := cpyLen l
  let n := cpyRows l
  let conv := mode = 1 || mode = 2
  let elemRow := ceilDiv (len * elemBits fmt) 8
  let planeRow := ceilDiv len 32 * 4 * wordsPerBlock fmt
  let sideLen := n * (sideEntry fmt * cpySides f len)
  let srow := if mode = 1 then elemRow else if mode = 2 then planeRow else len
  let drow := if mode = 1 then planeRow else if mode = 2 then elemRow else len
  [mbz l 56 8, .legal (1 ≤ len), mbz f 22 42, mbz f 17 3, mbz f 14 1, mbz f 8 3, .legal (mode < 5),
   .legal (if conv then fmt < 10 else fmt = 0), .legal (f.bits 20 2 != 3 && (f.bits 20 2 = 0 || (conv && isAint fmt))),
   .legal (!cpyZfill f || mode = 0), .legal (f.getLsbD 16 || nb = 0), .legal (conv || mode = 3 || ss = 0), .legal (conv || ds = 0)] ++
  (if rec_ = 0 then [] else addrWord rec_ 16 8) ++
  (match mode with
    | 0 => addrWord sa (if cpyZfill f then 1 else rowsLen n (st.bits 32 32) len) 1 ++ addrWord da (rowsLen n (st.bits 0 32) len) 1
    | 1 =>
      [.legal (!(isAint fmt && len % 32 != 0)), .legal (!((fmt = 9 || fmt = 6) && ss != 0)), .legal (!(fmt = 9 && ds != 0))] ++
      addrWord sa (rowsLen n (st.bits 32 32) srow) 1 ++ scratchOnly da (rowsLen n (st.bits 0 32) drow) 1 ++
      (if fmt = 9 || fmt = 6 then [] else addrWord ss sideLen 1) ++ (if fmt = 9 then [] else scratchOnly ds sideLen 1)
    | 2 =>
      [.legal (!(isAint fmt && len % 32 != 0)), .legal (!((fmt = 9 || fmt = 6) && ds != 0)), .legal (!(fmt = 9 && ss != 0))] ++
      scratchOnly sa (rowsLen n (st.bits 32 32) srow) 1 ++ addrWord da (rowsLen n (st.bits 0 32) drow) 1 ++
      (if fmt = 9 then [] else scratchOnly ss sideLen 1) ++ (if fmt = 9 || fmt = 6 then [] else addrWord ds sideLen 1)
    | 3 =>
      .legal (len % 8 = 0 && n % 8 = 0) ::
      (addrWord sa (rowsLen n (st.bits 32 32) len) 1 ++ addrWord da (rowsLen n (st.bits 0 32) len) 1)
    | _ =>
      [.allowed c.kernel, .legal (len = 2 ^ 12 || len = 2 ^ 16 || len = 2 ^ 21 || len = 2 ^ 30), .legal (st = 0),
       mbz da 57 7, mbz da 1 11, .aligned (da &&& ~~~1#64) len] ++ virtOnly sa len)

/-- CPR (R233). -/
def cprChecks (c : Ctx) (p : Reg) : List Chk :=
  let l := c.par p 2
  let f := c.par p 3
  [mbz l 44 20, .legal (1 ≤ l.bits 0 32), mbz f 17 47, mbz f 15 1, mbz f 0 11] ++
  addrWord (c.par p 0) (l.bits 0 32) 1 ++ remoteVa (c.par p 1) 1

/-- Element bytes of a reduction (R234). -/
def crdBytes (op : Nat) : Nat := if op = 0 || op = 9 then 4 else if op = 10 then 2 else 8

/-- CRD (R234); a rounding sum is refused in a deterministic queue. -/
def crdChecks (s : State) (n : Nat) (c : Ctx) (p : Reg) : List Chk :=
  let l := c.par p 2
  let f := c.par p 3
  let op := f.bits 0 4
  let e := crdBytes op
  [mbz l 44 20, mbz f 17 47, mbz f 14 2, mbz f 4 7, .legal (op < 11), .legal (l.bits 0 32 % e = 0),
   .legal (!(9 ≤ op && s.isDeterministic n))] ++ addrWord (c.par p 0) (l.bits 0 32) e ++ remoteVa (c.par p 1) e

/-- CSG (R235). -/
def csgChecks (c : Ctx) (p : Reg) : List Chk :=
  let a := c.par p 0
  let b := c.par p 1
  [mbz b 45 19, .legal (b.getLsbD 44 || b.bits 32 12 = 0)] ++ (if b.getLsbD 44 then remoteVa a 8 else addrWord a 8 8)

/-- An index or row area lies in a slice of the issuing cluster (R236). -/
def inCluster (n sa : Nat) : Chk := .inside (sa / 2 ^ 22 / 4 = n / 16) (wordOfNat sa)

/-- GTH, SCT and SCA (R236). -/
def gatherChecks (n : Nat) (c : Ctx) (p : Reg) (sca : Bool) : List Chk :=
  let b := c.par p 1
  let idx := c.par p 2
  let rows := c.par p 3
  let f := c.par p 4
  let et := f.bits 48 3
  let count := f.bits 0 16 + 1
  [.legal (b.bits 32 32 % 4 = 0 && 1 ≤ b.bits 0 32), mbz idx 31 33, mbz rows 31 33, mbz f 54 10, mbz f 16 16,
   .legal (f.bits 52 2 != 3), .legal (if sca then et ∈ [0, 1, 2, 3, 6] else et = 0)] ++
  virtOnly (c.par p 0) 1 ++ area (idx.bits 0 31) (4 * count) 4 ++ [inCluster n (idx.bits 0 31)] ++
  area (rows.bits 0 31) (4 * (f.bits 32 16 + 1) * count) 4 ++ [inCluster n (rows.bits 0 31)]

/-- Which sparse command. -/
inductive SparseOp where
  | load | store | add
deriving DecidableEq, Repr

/-- SPL, SPS and SPA (R238, R239). -/
def keyChecks (s : State) (n : Nat) (c : Ctx) (p : Reg) (op : SparseOp) : List Chk :=
  let crd := c.par p 1
  let f := c.par p 3
  let et := f.bits 45 3
  let count := f.bits 32 12 + 1
  [mbz crd 31 33, mbz f 48 16, mbz f 31 1, .legal (op = .add || et = 0), .legal (op = .store || !f.getLsbD 44),
   .legal (!(op = .add && et < 3 && s.isDeterministic n))] ++ virtOnly (c.par p 0) 4096 ++
  area (crd.bits 0 31) (32 * count) 8 ++ addrWord (c.par p 2) 1 8 ++ area (f.bits 0 31) count 1

/-- SPI (R241). -/
def spiChecks (c : Ctx) (p : Reg) : List Chk :=
  let cur := c.par p 1
  let f := c.par p 3
  [mbz cur 31 33, mbz f 44 20, mbz f 0 32] ++ virtOnly (c.par p 0) 4096 ++ area (cur.bits 0 31) 16 8 ++ addrWord (c.par p 2) 8 8

/-- SPD (R242). -/
def spdChecks (c : Ctx) (p : Reg) : List Chk :=
  let box := c.par p 1
  mbz box 31 33 :: (virtOnly (c.par p 0) 4096 ++ area (box.bits 0 31) 64 1 ++ addrWord (c.par p 2) 1 8)

/-- The checks of the commands with parameter registers. -/
def paramChecks (s : State) (n : Nat) (c : Ctx) : Instr → List Chk
  | .mlw p _ _ _ _ => mlwChecks c p
  | .mla p _ _ _ _ => mlaChecks c p
  | .mma p _ _ _ _ => mulChecks c p 0
  | .mman p _ _ _ _ => mulChecks c p 1
  | .mmab p _ _ _ _ => mulChecks c p 2
  | .mdr p _ _ _ _ => mdrChecks c p
  | .mza p _ _ _ _ => mzaChecks c p
  | .mrb p _ _ _ _ => mrbChecks c p
  | .mstat p _ _ _ _ => mstatChecks c p
  | .rgmap p _ _ _ _ => rgmapChecks s c p
  | .rgwb p _ _ _ _ => rgwbChecks c p
  | .rginv p _ _ _ _ => rgwbChecks c p
  | .wlpop p _ _ _ _ => wlpopChecks c p
  | .cpy p _ _ _ _ => cpyChecks c p
  | .cprWrite p _ _ _ _ | .cprRead p _ _ _ _ => cprChecks c p
  | .crd p _ _ _ _ => crdChecks s n c p
  | .csg p _ _ _ _ _ => csgChecks c p
  | .gth p _ _ _ _ | .sct p _ _ _ _ => gatherChecks n c p false
  | .sca p _ _ _ _ => gatherChecks n c p true
  | .spl p _ _ _ _ => keyChecks s n c p .load
  | .sps p _ _ _ _ => keyChecks s n c p .store
  | .spa p _ _ _ _ => keyChecks s n c p .add
  | .spi p _ _ _ _ => spiChecks c p
  | .spd p _ _ _ _ => spdChecks c p
  | .lnch p _ _ _ _ => addrWord (c.par p 0) 128 64
  | _ => []

end Sys2Proof.Machine
end

