-- ==== Sys2Proof/Machine/Issue.lean ====
section
/-! DEFINITION. Issue of a bundle (spec/03_encoding.md, R79 to R84, R91 to R98; spec/04_scalar.md, R124 to R126): the static checks,
the stalls, the faults at issue, and what follows when the bundle has issued. -/

namespace Sys2Proof.Machine

/-! Static checks: steps 2 to 5 of R84. -/

/-- A command sequencer has no such slot (R35, R190, R217, R252). -/
def seqIllegal (i : Instr) : Bool :=
  match cls i with
  | .v | .x => true
  | _ =>
    match i with
    | .ldv _ _ _ _ | .stv _ _ _ _ | .bar _ | .tend => true
    | .rgmap _ _ _ _ _ | .rgwb _ _ _ _ _ | .rginv _ _ _ _ _ => true
    | .gth _ _ _ _ _ | .sct _ _ _ _ _ | .sca _ _ _ _ _ | .spl _ _ _ _ _ | .sps _ _ _ _ _ | .spa _ _ _ _ _
    | .spi _ _ _ _ _ | .spd _ _ _ _ _ => true
    | .mfc _ k | .mtc _ k => k = 0x0B || k = 0x0D
    | _ => false

/-- The slot is privileged in task mode by its word alone (R249, R252). -/
def privSlot : Instr → Bool
  | .sysRft | .sysHalt | .sysTlbi _ | .sysTlbia | .sysGsw _ | .sysCut _ | .sysCeresume _ | .sysSrgrow _ => true
  | .mfc _ k => k.toNat ∈ [1, 2, 3, 4, 5, 0x14, 0x17]
  | .mtc _ k => k.toNat ∈ [1, 2, 3, 4, 5, 0x13, 0x14, 0x15, 0x17]
  | _ => false

/-- A REP step is zero for the fields that hold no register number in the target's format (R92). -/
def repStepsOk (ds as bs : BitVec 2) (target : Instr) : Bool :=
  let op := opOf target
  let noB := (0x04 ≤ op && op ≤ 0x0F) || (0x54 ≤ op && op ≤ 0x60) || cls target = .e ||
    (0x49 ≤ op && op ≤ 0x51) || (0x66 ≤ op && op ≤ 0x69) || op = 0x6B || cls target = .z || op = 0x1A || (0x1D ≤ op && op ≤ 0x1F)
  let noA := (0x0D ≤ op && op ≤ 0x0F) || op = 0x1B || cls target = .e || (0x49 ≤ op && op ≤ 0x51) || (0x67 ≤ op && op ≤ 0x69) || op = 0x6B
  let noD := op = 0x2D || op = 0x43 || op = 0x44
  (!noB || bs = 0) && (!noA || as = 0) && (!noD || ds = 0)

/-- The REP that stands in slot k, if any, with its target's step rule broken. -/
def repIllegal : List (Option Instr) → Bool
  | some (.rep _ ds as bs) :: some t :: _ => !repStepsOk ds as bs t
  | _ => false

/-- Step 3: the lowest slot that is no legal instruction for the agent. -/
def illegalSlot (seq : Bool) : Nat → List (Option Instr) → Option Nat
  | _, [] => none
  | k, o :: t =>
    match o with
    | none => some k
    | some i => if !i.wf || (seq && seqIllegal i) || repIllegal (o :: t) then some k else illegalSlot seq (k + 1) t

def countCls (l : List Instr) (k : Cls) : Nat := l.countP fun i => cls i = k

/-- The class limits of R80 and the pipes of R81 hold for these slots. -/
def limitsOk (l : List Instr) : Bool :=
  countCls l .s ≤ 2 && countCls l .v ≤ 2 && (l.countP fun i => cls i = .v && !pipe1 (opOf i)) ≤ 1 && countCls l .x ≤ 1 &&
  countCls l .l ≤ 1 && countCls l .e ≤ 1 && countCls l .c ≤ 1 && countCls l .z ≤ 1 &&
  (l.countP fun i => match i with | .rep _ _ _ _ => true | _ => false) ≤ 1

/-- The slots for the rule on places: a REP whose target is the slot stepped over is passed over with it, since that target counts as NOP
(R259). -/
def withoutStep (skip : Option Nat) (l : List Instr) : List Instr :=
  match skip with
  | some (k + 1) => (match l[k]? with | some (.rep _ _ _ _) => l.take k ++ l.drop (k + 2) | _ => l)
  | _ => l

/-- A slot of class C is the last slot; REP is not, and its target is of class S, V, X, L or E; beside a Z slot stand only S and
NOP (R80, R92). -/
def placesOk : List Instr → Bool
  | [] => true
  | i :: t =>
    (cls i != .c || t.isEmpty) &&
    (match i with
      | .rep _ _ _ _ => (match t with
          | [] => false
          | j :: _ => cls j != .c && cls j != .z && cls j != .n)
      | _ => true) && placesOk t

def zPartnersOk (l : List Instr) : Bool :=
  countCls l .z = 0 || l.all fun i => cls i = .z || cls i = .s || i = .nop

/-- Step 4: the rules of R80 to R82; `skip` is a slot that RFT steps over. -/
def bundleOk (skip : Option Nat) (l : List Instr) : Bool :=
  limitsOk l && placesOk (withoutStep skip l) && zPartnersOk l && destsDistinct (l.map uses)

/-- The shortest prefix that breaks a limit names the slot; a rule that no prefix breaks names the last slot. -/
def bundleSlot (l : List Instr) : Nat :=
  ((upTo l.length).find? fun k => !limitsOk (l.take (k + 1)) || !destsDistinct ((l.take (k + 1)).map uses)).getD (l.length - 1)

/-- The first fault of steps 3 to 5 and its slot. -/
def staticFault (kernel seq : Bool) (skip : Option Nat) (slots : List (Option Instr)) : Option (Cause × Nat) :=
  match illegalSlot seq 0 slots with
  | some k => some (.illegalInstruction, k)
  | none =>
    let l := slots.filterMap id
    if !bundleOk skip l then some (.illegalBundle, bundleSlot l)
    else if kernel then none
    else (l.findIdx? privSlot).map fun k => (.privileged, k)

/-! Stalls, WAITC, and the faults of steps 6 and 7. -/

/-- The three engine queues of a core (R357). -/
inductive Queue where
  | matrix | memory | copy
deriving DecidableEq, Repr

def queueOf (i : Instr) : Option Queue :=
  let op := opOf i
  if 0x49 ≤ op && op ≤ 0x51 then some .matrix
  else if (0x67 ≤ op && op ≤ 0x69) || op = 0x6B then some .memory
  else if 0x6D ≤ op && op ≤ 0x79 then some .copy else none

/-- The command has been handed to another unit, a gather, sparse or LNCH one: it holds no entry any more (R357). -/
def handedOver (c : Cmd) : Bool := 0x71 ≤ opOf c.ins && c.st != .queued

/-- The remaining estimate of a command (R358). -/
def remaining (now : Nat) (c : Cmd) : Nat :=
  match c.st with
  | .queued => c.est
  | .held => c.est
  | _ => c.est - (now - c.startAt)

/-- The queue is full, or the context's backlog is above SLACK (R358). -/
def engineStall (s : State) (n : Nat) (c : Ctx) (i : Instr) : Bool :=
  match queueOf i with
  | none => false
  | some q =>
    let sameQueue := fun (m : Cmd) => m.kind = .slot && queueOf m.ins = some q && !handedOver m
    let held := s.cmds.countP fun m => sameQueue m && (if isSeq n then m.agent = n else !isSeq m.agent && coreOf m.agent = coreOf n)
    let backlog := (s.cmds.filter fun m => sameQueue m && m.agent = n).foldl (fun a m => a + remaining s.now m) 0
    16 ≤ held || c.cr[crSlack].bits 0 12 < backlog

def isStvIns : Instr → Bool
  | .stv _ _ _ _ => true
  | _ => false

/-- A slot that the replay queue would have to hold at a stop (R397). -/
def replays (i : Instr) : Bool := (isMem i || (accDestX i).isSome) && !staysInPath i

/-- The replay queue would not have room for what the bundle adds: its issue waits for the memory path, which is no stall (R137, R397; log
entry 8). -/
def pathFull (c : Ctx) (l : List Instr) : Bool :=
  (l.any replays && 32 < c.acc.countP (fun a => !staysInPath a.ins) + l.countP replays) ||
    (l.any isStvIns && 16 < c.acc.countP (fun a => isStvIns a.ins) + l.countP isStvIns)

/-- Everything an RFT waits for has come (R403). -/
def Ctx.quietForRft (c : Ctx) : Bool := c.acc.isEmpty && c.fullX = BitVec.allOnes 64

/-- TKW waits for its tokens, BAR for its group, of which a group of one has no need (R127, R130); RFT reads its frame, and may be
rejected for it, once every access of the handler has been performed (R403, R404). -/
def ownStall (c : Ctx) : Instr → Bool
  | .tkw ka kb kc => (c.getK ka).busy || (c.getK kb).busy || (c.getK kc).busy
  | .bar _ => c.grp.isSome && c.passed != some c.pc
  | .sysRft => c.frames != 0 && !c.quietForRft
  | _ => false

/-- Some stall cause of R107 holds that is not the wait of a TKW, a WAITC or a BAR. -/
def resourceStall (s : State) (n : Nat) (l : List Instr) (rep : Nat) : Bool :=
  let c := s.ctxAt n
  l.any fun i => sourceStall c i || destStall s n c i || tokenStall c i rep || engineStall s n c i

/-- Some stall cause of R107 holds, WAITC apart. -/
def stalls (s : State) (n : Nat) (l : List Instr) (rep : Nat) : Bool :=
  resourceStall s n l rep || l.any (ownStall (s.ctxAt n))

/-- A context whose bundle waits for nothing but its BAR arrives at the barrier (R130, R131). -/
def State.arrive (s : State) (n : Nat) (l : List Instr) : State :=
  let c := s.ctxAt n
  match l.getLast?, c.grp with
  | some (.bar id), some g =>
    if c.arrived || c.passed = some c.pc || resourceStall s n l 0 then s
    else
      let bars := if s.bars.any (fun b => b.grp = g && b.id = id) then
          s.bars.map fun b => if b.grp = g && b.id = id then { b with arrived := b.arrived ++ [n] } else b
        else s.bars ++ [{ grp := g, id := id, arrived := [n] }]
      { s.modCtx n (fun c => { c with arrived := true }) with bars := bars }
  | _, _ => s

/-- The condition of a WAITC (R128). -/
def waitCond (k : WCond) (w b : Word) : Bool :=
  match k with
  | .ge => b.sle w
  | .eq => w = b
  | .ne => w != b
  | .geu => b.ule w

inductive WaitRes where
  | yes | no
  | flt (c : Cause) (a : Word)
deriving DecidableEq, Repr

/-- One read of a WAITC (R128, R129): its faults, then the condition on the word. -/
def waitRead (s : State) (n : Nat) (addr b : Word) (k : WCond) : State × WaitRes :=
  let c := s.ctxAt n
  match firstFault (addrChecks s addr 8 8) with
  | some (cs, a) => (s, .flt cs a)
  | none =>
    let (s, r) := match coreTarget addr with
      | .scratch sa => (s, Except.ok ({ key := scrKey sa } : Piece))
      | .virt va =>
        let (s, r) := s.translate (unitOf n) c.job c.root va 8 { kernel := c.kernel, sync := true }
        (s, r.map fun (p : Word × Piece) => p.2)
      | .nonCanonical => (s, .error .nonCanonical)
    match r with
    | .error e => (s, .flt e addr)
    | .ok p =>
      let e : Access := { sn := c.sn, ins := .lda 0 0 false .w64 .dev, ea := addr, st := .ready p none }
      if !mayPerform s n e || !soFree c e p || !s.readable n p.key then (s, .no)
      else match (s.beginSo n p).raceCheck c.task c.hold p.key 8 false with
        | none => (s, .flt .race (raceAddr addr))
        | some s =>
          let s := (s.touch p.key 8 false (agentCode n)).forgetAt n p.key
          if s.isPoison n p.key then (s, .flt .poison addr)
          else (s, if waitCond k (s.view n p.key) b then .yes else .no)

/-- The faults of step 7 that a slot decides. -/
def slotFault (s : State) (n : Nat) (i : Instr) : Option Flt :=
  let c := s.ctxAt n
  match i with
  | .trap _ => some (.trap, 0)
  | _ => firstFault (ownChecks s n c i ++ paramChecks s n c i)

/-- TINFO of a fault at issue (R255). -/
def issueInfo (slot len op detail : Nat) : Word := wordOfNat (slot + (len - 1) <<< 3 + op <<< 6 + detail <<< 32)

/-- What the checks decide: to issue, to stall, to wait for room in the memory path, or a trap. -/
inductive Verdict where
  | go | stall | hold
  | trap (t : TrapInfo)
deriving DecidableEq, Repr

/-- The trap of a fault at issue in slot k of a bundle of len slots at pc. -/
def issueTrap (pc : Word) (len k : Nat) (i : Option Instr) (cause : Cause) (addr : Word) (detail : Nat) : TrapInfo :=
  { cause := cause, tpc := pc, taddr := addr, tinfo := issueInfo k len ((i.map opOf).getD 0) detail
    code := (match i with | some (.trap n) => if cause = .trap then n.toNat else 0 | _ => 0)
    stepover := cause = .trap }

/-- The lowest slot with a fault of step 6, else the lowest with one of step 7. -/
def lateFault (s : State) (n : Nat) (pc : Word) (len base : Nat) (l : List Instr) : Option TrapInfo :=
  let c := s.ctxAt n
  match (l.zipIdx base).findSome? fun (p : Instr × Nat) => (step6 c p.1).map fun r => issueTrap pc len p.2 (some p.1) r.1 0 r.2 with
  | some t => some t
  | none => (l.zipIdx base).findSome? fun (p : Instr × Nat) => (slotFault s n p.1).map fun r => issueTrap pc len p.2 (some p.1) r.1 r.2 0

/-- Stalls, then WAITC with its own faults, then steps 6 and 7 (R84, R107). `base` is the slot number of the first of l, `rep` the
repeat index of a later repeat. -/
def judge (s : State) (n : Nat) (pc : Word) (len base : Nat) (l : List Instr) (rep : Nat) : State × Verdict :=
  if stalls s n l rep then (s.arrive n l, .stall)
  else if pathFull (s.ctxAt n) l then (s, .hold)
  else
    let c := s.ctxAt n
    let late := fun (s : State) => match lateFault s n pc len base l with
      | some t => (s, Verdict.trap t)
      | none => (s, .go)
    match l.getLast? with
    | some (.waitc a b wa wb sc k) =>
      let i := Instr.waitc a b wa wb sc k
      let slot := base + l.length - 1
      if c.satisfied then late s
      else match step6 c i with
        | some _ => late s
        | none =>
          match waitRead s n (c.getX a) (c.getX b) k with
          | (s, .yes) => late ((s.acquire n (scopeCode sc)).modCtx n fun c => { c with satisfied := true })
          | (s, .no) => (s, .stall)
          | (s, .flt cs ad) => (s, .trap (issueTrap pc len slot (some i) cs ad 0))
    | _ => late s

/-! The end of a bundle. -/

/-- The loop-end check of R125, from the highest level down: the next address, if a level jumps back. -/
def loopEnd (pc : Word) (len : Nat) : List Nat → Ctx → Ctx × Option Word
  | [], c => (c, none)
  | k :: t, c =>
    match c.loops[k]? with
    | none => (c, none)
    | some l =>
      if l.active && pc.toNat ≤ l.stop.toNat && l.stop.toNat < pc.toNat + 4 * len then
        if 1 < l.remaining.toNat then
          ({ c with loops := c.loops.set! k { l with remaining := l.remaining - 1 } }, some l.start)
        else loopEnd pc len t { c with loops := c.loops.set! k { l with active := false } }
      else loopEnd pc len t c

/-- A taken transfer to target deactivates the levels whose body it leaves and every higher one (R126). -/
def leaveLoops (target : Word) (c : Ctx) : Ctx :=
  let hit := (upTo 4).find? fun k => match c.loops[k]? with
    | some l => l.active && !(l.start.toNat ≤ target.toNat && target.toNat ≤ l.stop.toNat)
    | none => false
  match hit with
  | none => c
  | some k => { c with loops := Vector.ofFn fun i => if k ≤ i.val then { c.loops[i] with active := false } else c.loops[i] }

/-- Begin to issue: the checks are done. -/
def openBundle (s : State) (pc : Word) (len slot rep : Nat) (left : Option Nat) : State :=
  let c := s.ctxAt s.cur
  { s with iss := { isOpen := true, pc := pc, len := len, slot := slot, repIdx := rep, repLeft := left, toks := c.k, fullV := c.fullV } }

/-- Everything a drain of RFT waits for has come (R403). -/
def rftReady (s : State) (n : Nat) : Bool := (s.ctxAt n).quietForRft

/-- Where a context goes after a bundle: on with the repeats of a REP, to the target of a taken transfer, at once or after the last
repeat, back to the start of a loop level, or to the word that follows (R93, R94, R125). -/
def goOn (iss : Iss) (left : Nat) (c : Ctx) : Ctx × Word :=
  if left != 0 then ({ c with repNext := if iss.taken then some iss.next else c.repNext }, iss.pc)
  else if iss.taken then (c, iss.next)
  else if c.repNext.isSome then ({ c with repNext := none }, c.repNext.getD 0)
  else
    let r := loopEnd iss.pc iss.len [3, 2, 1, 0] c
    (r.1, r.2.getD (iss.pc + wordOfNat (4 * iss.len)))

/-- The context after its bundle has issued: control registers written by it govern, results age and land, the program counter moves
(R83, R95). -/
def closedCtx (iss : Iss) (c0 : Ctx) : Ctx :=
  let c := c0.applyMtc.tickPending
  let left := iss.repLeft.getD 0
  let c := if iss.repLeft.isSome then c.setCr crRepc (wordOfNat left) else c
  let r := goOn iss left c
  { r.1 with pc := if r.1.drain = .rft then r.1.pc else r.2
             st := if r.1.drain = .none || r.1.drain = .halt || left != 0 then .selected else .stalled
             repOn := left != 0
             satisfied := false, arrived := false, stepover := none }

/-- The bundle has issued, and its core counts it (R359). -/
def closed (s0 : State) : State :=
  let n := s0.cur
  let s := { s0 with iss := {} }.setCtx n (closedCtx s0.iss (s0.ctxAt n))
  if isSeq n then s else s.modCore (coreOf n) fun k => { k with sel := some (n % 4), last := n % 4, count := k.count + 1 }

/-- The context's next bundle cannot issue, or it has none: its core looks for another context, and its quantum starts again (R13, R137,
R359). -/
def State.passOver (s : State) (n : Nat) : State :=
  if isSeq n then s else s.modCore (coreOf n) fun k => { k with sel := none, last := n % 4, count := 0 }

/-- The end of a bundle: a trap that follows it is taken (R127, R130), a return from a trap completes when nothing holds it (R403). -/
def closeBundle (s0 : State) : Out :=
  let s := closed s0
  let c := s.ctxAt s0.cur
  match s0.iss.post with
  | some (cause, addr, info, imp) =>
    takeTrap s s0.cur { cause := cause, tpc := c.pc, taddr := addr, tinfo := info, imprecise := imp }
  | none =>
    if c.drain = .rft && rftReady s s0.cur then
      returnFromTrap (s.modCtx s0.cur Ctx.landAll) s0.cur s0.iss.pc c.drainSlot c.drainLen
    else if c.drain = .none then .next s
    else .next (s.passOver s0.cur)

/-- The context's next bundle cannot issue: it is Stalled, and the core looks for another context (R13, R361). -/
def stallCtx (s : State) (n : Nat) : State := (s.modCtx n fun c => { c with st := .stalled }).passOver n

/-- Issue one slot: inside an open bundle only its effect; alone as a bundle of one slot, with every check before it and the end of
the bundle after it. -/
def issue (i : Instr) (eff : State → Out) (s : State) : Out :=
  if s.iss.isOpen then eff s
  else
    let n := s.cur
    let c := s.ctxAt n
    match staticFault c.kernel (isSeq n) none [some i] with
    | some (cs, k) => takeTrap s n (issueTrap c.pc 1 k (some i) cs 0 0)
    | none =>
      match judge s n c.pc 1 0 [i] 0 with
      | (s, .stall) => .next (stallCtx s n)
      | (s, .hold) => .next s
      | (s, .trap t) => takeTrap s n t
      | (s, .go) => andThen (eff (openBundle s c.pc 1 0 0 none)) closeBundle

/-- Add an access or a variable-latency producer to the memory path at time `now`, with its issue number, its mode and its captured
operands; its destination is empty from now on (R99, R397). The first one of a handler is what its entry window waits for (R406). -/
def Ctx.queue (c : Ctx) (now : Nat) (i : Instr) (f : Ctx → Access → Access) : Ctx :=
  let e := f c { sn := c.sn, ins := i, word := (encode i).getD 0, kernel := c.kernel, hold := c.hold, since := now }
  let w := if c.window.isOpen && c.window.first.isNone && isMem i then { c.window with first := some c.sn } else c.window
  { c.markDest i false with acc := c.acc ++ [e], sn := c.sn + 1, window := w }

def State.addAccess (s : State) (n : Nat) (i : Instr) (f : Ctx → Access → Access) : State :=
  s.modCtx n fun c => c.queue s.now i f

/-- An effect that always goes on. -/
def pureEff (f : State → State) : State → Out := fun s => .next (f s)

/-- An effect on the issuing context alone. -/
def onCtx (f : Ctx → Ctx) : State → Out := fun s => .next (s.modCtx s.cur f)

end Sys2Proof.Machine
end

