-- ==== Sys2Proof/Machine/Fetch.lean ====
section
/-! DEFINITION. Fetching the words of a bundle (R76, R79, R84 step 1, R123, R303). -/

namespace Sys2Proof.Machine

/-- Fetch one slot word at a virtual address: Non-canonical, the faults of its translation, Poison (R25, R303, R193). -/
def State.fetchWord (s : State) (n : Nat) (va : Word) : State × Except Cause SlotWord :=
  let c := s.ctxAt n
  if va.bits 57 7 != 0 then (s, .error .nonCanonical)
  else
    match s.translate (unitOf n) c.job c.root va.toNat 4 { kernel := c.kernel, fetch := true } with
    | (s, .error e) => (s, .error e)
    | (s, .ok (_, p)) =>
      let key := p.key / 8 * 8
      if s.isPoison n key then (s, .error .poison)
      else (s, .ok (BitVec.ofNat 32 ((s.view n key).bits (8 * (p.key % 8)) 32)))

/-- A fetched bundle: its words, or the fault and the address of the word that met it. -/
inductive Fetched where
  | words (l : List SlotWord)
  | flt (c : Cause) (a : Word)
deriving DecidableEq, Repr

/-- Fetch words from va until one has its stop bit, at most `fuel` of them (R79). -/
def fetchFrom (n : Nat) : Nat → Word → State → State × Fetched
  | 0, _, s => (s, .words [])
  | fuel + 1, va, s =>
    match s.fetchWord n va with
    | (s, .error e) => (s, .flt e va)
    | (s, .ok w) =>
      if stopBit w then (s, .words [w])
      else match fetchFrom n fuel (va + 4) s with
        | (s, .words l) => (s, .words (w :: l))
        | r => r

/-- The address after the bundle that holds the word at va; where a word cannot be fetched, that word's own address (R124). -/
def afterBundle (n : Nat) : Nat → Word → State → State × Word
  | 0, va, s => (s, va)
  | fuel + 1, va, s =>
    match s.fetchWord n va with
    | (s, .error _) => (s, va)
    | (s, .ok w) => if stopBit w then (s, va + 4) else afterBundle n fuel (va + 4) s

end Sys2Proof.Machine
end

