-- ==== Sys2Proof/Machine/Scalar.lean ====
section
/-! DEFINITION. The scalar instructions: NOP, the ALU and MUL groups, the immediate forms (spec/04_scalar.md, R112 to R119), REP
(R92, R93) and the generator's subfunctions (R71, R265). -/

namespace Sys2Proof.Machine

/-- 1 for true, 0 for false. -/
def boolWord (b : Bool) : Word := if b then 1 else 0

/-- Write x[D] with latency lat from the registers as they stand at issue (R83, R95). -/
def xRes (lat : Nat) (d : Reg) (f : Ctx → Word) : State → Out := onCtx fun c => c.addX lat d (f c)

/-- x[D] from x[A] and x[B]. -/
def xBin (lat : Nat) (d a b : Reg) (f : Word → Word → Word) : State → Out := xRes lat d fun c => f (c.getX a) (c.getX b)

/-- x[D] from x[A] and the sign-extended immediate (R118). -/
def xImm (d a : Reg) (imm : BitVec 11) (f : Word → Word → Word) : State → Out :=
  xRes 1 d fun c => f (c.getX a) (imm.signExtend 64)

/-! The functions of the ALU and MUL groups. -/

/-- ADD (R114). -/
def aluAdd (x y : Word) : Word := x + y
/-- SUB (R114). -/
def aluSub (x y : Word) : Word := x - y
/-- AND (R114). -/
def aluAnd (x y : Word) : Word := x &&& y
/-- OR (R114). -/
def aluOr (x y : Word) : Word := x ||| y
/-- XOR (R114). -/
def aluXor (x y : Word) : Word := x ^^^ y
/-- ANDN (R114). -/
def aluAndn (x y : Word) : Word := x &&& ~~~y
/-- SHL (R114). -/
def aluShl (x y : Word) : Word := x <<< (y.bits 0 6)
/-- SHR (R114). -/
def aluShr (x y : Word) : Word := x >>> (y.bits 0 6)
/-- SRA (R114). -/
def aluSra (x y : Word) : Word := x.sshiftRight (y.bits 0 6)
/-- ROR (R114). -/
def aluRor (x y : Word) : Word := x.rotateRight (y.bits 0 6)
/-- SLT (R114). -/
def aluSlt (x y : Word) : Word := boolWord (x.slt y)
/-- SLTN (R114). -/
def aluSltn (x y : Word) : Word := boolWord (x.ult y)
/-- SEQ (R114). -/
def aluSeq (x y : Word) : Word := boolWord (x = y)
/-- MIN (R114). -/
def aluMin (x y : Word) : Word := if y.slt x then y else x
/-- MAX (R114). -/
def aluMax (x y : Word) : Word := if x.slt y then y else x
/-- MUL (R115). -/
def aluMul (x y : Word) : Word := x * y
/-- MULH (R115). -/
def aluMulh (x y : Word) : Word := wordOfInt ((x.toInt * y.toInt) >>> 64)
/-- MULHN (R115). -/
def aluMulhn (x y : Word) : Word := wordOfNat ((x.toNat * y.toNat) >>> 64)
/-- MINN (R115). -/
def aluMinn (x y : Word) : Word := if y.ult x then y else x
/-- MAXN (R115). -/
def aluMaxn (x y : Word) : Word := if x.ult y then y else x

/-! The bit operations over an element of w bits (R69). -/

def clzNat (w v : Nat) : Nat := if v = 0 then w else w - 1 - Nat.log2 v
def ffsNat (w v : Nat) : Nat := ((upTo w).find? fun i => v.testBit i).elim 0 (· + 1)
def popcNat (w v : Nat) : Nat := (upTo w).countP fun i => v.testBit i
def brevNat (w v : Nat) : Nat := (upTo w).foldl (fun a i => if v.testBit i then a + 2 ^ (w - 1 - i) else a) 0

/-- Apply an element function to each element of w bits of a scalar (R69, R117). -/
def eachElem (f : Nat → Nat → Nat) (w : Nat) (v : Word) : Word :=
  wordOfNat ((upTo (64 / w)).foldl (fun a i => a + f w (v.bits (w * i) w) <<< (w * i)) 0)

/-! Division (R68). -/

def divS (a b : Word) : Word := if b = 0 then BitVec.allOnes 64 else wordOfInt (Int.tdiv a.toInt b.toInt)
def divN (a b : Word) : Word := if b = 0 then BitVec.allOnes 64 else wordOfNat (a.toNat / b.toNat)
def remS (a b : Word) : Word := if b = 0 then a else wordOfInt (Int.tmod a.toInt b.toInt)
def remN (a b : Word) : Word := if b = 0 then a else wordOfNat (a.toNat % b.toNat)

/-- The result of a division slot (R116). -/
def divResult (i : Instr) (a b : Word) : Word :=
  match i with
  | .div _ _ _ _ _ => divS a b
  | .divn _ _ _ _ _ => divN a b
  | .rem _ _ _ _ _ => remS a b
  | .remn _ _ _ _ _ => remN a b
  | _ => 0

/-- A division goes to the divider: its destination is empty until the result comes (R116). -/
def divEff (i : Instr) (a b : Reg) : State → Out := fun s =>
  .next (s.addAccess s.cur i fun c e => { e with va := c.getX a, vb := c.getX b })

/-! The slots. -/

/-- NOP changes nothing (R91). -/
def execNop (s : State) : Out := issue .nop (fun s => .next s) s

/-- REP: its target stands in the next slot and issues CNT more times after this bundle (R93). -/
def execRep (cnt : BitVec 6) (ds as bs : BitVec 2) (s : State) : Out :=
  issue (.rep cnt ds as bs) (fun s => .next { s with iss := { s.iss with repLeft := some cnt.toNat, repAt := some (s.iss.slot + 1) } }) s

def execAdd (d a b : Reg) (wa wb : Bool) (s : State) : Out :=
  issue (.add d a b wa wb) (xBin 1 d a b aluAdd) s

def execSub (d a b : Reg) (wa wb : Bool) (s : State) : Out :=
  issue (.sub d a b wa wb) (xBin 1 d a b aluSub) s

def execAnd (d a b : Reg) (wa wb : Bool) (s : State) : Out :=
  issue (.and d a b wa wb) (xBin 1 d a b aluAnd) s

def execOr (d a b : Reg) (wa wb : Bool) (s : State) : Out :=
  issue (.or d a b wa wb) (xBin 1 d a b aluOr) s

def execXor (d a b : Reg) (wa wb : Bool) (s : State) : Out :=
  issue (.xor d a b wa wb) (xBin 1 d a b aluXor) s

def execAndn (d a b : Reg) (wa wb : Bool) (s : State) : Out :=
  issue (.andn d a b wa wb) (xBin 1 d a b aluAndn) s

def execShl (d a b : Reg) (wa wb : Bool) (s : State) : Out :=
  issue (.shl d a b wa wb) (xBin 1 d a b aluShl) s

def execShr (d a b : Reg) (wa wb : Bool) (s : State) : Out :=
  issue (.shr d a b wa wb) (xBin 1 d a b aluShr) s

def execSra (d a b : Reg) (wa wb : Bool) (s : State) : Out :=
  issue (.sra d a b wa wb) (xBin 1 d a b aluSra) s

def execRor (d a b : Reg) (wa wb : Bool) (s : State) : Out :=
  issue (.ror d a b wa wb) (xBin 1 d a b aluRor) s

def execSlt (d a b : Reg) (wa wb : Bool) (s : State) : Out :=
  issue (.slt d a b wa wb) (xBin 1 d a b aluSlt) s

def execSltn (d a b : Reg) (wa wb : Bool) (s : State) : Out :=
  issue (.sltn d a b wa wb) (xBin 1 d a b aluSltn) s

def execSeq (d a b : Reg) (wa wb : Bool) (s : State) : Out :=
  issue (.seq d a b wa wb) (xBin 1 d a b aluSeq) s

def execMin (d a b : Reg) (wa wb : Bool) (s : State) : Out :=
  issue (.min d a b wa wb) (xBin 1 d a b aluMin) s

def execMax (d a b : Reg) (wa wb : Bool) (s : State) : Out :=
  issue (.max d a b wa wb) (xBin 1 d a b aluMax) s

def execMul (d a b : Reg) (wa wb : Bool) (s : State) : Out :=
  issue (.mul d a b wa wb) (xBin 3 d a b aluMul) s

def execMulh (d a b : Reg) (wa wb : Bool) (s : State) : Out :=
  issue (.mulh d a b wa wb) (xBin 3 d a b aluMulh) s

def execMulhn (d a b : Reg) (wa wb : Bool) (s : State) : Out :=
  issue (.mulhn d a b wa wb) (xBin 3 d a b aluMulhn) s

def execMinn (d a b : Reg) (wa wb : Bool) (s : State) : Out :=
  issue (.minn d a b wa wb) (xBin 1 d a b aluMinn) s

def execMaxn (d a b : Reg) (wa wb : Bool) (s : State) : Out :=
  issue (.maxn d a b wa wb) (xBin 1 d a b aluMaxn) s

/-- SEL reads the old x[D] as a third source (R114). -/
def execSel (d a b : Reg) (wa wb : Bool) (s : State) : Out :=
  issue (.sel d a b wa wb) (xRes 1 d fun c => if c.getX d != 0 then c.getX a else c.getX b) s

def execDiv (d a b : Reg) (wa wb : Bool) (s : State) : Out :=
  issue (.div d a b wa wb) (divEff (.div d a b wa wb) a b) s

def execDivn (d a b : Reg) (wa wb : Bool) (s : State) : Out :=
  issue (.divn d a b wa wb) (divEff (.divn d a b wa wb) a b) s

def execRem (d a b : Reg) (wa wb : Bool) (s : State) : Out :=
  issue (.rem d a b wa wb) (divEff (.rem d a b wa wb) a b) s

def execRemn (d a b : Reg) (wa wb : Bool) (s : State) : Out :=
  issue (.remn d a b wa wb) (divEff (.remn d a b wa wb) a b) s

def execClz (d a : Reg) (z : Width) (wa : Bool) (s : State) : Out :=
  issue (.clz d a z wa) (xRes 1 d fun c => eachElem clzNat (8 * widthBytes z) (c.getX a)) s

def execFfs (d a : Reg) (z : Width) (wa : Bool) (s : State) : Out :=
  issue (.ffs d a z wa) (xRes 1 d fun c => eachElem ffsNat (8 * widthBytes z) (c.getX a)) s

def execPopc (d a : Reg) (z : Width) (wa : Bool) (s : State) : Out :=
  issue (.popc d a z wa) (xRes 1 d fun c => eachElem popcNat (8 * widthBytes z) (c.getX a)) s

def execBrev (d a : Reg) (z : Width) (wa : Bool) (s : State) : Out :=
  issue (.brev d a z wa) (xRes 1 d fun c => eachElem brevNat (8 * widthBytes z) (c.getX a)) s

def execSext (d a : Reg) (z : Width) (wa : Bool) (s : State) : Out :=
  issue (.sext d a z wa) (xRes 1 d fun c => wordOfInt (sextNat (c.getX a).toNat (8 * widthBytes z))) s

def execZext (d a : Reg) (z : Width) (wa : Bool) (s : State) : Out :=
  issue (.zext d a z wa) (xRes 1 d fun c => wordOfNat ((c.getX a).bits 0 (8 * widthBytes z))) s

def execAddi (d a : Reg) (wa : Bool) (imm : BitVec 11) (s : State) : Out :=
  issue (.addi d a wa imm) (xImm d a imm aluAdd) s

def execAndi (d a : Reg) (wa : Bool) (imm : BitVec 11) (s : State) : Out :=
  issue (.andi d a wa imm) (xImm d a imm aluAnd) s

def execOri (d a : Reg) (wa : Bool) (imm : BitVec 11) (s : State) : Out :=
  issue (.ori d a wa imm) (xImm d a imm aluOr) s

def execXori (d a : Reg) (wa : Bool) (imm : BitVec 11) (s : State) : Out :=
  issue (.xori d a wa imm) (xImm d a imm aluXor) s

def execSlti (d a : Reg) (wa : Bool) (imm : BitVec 11) (s : State) : Out :=
  issue (.slti d a wa imm) (xImm d a imm aluSlt) s

def execSltni (d a : Reg) (wa : Bool) (imm : BitVec 11) (s : State) : Out :=
  issue (.sltni d a wa imm) (xImm d a imm aluSltn) s

def execShli (d a : Reg) (wa : Bool) (n : BitVec 6) (s : State) : Out :=
  issue (.shli d a wa n) (xRes 1 d fun c => aluShl (c.getX a) (n.setWidth 64)) s

def execShri (d a : Reg) (wa : Bool) (n : BitVec 6) (s : State) : Out :=
  issue (.shri d a wa n) (xRes 1 d fun c => aluShr (c.getX a) (n.setWidth 64)) s

def execSrai (d a : Reg) (wa : Bool) (n : BitVec 6) (s : State) : Out :=
  issue (.srai d a wa n) (xRes 1 d fun c => aluSra (c.getX a) (n.setWidth 64)) s

def execLi (d : Reg) (imm : BitVec 18) (s : State) : Out := issue (.li d imm) (xRes 1 d fun _ => imm.signExtend 64) s

def execLis (d : Reg) (imm : BitVec 18) (s : State) : Out :=
  issue (.lis d imm) (xRes 1 d fun c => (c.getX d <<< 18) ||| imm.setWidth 64) s

/-- ADDPC counts from the bundle (R119). -/
def execAddpc (d : Reg) (imm : BitVec 18) (s : State) : Out :=
  issue (.addpc d imm) (fun s => xRes 1 d (fun _ => s.iss.pc + (imm.signExtend 64 <<< 2)) s) s

/-! The generator: its slots act on the state in slot order (R73). -/

def execRget (d : Reg) (s : State) : Out :=
  issue (.rget d) (onCtx fun c => let (v, c) := c.rget; c.addX 2 d v) s

def execRskip (a b : Reg) (wa wb : Bool) (s : State) : Out :=
  issue (.rskip a b wa wb) (onCtx fun c => (c.setCounter (c.counter + (c.getX a ++ c.getX b))).setRgh false) s

def execRseed (a b : Reg) (wa wb : Bool) (s : State) : Out :=
  issue (.rseed a b wa wb) (onCtx fun c =>
    ((c.setCr crRngk (c.getX a)).setCounter ((c.getX b).setWidth 128)).setRgh false) s

def execRctl (d : Reg) (s : State) : Out := issue (.rctl d) (xRes 2 d fun c => c.cr[crRngcl]) s

def execRcth (d : Reg) (s : State) : Out := issue (.rcth d) (xRes 2 d fun c => c.cr[crRngch]) s

end Sys2Proof.Machine
end

