-- ==== Sys2Proof/Machine/Control.lean ====
section
/-! DEFINITION. The control slots (spec/04_scalar.md, R120 to R136): branches, jumps, loops, and what a context waits for. -/

namespace Sys2Proof.Machine

/-- The address of the slot being issued. -/
def Iss.slotAddr (i : Iss) : Word := i.pc + wordOfNat (4 * i.slot)

/-- The word `off` words away from the slot (R120, R121, R124). -/
def wordsFrom (a : Word) (off : Int) : Word := a + wordOfInt (4 * off)

/-- The next bundle is at target; loop levels it leaves are deactivated (R126). -/
def takeTo (target : Word) (s : State) : State :=
  { s.modCtx s.cur (leaveLoops target) with iss := { s.iss with next := target, taken := true } }

/-- A conditional branch (R120). -/
def branch (a b : Reg) (off : BitVec 12) (cond : Word → Word → Bool) : State → Out := fun s =>
  let c := s.ctxAt s.cur
  if cond (c.getX a) (c.getX b) then .next (takeTo (wordsFrom s.iss.slotAddr off.toInt) s) else .next s

def execBeq (a b : Reg) (off : BitVec 12) (s : State) : Out :=
  issue (.beq a b off) (branch a b off fun x y => x = y) s

def execBne (a b : Reg) (off : BitVec 12) (s : State) : Out :=
  issue (.bne a b off) (branch a b off fun x y => x != y) s

def execBlt (a b : Reg) (off : BitVec 12) (s : State) : Out :=
  issue (.blt a b off) (branch a b off fun x y => x.slt y) s

def execBge (a b : Reg) (off : BitVec 12) (s : State) : Out :=
  issue (.bge a b off) (branch a b off fun x y => y.sle x) s

def execBltn (a b : Reg) (off : BitVec 12) (s : State) : Out :=
  issue (.bltn a b off) (branch a b off fun x y => x.ult y) s

def execBgen (a b : Reg) (off : BitVec 12) (s : State) : Out :=
  issue (.bgen a b off) (branch a b off fun x y => y.ule x) s

def execJmp (off : BitVec 24) (s : State) : Out :=
  issue (.jmp off) (fun s => .next (takeTo (wordsFrom s.iss.slotAddr off.toInt) s)) s

/-- JAL links in x63 (R121). -/
def execJal (off : BitVec 24) (s : State) : Out :=
  issue (.jal off) (fun s =>
    .next (takeTo (wordsFrom s.iss.slotAddr off.toInt) (s.modCtx s.cur fun c => c.addX 1 63 (s.iss.slotAddr + 4)))) s

/-- JR goes to x[A] as read at issue and links in x[D] (R122). -/
def execJr (d a : Reg) (wa : Bool) (s : State) : Out :=
  issue (.jr d a wa) (fun s =>
    let t := (s.ctxAt s.cur).getX a
    .next (takeTo t (s.modCtx s.cur fun c => c.addX 1 d (s.iss.slotAddr + 4)))) s

/-- Load a loop level (R124). -/
def Ctx.setLoop (c : Ctx) (k : Nat) (l : Loop) : Ctx := { c with loops := c.loops.set! k l }

/-- LOOP; a count of zero goes on after the bundle that holds the end, with no level changed (R124). -/
def execLoop (a : Reg) (l : BitVec 2) (off : BitVec 12) (s : State) : Out :=
  issue (.loop a l off) (fun s =>
    let n := (s.ctxAt s.cur).getX a
    let start := s.iss.slotAddr + 4
    let stop := wordsFrom s.iss.slotAddr off.toInt
    if n = 0 then
      let (s, t) := afterBundle s.cur 8 stop s
      .next { s with iss := { s.iss with next := t, taken := true } }
    else .next (s.modCtx s.cur fun c => c.setLoop l.toNat { start := start, stop := stop, remaining := n, active := true })) s

/-- The bits of CUTREQ (R256). -/
def Ctx.cutPending (c : Ctx) : Bool := c.cr[crCutreq].getLsbD 12
def Ctx.cutTarget (c : Ctx) : Nat := c.cr[crCutreq].bits 0 12
def Ctx.cutPassed (c : Ctx) : Bool := c.cr[crCutreq].getLsbD 28
def Ctx.cutLast (c : Ctx) : Nat := c.cr[crCutreq].bits 16 12

/-- QUIET records the cut number and the live rows; with a cut pending whose target it reaches, and no frame held, its bundle is
the stop point (R132, R133, R405). A sequencer only records (R112). -/
def execQuiet (a : Reg) (n : BitVec 12) (s : State) : Out :=
  issue (.quiet a n) (fun s =>
    .next (s.modCtx s.cur fun c =>
      let live := if a = 0 then 0 else c.getX a
      let c1 := c.setCr crCutreq ((c.cr[crCutreq] &&& 0x1FFF) ||| wordOfNat (2 ^ 28 + n.toNat * 2 ^ 16))
      { c1 with live := live
                stopPoint := c.stopPoint || (c.cutPending && c.cutTarget ≤ n.toNat && c.frames = 0 && !isSeq s.cur) })) s

/-- The cause that a completion status raises at TKW and TEND (R171, R223). -/
def statusCause (st : Nat) : Cause :=
  if st = 0x24 then .race
  else if st = 0x40 then .fabricTimeout
  else if st = 0x42 then .indexExhaustion
  else if st = 0x43 then .splitRefused
  else .tokenError

/-- TADDR of a trap that a completion status raises: the racing address of a Race, else 0 (R266). -/
def statusAddr (st : Nat) (va : Word) : Word := if st = 0x24 then va else 0

/-- The tokens in error among those a TKW names: field number and token, with its status at issue (R127). -/
def tokErrors (toks : Vector Token 16) (l : List Tok) : List (Nat × Tok × Nat) :=
  ((upTo l.length).zip l).filterMap fun (p : Nat × Tok) =>
    let st := (toks[p.2.toNat]?.getD {}).status.toNat
    if p.2 != 0 && st != 0 then some (p.1, p.2, st) else none

/-- TINFO of a Token Error: the first erroneous token, its status and the marks (R127, R255). -/
def tokInfo (op : Nat) (l : List (Nat × Tok × Nat)) : Word :=
  match l with
  | [] => wordOfNat (op <<< 6)
  | (_, k, st) :: _ =>
    let mark := l.foldl (fun a e => if e.1 = 0 then a + 4 else if e.1 = 1 then a + 2 else a + 1) 0
    wordOfNat (mark <<< 26 + st <<< 18 + k.toNat <<< 14 + op <<< 6)

/-- A named token has its status set to ok; one that a slot of this bundle has just produced keeps what that slot set. -/
def Ctx.clearStatus (c : Ctx) (k : Tok) : Ctx :=
  let t := c.getK k
  if t.busy then c else c.setK k { t with status := 0 }

/-- TKW: with an error among its tokens, a trap follows the bundle (R127). -/
def execTkw (ka kb kc : Tok) (s : State) : Out :=
  issue (.tkw ka kb kc) (fun s =>
    let errs := tokErrors s.iss.toks [ka, kb, kc]
    let s := s.acquire s.cur 0
    let s := s.modCtx s.cur fun c => ((c.clearStatus ka).clearStatus kb).clearStatus kc
    match errs with
    | [] => .next s
    | (_, k, st) :: _ => .next { s with iss := { s.iss with
        post := some (statusCause st, statusAddr st (s.iss.toks[k.toNat]?.getD {}).addr, tokInfo 0x1B errs, false) } }) s

/-- WAITC: its read has been satisfied, so the bundle issues (R128); as the first access of a handler it closes the entry window
(R406). -/
def execWaitc (a b : Reg) (wa wb : Bool) (sc : Scope) (k : WCond) (s : State) : Out :=
  issue (.waitc a b wa wb sc k) (onCtx fun c => if c.window.first.isNone then { c with window := {} } else c) s

/-- TINFO and TADDR of a guard report (R255, R294). -/
def guardInfo (op : Nat) (g : Guard) : Word :=
  wordOfNat (op <<< 6 + (min g.count 0xFFFF) <<< 32 + g.bank <<< 48 + g.agent <<< 56)
/-- A scratch address in the form of R27. -/
def scrWord (sa : Nat) : Word := wordOfNat (sa + 0x7F * 2 ^ 57)

/-- A task of a cooperative launch that is a group of one has completed an episode with its own BAR; a larger group's episodes are counted
as its barriers open (R130, R313). -/
def State.lonelyBar (s : State) (n : Nat) : State :=
  match (s.ctxAt n).grp, (s.ctxAt n).task with
  | none, some t => s.modTask t fun k => { k with bars := k.bars + 1 }
  | _, _ => s

/-- BAR: the barrier has let the context pass, an acquire at grp scope; a pending guard report is delivered after it (R130, R294). -/
def execBar (id : BitVec 12) (s : State) : Out :=
  issue (.bar id) (fun s =>
    let s := ((s.acquire s.cur 1).lonelyBar s.cur).modCtx s.cur fun c => { c with passed := none }
    match (s.ctxAt s.cur).task.bind s.findTask with
    | none => .next s
    | some t =>
      let s := s.modTask t.id fun k => { k with guard := none }
      match t.guard with
      | none => .next s
      | some g => .next { s with iss := { s.iss with post := some (.guardTouch, wordOfNat g.addr, guardInfo 0x1D g, true) } }) s

/-- TEND: every loop level is left, and the context issues nothing more and drains (R126, R135, R136). -/
def execTend (s : State) : Out :=
  issue .tend (fun s =>
    .next (s.modCtx s.cur fun c =>
      { c with drain := .tend, drainSlot := s.iss.slot, drainLen := s.iss.len, loops := c.loops.map fun l => { l with active := false } })) s

/-- SLK writes SLACK for later bundles (R134). -/
def execSlk (n : BitVec 12) (s : State) : Out :=
  issue (.slk n) (onCtx fun c => { c with crPend := c.crPend ++ [(0x0C, n.setWidth 64)] }) s

end Sys2Proof.Machine
end

