-- ==== Sys2Proof/Machine/Command.lean ====
section
/-! DEFINITION. Accepted commands: what is captured at issue (R36, R105, R169, R471), shared tokens (R93, R103 to R106), completion,
and how an engine reads and writes scratch for a command (R26, R196, R205, R312, R314). -/

namespace Sys2Proof.Machine

/-! Acceptance. -/

/-- The repeat at hand, when this slot is the target of a REP; 0 otherwise (R93). -/
def Iss.myRep (i : Iss) : Nat := if i.repAt = some i.slot then i.repIdx else 0
/-- Repeats of this slot still to issue. -/
def Iss.myLeft (i : Iss) : Nat := if i.repAt = some i.slot then i.repLeft.getD 0 else 0

/-- A consumed field as the command keeps it: a token still to wait for, or none with its status (R105, R106); KD of an earlier
repeat counts as k0 (R93). -/
def consumed (iss : Iss) (kd k : Tok) : Tok × BitVec 8 :=
  if k = 0 || (iss.myRep != 0 && k = kd) then (0, 0)
  else
    let t := iss.toks[k.toNat]?.getD {}
    if t.busy then (k, 0) else (0, t.status)

/-- The racing address that the status of a consumed token tells of (R266). -/
def consumedAt (iss : Iss) (k : Tok) : Word := if k = 0 then 0 else (iss.toks[k.toNat]?.getD {}).addr

/-- A token produced by a command just accepted: one more command is out under it. -/
def Ctx.produce (c : Ctx) (k : Tok) (rep left : Nat) : Ctx :=
  let t := c.getK k
  if rep = 0 then c.setK k { busy := true, status := 0, left := 1, more := left != 0, errRep := 0 }
  else c.setK k { t with busy := true, left := t.left + 1, more := left != 0 }

/-- A command of the slot being issued, with all it captures. -/
def mkCmd (s : State) (i : Instr) (p : Reg) (n : Nat) (kd ka kb kc : Tok) (est : Nat) : Cmd :=
  let c := s.ctxAt s.cur
  let a := consumed s.iss kd ka
  let b := consumed s.iss kd kb
  let d := consumed s.iss kd kc
  { id := s.nextId, ins := i, agent := s.cur, job := c.job, root := c.root, task := c.task,
    par := (regRun p n).map c.getX, pcw := c.cr[crPcw], prov := c.cr[crProv], kernel := c.kernel, hold := c.hold
    key := c.cr[crRngk], ctr := c.counter, kd := kd, ka := a.1, kb := b.1, kc := d.1, kst := d.2 ++ b.2 ++ a.2
    kad := (consumedAt s.iss ka, consumedAt s.iss kb, consumedAt s.iss kc)
    rep := s.iss.myRep, sn := c.sn, lvl := c.frames, est := est, startAt := s.now }

/-- Accept a command: it joins its engine's queue, its token is busy, and as the first access of a handler it closes the entry
window (R103, R357, R406). -/
def State.accept (s : State) (cmd : Cmd) : State :=
  { s.modCtx s.cur (fun c =>
      let c1 := c.produce cmd.kd s.iss.myRep s.iss.myLeft
      { c1 with sn := c.sn + 1, window := if c.window.first.isNone then {} else c.window }) with
    cmds := s.cmds ++ [cmd], nextId := s.nextId + 1 }

/-! Finding and changing commands. -/

def State.findCmd (s : State) (id : Nat) : Option Cmd := s.cmds.find? (·.id = id)
def State.modCmd (s : State) (id : Nat) (f : Cmd → Cmd) : State :=
  { s with cmds := s.cmds.map fun c => if c.id = id then f c else c }
def State.putCmd (s : State) (c : Cmd) : State := s.modCmd c.id fun _ => c
def State.dropCmd (s : State) (id : Nat) : State := { s with cmds := s.cmds.filter (·.id != id) }

/-! Tokens. -/

/-- Token k of an agent has become free with a status: the commands that wait for it learn it, and the address of a race (R105, R266). -/
def notify (agent : Nat) (k : Tok) (st : BitVec 8) (va : Word) (c : Cmd) : Cmd :=
  if c.agent != agent || k = 0 then c
  else
    let c := if c.ka = k then { c with ka := 0, kst := c.kst ||| st.setWidth 24, kad := (va, c.kad.2) } else c
    let c := if c.kb = k then { c with kb := 0, kst := c.kst ||| (st.setWidth 24 <<< 8), kad := (c.kad.1, va, c.kad.2.2) } else c
    if c.kc = k then { c with kc := 0, kst := c.kst ||| (st.setWidth 24 <<< 16), kad := (c.kad.1, c.kad.2.1, va) } else c

/-- A command under token k ends with a status: the token keeps the error of the earliest repeat and is free once every repeat
has ended (R93, R103). -/
def Token.ended (t : Token) (rep : Nat) (st : BitVec 8) (va : Word) : Token :=
  let worse := st != 0 && (t.errRep = 0 || rep + 1 < t.errRep)
  { t with left := t.left - 1, busy := t.left - 1 != 0 || t.more, status := if worse then st else t.status
           errRep := if worse then rep + 1 else t.errRep, addr := if worse then va else t.addr }

def State.endToken (s : State) (agent : Nat) (k : Tok) (rep : Nat) (st : BitVec 8) (va : Word) : State :=
  if k = 0 then s
  else
    let t := ((s.ctxAt agent).getK k).ended rep st va
    let s := s.modCtx agent fun c => c.setK k t
    if t.busy then s else { s with cmds := s.cmds.map (notify agent k t.status t.addr) }

/-- The status of the first consumed token in error, in field order (R106). -/
def Cmd.inherited (c : Cmd) : BitVec 8 :=
  let a := c.kst.extractLsb' 0 8
  let b := c.kst.extractLsb' 8 8
  if a != 0 then a else if b != 0 then b else c.kst.extractLsb' 16 8

/-- The address of the race that the inherited status tells of. -/
def Cmd.inheritedAt (c : Cmd) : Word :=
  if c.kst.extractLsb' 0 8 != 0 then c.kad.1 else if c.kst.extractLsb' 8 8 != 0 then c.kad.2.1 else c.kad.2.2

def Cmd.tokensFree (c : Cmd) : Bool := c.ka = 0 && c.kb = 0 && c.kc = 0

/-- The accesses and fences of its context that may stand before a command: those in the memory path, while the frames held are those at
its issue; with more frames held, those that the trap of its level took out of the path (R323, R325). -/
def State.pathOf (s : State) (c : Cmd) : List (Nat × Instr × Bool) :=
  let x := s.ctxAt c.agent
  if x.frames = c.lvl then x.acc.map fun a => (a.sn, a.ins, a.performed)
  else if c.lvl < x.frames then
    (x.pulled.filter (·.lvl = c.lvl)).map (fun p => (p.sn, p.ins, !isMem p.ins)) ++
      (x.held.filter (·.1 = c.lvl)).map fun h => (h.2.2.sn, h.2.2.ins, h.2.2.performed)
  else []

/-- A FENCE with the engines bit issued before the command still waits for what it orders (R204). -/
def fenceBlocks (s : State) (c : Cmd) : Bool :=
  let path := s.pathOf c
  path.any fun f => match f.2.1 with
    | .fence eng k _ => eng && f.1 < c.sn && path.any fun q => q.1 < f.1 && !q.2.2 && inEarlierSet k q.2.1
    | _ => false

/-! Scratch as an engine sees it. -/

/-- What an engine reads: a number of bytes and whether a word of them was uncorrectable; none for a race. -/
structure EngRead where
  val : Nat := 0
  bad : Bool := false
deriving DecidableEq, Repr

/-- A word as the engines working for agent n see it: its own writes only once they are shown to them (R36, R157); a partial one among
these is performed first. -/
def State.engWord (s : State) (n key : Nat) : State × Word :=
  let s := if s.readableBy n key (s.engSees n) then s else (s.flushKey n key).applyRepl
  (s, (s.earlyAt n key).getD (s.viewBy n key (s.engSees n)))

/-- n bytes from a key, as one number. -/
def State.engBytes (s : State) (n key len : Nat) : State × EngRead :=
  let r := (wordKeys key len).foldl (fun (a : State × Nat × Bool) k =>
    let (s, w) := a.1.engWord n k
    (s, a.2.1 + w.toNat * 2 ^ (8 * (k - key / 8 * 8)), a.2.2 || s.isPoisonBy k (s.engSees n))) (s, 0, false)
  (r.1, { val := bitsOf r.2.1 (8 * (key % 8)) (8 * len), bad := r.2.2 })

/-- The range touches the shadows of a slice in verify layout (R312). -/
def State.inShadows (s : State) (sa len : Nat) : Bool :=
  0x200000 < sa % 2 ^ 22 + len && (s.coreAt (sa / 2 ^ 22)).verify

/-- An engine of kind `who` (R255) reads scratch for a command. -/
def State.scrRead (s : State) (c : Cmd) (who sa len : Nat) : State × Option EngRead :=
  if len = 0 then (s, some {})
  else if s.inShadows sa len then (s, none)
  else match s.raceCheck c.task c.hold (scrKey sa) len false with
    | none => (s, none)
    | some s =>
      let (s, r) := (s.touch (scrKey sa) len false who).engBytes c.agent (scrKey sa) len
      (s, some r)

/-- Write n bytes of a number from a key, word by word (R317). -/
def State.engWrite (s : State) (n : Nat) (pc : Piece) (key len v : Nat) : State :=
  (wordKeys key len).foldl (fun s k =>
    let lo := max k key
    let hi := min (k + 8) (key + len)
    s.writeEng n pc k (enOf (lo - k) (hi - lo)) (wordOfNat (bitsOf v (8 * (lo - key)) (8 * (hi - lo)) <<< (8 * (lo - k))))) s

/-- An engine writes scratch for a command; none for a race, with nothing written. -/
def State.scrWrite (s : State) (c : Cmd) (who sa len v : Nat) : Option State :=
  if len = 0 then some s
  else if s.inShadows sa len then none
  else (s.raceCheck c.task c.hold (scrKey sa) len true).map fun s =>
    (s.touch (scrKey sa) len true who).engWrite c.agent { key := scrKey sa } (scrKey sa) len v

end Sys2Proof.Machine
end

