-- ==== Sys2Proof/Config.lean ====
section
/-! DEFINITION. What is fixed for a machine but not given by the spec as a number: the package's own secrets and the signed
configuration image (R462, R463), and the free values. None of these constants has a body that a proof can see. -/

namespace Sys2Proof.Config

/-- The n-th free value drawn where the spec leaves a value open. -/
opaque freeWord : Nat → Word

/-- The response of the package's PUF (R463). -/
opaque pufResponse : List Byte

/-- The firmware image and its Ed25519 signature (R462). -/
opaque firmwareImage : List Byte
opaque firmwareSignature : List Byte

/-- The vendor key, 32 bytes, and the fused SHA-512 hash that names it (R462); where the boot ROM finds the key the spec does not
say. -/
opaque vendorKey : List Byte
opaque vendorHash : List Byte

/-- The configuration image, its signature, and the operator key that the firmware names (R462). -/
opaque configImage : List Byte
opaque configSignature : List Byte
opaque operatorKey : List Byte

/-- The manager device that the configuration image names (R369). -/
opaque managerDev : Nat

/-- The registers that the signed configuration image sets (R462): 0 and 1 EFRING of the dies, 2 and 3 FRAMEB0 and FRAMEB1,
4 JSAVET, 5 LGAL, 6 FDEV, 7 SEALK. -/
opaque imageRegister : Nat → Word

/-- The port enables of the configuration image (R462). -/
opaque imagePorts : BitVec 16

end Sys2Proof.Config
end

