-- ==== Sys2Proof/Machine/Crypto.lean ====
section
/-! DEFINITION. The algorithms that the boot chain and attestation name (spec/23_platform.md R462 to R464): SHA-512, and Ed25519 over it, as
published. -/

namespace Sys2Proof.Machine

/-! SHA-512. -/

/-- The eight chaining words. -/
structure Sha where
  a : Word
  b : Word
  c : Word
  d : Word
  e : Word
  f : Word
  g : Word
  h : Word
deriving DecidableEq, Repr

def shaInit : Sha :=
  { a := 0x6A09E667F3BCC908, b := 0xBB67AE8584CAA73B, c := 0x3C6EF372FE94F82B, d := 0xA54FF53A5F1D36F1
    e := 0x510E527FADE682D1, f := 0x9B05688C2B3E6C1F, g := 0x1F83D9ABFB41BD6B, h := 0x5BE0CD19137E2179 }

/-- The constants of the 80 rounds. -/
def shaK : List Word :=
  [0x428A2F98D728AE22, 0x7137449123EF65CD, 0xB5C0FBCFEC4D3B2F, 0xE9B5DBA58189DBBC,
   0x3956C25BF348B538, 0x59F111F1B605D019, 0x923F82A4AF194F9B, 0xAB1C5ED5DA6D8118,
   0xD807AA98A3030242, 0x12835B0145706FBE, 0x243185BE4EE4B28C, 0x550C7DC3D5FFB4E2,
   0x72BE5D74F27B896F, 0x80DEB1FE3B1696B1, 0x9BDC06A725C71235, 0xC19BF174CF692694] ++
  [0xE49B69C19EF14AD2, 0xEFBE4786384F25E3, 0x0FC19DC68B8CD5B5, 0x240CA1CC77AC9C65,
   0x2DE92C6F592B0275, 0x4A7484AA6EA6E483, 0x5CB0A9DCBD41FBD4, 0x76F988DA831153B5,
   0x983E5152EE66DFAB, 0xA831C66D2DB43210, 0xB00327C898FB213F, 0xBF597FC7BEEF0EE4,
   0xC6E00BF33DA88FC2, 0xD5A79147930AA725, 0x06CA6351E003826F, 0x142929670A0E6E70] ++
  [0x27B70A8546D22FFC, 0x2E1B21385C26C926, 0x4D2C6DFC5AC42AED, 0x53380D139D95B3DF,
   0x650A73548BAF63DE, 0x766A0ABB3C77B2A8, 0x81C2C92E47EDAEE6, 0x92722C851482353B,
   0xA2BFE8A14CF10364, 0xA81A664BBC423001, 0xC24B8B70D0F89791, 0xC76C51A30654BE30,
   0xD192E819D6EF5218, 0xD69906245565A910, 0xF40E35855771202A, 0x106AA07032BBD1B8] ++
  [0x19A4C116B8D2D0C8, 0x1E376C085141AB53, 0x2748774CDF8EEB99, 0x34B0BCB5E19B48A8,
   0x391C0CB3C5C95A63, 0x4ED8AA4AE3418ACB, 0x5B9CCA4F7763E373, 0x682E6FF3D6B2B8A3,
   0x748F82EE5DEFB2FC, 0x78A5636F43172F60, 0x84C87814A1F0AB72, 0x8CC702081A6439EC,
   0x90BEFFFA23631E28, 0xA4506CEBDE82BDE9, 0xBEF9A3F7B2C67915, 0xC67178F2E372532B] ++
  [0xCA273ECEEA26619C, 0xD186B8C721C0C207, 0xEADA7DD6CDE0EB1E, 0xF57D4F7FEE6ED178,
   0x06F067AA72176FBA, 0x0A637DC5A2C898A6, 0x113F9804BEF90DAE, 0x1B710B35131C471B,
   0x28DB77F523047D84, 0x32CAAB7B40C72493, 0x3C9EBE0A15C9BEBC, 0x431D67C49C100D4C,
   0x4CC5D4BECB3E42B6, 0x597F299CFC657E2A, 0x5FCB6FAB3AD6FAEC, 0x6C44198C4A475817]

/-- One round, with its constant and its word of the message schedule. -/
def Sha.round (s : Sha) (k w : Word) : Sha :=
  let s1 := s.e.rotateRight 14 ^^^ s.e.rotateRight 18 ^^^ s.e.rotateRight 41
  let ch := (s.e &&& s.f) ^^^ (~~~s.e &&& s.g)
  let t1 := s.h + s1 + ch + k + w
  let s0 := s.a.rotateRight 28 ^^^ s.a.rotateRight 34 ^^^ s.a.rotateRight 39
  let maj := (s.a &&& s.b) ^^^ (s.a &&& s.c) ^^^ (s.b &&& s.c)
  { a := t1 + (s0 + maj), b := s.a, c := s.b, d := s.c, e := s.d + t1, f := s.e, g := s.f, h := s.g }

/-- The word that follows 16 words of the message schedule. -/
def shaNext (w : List Word) : Word :=
  let x := w[1]?.getD 0
  let y := w[14]?.getD 0
  (y.rotateRight 19 ^^^ y.rotateRight 61 ^^^ (y >>> 6)) + w[9]?.getD 0 + (x.rotateRight 1 ^^^ x.rotateRight 8 ^^^ (x >>> 7)) + w.headD 0

/-- The rounds of some constants, over a window of 16 schedule words. -/
def shaRounds : List Word → List Word → Sha → Sha
  | [], _, s => s
  | k :: t, w, s => shaRounds t (w.tail ++ [shaNext w]) (s.round k (w.headD 0))

def Sha.add (s t : Sha) : Sha :=
  { a := s.a + t.a, b := s.b + t.b, c := s.c + t.c, d := s.d + t.d, e := s.e + t.e, f := s.f + t.f, g := s.g + t.g, h := s.h + t.h }

/-- Bytes as big-endian words. -/
def bigWord (l : List Byte) : Word := l.foldl (fun w b => (w <<< 8) ||| b.setWidth 64) 0

/-- n blocks of 128 bytes. -/
def shaBlocks : Nat → List Byte → Sha → Sha
  | 0, _, s => s
  | n + 1, l, s => shaBlocks n (l.drop 128) (s.add (shaRounds shaK ((upTo 16).map fun i => bigWord ((l.drop (8 * i)).take 8)) s))

/-- A message with its padding and its length in bits. -/
def shaPad (l : List Byte) : List Byte :=
  l ++ [0x80] ++ List.replicate ((239 - l.length % 128) % 128) 0 ++ (bytesLE (8 * l.length) 16).reverse

def Sha.bytes (s : Sha) : List Byte := [s.a, s.b, s.c, s.d, s.e, s.f, s.g, s.h].flatMap fun w => (bytesLE w.toNat 8).reverse

/-- The 64-byte digest of a message. -/
def sha512 (l : List Byte) : List Byte := (shaBlocks ((shaPad l).length / 128) (shaPad l) shaInit).bytes

/-! Ed25519. -/

def edP : Nat := 2 ^ 255 - 19
/-- The order of the base point. -/
def edL : Nat := 2 ^ 252 + 27742317777372353535851937790883648493
def edD : Nat := 37095705934669439343138083508754565189542113879843219016388785533085940283555

def edSub (a b : Nat) : Nat := (a + edP - b % edP) % edP

/-- b to the power e modulo edP, over n bits of e. -/
def edPow : Nat → Nat → Nat → Nat
  | 0, _, _ => 1
  | n + 1, b, e => (if e % 2 = 1 then b else 1) * edPow n (b * b % edP) (e / 2) % edP
def edInv (a : Nat) : Nat := edPow 255 (a % edP) (edP - 2)

/-- A point in extended coordinates. -/
structure EdPoint where
  x : Nat
  y : Nat
  z : Nat
  t : Nat
deriving DecidableEq, Repr

def edZero : EdPoint := { x := 0, y := 1, z := 1, t := 0 }
/-- The base point. -/
def edBase : EdPoint :=
  let x := 15112221349535400772501151409588531511454012693041857206046113283949847762202
  let y := 46316835694926478169428394003475163141307993866256225615783033603165251855960
  { x := x, y := y, z := 1, t := x * y % edP }

def EdPoint.add (p q : EdPoint) : EdPoint :=
  let a := edSub p.y p.x * edSub q.y q.x % edP
  let b := (p.y + p.x) * (q.y + q.x) % edP
  let c := 2 * p.t * q.t % edP * edD % edP
  let d := 2 * p.z * q.z % edP
  let e := edSub b a
  let f := edSub d c
  let g := (d + c) % edP
  let h := (b + a) % edP
  { x := e * f % edP, y := g * h % edP, z := f * g % edP, t := e * h % edP }

/-- k times a point, over n bits of k. -/
def EdPoint.mul : Nat → Nat → EdPoint → EdPoint
  | 0, _, _ => edZero
  | n + 1, k, p => let r := EdPoint.mul n (k / 2) (p.add p); if k % 2 = 1 then p.add r else r

def EdPoint.same (p q : EdPoint) : Bool := p.x * q.z % edP = q.x * p.z % edP && p.y * q.z % edP = q.y * p.z % edP

/-- A point in 32 bytes, as a number. -/
def EdPoint.code (p : EdPoint) : Nat :=
  let i := edInv p.z
  p.y * i % edP + p.x * i % edP % 2 * 2 ^ 255

/-- The point of 32 bytes, if they hold one. -/
def edDecode (v : Nat) : Option EdPoint :=
  let y := v % 2 ^ 255
  let odd := v / 2 ^ 255 % 2
  let w := edSub (y * y) 1 * edInv (edD * (y * y % edP) + 1) % edP
  let r := edPow 255 w ((edP + 3) / 8)
  let x := if r * r % edP = w then r else r * edPow 255 2 ((edP - 1) / 4) % edP
  if edP ≤ y || x * x % edP != w || (x = 0 && odd = 1) then none
  else
    let x := if x % 2 = odd then x else edP - x
    some { x := x, y := y, z := 1, t := x * y % edP }

def shaNat (l : List Byte) : Nat := natLE (sha512 l)

/-- The secret scalar of a seed: the low half of its digest with its end bits set. -/
def edScalar (seed : List Byte) : Nat := shaNat seed % 2 ^ 254 / 8 * 8 + 2 ^ 254
/-- The public key of a seed, in 32 bytes. -/
def edPublic (seed : List Byte) : List Byte := bytesLE (edBase.mul 255 (edScalar seed)).code 32

/-- The signature of a message under a seed, in 64 bytes. -/
def edSign (seed msg : List Byte) : List Byte :=
  let r := shaNat ((sha512 seed).drop 32 ++ msg) % edL
  let rb := bytesLE (edBase.mul 255 r).code 32
  let k := shaNat (rb ++ edPublic seed ++ msg) % edL
  rb ++ bytesLE ((r + k * edScalar seed) % edL) 32

/-- A signature of a message holds under a public key. -/
def edVerify (key msg sig : List Byte) : Bool :=
  let r := sig.take 32
  let n := natLE (sig.drop 32)
  match edDecode (natLE key), edDecode (natLE r) with
  | some a, some rp =>
    let k := shaNat (r ++ key ++ msg) % edL
    n < edL && key.length = 32 && sig.length = 64 &&
      ((edBase.mul 255 n).mul 4 8).same ((rp.mul 4 8).add ((a.mul 255 k).mul 4 8))
  | _, _ => false

end Sys2Proof.Machine
end

