-- ==== Sys2Proof/Machine/Fabric.lean ====
section
/-! DEFINITION. The Pazor fabric up to the packet (spec/18_fabric.md): registers and counters (R389, R390), links (R379), credits and
channels (R376 to R378, R472), routing (R371, R372), tags and sequence numbers (R380), the step counter (R387, R388), headers
(R373). -/

namespace Sys2Proof.Machine

/-! Time. -/

/-- Cycles in 1 ms at 1.8 GHz (R3). -/
def msCycles : Nat := 1800000

/-- The step length 2^L in cycles (R387). -/
def State.stepLen (s : State) : Nat := 2 ^ (s.fstep.bits 0 4 + 8)
/-- The request timeout in cycles (R381). -/
def State.timeout (s : State) : Nat := 2 ^ s.fab.ftmo
/-- LIFE (R380). -/
def State.life (s : State) : Nat := ceilDiv s.timeout s.stepLen + 2
def State.ownDev (s : State) : Nat := s.fdev.bits 0 12

/-- Cycles pass: the model's clock goes on, and CYC as R387 steers it. -/
def State.pass (s : State) (dt : Nat) : State :=
  let st := s.fab.steer
  let ahead := min st.toNat dt
  let behind := min (-st).toNat dt
  { s with now := s.now + dt
           cyc := s.cyc + BitVec.ofNat 80 (dt + ahead - behind)
           fab := { s.fab with steer := st - ahead + behind } }

/-! The job table and job devices (R370, R409, R411). -/

/-- The FJOBT entry of a job. -/
def State.jobEntry (s : State) (j : Nat) : Word := s.peek (s.fab.fjobt.bits 12 36 * 4096 + 8 * (j % 4096))
/-- RES, with an entry whose must-be-zero bits are set counting as 0 (R370). -/
def State.resident (s : State) (j : Nat) : Bool :=
  let e := s.jobEntry j
  e.bits 48 16 = 0 && e.bits 1 11 = 0 && e.getLsbD 0
/-- The root of a job's tables on this device. -/
def State.jobRoot (s : State) (j : Nat) : Word := wordOfNat ((s.jobEntry j).bits 12 36 * 4096)
/-- Make a job's entry resident or not (R418, R423). -/
def State.setResident (s : State) (j : Nat) (b : Bool) : State :=
  s.putBytes (s.fab.fjobt.bits 12 36 * 4096 + 8 * (j % 4096)) 8 (setBit64 (s.jobEntry j) 0 b).toNat

/-- A job save entry (R408, R409). -/
def State.saveEntry (s : State) (j : Nat) : Nat := s.plat.jsavet.bits 12 36 * 4096 + 128 * (j % 4096)
def State.savesOn (s : State) : Bool := s.plat.jsavet.getLsbD 0

/-- The device that hosts a job device; DMAP 0 is the identity (R411). -/
def State.mapDev (s : State) (j jd : Nat) : Nat :=
  let dmap := if s.savesOn then (s.peek (s.saveEntry j + 40)).toNat else 0
  if dmap = 0 then jd else memReadN s.mem (dmap + 2 * (jd % 4096)) 2 % 4096
/-- The job device number of this device: the lowest that the job's map gives it (R411). -/
def State.ownJobDev (s : State) (j : Nat) : Nat :=
  if s.savesOn && s.peek (s.saveEntry j + 40) != 0 then ((upTo 4096).find? fun jd => s.mapDev j jd = s.ownDev).getD s.ownDev
  else s.ownDev

/-! Counters (R390). -/

def ctrLateReply : Fin 8 := 0
def ctrExpired : Fin 8 := 1
def ctrDupsup : Fin 8 := 2
def ctrStalereq : Fin 8 := 3
def ctrDiscard : Fin 8 := 4
def ctrRouteerr : Fin 8 := 5
def ctrResend : Fin 8 := 6
def ctrLatepkt : Fin 8 := 7

def State.modFab (s : State) (f : Fabric → Fabric) : State := { s with fab := f s.fab }

/-- Add to a counter, which saturates at all ones. -/
def Fabric.count (f : Fabric) (i : Fin 8) (n : Nat) : Fabric :=
  { f with counters := f.counters.set i.val (wordOfNat (min (2 ^ 64 - 1) (f.counters[i].toNat + n))) i.isLt }
def State.count (s : State) (i : Fin 8) : State := s.modFab fun f => f.count i 1

/-- A write of a counter: zero clears it, any other value is ignored. -/
def State.writeCounter (s : State) (i : Nat) (v : Word) : State :=
  if h : i < 8 then (if v = 0 then s.modFab fun f => { f with counters := f.counters.set i 0 h } else s) else s

/-- Count in a die's error counter (R461). -/
def State.countError (s : State) (d i : Nat) : State :=
  s.modDie d fun x => { x with errors := x.errors.set! i (BitVec.ofNat 32 (min 0xFFFFFFFF ((x.errors[i]?.getD 0).toNat + 1))) }

/-! Headers (R373). -/

/-- One bit of CRC-32 of IEEE 802.3, in its reflected form. -/
def crcBit (c : BitVec 32) : BitVec 32 := if c.getLsbD 0 then (c >>> 1) ^^^ 0xEDB88320#32 else c >>> 1
def crcByte (c : BitVec 32) (b : Byte) : BitVec 32 :=
  crcBit (crcBit (crcBit (crcBit (crcBit (crcBit (crcBit (crcBit (c ^^^ b.setWidth 32))))))))
/-- CRC-32 of a list of bytes. -/
def crc32 (l : List Byte) : BitVec 32 := ~~~(l.foldl crcByte 0xFFFFFFFF#32)

def Packet.flits (p : Packet) : Nat := 1 + ceilDiv p.data.length 64
/-- The channel of a packet (R376). -/
def Packet.chan (p : Packet) : Nat := p.cls * 16 + p.hop

/-- Bytes [59:0] of a header. -/
def headerNat (p : Packet) : Nat :=
  p.dest + p.src <<< 16 + p.die <<< 28 + p.cls <<< 32 + p.hop <<< 34 + (p.flits - 1) <<< 40 + p.jid <<< 48 + p.tag <<< 64 +
  p.gen <<< 80 + p.op <<< 88 + p.len <<< 96 + p.arg <<< 112 + p.va.toNat <<< 128 + p.seq <<< 192 + p.floor <<< 224 +
  p.val.toNat <<< 256 + p.birth.toNat <<< 320 + (ofBoolNat p.kern) <<< 384

/-- The header flit and the payload flits of a packet. -/
def Packet.bytes (p : Packet) : List Byte :=
  let h := bytesLE (headerNat p) 60
  let c := if p.crcBad then ~~~(crc32 h) else crc32 h
  h ++ bytesLE c.toNat 4 ++ p.data ++ List.replicate (64 * (p.flits - 1) - p.data.length) 0

/-- A packet read back from its flits; LEN bytes of payload, of which a read request has none. -/
def Packet.ofBytes (l : List Byte) : Packet :=
  let v := natLE (l.take 64)
  let npf := bitsOf v 40 3
  let len := bitsOf v 96 16
  { dest := bitsOf v 0 12, src := bitsOf v 16 12, die := bitsOf v 28 1, cls := bitsOf v 32 2, hop := bitsOf v 34 4
    jid := bitsOf v 48 12, tag := bitsOf v 64 16, gen := bitsOf v 80 4, op := bitsOf v 88 8, len := len, arg := bitsOf v 112 8
    va := wordOfNat (bitsOf v 128 64), seq := bitsOf v 192 32, floor := bitsOf v 224 32, val := wordOfNat (bitsOf v 256 64)
    birth := wordOfNat (bitsOf v 320 64), kern := bitsOf v 384 1 = 1
    data := ((l.drop 64).take (64 * npf)).take (if npf = 0 then 0 else len)
    crcBad := crc32 (l.take 60) != BitVec.ofNat 32 (bitsOf v 480 32) }

/-- The class that an operation travels in (R374). -/
def opFits (op cls : Nat) : Bool :=
  if op = 1 || op = 2 || op = 3 then cls = 0 || cls = 2
  else if op = 4 then cls = 0
  else if 0x10 ≤ op && op ≤ 0x13 then cls = 1
  else if 0x20 ≤ op && op ≤ 0x24 then cls = 3 else false

/-! Packets in the device. -/

def Fabric.addFlight (f : Fabric) (loc : Loc) (p : Packet) (re : Bool := false) : Fabric :=
  { f with flights := f.flights ++ [{ id := f.nextId, loc := loc, pkt := p, re := re }], nextId := f.nextId + 1 }
def Fabric.dropFlight (f : Fabric) (id : Nat) : Fabric := { f with flights := f.flights.filter (·.id != id) }
def State.findFlight (s : State) (id : Nat) : Option Flight := s.fab.flights.find? (·.id = id)
def State.dropFlight (s : State) (id : Nat) : State := s.modFab fun f => f.dropFlight id
/-- Move a packet to another place; it is the latest to arrive there. -/
def State.moveFlight (s : State) (fl : Flight) (loc : Loc) (p : Packet) : State :=
  s.modFab fun f => { f.dropFlight fl.id with flights := (f.dropFlight fl.id).flights ++ [{ fl with loc := loc, pkt := p }] }

/-- Put a packet of this device on the local injection queue of a die, with hop index 0 and its BIRTH (R373, R376). -/
def State.send (s : State) (die : Nat) (p : Packet) : State :=
  s.modFab fun f => f.addFlight (.localq die) { p with hop := 0, birth := s.step64 }

/-- A control packet of class 3 from a die to a device. -/
def State.sendCtl (s : State) (die dest op jid : Nat) (c : Ctl) : State :=
  s.send die { dest := dest, src := s.ownDev, die := die, cls := 3, op := op, jid := jid, ctl := c }

/-- The die at which a packet stands: where it was sent, or the owner of its ingress port (R383). -/
def Loc.die : Loc → Nat
  | .localq d => d
  | .bridge d => d
  | .ingress p => p / 8
  | .retry p => p / 8
  | .held d => d
  | .parked d _ => d

/-- The packet is the first of its channel where it stands (R376). -/
def State.isHead (s : State) (fl : Flight) : Bool :=
  match s.fab.flights.find? fun g => g.loc = fl.loc && g.pkt.chan = fl.pkt.chan with
  | some g => g.id = fl.id
  | none => false

/-- A router holds the packet of a job that is freezing or being swept where it stands; control packets always move (R418). -/
def State.holds (s : State) (p : Packet) : Bool :=
  p.cls != 3 && s.jobs.any fun j => j.job = p.jid && j.frozen && !j.swept && (j.st0 = 4 || j.st1 = 4 || j.st0 = 8 || j.st1 = 8)

/-- The age of a packet in steps; 0 when BIRTH is the larger (R382). -/
def State.ageOf (s : State) (p : Packet) : Nat := s.step64.toNat - p.birth.toNat

/-- A packet that its age makes a device discard, wherever it holds it: not one in a retry buffer, which keeps what it has sent until it is
acknowledged (R379), nor one that its target or requester has taken up and parked, keeps for a parked command, or is answering (R307,
R377; log entry 46). -/
def State.expired (s : State) (fl : Flight) : Bool :=
  let waits := match fl.loc with
    | .retry _ | .parked _ _ => false
    | .held _ => fl.pkt.cls != 1
    | _ => true
  waits && fl.ack.isNone && fl.handle.isNone && fl.pkt.cls != 3 && s.life < s.ageOf fl.pkt

/-! Ports. -/

def Fabric.port (f : Fabric) (i : Nat) : Port := f.ports[i]?.getD {}
def State.modPort (s : State) (i : Nat) (g : Port → Port) : State :=
  s.modFab fun f => { f with ports := f.ports.set! i (g (f.port i)) }

def Port.usedOn (p : Port) (ch : Nat) : Nat := mapGet 0 p.used ch
/-- Credits of an egress channel, reserved and shared together (R372, R378). -/
def Port.credits (p : Port) (ch : Nat) : Nat := ofBoolNat (p.reserved.getLsbD ch) + min p.shared (1024 - p.usedOn ch)
/-- Send n flits on a channel: the reserved credit first, then shared ones. -/
def Port.take (p : Port) (ch n : Nat) : Port :=
  let r := p.reserved.getLsbD ch
  let m := if r then n - 1 else n
  { p with reserved := setBit64 p.reserved ch (p.reserved.getLsbD ch && n = 0), shared := p.shared - m
           used := mapSet p.used ch (p.usedOn ch + m) }
/-- A credit of the kind that the freed flit used comes back (R378). -/
def Port.giveBack (p : Port) (ch : Nat) (reserved : Bool) : Port :=
  if reserved then { p with reserved := setBit64 p.reserved ch true }
  else if p.usedOn ch = 0 then p
  else { p with shared := min 4032 (p.shared + 1), used := mapSet p.used ch (p.usedOn ch - 1) }

/-- Flits of a packet that stand in the retry buffer: sent, and not acknowledged (R379). -/
def Flight.buffered (g : Flight) : Nat := g.pkt.flits - g.debt - g.acked

/-- Room of a port's retry buffer of 1,024 flits. -/
def State.retryRoom (s : State) (i : Nat) : Nat :=
  1024 - (s.fab.flights.filter fun g => g.loc = .retry i).foldl (fun a g => a + g.buffered) 0

/-- A packet's header has left on a channel, and flits of it are still to follow: no other packet of the channel goes before them
(R376). -/
def State.owes (s : State) (i ch : Nat) : Bool := s.fab.flights.any fun g => g.loc = .retry i && g.pkt.chan = ch && g.debt != 0

/-- Flits that can leave on a channel now, of n. -/
def State.canLeave (s : State) (i ch n : Nat) : Nat := min n (min ((s.fab.port i).credits ch) (s.retryRoom i))

/-- The flits that packets still owe leave as credits and the retry buffer allow, the packets in the order they left. -/
def State.payDebts (s : State) (i : Nat) : State :=
  (s.fab.flights.filter fun g => g.loc = .retry i && g.debt != 0).foldl (fun s g =>
    let n := s.canLeave i g.pkt.chan g.debt
    if n = 0 then s
    else (s.modPort i fun q => q.take g.pkt.chan n).modFab fun f =>
      { f with flights := f.flights.map fun h => if h.id = g.id then { h with debt := h.debt - n } else h }) s

/-- CREDIT_RETURN. -/
def State.creditReturn (s : State) (i ch : Nat) (reserved : Bool) : State :=
  if i < 16 && ch < 64 then (s.modPort i fun p => p.giveBack ch reserved).payDebts i else s

/-- A port changes its state, which its register shows and the fabric manager hears of (R379). -/
def State.setPort (s : State) (i : Nat) (st : PortSt) (g : Port → Port) : State :=
  (s.modPort i fun p => { g p with st := st, since := s.now }).modFab fun f => { f with reports := f.reports ++ [(i, st)] }

/-- The link goes Down: its retry buffer is emptied, each packet counted in DISCARD (R379). -/
def State.linkDown (s : State) (i : Nat) : State :=
  let n := s.fab.flights.countP fun g => g.loc = .retry i
  (if (s.fab.port i).st = .down then s else s.setPort i .down fun p => { p with resends := 0 }).modFab fun f =>
    { f.count ctrDiscard n with flights := f.flights.filter fun g => g.loc != .retry i }

/-- A port whose EN is 1 starts training; one whose EN is 0 goes Down (R379). -/
def State.enablePort (s : State) (i : Nat) (en : Bool) : State :=
  if 16 ≤ i then s
  else
    let s := s.modPort i fun p => { p with en := en }
    if !en then s.linkDown i
    else if (s.fab.port i).st = .down then s.setPort i .training id else s

/-- Training succeeds: the neighbour is learnt and every credit is there (R379, R389). -/
def State.trainOk (s : State) (i ndev nport : Nat) : State :=
  if i < 16 && (s.fab.port i).st = .training then
    s.setPort i .up fun p => { p with ndev := ndev % 4096, nport := nport % 16, resends := 0
                                      reserved := BitVec.allOnes 64, shared := 4032, used := [] }
  else s

def State.trainFail (s : State) (i : Nat) : State :=
  if i < 16 && (s.fab.port i).st = .training && (s.fab.port i).since + msCycles ≤ s.now then s.linkDown i else s

/-- A flit fails its CRC at the neighbour: the sender sends again from it, in order (go-back-N); the packets stay in the retry buffer
(R379, R461). -/
def State.linkResend (s : State) (i : Nat) : State :=
  if i < 16 && (s.fab.port i).st = .up && s.fab.flights.any (fun g => g.loc = .retry i) then
    (s.modPort i fun p => { p with resends := p.resends + 1 }).countError (i / 8) 6
  else s

/-- After 16 failed resends of one flit, which its first failure asked for, the link retrains (R379). -/
def State.retrain (s : State) (i : Nat) : State :=
  if i < 16 && (s.fab.port i).st = .up && 17 ≤ (s.fab.port i).resends then
    s.setPort i .retraining fun p => { p with retrain := min 0xFFFF (p.retrain + 1) }
  else s

/-- Retraining succeeds: the retry buffer is resent from its oldest flit. -/
def State.retrainOk (s : State) (i : Nat) : State :=
  if i < 16 && (s.fab.port i).st = .retraining then s.setPort i .up fun p => { p with resends := 0 } else s

def State.retrainFail (s : State) (i : Nat) : State :=
  if i < 16 && (s.fab.port i).st = .retraining && (s.fab.port i).since + msCycles ≤ s.now then s.linkDown i else s

/-- The neighbour acknowledges the oldest flit of the retry buffer; a packet goes with its last one. -/
def State.linkAck (s : State) (i : Nat) : State :=
  match s.fab.flights.find? fun g => g.loc = .retry i && g.buffered != 0 with
  | some g =>
    let s := s.modPort i fun p => { p with resends := 0 }
    let s := if g.acked + 1 = g.pkt.flits then s.dropFlight g.id
      else s.modFab fun f => { f with flights := f.flights.map fun h => if h.id = g.id then { h with acked := h.acked + 1 } else h }
    s.payDebts i
  | none => s

/-- A beacon carries CYC at its departure (R387). -/
def Ctl.leaving (c : Ctl) (cyc : BitVec 80) : Ctl := match c with | .beacon _ => .beacon cyc | c => c

/-- A packet leaves by a port with its header flit; it takes credits, as many flits as can follow now, and the hop index of its next link
(R376, R378). -/
def State.leave (s : State) (fl : Flight) (i : Nat) : State :=
  let p := { fl.pkt with hop := fl.pkt.hop + 1, ctl := fl.pkt.ctl.leaving s.cyc }
  let n := s.canLeave i p.chan p.flits
  (s.modPort i fun q => q.take p.chan n).moveFlight { fl with debt := p.flits - n, out := none } (.retry i) p

/-- The header flit of a packet can leave by a port: a credit, room in the retry buffer, and no packet of the channel before it has flits
to follow; a sweep fence follows the last flit of its job (R376, R378, R379, R418). -/
def State.mayLeave (s : State) (i : Nat) (p : Packet) : Bool :=
  let ch := p.chan + 1
  s.canLeave i ch 1 != 0 && !s.owes i ch &&
    !(p.op = 0x21 && s.fab.flights.any fun g => g.loc = .retry i && g.pkt.jid = p.jid && g.debt != 0)

/-- A packet of this device sent on one link: a beacon, an echo, a fence. It waits in the injection queue of the port's die for a credit. -/
def State.sendOn (s : State) (i op : Nat) (c : Ctl) (jid : Nat := 0) : State :=
  let p : Packet := { dest := (s.fab.port i).ndev, src := s.ownDev, die := i / 8, cls := 3, op := op, jid := jid
                      birth := s.step64, ctl := c }
  let fl : Flight := { id := s.fab.nextId, loc := .localq (i / 8), pkt := p, out := some i }
  let s := s.modFab fun f => { f with flights := f.flights ++ [fl], nextId := f.nextId + 1 }
  if s.isHead fl && s.mayLeave i p then s.leave fl i else s

/-- A packet arrives from a neighbour; only a link that is Up or Retraining delivers (R379). -/
def State.deliver (s : State) (i : Nat) (p : Packet) : State :=
  if i < 16 && ((s.fab.port i).st = .up || (s.fab.port i).st = .retraining) then s.modFab fun f => f.addFlight (.ingress i) p else s

/-! Routing (R371, R372). -/

def routeV (e : BitVec 32) : Bool := e.getLsbD 31
def routeDist (e : BitVec 32) : Nat := e.bits 24 4
/-- The port of entry i. -/
def routePort (e : BitVec 32) (i : Nat) : Nat := e.bits (20 - 4 * i) 4
def routeEn (e : BitVec 32) (i : Nat) : Bool := e.getLsbD i
def routeMask : BitVec 32 := 0x8FFFFF0F#32

/-- A write of a route entry: stored, or ignored and counted when malformed. -/
def State.writeRoute (s : State) (d : Nat) (v : BitVec 32) : State :=
  let e := v &&& routeMask
  if routeV e && (routeDist e = 0 || !routeEn e 0) then s.count ctrRouteerr
  else s.modFab fun f => { f with routes := mapSet f.routes (d % 4096) e }

def State.routeTo (s : State) (d : Nat) : BitVec 32 := mapGet 0 s.fab.routes d

/-- The better of two egress choices: more credits, then the lower entry. -/
def betterPort (s : State) (ch : Nat) (best : Option Nat) (i : Nat) : Option Nat :=
  match best with
  | none => some i
  | some b => if (s.fab.port b).credits ch < (s.fab.port i).credits ch then some i else some b

/-- The port that a packet takes next, if one can be chosen now. Once it has crossed the bridge it leaves by a port of that die
(R472). -/
def State.nextPort (s : State) (fl : Flight) (e : BitVec 32) : Option Nat :=
  let up := fun i => (s.fab.port i).st = .up
  let here := fun i => match fl.loc with | .bridge d => i / 8 = d | _ => true
  if 2 ≤ fl.pkt.cls then (let i := routePort e 0; if up i && here i then some i else none)
  else
    let ports := ((upTo 4).filter (routeEn e)).map (routePort e)
    (ports.filter fun i => up i && here i).foldl (betterPort s (fl.pkt.chan + 1)) none

/-- The pool of the bridge into a die has room for the header flit of a packet: the reserved flit of its channel, or a shared one (R378,
R472). -/
def State.bridgeRoom (s : State) (d : Nat) (p : Packet) : Bool :=
  let flits := fun (l : List Flight) => l.foldl (fun a g => a + g.pkt.flits) 0
  let inPool := s.fab.flights.filter fun g => g.loc = .bridge d
  let mine := flits (inPool.filter fun g => g.pkt.chan = p.chan)
  let total := (upTo 64).foldl (fun a ch => a + (flits (inPool.filter fun g => g.pkt.chan = ch) - 1)) 0
  mine = 0 || (mine ≤ 1024 && total < 4032)

/-- PACKET_FORWARD of a packet for another device: the first of its channel is discarded, waits, crosses the bridge or leaves (R372, R376,
R378). One meant for a port that is no more a link is discarded with it. -/
def State.forward (s : State) (id : Nat) : State :=
  match s.findFlight id with
  | none => s
  | some fl =>
    let p := fl.pkt
    let here := match fl.loc with | .localq _ | .bridge _ | .ingress _ => true | _ => false
    if !here || !s.isHead fl || s.holds p then s
    else match fl.out with
      | some i =>
        if (s.fab.port i).st = .down || (s.fab.port i).st = .training then s.dropFlight id
        else if (s.fab.port i).st = .up && s.mayLeave i p then s.leave fl i else s
      | none =>
        if p.dest = s.ownDev then s
        else
          let e := s.routeTo p.dest
          if !routeV e || 15 < p.hop + routeDist e then (s.dropFlight id).count ctrRouteerr
          else match s.nextPort fl e with
            | none => s
            | some i =>
              if fl.loc.die != i / 8 then (if s.bridgeRoom (i / 8) p then s.moveFlight fl (.bridge (i / 8)) p else s)
              else if s.mayLeave i p then s.leave fl i else s

/-- PACKET_EXPIRY: a packet of class 0, 1 or 2 older than LIFE steps is discarded before it is performed (R382). -/
def State.expire (s : State) (id : Nat) : State :=
  match s.findFlight id with
  | none => s
  | some fl => if s.expired fl then (s.dropFlight id).count ctrExpired else s

/-! Tags and numbers (R380). -/

def Fabric.pool (f : Fabric) (d : Nat) : TagPool := if d = 0 then f.tags[0] else f.tags[1]
def Fabric.setPool (f : Fabric) (d : Nat) (t : TagPool) : Fabric :=
  { f with tags := if d = 0 then f.tags.set 0 t else f.tags.set 1 t }
/-- The first tag of the free list, without its die bit. -/
def TagPool.front (t : TagPool) : Option Nat := if t.fresh < 32768 then some t.fresh else t.free.head?
def TagPool.takeFront (t : TagPool) : TagPool :=
  if t.fresh < 32768 then { t with fresh := t.fresh + 1 } else { t with free := t.free.tail }
def TagPool.gen (t : TagPool) (n : Nat) : Nat := mapGet 0 t.gens n

/-- Release a tag: its generation goes on, and it waits in quarantine. -/
def State.releaseTag (s : State) (d n : Nat) : State :=
  s.modFab fun f =>
    let t := f.pool d
    f.setPool d { t with gens := mapSet t.gens n ((t.gen n + 1) % 16), quar := t.quar ++ [(n, s.step64.toNat + s.life)] }

/-- The tag of a request that a switch takes away: free again, its generation as it stands (R393, R422). -/
def State.returnTag (s : State) (d n : Nat) : State :=
  s.modFab fun f => f.setPool d { f.pool d with free := (f.pool d).free ++ [n] }

/-- TAG_QUARANTINE_END: the oldest tag in quarantine joins the end of the free list. -/
def State.endQuarantine (s : State) (d : Nat) : State :=
  match (s.fab.pool d).quar with
  | [] => s
  | (n, t) :: rest =>
    if t ≤ s.step64.toNat then s.modFab fun f => f.setPool d { f.pool d with quar := rest, free := (f.pool d).free ++ [n] } else s

/-- Requests of class 0 that take a number, and every request of class 2. -/
def numbered (op cls : Nat) : Bool := cls = 2 || op != 2

def Numbering.isFor (n : Numbering) (die job me tgt cls : Nat) : Bool :=
  n.die = die && n.job = job && n.me = me && n.tgt = tgt && n.cls = cls

/-- The next number of a numbering, and the state after taking it. -/
def Fabric.takeNumber (f : Fabric) (die job me tgt cls : Nat) : Nat × Fabric :=
  match f.nums.find? (·.isFor die job me tgt cls) with
  | some n => (n.next, { f with nums := f.nums.map fun m => if m.isFor die job me tgt cls then { m with next := (m.next + 1) % 2 ^ 32 } else m })
  | none => (1, { f with nums := f.nums ++ [{ die := die, job := job, me := me, tgt := tgt, cls := cls, next := 2 }] })

/-- Unanswered numbered requests of a die from one job device to another in a class. -/
def Fabric.unanswered (f : Fabric) (die job me tgt cls : Nat) : List Req :=
  f.reqs.filter fun r => r.die = die && r.pkt.jid = job && r.pkt.src = me && r.pkt.tgt = some tgt && r.pkt.cls = cls && r.pkt.seq != 0

/-- a precedes b in sequence order modulo 2^32. -/
def seqBefore (a b : Nat) : Bool := a != b && (b + 2 ^ 32 - a) % 2 ^ 32 < 2 ^ 31

/-- The lowest number a die still has outstanding to a job device in a class, or the next number when none is. -/
def Fabric.floorOf (f : Fabric) (die job me tgt cls : Nat) : Nat :=
  let l := (f.unanswered die job me tgt cls).map (·.pkt.seq)
  match l with
  | [] => match f.nums.find? (·.isFor die job me tgt cls) with
    | some n => n.next
    | none => 1
  | a :: t => t.foldl (fun m x => if seqBefore x m then x else m) a

/-- A die may send one more request: a tag is free, and for a numbered one fewer than 256 are unanswered. -/
def State.maySend (s : State) (die job me tgt op cls : Nat) : Bool :=
  (s.fab.pool die).front.isSome && (!numbered op cls || (s.fab.unanswered die job me tgt cls).length < 256)

/-- Send a request for a command: tag, generation, number and FLOOR are filled in, the timer starts (R380, R381). -/
def State.request (s : State) (die cmd off tgt : Nat) (p : Packet) : State :=
  match (s.fab.pool die).front with
  | none => s
  | some n =>
    let pool := s.fab.pool die
    let f := s.fab.setPool die pool.takeFront
    let (seq, f) := if numbered p.op p.cls then f.takeNumber die p.jid p.src tgt p.cls else (0, f)
    let p := { p with die := die, tag := die * 2 ^ 15 + n, gen := pool.gen n, seq := seq, tgt := some tgt }
    let f := { f with reqs := f.reqs ++ [{ id := f.nextId, die := die, tag := n, gen := pool.gen n, cmd := cmd, off := off
                                           began := s.now, sent := s.now, pkt := p }], nextId := f.nextId + 1 }
    let p := { p with floor := if numbered p.op p.cls then f.floorOf die p.jid p.src tgt p.cls else 0 }
    ({ s with fab := f }).send die p

/-- The outstanding request that a response answers (R382). -/
def State.answered (s : State) (p : Packet) : Option Req :=
  s.fab.reqs.find? fun r => r.die = p.tag / 2 ^ 15 && r.tag = p.tag % 2 ^ 15 && r.gen = p.gen

/-- A request is over: it leaves the list and its tag is released. -/
def State.closeReq (s : State) (r : Req) : State :=
  (s.modFab fun f => { f with reqs := f.reqs.filter (·.id != r.id) }).releaseTag r.die r.tag

/-- REQUEST_RESEND: at each further sixteenth of the timeout without an answer the request goes again with the same tag, generation
and SEQ, and a fresh BIRTH (R381). -/
def State.resend (s : State) (id : Nat) : State :=
  match s.fab.reqs.find? (·.id = id) with
  | none => s
  | some r =>
    if r.parked || s.now < r.sent + s.timeout / 16 || r.began + s.timeout ≤ s.now then s
    else
      let s := s.modFab fun f =>
        { f.count ctrResend 1 with reqs := f.reqs.map fun q => if q.id = id then { q with sent := s.now } else q }
      s.send r.die { r.pkt with floor := if r.pkt.seq = 0 then 0 else s.fab.floorOf r.die r.pkt.jid r.pkt.src (r.pkt.tgt.getD 0) r.pkt.cls }

/-! The step counter (R387, R388). -/

/-- BEACON_SEND: every 65,536 cycles a beacon leaves on each Up port. -/
def State.sendBeacons (s : State) : State :=
  if s.now < s.fab.lastSent + 65536 then s
  else
    let s := (upTo 16).foldl (fun s i => if (s.fab.port i).st = .up then s.sendOn i 0x20 (.beacon s.cyc) else s) s
    s.modFab fun f => { f with lastSent := s.now }

def State.isRoot (s : State) : Bool := s.fstep.getLsbD 6
def State.aligned (s : State) : Bool := s.fstep.getLsbD 7
def State.setAligned (s : State) (b : Bool) : State := { s with fstep := setBit64 s.fstep 7 b }

/-- BEACON: the device echoes it; a parent's beacon steers CYC, and after four in a row within 1 cycle the device is aligned. -/
def State.beacon (s : State) (i : Nat) (c : BitVec 80) : State :=
  if !(i < 16 && (s.fab.port i).st = .up) then s
  else
    let s := s.sendOn i 0x20 .echo
    if s.isRoot || s.fstep.bits 8 4 != i then s
    else
      let e : Int := (c.toNat : Int) + (s.fab.port i).delay - s.cyc.toNat
      let good := if e.natAbs ≤ 1 then s.fab.goodBeacons + 1 else 0
      let s := s.modFab fun f => { f with steer := e, lastBeacon := s.now, goodBeacons := good }
      if 4 ≤ good then s.setAligned true else s

/-- ECHO: the link's one-way delay is measured. -/
def State.echo (s : State) (i delay : Nat) : State :=
  if i < 16 && (s.fab.port i).st = .up then s.modPort i fun p => { p with delay := delay } else s

/-- ALIGNMENT_LOSS: no parent beacon for 1 ms. -/
def State.loseAlignment (s : State) : State :=
  if s.isRoot || s.now < s.fab.lastBeacon + msCycles then s
  else (s.setAligned false).modFab fun f => { f with steer := 0, goodBeacons := 0 }

/-! Registers (R389). -/

/-- FDEV: DEV is writable by the manager. -/
def State.writeFdev (s : State) (v : Word) : State := { s with fdev := mergeBits 0xFFF s.fdev v }

/-- Some job of the job table is resident. -/
def State.anyResident (s : State) : Bool := (upTo 4096).any s.resident

/-- FSTEP: PARENT and ROOT; the step length only while no job is resident, and 9 to 15 are ignored (R388). A root is aligned at
once. -/
def State.writeFstep (s : State) (v : Word) : State :=
  let l := v.bits 0 4
  let keepL := 8 < l || l = s.fstep.bits 0 4 || s.anyResident
  let f := mergeBits (if keepL then 0xF40 else 0xF4F) s.fstep v
  let s := { s with fstep := f }
  if s.isRoot then s.setAligned true else s

def State.writeFtmo (s : State) (v : Word) : State :=
  let l := v.bits 0 6
  if 16 ≤ l && l ≤ 40 then s.modFab fun f => { f with ftmo := l } else s

def State.writeFjobt (s : State) (v : Word) : State := s.modFab fun f => { f with fjobt := v &&& 0x0000FFFFFFFFF000#64 }

def PortSt.num : PortSt → Nat
  | .down => 0 | .training => 1 | .up => 2 | .retraining => 3

/-- FPORTp as it reads. -/
def Port.reg (p : Port) : Word :=
  wordOfNat (p.nport <<< 44 + p.ndev <<< 32 + p.retrain <<< 16 + p.st.num <<< 6 + ofBoolNat p.en)

/-- FPORTp: a write of 0 to RETRAIN clears it, EN starts or stops the port. -/
def State.writeFport (s : State) (i : Nat) (v : Word) : State :=
  let s := if v.bits 16 16 = 0 then s.modPort i fun p => { p with retrain := 0 } else s
  let en := v.getLsbD 0
  if en != (s.fab.port i).en || (en && (s.fab.port i).st = .down) then s.enablePort i en else s

end Sys2Proof.Machine
end

