-- ==== Sys2Proof/Machine/Platform.lean ====
section
/-! DEFINITION. The platform (spec/23_platform.md): the control window (R457, R458), resets and starts (R459, R460), error counters
(R461), boot and attestation (R462 to R464), thermal regions (R466 to R469), host memory (R332). -/

namespace Sys2Proof.Machine

/-! Contexts and sequencers. -/

def canReset (c : Ctx) : Bool := c.st = .halted || c.st = .doubleFault

def coreCtxs (core : Nat) : List Nat := (upTo 4).map fun i => 4 * core + i

/-- The slice leaves verify layout with the last task of a verify launch that runs there (R312). -/
def State.leaveVerify (s : State) (core : Nat) : State :=
  if (coreCtxs core).any fun n => (s.ctxAt n).st != .free && ((((s.ctxAt n).task.bind s.findTask).map (·.ltag.isSome)).getD false) then s
  else if (s.coreAt core).verify then s.modCore core fun k => { k with verify := false } else s

/-- CTXRST (R459). -/
def State.ctxReset (s : State) (v : Word) : State :=
  let n := v.bits 0 11
  if n < numContexts then
    if canReset (s.ctxAt n) then
      ((s.forget n).modCtx n fun c =>
        { c with st := .free, frames := 0, held := [], pulled := [], steps := [], halts := [], passed := none, acc := [], pend := []
                 window := {}, notice := none, drain := .none, task := none, grp := none, stepover := none, vextBad := [], repOn := false, repNext := none, stopPoint := false
                 fullX := BitVec.allOnes 64, fullV := BitVec.allOnes 64 }).leaveVerify (coreOf n)
    else s
  else if n = 0x7F0 || n = 0x7F1 then
    let q := numContexts + (n - 0x7F0)
    if canReset (s.ctxAt q) then
      (s.forget q).modCtx q fun c =>
        { c with st := .halted, frames := 0, held := [], pulled := [], steps := [], halts := [], acc := [], window := {}, drain := .none
                 stepover := none, repOn := false, repNext := none }
    else s
  else s

/-- The control registers of a sequencer at its start (R460). -/
def seqCr (d : DieSt) : Vector Word 24 :=
  (((((Vector.replicate 24 0).set 0 0x21).set 1 d.seqtv).set 6 d.seqjid).set 8 (BitVec.allOnes 64)).set 0x14 d.seqpt

/-- SEQGO: a write of 1 starts a Halted sequencer (R460). -/
def State.seqStart (s : State) (die : Nat) (v : Word) : State :=
  let q := numContexts + die
  if die < 2 && v.getLsbD 0 && (s.ctxAt q).st = .halted then
    let d := s.die die
    (s.forget q).modCtx q fun c =>
      { c with st := .ready, drain := .none, pulled := [], steps := [], halts := [], passed := none, x := Vector.replicate 64 0
               fullX := BitVec.allOnes 64, k := Vector.replicate 16 {}, cr := seqCr d, crPend := [], loops := Vector.replicate 4 {}
               pend := [], acc := [], pc := d.seqpc, window := {}, stepover := none, satisfied := false, repOn := false
               repNext := none }
  else s

/-- SEQGO as it reads. -/
def State.seqRuns (s : State) (die : Nat) : Bool :=
  let c := s.ctxAt (numContexts + die)
  s.plat.booted && c.st != .halted && c.st != .doubleFault && c.st != .free

/-! Registers of the control window. -/

/-- Set some bits of a die register. -/
def State.dieReg (s : State) (d : Nat) (f : DieSt → DieSt) : State := s.modDie d f

/-- The 32-bit error counter i of a die; a write of zero clears it (R461). -/
def State.writeError (s : State) (d i : Nat) (v : Nat) : State :=
  if v % 2 ^ 32 = 0 then s.modDie d fun x => { x with errors := x.errors.set! i 0 } else s

/-- A write of SCHEDSLIP: a field written zero is cleared (R363). -/
def slipWrite (old v : Word) : Word :=
  (if v.bits 32 32 = 0 then old &&& 0xFFFFFFFF#64 else old) &&& (if v.bits 0 32 = 0 then 0xFFFFFFFF00000000#64 else BitVec.allOnes 64)

/-- A host write of an aligned 8-byte word of a die's register block; offsets of EFRING, SCHEDSLIP and CTXRST: log entry 10. -/
def State.writeDie (s : State) (d off : Nat) (v : Word) : State :=
  match off with
  | 0x000 => s.modDie d fun x => { x with efring := v &&& 0xF000FFFFFFFFFFC1#64 }
  | 0x008 => s.modDie d fun x => { x with slip := slipWrite x.slip v }
  | 0x010 => s.ctxReset v
  | 0x200 => s.modDie d fun x => { x with seqpc := v &&& 0x01FFFFFFFFFFFFFC#64 }
  | 0x208 => s.modDie d fun x => { x with seqpt := v &&& 0x0000FFFFFFFFF000#64 }
  | 0x210 => s.modDie d fun x => { x with seqtv := v &&& 0x01FFFFFFFFFFFFFC#64 }
  | 0x218 => s.modDie d fun x => { x with seqjid := v &&& 0xFFF#64 }
  | 0x220 => s.seqStart d v
  | _ => s

/-- A host write of an aligned 8-byte word of the fabric block (R389). -/
def State.writeFabric (s : State) (off : Nat) (v : Word) : State :=
  if off = 0 then s.writeFdev v
  else if off = 8 then s.writeFstep v
  else if off = 0x10 then s.writeFtmo v
  else if off = 0x18 then s.writeFjobt v
  else if 0x40 ≤ off && off < 0x80 then s.writeCounter ((off - 0x40) / 8) v
  else if 0x100 ≤ off && off < 0x180 then s.writeFport ((off - 0x100) / 8) v
  else s

/-- A host write of an aligned 8-byte word of the switch block (R399, R408, R348). -/
def State.writeSwitch (s : State) (off : Nat) (v : Word) : State :=
  let t := v &&& 0x0000FFFFFFFFF001#64
  match off with
  | 0x00 => s.modDie 0 fun x => { x with frameb := v &&& 0x0000FFFFFFFC0001#64 }
  | 0x08 => s.modDie 1 fun x => { x with frameb := v &&& 0x0000FFFFFFFC0001#64 }
  | 0x10 => { s with plat := { s.plat with jsavet := t } }
  | 0x18 => { s with plat := { s.plat with lgal := t } }
  | 0x20 => { s with plat := { s.plat with jctxt := t } }
  | _ => s

/-- A nonce word of the identity block starts or restarts a quote (R464). -/
def State.writeNonce (s : State) (i : Nat) (v : Word) : State :=
  let m : BitVec 256 := (BitVec.allOnes 64).setWidth 256 <<< (64 * i)
  { s with plat := { s.plat with nonce := (s.plat.nonce &&& ~~~m) ||| (v.setWidth 256 <<< (64 * i)), quoting := true, quoted := false } }

/-- Whether an offset lies among the 32-bit registers: error counters and route entries. -/
def is32 (off : Nat) : Bool :=
  (0x20100 ≤ off && off < 0x20120) || (0x30100 ≤ off && off < 0x30120) || (0x110000 ≤ off && off < 0x114000)

/-- A write of one 32-bit register. -/
def State.write32 (s : State) (off v : Nat) : State :=
  if 0x110000 ≤ off then s.writeRoute ((off - 0x110000) / 4) (BitVec.ofNat 32 v)
  else s.writeError (if 0x30000 ≤ off then 1 else 0) (off % 0x100 / 4) v

/-- A write of a control-window register at an aligned offset: 8 bytes, or the low 4 of the value for the 32-bit registers. Before the
boot is done, and after it has failed, only the identity block is served (R462). -/
def State.ctrlWrite (s : State) (off : Nat) (v : Word) : State :=
  if 0x80 ≤ off && off < 0xA0 then s.writeNonce ((off - 0x80) / 8) v
  else if !s.plat.booted then s
  else if is32 off then s.write32 off (v.bits 0 32)
  else if 0x20000 ≤ off && off < 0x30000 then s.writeDie 0 (off - 0x20000) v
  else if 0x30000 ≤ off && off < 0x40000 then s.writeDie 1 (off - 0x30000) v
  else if 0x100000 ≤ off && off < 0x110000 then s.writeFabric (off - 0x100000) v
  else if 0x120000 ≤ off && off < 0x121000 then s.writeSwitch (off - 0x120000) v
  else s

/-- 8 bytes of a list of bytes from an index. -/
def bytesAt (l : List Byte) (i : Nat) : Word := wordOfNat (natLE ((l.drop i).take 8))

/-- The seed of the device key (R463). -/
def deviceSeed : List Byte := (sha512 (Config.pufResponse ++ idString)).take 32
where
  /-- "FJARNIL-DR2-ID". -/
  idString : List Byte := [0x46, 0x4A, 0x41, 0x52, 0x4E, 0x49, 0x4C, 0x2D, 0x44, 0x52, 0x32, 0x2D, 0x49, 0x44]

/-- The public key of the package (R463). -/
def devicePublic : List Byte := edPublic deviceSeed

/-- The identity and boot block (R462 to R464); the offset of BOOTSTAT: log entry 10. -/
def State.readIdentity (s : State) (off : Nat) : Word :=
  if off = 0 then wordOfNat s.plat.bootstat
  else if 0x40 ≤ off && off < 0x60 then bytesAt devicePublic (off - 0x40)
  else if 0x80 ≤ off && off < 0xA0 then wordOfNat (s.plat.nonce.bits (8 * (off - 0x80)) 64)
  else if 0x100 ≤ off && off < 0x1E8 then bytesAt s.plat.quote (off - 0x100)
  else if off = 0x1F0 then wordOfNat (ofBoolNat s.plat.quoted) else 0

def State.readDie (s : State) (d off : Nat) : Word :=
  let x := s.die d
  if 0x100 ≤ off && off < 0x120 then
    let i := (off - 0x100) / 8 * 2
    wordOfNat ((x.errors[i]?.getD 0).toNat + (x.errors[i + 1]?.getD 0).toNat <<< 32)
  else match off with
    | 0x000 => x.efring
    | 0x008 => x.slip
    | 0x200 => x.seqpc
    | 0x208 => x.seqpt
    | 0x210 => x.seqtv
    | 0x218 => x.seqjid
    | 0x220 => wordOfNat (ofBoolNat (s.seqRuns d))
    | _ => 0

def State.readFabric (s : State) (off : Nat) : Word :=
  if off = 0 then s.fdev
  else if off = 8 then s.fstep
  else if off = 0x10 then wordOfNat s.fab.ftmo
  else if off = 0x18 then s.fab.fjobt
  else if 0x40 ≤ off && off < 0x80 then s.fab.counters[(off - 0x40) / 8]?.getD 0
  else if 0x100 ≤ off && off < 0x180 then (s.fab.port ((off - 0x100) / 8)).reg
  else 0

/-- THERMd (R469). -/
def State.readTherm (s : State) (d off : Nat) : Word := if off < 24 then s.therm[3 * d + off / 8]?.getD 0 else 0

/-- An aligned 8-byte word of the control window; an offset that maps nothing reads as zero (R457). -/
def State.ctrlRead (s : State) (off : Nat) : Word :=
  if off < 0x10000 then s.readIdentity off
  else if !s.plat.booted then 0
  else if off < 0x18000 then s.readTherm 0 (off - 0x10000)
  else if off < 0x20000 then s.readTherm 1 (off - 0x18000)
  else if off < 0x30000 then s.readDie 0 (off - 0x20000)
  else if off < 0x40000 then s.readDie 1 (off - 0x30000)
  else if 0x100000 ≤ off && off < 0x110000 then s.readFabric (off - 0x100000)
  else if 0x110000 ≤ off && off < 0x114000 then
    let d := (off - 0x110000) / 4
    wordOfNat ((s.routeTo d).toNat + (s.routeTo (d + 1)).toNat <<< 32)
  else match off with
    | 0x120000 => (s.die 0).frameb
    | 0x120008 => (s.die 1).frameb
    | 0x120010 => s.plat.jsavet
    | 0x120018 => s.plat.lgal
    | 0x120020 => s.plat.jctxt
    | _ => 0

/-- A write of some bytes of an aligned 8-byte word of the control window. -/
def State.ctrlMerge (s : State) (off : Nat) (en : BitVec 8) (v : Word) : State :=
  let w := applyEn (s.ctrlRead off) en v
  if is32 off then
    let s := if en.bits 0 4 != 0 then s.ctrlWrite off w else s
    if en.bits 4 4 != 0 then s.ctrlWrite (off + 4) (w >>> 32) else s
  else s.ctrlWrite off w

/-- The control window through the loopback: a program reaches no fabric register (R389), and writes the registers that the host may
write, those of the die and switch blocks (R458). -/
def State.loopRead (s : State) (off : Nat) : Word := if 0x100000 ≤ off && off < 0x120000 then 0 else s.ctrlRead off
def State.loopMerge (s : State) (off : Nat) (en : BitVec 8) (v : Word) : State :=
  if (0x20000 ≤ off && off < 0x40000) || (0x120000 ≤ off && off < 0x121000) then s.ctrlMerge off en v else s

/-- The loopback to the device's own control window in host memory (R458). -/
def loopBase : Nat := 2 ^ 47 + 0x7FFF00000000
def isLoop (pa : Nat) : Bool := loopBase ≤ pa && pa < 2 ^ 48

/-! Boot and attestation. -/

/-- Step 5 of R462: the registers that the configuration image sets. -/
def State.loadImage (s : State) : State :=
  let s := s.modDie 0 fun x => { x with efring := Config.imageRegister 0 &&& 0xF000FFFFFFFFFFC1#64
                                        frameb := Config.imageRegister 2 &&& 0x0000FFFFFFFC0001#64 }
  let s := s.modDie 1 fun x => { x with efring := Config.imageRegister 1 &&& 0xF000FFFFFFFFFFC1#64
                                        frameb := Config.imageRegister 3 &&& 0x0000FFFFFFFC0001#64 }
  let s := { s with fdev := Config.imageRegister 6 &&& 0x10FFF#64
                    plat := { s.plat with jsavet := Config.imageRegister 4 &&& 0x0000FFFFFFFFF001#64
                                          lgal := Config.imageRegister 5 &&& 0x0000FFFFFFFFF001#64
                                          sealk := Config.imageRegister 7 } }
  (upTo 16).foldl (fun s i => if Config.imagePorts.getLsbD i then s.enablePort i true else s) s

/-- The firmware image is signed by the vendor key that the fuses name, and the configuration image by the operator key (R462). -/
def firmwareTrusted : Bool :=
  sha512 Config.vendorKey = Config.vendorHash && edVerify Config.vendorKey (sha512 Config.firmwareImage) Config.firmwareSignature
def configTrusted : Bool := edVerify Config.operatorKey (sha512 Config.configImage) Config.configSignature

/-- POWER_ON: the boot sequence of R462, up to the first step that fails, or to its end; it runs once. The signatures are checked here;
`fail` is the code of a step that fails for another reason: the PUF, the reading of an image, the loading of the registers. -/
def State.powerOn (s : State) (fail : Nat) : State :=
  let halt := fun (s : State) (code : Nat) => { s with plat := { s.plat with bootstat := code } }
  if s.plat.booted || s.plat.bootstat != 0 then s
  else if fail = 1 then halt s 1
  else if fail = 2 || !firmwareTrusted then halt s 2
  else
    let s := { s with plat := { s.plat with m0 := BitVec.ofNat 512 (shaNat Config.firmwareImage) } }
    if fail = 3 || !configTrusted then halt s 3
    else
      let s := { s with plat := { s.plat with m1 := BitVec.ofNat 512 (shaNat Config.configImage) } }
      if fail = 4 then halt s 4
      else
        let s := (s.loadImage.modCtx numContexts fun c => { c with st := .halted }).modCtx (numContexts + 1) fun c => { c with st := .halted }
        { halt s 0xFF with plat := { (halt s 0xFF).plat with booted := true } }

/-- The signed message of a quote (R464). -/
def State.quoteMessage (s : State) : List Byte :=
  bytesLE s.plat.m0.toNat 64 ++ bytesLE s.plat.m1.toNat 64 ++ bytesLE s.plat.nonce.toNat 32 ++ bytesLE s.fdev.toNat 8

/-- QUOTE_COMPLETE. -/
def State.quoteDone (s : State) : State :=
  if s.plat.quoting then
    let q := s.quoteMessage ++ edSign deviceSeed s.quoteMessage
    { s with plat := { s.plat with quote := q, quoting := false, quoted := true } }
  else s

/-! Heat and power. -/

/-- DBLREF after a stack temperature, in sixteenths of a degree (R467). -/
def refreshAt (was : Bool) (t : Nat) : Bool := if 85 * 16 < t then true else if t < 83 * 16 then false else was

/-- ALLOW (R466). -/
def allowAt (t : Nat) (dbl : Bool) : Nat :=
  let a := min 255 ((95 * 16 - t) / 2)
  if dbl then a / 2 else a

/-- THERMAL_UPDATE of a region: its hottest array sensor and its stack, in sixteenths of a degree. -/
def State.thermalUpdate (s : State) (r temp stack : Nat) : State :=
  if 6 ≤ r then s
  else
    let t := max temp stack
    let dbl := refreshAt (s.dblref.getLsbD r) stack
    { s with dblref := if dbl then s.dblref ||| (1#6 <<< r) else s.dblref &&& ~~~(1#6 <<< r)
             therm := s.therm.set! r (wordOfNat (min t 0xFFFF + allowAt t dbl <<< 24 + ofBoolNat dbl <<< 32)) }

/-! The host. -/

/-- HOST_MEMORY_ACCESS: an aligned 8-byte word of the memory window is read or written at sys scope, in order; an offset that maps nothing
reads as zero (R332, R457). -/
def State.hostAccess (s : State) (off : Nat) (w : Option Word) : State :=
  let a := off / 8 * 8
  let ok := a < 2 ^ 47 && installed a 8
  match w with
  | some v => if ok then s.homeWrite (numContexts + 4) a 0xFF v else s
  | none => { s with plat := { s.plat with hostRead := if ok then memWord s.mem a else 0 } }

/-- The host changes a word of its own memory, of which the device sees the physical addresses from 2^47 on (R302). -/
def State.hostOwn (s : State) (off : Nat) (v : Word) : State :=
  let a := 2 ^ 47 + off / 8 * 8
  if installed a 8 && !isLoop a then s.homeWrite (numContexts + 4) a 0xFF v else s

/-- The host reads an aligned 8-byte word of the control window (R457). -/
def State.hostRegRead (s : State) (off : Nat) : State :=
  { s with plat := { s.plat with hostRead := s.ctrlRead (off / 8 * 8) } }

end Sys2Proof.Machine
end

