-- ==== Sys2Proof/Machine/Engine.lean ====
section
/-! DEFINITION. What every engine command shares (spec/08_engines.md, R217 to R226): reading, writing and reducing one piece of memory
or scratch, parks and their records (R224, R309), release flags (R221), starting and ending a command (R105, R106, R220, R222). -/

namespace Sys2Proof.Machine

def Cmd.parAt (c : Cmd) (i : Nat) : Word := c.par[i]?.getD 0

/-! One piece of an access. -/

/-- Bytes from an address up to the end of its aligned 8-byte word, at most len. -/
def wordLeft (a : Word) (len : Nat) : Nat := min len (8 - a.toNat % 8)

/-- What an engine access gives: a value, a translation fault with its address, cause code and kind code (R224), or a race at an
address. -/
inductive Eng (α : Type) where
  | ok (a : α)
  | flt (va : Word) (cause kind : Nat)
  | race (a : Word)
deriving DecidableEq, Repr

/-- A piece read: its bytes, whether a word was uncorrectable, whether its page is SEALED. -/
structure EngPiece where
  val : Nat := 0
  bad : Bool := false
  isSealed : Bool := false
deriving DecidableEq, Repr

/-- Translate for a command in the captured mode (R471); an address outside the virtual range is Non-canonical (R224). -/
def State.engTrans (s : State) (c : Cmd) (unit : Nat) (va : Word) (len : Nat) (q : Ask) : State × Except Cause (Word × Piece) :=
  if va.bits 57 7 != 0 then (s, .error .nonCanonical) else s.translate unit c.job c.root va.toNat len q

/-- Only a CPY of a command sequencer reaches the loopback (R458). -/
def Cmd.looped (c : Cmd) : Bool :=
  isSeq c.agent && c.kind = .slot && (match c.ins with | .cpy _ _ _ _ _ => true | _ => false)

/-- An address that must be virtual: one in any other form is Non-canonical (R224). -/
def inVirt {α : Type} (s : State) (a : Word) (kind : Nat) (r : State × Eng α) : State × Eng α :=
  if a.bits 57 7 != 0 then (s, .flt a 10 kind) else r

/-- Read a piece that lies in one aligned 8-byte word (R225); `who` is the agent code of R255, `host` lets a copy engine reach host
frames (R34), of which the loopback answers only to the CPY of a sequencer (R458). -/
def State.engFetch (s : State) (c : Cmd) (who unit : Nat) (a : Word) (len : Nat) (host : Bool) : State × Eng EngPiece :=
  match coreTarget a with
  | .nonCanonical => (s, .flt a 10 0)
  | .scratch sa =>
    if !scrInside sa len then (s, .flt a 8 0)
    else match s.scrRead c who sa len with
      | (s, none) => (s, .race a)
      | (s, some r) => (s, .ok { val := r.val, bad := r.bad })
  | .virt _ =>
    match s.engTrans c unit a len { kernel := c.kernel, host := host } with
    | (s, .error e) => (s, .flt a e.num 0)
    | (s, .ok (leaf, p)) =>
      if isLoop p.key then
        if c.looped then
          (s, .ok { val := bitsOf (s.loopRead ((p.key - loopBase) / 8 * 8)).toNat (8 * (p.key % 8)) (8 * len) })
        else (s, .flt a 8 0)
      else
        let (s, r) := s.engBytes c.agent p.key len
        (s, .ok { val := r.val, bad := r.bad, isSealed := pteSealed leaf })

/-- Mark the words of a range uncorrectable: a poison mark (R228). -/
def State.markPoison (s : State) (n key len : Nat) : State :=
  (wordKeys key len).foldl (fun s k => let s := s.flushKey n k; { s with poison := natAdd s.poison k }) s

/-- Write a piece that lies in one aligned 8-byte word; with `bad`, a poison mark goes with it. -/
def State.engPut (s : State) (c : Cmd) (who unit : Nat) (a : Word) (len v : Nat) (bad host : Bool) : State × Eng Unit :=
  let mark := fun (s : State) (key : Nat) => if bad then s.markPoison c.agent key len else s
  match coreTarget a with
  | .nonCanonical => (s, .flt a 10 1)
  | .scratch sa =>
    if !scrInside sa len then (s, .flt a 8 1)
    else match s.scrWrite c who sa len v with
      | none => (s, .race a)
      | some s => (mark s (scrKey sa), .ok ())
  | .virt _ =>
    match s.engTrans c unit a len { kernel := c.kernel, isWrite := true, host := host } with
    | (s, .error e) => (s, .flt a e.num 1)
    | (s, .ok (_, p)) =>
      if isLoop p.key then
        if c.looped then
          (s.loopMerge ((p.key - loopBase) / 8 * 8) (enOf (p.key % 8) len) (wordOfNat (v <<< (8 * (p.key % 8)))), .ok ())
        else (s, .flt a 8 1)
      else (mark (s.engWrite c.agent p p.key len v) p.key, .ok ())

/-- One indivisible read-modify-write of an element that lies in one aligned 8-byte word, at its home (R202, R220, R328): the old
value, or an uncorrectable word with nothing written. -/
def State.rmwAt (s : State) (n : Nat) (p : Piece) (len : Nat) (f : Nat → Nat) : State × EngPiece :=
  let key := p.key / 8 * 8
  let s := (((if p.repl.isSome then s.applyRepl else s).flushKey n key).commitWhere fun q => q.owner = engOf n && q.key = key)
  let old := bitsOf (memWord s.mem key).toNat (8 * (p.key % 8)) (8 * len)
  if natIn s.poison key then (s, { val := old, bad := true })
  else (s.writeHome n (engOf n) p key (enOf (p.key % 8) len) (wordOfNat (bitsOf (f old) 0 (8 * len) <<< (8 * (p.key % 8)))), { val := old })

/-- The same for an element whose first k bytes end one word, at p, and whose rest begins another, at q. -/
def State.rmwSplit (s : State) (n : Nat) (p q : Piece) (k len : Nat) (f : Nat → Nat) : State × EngPiece :=
  let kp := p.key / 8 * 8
  let kq := q.key / 8 * 8
  let s := (((if p.repl.isSome || q.repl.isSome then s.applyRepl else s).flushKey n kp).flushKey n kq).commitWhere fun w =>
    w.owner = engOf n && (w.key = kp || w.key = kq)
  let lo := bitsOf (memWord s.mem kp).toNat (8 * (p.key % 8)) (8 * k)
  let old := lo + bitsOf (memWord s.mem kq).toNat (8 * (q.key % 8)) (8 * (len - k)) * 2 ^ (8 * k)
  if natIn s.poison kp || natIn s.poison kq then (s, { val := old, bad := true })
  else
    let v := f old
    ((s.writeHome n (engOf n) p kp (enOf (p.key % 8) k) (wordOfNat (bitsOf v 0 (8 * k) <<< (8 * (p.key % 8))))).writeHome n (engOf n) q kq
      (enOf (q.key % 8) (len - k)) (wordOfNat (bitsOf v (8 * k) (8 * (len - k)) <<< (8 * (q.key % 8)))), { val := old })

/-- An indivisible update for a command, at an address word. -/
def State.engRmw (s : State) (c : Cmd) (who unit : Nat) (a : Word) (len : Nat) (f : Nat → Nat) (host : Bool) : State × Eng EngPiece :=
  match coreTarget a with
  | .nonCanonical => (s, .flt a 10 2)
  | .scratch sa =>
    if !scrInside sa len then (s, .flt a 8 2)
    else if s.inShadows sa len then (s, .race a)
    else match s.raceCheck c.task c.hold (scrKey sa) len true with
      | none => (s, .race a)
      | some s =>
        let (s, r) := (s.touch (scrKey sa) len true who).rmwAt c.agent { key := scrKey sa } len f
        (s, .ok r)
  | .virt _ =>
    match s.engTrans c unit a (wordLeft a len) { kernel := c.kernel, isWrite := true, host := host } with
    | (s, .error e) => (s, .flt a e.num 2)
    | (s, .ok (_, p)) =>
      let k := wordLeft a len
      if isLoop p.key then (s, .flt a 8 2)
      else if k = len then
        let (s, r) := s.rmwAt c.agent p len f
        (s, .ok r)
      else match s.engTrans c unit (a + wordOfNat k) (len - k) { kernel := c.kernel, isWrite := true, host := host } with
        | (s, .error e) => (s, .flt (a + wordOfNat k) e.num 2)
        | (s, .ok (_, q)) =>
          let (s, r) := s.rmwSplit c.agent p q k len f
          (s, .ok r)

/-- Read len bytes from an address word by word, at most `fuel` words. -/
def State.engReadAll (c : Cmd) (who unit : Nat) (host : Bool) : Nat → Word → Nat → State → State × Eng EngPiece
  | 0, _, _, s => (s, .ok {})
  | fuel + 1, a, len, s =>
    if len = 0 then (s, .ok {})
    else
      let n := wordLeft a len
      match s.engFetch c who unit a n host with
      | (s, .ok p) =>
        match State.engReadAll c who unit host fuel (a + wordOfNat n) (len - n) s with
        | (s, .ok q) => (s, .ok { val := p.val + q.val * 2 ^ (8 * n), bad := p.bad || q.bad, isSealed := p.isSealed || q.isSealed })
        | r => r
      | r => r

def State.engRead (s : State) (c : Cmd) (who unit : Nat) (a : Word) (len : Nat) (host : Bool) : State × Eng EngPiece :=
  State.engReadAll c who unit host (len / 8 + 2) a len s

/-- Write len bytes from an address word by word, at most `fuel` words. -/
def State.engWriteAll (c : Cmd) (who unit : Nat) (bad host : Bool) : Nat → Word → Nat → Nat → State → State × Eng Unit
  | 0, _, _, _, s => (s, .ok ())
  | fuel + 1, a, len, v, s =>
    if len = 0 then (s, .ok ())
    else
      let n := wordLeft a len
      match s.engPut c who unit a n (v % 2 ^ (8 * n)) bad host with
      | (s, .ok _) => State.engWriteAll c who unit bad host fuel (a + wordOfNat n) (len - n) (v / 2 ^ (8 * n)) s
      | r => r

def State.engStore (s : State) (c : Cmd) (who unit : Nat) (a : Word) (len v : Nat) (bad host : Bool) : State × Eng Unit :=
  State.engWriteAll c who unit bad host (len / 8 + 2) a len v s

/-- Translate len bytes from an address page by page without touching them: the first fault, if any (R440). -/
def State.engProbe (s : State) (c : Cmd) (unit : Nat) (a : Word) (len : Nat) (q : Ask) (kind : Nat) : State × Eng Unit :=
  let first := min len (4096 - a.toNat % 4096)
  match s.engTrans c unit a first q with
  | (s, .error e) => (s, .flt a e.num kind)
  | (s, .ok _) =>
    if first = len then (s, .ok ())
    else
      let a2 := a + wordOfNat first
      match s.engTrans c unit a2 (min (len - first) 4096) q with
      | (s, .error e) => (s, .flt a2 e.num kind)
      | (s, .ok _) => (s, .ok ())

/-! Parks and records (R224, R309). -/

/-- The die whose fault ring takes the records of a command. -/
def Cmd.die (c : Cmd) : Nat := dieOf c.agent

/-- CTX, TOKEN and OP of a command's record. -/
def Cmd.recordCtx (c : Cmd) : Nat × Nat × Nat :=
  match c.kind with
  | .slot => (if isSeq c.agent then 0xFFFF else c.agent, c.kd.toNat, opOf c.ins)
  | .fill _ _ | .writeback _ _ _ => (c.agent, 0, 0)
  | .detach => (0xFFFD, 0, 0x79)
  | .spill _ _ => (c.agent, 0, opOf c.ins)
  | .grow | .gsw => (if isSeq c.agent then 0xFFFF else c.agent, 0, opOf c.ins)

/-- A running command has met a translation fault: it waits to be parked. -/
def State.faultCmd (s : State) (c : Cmd) (va : Word) (cause kind : Nat) : State := s.putCmd { c with st := .faulting va cause kind }

/-- ENGINE_PARK: the command parks under its handle, or a new one, and its record waits for the ring. -/
def State.parkCmd (s : State) (id : Nat) : State :=
  match s.findCmd id with
  | some c =>
    match c.st with
    | .faulting va cause kind =>
      let h := c.handle.getD s.handle
      let (ctx, tok, op) := c.recordCtx
      let r := mkRecord va cause kind op ctx tok (wordOfNat h) s.ownDev
      let s := if c.handle.isSome then s else { s with handle := s.handle + 1 }
      (s.putCmd { c with st := .parked { va := va, cause := cause, kind := kind, handle := h }, handle := some h }).addRecord c.die r
    | _ => s
  | none => s

/-- FAULT_RING_DRAIN: the oldest held record goes to the ring when it is on and has room, then PRODUCED rises (R308, R309). -/
def State.drainRing (s : State) (d : Nat) : State :=
  let x := s.die d
  match x.records with
  | [] => s
  | r :: rest =>
    let base := x.efring.bits 6 42 * 64
    let size := 2 ^ (x.efring.bits 60 4 + 4)
    let prod := s.peek base
    let cons := s.peek (base + 8)
    if !x.efring.getLsbD 0 || size ≤ (prod - cons).toNat then s
    else
      let a := base + 64 + 32 * (prod.toNat % size)
      let s := s.putBytes a 32 (r.va.toNat + r.lo.toNat <<< 64 + r.handle.toNat <<< 128 + r.hi.toNat <<< 192)
      (s.putBytes base 8 (prod + 1).toNat).modDie d fun x => { x with records := rest ++ x.owed.take 1, owed := x.owed.drop 1 }

/-! Ending a command. -/

/-- A copy-class, memory or sparse command is over: its token ends with its status (R103, R220). -/
def State.endCmd (s : State) (c : Cmd) (st : BitVec 8) : State :=
  let s := (s.dropCmd c.id).settleEng c.agent
  match c.kind with
  | .slot => s.endToken c.agent c.kd c.rep st c.raceVa
  | _ => s

/-- A command that parked without a record, and goes on before there was room, leaves none (R309). -/
def State.disown (s : State) (d h : Nat) : State :=
  s.modDie d fun x => { x with owed := x.owed.filter fun r => r.handle != wordOfNat h }

/-- SYS CERESUME (R264): the parked command of the handle, of the issuer's job when it is a context, restarts or is aborted; the
end of an aborted command is left to `abort`. -/
def State.resumeHandle (s : State) (n : Nat) (v : Word) (abort : State → Cmd → State) : State :=
  let h := v.bits 0 63
  let found := s.cmds.find? fun c => match c.st with
    | .parked p => p.handle = h && (isSeq n || c.job = (s.ctxAt n).job)
    | _ => false
  match found with
  | none => s
  | some c =>
    let s := s.disown c.die h
    if v.getLsbD 63 then abort s c else s.putCmd { c with st := .running }

/-! Starting a command (R105, R106, R204, R221, R222). -/

/-- Commands that carry REL and RSCOPE, with the scope when REL is set (R221). -/
def Cmd.relScope (c : Cmd) : Option Nat :=
  let rel := fun (w : Word) (b lo : Nat) => if w.getLsbD b then some (w.bits lo 2) else none
  match c.ins with
  | .cpy _ _ _ _ _ => rel (c.parAt 6) 11 12
  | .cprWrite _ _ _ _ _ | .cprRead _ _ _ _ _ | .crd _ _ _ _ _ => rel (c.parAt 3) 11 12
  | .csg _ _ _ _ _ sc => some (match sc with | .ctx => 0 | .grp => 1 | .dev => 2 | .sys => 3)
  | .gth _ _ _ _ _ | .sct _ _ _ _ _ | .sca _ _ _ _ _ => rel (c.parAt 4) 51 52
  | _ => none

def scopeOfNat (n : Nat) : Scope := if n = 0 then .ctx else if n = 1 then .grp else if n = 2 then .dev else .sys

/-- Copy-engine commands. -/
def isCopy (i : Instr) : Bool := let op := opOf i; 0x6D ≤ op && op ≤ 0x70

/-- A command has nothing left to do or to be answered. -/
def cmdAnswered (s : State) (c : Cmd) : Bool := c.st = .done && !s.fab.reqs.any (·.cmd = c.id)

/-- The release part of a command can be done now: earlier accesses of its context have been performed, and at sys scope the earlier
copy commands of its ordering domain have been answered (R221, R326). -/
def releaseReady (s : State) (c : Cmd) : Bool :=
  match c.relScope with
  | none => true
  | some sc =>
    ((s.pathOf c).all fun a => c.sn ≤ a.1 || a.2.2) &&
    (sc != 3 || s.cmds.all fun d => !(d.agent = c.agent && d.kind = .slot && isCopy d.ins && d.id < c.id && !cmdAnswered s d))

/-- A copy command's NB hold is over (R222). -/
def nbReady (s : State) (c : Cmd) : Bool :=
  match c.ins with
  | .cpy _ _ _ _ _ => !(c.parAt 6).getLsbD 16 || (c.parAt 7).ule s.step64
  | .cprWrite _ _ _ _ _ | .cprRead _ _ _ _ _ | .crd _ _ _ _ _ => !(c.parAt 3).getLsbD 16 || (c.parAt 4).ule s.step64
  | _ => true

/-- A command is stopped by a freeze of its job: its copy-class commands, fills and writebacks from the freeze on, every command while
the job is being restored; a switch request is the sequencer's own and goes on (R414, R418, R422). -/
def State.stopped (s : State) (c : Cmd) : Bool :=
  s.jobs.any fun k => c.kind != .gsw && k.job = c.job && k.frozen && (c.kind != .slot || cls c.ins = .e || k.st0 = 6 || k.st1 = 6)

end Sys2Proof.Machine
end

