-- ==== Sys2Proof/Machine/Planes.lean ====
section
/-! DEFINITION. Plane-major blocks (R56 to R58) and the alignment of BF16 blocks (R59, R60). Format codes are those of the PCW
(R167): 0 to 4 the MX floats, 5 MXINT8, 6 BF16, 7 AINT4, 8 AINT8, 9 S8. -/

namespace Sys2Proof.Machine

/-- The code whose bits, highest first, are the planes of an element: its own code; sign and magnitude for MXINT8 and S8; sign,
offset and fraction for BF16 (R56). -/
def storedCode (fmt v : Nat) : Nat :=
  if fmt = 5 || fmt = 9 then
    let q := sextNat v 8
    if q < 0 then 256 + q.natAbs else q.toNat
  else v

/-- The element code that a stored code denotes. -/
def elemCode (fmt v : Nat) : Nat :=
  if fmt = 5 || fmt = 9 then (if v < 256 then v else (65536 - v % 256) % 256) else v

/-- The plane words of a block, in storage order, from the stored codes of its elements. -/
def packPlanes (fmt : Nat) (codes : List Nat) : List Nat :=
  let w := wordsPerBlock fmt
  (upTo w).map fun p => (codes.take 32).foldr (fun c a => 2 * a + bitsOf c (w - 1 - p) 1) 0

/-- The stored codes of the 32 elements of a block from its plane words. -/
def unpackPlanes (words : List Nat) : List Nat :=
  (upTo 32).map fun i => words.foldl (fun a x => 2 * a + bitsOf x i 1) 0

/-- The plane words as one number, for a store. -/
def planesNat (ws : List Nat) : Nat := ws.foldr (fun w a => a * 2 ^ 32 + w) 0

/-- BF16 block alignment (R59): the block exponent, the stored codes and the conversion events of a block of BF16 patterns. -/
def alignBf16 (xs : List Nat) : Nat × List Nat × Nat :=
  let raw := fun x => bitsOf x 7 8
  let sign := fun x => bitsOf x 15 1 * 4096
  let flushed := fun x => sign x + 31 * 128
  let bad := xs.countP fun x => raw x = 255
  if bad != 0 then (255, xs.map flushed, bad)
  else
    let isZ := fun x => x % 32768 = 0
    let e := xs.foldl (fun a x => if isZ x then a else max a (raw x)) 0
    let lost := fun x => !isZ x && (31 < e - raw x || (e - raw x = 31 && x % 128 = 0))
    (e, xs.map fun x => if isZ x || lost x then flushed x else sign x + (e - raw x) * 128 + x % 128, xs.countP lost)

/-- The value of a stored BF16 element under its block exponent (R60). -/
def bf16Stored (e code : Nat) : FVal :=
  let neg := bitsOf code 12 1 = 1
  let off := bitsOf code 7 5
  let f := code % 128
  if e = 255 then .nan false
  else if off = 31 && f = 0 then .fin ⟨neg, 0, 0⟩
  else
    let x : Int := (e : Int) - off
    .fin ⟨neg, f + (if 1 ≤ x then 128 else 0), max x 1 - 127 - 7⟩

/-- The stored code that encodes zero in a padded element of a block, apart from AINT (R58). -/
def zeroStored (fmt : Nat) : Nat := if fmt = 6 then 31 * 128 else 0

end Sys2Proof.Machine
end

