-- ==== Sys2Proof/Machine/Lanes.lean ====
section
/-! DEFINITION. Lanes of a row (R18), what a mask governs (R139), and the shape that vector slots share (R138, R141). -/

namespace Sys2Proof.Machine

/-- Lanes per register (R87). -/
def laneCount (t : ETy) : Nat := 2048 / t.bytes

/-- The lanes of a row, lane 0 first. -/
def lanesOf (t : ETy) (r : Row) : List Nat := (upTo (laneCount t)).map fun i => r.bits (8 * t.bytes * i) (8 * t.bytes)

/-- The row that holds these lanes. -/
def rowOf (t : ETy) (l : List Nat) : Row :=
  BitVec.ofNat 16384 (l.foldr (fun v a => a * 2 ^ (8 * t.bytes) + v % 2 ^ (8 * t.bytes)) 0)

/-- The governing bits of a mask (R139). -/
def activeLanes (t : ETy) (m : Mask) : List Bool := (upTo (laneCount t)).map fun i => m.getLsbD (t.bytes * i)

/-- The mask that covers the bytes of the lanes that are true. -/
def laneMask (t : ETy) (l : List Bool) : Mask :=
  BitVec.ofNat 2048 (l.foldr (fun b a => a * 2 ^ t.bytes + (if b then 2 ^ t.bytes - 1 else 0)) 0)

/-- The bytes that mask m governs at a lane width. -/
def governed (t : ETy) (m : Mask) : Mask := if m = BitVec.allOnes 2048 then m else laneMask t (activeLanes t m)

/-- A vector result under a mask: the lanes and their flags, of which only active ones count (R47, R139). -/
def Ctx.addLanes (c : Ctx) (lat : Nat) (d : Reg) (mk : MReg) (t : ETy) (l : List (Nat × Flags)) : Ctx :=
  let m := c.getM mk
  c.addPend lat (.v d (rowOf t (l.map (·.1))) (governed t m)) (gatherFlags ((activeLanes t m).zip (l.map (·.2))))

/-- A result that writes all lanes. -/
def Ctx.addWhole (c : Ctx) (lat : Nat) (d : Reg) (r : Row) (fl : Flags) : Ctx :=
  c.addPend lat (.v d r (BitVec.allOnes 2048)) fl

/-- VRM.RM (R48). -/
def Ctx.vrm (c : Ctx) : RMode := (RMode.ofCode (c.cr[crVrm].extractLsb' 0 3)).getD .rne

/-- The draws of n lanes from the counter on. -/
def Ctx.draws (c : Ctx) (n : Nat) : List Nat := (upTo n).map fun i => draw24 c.cr[crRngk] c.counter i

/-- The random bits of n lanes under a rounding mode, and the context after them: only SR takes counters (R63, R72). -/
def Ctx.roundBits (c : Ctx) (rm : RMode) (n : Nat) : List Nat × Ctx :=
  if rm = .sr then (c.draws n, c.takeDraws n) else (List.replicate n 0, c)

/-- One function over the lanes of one vector. -/
def vUn (lat : Nat) (d a : Reg) (mk : MReg) (t : ETy) (f : Nat → Nat × Flags) : State → Out :=
  onCtx fun c => c.addLanes lat d mk t ((lanesOf t (c.getV a)).map f)

/-- One function over the lanes of two vectors. -/
def vBin (lat : Nat) (d a b : Reg) (mk : MReg) (t : ETy) (f : Nat → Nat → Nat × Flags) : State → Out :=
  onCtx fun c => c.addLanes lat d mk t (((lanesOf t (c.getV a)).zip (lanesOf t (c.getV b))).map fun p => f p.1 p.2)

/-- A function over lanes that rounds by VRM.RM: it takes the mode and the lane's random bits. Integer types take no counters. -/
def vRound (lat : Nat) (d : Reg) (mk : MReg) (t : ETy) (f : Ctx → List (RMode → Nat → Nat × Flags)) : State → Out :=
  onCtx fun c =>
    let (us, c1) := if t.isFloat then c.roundBits c.vrm (laneCount t) else (List.replicate (laneCount t) 0, c)
    c1.addLanes lat d mk t (((f c).zip us).map fun p => p.1 c.vrm p.2)

end Sys2Proof.Machine
end

