-- ==== Sys2Proof/Machine/VConv.lean ====
section
/-! DEFINITION. VCVT (R152 to R154) and VQMX (R155 to R157). -/

namespace Sys2Proof.Machine

/-- One element converted from type t to type dt (R153). -/
def cvtElem (t dt : ETy) (rm : RMode) (x u : Nat) : Nat × Flags :=
  if t.isFloat then
    let v := (fmtOf t).unpack x
    if dt.isFloat then
      let f := fmtOf dt
      match v with
      | .nan sg => (f.qnan, if sg then fNV else 0)
      | .inf n => (f.signBit n + f.infCode, 0)
      | .fin d => if t = dt then (x, 0) else f.round rm d u
    else cvtToInt dt rm v u
  else
    let i := intOf t x
    if dt.isFloat then cvtFromInt (fmtOf dt) rm i u
    else
      let j := max (intMin dt) (min (intMax dt) i)
      (truncInt j (8 * dt.bytes), if j = i then 0 else fSAT)

/-- The registers of a group, in order. -/
def groupLanes (c : Ctx) (t : ETy) (rs : List Reg) : List Nat := rs.flatMap fun r => lanesOf t (c.getV r)

/-- Results to a group of registers: the elements in order, each register with its own lanes; element e is governed by the bit of
its place in the narrow register (R152). -/
def addGroup (lat : Nat) (m : Mask) (narrow dt : ETy) : List Reg → List (Nat × Flags) → List Bool → Ctx → Ctx
  | [], _, _, c => c
  | r :: rs, l, act, c =>
    let k := laneCount dt
    let here := l.take k
    let a := act.take k
    let en := if m = BitVec.allOnes 2048 then m else laneMask dt a
    addGroup lat m narrow dt rs (l.drop k) (act.drop k)
      (c.addPend lat (.v r (rowOf dt (here.map (·.1))) en) (gatherFlags (a.zip (here.map (·.2)))))

/-- VCVT. -/
def execVcvt (d a : Reg) (dt : ETy) (rm : RMode) (mk : MReg) (t : ETy) (s : State) : Out :=
  issue (.vcvt d a dt rm mk t) (onCtx fun c =>
    let narrow := if t.bytes ≤ dt.bytes then t else dt
    let n := laneCount narrow
    let (us, c1) := c.roundBits rm n
    let l := ((groupLanes c t (cvtRegs a t dt)).zip us).map fun p => cvtElem t dt rm p.1 p.2
    let m := c.getM mk
    addGroup 4 m narrow dt (cvtRegs d dt t) l (activeLanes narrow m) c1) s

/-- What one block of a VQMX writes, planes first, then its scale byte, and its flags (R65, R156). `base` and `soff` are scratch
addresses. -/
def qmxBlock (t : ETy) (fmt : Nat) (rm : RMode) (base soff : Nat) (xs us : List Nat) : List (Nat × Nat × Nat) × Flags :=
  let vs := xs.map (fmtOf t).unpack
  let (sc, codes) := quantBlock fmt rm vs us
  let nv : Flags := if vs.any FVal.isSnan then fNV else 0
  let fl := codes.foldl (fun a p => a ||| p.2) nv
  let w := wordsPerBlock fmt
  ([(base, 4 * w, planesNat (packPlanes fmt (codes.map fun p => storedCode fmt p.1))), (soff, 1, sc)], fl)

/-- The writes of a VQMX in order, and its flags; a block is written when its first lane's governing bit is 1 (R156, R157). -/
def qmxAll (t : ETy) (fmt : Nat) (rm : RMode) (pa soff : Nat) (act : List Bool) (xs us : List Nat) :
    List (Nat × Nat × Nat) × Flags :=
  let nb := laneCount t / 32
  (upTo nb).foldl (fun acc j =>
    if (act[32 * j]?).getD false then
      let r := qmxBlock t fmt rm (pa + j * 4 * wordsPerBlock fmt) (pa / 2 ^ 22 * 2 ^ 22 + soff + j)
        ((xs.drop (32 * j)).take 32) ((us.drop (32 * j)).take 32)
      (acc.1 ++ r.1, acc.2 ||| r.2)
    else acc) ([], 0)

/-- VQMX: its flags land at latency 4; its writes go to the memory path. -/
def execVqmx (a b : Reg) (mk : MReg) (t : ETy) (s : State) : Out :=
  issue (.vqmx a b mk t) (fun s =>
    let c := s.ctxAt s.cur
    let x := c.getX b
    let fmt := x.bits 31 4
    let rm := (RMode.ofCode (x.extractLsb' 35 3)).getD .rne
    let (us, c1) := c.roundBits rm (laneCount t)
    let r := qmxAll t fmt rm (x.bits 0 31) (x.bits 38 22) (activeLanes t (c.getM mk)) (lanesOf t (c.getV a)) us
    let s := s.setCtx s.cur (c1.addPend 4 .flags r.2)
    .next (if r.1.isEmpty then s
      else s.addAccess s.cur (.vqmx a b mk t) fun _ e => { e with vb := x, wr := r.1, st := .ready { key := scrKey (x.bits 0 31) } none })) s

end Sys2Proof.Machine
end

