-- ==== Sys2Proof/Machine/Copy.lean ====
section
/-! DEFINITION. Copy engines (R227 to R235, R465): the five modes of CPY in walk order with their completion record, the requester side
of CPR, CRD and CSG (R375, R380), and the transfers of regions and declared tiles (R206, R207, R297, R353). -/

namespace Sys2Proof.Machine

/-! Progress. -/

/-- A running command stops before a racing access with status Race (R314), which tells of its address (R266): what stands before
`stop` is not done. -/
def State.raceCmd (s : State) (c : Cmd) (stop : Nat) (a : Word) : State :=
  s.putCmd { c with status := 0x24, raceVa := raceAddr a, done := stop }

/-- Take over what a piece of an access gave: go on, or wait for a park, or stop at a race. -/
def afterEng {α : Type} (s : State) (c : Cmd) (stop : Nat) (r : Eng α) (f : α → State) : State :=
  match r with
  | .ok a => f a
  | .flt va cause kind => s.faultCmd c va cause kind
  | .race a => s.raceCmd c stop a

/-- Keep the first error status of an engine command. -/
def Cmd.note (c : Cmd) (st : BitVec 8) : Cmd := if c.status = 0 then { c with status := st } else c

/-! CPY. -/

def cSaddr (c : Cmd) : Word := c.parAt 0
def cDaddr (c : Cmd) : Word := c.parAt 1
def cLen (c : Cmd) : Nat := cpyLen (c.parAt 2)
def cRows (c : Cmd) : Nat := cpyRows (c.parAt 2)
def cSstr (c : Cmd) : Nat := (c.parAt 3).bits 32 32
def cDstr (c : Cmd) : Nat := (c.parAt 3).bits 0 32
def cFlags (c : Cmd) : Word := c.parAt 6
def cRec (c : Cmd) : Word := c.parAt 8

/-- Units of the body of a CPY: bytes in modes 0 and 3, blocks in modes 1 and 2, pages in mode 4. -/
def cpyBody (c : Cmd) : Nat :=
  match cpyMode (cFlags c) with
  | 0 | 3 => cRows c * cLen c
  | 1 | 2 => cRows c * ceilDiv (cLen c) 32
  | _ => cRows c

/-- The end of a CPY, its completion record among its units (R232). -/
def cpyEnd (c : Cmd) : Nat := cpyBody c + (if cRec c = 0 then 0 else 1)

/-- Stop a CPY early with a status: what is left is the completion record. -/
def State.stopCpy (s : State) (c : Cmd) (st : BitVec 8) : State := s.putCmd { c with status := st, done := cpyBody c }

/-- The unit of translation of a command's copy engine. -/
def Cmd.unit (c : Cmd) : Nat := unitOf c.agent

/-- The draw of the mark for a block of a frame (R465). -/
def markDraw (sealk frame : Word) (b : Nat) : BitVec 128 := draw sealk (frame ++ wordOfNat b)

/-- A byte of a marked plane (R465): row y, column x. -/
def markByte (c : Cmd) (y x v : Nat) : Nat :=
  let d := markDraw c.sealing (c.parAt 4) (y / 8 * (cLen c / 8) + x / 8)
  let lo := (d.extractLsb' 0 64).toNat
  let hi := (d.extractLsb' 64 64).toNat
  if 0x80 ≤ lo % 256 then v
  else if (bitsOf hi (8 * (y % 8) + x % 8) 1 = 1) != c.prov.getLsbD (bitsOf lo 8 6) then min 255 (v + 1) else v - 1

/-- Blocks of which this piece holds the first byte and that the mark changes. -/
def markCount (c : Cmd) (y x len : Nat) : Nat :=
  ((upTo len).filter fun j => y % 8 = 0 && (x + j) % 8 = 0 &&
    (markDraw c.sealing (c.parAt 4) (y / 8 * (cLen c / 8) + (x + j) / 8)).toNat % 256 < 0x80).length

/-- The destination of a write lies outside the package: a host frame (R226). -/
def State.isHostVa (s : State) (c : Cmd) (a : Word) : Bool :=
  match coreTarget a with
  | .virt va => match s.walk c.root va with
    | .ok (leaf, _) => 2 ^ 47 ≤ pteFrame leaf
    | .error _ => false
  | _ => false

/-- What a block reads is SEALED, and what it writes lies outside the package (R226). -/
def State.leaksSeal (s : State) (c : Cmd) (p : EngPiece) (a : Word) (len : Nat) : Bool :=
  p.isSealed && (s.isHostVa c a || s.isHostVa c (a + wordOfNat (len - 1)))

/-- Row, column and bytes left of its run at byte i of a plane: row by row in mode 0, and in mode 3 block by block, each of 8 rows of
8 bytes (R465). -/
def cpyPlace (c : Cmd) (i : Nat) : Nat × Nat × Nat :=
  let len := cLen c
  if cpyMode (cFlags c) = 3 then
    let b := i / 64
    (b / (len / 8) * 8 + i % 64 / 8, b % (len / 8) * 8 + i % 8, 8 - i % 8)
  else (i / len, i % len, len - i % len)

/-- A piece of modes 0 and 3: the bytes of a run up to the end of a destination word. A fault in the source stops after the bytes
before it. A marked plane whose source maps a host frame is copied like any other: R230 says that it must lie in the package and names
no outcome (log entry 44). -/
def cpyPiece (s : State) (c : Cmd) : State :=
  let (y, x, left) := cpyPlace c c.done
  let da := cDaddr c + wordOfNat (y * cDstr c + x)
  let sa := cSaddr c + wordOfNat (y * cSstr c + x)
  let n := wordLeft da left
  let mark := cpyMode (cFlags c) = 3
  let stop := cpyBody c
  let put := fun (s : State) (n : Nat) (p : EngPiece) (next : State → Cmd → State) =>
    if p.isSealed && !mark && s.isHostVa c da then s.stopCpy c 0x45
    else
      let v := if mark then natLE (((upTo n).zip (bytesLE p.val n)).map fun q => BitVec.ofNat 8 (markByte c y (x + q.1) q.2.toNat)) else p.val
      let (s, r) := s.engPut c 1 c.unit da n v p.bad true
      afterEng s c stop r fun _ =>
        let c := if p.bad then c.note 0x41 else c
        next s { c with done := c.done + n, aux2 := c.aux2 + n, aux := if mark then c.aux + markCount c y x n else c.aux }
  if cpyZfill (cFlags c) then put s n {} fun s c => s.putCmd c
  else
    let n1 := wordLeft sa n
    let (s, r) := s.engFetch c 1 c.unit sa n1 true
    afterEng s c stop r fun p =>
      if n1 = n then put s n p fun s c => s.putCmd c
      else
        let sa2 := sa + wordOfNat n1
        let (s, r2) := s.engFetch c 1 c.unit sa2 (n - n1) true
        match r2 with
        | .ok q =>
          if q.isSealed && !p.isSealed && !mark && s.isHostVa c da then put s n1 p fun s c => s.stopCpy c 0x45
          else put s n { val := p.val + q.val * 2 ^ (8 * n1), bad := p.bad || q.bad, isSealed := p.isSealed || q.isSealed } fun s c => s.putCmd c
        | .flt va cause kind => put s n1 p fun s c => s.faultCmd c va cause kind
        | .race a => put s n1 p fun s c => s.raceCmd c stop a

/-- Bytes from an address as little-endian codes of w bits each. -/
def unpackBits (w n v : Nat) : List Nat := (upTo n).map fun i => bitsOf v (w * i) w
def packBits (w : Nat) (l : List Nat) : Nat := l.foldr (fun c a => a * 2 ^ w + c) 0

/-- The stored codes, side byte and conversion events of a block in mode 1 (R229). -/
def blockIn (fmt : Nat) (codes : List Nat) (scale : Nat) : List Nat × Nat × Nat :=
  if fmt = 6 then
    let (e, st, ev) := alignBf16 codes
    (st, e, ev)
  else (codes.map (storedCode fmt), scale, 0)

/-- Mode 1, one block: element layout to planes (R229). -/
def cpyToPlane (s : State) (c : Cmd) : State :=
  let f := cFlags c
  let fmt := cpyFmt f
  let len := cLen c
  let nb := ceilDiv len 32
  let w := elemBits fmt
  let r := c.done / nb
  let b := c.done % nb
  let cnt := min 32 (len - 32 * b)
  let e := sideEntry fmt
  let ns := cpySides f len
  let grp := cpyGroup f
  let entry := if isAint fmt then 32 * b / grp else b
  let first := !isAint fmt || 32 * b % grp = 0
  let stop := cpyBody c
  let (s, r1) := s.engRead c 1 c.unit (cSaddr c + wordOfNat (r * cSstr c + 4 * w * b)) (ceilDiv (cnt * w) 8) true
  afterEng s c stop r1 fun src =>
    let hasSide := e != 0 && fmt != 6 && entry < ns
    let (s, r2) := if hasSide then s.engRead c 1 c.unit (c.parAt 4 + wordOfNat ((r * ns + entry) * e)) e true else (s, .ok {})
    afterEng s c stop r2 fun side =>
      let bad := src.bad || side.bad
      let (st, sc, ev) := blockIn fmt (unpackBits w cnt src.val) side.val
      let words := packPlanes fmt (st ++ List.replicate (32 - st.length) (zeroStored fmt))
      let da := cDaddr c + wordOfNat (r * cDstr c + b * 4 * wordsPerBlock fmt)
      if s.leaksSeal c { src with isSealed := src.isSealed || side.isSealed } da (4 * wordsPerBlock fmt) then s.stopCpy c 0x45 else
      let (s, r3) := s.engStore c 1 c.unit da (4 * wordsPerBlock fmt) (planesNat words) bad true
      afterEng s c stop r3 fun _ =>
        let putSide := e != 0 && entry < ns && (first || bad)
        let (s, r4) := if putSide then s.engStore c 1 c.unit (c.parAt 5 + wordOfNat ((r * ns + entry) * e)) e sc bad true else (s, .ok ())
        afterEng s c stop r4 fun _ =>
          let c := if bad then c.note 0x41 else c
          s.putCmd { c with done := c.done + 1, aux := c.aux + ev
                            aux2 := c.aux2 + 4 * wordsPerBlock fmt + (if putSide && first then e else 0) }

/-- The element codes of a block from its stored codes in mode 2 (R229). -/
def blockOut (fmt : Nat) (stored : List Nat) (e : Nat) : List Nat :=
  if fmt = 6 then
    stored.map fun v => match bf16Stored e v with
      | .nan _ => 0x7FC0
      | .inf n => fmtBf16.signBit n + fmtBf16.infCode
      | .fin d => if d.m = 0 then fmtBf16.signBit d.neg else (fmtBf16.round .rne d 0).1
  else stored.map (elemCode fmt)

/-- Mode 2, one block: planes back to element layout (R229). A row of 6-bit elements that ends inside a 3-byte group has its last byte
filled with zero bits, and no byte of the group after it is written: R51 and R229 do not say how far the padding runs (log entry 45). -/
def cpyFromPlane (s : State) (c : Cmd) : State :=
  let f := cFlags c
  let fmt := cpyFmt f
  let len := cLen c
  let nb := ceilDiv len 32
  let w := elemBits fmt
  let r := c.done / nb
  let b := c.done % nb
  let cnt := min 32 (len - 32 * b)
  let e := sideEntry fmt
  let ns := cpySides f len
  let grp := cpyGroup f
  let entry := if isAint fmt then 32 * b / grp else b
  let first := !isAint fmt || 32 * b % grp = 0
  let stop := cpyBody c
  let wb := wordsPerBlock fmt
  let (s, r1) := s.engRead c 1 c.unit (cSaddr c + wordOfNat (r * cSstr c + b * 4 * wb)) (4 * wb) true
  afterEng s c stop r1 fun src =>
    let (s, r2) := if e != 0 && entry < ns then s.engRead c 1 c.unit (c.parAt 4 + wordOfNat ((r * ns + entry) * e)) e true else (s, .ok {})
    afterEng s c stop r2 fun side =>
      let bad := src.bad || side.bad
      let stored := (unpackPlanes ((upTo wb).map fun k => bitsOf src.val (32 * k) 32)).take cnt
      let n := ceilDiv (cnt * w) 8
      let da := cDaddr c + wordOfNat (r * cDstr c + 4 * w * b)
      if s.leaksSeal c { src with isSealed := src.isSealed || side.isSealed } da n then s.stopCpy c 0x45 else
      let (s, r3) := s.engStore c 1 c.unit da n (packBits w (blockOut fmt stored side.val)) bad true
      afterEng s c stop r3 fun _ =>
        let putSide := e != 0 && fmt != 6 && entry < ns && (first || bad)
        let (s, r4) := if putSide then s.engStore c 1 c.unit (c.parAt 5 + wordOfNat ((r * ns + entry) * e)) e side.val bad true else (s, .ok ())
        afterEng s c stop r4 fun _ =>
          let c := if bad then c.note 0x41 else c
          s.putCmd { c with done := c.done + 1, aux2 := c.aux2 + n + (if putSide && first then e else 0) }

/-! Migration (R231, R311). -/

/-- A walk that also gives where the leaf lies. -/
def walkAt (s : State) (va : Nat) : Nat → Nat → Except Cause (Nat × Word × Nat)
  | 0, _ => .error .pageFault
  | fuel + 1, t =>
    let level := 5 - fuel
    let a := t + 8 * bitsOf va (levelShift level) (levelBits level)
    if !installed a 8 then .error .protection
    else
      let e := s.peek a
      if !pteV e then .error .pageFault
      else if !pteLeaf e then
        if level = 5 || e.bits 48 16 != 0 || e.bits 2 10 != 0 then .error .pageFault
        else walkAt s va fuel (pteFrame e)
      else if level < 2 || pteMalformed e level then .error .pageFault
      else .ok (a, e, 2 ^ levelShift level)

/-- Drop what the translation units hold for a virtual address of a job (R261). -/
def State.dropTlb (s : State) (f : Tlb → Bool) : State :=
  { s with units := s.units.map fun u => (u.1, { u.2 with held := u.2.held.filter fun t => !f t }) }

/-- Copy the bytes of a range of physical memory, as a list of cells. -/
def memMove (m : Mem) (src dst len : Nat) : Mem :=
  ((m.filter fun c => src ≤ c.1 && c.1 < src + len).map fun c => (c.1 + dst - src, c.2)).foldl (fun m c => memSet m c.1 c.2)
    (memClear m dst (dst + len))

/-- One page of mode 4. The hold is the unit itself: it waits until every access translated to the page has been performed. -/
def cpyMigrate (s : State) (c : Cmd) : State :=
  let len := cLen c
  let va := (cSaddr c + wordOfNat (c.done * len))
  let dst := (cDaddr c).bits 12 45 * 4096 + c.done * len
  if va.bits 57 7 != 0 then s.faultCmd c va 10 0
  else match walkAt s va.toNat 6 (c.root.bits 12 45 * 4096) with
    | .error e => s.faultCmd c va e.num 0
    | .ok (a, e, size) =>
      let src := pteFrame e
      if size != len || pteRepl e || 2 ^ 47 ≤ dst || !installed dst len || overlaps src len dst len then s.stopCpy c 0x4A
      else match checkLeaf s e size va.toNat len { kernel := c.kernel, host := true } with
        | .error e => s.faultCmd c va e.num 0
        | .ok _ =>
          let inPage := fun (p : Piece) => overlaps p.key 8 src len
          let busy := s.fab.flights.any (fun g => g.trans.any fun t => inPage t.2) || s.ctxs.any fun q => q.2.acc.any fun x => match x.st with
            | .ready p none => inPage p
            | .ready p (some q) => inPage p || inPage q
            | _ => false
          if busy then s
          else
            let s := s.commitWhere fun p => src ≤ p.key && p.key < src + len
            let bad := s.poison.filter fun k => src ≤ k && k < src + len
            let s := { s with mem := memMove s.mem src dst len
                              poison := (bad.flatMap fun k => (upTo 8).map fun j => (k + dst - src) / 64 * 64 + 8 * j).foldl natAdd
                                (s.poison.filter fun k => k < dst || dst + len ≤ k) }
            if !bad.isEmpty then s.stopCpy c 0x41
            else
              let e' := (e &&& ~~~(0x0000FFFFFFFFF800#64)) ||| wordOfNat (dst + ofBoolNat ((cDaddr c).getLsbD 0) <<< 11)
              let s := (s.putBytes a 8 e'.toNat).dropTlb fun t => t.covers c.job va.toNat
              s.putCmd { c with done := c.done + 1, aux2 := c.aux2 + len }

/-- The completion record (R232). -/
def cpyRecord (s : State) (c : Cmd) : State :=
  let mode := cpyMode (cFlags c)
  let ev := if mode = 1 then min c.aux 0xFFFFFFFF else 0
  let mk := if mode = 3 then min c.aux 0xFFFFFFFF else 0
  let (s, r) := s.engStore c 1 c.unit (cRec c) 16 (ev + mk <<< 32 + c.aux2 <<< 64) false true
  afterEng s c (cpyEnd c) r fun _ => s.putCmd { c with done := c.done + 1 }

/-- One unit of a CPY. -/
def cpyUnit (s : State) (c : Cmd) : State :=
  if cpyBody c ≤ c.done then cpyRecord s c
  else match cpyMode (cFlags c) with
    | 0 | 3 => cpyPiece s c
    | 1 => cpyToPlane s c
    | 2 => cpyFromPlane s c
    | _ => cpyMigrate s c

/-! Remote requests. -/

/-- A packet's bytes end at the next 256-byte boundary of the remote address (R375). -/
def packetLen (ra : Word) (left : Nat) : Nat := min left (256 - ra.toNat % 256)

/-- The job device that a command's requests are numbered for: that of its task's share, and for a command sequencer, which belongs to no
share, the lowest that this device hosts (R380, R411; log entry 17). -/
def State.jobDevFor (s : State) (c : Cmd) : Nat :=
  match c.task.bind fun t => (s.tasks.find? (·.id = t)).bind fun t => s.shares.find? (·.id = t.share) with
  | some h => h.jd
  | none => s.ownJobDev c.job

/-- A request of a command to a job device. -/
def State.requestFor (s : State) (c : Cmd) (off jd : Nat) (p : Packet) : State :=
  s.request (dieOf c.agent) c.id off jd { p with dest := s.mapDev c.job jd, src := s.jobDevFor c, jid := c.job, kern := c.kernel }

def State.maySendFor (s : State) (c : Cmd) (jd op cls : Nat) : Bool :=
  s.maySend (dieOf c.agent) c.job (s.jobDevFor c) jd op cls

/-- The next packet of a CPR write or a CRD: its payload is read here; a packet that would carry an uncorrectable byte is not sent
(R233). The command ends at the first sealed page of its source, with the bytes before it sent (R226). -/
def sendPacket (s : State) (c : Cmd) (op cls arg : Nat) : State :=
  let len := (c.parAt 2).bits 0 32
  let jd := (c.parAt 2).bits 32 12
  let ra := c.parAt 1 + wordOfNat c.done
  let la := c.parAt 0 + wordOfNat c.done
  let n := packetLen ra (len - c.done)
  let k := min n (4096 - la.toNat % 4096)
  let send := fun (s : State) (c : Cmd) (n : Nat) (p : EngPiece) =>
    if p.bad then s.putCmd { c.note 0x41 with done := c.done + n }
    else
      (s.requestFor c c.done jd { dest := 0, src := 0, die := 0, cls := cls, op := op, len := n, arg := arg, va := ra
                                  data := bytesLE p.val n }).putCmd { c with done := c.done + n }
  let endSealed := fun (s : State) => s.modCmd c.id fun c => { c with status := 0x45, done := len }
  if !s.maySendFor c jd op cls then s
  else
    let (s, r) := s.engRead c 1 c.unit la k true
    afterEng s c len r fun p =>
      if p.isSealed then endSealed s
      else if k = n then send s c n p
      else
        let (s, r2) := s.engRead c 1 c.unit (la + wordOfNat k) (n - k) true
        afterEng s c len r2 fun q =>
          if q.isSealed then endSealed (send s c k p)
          else send s c n { val := p.val + q.val * 2 ^ (8 * k), bad := p.bad || q.bad }

/-- The next packet of a CPR read; the local end is translated first. -/
def sendRead (s : State) (c : Cmd) : State :=
  let len := (c.parAt 2).bits 0 32
  let jd := (c.parAt 2).bits 32 12
  let ra := c.parAt 1 + wordOfNat c.done
  let la := c.parAt 0 + wordOfNat c.done
  let n := packetLen ra (len - c.done)
  let cls := if (c.parAt 3).getLsbD 14 then 2 else 0
  if !s.maySendFor c jd 2 cls then s
  else
    let (s, r) := match coreTarget la with
      | .scratch _ => (s, Eng.ok ())
      | _ => s.engProbe c c.unit la n { kernel := c.kernel, isWrite := true, host := true } 1
    afterEng s c len r fun _ =>
      (s.requestFor c c.done jd { dest := 0, src := 0, die := 0, cls := cls, op := 2, len := n, va := ra }).putCmd
        { c with done := c.done + n }

/-- CSG (R235): a local counter takes the increment in one step, a remote one by a request. -/
def csgUnit (s : State) (c : Cmd) : State :=
  let f := c.parAt 1
  let inc := f.bits 0 32
  if f.getLsbD 44 then
    let jd := f.bits 32 12
    if !s.maySendFor c jd 4 0 then s
    else (s.requestFor c 0 jd { dest := 0, src := 0, die := 0, cls := 0, op := 4, va := c.parAt 0, val := wordOfNat inc }).putCmd
      { c with done := 1 }
  else
    let (s, r) := s.engRmw c 1 c.unit (c.parAt 0) 8 (fun o => o + inc) true
    afterEng s c 1 r fun p => s.putCmd { (if p.bad then c.note 0x41 else c) with done := 1 }

/-! Regions and declared tiles. -/

/-- The region of a slice with a base. -/
def CoreSt.regionAt (k : CoreSt) (base : Nat) : Option Region := k.regions.find? (·.base = base)

/-- Fill one word of scratch from a backing, or with zeros (R206, R297). -/
def fillWord (s : State) (c : Cmd) (who core base : Nat) (back : Option Word) (stop : Nat) : State :=
  let d := scrWord' core (base + 8 * c.done)
  match back with
  | none =>
    let (s, r) := s.engPut c who (core / 4) d 8 0 false false
    afterEng s c stop r fun _ => s.putCmd { c with done := c.done + 1 }
  | some b =>
    let a := b + wordOfNat (8 * c.done)
    let (s, r) := inVirt s a 0 (s.engFetch c who (core / 4) a 8 true)
    afterEng s c stop r fun p =>
      let (s, r) := s.engPut c who (core / 4) d 8 p.val p.bad false
      afterEng s c stop r fun _ => s.putCmd { (if p.bad then c.note 0x41 else c) with done := c.done + 1 }
where
  /-- A scratch address in the form of R27. -/
  scrWord' (core off : Nat) : Word := wordOfNat (core * 2 ^ 22 + off + 0x7F * 2 ^ 57)

/-- The launch that a command's task belongs to here. -/
def State.launchKeyOf (s : State) (task : Option Nat) : Option LaunchKey :=
  (task.bind fun t => (s.tasks.find? (·.id = t)).bind fun t => s.shares.find? (·.id = t.share)).map (·.key)

/-- A writeback of a launch has written 8 bytes of a backing: its tiles filled from there are reused no more (R298). -/
def State.noteBack (s : State) (c : Cmd) (d : Word) : State :=
  match s.launchKeyOf c.task with
  | none => s
  | some k =>
    let hit := fun (back : Word) (size : Nat) => overlaps d.toNat 8 back.toNat size
    let mine := s.shares.filter (·.key = k)
    { s with
      cores := s.cores.map fun q => if q.2.kept.any (fun t => t.key = k && hit t.back t.size)
        then (q.1, { q.2 with kept := q.2.kept.filter fun t => !(t.key = k && hit t.back t.size) }) else q
      tasks := s.tasks.map fun t => if mine.any (·.id = t.share)
        then { t with tiles := t.tiles.map fun x => if hit x.back x.size then { x with stale := true } else x } else t }

/-- Write back one word of a region; words of granules outside the snapshot `c.aux` are passed over (R207). With `add32` each 4-byte
word is added at its home instead (R353). -/
def backWord (s : State) (c : Cmd) (core base : Nat) (back : Word) (add32 : Bool) (stop : Nat) : State :=
  if !c.aux.testBit (c.done / 8) then s.putCmd { c with done := (c.done / 8 + 1) * 8 }
  else
    let a : Word := wordOfNat (core * 2 ^ 22 + base + 8 * c.done + 0x7F * 2 ^ 57)
    let d := back + wordOfNat (8 * c.done)
    let (s, r) := s.engFetch c 1 (core / 4) a 8 false
    afterEng s c stop r fun p =>
      if add32 then
        let (s, r) := inVirt s d 2 (s.engRmw c 1 (core / 4) d 8 (fun o =>
          (o + p.val) % 2 ^ 32 + ((o / 2 ^ 32 + p.val / 2 ^ 32) % 2 ^ 32) * 2 ^ 32) true)
        afterEng s c stop r fun q =>
          (s.noteBack c d).putCmd { (if p.bad || q.bad then c.note 0x41 else c) with done := c.done + 1 }
      else
        let (s, r) := inVirt s d 1 (s.engPut c 1 (core / 4) d 8 p.val p.bad true)
        afterEng s c stop r fun _ => (s.noteBack c d).putCmd { (if p.bad then c.note 0x41 else c) with done := c.done + 1 }

/-- Put the SEALK of the package and the issuer's PROV into a mark-mode copy (R465). -/
def captureSeal (s : State) (c : Cmd) : Cmd :=
  match c.ins with
  | .cpy _ _ _ _ _ => if cpyMode (cFlags c) = 3 then { c with sealing := s.plat.sealk } else c
  | _ => c

end Sys2Proof.Machine
end

