-- ==== Sys2Proof/Machine/MatrixArith.lean ====
section
/-! DEFINITION. The arithmetic of the bit-serial array (spec/11_array.md, R270 to R286): operands as integers, exact group sums,
early termination, the two roundings of a segment. -/

namespace Sys2Proof.Machine

/-- What an element contributes (R270): sign, significand, own shift; 1 for an infinity, 2 for a NaN. -/
structure Elem where
  neg : Bool := false
  x : Nat := 0
  d : Nat := 0
  kind : Nat := 0
deriving DecidableEq, Repr

/-- An element from its stored code; `sc` is the block scale or exponent (R54, R60, R270). -/
def elemOf (fmt sc code : Nat) : Elem :=
  if fmt ≤ 4 then
    let f := mxFmt fmt
    let e := bitsOf code f.fb f.eb
    let m := code % 2 ^ f.fb
    let kind := if sc = 255 then 2 else match mxUnpack fmt code with | .nan _ => 2 | .inf _ => 1 | .fin _ => 0
    { neg := bitsOf code (f.eb + f.fb) 1 = 1, x := m + (if e = 0 then 0 else 2 ^ f.fb), d := max e 1 - 1, kind := kind }
  else if fmt = 5 || fmt = 9 then
    { neg := bitsOf code 8 1 = 1, x := code % 256, kind := if fmt = 5 && sc = 255 then 2 else 0 }
  else if fmt = 6 then
    let o := bitsOf code 7 5
    let m := code % 128
    let neg := bitsOf code 12 1 = 1
    let kind := if sc = 255 then 2 else 0
    if o = 31 && m = 0 then { neg := neg, kind := kind }
    else { neg := neg, x := m + (if o < sc then 128 else 0), d := max (sc - o) 1 - max (sc - 31) 1, kind := kind }
  else { x := code }

/-- β of a block (R270). -/
def blockBeta (fmt sc : Nat) : Int :=
  match fmt with
  | 0 => sc - 128 | 1 => sc - 130 | 2 => sc - 131 | 3 => sc - 136 | 4 => sc - 143 | 5 => sc - 133
  | 6 => (max (sc - 31) 1 : Nat) - 134
  | _ => 0

/-- planes(f) (R40). -/
def planesOf : Nat → Nat
  | 0 => 2 | 1 => 4 | 2 => 3 | 3 => 4 | 4 => 3 | 7 => 4 | _ => 8

/-- The value plane that stored plane k of a block feeds, as a set; a marked exponent plane marks the hidden plane (R56, R188). -/
def valuePlanes (fmt k : Nat) : Nat :=
  let w := wordsPerBlock fmt
  let j := w - 1 - k
  let hidden := fmt ≤ 4 || fmt = 6
  let own := if hidden then planesOf fmt - 1 else planesOf fmt
  if j < own then 2 ^ j else if hidden && k != 0 then 2 ^ (planesOf fmt - 1) else 0

/-- A weight element at its place: activation row, original group, and the plane bits to run. -/
structure Cell where
  row : Nat
  grp : Nat
  /-- The compressed group whose planes it runs with. -/
  blk : Nat
  w : Elem
deriving DecidableEq, Repr

/-- A column of the slab as a multiply uses it: its cells, the β of its blocks by original group, for AINT the scale and zero
point by group. -/
structure ColView where
  cells : List Cell := []
  beta : List Int := []
  ascale : List FVal := []
  azero : List Nat := []
deriving DecidableEq, Repr

/-- An activation row as a multiply uses it. -/
structure RowView where
  elems : List Elem := []
  beta : List Int := []
  ta : FVal := .fin ⟨false, 1, 0⟩
deriving DecidableEq, Repr

def oneV : FVal := .fin ⟨false, 1, 0⟩

/-- The product of two values, exact. -/
def fvMul (a b : FVal) : FVal :=
  match a, b with
  | .nan _, _ | _, .nan _ => .nan false
  | .inf x, .inf y => .inf (x != y)
  | .inf x, .fin y | .fin y, .inf x => if y.m = 0 then .nan false else .inf (x != y.neg)
  | .fin x, .fin y => .fin (x.mul y)

/-- The contribution of a cell to its group's integer, with the planes of `mask` (R271). -/
def cellInt (a : List Elem) (mask : Nat) (c : Cell) : Int :=
  let ak := a[c.row]?.getD {}
  let m : Nat := (ak.x * (c.w.x &&& mask)) <<< (ak.d + c.w.d)
  if ak.neg != c.w.neg then -(m : Int) else m

/-- I[g][n] with the planes that each compressed group has run. -/
def groupInt (a : List Elem) (masks : List Nat) (col : ColView) (g : Nat) : Int :=
  col.cells.foldl (fun s c => if c.grp = g then s + cellInt a (masks[c.blk]?.getD 0) c else s) 0

/-- ΣA_g (R283). -/
def sumA (a : List Elem) (g kact : Nat) : Int :=
  (upTo 32).foldl (fun s i =>
    if 32 * g + i < kact then
      let e := a[32 * g + i]?.getD {}
      let v : Nat := e.x <<< e.d
      if e.neg then s - v else s + v
    else s) 0

/-- V[g][n] from I[g][n] (R271, R283). -/
def groupVal (row : RowView) (col : ColView) (aint : Bool) (kact g : Nat) (i : Int) : Dy :=
  let ba := row.beta[g]?.getD 0
  if aint then
    match (col.ascale[g]?.getD oneV) with
    | .fin s => (dyOfInt (i - (col.azero[g]?.getD 0 : Nat) * sumA row.elems g kact) ba).mul s
    | _ => ⟨false, 0, 0⟩
  else dyOfInt i (ba + col.beta[g]?.getD 0)

/-- The weight of a cell as the products of R277 take it, its kind apart: its sign and whether it is zero; an AINT element is worth
s × (q − z) (R53; log entry 18). -/
def weightSign (col : ColView) (c : Cell) : Bool × Bool :=
  match col.ascale[c.grp]? with
  | some (.fin s) =>
    let z := col.azero[c.grp]?.getD 0
    (s.neg != (c.w.x < z : Bool), s.m = 0 || c.w.x = z)
  | _ => (c.w.neg, c.w.kind != 1 && c.w.x = 0)

/-- What makes a segment special (R277): the quiet NaN, an infinity, or nothing. -/
def special (row : RowView) (col : ColView) : Option FVal :=
  let pick := fun (acc : Bool × Bool × Bool) (c : Cell) =>
    let a := row.elems[c.row]?.getD {}
    let w := weightSign col c
    let aBad := match (col.ascale[c.grp]?) with | some (.fin _) => false | some _ => true | none => false
    if a.kind = 2 || c.w.kind = 2 || aBad then (true, acc.2.1, acc.2.2)
    else if a.kind = 1 || c.w.kind = 1 then
      if (a.kind != 1 && a.x = 0) || w.2 then (true, acc.2.1, acc.2.2)
      else if a.neg != w.1 then (acc.1, acc.2.1, true) else (acc.1, true, acc.2.2)
    else acc
  let (nan, pos, neg) := col.cells.foldl pick (false, false, false)
  if nan || (pos && neg) then some (.nan false)
  else if pos then some (.inf false)
  else if neg then some (.inf true)
  else none

/-- The first rounding (R278): the FP32 pattern of the segment. -/
def segmentRound (vs : List Dy) (rm : RMode) (u : Nat) : Nat :=
  let nz := vs.filter (·.m != 0)
  if nz.isEmpty then 0
  else
    let emax := nz.foldl (fun a d => max a d.log2) (nz.headD ⟨false, 1, 0⟩).log2
    let lsb := emax - 125
    let step := fun (acc : Int × Bool) (d : Dy) =>
      if lsb ≤ d.e then (acc.1 + d.over lsb, acc.2)
      else
        let sh := (lsb - d.e).toNat
        let v : Int := if d.neg then -(d.m : Int) else d.m
        (acc.1 + v >>> sh, acc.2 || d.m % 2 ^ sh != 0)
    let (r, stick) := nz.foldl step (0, false)
    let v := 2 * r + (if stick then 1 else 0)
    if v = 0 then 0 else (fmtF32.round rm (dyOfInt v (lsb - 1)) u).1

/-- The second rounding (R280). -/
def laneUpdate (acc s : Nat) (ta tw : FVal) : Nat :=
  let p := fvMul (fvMul (fmtF32.unpack s) ta) tw
  (fmtF32.fmaV .rne p oneV (fmtF32.unpack acc) 0).1

/-! Planes run. -/

/-- The listed value planes of a group, from the top (R273, R274). -/
def planeList (np : Nat) (skip : Bool) (allZero : Nat → Bool) : List Nat :=
  ((upTo np).reverse).filter fun j => !(skip && allZero j)

def maskOf (l : List Nat) : Nat := l.foldl (fun a j => a ||| 2 ^ j) 0

/-- ulp32 of an exact value times 2^−g, as an exponent (R275). -/
def ulpExp (d : Dy) : Int := if d.m = 0 then -149 else max d.log2 (-126) - 23

/-- The termination test of one column for one group that has run `mask`, lowest plane j (R275). -/
def stopTest (row : RowView) (col : ColView) (aint : Bool) (kact guard g j mask : Nat) (acc : FVal) (tw : FVal) : Bool :=
  if (special row col).isSome then true
  else
    match acc, fvMul row.ta tw with
    | .fin a, .fin t =>
      let i := col.cells.foldl (fun s c => if c.grp = g then s + cellInt row.elems mask c else s) 0
      let v := groupVal row col aint kact g i
      let p := a.add (v.mul t)
      let sum := col.cells.foldl (fun s c =>
        if c.grp = g then
          let ak := row.elems[c.row]?.getD {}
          s + (ak.x <<< (ak.d + c.w.d))
        else s) 0
      let ba := row.beta[g]?.getD 0
      let unit : Dy := if aint then (match col.ascale[g]?.getD oneV with | .fin s => { s with neg := false, e := s.e + ba } | _ => ⟨false, 0, 0⟩)
        else ⟨false, 1, ba + col.beta[g]?.getD 0⟩
      let bound : Dy := { neg := false, m := unit.m * t.m * ((2 ^ j - 1) * sum), e := unit.e + t.e }
      bound.lt ⟨false, 1, ulpExp p - guard⟩
    | _, _ => false

/-- A group runs its listed planes beat by beat: planes run, beats, planes left unrun by early termination. -/
def runGroup (per : Nat) (canStop : Bool) (test : Nat → Nat → Bool) : Nat → List Nat → Nat → Nat → Nat × Nat × Nat
  | 0, l, mask, beats => (mask, beats, l.length)
  | fuel + 1, l, mask, beats =>
    match l with
    | [] => (mask, beats, 0)
    | _ =>
      let now := l.take per
      let rest := l.drop per
      let mask := mask ||| maskOf now
      if rest.isEmpty then (mask, beats + 1, 0)
      else if canStop && test (now.getLastD 0) mask then (mask, beats + 1, rest.length)
      else runGroup per canStop test fuel rest mask (beats + 1)

end Sys2Proof.Machine
end

