-- ==== Sys2Proof/Machine/Slab.lean ====
section
/-! DEFINITION. The weight store: the size and layout of a slab (R175, R176), what MLW writes (R177, R178, R188), and a slab as the
array reads it (R270, R284). -/

namespace Sys2Proof.Machine

/-- A of R175. -/
def sideA (p : Word) : Nat := if isAint (pcwWf p) then 128 / pcwGroup p else if pcwWf p = 9 then 0 else 1
/-- Words of a stored block: 5 position planes more in the sparse modes. -/
def blockWords (p : Word) : Nat := wordsPerBlock (pcwWf p) + (if pcwSparse p = 0 then 0 else 5)

/-- The budget of column n, at most M (R179). -/
def budgetOf (p : Word) (budget : List Byte) (n : Nat) : Nat := min (budget[n]?.getD 32).toNat (pcwM p)

/-- Blocks per column (R175). -/
def bpcOf (p : Word) (budget : List Byte) : Nat :=
  match pcwSparse p with
  | 0 => 4
  | 1 => ceilDiv (4 * pcwN p) (pcwM p)
  | _ => ceilDiv (4 * (upTo 512).foldl (fun a n => max a (budgetOf p budget n)) 0) (pcwM p)

/-- Granules of a slab (R175). -/
def slabGranules (p : Word) (budget : List Byte) : Nat := pcwGranules p budget

/-- k(n), the kept elements of a column (R177). -/
def keptOf (p : Word) (budget : List Byte) (n : Nat) : Nat :=
  match pcwSparse p with
  | 0 => pcwKact p
  | 1 => pcwKact p / pcwM p * pcwN p
  | _ => pcwKact p / pcwM p * budgetOf p budget n

/-- N_n of a column. -/
def patternN (p : Word) (budget : List Byte) (n : Nat) : Nat := if pcwSparse p = 2 then budgetOf p budget n else pcwN p

/-- Blocks of column n that MLW reads. -/
def blocksRead (p : Word) (budget : List Byte) (n : Nat) : Nat := ceilDiv (keptOf p budget n) 32

/-- Insert column n by budget, highest first, after those of its own budget. -/
def permInsert (b : Nat → Nat) (n : Nat) : List Nat → List Nat
  | [] => [n]
  | m :: t => if b m < b n then n :: m :: t else m :: permInsert b n t

/-- perm (R178): the original column of each slot. -/
def slabPerm (p : Word) (budget : List Byte) : List Nat :=
  if pcwSparse p = 2 then (upTo (pcwNact p)).foldl (fun l n => permInsert (budgetOf p budget) n l) []
  else upTo (pcwNact p)

def slabDesc (p : Word) : SlabDesc :=
  { wf := pcwWf p, kact := pcwKact p, nact := pcwNact p, sparse := pcwSparse p, mc := pcwMc p, n := pcwN p, agrp := p.bits 29 2 }

/-- The plane words of a block of zeros, with its side entry: an AINT element takes the zero point of its group (R58). -/
def zeroPlanes (p : Word) (side : Nat) : List Nat :=
  let z := if isAint (pcwWf p) then bitsOf side 16 (wordsPerBlock (pcwWf p)) else zeroStored (pcwWf p)
  packPlanes (pcwWf p) (List.replicate 32 z) ++ (if pcwSparse p = 0 then [] else List.replicate 5 0)

/-- Elements from `keep` on take the zero encoding (R177). -/
def keepBelow (keep : Nat) (ws zs : List Nat) : List Nat :=
  (ws.zip zs).map fun q => q.1 % 2 ^ keep + (q.2 >>> keep) <<< keep

/-- The position values of a sparse block (R177). -/
def positions (ws : List Nat) : List Nat := unpackPlanes ws

/-- The zero flags of the value planes over the first `count` elements of a block; `sc` gives each element's block scale. -/
def zeroFlags (fmt : Nat) (sc : Nat → Nat) (codes : List Nat) (count : Nat) : BitVec 8 :=
  let any := (upTo count).foldl (fun a i => a ||| (elemOf fmt (sc i) (codes[i]?.getD 0)).x) 0
  BitVec.ofNat 8 (255 - any % 256)

/-- Bytes of a column's side entries. -/
def sideBytes (p : Word) : Nat := if isAint (pcwWf p) then 4 * sideA p else if pcwWf p = 9 then 0 else 4

/-- A column's side entries from their bytes. -/
def sideEntries (p : Word) (v : Nat) : List (BitVec 32) :=
  if isAint (pcwWf p) then (upTo (sideA p)).map fun j => BitVec.ofNat 32 (bitsOf v (32 * j) 32)
  else if pcwWf p = 9 then [] else (upTo 4).map fun j => BitVec.ofNat 32 (bitsOf v (8 * j) 8)

/-- The side entry that original block g takes. -/
def sideOf (p : Word) (side : List (BitVec 32)) (g : Nat) : Nat :=
  if isAint (pcwWf p) then (side[32 * g / pcwGroup p]?.getD 0).toNat else (side[g]?.getD 0).toNat

/-! The weight store as words (R176). -/

/-- Words of the plane area of a slab, from its first granule on, and then of its side area. -/
def planeWords (p : Word) (budget : List Byte) : Nat := 512 * bpcOf p budget * blockWords p
def sideWords (p : Word) : Nat := 512 * sideA p

/-- A granule; one that nothing has written holds zeros without flags. -/
def CoreSt.granule (k : CoreSt) (g : Nat) : Granule := mapGet {} k.store g

/-- Write word i of the slab from a first granule on; the granule now belongs to that slab. -/
def CoreSt.putWord (k : CoreSt) (first i : Nat) (x : WeightWord) : CoreSt :=
  let g := first + i / 512
  if g < 2048 then { k with store := mapSet k.store g { first := some first, words := (k.granule g).words.set (i % 512) x } } else k

def CoreSt.putWords (first : Nat) : Nat → List WeightWord → CoreSt → CoreSt
  | _, [], k => k
  | i, x :: t, k => CoreSt.putWords first (i + 1) t (k.putWord first i x)

/-- The n words from word i of the slab of a first granule on. -/
def CoreSt.words (k : CoreSt) (first i n : Nat) : List WeightWord :=
  ((((upTo (ceilDiv (i % 512 + n) 512)).flatMap fun g => (k.granule (first + i / 512 + g)).words).drop (i % 512)).take n)

/-- The first `count` pieces of n items. -/
def chunks {α : Type} (n : Nat) : Nat → List α → List (List α)
  | 0, _ => []
  | c + 1, l => l.take n :: chunks n c (l.drop n)

/-- A block as a multiply reads it: plane words in storage order with the position planes of a sparse block last, the zero flags of its value
planes by index, the marked planes (R176, R188). -/
structure SlabBlock where
  planes : List (BitVec 32) := []
  zero : BitVec 8 := 0
  bad : BitVec 32 := 0
deriving DecidableEq, Repr

/-- A column slot as a multiply reads it: its blocks, its side entries by original block or group. -/
structure SlabCol where
  blocks : List SlabBlock := []
  side : List (BitVec 32) := []
deriving DecidableEq, Repr

/-- A block from its words. Words of one block of the same layout bring its zero flags; others claim nothing (R274). A marked plane is never
taken for zero, nor is any of a block with a marked side entry (R188). -/
def readBlock (p : Word) (sideBad : Bool) (ws : List WeightWord) : SlabBlock :=
  let fmt := pcwWf p
  let z := (ws.headD {}).zero
  let whole := ws.zipIdx.all fun q => q.1.wf = fmt && q.1.len = ws.length && q.1.pos = q.2 && q.1.zero = z
  let bad := ws.zipIdx.foldl (fun a q => if q.1.bad then a ||| (1#32 <<< q.2) else a) (0 : BitVec 32)
  let marked := (upTo (wordsPerBlock fmt)).foldl (fun a k => if bad.getLsbD k then a ||| valuePlanes fmt k else a) 0
  { planes := ws.map (·.val), zero := if whole && !sideBad then z &&& ~~~(BitVec.ofNat 8 marked) else 0
    bad := if sideBad then BitVec.allOnes 32 else bad }

/-- Side entries from the words of a column: one to a word for AINT, else four bytes of one word. -/
def sideFrom (p : Word) (ws : List WeightWord) : List (BitVec 32) :=
  if isAint (pcwWf p) then ws.map (·.val)
  else ws.flatMap fun w => (upTo 4).map fun j => BitVec.ofNat 32 (w.val.bits (8 * j) 8)

/-- Side entries as words. -/
def sideTo (p : Word) (side : List (BitVec 32)) : List WeightWord :=
  if isAint (pcwWf p) then side.map fun v => { val := v }
  else if side.isEmpty then [] else [{ val := BitVec.ofNat 32 (side.foldr (fun v a => a * 256 + v.toNat % 256) 0) }]

/-- The first `count` column slots of the slab at a granule, in the layout of a PCW. -/
def slabCols (k : CoreSt) (p : Word) (budget : List Byte) (first count : Nat) : List SlabCol :=
  let bpc := bpcOf p budget
  let w := blockWords p
  let cols := chunks (bpc * w) count (k.words first 0 (count * bpc * w))
  let sides := chunks (sideA p) count (k.words first (planeWords p budget) (count * sideA p))
  (cols.zip sides).map fun q =>
    let marked := fun b => if isAint (pcwWf p) && pcwSparse p = 0 then (q.2[32 * b / pcwGroup p]?.getD {}).bad else q.2.any (·.bad)
    { blocks := (chunks w bpc q.1).zipIdx.map fun b => readBlock p (marked b.2) b.1, side := sideFrom p q.2 }

/-- The permutation entries of a budget slab, which begin at word i from its first granule (R176), and whether a word of them is marked. -/
def slabPermAt (k : CoreSt) (first i : Nat) : List Nat × Bool :=
  let ws := k.words first i 256
  (ws.flatMap fun w => [w.val.bits 0 16, w.val.bits 16 16], ws.any (·.bad))

/-- Write the permutation entry of a column slot. -/
def CoreSt.putPerm (k : CoreSt) (p : Word) (budget : List Byte) (first slot col : Nat) : CoreSt :=
  let i := planeWords p budget + sideWords p + slot / 2
  let old := ((k.words first i 1).headD {}).val
  let v := if slot % 2 = 0 then old.bits 16 16 * 65536 + col else col * 65536 + old.bits 0 16
  k.putWord first i { val := BitVec.ofNat 32 v }

/-! MLW. -/

/-- MLW's source of column n. -/
def mlwSrc (c : Cmd) (n : Nat) : Nat := (c.par[0]?.getD 0).bits 0 31 + n * (c.par[0]?.getD 0).bits 32 21
def mlwSide (c : Cmd) (n : Nat) : Nat := (c.par[1]?.getD 0).bits 0 31 + n * (c.par[1]?.getD 0).bits 32 16
def mlwGran (c : Cmd) : Nat := (c.par[2]?.getD 0).bits 0 11

/-- Plane words of an area that hold an uncorrectable error, as a set by plane. -/
def badPlanes (s : State) (n sa count : Nat) : BitVec 32 :=
  (upTo count).foldl (fun a k => if s.isPoison n (scrKey (sa + 4 * k) / 8 * 8) then a ||| (1#32 <<< k) else a) 0

/-- The slab being built at a first granule. -/
def CoreSt.slabAt (k : CoreSt) (gran : Nat) : Option Slab := k.slabs.find? (·.gran = gran)
def CoreSt.putSlab (k : CoreSt) (b : Slab) : CoreSt :=
  { k with slabs := if k.slabs.any (·.gran = b.gran) then k.slabs.map fun x => if x.gran = b.gran then b else x else b :: k.slabs }

/-- A slab holds a granule of a range: by its size, or because the granule was last written for it (R176). -/
def CoreSt.holdsOf (k : CoreSt) (b : Slab) (g size : Nat) : Bool :=
  overlaps b.gran b.size g size || k.store.any fun e => g ≤ e.1 && e.1 < g + size && e.2.first = some b.gran

/-- MLW starts: slabs with another first granule that hold a granule of its range are valid no longer (R31, R176). -/
def mlwStart (s : State) (c : Cmd) : State :=
  let p := c.pcw
  let g := mlwGran c
  let size := slabGranules p (s.ctxAt c.agent).budget
  s.modCore (coreOf c.agent) fun k =>
    let k := { k with slabs := k.slabs.map fun b =>
      if b.gran != g && k.holdsOf b g size then { b with valid := false } else b }
    if (k.slabAt g).isSome then k else k.putSlab { gran := g, size := size }

/-- The words of a block as MLW writes them: with its zero flags and the marks of its planes, all of them under an uncorrectable side entry
(R177, R188). -/
def blockTo (p : Word) (sideBad : Bool) (b : SlabBlock) : List WeightWord :=
  b.planes.zipIdx.map fun q =>
    { val := q.1, bad := sideBad || b.bad.getLsbD q.2, wf := pcwWf p, len := b.planes.length, pos := q.2, zero := if sideBad then 0 else b.zero }

/-- What reading for a column slot has found: the blocks so far, a position value out of range, an uncorrectable word. -/
structure ColRead where
  s : State
  blocks : List SlabBlock := []
  badPos : Bool := false
  bad : Bool := false

/-- One block of column n is read and completed with its flags (R177, R188); none for a race. -/
def mlwBlock (c : Cmd) (budget : List Byte) (entries : List (BitVec 32)) (n : Nat) (r : ColRead) (b : Nat) : Option ColRead :=
  let p := c.pcw
  let w := wordsPerBlock (pcwWf p)
  let wt := blockWords p
  let zs := zeroPlanes p (sideOf p entries b)
  if b < blocksRead p budget n then
    let sa := mlwSrc c n + b * wt * 4
    match r.s.scrRead c 6 sa (4 * wt) with
    | (_, none) => none
    | (s, some v) =>
      let raw := (upTo wt).map fun k => bitsOf v.val (32 * k) 32
      let dense := pcwSparse p = 0
      let ws := if dense then keepBelow (min 32 (pcwKact p - 32 * b)) raw zs else raw
      let bad := badPlanes s c.agent sa wt
      let codes := unpackPlanes (ws.take w)
      let pos := if dense then [] else positions (ws.drop w)
      let count := min 32 (keptOf p budget n - 32 * b)
      let grp := fun i => if dense then b else ((32 * b + i) / patternN p budget n * pcwM p + pos[i]?.getD 0) / 32
      let flags := zeroFlags (pcwWf p) (fun i => sideOf p entries (grp i)) codes count
      let marked := (upTo w).foldl (fun a k => if bad.getLsbD k then a ||| valuePlanes (pcwWf p) k else a) 0
      let blk : SlabBlock := { planes := ws.map (BitVec.ofNat 32), zero := flags &&& ~~~(BitVec.ofNat 8 marked), bad := bad }
      some { s := s, blocks := r.blocks ++ [blk], badPos := r.badPos || pos.any (fun v => pcwM p ≤ v), bad := r.bad || v.bad }
  else some { r with blocks := r.blocks ++ [{ planes := zs.map (BitVec.ofNat 32), zero := 0xFF }] }

/-- Column slot i of the slab is built from side entries and blocks, in one step (R177, R31; log entry 9). The results: a position
value out of range, an uncorrectable word; none for a race. Which compressed blocks of a sparse column an uncorrectable side entry covers the
spec does not say: every block of the column is marked (log entry 47). -/
def mlwColumn (s : State) (c : Cmd) (slot : Nat) : Option (State × Bool × Bool) :=
  let p := c.pcw
  let budget := (s.ctxAt c.agent).budget
  let first := mlwGran c
  let w := blockWords p
  let bpc := bpcOf p budget
  let n := (slabPerm p budget)[slot]?.getD slot
  let put := fun (s : State) (blocks : List (List WeightWord)) (side : List (BitVec 32)) =>
    s.modCore (coreOf c.agent) fun k =>
      let k := CoreSt.putWords first (slot * bpc * w) blocks.flatten k
      let k := CoreSt.putWords first (planeWords p budget + slot * sideA p) (sideTo p side) k
      if pcwSparse p = 2 then k.putPerm p budget first slot n else k
  if slot < pcwNact p then
    let sa := mlwSide c n
    match s.scrRead c 6 sa (sideBytes p) with
    | (_, none) => none
    | (s, some v) =>
      let entries := sideEntries p v.val
      let per := if isAint (pcwWf p) then 4 else 1
      let badEntry := fun j => sideBytes p != 0 && s.isPoison c.agent (scrKey (sa + per * j) / 8 * 8)
      let covers := fun g => if isAint (pcwWf p) then badEntry (32 * g / pcwGroup p) else badEntry g
      let anyBad := (upTo 4).any covers
      match (upTo bpc).foldl (fun r b => r.bind fun q => mlwBlock c budget entries n q b) (some { s := s }) with
      | none => none
      | some r =>
        let blocks := r.blocks.zipIdx.map fun q => blockTo p (if pcwSparse p = 0 then covers q.2 else anyBad) q.1
        some (put r.s blocks entries, r.badPos, r.bad || v.bad)
  else
    let blk : SlabBlock := { planes := (zeroPlanes p 0).map (BitVec.ofNat 32), zero := 0xFF }
    some (put s (List.replicate bpc (blockTo p false blk)) (sideEntries p 0), false, false)

/-- MLW ends: the descriptor, and validity (R177). -/
def mlwEnd (s : State) (c : Cmd) : State :=
  let p := c.pcw
  let budget := (s.ctxAt c.agent).budget
  s.modCore (coreOf c.agent) fun k =>
    match k.slabAt (mlwGran c) with
    | none => k
    | some b => k.putSlab { b with size := slabGranules p budget, desc := slabDesc p, valid := c.status = 0 }

/-! A slab as the array reads it. -/

/-- A dense column (R271, R283). -/
def denseView (p : Word) (col : SlabCol) : ColView :=
  let fmt := pcwWf p
  let sc := fun g => sideOf p col.side g
  let cells := (upTo 4).flatMap fun b =>
    let codes := unpackPlanes (((col.blocks[b]?.getD {}).planes.take (wordsPerBlock fmt)).map (·.toNat))
    ((upTo 32).filter fun i => 32 * b + i < pcwKact p).map fun i =>
      { row := 32 * b + i, grp := b, blk := b, w := elemOf fmt (sc b) (codes[i]?.getD 0) : Cell }
  { cells := cells, beta := (upTo 4).map fun g => blockBeta fmt (sc g)
    ascale := if isAint fmt then (upTo 4).map fun g => fmtF16.unpack (sc g % 65536) else []
    azero := if isAint fmt then (upTo 4).map fun g => bitsOf (sc g) 16 (wordsPerBlock fmt) else [] }

/-- A sparse column: kept element e stands at row (e / N) × M + p (R284). -/
def sparseView (p : Word) (budget : List Byte) (n : Nat) (col : SlabCol) : ColView :=
  let fmt := pcwWf p
  let sc := fun g => sideOf p col.side g
  let pn := patternN p budget n
  let cells := (upTo 4).flatMap fun b =>
    let ws := (col.blocks[b]?.getD {}).planes.map (·.toNat)
    let codes := unpackPlanes (ws.take (wordsPerBlock fmt))
    let pos := positions (ws.drop (wordsPerBlock fmt))
    ((upTo 32).filter fun i => 32 * b + i < keptOf p budget n).map fun i =>
      let r := (32 * b + i) / pn * pcwM p + pos[i]?.getD 0
      { row := r, grp := r / 32, blk := b, w := elemOf fmt (sc (r / 32)) (codes[i]?.getD 0) : Cell }
  { cells := cells, beta := (upTo 4).map fun g => blockBeta fmt (sc g) }

end Sys2Proof.Machine
end

