-- ==== Sys2Proof/Machine/Special.lean ====
section
/-! DEFINITION. The special functions of VSFN (R146, R147), correctly rounded to FP32: each is evaluated in fixed point with far
more bits than the rounding looks at (log entry 6 says why that is taken to decide every case), then rounded once. -/

namespace Sys2Proof.Machine

/-- Fraction bits of the fixed-point evaluations. -/
def fxBits : Nat := 320
/-- floor(ln 2 × 2^320). -/
def fxLn2 : Nat := 0xb17217f7d1cf79abc9e3b39803f2f6af40f343267298b62d8a0d175b8baafa2be7b876206debac98
/-- floor(2 / √π × 2^320). -/
def fxTwoOverSqrtPi : Nat := 0x120dd750429b6d11ae3a914fed7fd8688281341d7587cea2e7342b06199cc416180eb39f0b24e1e22
def fxOne : Nat := 2 ^ fxBits

/-- The integer square root, bit by bit from bit n − 1 down. -/
def isqrtFrom (v : Nat) : Nat → Nat → Nat
  | 0, r => r
  | n + 1, r =>
    let t := r + 2 ^ n
    isqrtFrom v n (if t * t ≤ v then t else r)

def isqrt (v : Nat) : Nat := isqrtFrom v (Nat.log2 v / 2 + 1) 0

/-- Σ z^k / k! from term t at k, in fixed point. -/
def expSeries (z : Nat) : Nat → Nat → Nat → Nat
  | 0, _, _ => 0
  | n + 1, k, t => t + expSeries z n (k + 1) (t * z / fxOne / (k + 1))

/-- e^z × 2^320 for 0 ≤ z < 1 in fixed point. -/
def fxExp (z : Nat) : Nat := expSeries z 90 0 fxOne

/-- Σ z^(2k+1) / (2k+1), in fixed point. -/
def atanhSeries (z2 : Nat) : Nat → Nat → Nat → Nat
  | 0, _, _ => 0
  | n + 1, k, t => t / (2 * k + 1) + atanhSeries z2 n (k + 1) (t * z2 / fxOne)

/-- ln y × 2^320 for 1 ≤ y < 2 in fixed point. -/
def fxLn (y : Nat) : Nat :=
  let z := (y - fxOne) * fxOne / (y + fxOne)
  2 * atanhSeries (z * z / fxOne) 110 0 z

/-- Σ (−1)^k x^(2k+1) / (k! (2k+1)), in fixed point; t is x^(2k+1) / k!. -/
def erfSeries (x2 : Nat) : Nat → Nat → Nat → Int
  | 0, _, _ => 0
  | n + 1, k, t =>
    (if k % 2 = 0 then ((t / (2 * k + 1) : Nat) : Int) else -((t / (2 * k + 1) : Nat) : Int)) +
      erfSeries x2 n (k + 1) (t * x2 / fxOne / (k + 1))

/-- |d| in fixed point, for values that need no more than 320 fraction bits. -/
def fxOf (d : Dy) : Nat :=
  let e := d.e + fxBits
  if 0 ≤ e then d.m <<< e.toNat else d.m >>> (-e).toNat

/-- A fixed-point magnitude as an exact value, to be rounded with a sticky bit. -/
def dyOfFx (neg : Bool) (v : Nat) (e : Int) : Dy := ⟨neg, v, e - fxBits⟩

/-- A value a little below, or above, a power of two times m. -/
def justBelow (neg : Bool) (m : Nat) (e : Int) : Dy := ⟨neg, m * 2 ^ 64 - 1, e - 64⟩

/-- e^|x| as a fixed-point mantissa in [1, 2) and a binary exponent, for |x| below 256. -/
def fxExpOf (ax : Nat) : Nat × Nat :=
  let n := ax / fxLn2
  (fxExp (ax - n * fxLn2), n)

/-- 1/x (R146). -/
def sfnRcp (d : Dy) : Dy × Bool :=
  let k := Nat.log2 d.m + 80
  (⟨d.neg, 2 ^ k / d.m, -d.e - k⟩, 2 ^ k % d.m != 0)

/-- √x for x > 0. -/
def sfnSqrt (d : Dy) : Dy × Bool :=
  let sh : Nat := 120 + (if (d.e - 120) % 2 = 0 then 0 else 1)
  let v := d.m <<< sh
  let r := isqrt v
  (⟨false, r, (d.e - sh) / 2⟩, r * r != v)

/-- 1/√x for x > 0. -/
def sfnRsq (d : Dy) : Dy × Bool :=
  let k : Nat := Nat.log2 d.m + 200
  let k : Nat := if (d.e + k) % 2 = 0 then k else k + 1
  let v := 2 ^ k / d.m
  let r := isqrt v
  (⟨false, r, -((d.e + k) / 2)⟩, r * r * d.m != 2 ^ k)

/-- 2^x. -/
def sfnExp2 (d : Dy) : Dy × Bool :=
  if 0 ≤ d.e + Nat.log2 d.m && 8 < d.e + Nat.log2 d.m then
    (if d.neg then ⟨false, 1, -1000⟩ else ⟨false, 1, 1000⟩, true)
  else
    let fx := fxOf d
    let v : Int := if d.neg then -(fx : Int) else fx
    let n := v / (fxOne : Int)
    let f := (v - n * fxOne).toNat
    if f = 0 then (⟨false, 1, n⟩, false) else (dyOfFx false (fxExp (f * fxLn2 / fxOne)) n, true)

/-- log2 x for x > 0. -/
def sfnLog2 (d : Dy) : Dy × Bool :=
  let l := Nat.log2 d.m
  let ex : Int := d.e + l
  if d.m = 2 ^ l then (dyOfInt ex 0, false)
  else
    let y := d.m <<< (fxBits - l)
    let v : Int := ex * fxOne + ((fxLn y * fxOne / fxLn2 : Nat) : Int)
    (dyOfInt v (-(fxBits : Int)), true)

/-- tanh x for x ≠ 0. -/
def sfnTanh (d : Dy) : Dy × Bool :=
  let lg := d.e + Nat.log2 d.m
  if lg < -40 then (justBelow d.neg d.m d.e, true)
  else if 5 < lg then (justBelow d.neg 1 0, true)
  else
    let (r, n) := fxExpOf (2 * fxOf d)
    let e2 := r <<< n
    (dyOfFx d.neg ((e2 - fxOne) * fxOne / (e2 + fxOne)) 0, true)

/-- 1/(1 + e^−x) for x ≠ 0. -/
def sfnSigm (d : Dy) : Dy × Bool :=
  let lg := d.e + Nat.log2 d.m
  if 7 < lg then (if d.neg then ⟨false, 1, -1000⟩ else justBelow false 1 0, true)
  else
    let (r, n) := fxExpOf (fxOf d)
    let e1 := r <<< n
    -- sigm(−a) = 1/(1 + e^a); sigm(a) = e^a/(1 + e^a)
    if d.neg then (⟨false, (fxOne <<< (fxBits + 256)) / (fxOne + e1), -((fxBits : Int) + 256)⟩, true)
    else (dyOfFx false (e1 * fxOne / (fxOne + e1)) 0, true)

/-- erf x for x ≠ 0. -/
def sfnErf (d : Dy) : Dy × Bool :=
  let lg := d.e + Nat.log2 d.m
  if lg < -60 then (⟨d.neg, d.m * fxTwoOverSqrtPi, d.e - fxBits⟩, true)
  else if 2 < lg then (justBelow d.neg 1 0, true)
  else
    let x := fxOf d
    let s := (erfSeries (x * x / fxOne) 400 0 x).toNat
    let v := s * fxTwoOverSqrtPi / fxOne
    (if fxOne ≤ v then justBelow d.neg 1 0 else dyOfFx d.neg v 0, true)

/-- The special results of R147: a code of the FP32 format and flags; none for an input that is computed. -/
def sfnSpecial (fn : SFn) (v : FVal) : Option (Nat × Flags) :=
  let f := fmtF32
  let neg0 := f.signBit true
  match v with
  | .nan s => some (f.qnan, if s then fNV else 0)
  | .inf n =>
    some (match fn with
      | .rcp => (f.signBit n, 0)
      | .rsq => if n then (f.qnan, fNV) else (0, 0)
      | .sqrt | .log2 => if n then (f.qnan, fNV) else (f.infCode, 0)
      | .exp2 => if n then (0, 0) else (f.infCode, 0)
      | .tanh | .erf => (f.signBit n + 0x3F800000, 0)
      | .sigm => if n then (0, 0) else (0x3F800000, 0))
  | .fin d =>
    if d.m = 0 then
      some (match fn with
        | .rcp => (f.signBit d.neg + f.infCode, fDZ)
        | .rsq => (f.signBit d.neg + f.infCode, 0)
        | .sqrt | .tanh | .erf => (if d.neg then neg0 else 0, 0)
        | .exp2 => (0x3F800000, 0)
        | .log2 => (neg0 + f.infCode, fDZ)
        | .sigm => (0x3F000000, 0))
    else if d.neg && (fn = .rsq || fn = .sqrt || fn = .log2) then some (f.qnan, fNV)
    else none

/-- f(x) for a finite non-zero input with no special result: the value, truncated, and whether more lies below its last place. -/
def sfnExact (fn : SFn) (d : Dy) : Dy × Bool :=
  match fn with
  | .rcp => sfnRcp d
  | .rsq => sfnRsq d
  | .sqrt => sfnSqrt d
  | .exp2 => sfnExp2 d
  | .log2 => sfnLog2 d
  | .tanh => sfnTanh d
  | .sigm => sfnSigm d
  | .erf => sfnErf d

/-- The FP32 result of VSFN and its flags. -/
def sfn32 (fn : SFn) (v : FVal) : Nat × Flags :=
  match sfnSpecial fn v with
  | some r => r
  | none =>
    match v with
    | .fin d => let (y, st) := sfnExact fn d; fmtF32.roundSticky .rne y st 0
    | _ => (0, 0)

/-- VSFN of one lane pattern (R146, R147): narrower types round the FP32 result once more, with flags judged on what is
delivered. -/
def sfnLane (fn : SFn) (t : ETy) (p : Nat) : Nat × Flags :=
  let v := (fmtOf t).unpack p
  let (r, fl) := sfn32 fn v
  if t = .f32 then (r, fl)
  else
    let f := fmtOf t
    match fmtF32.unpack r with
    | .nan _ => (f.qnan, fl)
    | .inf n => (f.signBit n + f.infCode, fl)
    | .fin d =>
      if d.m = 0 then (f.signBit d.neg, fl)
      else
        let (q, fl2) := f.round .rne d 0
        let inexact := fl &&& fNX != 0 || fl2 &&& fNX != 0
        let mag := q % 2 ^ (f.eb + f.fb)
        (q, (fl &&& (fNV ||| fDZ ||| fOF)) ||| (fl2 &&& fOF) ||| (if inexact then fNX else 0) |||
          (if inexact && mag < 2 ^ f.fb then fUF else 0))

end Sys2Proof.Machine
end

