-- ==== Sys2Proof/Machine/Vector.lean ====
section
/-! DEFINITION. Vector arithmetic, comparison, logic, reductions, permutes, random slots and masks (spec/05_vector.md, R141 to R151
and R158 to R165). -/

namespace Sys2Proof.Machine

/-! Lane functions. -/

/-- Float lanes by their values, integer lanes modulo 2^(8w) (R141, R142). -/
def laneArith (t : ETy) (ff : Fmt → RMode → FVal → FVal → Nat → Nat × Flags) (fi : Int → Int → Int) (rm : RMode) (x y u : Nat) :
    Nat × Flags :=
  if t.isFloat then ff (fmtOf t) rm ((fmtOf t).unpack x) ((fmtOf t).unpack y) u
  else (truncInt (fi x y) (8 * t.bytes), 0)

def laneAdd (t : ETy) := laneArith t (fun f rm a b u => f.addV rm a b u) (· + ·)
def laneSub (t : ETy) := laneArith t (fun f rm a b u => f.addV rm a b.negate u) (· - ·)
def laneMul (t : ETy) := laneArith t (fun f rm a b u => f.mulV rm a b u) (· * ·)

/-- The lesser or greater of two lanes (R67, R144). -/
def laneMinmax (t : ETy) (isMax num : Bool) (x y : Nat) : Nat × Flags :=
  if t.isFloat then (fmtOf t).minmax isMax num x y
  else if isMax then (if intOf t x < intOf t y then y else x, 0)
  else (if intOf t y < intOf t x then y else x, 0)

/-- VABS: the sign bit alone, or |a| modulo 2^(8w) (R145). -/
def laneAbs (t : ETy) (x : Nat) : Nat × Flags :=
  if t.isFloat then (x % 2 ^ (8 * t.bytes - 1), 0) else (truncInt (intOf t x).natAbs (8 * t.bytes), 0)
def laneNeg (t : ETy) (x : Nat) : Nat × Flags :=
  if t.isFloat then (x ^^^ 2 ^ (8 * t.bytes - 1), 0) else (truncInt (-(intOf t x)) (8 * t.bytes), 0)

/-- A comparison of two lanes (R148). -/
def laneCmp (t : ETy) (k : VCond) (x y : Nat) : Bool × Flags :=
  if t.isFloat then fcmp k ((fmtOf t).unpack x) ((fmtOf t).unpack y)
  else
    let a := intOf t x
    let b := intOf t y
    (match k with
      | .eq => a = b | .ne => a != b | .lt => a < b | .le => a ≤ b | .gt => b < a | .ge => b ≤ a | .un => false | .ord => true, 0)

/-- Shifts: a count of the width or more gives 0, or the sign (R151). -/
def laneShl (t : ETy) (x n : Nat) : Nat × Flags := (if n < 8 * t.bytes then (x <<< n) % 2 ^ (8 * t.bytes) else 0, 0)
def laneShr (t : ETy) (x n : Nat) : Nat × Flags := (if n < 8 * t.bytes then x >>> n else 0, 0)
def laneSra (t : ETy) (x n : Nat) : Nat × Flags :=
  (truncInt (sextNat x (8 * t.bytes) >>> (min n (8 * t.bytes))) (8 * t.bytes), 0)

/-- VSCL of one lane by an exact power of two (R164). -/
def laneScl (t : ETy) (n : Int) (rm : RMode) (x u : Nat) : Nat × Flags :=
  let f := fmtOf t
  match f.unpack x with
  | .nan s => (f.qnan, if s then fNV else 0)
  | .inf g => (f.signBit g + f.infCode, 0)
  | .fin d =>
    -- beyond these exponents the result no longer depends on n
    if d.m = 0 then (f.signBit d.neg, 0) else f.round rm { d with e := d.e + max (-4096) (min 4096 n) } u

/-- VPRUNE of one lane (R162): whether it is kept. θ is an FP32 pattern. -/
def lanePrune (t : ETy) (theta : FVal) (x u : Nat) : Nat × Flags :=
  let nv : Flags := if theta.isNan then fNV else 0
  let keep := match (fmtOf t).unpack x with
    | .nan _ => true
    | .inf _ => true
    | .fin d =>
      match theta with
      | .nan _ => true
      | .inf neg => neg
      | .fin th =>
        let a : Dy := { d with neg := false }
        th.m = 0 || th.neg || !a.lt th || (Dy.mul { neg := false, m := u, e := -24 } th).lt a
  (if keep then x else 0, nv)

/-! Reductions (R158, R159). -/

/-- One level: neighbours combined, with the flags of every combination. -/
def redLevel (f : Nat → Nat → Nat × Flags) : List Nat → List Nat × Flags
  | x :: y :: t =>
    let (r, fl) := f x y
    let (l, fl2) := redLevel f t
    (r :: l, fl ||| fl2)
  | l => (l, 0)

/-- Levels until one value is left. -/
def redTree (f : Nat → Nat → Nat × Flags) : Nat → List Nat → Nat × Flags
  | 0, l => (l.headD 0, 0)
  | n + 1, l =>
    let (l1, fl) := redLevel f l
    let (r, fl2) := redTree f n l1
    (r, fl ||| fl2)

/-- The identity of a reduction (R158). -/
def redIdentity (t : ETy) (op : RedOp) : Nat :=
  let f := fmtOf t
  let w := 8 * t.bytes
  if t.isFloat then
    match op with
    | .sum => f.signBit true
    | .max => f.signBit true + f.infCode
    | .min => f.infCode
    | .maxm | .minm => f.qnan
  else
    match op with
    | .max => truncInt (intMin t) w
    | .min => truncInt (intMax t) w
    | _ => 0

def redFn (t : ETy) (op : RedOp) (x y : Nat) : Nat × Flags :=
  match op with
  | .sum => laneAdd t .rne x y 0
  | .max => laneMinmax t true false x y
  | .min => laneMinmax t false false x y
  | .maxm => laneMinmax t true true x y
  | .minm => laneMinmax t false true x y

/-- Inclusive prefix sums from lane 0 upwards; each lane with its own flags, so that the flags of every sum are gathered. -/
def scanFrom (t : ETy) : Nat → List Nat → List (Nat × Flags)
  | _, [] => []
  | p, x :: l =>
    let r := laneAdd t .rne p x 0
    r :: scanFrom t r.1 l

/-! The slots. -/

/-- VADD (R142). -/
def execVadd (d a b : Reg) (mk : MReg) (t : ETy) (s : State) : Out :=
  issue (.vadd d a b mk t) (vRound 4 d mk t fun c =>
    ((lanesOf t (c.getV a)).zip (lanesOf t (c.getV b))).map fun p rm u => laneAdd t rm p.1 p.2 u) s

/-- VSUB (R142). -/
def execVsub (d a b : Reg) (mk : MReg) (t : ETy) (s : State) : Out :=
  issue (.vsub d a b mk t) (vRound 4 d mk t fun c =>
    ((lanesOf t (c.getV a)).zip (lanesOf t (c.getV b))).map fun p rm u => laneSub t rm p.1 p.2 u) s

/-- VMUL (R142). -/
def execVmul (d a b : Reg) (mk : MReg) (t : ETy) (s : State) : Out :=
  issue (.vmul d a b mk t) (vRound 4 d mk t fun c =>
    ((lanesOf t (c.getV a)).zip (lanesOf t (c.getV b))).map fun p rm u => laneMul t rm p.1 p.2 u) s

/-- The FMA family reads the old v[D] (R143): `na`, `nd` negate a and d. -/
def vFma (d a b : Reg) (mk : MReg) (t : ETy) (na nd : Bool) : State → Out :=
  vRound 5 d mk t fun c =>
    ((lanesOf t (c.getV a)).zip ((lanesOf t (c.getV b)).zip (lanesOf t (c.getV d)))).map fun p rm u =>
      let f := fmtOf t
      let x := f.unpack p.1
      let z := f.unpack p.2.2
      f.fmaV rm (if na then x.negate else x) (f.unpack p.2.1) (if nd then z.negate else z) u

def execVfma (d a b : Reg) (mk : MReg) (t : ETy) (s : State) : Out :=
  issue (.vfma d a b mk t) (vFma d a b mk t false false) s

def execVfms (d a b : Reg) (mk : MReg) (t : ETy) (s : State) : Out :=
  issue (.vfms d a b mk t) (vFma d a b mk t false true) s

def execVfnm (d a b : Reg) (mk : MReg) (t : ETy) (s : State) : Out :=
  issue (.vfnm d a b mk t) (vFma d a b mk t true false) s

def execVmin (d a b : Reg) (mk : MReg) (t : ETy) (s : State) : Out :=
  issue (.vmin d a b mk t) (vBin 4 d a b mk t (laneMinmax t false false)) s

def execVmax (d a b : Reg) (mk : MReg) (t : ETy) (s : State) : Out :=
  issue (.vmax d a b mk t) (vBin 4 d a b mk t (laneMinmax t true false)) s

def execVminm (d a b : Reg) (mk : MReg) (t : ETy) (s : State) : Out :=
  issue (.vminm d a b mk t) (vBin 4 d a b mk t (laneMinmax t false true)) s

def execVmaxm (d a b : Reg) (mk : MReg) (t : ETy) (s : State) : Out :=
  issue (.vmaxm d a b mk t) (vBin 4 d a b mk t (laneMinmax t true true)) s

def execVabs (d a : Reg) (mk : MReg) (t : ETy) (s : State) : Out :=
  issue (.vabs d a mk t) (vUn 2 d a mk t (laneAbs t)) s

def execVneg (d a : Reg) (mk : MReg) (t : ETy) (s : State) : Out :=
  issue (.vneg d a mk t) (vUn 2 d a mk t (laneNeg t)) s

/-- VSFN (R146, R147). -/
def execVsfn (d a : Reg) (fn : SFn) (mk : MReg) (t : ETy) (s : State) : Out :=
  issue (.vsfn d a fn mk t) (vUn 10 d a mk t (sfnLane fn t)) s

/-- VCMP writes the bits that each active lane covers (R148). -/
def execVcmp (e : MReg) (k : VCond) (a b : Reg) (mk : MReg) (t : ETy) (s : State) : Out :=
  issue (.vcmp e k a b mk t) (onCtx fun c =>
    let r := ((lanesOf t (c.getV a)).zip (lanesOf t (c.getV b))).map fun p => laneCmp t k p.1 p.2
    let m := c.getM mk
    c.addPend 4 (.m e (laneMask t (r.map (·.1))) (governed t m)) (gatherFlags ((activeLanes t m).zip (r.map (·.2))))) s

/-- VSEL writes all lanes (R149). -/
def execVsel (d a b : Reg) (mk : MReg) (t : ETy) (s : State) : Out :=
  issue (.vsel d a b mk t) (onCtx fun c =>
    let e := expandMask (governed t (c.getM mk))
    c.addWhole 2 d ((c.getV a &&& e) ||| (c.getV b &&& ~~~e)) 0) s

/-- A bitwise operation over the active lanes (R150). -/
def vBits (lat : Nat) (d : Reg) (mk : MReg) (t : ETy) (f : Ctx → Row) : State → Out :=
  onCtx fun c => c.addPend lat (.v d (f c) (governed t (c.getM mk))) 0

def execVand (d a b : Reg) (mk : MReg) (t : ETy) (s : State) : Out :=
  issue (.vand d a b mk t) (vBits 2 d mk t fun c => c.getV a &&& c.getV b) s

def execVor (d a b : Reg) (mk : MReg) (t : ETy) (s : State) : Out :=
  issue (.vor d a b mk t) (vBits 2 d mk t fun c => c.getV a ||| c.getV b) s

def execVxor (d a b : Reg) (mk : MReg) (t : ETy) (s : State) : Out :=
  issue (.vxor d a b mk t) (vBits 2 d mk t fun c => c.getV a ^^^ c.getV b) s

def execVshl (d a b : Reg) (mk : MReg) (t : ETy) (s : State) : Out :=
  issue (.vshl d a b mk t) (vBin 2 d a b mk t (laneShl t)) s

def execVshr (d a b : Reg) (mk : MReg) (t : ETy) (s : State) : Out :=
  issue (.vshr d a b mk t) (vBin 2 d a b mk t (laneShr t)) s

def execVsra (d a b : Reg) (mk : MReg) (t : ETy) (s : State) : Out :=
  issue (.vsra d a b mk t) (vBin 2 d a b mk t (laneSra t)) s

/-- VRED: lane 0 receives the result, every other lane zero (R158). -/
def execVred (d a : Reg) (op : RedOp) (mk : MReg) (t : ETy) (s : State) : Out :=
  issue (.vred d a op mk t) (onCtx fun c =>
    let l := ((activeLanes t (c.getM mk)).zip (lanesOf t (c.getV a))).map fun p => if p.1 then p.2 else redIdentity t op
    let (r, fl) := redTree (redFn t op) 11 l
    c.addWhole 8 d (BitVec.ofNat 16384 (r % 2 ^ (8 * t.bytes))) fl) s

/-- VSCAN: an inactive lane enters as the identity of the sum (R159). -/
def execVscan (d a : Reg) (mk : MReg) (t : ETy) (s : State) : Out :=
  issue (.vscan d a mk t) (onCtx fun c =>
    let z := redIdentity t .sum
    let l := ((activeLanes t (c.getM mk)).zip (lanesOf t (c.getV a))).map fun p => if p.1 then p.2 else z
    c.addLanes 10 d mk t (scanFrom t z l)) s

/-- VPERM (R160). -/
def execVperm (d a b : Reg) (mk : MReg) (t : ETy) (s : State) : Out :=
  issue (.vperm d a b mk t) (onCtx fun c =>
    let x := c.getV a
    c.addLanes 4 d mk t ((lanesOf t (c.getV b)).map fun i => (x.bits (8 * t.bytes * (i % laneCount t)) (8 * t.bytes), 0))) s

/-- VBCST (R160). -/
def execVbcst (d a : Reg) (mk : MReg) (t : ETy) (s : State) : Out :=
  issue (.vbcst d a mk t) (onCtx fun c => c.addLanes 2 d mk t (List.replicate (laneCount t) ((c.getX a).bits 0 (8 * t.bytes), 0))) s

/-- The lane that VEXT extracts, extended by its type (R160). -/
def extLane (t : ETy) (r : Row) (i : Word) : Word :=
  let v := r.bits (8 * t.bytes * (i.toNat % laneCount t)) (8 * t.bytes)
  if t.hasSign && t.isInt then wordOfInt (sextNat v (8 * t.bytes)) else wordOfNat v

/-- VEXT: from a full row a fixed-latency result, from an empty one a variable-latency producer (R102, R160). -/
def execVext (d a b : Reg) (t : ETy) (s : State) : Out :=
  issue (.vext d a b t) (fun s =>
    if s.iss.fullV.getLsbD a.toNat then
      .next (s.modCtx s.cur fun c => c.addX 2 d (extLane t (c.getV a) (c.getX b)))
    else .next (s.addAccess s.cur (.vext d a b t) fun c e => { e with vb := c.getX b })) s

/-- VINS: one lane, when its governing bit is 1 (R160). -/
def execVins (d a b : Reg) (mk : MReg) (t : ETy) (s : State) : Out :=
  issue (.vins d a b mk t) (onCtx fun c =>
    let j := (c.getX b).toNat % laneCount t
    let l := (upTo (laneCount t)).map fun i => i = j && (c.getM mk).getLsbD (t.bytes * j)
    c.addPend 2 (.v d (BitVec.ofNat 16384 ((c.getX a).bits 0 (8 * t.bytes) <<< (8 * t.bytes * j))) (laneMask t l)) 0) s

/-- VIOTA (R160). -/
def execViota (d : Reg) (mk : MReg) (t : ETy) (s : State) : Out :=
  issue (.viota d mk t) (onCtx fun c =>
    c.addLanes 2 d mk t ((upTo (laneCount t)).map fun (i : Nat) =>
      (if t.isFloat then (cvtFromInt (fmtOf t) .rne i 0).1 else i % 2 ^ (8 * t.bytes), 0))) s

/-- VMOV (R160). -/
def execVmov (d a : Reg) (mk : MReg) (t : ETy) (s : State) : Out :=
  issue (.vmov d a mk t) (vBits 2 d mk t fun c => c.getV a) s

/-- VBITS (R161). -/
def execVbits (d a : Reg) (op : BitOp) (mk : MReg) (t : ETy) (s : State) : Out :=
  issue (.vbits d a op mk t) (vUn 4 d a mk t fun x =>
    let w := 8 * t.bytes
    ((match op with | .clz => clzNat w x | .ffs => ffsNat w x | .popc => popcNat w x | .brev => brevNat w x), 0)) s

/-- VPRUNE (R162). -/
def execVprune (d a b : Reg) (mk : MReg) (t : ETy) (s : State) : Out :=
  issue (.vprune d a b mk t) (onCtx fun c =>
    let n := laneCount t
    let theta := fmtF32.unpack ((c.getX b).bits 0 32)
    let l := ((lanesOf t (c.getV a)).zip (c.draws n)).map fun p => lanePrune t theta p.1 p.2
    (c.takeDraws n).addLanes 5 d mk t l) s

/-- The FP32 pattern of u × 2^−24 (R163), exact. -/
def uniformF32 (u : Nat) : Nat := (fmtF32.round .rne { neg := false, m := u, e := -24 } 0).1

/-- VRAND (R163). -/
def execVrand (d : Reg) (uniform : Bool) (mk : MReg) (t : ETy) (s : State) : Out :=
  issue (.vrand d uniform mk t) (onCtx fun c =>
    let n := laneCount t
    let l := (upTo n).map fun i =>
      let r := (draw c.cr[crRngk] (c.counter + BitVec.ofNat 128 i)).toNat
      ((if uniform then uniformF32 (r % 2 ^ 24) else r % 2 ^ (8 * t.bytes)), (0 : Flags))
    (c.takeDraws n).addLanes 4 d mk t l) s

/-- VSCL (R164). -/
def execVscl (d a b : Reg) (mk : MReg) (t : ETy) (s : State) : Out :=
  issue (.vscl d a b mk t) (vRound 4 d mk t fun c =>
    let n := (c.getX b).toInt
    (lanesOf t (c.getV a)).map fun x rm u => laneScl t n rm x u) s

/-- VMSK over all 2,048 bits (R165). -/
def execVmsk (e f : MReg) (op : MaskOp) (s : State) : Out :=
  issue (.vmsk e f op) (onCtx fun c =>
    let x := c.getM e
    let y := c.getM f
    let r := match op with
      | .and => x &&& y | .or => x ||| y | .xor => x ^^^ y | .andn => x &&& ~~~y | .not => ~~~y
      | .set => BitVec.allOnes 2048 | .clr => 0
    c.addPend 2 (.m e r (BitVec.allOnes 2048)) 0) s

/-- VMCNT counts the governing bits (R165). -/
def execVmcnt (d : Reg) (f : MReg) (t : ETy) (s : State) : Out :=
  issue (.vmcnt d f t) (onCtx fun c => c.addX 2 d (wordOfNat ((activeLanes t (c.getM f)).countP id))) s

end Sys2Proof.Machine
end

