-- ==== Sys2Proof/Machine/Matrix.lean ====
section
/-! DEFINITION. The matrix engine (spec/06_matrix.md): acceptance, when a command may start (R170, R172, R173, R20, R356), its
units of work and its end (R171). -/

namespace Sys2Proof.Machine

/-! Acceptance. -/

/-- Dense beats of a row pass (R185). -/
def denseBeats (p : Word) : Nat := if pcwP1 p then planesOf (pcwWf p) else ceilDiv (planesOf (pcwWf p)) 2

/-- The estimate of a matrix command (R358). -/
def matrixEst (s : State) (c : Cmd) : Nat :=
  let p := c.pcw
  match c.ins with
  | .mlw _ _ _ _ _ => 8 * slabGranules p (s.ctxAt c.agent).budget + 16
  | .mla _ _ _ _ _ => mlaM c * ceilDiv (pcwKact p) 32 + 8
  | .mma _ _ _ _ _ | .mman _ _ _ _ _ | .mmab _ _ _ _ _ => mulM c * denseBeats p + 20
  | .mdr _ _ _ _ _ => mdrM c * ceilDiv (pcwNact p) 32 + 12
  | .mza _ _ _ _ _ => mzaM c
  | .mrb _ _ _ _ _ => ceilDiv (pcwNact p) 64
  | _ => 8

/-- Counters that a command takes at issue: 512 for each row of an SR multiply or an SR drain (R186, R279). -/
def matrixDraws (c : Cmd) : Nat :=
  match c.ins with
  | .mma _ _ _ _ _ | .mman _ _ _ _ _ | .mmab _ _ _ _ _ => if pcwSrseg c.pcw then 512 * mulM c else 0
  | .mdr _ _ _ _ _ => if mdrRm c = .sr then 512 * mdrM c else 0
  | _ => 0

/-- Accept a matrix command: the rows it will write are empty from now on (R19). -/
def matrixEff (i : Instr) (p : Reg) (n : Nat) (kd ka kb kc : Tok) : State → Out := fun s =>
  let c := mkCmd s i p n kd ka kb kc 0
  let c := { c with est := matrixEst s c }
  let d := matrixDraws c
  let s := s.modCtx s.cur fun x =>
    let x := (rowsWritten c).foldl (fun x r => x.markV (BitVec.ofNat 6 r) false) x
    if d = 0 then x else x.takeDraws d
  .next (s.accept c)

/-! When a command may start. -/

/-- Context state that a command uses, as half-open ranges in one numbering (R172): activation rows from 0, accumulator rows
from 64, granules from 128, the budget table, the counters. -/
def matrixUses (s : State) (c : Cmd) : List (Nat × Nat) :=
  let p := c.pcw
  let stats := (2177, 2178)
  let table := (2176, 2177)
  match c.ins with
  | .mlw _ _ _ _ _ =>
    let g := mlwGran c
    (128 + g, 128 + min 2048 (g + slabGranules p (s.ctxAt c.agent).budget)) :: (if pcwSparse p = 2 then [table] else [])
  | .mla _ _ _ _ _ => [(mlaRow0 c, mlaRow0 c + mlaM c)]
  | .mma _ _ _ _ _ | .mman _ _ _ _ _ | .mmab _ _ _ _ _ =>
    let g := mulGran c
    [(mulRow0 c, mulRow0 c + mulM c), (64 + mulD0 c, 64 + mulD0 c + mulM c), stats,
     (128 + g, 128 + min 2048 (g + slabGranules p (s.ctxAt c.agent).budget))] ++ (if pcwSparse p = 2 then [table] else [])
  | .mdr _ _ _ _ _ =>
    [(64 + mdrD0 c, 64 + mdrD0 c + mdrM c), stats] ++ (if mdrUnperm c then [(128 + c.par2.bits 0 11, 129 + c.par2.bits 0 11)] else [])
  | .mza _ _ _ _ _ => [(64 + mzaD0 c, 64 + mzaD0 c + mzaM c)]
  | .mrb _ _ _ _ _ => [table]
  | .mstat _ _ _ _ _ => [stats]
  | _ => []

def usesClash (a b : List (Nat × Nat)) : Bool := a.any fun x => b.any fun y => x.1 < y.2 && y.1 < x.2

/-- Earlier matrix commands of the same context. -/
def earlierMatrix (s : State) (c : Cmd) : List Cmd :=
  s.cmds.filter fun d => d.agent = c.agent && d.id < c.id && d.kind = .slot && isMatrix d.ins

/-- Tokens, order of issue, hazards, fences and vector writes on the way let a matrix command start; the array apart (R20, R170,
R172, R204). -/
def matrixReady (s : State) (c : Cmd) : Bool :=
  let e := earlierMatrix s c
  c.kind = .slot && isMatrix c.ins && c.st = .queued && c.tokensFree && !fenceBlocks s c &&
  e.all (fun d => d.st != .queued) && e.all (fun d => !usesClash (matrixUses s d) (matrixUses s c)) &&
  !(rowsUsed c).any fun r => s.rowComing c.agent r

/-- The multiply that the array takes next: the ready one whose slot comes first after the last served (R173). -/
def arrayNext (s : State) (core : Nat) : Option Cmd :=
  let ready := s.cmds.filter fun c => !isSeq c.agent && coreOf c.agent = core && isMul c.ins && matrixReady s c
  (upTo 4).findSome? fun i => ready.find? fun c => c.agent % 4 = ((s.coreAt core).rr + 1 + i) % 4

/-- The array of the core is free. -/
def arrayFree (s : State) (core : Nat) : Bool :=
  s.cmds.all fun c => !(c.kind = .slot && isMul c.ins && !isSeq c.agent && coreOf c.agent = core && c.st = .running)

/-- The cluster of a core. -/
def clusterOf (core : Nat) : Nat := core / 4

/-- A cluster asks for an enable slot, once (R355, R356). -/
def State.askEnable (s : State) (cl : Nat) : State :=
  let k := s.clusterAt cl
  if k.arraysOn || k.asked.isSome then s else s.setCluster cl { k with asked := some s.now }

/-! The end of a command. -/

/-- The row of a VEXT that waits has become full. -/
def Ctx.vextMet (c : Ctx) (a : Access) : Option Reg :=
  match a.ins, a.st with
  | .vext _ v _ _, .waiting => if c.vFull v then some v else none
  | _, _ => none

/-- A VEXT that waits on a row which is full now takes its lane; from a poisoned row it takes zero, and the Poison trap is due at the next
boundary (R102). -/
def Ctx.settleVext (c : Ctx) : Ctx :=
  { c with vextBad := c.vextBad ++ (c.acc.filterMap c.vextMet).filterMap fun v => if c.vBad v then some (c.frames, v) else none
           acc := c.acc.map fun a =>
      match a.ins, a.st with
      | .vext _ v _ t, .waiting =>
        if c.vFull v then
          { a with st := .got (if c.vBad v then 0 else extLane t (c.getV v) a.vb), bad := c.vBad v, due := 2 }
        else a
      | _, _ => a }

/-- Rows that no accepted command of the context has yet to write are full (R19, R99). -/
def State.refill (s : State) (n : Nat) (rows : List Nat) : State :=
  let still := s.rowsOwed n
  s.modCtx n fun c =>
    ((rows.filter fun r => !still.contains r).foldl (fun c r => c.markV (BitVec.ofNat 6 r) true) c).settleVext

/-- The command leaves the engine; its rows are full and its token ends with the status (R171). -/
def matrixEnd (s : State) (c : Cmd) : State :=
  ((s.dropCmd c.id).refill c.agent (rowsWritten c)).endToken c.agent c.kd c.rep c.status c.raceVa

/-! Units of work. -/

/-- Keep the first error of a command. -/
def Cmd.fail (c : Cmd) (st : BitVec 8) : Cmd := if c.status = 0 then { c with status := st } else c

/-- How many units a command has. -/
def matrixUnits (c : Cmd) : Nat :=
  match c.ins with
  | .mlw _ _ _ _ _ => 512
  | .mla _ _ _ _ _ => mlaM c
  | .mma _ _ _ _ _ | .mman _ _ _ _ _ | .mmab _ _ _ _ _ => mulM c
  | .mdr _ _ _ _ _ => mdrM c
  | _ => 1

/-- A command stops before a racing access with status Race (R314); the address travels with its token (R266). -/
def raced (s : State) (c : Cmd) (sa : Nat) : State :=
  s.putCmd { c with status := 0x24, raceVa := wordOfNat (0x7F * 2 ^ 57 + sa), done := matrixUnits c }

def mlwUnit (s : State) (c : Cmd) : State :=
  match mlwColumn s c c.done with
  | none => raced s c (mlwSrc c ((slabPerm c.pcw (s.ctxAt c.agent).budget)[c.done]?.getD c.done))
  | some (s, badPos, bad) =>
    let c := if badPos then { c with status := 0x22 } else if bad then c.fail 0x21 else c
    s.putCmd { c with done := c.done + 1 }

/-- MLA loads one buffer row (R180, R188). The blocks of a row, its side entries and its tile scale count as one access each for the guard
reports of R294: the spec does not say how many accesses a matrix command makes (log entry 47). -/
def mlaUnit (s : State) (c : Cmd) : State :=
  let p := c.pcw
  let fmt := pcwAf p
  let w := wordsPerBlock fmt
  let nb := ceilDiv (pcwKact p) 32
  let sa := c.par0.bits 0 31 + c.done * c.par0.bits 32 21
  let sideA := c.par1.bits 0 31 + c.done * c.par1.bits 32 16
  match s.scrRead c 6 sa (nb * 4 * w) with
  | (_, none) => raced s c sa
  | (s, some r) =>
    match s.scrRead c 6 sideA (if fmt = 9 then 0 else nb) with
    | (_, none) => raced s c sideA
    | (s, some side) =>
      match s.scrRead c 6 (c.par3.bits 0 31 + 4 * c.done) (if pcwTscale p then 4 else 0) with
      | (_, none) => raced s c (c.par3.bits 0 31 + 4 * c.done)
      | (s, some ta) =>
        let codes := (upTo nb).flatMap fun b => unpackPlanes ((upTo w).map fun k => bitsOf r.val (32 * (b * w + k)) 32)
        let bad := r.bad || side.bad || ta.bad
        let row : ARow :=
          { loaded := true, fmt := BitVec.ofNat 4 fmt, kact := pcwKact p, poison := bad
            elems := (codes.take (pcwKact p)).map (BitVec.ofNat 16)
            scales := (upTo nb).map fun b => BitVec.ofNat 8 (if fmt = 9 then 0 else bitsOf side.val (8 * b) 8)
            ta := if pcwTscale p then BitVec.ofNat 32 ta.val else 0x3F800000 }
        let s := s.modCtx c.agent fun x => { x with abuf := x.abuf.set! (mlaRow0 c + c.done) row }
        let c := if bad then c.fail 0x21 else c
        s.putCmd { c with done := c.done + 1 }

/-- An activation row as the multiply uses it; a zero row reads as zeros (R180, R184). -/
def rowView (p : Word) (r : ARow) : RowView :=
  if !r.loaded then {}
  else
    let fmt := r.fmt.toNat
    let sc := fun b => (r.scales[b]?.getD 0).toNat
    { elems := ((upTo (min r.elems.length (pcwKact p))).zip r.elems).map fun q => elemOf fmt (sc (q.1 / 32)) q.2.toNat
      beta := (upTo 4).map fun b => blockBeta fmt (sc b)
      ta := if pcwTscale p then fmtF32.unpack r.ta.toNat else oneV }

/-- The activation row matches the captured PCW (R183). -/
def rowFits (p : Word) (r : ARow) : Bool := !r.loaded || (r.fmt.toNat = pcwAf p && pcwKact p ≤ r.kact)

/-- The slab at a granule is valid, and the granule its first (R176, R183). -/
def CoreSt.validAt (k : CoreSt) (gran : Nat) : Option Slab :=
  (k.slabAt gran).filter fun b => b.valid && (k.granule gran).first = some gran

/-- The slab and the activation rows match the captured PCW (R183). -/
def mulFits (s : State) (c : Cmd) : Bool :=
  let p := c.pcw
  let x := s.ctxAt c.agent
  (match (s.coreAt (coreOf c.agent)).validAt (mulGran c) with
    | none => false
    | some b => b.desc.wf = pcwWf p && b.desc.sparse = pcwSparse p && b.desc.mc = pcwMc p && b.desc.n = pcwN p &&
      b.desc.agrp = p.bits 29 2 && pcwKact p ≤ b.desc.kact && pcwNact p ≤ b.desc.nact) &&
  (upTo (mulM c)).all fun m => rowFits p (x.abuf[mulRow0 c + m]?.getD {})

/-- Saturating addition to counter i (R189). -/
def addStat (l : List (BitVec 32)) (i n : Nat) : List (BitVec 32) :=
  l.set i (BitVec.ofNat 32 (min 0xFFFFFFFF ((l[i]?.getD 0).toNat + n)))

/-- The columns of the slab that a multiply uses, and for each its weight square (R181, R184, R284). -/
def mulCols (p : Word) (budget : List Byte) (perm : List Nat) (cols : List SlabCol) : List (ColView × Nat) :=
  cols.zipIdx.map fun q =>
    let n := if pcwSparse p = 2 then perm[q.2]?.getD q.2 else q.2
    (if pcwSparse p = 0 then denseView p q.1 else sparseView p budget n q.1, n / 128)

/-- One row pass (R182, R271 to R286): the row's lanes, whether it is poisoned, the counters, and the beats of the pass. -/
def rowPass (p : Word) (cols : List (ColView × Nat)) (raw : List SlabCol) (bpc : Nat) (row : RowView) (tws : Nat → FVal)
    (acc : List Nat) (us : Nat → Nat) : List Nat × List (Nat × Nat × Nat) × Nat :=
  let np := planesOf (pcwWf p)
  let aint := isAint (pcwWf p)
  let per := if pcwP1 p then 1 else 2
  let active := raw.take (pcwNact p)
  let groups := (upTo 4).map fun g =>
    if g < bpc then
      let zeroAt := fun j => active.all fun col => (col.blocks[g]?.getD {}).zero.getLsbD j
      let marked := active.any fun col => (col.blocks[g]?.getD {}).bad != 0
      let list := planeList np (pcwSkip p) zeroAt
      let test := fun (j mask : Nat) => ((upTo cols.length).zip cols).all fun (q : Nat × ColView × Nat) =>
        stopTest row q.2.1 aint (pcwKact p) (pcwG p) g j mask (fmtF32.unpack (acc[q.1]?.getD 0)) (tws q.2.2)
      let r := runGroup per (pcwEt p && !marked) test 8 list 0 0
      (r.1, r.2.1, np - list.length, r.2.2)
    else (0, 0, 0, 0)
  let masks := groups.map (·.1)
  let lanes := ((upTo cols.length).zip cols).map fun (q : Nat × ColView × Nat) =>
    let a : Nat := acc[q.1]?.getD 0
    let is := (upTo 4).map fun g => groupInt row.elems masks q.2.1 g
    if pcwAcc p then truncInt ((a : Int) + is.foldl (· + ·) 0) 32
    else
      let tw := tws q.2.2
      match special row q.2.1 with
      | some v =>
        let pat := match v with | .inf n => fmtF32.signBit n + fmtF32.infCode | _ => fmtF32.qnan
        laneUpdate a pat row.ta tw
      | none =>
        let vs := ((upTo 4).zip is).map fun g => groupVal row q.2.1 aint (pcwKact p) g.1 g.2
        laneUpdate a (segmentRound vs (if pcwSrseg p then .sr else .rne) (us q.1)) row.ta tw
  (lanes, groups.map (fun g => (g.2.1, g.2.2.1, g.2.2.2)), groups.foldl (fun a g => max a g.2.1) 1)

/-- Row m of a multiply (R182, R188). A marked weight plane that it meets poisons every row of the command, those done before too; `aux`
keeps that one has been met. -/
def mulUnit (s : State) (c : Cmd) : State :=
  let p := c.pcw
  let x := s.ctxAt c.agent
  let k := s.coreAt (coreOf c.agent)
  let m := c.done
  let bpc := bpcOf p x.budget
  let cols := slabCols k p x.budget (mulGran c) (pcwNact p)
  let perm := if pcwSparse p = 2 then slabPermAt k (mulGran c) (planeWords p x.budget + sideWords p) else ([], false)
  let ar := x.abuf[mulRow0 c + m]?.getD {}
  let d : Reg := BitVec.ofNat 6 (mulD0 c + m)
  let old := lanesOf .f32 (x.getV d)
  let acc := if mulInit c then List.replicate 512 0 else old
  let tws := fun q => if pcwTscale p then fmtF32.unpack (mulTw c q) else oneV
  let us := fun lane => if pcwSrseg p then draw24 c.key c.ctr (512 * m + lane) else 0
  let (lanes, groups, beats) := rowPass p (mulCols p x.budget perm.1 cols) cols bpc (rowView p ar) tws acc us
  let weightBad := c.aux = 1 || perm.2 || cols.any fun col => col.blocks.any fun k => k.bad != 0
  let bad := weightBad || ar.poison || (!mulInit c && x.vBad d)
  let stat := ((upTo 4).zip groups).foldl (fun l q =>
    addStat (addStat (addStat (addStat l (4 * q.1) q.2.1) (4 * q.1 + 1) q.2.2.1) (4 * q.1 + 2) q.2.2.2) (4 * q.1 + 3) 1) x.mstat
  let x := (x.setV d (rowOf .f32 (lanes ++ acc.drop (pcwNact p)))).markBad d bad
  let x := if weightBad then (upTo m).foldl (fun x i => x.markBad (BitVec.ofNat 6 (mulD0 c + i)) true) x else x
  let s := s.setCtx c.agent { x with mstat := addStat stat 17 beats }
  let c := if bad then c.fail 0x21 else c
  s.putCmd { c with done := c.done + 1, aux := ofBoolNat weightBad }

/-- A lane as an exact value: s32 when PCW.ACC is 1 (R186). -/
def drainVal (isInt : Bool) (v : Nat) : FVal := if isInt then .fin (dyOfInt (sextNat v 32) 0) else fmtF32.unpack v

/-- Round to an IEEE-style format, keeping infinities, NaNs canonical. -/
def roundVal (f : Fmt) (rm : RMode) (v : FVal) (u : Nat) : Nat :=
  match v with
  | .nan _ => f.qnan
  | .inf n => f.signBit n + f.infCode
  | .fin d => (f.round rm d u).1

/-- What MDR stores for a row: its bytes as a number and their count, its side bytes, saturations, conversion events (R186). -/
def drainRow (dfmt : Nat) (rm : RMode) (isInt : Bool) (ys us : List Nat) : Nat × Nat × List Nat × Nat × Nat :=
  let vs := ys.map (drainVal isInt)
  let pack := fun (w : Nat) (l : List Nat) => l.foldr (fun v a => a * 2 ^ (8 * w) + v) 0
  if dfmt = 9 then
    if isInt then (pack 4 ys, 4 * ys.length, [], 0, 0)
    else
      let r := (vs.zip us).map fun q => cvtToInt .s32 rm q.1 q.2
      (pack 4 (r.map (·.1)), 4 * ys.length, [], r.countP (fun q => q.2 &&& fSAT != 0), 0)
  else if dfmt = 0 || dfmt = 2 then
    let f := if dfmt = 0 then fmtF32 else fmtF16
    let w := if dfmt = 0 then 4 else 2
    (pack w ((vs.zip us).map fun q => roundVal f rm q.1 q.2), w * ys.length, [], 0, 0)
  else
    let nb := ceilDiv ys.length 32
    let fmt := if dfmt = 1 then 6 else dfmt - 3
    let blocks := (upTo nb).map fun q =>
      let v := (vs.drop (32 * q)).take 32
      let u := (us.drop (32 * q)).take 32
      if dfmt = 1 then
        let (e, codes, ev) := alignBf16 ((v.zip u).map fun z => roundVal fmtBf16 rm z.1 z.2)
        (e, codes, 0, ev)
      else
        let (sc, codes) := quantBlock fmt rm v u
        (sc, codes.map (fun z => storedCode fmt z.1), codes.countP (fun z => z.2 &&& fSAT != 0), 0)
    let planes := blocks.flatMap fun b => packPlanes fmt (b.2.1 ++ List.replicate (32 - b.2.1.length) (zeroStored fmt))
    (planesNat planes, 4 * planes.length, blocks.map (·.1), blocks.foldl (fun a b => a + b.2.2.1) 0,
      blocks.foldl (fun a b => a + b.2.2.2) 0)

/-- Write the planes and the side bytes of a row, the lower area first (R186). -/
def State.drainWrite (s : State) (c : Cmd) (dst n v side : Nat) (bytes : List Nat) : Except Nat State :=
  let sv := bytes.foldr (fun b a => a * 256 + b) 0
  let (a, b) := if side < dst && !bytes.isEmpty then ((side, bytes.length, sv), (dst, n, v)) else ((dst, n, v), (side, bytes.length, sv))
  match s.scrWrite c 6 a.1 a.2.1 a.2.2 with
  | none => .error a.1
  | some s => match s.scrWrite c 6 b.1 b.2.1 b.2.2 with
    | none => .error b.1
    | some s => .ok s

/-- Row m of a drain (R186, R188). With UNPERM a column that no slot's entry names, as from the slab's own NACT up, is taken from the slot
of its number: the spec gives no other (log entry 47); the planes of a row and its side bytes count as one access each (R294). -/
def mdrUnit (s : State) (c : Cmd) : State :=
  let p := c.pcw
  let x := s.ctxAt c.agent
  let m := c.done
  let d : Reg := BitVec.ofNat 6 (mdrD0 c + m)
  if x.vBad d then s.putCmd { c.fail 0x21 with done := m + 1 }
  else
    let lanes := lanesOf .f32 (x.getV d)
    let k := s.coreAt (coreOf c.agent)
    let gran := c.par2.bits 0 11
    let perm := match (if mdrUnperm c then k.slabAt gran else none) with
      | some b => slabPermAt k gran ((b.size - 1) * 512)
      | none => ([], false)
    let slotOf := fun j => if mdrUnperm c then (perm.1.findIdx? (· = j)).getD j else j
    let ys := (upTo (pcwNact p)).map fun j => lanes[slotOf j]?.getD 0
    let us := (upTo (pcwNact p)).map fun j => if mdrRm c = .sr then draw24 c.key c.ctr (512 * m + j) else 0
    let (v, n, side, sat, ev) := drainRow (mdrFmt c) (mdrRm c) (pcwAcc p) ys us
    match s.drainWrite c (c.par0.bits 0 31 + m * c.par1.bits 32 21) n v (c.par1.bits 0 31 + m * c.par2.bits 32 16) side with
    | .error sa => raced s c sa
    | .ok s =>
      let s := s.modCtx c.agent fun x =>
        let x := { x with mstat := addStat (addStat x.mstat 18 sat) 19 ev }
        if mdrClr c then x.setV d 0 else x
      s.putCmd { (if perm.2 then c.fail 0x21 else c) with done := m + 1 }

/-- MRB (R179): uncorrectable bytes are taken as they were read, and the command ends with their status (R188). -/
def mrbUnit (s : State) (c : Cmd) : State :=
  let p := c.pcw
  let nact := pcwNact p
  match s.scrRead c 6 (c.par0.bits 0 31) nact with
  | (_, none) => raced s c (c.par0.bits 0 31)
  | (s, some r) =>
    let limit := if pcwSparse p = 2 then pcwM p else 32
    let l := bytesLE r.val nact
    let c := if r.bad then c.fail 0x21 else c
    if l.any (fun b => limit < b.toNat) then s.putCmd { c.fail 0x23 with done := 1 }
    else (s.modCtx c.agent fun x => { x with budget := l ++ List.replicate (512 - nact) (BitVec.ofNat 8 limit) }).putCmd
      { c with done := 1 }

/-- MSTAT (R189). -/
def mstatUnit (s : State) (c : Cmd) : State :=
  let x := s.ctxAt c.agent
  match s.scrWrite c 6 (c.par0.bits 0 31) 80 (x.mstat.foldr (fun v a => a * 2 ^ 32 + v.toNat) 0) with
  | none => raced s c (c.par0.bits 0 31)
  | some s =>
    let s := if c.par0.getLsbD 32 then s.modCtx c.agent fun x => { x with mstat := List.replicate 20 0 } else s
    s.putCmd { c with done := 1 }

/-- MZA (R187). -/
def mzaUnit (s : State) (c : Cmd) : State :=
  (s.modCtx c.agent fun x => (rowsWritten c).foldl (fun x r =>
    (x.setV (BitVec.ofNat 6 r) 0).markBad (BitVec.ofNat 6 r) false) x).putCmd { c with done := 1 }

/-- One unit of a running command. -/
def matrixUnit (s : State) (c : Cmd) : State :=
  match c.ins with
  | .mlw _ _ _ _ _ => mlwUnit s c
  | .mla _ _ _ _ _ => mlaUnit s c
  | .mma _ _ _ _ _ | .mman _ _ _ _ _ | .mmab _ _ _ _ _ => mulUnit s c
  | .mdr _ _ _ _ _ => mdrUnit s c
  | .mza _ _ _ _ _ => mzaUnit s c
  | .mrb _ _ _ _ _ => mrbUnit s c
  | .mstat _ _ _ _ _ => mstatUnit s c
  | _ => s

/-- Up to n further units of a command. -/
def matrixAdvance (id : Nat) : Nat → State → State
  | 0, s => s
  | n + 1, s =>
    match s.findCmd id with
    | some c => if c.st = .running && isMatrix c.ins && c.kind = .slot && c.done < matrixUnits c then
        matrixAdvance id n (matrixUnit s c) else s
    | none => s

/-! The events. -/

/-- A multiply completes, with whatever status (R189). -/
def State.countMul (s : State) (c : Cmd) : State :=
  if isMul c.ins then s.modCtx c.agent fun x => { x with mstat := addStat x.mstat 16 1 } else s

/-- MATRIX_COMMAND_START: with an error among its consumed tokens the command ends at once with it (R106); a multiply needs the
array, and its cluster's arrays enabled (R173, R356); with operands that do not match it changes no row (R183, R186). -/
def matrixStart (s : State) (id : Nat) : State :=
  match s.findCmd id with
  | none => s
  | some c =>
    if !matrixReady s c then s
    else if c.inherited != 0 then matrixEnd (s.countMul c) { c with status := c.inherited, raceVa := c.inheritedAt }
    else if isMul c.ins then
      let core := coreOf c.agent
      if !arrayFree s core || arrayNext s core != some c then s
      else if !(s.clusterAt (clusterOf core)).arraysOn then s.askEnable (clusterOf core)
      else
        let s := s.modCore core fun k => { k with rr := c.agent % 4 }
        let c := if mulFits s c then c else { c with status := 0x20, done := matrixUnits c }
        s.putCmd { c with st := .running, startAt := s.now }
    else
      let s := match c.ins with | .mlw _ _ _ _ _ => mlwStart s c | _ => s
      let unfit : Bool := match c.ins with
        | .mdr _ _ _ _ _ => (mdrUnperm c && !(((s.coreAt (coreOf c.agent)).validAt (c.par2.bits 0 11)).any fun b => b.desc.sparse = 2) : Bool)
        | _ => false
      let c := if unfit then { c with status := 0x20, done := matrixUnits c } else c
      s.putCmd { c with st := .running, startAt := s.now }

/-- MATRIX_COMMAND_COMPLETE: what is left is done, then the command ends (R171). -/
def matrixComplete (s : State) (id : Nat) : State :=
  match s.findCmd id with
  | none => s
  | some c0 =>
    if !(c0.st = .running && isMatrix c0.ins && c0.kind = .slot) then s
    else
      let s := matrixAdvance id (matrixUnits c0) s
      match s.findCmd id with
      | none => s
      | some c =>
        let s := match c.ins with | .mlw _ _ _ _ _ => mlwEnd s c | _ => s
        let s := if isMul c.ins && c.status != 0x20 then
            s.setCluster (clusterOf (coreOf c.agent)) { s.clusterAt (clusterOf (coreOf c.agent)) with lastBeat := s.now }
          else s
        matrixEnd (s.countMul c) c

/-- ARRAY_ENABLE_GRANT: the cluster that asked first, ties to die 0 and then to the lower stagger position, is enabled (R355). -/
def enableFirst (s : State) : Option Nat :=
  let asks := ((upTo 72).map fun i => 36 * (i / 36) + 7 * (i % 36) % 36).filterMap fun cl => (s.clusterAt cl).asked.map fun t => (t, cl)
  (asks.foldl (fun (best : Option (Nat × Nat)) a => match best with
    | none => some a
    | some b => if a.1 < b.1 then some a else some b) none).map (·.2)

/-- ARRAY_DISABLE after 65,536 idle cycles, while no multiply is accepted in the cluster (R355, R356). -/
def arrayDisable (s : State) (cl : Nat) : State :=
  let k := s.clusterAt cl
  if k.arraysOn && k.lastBeat + 65536 ≤ s.now &&
      s.cmds.all (fun c => !(c.kind = .slot && isMul c.ins && !isSeq c.agent && clusterOf (coreOf c.agent) = cl)) then
    s.setCluster cl { k with arraysOn := false }
  else s

/-! The slots. -/

/-- MPCW writes PCW for later bundles (R166). -/
def execMpcw (a : Reg) (wa : Bool) (s : State) : Out :=
  issue (.mpcw a wa) (onCtx fun c => { c with crPend := c.crPend ++ [(0x0B, c.getX a)] }) s

def execMlw (p : Reg) (kd ka kb kc : Tok) (s : State) : Out := issue (.mlw p kd ka kb kc) (matrixEff (.mlw p kd ka kb kc) p 3 kd ka kb kc) s
def execMla (p : Reg) (kd ka kb kc : Tok) (s : State) : Out := issue (.mla p kd ka kb kc) (matrixEff (.mla p kd ka kb kc) p 4 kd ka kb kc) s
def execMma (p : Reg) (kd ka kb kc : Tok) (s : State) : Out := issue (.mma p kd ka kb kc) (matrixEff (.mma p kd ka kb kc) p 3 kd ka kb kc) s
def execMman (p : Reg) (kd ka kb kc : Tok) (s : State) : Out := issue (.mman p kd ka kb kc) (matrixEff (.mman p kd ka kb kc) p 3 kd ka kb kc) s
def execMmab (p : Reg) (kd ka kb kc : Tok) (s : State) : Out := issue (.mmab p kd ka kb kc) (matrixEff (.mmab p kd ka kb kc) p 3 kd ka kb kc) s
def execMdr (p : Reg) (kd ka kb kc : Tok) (s : State) : Out := issue (.mdr p kd ka kb kc) (matrixEff (.mdr p kd ka kb kc) p 3 kd ka kb kc) s
def execMza (p : Reg) (kd ka kb kc : Tok) (s : State) : Out := issue (.mza p kd ka kb kc) (matrixEff (.mza p kd ka kb kc) p 1 kd ka kb kc) s
def execMrb (p : Reg) (kd ka kb kc : Tok) (s : State) : Out := issue (.mrb p kd ka kb kc) (matrixEff (.mrb p kd ka kb kc) p 1 kd ka kb kc) s
def execMstat (p : Reg) (kd ka kb kc : Tok) (s : State) : Out := issue (.mstat p kd ka kb kc) (matrixEff (.mstat p kd ka kb kc) p 1 kd ka kb kc) s

end Sys2Proof.Machine
end

