-- ==== Sys2Proof/Machine/System.lean ====
section
/-! DEFINITION. The system slots (spec/09_system.md, R249 to R264) that act on the issuing context and its translations, and the
acceptance of the region, work-list and engine commands, of GSW and SRGROW (R217, R358, R262). -/

namespace Sys2Proof.Machine

/-! MFC, MTC, TRAP. -/

/-- MFC reads the register as it stands after the slots before it (R250, R251); a number that the agent lacks never gets here
(R252). -/
def execMfc (d : Reg) (n : BitVec 12) (s : State) : Out :=
  issue (.mfc d n) (fun s =>
    .next (s.modCtx s.cur fun c => c.addX 2 d (if h : n.toNat < 24 then s.readCr s.cur ⟨n.toNat, h⟩ else 0))) s

/-- MTC: the value governs from the next bundle (R250). -/
def execMtc (a : Reg) (n : BitVec 12) (s : State) : Out :=
  issue (.mtc a n) (onCtx fun c => { c with crPend := c.crPend ++ [(n.toNat, c.getX a)] }) s

/-- TRAP raises its cause among the checks at issue, so no slot of its bundle executes (R257). -/
def execTrap (n : BitVec 12) (s : State) : Out := issue (.trap n) (pureEff fun s => s) s

/-! Leaving, stopping, invalidating. -/

/-- RFT: the context drains, then the frame is restored (R259, R403). -/
def execSysRft (s : State) : Out :=
  issue .sysRft (fun s =>
    .next (s.modCtx s.cur fun c => { c with drain := .rft, drainSlot := s.iss.slot, drainLen := s.iss.len })) s

/-- HALT: the context issues nothing more and drains (R260). -/
def execSysHalt (s : State) : Out := issue .sysHalt (onCtx fun c => { c with drain := .halt }) s

/-- TLBI drops the page of x[A] from every unit, pinned or not (R261). -/
def execSysTlbi (a : Reg) (s : State) : Out :=
  issue (.sysTlbi a) (pureEff fun s =>
    let c := s.ctxAt s.cur
    s.dropTlb fun t => t.covers c.job (c.getX a).toNat) s

/-- TLBIA drops every entry of the job (R261). -/
def execSysTlbia (s : State) : Out :=
  issue .sysTlbia (pureEff fun s =>
    let c := s.ctxAt s.cur
    s.dropTlb fun t => t.job = c.job) s

/-! Acceptance of commands. -/

/-- Bytes of an element row of a CPY: codes of the format in modes 1 and 2. -/
def cpyRowBytes (c : Cmd) : Nat :=
  let m := cpyMode (cFlags c)
  if m = 1 || m = 2 then ceilDiv (cLen c * elemBits (cpyFmt (cFlags c))) 8 else cLen c

/-- The region that a command names by its base (R207). -/
def regionOfBase (s : State) (sa : Nat) : Option Region := (s.coreAt (sa / 2 ^ 22)).regionAt (sa % 2 ^ 22)

/-- The estimate of R358. -/
def engineEst (s : State) (c : Cmd) : Nat :=
  let p := c.parAt
  let size := ((regionOfBase s ((p 0).bits 0 31)).map (·.size)).getD 0
  match c.ins with
  | .cpy _ _ _ _ _ => 32 + ceilDiv (cRows c * cpyRowBytes c) 64
  | .cprWrite _ _ _ _ _ | .cprRead _ _ _ _ _ | .crd _ _ _ _ _ => 64 + ceilDiv ((p 2).bits 0 32) 64
  | .csg _ _ _ _ _ _ => 32
  | .lnch _ _ _ _ _ => 72
  | .gth _ _ _ _ _ | .sct _ _ _ _ _ | .sca _ _ _ _ _ => 32 + ((p 4).bits 0 16 + 1) * ceilDiv (4 * ((p 4).bits 32 16 + 1)) 64
  | .spl _ _ _ _ _ | .sps _ _ _ _ _ | .spa _ _ _ _ _ | .spi _ _ _ _ _ => 64 * ((p 3).bits 32 12 + 1)
  | .spd _ _ _ _ _ => 256
  | .rgmap _ _ _ _ _ => if (p 2).bits 22 2 = 0 then 16 else 16 + (p 2).bits 0 22 / 64
  | .rgwb _ _ _ _ _ | .rginv _ _ _ _ _ => 16 + size / 64
  | .wlpop _ _ _ _ _ => 16 + ((p 0).bits 32 12 + 1) / 8
  | _ => 0

/-- Accept a command with what it captured, a mark-mode copy also with SEALK (R465). -/
def engineEff (i : Instr) (p : Reg) (n : Nat) (kd ka kb kc : Tok) : State → Out := pureEff fun s =>
  let c := captureSeal s (mkCmd s i p n kd ka kb kc 0)
  s.accept { c with est := engineEst s c }

def execRgmap (p : Reg) (kd ka kb kc : Tok) (s : State) : Out := issue (.rgmap p kd ka kb kc) (engineEff (.rgmap p kd ka kb kc) p 3 kd ka kb kc) s
def execRgwb (p : Reg) (kd ka kb kc : Tok) (s : State) : Out := issue (.rgwb p kd ka kb kc) (engineEff (.rgwb p kd ka kb kc) p 1 kd ka kb kc) s
def execRginv (p : Reg) (kd ka kb kc : Tok) (s : State) : Out := issue (.rginv p kd ka kb kc) (engineEff (.rginv p kd ka kb kc) p 1 kd ka kb kc) s
def execWlpop (p : Reg) (kd ka kb kc : Tok) (s : State) : Out := issue (.wlpop p kd ka kb kc) (engineEff (.wlpop p kd ka kb kc) p 2 kd ka kb kc) s
def execCpy (p : Reg) (kd ka kb kc : Tok) (s : State) : Out := issue (.cpy p kd ka kb kc) (engineEff (.cpy p kd ka kb kc) p 9 kd ka kb kc) s
def execCprWrite (p : Reg) (kd ka kb kc : Tok) (s : State) : Out := issue (.cprWrite p kd ka kb kc) (engineEff (.cprWrite p kd ka kb kc) p 5 kd ka kb kc) s
def execCprRead (p : Reg) (kd ka kb kc : Tok) (s : State) : Out := issue (.cprRead p kd ka kb kc) (engineEff (.cprRead p kd ka kb kc) p 5 kd ka kb kc) s
def execCrd (p : Reg) (kd ka kb kc : Tok) (s : State) : Out := issue (.crd p kd ka kb kc) (engineEff (.crd p kd ka kb kc) p 5 kd ka kb kc) s
def execCsg (p : Reg) (kd ka kb kc : Tok) (sc : Scope) (s : State) : Out := issue (.csg p kd ka kb kc sc) (engineEff (.csg p kd ka kb kc sc) p 2 kd ka kb kc) s
def execGth (p : Reg) (kd ka kb kc : Tok) (s : State) : Out := issue (.gth p kd ka kb kc) (engineEff (.gth p kd ka kb kc) p 5 kd ka kb kc) s
def execSct (p : Reg) (kd ka kb kc : Tok) (s : State) : Out := issue (.sct p kd ka kb kc) (engineEff (.sct p kd ka kb kc) p 5 kd ka kb kc) s
def execSca (p : Reg) (kd ka kb kc : Tok) (s : State) : Out := issue (.sca p kd ka kb kc) (engineEff (.sca p kd ka kb kc) p 5 kd ka kb kc) s
def execSpl (p : Reg) (kd ka kb kc : Tok) (s : State) : Out := issue (.spl p kd ka kb kc) (engineEff (.spl p kd ka kb kc) p 4 kd ka kb kc) s
def execSps (p : Reg) (kd ka kb kc : Tok) (s : State) : Out := issue (.sps p kd ka kb kc) (engineEff (.sps p kd ka kb kc) p 4 kd ka kb kc) s
def execSpa (p : Reg) (kd ka kb kc : Tok) (s : State) : Out := issue (.spa p kd ka kb kc) (engineEff (.spa p kd ka kb kc) p 4 kd ka kb kc) s
def execSpi (p : Reg) (kd ka kb kc : Tok) (s : State) : Out := issue (.spi p kd ka kb kc) (engineEff (.spi p kd ka kb kc) p 4 kd ka kb kc) s
def execSpd (p : Reg) (kd ka kb kc : Tok) (s : State) : Out := issue (.spd p kd ka kb kc) (engineEff (.spd p kd ka kb kc) p 3 kd ka kb kc) s
def execLnch (p : Reg) (kd ka kb kc : Tok) (s : State) : Out := issue (.lnch p kd ka kb kc) (engineEff (.lnch p kd ka kb kc) p 1 kd ka kb kc) s

/-- GSW and SRGROW hand their descriptor's address to the sequencer of the die, or to the region's sparse engine (R262, R263). -/
def requestEff (i : Instr) (k : CmdKind) (a : Reg) : State → Out := pureEff fun s =>
  s.accept { mkCmd s i a 1 0 0 0 0 0 with kind := k }

def execSysGsw (a : Reg) (s : State) : Out := issue (.sysGsw a) (requestEff (.sysGsw a) .gsw a) s
def execSysSrgrow (a : Reg) (s : State) : Out := issue (.sysSrgrow a) (requestEff (.sysSrgrow a) .grow a) s

end Sys2Proof.Machine
end

