-- ==== Sys2Proof/Machine/Region.lean ====
section
/-! DEFINITION. RGMAP, RGWB and RGINV when they run (R205 to R208), the fills and writebacks of declared tiles (R296, R297, R353), and the
gather engine (R236, R237, R453 to R455). -/

namespace Sys2Proof.Machine

/-! Regions. -/

/-- A command is over but for its completion. -/
def State.over (s : State) (c : Cmd) (st : BitVec 8) : State := s.putCmd { c with status := st, st := .done }

/-- The region or its guards overlap one that is there (R206). -/
def regionClash (base size : Nat) (r : Region) : Bool := overlaps (base - 64) (size + 128) (r.base - 64) (r.size + 128)

/-- RGMAP adds its entry, then fills (R206). -/
def rgmapStart (s : State) (c : Cmd) : State :=
  let sa := (c.parAt 0).bits 0 31
  let f := c.parAt 2
  let size := f.bits 0 22
  let core := sa / 2 ^ 22
  let base := sa % 2 ^ 22
  let k := s.coreAt core
  if k.regions.any (regionClash base size) then s.over c 0x30
  else if 64 ≤ k.regions.length then s.over c 0x31
  else
    let s := s.modCore core fun k =>
      { k with regions := k.regions ++ [{ base := base, size := size, back := c.parAt 1, wb := f.getLsbD 24, owner := c.task.getD 0 }] }
    if f.bits 22 2 = 0 then s.over c 0 else s.putCmd { c with st := .running }

def rgmapUnit (s : State) (c : Cmd) : State :=
  let sa := (c.parAt 0).bits 0 31
  let f := c.parAt 2
  fillWord s c 4 (sa / 2 ^ 22) (sa % 2 ^ 22) (if f.bits 22 2 = 1 then some (c.parAt 1) else none) (f.bits 0 22 / 8)

/-- Take the snapshot of a region's dirty bits and clear them (R207); `rows` keeps its place, size and backing. -/
def snapshot (s : State) (c : Cmd) (core : Nat) (r : Region) : State :=
  let s := s.modCore core fun k =>
    { k with regions := k.regions.map fun q => if q.base = r.base then { q with dirty := 0 } else q }
  s.putCmd { c with st := .running, aux := r.dirty, rows := [(r.base, r.size, r.back.toNat)] }

def dropRegion (s : State) (core base : Nat) : State :=
  s.modCore core fun k => { k with regions := k.regions.filter (·.base != base) }

def rgwbStart (s : State) (c : Cmd) : State :=
  let sa := (c.parAt 0).bits 0 31
  match regionOfBase s sa with
  | none => s.over c 0x32
  | some r => snapshot s c (sa / 2 ^ 22) r

def rginvStart (s : State) (c : Cmd) : State :=
  let sa := (c.parAt 0).bits 0 31
  match regionOfBase s sa with
  | none => s.over c 0x32
  | some r =>
    if r.tile.isSome then s.over c 0x33
    else if (c.parAt 0).getLsbD 32 then snapshot s c (sa / 2 ^ 22) r
    else (dropRegion s (sa / 2 ^ 22) r.base).over c 0

/-- Size in words of the region that a writeback walks. -/
def backWords (c : Cmd) : Nat := match c.rows with | (_, size, _) :: _ => size / 8 | [] => 0

def backUnit (s : State) (c : Cmd) (core : Nat) (add32 : Bool) : State :=
  match c.rows with
  | (base, size, back) :: _ => backWord s c core base (wordOfNat back) add32 (size / 8)
  | [] => s

/-- The end of RGINV takes the entry away (R207). -/
def rginvEnd (s : State) (c : Cmd) : State :=
  match c.rows with
  | (base, _, _) :: _ => dropRegion s ((c.parAt 0).bits 0 31 / 2 ^ 22) base
  | [] => s

/-! Declared tiles. -/

/-- The tile that a fill serves. -/
def fillTile (s : State) (c : Cmd) : Option Tile :=
  match c.kind with
  | .fill t j => (s.findTask t).bind fun k => k.tiles.find? (·.desc = j)
  | _ => none

/-- A share's DSPLIT flag (R353). -/
def State.dsplitOf (s : State) (t : Task) : Bool := ((s.shares.find? (·.id = t.share)).map (·.hdr.dsplit)).getD false

/-- FILL 1 and the outputs of a DSPLIT launch are filled with zeros (R297, R353). -/
def fillUnit (s : State) (c : Cmd) : State :=
  match fillTile s c with
  | some t => fillWord s c 4 t.core t.off (if t.fill = 1 || t.dir = 1 then none else some t.back) (t.size / 8)
  | none => s

/-- Words of a fill. -/
def fillWords (s : State) (c : Cmd) : Nat := match fillTile s c with | some t => t.size / 8 | none => 0

/-- The writeback of a declared output adds under DSPLIT (R353). -/
def writebackUnit (s : State) (c : Cmd) (task core : Nat) : State :=
  backUnit s c core (match s.findTask task with
    | some t => s.dsplitOf t && (match c.rows with | (base, _, _) :: _ => t.tiles.any fun x => x.core = core && x.off = base | [] => false)
    | none => false)

/-! Gather and scatter. -/

def gNrows (c : Cmd) : Nat := (c.parAt 1).bits 0 32
def gTstr (c : Cmd) : Nat := (c.parAt 1).bits 32 32
def gCount (c : Cmd) : Nat := (c.parAt 4).bits 0 16 + 1
def gRowb (c : Cmd) : Nat := 4 * ((c.parAt 4).bits 32 16 + 1)
def gEt (c : Cmd) : Nat := (c.parAt 4).bits 48 3

/-- A scratch address as a core address (R27). -/
def scrAddr (sa : Nat) : Word := wordOfNat (sa + 0x7F * 2 ^ 57)

/-- Read a table row, at virtual addresses (R236), word by word: its bytes as a number, and a mask of its bytes that came from uncorrectable words. -/
def gatherRow (c : Cmd) : Nat → Word → Nat → State → State × Eng (Nat × Nat)
  | 0, _, _, s => (s, .ok (0, 0))
  | fuel + 1, a, len, s =>
    if len = 0 then (s, .ok (0, 0))
    else
      let n := wordLeft a len
      match inVirt s a 0 (s.engFetch c 2 c.unit a n false) with
      | (s, .flt va cause kind) => (s, .flt va cause kind)
      | (s, .race a) => (s, .race a)
      | (s, .ok p) =>
        match gatherRow c fuel (a + wordOfNat n) (len - n) s with
        | (s, .ok (v, m)) => (s, .ok (p.val + v * 2 ^ (8 * n), (if p.bad then 2 ^ n - 1 else 0) + m * 2 ^ n))
        | r => r

/-- Write a gathered row to scratch, with poison marks on the words that hold a byte of the mask. -/
def writeRow (c : Cmd) (v m : Nat) : Nat → Nat → Nat → State → State × Eng Unit
  | 0, _, _, s => (s, .ok ())
  | fuel + 1, sa, off, s =>
    if gRowb c ≤ off then (s, .ok ())
    else
      let n := wordLeft (wordOfNat (sa + off)) (gRowb c - off)
      match s.engPut c 2 c.unit (scrAddr (sa + off)) n (bitsOf v (8 * off) (8 * n)) (bitsOf m off n != 0) false with
      | (s, .ok _) => writeRow c v m fuel sa (off + n) s
      | r => r

/-- One element of a row at offset `aux` added, or the part of a row from there that lies in one table word scattered; an uncorrectable table
word, or source word of an addition, is skipped (R455). -/
def scatterPart (s : State) (c : Cmd) (row : Nat) (ta : Word) : State :=
  let off := c.aux
  let src := row + off
  let dst := ta + wordOfNat off
  let stop := gCount c
  let sca := match c.ins with | .sca _ _ _ _ _ => true | _ => false
  let w := if sca then (if gEt c = 1 || gEt c = 2 then 2 else 4) else wordLeft dst (gRowb c - off)
  let next := fun (c : Cmd) => if gRowb c ≤ off + w then { c with done := c.done + 1, aux := 0 } else { c with aux := off + w }
  let (s, r) := s.engRead c 2 c.unit (scrAddr src) w false
  afterEng s c stop r fun p =>
    if sca then
      if p.bad then s.putCmd (next (c.note 0x41))
      else
        let f := fun (o : Nat) =>
          match gEt c with
          | 0 => (fmtF32.addV .rne (fmtF32.unpack o) (fmtF32.unpack p.val) 0).1
          | 1 => (fmtBf16.addV .rne (fmtBf16.unpack o) (fmtBf16.unpack p.val) 0).1
          | 2 => (fmtF16.addV .rne (fmtF16.unpack o) (fmtF16.unpack p.val) 0).1
          | _ => (o + p.val) % 2 ^ 32
        let (s, q) := inVirt s dst 2 (s.engRmw c 2 c.unit dst w f false)
        afterEng s c stop q fun q => s.putCmd (next (if q.bad then c.note 0x41 else c))
    else
      let (s, t) := s.engTrans c c.unit dst w { kernel := c.kernel, isWrite := true }
      match t with
      | .error e => s.faultCmd c dst e.num 1
      | .ok (_, pc) =>
        if s.isPoison c.agent (pc.key / 8 * 8) then s.putCmd (next (c.note 0x41))
        else
          let (s, q) := s.engPut c 2 c.unit dst w p.val p.bad false
          afterEng s c stop q fun _ => s.putCmd (next (if p.bad then c.note 0x41 else c))

/-- One position of GTH, or one part of a position of SCT or SCA. -/
def gatherUnit (s : State) (c : Cmd) : State :=
  let i := c.done
  let stop := gCount c
  let gth := match c.ins with | .gth _ _ _ _ _ => true | _ => false
  let row := (c.parAt 3).bits 0 31 + i * gRowb c
  let (s, r) := s.engFetch c 2 c.unit (scrAddr ((c.parAt 2).bits 0 31 + 4 * i)) 4 false
  afterEng s c stop r fun ix =>
    let t := ix.val
    let ta := c.parAt 0 + wordOfNat (t * gTstr c)
    let put := fun (s : State) (c : Cmd) (v m : Nat) =>
      let (s, q) := writeRow c v m (gRowb c / 4 + 2) row 0 s
      afterEng s c stop q fun _ => s.putCmd { (if m != 0 then c.note 0x41 else c) with done := i + 1 }
    if ix.bad then (if gth then put s c 0 (2 ^ gRowb c - 1) else s.putCmd { c.note 0x41 with done := i + 1, aux := 0 })
    else if gNrows c ≤ t then
      let c := { c with status := 0x46 }
      if gth then put s c 0 0 else s.putCmd { c with done := i + 1, aux := 0 }
    else if gth then
      match c.rows.find? (·.1 = t) with
      | some (_, v, m) => put s c v m
      | none =>
        let (s, q) := gatherRow c (gRowb c / 4 + 2) ta (gRowb c) s
        afterEng s c stop q fun vm => put s { c with rows := c.rows ++ [(t, vm.1, vm.2)] } vm.1 vm.2
    else scatterPart s c row ta

end Sys2Proof.Machine
end

