-- ==== Sys2Proof/Machine/Jobs.lean ====
section
/-! DEFINITION. A job on this device: its STATE and JSTATE bytes (R409, R410), its members (R409, R411), its contexts, the end of a
launch at its origin (R343, R344), late packets (R383, R425) and lost jobs (R426). -/

namespace Sys2Proof.Machine

/-! Job control. -/

def State.jobCtl (s : State) (j : Nat) : JobCtl := (s.jobs.find? (·.job = j)).getD { job := j }
def State.setJobCtl (s : State) (k : JobCtl) : State :=
  { s with jobs := if s.jobs.any (·.job = k.job) then s.jobs.map fun q => if q.job = k.job then k else q else s.jobs ++ [k] }
def State.modJobCtl (s : State) (j : Nat) (f : JobCtl → JobCtl) : State := s.setJobCtl (f (s.jobCtl j))

def JobCtl.stOf (k : JobCtl) (d : Nat) : Nat := if d = 0 then k.st0 else k.st1

/-- Write bytes of the job's save entry, as a dev-scope release (R409). -/
def State.putEntry (s : State) (j off n v : Nat) : State := if s.savesOn then s.putBytes (s.saveEntry j + off) n v else s

/-- STATE of a die (R410). -/
def State.putState (s : State) (j d v : Nat) : State :=
  (s.modJobCtl j fun k => if d = 0 then { k with st0 := v } else { k with st1 := v }).putEntry j (56 + d) 1 v
/-- JSTATE. -/
def State.putJstate (s : State) (j v : Nat) : State := s.putEntry j 58 1 v

/-- MEMB of a job's save entry; 0 without one (R409). -/
def State.membOf (s : State) (j : Nat) : Nat := if s.savesOn then (s.peek (s.saveEntry j + 48)).toNat else 0

/-- The kernel has written a save entry for the job: one of the fields it writes is set (R409; log entry 16). -/
def State.hasSaveEntry (s : State) (j : Nat) : Bool := s.savesOn && memReadN s.mem (s.saveEntry j) 56 != 0

/-- The devices that host a job: those of the mask MEMB through the map, or this device alone (R409). -/
def State.members (s : State) (j : Nat) : List Nat :=
  let memb := s.membOf j
  if memb = 0 then [s.ownDev]
  else
    let mask := memReadN s.mem memb 512
    (((upTo 4096).filter mask.testBit).map (s.mapDev j)).eraseDups

/-- A context has been given to a task or a sequencer program of the job. -/
def Ctx.holdsJob (c : Ctx) (j : Nat) : Bool := c.st != .free && c.job = j

/-- The bound contexts of a job on a die, in rising number. -/
def State.ctxsOf (s : State) (j d : Nat) : List Nat :=
  (s.ctxs.map (·.1)).filter fun n => n < numContexts && dieOf n = d && (s.ctxAt n).holdsJob j

/-- A context becomes Free: every loop level is cleared and nothing of its task is left (R135). -/
def Ctx.freed (c : Ctx) : Ctx :=
  { c with st := .free, drain := .none, acc := [], pend := [], held := [], pulled := [], steps := [], halts := [], passed := none, frames := 0, window := {}, notice := none
           task := none, grp := none, stepover := none, repOn := false, repNext := none, vextBad := [], stopPoint := false
           satisfied := false, arrived := false, loops := Vector.replicate 4 {}, frozenKind := 0
           fullX := BitVec.allOnes 64, fullV := BitVec.allOnes 64 }

/-- A context leaves the selector of its core (R361). -/
def State.deselect (s : State) (n : Nat) : State :=
  if isSeq n then s
  else s.modCore (coreOf n) fun k => if k.sel = some (n % 4) then { k with sel := none, last := n % 4, count := 0 } else k

def State.freeCtx (s : State) (n : Nat) : State := ((s.forget n).modCtx n Ctx.freed).deselect n

/-- The regions that a task owns leave the tables (R208). -/
def State.dropRegions (s : State) (task : Nat) : State :=
  { s with cores := s.cores.map fun k =>
      if k.2.regions.any (·.owner = task) then (k.1, { k.2 with regions := k.2.regions.filter (·.owner != task) }) else k }

/-! The end of a launch. -/

/-- A launch is over at its origin: KD is freed with the status, or a DETACH launch writes 0x100 + status into its packet (R343,
R344). -/
def State.finishLaunch (s : State) (l : Launch) (st : BitVec 8) : State :=
  let s := { s with launches := s.launches.filter fun m => !(m.id = l.id && m.job = l.job && m.die = l.die && m.jd = l.jd) }
  match s.findCmd l.cmd with
  | none => s
  | some c =>
    if c.kind = .detach then s.putCmd { c with par := [l.pkt + 60, wordOfNat (0x100 + st.toNat)], st := .running }
    else s.endCmd c st

/-- The shares of a launch on this device that no task of this phase still runs for are dropped. -/
def State.dropShares (s : State) (f : Share → Bool) : State := { s with shares := s.shares.filter fun h => !f h }

/-! Late packets and lost jobs. -/

/-- The place of a packet, as sweeps name it. -/
def Loc.place : Loc → Option Place
  | .ingress p => some (.port p)
  | .bridge d => some (.bridge d)
  | .localq d => some (.localq d)
  | _ => none

/-- PORT of a galley record (R420). -/
def Loc.portNum : Loc → Nat
  | .ingress p => p
  | .bridge d => 16 + d
  | .localq d => 18 + d
  | .retry p => p
  | .held _ | .parked _ _ => 20

/-- A packet is late: at its destination while the job is not resident there, and at any device of the job that it reaches through a port
that has been swept, or after the resume step with an older BIRTH (R383, R419, R425). -/
def State.isLate (s : State) (fl : Flight) : Bool :=
  let k := s.jobCtl fl.pkt.jid
  !fl.re && fl.pkt.cls != 3 &&
  ((fl.pkt.dest = s.ownDev && !s.resident fl.pkt.jid) || k.sweeps.any (fun w => w.finished && fl.loc.place = some w.place) ||
    (match k.resumed with | some r => fl.pkt.birth.ult r | none => false))

/-- A job device that a device hosts: the lowest that the map gives it (R411). -/
def State.jobDevOf (s : State) (j dev : Nat) : Nat :=
  if s.savesOn && s.peek (s.saveEntry j + 40) != 0 then ((upTo 4096).find? fun jd => s.mapDev j jd = dev).getD dev else dev

/-- A record of a galley (R420). -/
def galleyRecord (s : State) (fl : Flight) : List Byte :=
  let p := fl.pkt
  bytesLE (fl.loc.portNum + p.chan <<< 8 + p.hop <<< 16 + p.flits <<< 24 + (p.tgt.getD (s.jobDevOf p.jid p.dest)) <<< 32) 64 ++
    (p.bytes ++ List.replicate (320 - p.bytes.length) 0)

/-- The job is lost here: STATE 7, its contexts are freed, its commands and packets dropped, its launches ended with Aborted. -/
def State.loseJob (s : State) (j : Nat) : State :=
  let s := (s.putState j 0 7).putState j 1 7
  let s := (s.launches.filter (·.job = j)).foldl (fun s l => s.finishLaunch l 0x44) s
  let s := (s.cmds.filter fun c => c.job = j && isSeq c.agent).foldl (fun s c => s.endCmd c 0x44) s
  let gone := (s.cmds.filter (·.job = j)).map (·.id)
  let s := (s.fab.reqs.filter fun r => gone.contains r.cmd).foldl (fun s r => s.closeReq r) s
  let s := { s with cmds := s.cmds.filter (·.job != j) }
  let s := s.modFab fun f => { f with flights := f.flights.filter fun g => g.pkt.jid != j || g.pkt.cls = 3 }
  let s := (s.ctxsOf j 0 ++ s.ctxsOf j 1).foldl (fun s n => s.freeCtx n) s
  let s := (s.tasks.filter (·.job = j)).foldl (fun s t => s.dropRegions t.id) s
  { s with tasks := s.tasks.filter (·.job != j), shares := s.shares.filter (·.job != j) }

/-- The job is lost on this device; the other members are told. -/
def State.jobLost (s : State) (j : Nat) : State :=
  let m := (s.members j).filter (· != s.ownDev)
  m.foldl (fun s d => s.sendCtl 0 d 0x22 j (.jobLost j)) (s.loseJob j)

/-- A late packet goes to the late galley and raises Late Packet at the die's sequencer; a full galley loses the job (R425, R426). -/
def State.lateArrival (s : State) (fl : Flight) : State :=
  let s := (s.dropFlight fl.id).count ctrLatepkt
  let base := s.plat.lgal.bits 12 36 * 4096
  if !s.plat.lgal.getLsbD 0 then s
  else
    let n := s.peek base
    if 256 ≤ (n - s.peek (base + 8)).toNat then s.jobLost fl.pkt.jid
    else
      let s := { s with mem := memWriteBytes s.mem (base + 64 + 384 * (n.toNat % 256)) (galleyRecord s fl) }
      let s := s.putBytes base 8 (n + 1).toNat
      s.modCtx (numContexts + fl.loc.die) fun c => { c with notice := some .latePacket }

end Sys2Proof.Machine
end

