-- ==== Sys2Proof/Machine/Remote.lean ====
section
/-! DEFINITION. Requests at their target and answers at their requester (R233 to R235, R307, R374, R380 to R385): the window of a home,
performing a request, parks at the target, acknowledgements, read data, notices, floors and timeouts. -/

namespace Sys2Proof.Machine

/-! The window of a home (R384). -/

def Home.isFor (h : Home) (die job src sdie cls tgt : Nat) : Bool :=
  h.die = die && h.job = job && h.src = src && h.sdie = sdie && h.cls = cls && h.tgt = tgt

def Fabric.home (f : Fabric) (die job src sdie cls tgt : Nat) : Home :=
  (f.homes.find? (·.isFor die job src sdie cls tgt)).getD { die := die, job := job, src := src, sdie := sdie, cls := cls, tgt := tgt }
def Fabric.setHome (f : Fabric) (h : Home) : Fabric :=
  let same := fun (g : Home) => g.isFor h.die h.job h.src h.sdie h.cls h.tgt
  { f with homes := if f.homes.any same then f.homes.map fun g => if same g then h else g else f.homes ++ [h] }

/-- How far s lies behind H, modulo 2^32. -/
def Home.behind (h : Home) (s : Nat) : Nat := (h.h + 2 ^ 32 - s) % 2 ^ 32
def Home.applied (h : Home) (s : Nat) : Bool := h.behind s < 256 && h.mask.testBit (h.behind s)
/-- s lies 256 or more behind H. -/
def Home.tooOld (h : Home) (s : Nat) : Bool := 256 ≤ h.behind s && h.behind s < 2 ^ 31
/-- Mark a number as applied. -/
def Home.mark (h : Home) (s : Nat) : Home :=
  if seqBefore h.h s then
    let d := (s + 2 ^ 32 - h.h) % 2 ^ 32
    { h with h := s, mask := (h.mask <<< d ||| 1) % 2 ^ 256 }
  else if h.behind s < 256 then { h with mask := h.mask ||| 1 <<< h.behind s }
  else h
/-- The highest FLOOR seen. -/
def Home.raise (h : Home) (f : Nat) : Home := if seqBefore h.f f then { h with f := f } else h

/-! Performing a request. -/

/-- The fabric interface of a die as an agent of memory. -/
def fabricAgent (d : Nat) : Nat := numContexts + 2 + d

/-- A packet that reaches its destination is discarded there when its CRC fails or its class does not match its OP (R374). -/
def Packet.unfit (p : Packet) : Bool := p.crcBad || !opFits p.op p.cls

/-- A packet of the named OP stands at this device, its destination, where it may be taken up; read data also where it waits for its
command (R377). -/
def State.atTarget (s : State) (fl : Flight) (op : Nat) : Bool :=
  fl.pkt.dest = s.ownDev && fl.pkt.op = op && fl.out.isNone &&
  (match fl.loc with
    | .localq _ | .ingress _ | .bridge _ => s.isHead fl
    | .held _ => op = 0x11
    | _ => false)

/-- What stands before a packet that has reached this device is done with it: a misfit and an expired one are discarded, a late one goes to
the late galley, one of a job that freezes stays (R374, R382, R383, R418); `f` takes any other. -/
def State.received (s : State) (fl : Flight) (f : State → State) : State :=
  if fl.pkt.unfit then (s.dropFlight fl.id).count ctrRouteerr
  else if s.isLate fl then s.lateArrival fl
  else if s.expired fl then (s.dropFlight fl.id).count ctrExpired
  else if s.holds fl.pkt then s
  else f s

/-- Answer a request: to the device that hosts the requester's job device (R374, R411). -/
def State.answer (s : State) (d : Nat) (p : Packet) (op status : Nat) (data : List Byte) : State :=
  s.send d { dest := s.mapDev p.jid p.src, src := s.ownDev, die := d, cls := 1, jid := p.jid, tag := p.tag, gen := p.gen, op := op
             len := data.length, arg := status, data := data }

/-- What a request asks of translation: a read, or a write; a reduction may go to a UO page (R191, R320). -/
def askOf (p : Packet) : Ask := { kernel := p.kern, isWrite := p.op != 2 }
def kindOf (p : Packet) : Nat := if p.op = 2 then 0 else if p.op = 1 then 1 else 2

/-- Element width and effect of a reduction (R234). -/
def reduceBytes (op : Nat) : Nat := if op = 0 || op = 9 then 4 else if op = 10 then 2 else 8
def reduceOp (op o c : Nat) : Nat :=
  let so := sextNat o 64
  let sc := sextNat c 64
  match op with
  | 0 => (o + c) % 2 ^ 32
  | 1 => o + c
  | 2 => o &&& c
  | 3 => o ||| c
  | 4 => o ^^^ c
  | 5 => if so < sc then o else c
  | 6 => if so < sc then c else o
  | 7 => min o c
  | 8 => max o c
  | 9 => (fmtF32.addV .rne (fmtF32.unpack o) (fmtF32.unpack c) 0).1
  | _ => (fmtBf16.addV .rne (fmtBf16.unpack o) (fmtBf16.unpack c) 0).1

/-- Perform a request at its piece of memory: the state, the status and the data of the answer. -/
def performRequest (s : State) (d : Nat) (p : Packet) (leaf : Word) (pc : Piece) : State × Nat × List Byte :=
  let n := fabricAgent d
  match p.op with
  | 1 => (s.engWrite n pc pc.key p.len (natLE p.data), 0, [])
  | 2 =>
    if pteSealed leaf then (s, 2, [])
    else
      let (s, r) := s.engBytes n pc.key p.len
      (s, ofBoolNat r.bad, bytesLE r.val p.len)
  | 3 =>
    let w := reduceBytes p.arg
    let (s, bad) := (upTo (p.len / w)).foldl (fun (a : State × Bool) i =>
      let (s, r) := a.1.rmwAt n { pc with key := pc.key + w * i } w fun o => reduceOp p.arg o (natLE ((p.data.drop (w * i)).take w))
      (s, a.2 || r.bad)) (s, false)
    (s, ofBoolNat bad, [])
  | _ =>
    let (s, r) := s.rmwAt n pc 8 fun o => o + p.val.toNat
    (s, ofBoolNat r.bad, [])

/-- A request whose translation faults parks at its target, under the handle of an earlier park of it or a new one: a record in the ring of
its entry die, a notice to its requester (R224, R264, R307). -/
def State.parkRequest (s : State) (d : Nat) (fl : Flight) (cause : Cause) : State :=
  let p := fl.pkt
  let op := if p.op ≤ 2 then 0x6E else if p.op = 3 then 0x6F else 0x70
  let h := fl.handle.getD s.handle
  let s := (s.moveFlight { fl with handle := some h } (.parked d h) p).addRecord d
    (mkRecord p.va cause.num (kindOf p) op 0xFFFE 0 (wordOfNat h) s.ownDev)
  (if fl.handle.isSome then s else { s with handle := s.handle + 1 }).answer d p 0x12 0 []

/-- The job device of this device that a request is for: the one it was numbered for, and the lowest that this device hosts where the
packet, whose header does not name it, came over a link (R380, R384, R411; log entry 17). -/
def State.targetOf (s : State) (p : Packet) : Nat := p.tgt.getD (s.ownJobDev p.jid)

/-- A number of a source is over at this device: applied or too old at a home die, or below the floor (R384). -/
def State.overHere (s : State) (p : Packet) (n : Nat) : Bool :=
  [0, 1].any fun die =>
    let h := (s.fab.home die p.jid p.src p.die p.cls (s.targetOf p)).raise p.floor
    h.applied n || h.tooOld n || seqBefore n h.f

/-- A class 2 request whose predecessor is still to be applied is held at its entry die, before it is translated (R384; log entry 17). -/
def State.mustWait (s : State) (p : Packet) : Bool :=
  numbered p.op p.cls && p.cls = 2 && !s.overHere p p.seq && !s.overHere p ((p.seq + 2 ^ 32 - 1) % 2 ^ 32)

/-- A request's acknowledgement waits until its write is performed, at the replicas of its page or at a UO location: the packet stays at its
entry die with the status it will carry (R326). -/
def State.ackLater (s : State) (fl : Flight) (d st : Nat) : State :=
  s.modFab fun f => { f with flights := f.flights.map fun g => if g.id = fl.id then { g with loc := .held d, ack := some st } else g }

/-- The writes that requests entering at die d have made to replicated pages are applied in every replica here, and those to UO pages
have reached their home. -/
def State.replicasDone (s : State) (d : Nat) : Bool :=
  (s.rw.all fun r => r.owner != fabricAgent d) && s.pw.all fun w => w.owner != engOf (fabricAgent d)

/-- A number of a source is one whose acknowledgement still waits. -/
def State.ackWaits (s : State) (p : Packet) : Bool :=
  s.fab.flights.any fun g => g.ack.isSome && g.pkt.jid = p.jid && g.pkt.src = p.src && g.pkt.die = p.die && g.pkt.cls = p.cls &&
    g.pkt.seq = p.seq

/-- The die at which a packet entered this device: it crosses the bridge to reach the other one (R383, R472). -/
def Loc.entryDie : Loc → Nat
  | .bridge d => 1 - d
  | l => l.die

/-- The translation of a request at its entry die, made once (R307). -/
def State.transOf (s : State) (d : Nat) (fl : Flight) : State × Except Cause (Word × Piece) :=
  let p := fl.pkt
  match fl.trans with
  | some t => (s, .ok t)
  | none => s.translate (74 + d) p.jid (s.jobRoot p.jid) p.va.toNat (if p.op = 4 then 8 else p.len) (askOf p)

/-- A request may go to its home die: it stands there, or the bridge has room for it and holds none of its channel before it (R472). -/
def State.reachesHome (s : State) (d home : Nat) (fl : Flight) : Bool :=
  d = home || (match fl.loc with | .bridge _ => true | _ => false) ||
    (s.bridgeRoom home fl.pkt && !s.fab.flights.any fun g => g.loc = .bridge home && g.pkt.chan = fl.pkt.chan)

/-- Take a request up that entered at die d: translate it there, pass the window of its home, perform and answer it (R307, R384). -/
def State.takeRequest (s : State) (d : Nat) (fl : Flight) : State :=
  let p := fl.pkt
  if s.mustWait p then s.moveFlight fl (.held d) p else
  let (s, r) := s.transOf d fl
  match r with
  | .error e => s.parkRequest d fl e
  | .ok (leaf, pc) =>
    if !s.reachesHome d (pteHome leaf) fl then s else
    let done := fun (s : State) =>
      let (s, st, data) := performRequest s d p leaf pc
      if p.op != 2 && (pc.repl.isSome || p.op = 1 && pc.ord = .uo) then s.ackLater fl d st
      else (s.dropFlight fl.id).answer d p (if p.op = 2 then 0x11 else 0x10) st data
    if !numbered p.op p.cls then done s
    else
      let tgt := s.targetOf p
      let h := (s.fab.home (pteHome leaf) p.jid p.src p.die p.cls tgt).raise p.floor
      let s := s.modFab fun f => f.setHome h
      if seqBefore p.seq h.f && !h.applied p.seq then (s.dropFlight fl.id).count ctrStalereq
      else if h.tooOld p.seq || h.applied p.seq then
        let s := s.count ctrDupsup
        if p.op = 2 then done s
        else if s.ackWaits p then s.ackLater fl d 0
        else (s.dropFlight fl.id).answer d p 0x10 0 []
      else done (s.modFab fun f => f.setHome (h.mark p.seq))

/-- A request of OP op that has reached this device (R374, R383). -/
def State.requestArrives (s : State) (id op : Nat) : State :=
  match s.findFlight id with
  | none => s
  | some fl => if s.atTarget fl op then s.received fl fun s => s.takeRequest fl.loc.entryDie fl else s

/-- A packet at its destination that belongs to the other die, a request homed there or a response for a tag of it, enters the bridge and
stands in it (R472). -/
def State.cross (s : State) (fl : Flight) : State :=
  let d := fl.loc.die
  let p := fl.pkt
  let here := match fl.loc with | .localq _ | .ingress _ => true | _ => false
  if !here || p.cls = 3 || !s.isHead fl || !s.bridgeRoom (1 - d) p then s
  else if p.cls = 1 then (if p.tag / 2 ^ 15 = 1 - d then s.moveFlight fl (.bridge (1 - d)) p else s)
  else if s.mustWait p then s
  else match s.transOf d fl with
    | (s, .ok t) => if pteHome t.1 = 1 - d then s.moveFlight { fl with trans := some t } (.bridge (1 - d)) p else s
    | (s, .error _) => s

/-- HELD_REQUEST_RELEASE: a held request is taken up again; it stays held while its predecessor is missing, or is acknowledged once the
replicas of its page have applied it. A launch that waits for room is taken up by LAUNCH_DISTRIBUTION instead. -/
def State.releaseHeld (s : State) (id : Nat) : State :=
  match s.findFlight id with
  | some fl =>
    match fl.loc with
    | .held d =>
      match fl.ack with
      | some st => if s.replicasDone d then (s.dropFlight id).answer d fl.pkt 0x10 st [] else s
      | none => if fl.pkt.cls = 1 || fl.pkt.cls = 3 || s.holds fl.pkt then s else if s.expired fl then s.expire id else s.takeRequest d fl
    | _ => s
  | none => s

/-- CERESUME of a request parked here: it is taken up again after a resume notice, or ended with Aborted (R307). -/
def State.resumeParked (s : State) (fl : Flight) (d : Nat) (abort : Bool) : State :=
  if abort then (s.dropFlight fl.id).answer d fl.pkt 0x10 3 []
  else (s.moveFlight fl (.held d) fl.pkt).answer d fl.pkt 0x13 0 []

/-! Answers. -/

/-- The status that a response carries (R374). -/
def answerStatus (arg : Nat) : BitVec 8 := match arg with | 1 => 0x41 | 2 => 0x45 | 3 => 0x44 | _ => 0

/-- A response that has reached its requester: only one whose tag and generation match is accepted (R382). -/
def State.answerArrives (s : State) (id op : Nat) (f : State → Flight → Req → State) : State :=
  match s.findFlight id with
  | none => s
  | some fl =>
    if !s.atTarget fl op then s
    else s.received fl fun s => match s.answered fl.pkt with
      | some r => f s fl r
      | none => (s.dropFlight id).count ctrLateReply

/-- ACKNOWLEDGE: the request is over, its command takes an error status. -/
def State.acknowledge (s : State) (id : Nat) : State :=
  s.answerArrives id 0x10 fun s fl r =>
    ((s.dropFlight id).closeReq r).modCmd r.cmd fun c => c.note (answerStatus fl.pkt.arg)

/-- An earlier part of the same read, on an earlier remote page, is still to be answered: should that page be sealed, nothing of this part may
be written (R226). -/
def State.earlierPart (s : State) (r : Req) : Bool :=
  s.fab.reqs.any fun q => q.cmd = r.cmd && q.off < r.off && q.pkt.va.toNat / 4096 != r.pkt.va.toNat / 4096

/-- Read data is always taken from its channel; what cannot be written yet waits at its requester, with its timer stopped (R377). -/
def State.keepData (s : State) (fl : Flight) (r : Req) : State :=
  let s := match fl.loc with
    | .held _ => s
    | _ => s.moveFlight fl (.held r.die) fl.pkt
  s.modFab fun f => { f with reqs := f.reqs.map fun q => if q.id = r.id then { q with parked := true } else q }

/-- READ_DATA: the bytes are written at the local end; they wait while the command is parked, or parks on a translation fault there (R224,
R233). A sealed page at the target ends the command: nothing of it or beyond it is written (R226), which `aux` keeps. -/
def State.readData (s : State) (id : Nat) : State :=
  s.answerArrives id 0x11 fun s fl r =>
    let close := fun (s : State) => (s.dropFlight id).closeReq r
    let sealedAt := fun (s : State) => (close s).modCmd r.cmd fun c =>
      { c with status := 0x45, done := (c.parAt 2).bits 0 32, aux := if c.aux = 0 then r.off + 1 else min c.aux (r.off + 1) }
    match s.findCmd r.cmd with
    | none => close s
    | some c =>
      if c.st = .done || (c.aux != 0 && c.aux ≤ r.off) then close s
      else if fl.pkt.arg = 2 then sealedAt s
      else if 2 ≤ fl.pkt.arg then (close s).modCmd r.cmd fun c => c.note (answerStatus fl.pkt.arg)
      else if c.st != .running || s.earlierPart r then s.keepData fl r
      else
        let (s, w) := s.engStore c 1 c.unit (c.parAt 0 + wordOfNat r.off) fl.pkt.data.length (natLE fl.pkt.data) (fl.pkt.arg = 1) true
        match w with
        | .ok _ => (close s).modCmd r.cmd fun c => c.note (answerStatus fl.pkt.arg)
        | .flt va cause kind => (s.keepData fl r).faultCmd c va cause kind
        | .race a => (close s).modCmd r.cmd fun c => { c with status := 0x24, raceVa := raceAddr a, done := (c.parAt 2).bits 0 32 }

/-- PARK_NOTICE and RESUME_NOTICE (R381). -/
def State.parkNotice (s : State) (id : Nat) : State :=
  s.answerArrives id 0x12 fun s _ r => (s.dropFlight id).modFab fun f =>
    { f with reqs := f.reqs.map fun q => if q.id = r.id then { q with parked := true } else q }
def State.resumeNotice (s : State) (id : Nat) : State :=
  s.answerArrives id 0x13 fun s _ r => (s.dropFlight id).modFab fun f =>
    { f with reqs := f.reqs.map fun q => if q.id = r.id then { q with parked := false, began := s.now, sent := s.now } else q }

/-- A control packet of class 3 that stands here; it is consumed whatever the job table holds (R383). -/
def State.ctlHere (s : State) (id op : Nat) (f : State → Flight → State) : State :=
  match s.findFlight id with
  | none => s
  | some fl =>
    if !s.atTarget fl op then s
    else if fl.pkt.unfit then (s.dropFlight id).count ctrRouteerr else f s fl

/-- FLOOR: the source's new FLOOR for both dies' windows (R381, R384). -/
def State.floorArrives (s : State) (id : Nat) : State :=
  s.ctlHere id 0x23 fun s fl =>
    let s := s.dropFlight id
    match fl.pkt.ctl with
    | .floor job src tgt cls =>
      let raise := fun (f : Fabric) (d : Nat) => f.setHome ((f.home d job src fl.pkt.die cls tgt).raise fl.pkt.floor)
      s.modFab fun f => raise (raise f 0) 1
    | _ => s

/-! Timeouts (R381). -/

/-- REQUEST_TIMEOUT: every request of the command is abandoned, the command ends with Fabric Timeout, a floor goes to each target. -/
def State.requestTimeout (s : State) (id : Nat) : State :=
  match s.fab.reqs.find? (·.id = id) with
  | none => s
  | some r =>
    if r.parked || s.now < r.began + s.timeout then s
    else
      let mine := s.fab.reqs.filter fun q => q.cmd = r.cmd
      let s := mine.foldl (fun s q => s.closeReq q) s
      let targets := (mine.map fun q => (q.die, q.pkt.jid, q.pkt.src, q.pkt.dest, q.pkt.tgt.getD 0, q.pkt.cls)).eraseDups
      let s := targets.foldl (fun s (t : Nat × Nat × Nat × Nat × Nat × Nat) =>
        let (die, job, me, dest, tgt, cls) := t
        let fl := s.fab.floorOf die job me tgt cls
        s.send die { dest := dest, src := s.ownDev, die := die, cls := 3, op := 0x23, jid := job, floor := fl
                     ctl := .floor job me tgt cls }) s
      s.modCmd r.cmd fun c => { c with status := 0x40, st := .done }

/-- PACKET_FORWARD: a misfit at its destination is discarded (R374), a late packet goes to the late galley (R425), one for the other die
enters the bridge (R472), and any other goes on. -/
def State.forwardOrDrop (s : State) (id : Nat) : State :=
  match s.findFlight id with
  | some fl =>
    let here := match fl.loc with | .localq _ | .ingress _ | .bridge _ => true | _ => false
    if !here || fl.out.isSome then s.forward id
    else if fl.pkt.dest = s.ownDev then
      (if fl.pkt.cls = 3 || fl.pkt.unfit || !s.isHead fl then (if fl.pkt.unfit && s.isHead fl then (s.dropFlight id).count ctrRouteerr else s)
      else s.received fl fun s => s.cross fl)
    else if s.isLate fl then s.lateArrival fl
    else s.forward id
  | none => s

end Sys2Proof.Machine
end

