-- ==== Sys2Proof/Machine/Launch.lean ====
section
/-! DEFINITION. Launches at their origin and at the dies they name (spec/08_engines.md R243 to R247, spec/16_scheduling.md R343 to R354):
the packet and its checks, distribution, phases, reports, and how a launch ends. -/

namespace Sys2Proof.Machine

/-! Reading the packet. -/

/-- Bytes off to off + n − 1 of a little-endian number. -/
def fld (v off n : Nat) : Nat := bitsOf v (8 * off) (8 * n)

/-- A tile descriptor from its 64 bytes (R245). -/
def tileOf (v : Nat) : TileDesc :=
  { back := wordOfNat (fld v 0 8), s0 := wordOfNat (fld v 8 8), s1 := wordOfNat (fld v 16 8), s2 := wordOfNat (fld v 24 8)
    size := fld v 32 4, off := fld v 36 4, phase := fld v 40 2, dir := fld v 42 1, fill := fld v 43 1 }

/-- A header from its 128 bytes (R244), its lists still to be read. -/
def headerOf (v : Nat) : LaunchHdr :=
  { param := wordOfNat (fld v 8 8), plen := fld v 16 4, dim0 := fld v 20 4 + 1, dim1 := fld v 24 4 + 1, dim2 := fld v 28 4 + 1
    nphase := fld v 32 2, coop := fld v 34 1 = 1, prio := fld v 35 1, verify := bitsOf (fld v 36 1) 0 1 = 1
    dsplit := bitsOf (fld v 36 1) 1 1 = 1, racc := bitsOf (fld v 36 1) 2 1 = 1, detach := bitsOf (fld v 36 1) 3 1 = 1
    gsize := fld v 37 1, seed := wordOfNat (fld v 40 8), tiles := [], parts := [], entries := [], steps := [] }

/-- Indices of the grid. -/
def LaunchHdr.grid (h : LaunchHdr) : Nat := h.dim0 * h.dim1 * h.dim2

/-- The form of a virtual address, and of an address word (R27). -/
def vaForm (a : Word) : Bool := a.bits 57 7 = 0
def addrForm (a : Word) : Bool := coreTarget a != .nonCanonical

/-- The header's own fields are in range (R244, R247). -/
def headerOk (v : Nat) (h : LaunchHdr) : Bool :=
  vaForm (wordOfNat (fld v 0 8)) && addrForm h.param && addrForm (wordOfNat (fld v 48 8)) && addrForm (wordOfNat (fld v 64 8)) &&
  h.plen ≤ 4096 && h.nphase != 0 && fld v 34 1 ≤ 1 && h.prio ≤ 7 && fld v 36 1 < 16 && h.gsize ≤ 16 && fld v 38 2 ≤ 64 &&
  fld v 56 4 != 0 && fld v 56 4 ≤ 8192 && fld v 60 4 = 0 && fld v 72 56 = 0 && h.grid ≤ 2 ^ 64 &&
  !(h.dsplit && h.coop) && (h.gsize = 0) = !h.coop && (!h.coop || h.grid % h.gsize = 0) && !(h.verify && 2 ^ 40 < h.grid)

/-- A descriptor is in range for its header (R245, R247, R312, R353). -/
def tileOk (h : LaunchHdr) (v : Nat) : Bool :=
  let t := tileOf v
  vaForm t.back && t.back.toNat % 64 = 0 && t.s0.toNat % 64 = 0 && t.s1.toNat % 64 = 0 && t.s2.toNat % 64 = 0 && t.size % 64 = 0 &&
  64 ≤ t.size && t.size ≤ 0x3FFF80 && 64 ≤ t.off && t.off < 2 ^ 22 && t.phase < h.nphase && t.dir ≤ 2 &&
  t.fill ≤ 1 && fld v 44 20 = 0 && t.off + t.size + 64 ≤ (if h.verify then 0x200000 else 2 ^ 22) && !(h.dsplit && t.dir = 2)

/-- A device of a partition entry is one of the job's: a job device of the mask MEMB, or without a mask this device alone; a device without
save entries keeps no list of members, and takes every one (R246, R409; log entry 16). -/
def State.inJob (s : State) (job jd : Nat) : Bool :=
  if !s.savesOn then true
  else if s.membOf job = 0 then s.mapDev job jd = s.ownDev
  else (memReadN s.mem (s.membOf job) 512).testBit jd

/-- The partition entries are in order and inside the grid, and name each die of a job device once (R246, R247, R411; log entry 17). -/
def partsOk (s : State) (job : Nat) (h : LaunchHdr) (raw : List Nat) : Bool :=
  let first := fun v => fld v 0 8
  let shares := (raw.map first).zip ((raw.map first).tail ++ [h.grid])
  (raw.head?.map first) = some 0 && ((raw.map first).zip (raw.map first).tail).all (fun p => p.1 < p.2) &&
  raw.all (fun v => first v ≤ h.grid) &&
  (!h.coop || shares.all fun p => (p.2 - p.1) % h.gsize = 0) &&
  raw.all (fun v => fld v 8 2 ≤ 4095 && fld v 10 1 ≤ 1 && fld v 11 5 = 0 && s.inJob job (fld v 8 2)) &&
  (let dies := raw.map fun v => (fld v 8 2, fld v 10 1); dies.eraseDups.length = dies.length)

/-- Groups of n bytes of a number, from its low end. -/
def groupsOf (n count v : Nat) : List Nat := (upTo count).map fun i => fld v (n * i) n

/-- The tiles of a phase with their descriptor numbers, in descriptor order. -/
def LaunchHdr.tilesOf (h : LaunchHdr) (p : Nat) : List (TileDesc × Nat) := h.tiles.zipIdx.filter fun t => t.1.phase = p

/-- Read the tables a header names, through the front end of the issuer's die, and check them: the header whole, or a status, or a
fault to park on. -/
def readLaunch (s : State) (c : Cmd) : State × Eng (Except (BitVec 8) LaunchHdr) :=
  let unit := 72 + dieOf c.agent
  let a := c.parAt 0
  match s.engRead c 0 unit a 128 true with
  | (s, .flt x y z) => (s, .flt x y z)
  | (s, .race x) => (s, .race x)
  | (s, .ok p) =>
    let h := headerOf p.val
    let nd := fld p.val 38 2
    let np := fld p.val 56 4
    if p.bad then (s, .ok (.error 0x41))
    else if h.dsplit && h.racc && !h.coop then (s, .ok (.error 0x43))
    else if !headerOk p.val h then (s, .ok (.error 0x48))
    else
      match s.engRead c 0 unit (a + 128) (64 * nd) true with
      | (s, .flt x y z) => (s, .flt x y z)
      | (s, .race x) => (s, .race x)
      | (s, .ok d) =>
      match s.engRead c 0 unit (wordOfNat (fld p.val 48 8)) (16 * np) true with
      | (s, .flt x y z) => (s, .flt x y z)
      | (s, .race x) => (s, .race x)
      | (s, .ok v) =>
      match s.engRead c 0 unit (wordOfNat (fld p.val 0 8)) (8 * h.nphase) true with
      | (s, .flt x y z) => (s, .flt x y z)
      | (s, .race x) => (s, .race x)
      | (s, .ok t) =>
      match (if fld p.val 64 8 = 0 then (s, Eng.ok {}) else s.engRead c 0 unit (wordOfNat (fld p.val 64 8)) (8 * h.nphase) true) with
      | (s, .flt x y z) => (s, .flt x y z)
      | (s, .race x) => (s, .race x)
      | (s, .ok st) =>
        let descs := groupsOf 64 nd d.val
        let raw := groupsOf 16 np v.val
        let h := { h with
          pkt := a, tiles := descs.map tileOf, entries := (groupsOf 8 h.nphase t.val).map wordOfNat
          steps := if fld p.val 64 8 = 0 then [] else (groupsOf 8 h.nphase st.val).map wordOfNat
          parts := raw.map fun v => { first := fld v 0 8, dev := fld v 8 2, die := fld v 10 1 } }
        if d.bad || v.bad || t.bad || st.bad then (s, .ok (.error 0x41))
        else if descs.all (tileOk h) && partsOk s c.job h raw && h.tiles.all (fun t => (h.tilesOf t.phase).length ≤ 56) then
          (s, .ok (.ok h))
        else (s, .ok (.error 0x48))

/-! Messages. -/

def Launch.key (l : Launch) : LaunchKey := { job := l.job, dev := l.jd, die := l.die, id := l.id }

/-- The origin sends something to every die of the partition vector (R343, R411). -/
def State.tellDies (s : State) (l : Launch) (f : Nat → Nat → Ctl) : State :=
  l.hdr.parts.foldl (fun s p => s.sendCtl l.die (s.mapDev l.job p.dev) 0x22 l.job (f p.dev p.die)) s

/-- A die tells the origin of a launch. -/
def State.tellOrigin (s : State) (die : Nat) (k : LaunchKey) (c : Ctl) : State := s.sendCtl die (s.mapDev k.job k.dev) 0x22 k.job c

def State.findLaunch (s : State) (id : Nat) : Option Launch := s.launches.find? (·.id = id)
def State.launchOf (s : State) (k : LaunchKey) : Option Launch := s.launches.find? (·.key = k)
def State.putLaunch (s : State) (l : Launch) : State :=
  { s with launches := s.launches.map fun m => if m.key = l.key then l else m }
def State.findShare (s : State) (id : Nat) : Option Share := s.shares.find? (·.id = id)
def State.putShare (s : State) (h : Share) : State := { s with shares := s.shares.map fun g => if g.id = h.id then h else g }

/-- A launch message that stands here, or one that its die holds until it has room. -/
def State.launchMsg (s : State) (m : Nat) (f : State → Flight → State) : State :=
  match s.findFlight m with
  | none => s
  | some fl =>
    let waiting : Bool := match fl.loc with | .held _ => fl.pkt.op = 0x22 | _ => false
    if waiting then f s fl else s.ctlHere m 0x22 f

/-- A message waits at a die, in the order in which it came. -/
def State.keepMsg (s : State) (fl : Flight) (die : Nat) : State :=
  match fl.loc with
  | .held _ => s
  | _ => s.moveFlight fl (.held die) fl.pkt

/-- The job is switched out or being restored on a die, which keeps its launch messages until it resumes (R383, R410). -/
def State.keepsMsgs (s : State) (die job : Nat) : Bool := let n := (s.jobCtl job).stOf die; n = 5 || n = 6

/-! The origin. -/

/-- An LNCH that a front end has taken up and is checking, or whose check is parked (R343, R344). -/
def State.isChecking (s : State) (c : Cmd) : Bool :=
  c.kind = .slot && (match c.ins with | .lnch _ _ _ _ _ => true | _ => false) && c.st != .queued && c.st != .done &&
    !s.launches.any (·.cmd = c.id)

/-- Launches that a front end holds, whatever their state (R344). -/
def State.frontEndLoad (s : State) (d : Nat) : Nat :=
  s.cmds.countP (fun c => dieOf c.agent = d && s.isChecking c) + s.launches.countP (·.die = d) +
    s.shares.countP fun h => h.die = d && !s.launches.any fun l => l.key = h.key && l.die = d

/-- The LNCH reaches the front end: it is checked, then distributed or ended (R343). -/
def launchCheck (s : State) (c : Cmd) : State :=
  match readLaunch s c with
  | (s, .flt va cause kind) => s.faultCmd c va cause kind
  | (s, .race x) => s.endCmd { c with raceVa := raceAddr x } 0x24
  | (s, .ok (.error st)) => s.endCmd c st
  | (s, .ok (.ok h)) =>
    let l : Launch := { id := s.nextId, jd := s.jobDevFor c, die := dieOf c.agent, job := c.job, cmd := c.id, pkt := c.parAt 0, hdr := h, since := s.now }
    let s := { s.putCmd { c with st := .held } with launches := s.launches ++ [l], nextId := s.nextId + 1 }
    s.tellDies l fun jd d => .launch l.key jd d h

/-- An LNCH waits in its queue while its front end is full (R344). -/
def lnchStart (s : State) (c : Cmd) : State :=
  if 64 ≤ s.frontEndLoad (dieOf c.agent) then s else launchCheck s { c with st := .running, startAt := s.now }

/-- The launch is over: its dies keep nothing of it. -/
def State.endLaunch (s : State) (l : Launch) (st : BitVec 8) : State :=
  let s := if st = 0 then s else s.tellDies l fun jd d => .ended l.key jd d st
  s.finishLaunch l st

/-- Every named die has reported: the next phase, or the end (R343, R349). -/
def State.phaseOver (s : State) (l : Launch) : State :=
  if !l.hdr.parts.all (fun p => l.reported.contains (p.dev, p.die)) then s.putLaunch l
  else if l.st = .failing then s.endLaunch l l.status
  else if l.phase + 1 < l.hdr.nphase then
    let l := { l with phase := l.phase + 1, reported := [], since := s.now }
    (s.putLaunch l).tellDies l fun jd d => .start l.key jd d l.phase
  else s.endLaunch l 0

/-- The launch is failing: every die learns it and places no more (R350). -/
def State.failLaunch (s : State) (l : Launch) (st : BitVec 8) : State × Launch :=
  if l.st = .failing then (s, l)
  else
    let l := { l with st := .failing, status := st }
    ((s.putLaunch l).tellDies l fun jd d => .ended l.key jd d st, l)

/-! Shares. -/

/-- The job context entry (R348). -/
def State.jobContext (s : State) (j : Nat) : Nat := memReadN s.mem (s.plat.jctxt.bits 12 36 * 4096 + 32 * (j % 4096)) 32
/-- A die may take a launch of a job (R348). -/
def State.jobLaunchable (s : State) (j : Nat) : Bool :=
  let e := s.jobContext j
  s.plat.jctxt.getLsbD 0 && bitsOf e 57 7 = 0 && bitsOf e 0 2 = 0 && fld e 16 1 = 1 && fld e 17 15 = 0 && s.resident j

/-- The lowest launch tag that no verify launch of the package holds; a launch that it knows keeps its tag (R312). -/
def State.freeTag (s : State) (k : LaunchKey) : Option Nat :=
  match s.shares.find? fun h => h.key = k && h.ltag.isSome with
  | some h => h.ltag
  | none => (upTo 64).find? fun t => s.shares.all fun h => h.ltag != some t

/-- The share of a die of a job device: its first index and its length (R345). -/
def shareOf (h : LaunchHdr) (jd die : Nat) : Nat × Nat :=
  match (h.parts.zip ((h.parts.map (·.first)).tail ++ [h.grid])).find? fun p => p.1.dev = jd && p.1.die = die with
  | some p => (p.1.first, p.2 - p.1.first)
  | none => (0, 0)

/-- LAUNCH_DISTRIBUTION: a named die accepts a launch, refuses it, waits for room (R343, R344, R348), or keeps the packet until the job
resumes there (R383). -/
def State.distribute (s : State) (m : Nat) : State :=
  s.launchMsg m fun s fl =>
    match fl.pkt.ctl with
    | .launch key jd die hdr =>
      let tag := s.freeTag key
      let own := s.launches.any fun l => l.key = key && l.die = die
      if s.keepsMsgs die key.job then s.keepMsg fl die
      else if !s.jobLaunchable key.job then (s.dropFlight m).tellOrigin die key (.refused key jd die 0x48)
      else if (!own && 64 ≤ s.frontEndLoad die) || (hdr.verify && tag.isNone) then s.keepMsg fl die
      else
        let (first, count) := shareOf hdr jd die
        let h : Share := { id := s.nextId, die := die, jd := jd, key := key, job := key.job, hdr := hdr, first := first, count := count
                           ltag := if hdr.verify then tag else none }
        ({ s.dropFlight m with shares := s.shares ++ [h], nextId := s.nextId + 1 }).tellOrigin die key (.accepted key jd die)
    | _ => s

/-- LAUNCH_ACCEPTANCE: with the last one phase 0 starts, and a DETACH launch frees its token (R343, R344, R349). -/
def State.acceptance (s : State) (m : Nat) : State :=
  s.launchMsg m fun s fl =>
    match fl.pkt.ctl with
    | .accepted key jd die =>
      if s.keepsMsgs key.die key.job then s.keepMsg fl key.die else
      let s := s.dropFlight m
      match s.launchOf key with
      | some l =>
        let l := { l with accepted := l.accepted ++ [(jd, die)] }
        if l.st != .distributing || !l.hdr.parts.all (fun p => l.accepted.contains (p.dev, p.die)) then s.putLaunch l
        else
          let l := { l with st := .running, since := s.now }
          let s := (s.putLaunch l).tellDies l fun jd d => .start l.key jd d 0
          match s.findCmd l.cmd with
          | some c =>
            if l.hdr.detach then (s.putCmd { c with kind := .detach, kd := 0 }).endToken c.agent c.kd c.rep 0 0 else s
          | none => s
      | none => s
    | _ => s

/-- A die hears that a launch is refused or failing: a share that runs nothing goes, a running one places no more (R343, R350). -/
def State.shareEnded (s : State) (key : LaunchKey) (jd die : Nat) (st : BitVec 8) : State :=
  let mine := fun (h : Share) => h.key = key && h.jd = jd && h.die = die
  let s := s.dropShares fun (h : Share) => mine h && h.st = .idle
  let fail := fun (h : Share) => if mine h then { h with failed := some (h.failed.getD st), told := true } else h
  let s := { s with shares := s.shares.map fail }
  s.modFab fun f => { f with flights := f.flights.filter fun g => !(g.loc = .held die && (match g.pkt.ctl with
    | .launch k j d _ => k = key && j = jd && d = die
    | _ => false)) }

/-- LAUNCH_REFUSAL, and the notice that a task of a phase has failed: at the origin the launch is refused, or fails; at a die it ends
there (R343, R350). A lost job is made known in the same way (R426). -/
def State.refusal (s : State) (m : Nat) : State :=
  s.launchMsg m fun s fl =>
    match fl.pkt.ctl with
    | .refused key _ _ st =>
      if s.keepsMsgs key.die key.job then s.keepMsg fl key.die else
      let s := s.dropFlight m
      match s.launchOf key with
      | some l => if l.st = .distributing then s.endLaunch l st else (s.failLaunch l st).1
      | none => s
    | .ended key jd die st => if s.keepsMsgs die key.job then s.keepMsg fl die else (s.dropFlight m).shareEnded key jd die st
    | .jobLost j => (s.dropFlight m).loseJob j
    | _ => s

/-- PHASE_START: the origin's start message arrives (R349). -/
def State.phaseStart (s : State) (m : Nat) : State :=
  s.launchMsg m fun s fl =>
    match fl.pkt.ctl with
    | .start key jd die p =>
      if s.keepsMsgs die fl.pkt.jid then s.keepMsg fl die else
      { s.dropFlight m with shares := s.shares.map fun (h : Share) =>
          if h.key = key && h.jd = jd && h.die = die && h.st = .idle then
            { h with st := .due, phase := p, done := [], next := 0, redo := [], waits := [], aged := [] }
          else h }
    | _ => s

/-- A task has come to its end without a commit. -/
def Task.lostEnd (t : Task) : Bool := t.st = .halted || t.st = .failed || t.st = .doubleFaulted

/-- The phase is over in a share: every index has committed, or, once it is failing, every placed task has ended (R343, R345). -/
def State.shareOver (s : State) (h : Share) : Bool :=
  match h.failed with
  | none => h.st = .running && h.done.length = h.count
  | some _ => h.st != .idle && s.tasks.all fun t => t.share != h.id || t.lostEnd

/-- The tiles kept for a launch are given up with its last share here (R298). -/
def State.endKept (s : State) (k : LaunchKey) : State :=
  if s.shares.any (·.key = k) then s
  else { s with cores := s.cores.map fun c =>
    if c.2.kept.any (·.key = k) then (c.1, { c.2 with kept := c.2.kept.filter (·.key != k) }) else c }

/-- A front end tells the origin of a first failure and of a phase that is over; a share whose last phase is over goes. -/
def State.frontEndShare (s : State) (h : Share) : State :=
  let (s, h) := match h.failed with
    | some st => if h.told then (s, h) else
        let h := { h with told := true }
        ((s.putShare h).tellOrigin h.die h.key (.refused h.key h.jd h.die st), h)
    | none => (s, h)
  if !s.shareOver h then s
  else
    let s := s.tellOrigin h.die h.key (.report h.key h.jd h.die h.phase h.failed)
    if h.failed.isSome || h.hdr.nphase ≤ h.phase + 1 then
      { (s.dropShares fun g => g.id = h.id).endKept h.key with tasks := s.tasks.filter (·.share != h.id) }
    else s.putShare { h with st := .idle }

def State.frontEnd (s : State) : State :=
  s.shares.foldl (fun s h => match s.findShare h.id with | some h => s.frontEndShare h | none => s) s

/-- SCHEDSLIP after a phase that starts late (R363). -/
def slipAdd (old : Word) (late : Nat) : Word :=
  wordOfNat (min 0xFFFFFFFF (old.bits 32 32 + late) <<< 32 + min 0xFFFFFFFF (old.bits 0 32 + 1))

/-- PHASE_BEGIN: the phase starts on the die once its start step has come (R345, R349). -/
def State.phaseBegin (s : State) (id : Nat) : State :=
  match s.findShare id with
  | none => s
  | some h =>
    let sched := if h.hdr.steps.isEmpty then 0 else (h.hdr.steps[h.phase]?.getD 0).toNat
    if h.st != .due || s.step64.toNat < sched then s
    else
      let late := s.step64.toNat - sched
      let s := s.putShare { h with st := .running, since := s.now }
      let s := if h.hdr.steps.isEmpty || late = 0 then s else s.modDie h.die fun d => { d with slip := slipAdd d.slip late }
      s.frontEnd

/-- PHASE_REPORT at the origin. -/
def State.phaseReport (s : State) (m : Nat) : State :=
  s.launchMsg m fun s fl =>
    match fl.pkt.ctl with
    | .report key jd die p failed =>
      if s.keepsMsgs key.die fl.pkt.jid then s.keepMsg fl key.die else
      let s := s.dropFlight m
      match s.launchOf key with
      | some l =>
        if l.st = .distributing || l.phase != p then s
        else
          let (s, l) := match failed with | some st => s.failLaunch l st | none => (s, l)
          s.phaseOver { l with reported := l.reported ++ [(jd, die)] }
      | none => s
    | _ => s

/-- Some link can carry a packet to a device. -/
def State.reaches (s : State) (dev : Nat) : Bool :=
  dev = s.ownDev || (let e := s.routeTo dev; routeV e && (s.fab.port (routePort e 0)).st = .up)

/-- LAUNCH_ANSWER_TIMEOUT: a die has not answered within the fabric timeout (R344, R350). -/
def State.answerTimeout (s : State) (id : Nat) : State :=
  match s.findLaunch id with
  | none => s
  | some l =>
    if s.now < l.since + s.timeout then s
    else if l.st = .distributing then s.endLaunch l 0x40
    else
      let gone := (l.hdr.parts.filter fun p => !l.reported.contains (p.dev, p.die) && !s.reaches (s.mapDev l.job p.dev)).map fun p => (p.dev, p.die)
      if gone.isEmpty then s
      else
        let (s, l) := s.failLaunch l 0x40
        s.phaseOver { l with reported := l.reported ++ gone }

end Sys2Proof.Machine
end

