-- ==== Sys2Proof/Machine/Schedule.lean ====
section
/-! DEFINITION. Tasks on a die (spec/16_scheduling.md R346 to R354, R355, spec/13_memory.md R293 to R297, spec/14_ordering.md R312): placement,
fills, binding, barriers, the drain of TEND with its reports, writebacks, commit, and the drain of HALT. -/

namespace Sys2Proof.Machine

/-! Candidates. -/

def Task.reserves (t : Task) : Bool := t.st = .placed || t.st = .filling || t.st = .resident

/-- The task that holds a context, reserved for it or bound to it. -/
def State.holder (s : State) (n : Nat) : Option Task :=
  match s.tasks.find? fun t => t.ctx = n && t.reserves with
  | some t => some t
  | none => (s.ctxAt n).task.bind s.findTask

def State.freeAndUnreserved (s : State) (n : Nat) : Bool := (s.ctxAt n).st = .free && !s.tasks.any fun t => t.ctx = n && t.reserves

/-- A context keeps the core for its job: reserved, bound, stopped or frozen in place (R293). -/
def State.keepsJob (s : State) (n job : Nat) : Bool :=
  match s.tasks.find? fun t => t.ctx = n && t.reserves with
  | some t => t.job != job
  | none => (s.ctxAt n).st != .free && (s.ctxAt n).job != job

/-- The core may serve a job: it did last, or nothing of another job is left on it (R293). -/
def State.coreServes (s : State) (core job : Nat) : Bool :=
  (s.coreAt core).lastJob = some job || (coreCtxs core).all fun n => !s.keepsJob n job

/-- The regions that a slice would show a task of a job: none when it would be zeroed first. -/
def State.regionsFor (s : State) (core job : Nat) : List Region :=
  if (s.coreAt core).lastJob = some job then (s.coreAt core).regions else []

/-- Regions of the given places fit beside those of a slice (R206, R352). -/
def placesFit : List Region → List (Nat × Nat) → Bool
  | _, [] => true
  | rs, (base, size) :: t =>
    rs.length < 64 && !rs.any (regionClash base size) && placesFit (rs ++ [{ base := base, size := size, back := 0, wb := false, owner := 0 }]) t

/-- Verify launches keep to themselves (R312). -/
def State.verifyFits (s : State) (core job : Nat) (verify : Bool) : Bool :=
  if verify then
    (coreCtxs core).all (fun n => s.freeAndUnreserved n || ((s.holder n).map (·.ltag.isSome)).getD false) &&
    (s.regionsFor core job).all fun r => r.base + r.size ≤ 0x200000
  else !(coreCtxs core).any fun n => ((s.holder n).map (·.ltag.isSome)).getD false

/-- The order of a cluster in R352: stagger position j belongs to cluster (7j) mod 36 of its die. -/
def staggerOf (cl : Nat) : Nat := ((upTo 36).find? fun j => 7 * j % 36 = cl % 36).getD 0

/-- The task scheduler places and binds tasks of a job while no cut of it is open, up to the freeze step of a switch out (R410, R412,
R418). -/
def State.jobOpen (s : State) (die job : Nat) : Bool :=
  let k := s.jobCtl job
  k.stOf die = 0 || (k.stOf die = 3 && s.step64.ult k.step)

/-- The head of a share's waiting tasks. -/
def Share.head (h : Share) : Option Nat :=
  match h.redo with
  | i :: _ => some i
  | [] => if h.next < h.count then some (h.first + h.next) else none

/-- The priority at which an index is offered (R351). -/
def Share.prioOf (h : Share) (i : Nat) : Nat := if h.aged.contains i then 7 else h.hdr.prio

/-- The indices of the head of a share: one task, or one group. -/
def Share.headGroup (h : Share) : List Nat :=
  let k := if h.hdr.coop then h.hdr.gsize else 1
  match h.head with
  | none => []
  | some i => if h.redo.isEmpty then (upTo k).map (i + ·) else h.redo.take k

/-- An index of a share waits; a group is named by its first index. -/
def Share.waitsFor (h : Share) (i : Nat) : Bool :=
  h.st = .running && h.failed.isNone && (h.redo.contains i || (h.first + h.next ≤ i && i < h.first + h.count)) &&
    (!h.hdr.coop || (i - h.first) % max 1 h.hdr.gsize = 0)

/-- Since when an index waits (R351): the start of its phase, or when it last lost its place. -/
def Share.waitSince (h : Share) (i : Nat) : Nat := mapGet h.since h.waits i

/-- A waiting group still holds the reservation of a cluster (R351). -/
def State.groupHolds (s : State) (r : Nat × Nat) : Bool := (s.findShare r.1).any fun g => g.waitsFor r.2

/-- A cluster kept for a waiting group of the same or a higher priority (R351). -/
def State.keptFrom (s : State) (cl : Nat) (h : Share) (i : Nat) : Bool :=
  match (s.clusterAt cl).reserved with
  | some (sh, j) =>
    !(sh = h.id && j = i) && s.groupHolds (sh, j) && (s.findShare sh).any fun g => h.prioOf i ≤ g.prioOf j
  | none => false

/-- A context may take a task of a share, its tiles aside (R352). -/
def State.eligible (s : State) (h : Share) (i n : Nat) : Bool :=
  let core := coreOf n
  s.freeAndUnreserved n && 64 ≤ s.allowOf core && s.coreServes core h.job && s.verifyFits core h.job h.hdr.verify &&
  !s.keptFrom (core / 4) h i

/-! Where the tiles of tasks come to lie: a plan lists each tile with its context. A tile that is reused without a fill (R298) stands in it
as Resident where it was kept, a new one as Placed at its offset in the slice of the bound core (R352). -/

/-- The places that a plan takes in a slice. -/
def placesOf (core : Nat) (p : List (Nat × Tile)) : List (Nat × Nat) :=
  (p.filter fun x => x.2.core = core).map fun x => (x.2.off, x.2.size)

/-- The kept tile that a task on a core can take: one of its launch with the same backing and size in a slice of the cluster, and of a verify
launch in its own slice; where the plan and the slice's regions leave its place free (R298, R352; log entry 22). -/
def State.reusable (s : State) (h : Share) (core : Nat) (p : List (Nat × Tile)) (x : Tile) : Option (Nat × Kept) :=
  if x.dir = 1 || x.fill != 0 then none
  else
    let cores := if h.hdr.verify then [core] else (upTo 4).map (4 * (core / 4) + ·)
    (cores.flatMap fun k => (s.coreAt k).kept.map fun e => (k, e)).find? fun q =>
      q.2.key = h.key && q.2.size = x.size && q.2.back = x.back && (s.coreAt q.1).lastJob = some h.job &&
      placesFit (s.regionsFor q.1 h.job) (placesOf q.1 p ++ [(q.2.base, q.2.size)])

/-- The grid index of a task (R345). -/
def LaunchHdr.index (h : LaunchHdr) (l : Nat) : Nat × Nat × Nat := (l % h.dim0, l / h.dim0 % h.dim1, l / (h.dim0 * h.dim1))

/-- The backing of a descriptor for a grid index (R245). -/
def TileDesc.backing (t : TileDesc) (i : Nat × Nat × Nat) : Word :=
  t.back + wordOfNat i.1 * t.s0 + wordOfNat i.2.1 * t.s1 + wordOfNat i.2.2 * t.s2

/-- A declared tile of task i joins the plan, reused if that is asked and can be. -/
def State.planTile (s : State) (h : Share) (reuse : Bool) (i n : Nat) (p : List (Nat × Tile)) (d : TileDesc × Nat) : List (Nat × Tile) :=
  let x : Tile := { desc := d.2, core := coreOf n, off := d.1.off, size := d.1.size, back := d.1.backing (h.hdr.index i), dir := d.1.dir
                    fill := d.1.fill }
  match (if reuse then s.reusable h (coreOf n) p x else none) with
  | some (k, e) => p ++ [(n, { x with core := k, off := e.base, st := .resident })]
  | none => p ++ [(n, x)]

def State.plan (s : State) (h : Share) (reuse : Bool) (l : List (Nat × Nat)) : List (Nat × Tile) :=
  l.foldl (fun p q => (h.hdr.tilesOf h.phase).foldl (s.planTile h reuse q.1 q.2) p) []

def State.planFits (s : State) (h : Share) (p : List (Nat × Tile)) : Bool :=
  (p.map (·.2.core)).eraseDups.all fun k => placesFit (s.regionsFor k h.job) (placesOf k p)

/-- The plan for indices on contexts: with every reuse that R298 allows, or, where the new tiles then have no room, with none. -/
def State.planFor (s : State) (h : Share) (l : List (Nat × Nat)) : Option (List (Nat × Tile)) :=
  let p := s.plan h true l
  let q := s.plan h false l
  if s.planFits h p then some p else if s.planFits h q then some q else none

/-- A context is a candidate for a task of a share (R352). -/
def State.candidate (s : State) (h : Share) (i n : Nat) : Bool := s.eligible h i n && (s.planFor h [(i, n)]).isSome

/-- Bytes of inputs that a plan reuses. -/
def reusedBytes (p : List (Nat × Tile)) : Nat :=
  p.foldl (fun a x => if x.2.st = .resident then a + x.2.size else a) 0

/-- The keys of R352 for the contexts of a candidate, to be made small: bytes reused, ALLOW, arrays, stagger position, then numbers. -/
def State.rank (s : State) (h : Share) (l : List Nat) : List Nat :=
  let cl := coreOf (l.headD 0) / 4
  let allow := l.foldl (fun a n => min a (s.allowOf (coreOf n))) 255
  [2 ^ 40 - reusedBytes ((s.planFor h (h.headGroup.zip l)).getD []), 255 - allow, ofBoolNat (!(s.clusterAt cl).arraysOn), staggerOf cl] ++ l

/-- The first difference decides. -/
def rankLess : List Nat → List Nat → Bool
  | a :: l, b :: m => a < b || (a = b && rankLess l m)
  | _, _ => false

/-- The best of some candidates. -/
def State.bestOf (s : State) (h : Share) (l : List (List Nat)) : Option (List Nat) :=
  (l.foldl (fun (b : Option (List Nat × List Nat)) c =>
    let r := s.rank h c
    match b with
    | some q => if rankLess r q.1 then some (r, c) else b
    | none => some (r, c)) none).map (·.2)

/-- Sets of contexts of one cluster for a whole group: for each lowest ALLOW the first that reach it, with tiles one of each core (R352). -/
def State.groupsIn (s : State) (h : Share) (i cl : Nat) : List (List Nat) :=
  let free := ((upTo 16).map (16 * cl + ·)).filter fun n => s.eligible h i n && s.planFits h (s.plan h false [(i, n)])
  let pick := if (h.hdr.tilesOf h.phase).isEmpty then free
    else free.foldl (fun l n => if l.any (fun m => coreOf m = coreOf n) then l else l ++ [n]) []
  ((pick.map fun n => s.allowOf (coreOf n)).eraseDups).filterMap fun a =>
    let l := pick.filter fun n => a ≤ s.allowOf (coreOf n)
    if h.hdr.gsize ≤ l.length then some (l.take h.hdr.gsize) else none

/-- The contexts chosen for the head of a share (R352). -/
def State.choose (s : State) (h : Share) (i : Nat) : Option (List Nat) :=
  s.bestOf h (if h.hdr.coop then ((upTo 36).map (· + 36 * h.die)).flatMap (s.groupsIn h i)
    else (((upTo 576).map (· + 576 * h.die)).filter (s.candidate h i)).map fun n => [n])

/-! Placement. -/

/-- Every slab of a core reads as not valid (R293, R299). -/
def CoreSt.noSlabs (k : CoreSt) : CoreSt := { k with slabs := k.slabs.map fun b => { b with valid := false } }

/-- The slice of a core is zeroed and its weight store invalidated before it serves another job (R293). -/
def State.newJob (s : State) (core job : Nat) : State :=
  if (s.coreAt core).lastJob = some job then s
  else
    let lo := scrKey (core * 2 ^ 22)
    let hi := lo + 2 ^ 22
    let out := fun (k : Nat) => k < lo || hi ≤ k
    let s := { s with mem := memClear s.mem lo hi, poison := s.poison.filter out, pw := s.pw.filter fun p => out p.key
                      uo := s.uo.filter fun u => out u.key, early := s.early.filter fun e => out e.key }
    s.modCore core fun k => { k.noSlabs with lastJob := some job, regions := [], kept := [] }

/-- The fill of a declared tile, in task mode (R297, R471). -/
def fillCmd (s : State) (t : Task) (x : Tile) : Cmd :=
  { id := s.nextId, kind := .fill t.id x.desc, ins := .nop, agent := t.ctx, job := t.job, root := s.jobRoot t.job, task := some t.id
    st := .running, startAt := s.now }

/-- One declared tile is placed as planned: its entry, and its fill where it needs one (R296 to R298, R353). -/
def State.placeTile (s : State) (t : Task) (dsplit : Bool) (x : Tile) : State :=
  let r : Region := { base := x.off, size := x.size, back := x.back, wb := x.dir != 0, owner := t.id, tile := some x.desc }
  let s := s.modCore x.core fun k => { k with regions := k.regions ++ [r], kept := k.kept.filter fun e => !regionClash e.base e.size r }
  if x.st != .resident && (x.dir != 1 || dsplit) then
    let x := { x with st := .filling, cmd := some s.nextId }
    let s := { s with cmds := s.cmds ++ [fillCmd s t x], nextId := s.nextId + 1 }
    s.modTask t.id fun t => { t with tiles := t.tiles ++ [x] }
  else s.modTask t.id fun t => { t with tiles := t.tiles ++ [{ x with st := .resident }] }

/-- Every tile of a placed task is in scratch. -/
def Task.ready (t : Task) : Bool := t.tiles.all fun x => x.st = .resident

/-- A task that has every input goes on to Resident. -/
def State.settleTask (s : State) (id : Nat) : State :=
  s.modTask id fun t => if t.reserves then { t with st := if t.ready then .resident else .filling } else t

/-- Place task i of a share on a context, its tiles as planned (R346, R352). -/
def State.placeTask (s : State) (h : Share) (first i n : Nat) (tiles : List Tile) : State :=
  let core := coreOf n
  let s := s.newJob core h.job
  let t : Task := { id := s.nextId, share := h.id, job := h.job, index := i, phase := h.phase, first := first
                    gsize := if h.hdr.coop then h.hdr.gsize else 1, coop := h.hdr.coop, ltag := h.ltag, ctx := n, st := .placed
                    since := s.now }
  let s := { s with tasks := s.tasks ++ [t], nextId := s.nextId + 1 }
  (tiles.foldl (fun s x => s.placeTile t h.hdr.dsplit x) s).settleTask t.id

/-- The head of a share, one task or one group, is taken from the waiting ones. -/
def Share.takeHead (h : Share) : Share :=
  let k := if h.hdr.coop then h.hdr.gsize else 1
  if h.redo.isEmpty then { h with next := h.next + k } else { h with redo := h.redo.drop k }

/-- Offer the head of a share; none when no context can take it. -/
def State.offer (s : State) (h : Share) : Option State :=
  match h.head with
  | none => none
  | some i =>
    (s.choose h i).map fun l =>
      let idx := h.headGroup
      let plan := (s.planFor h (idx.zip l)).getD []
      let s := s.putShare { h.takeHead with aged := h.aged.filter (· != i) }
      let s := { s with clusters := s.clusters.map fun (k : Nat × ClusterSt) => if k.2.reserved = some (h.id, i) then (k.1, { k.2 with reserved := none }) else k }
      let s := s.modDie h.die fun d => { d with turns := d.turns.set (h.prioOf i) h.id }
      (idx.zip l).foldl (fun s p => s.placeTask h i p.1 p.2 ((plan.filter fun x => x.1 = p.2).map (·.2))) s

/-- The shares of a die that have waiting tasks of a priority, the one whose turn it is first (R351). -/
def State.turnsAt (s : State) (die p : Nat) : List Share :=
  let l := s.shares.filter fun h => h.die = die && h.st = .running && h.failed.isNone && s.jobOpen die h.job &&
    (match h.head with | some i => h.prioOf i = p | none => false)
  let last := (s.die die).turns[p]?.getD 0
  l.filter (fun h => last < h.id) ++ l.filter fun h => h.id ≤ last

/-- TASK_PLACEMENT: one task or group of the die is placed, by priority and turn (R351, R352). -/
def State.placement (s : State) (die : Nat) : State :=
  let s := s.frontEnd
  match ([7, 6, 5, 4, 3, 2, 1, 0].flatMap (s.turnsAt die)).findSome? s.offer with
  | some s => s
  | none => s

/-- TASK_AGING: an index that has waited 2^20 cycles is offered at priority 7 (R351). -/
def State.ageTask (s : State) (sh i : Nat) : State :=
  match s.findShare sh with
  | some h =>
    if h.waitsFor i && !h.aged.contains i && h.waitSince i + 2 ^ 20 ≤ s.now then s.putShare { h with aged := h.aged ++ [i] } else s
  | none => s

/-- GROUP_RESERVATION: a group that has waited 8,192 cycles keeps the cluster of its die with the most Free contexts, of those that no other
waiting group keeps (R351; log entry 49). -/
def State.reserveGroup (s : State) (sh i : Nat) : State :=
  match s.findShare sh with
  | some h =>
    if h.hdr.coop && h.waitsFor i && h.waitSince i + 8192 ≤ s.now && !s.clusters.any (fun k => k.2.reserved = some (sh, i)) then
      let free := fun cl => ((upTo 16).filter fun k => (s.ctxAt (16 * cl + k)).st = .free).length
      let cls := ((upTo 36).map (· + 36 * h.die)).filter fun cl => !((s.clusterAt cl).reserved.any s.groupHolds)
      let best := cls.foldl (fun (b : Option Nat) c => match b with | some d => if free d < free c then some c else b | none => some c) none
      match best with
      | some cl => s.setCluster cl { s.clusterAt cl with reserved := some (sh, i) }
      | none => s
    else s
  | none => s

/-! Fills. -/

/-- Up to n units of a running command, while the job is not stopped. -/
def runUnits (unit : State → Cmd → State) (id : Nat) : Nat → State → State
  | 0, s => s
  | n + 1, s =>
    match s.findCmd id with
    | some c => if c.st = .running && !s.stopped c then runUnits unit id n (unit s c) else s
    | none => s

/-- A unit of a fill, none after its last word. -/
def fillStep (s : State) (c : Cmd) : State := if c.done < fillWords s c then fillUnit s c else s

/-- A failed task that fills nothing any more leaves its context and its slice. -/
def State.dropFailed (s : State) (id : Nat) : State :=
  match s.findTask id with
  | some t =>
    if t.st = .failed && !s.cmds.any (fun c => match c.kind with | .fill k _ => k = id | _ => false) then s.dropRegions id else s
  | none => s

/-- TILE_FILL_COMPLETE: the tile is Resident, or Failed with its task (R296, R297, R350). -/
def State.fillComplete (s : State) (task tile : Nat) : State :=
  match s.cmds.find? fun c => c.kind = .fill task tile with
  | none => s
  | some c0 =>
    let s := runUnits fillStep c0.id (fillWords s c0 + 1) s
    match s.findCmd c0.id with
    | none => s
    | some c =>
      if !(c.st = .done || (c.st = .running && fillWords s c ≤ c.done)) then s
      else
        let bad := c.status != 0 && c.status != 0x41
        let s := (s.dropCmd c.id).settleEng c.agent
        let s := s.modTask task fun t => { t with tiles := t.tiles.map fun x =>
          if x.desc = tile then { x with st := if bad then .failed else .resident, status := c.status, cmd := none } else x }
        if bad then ((s.failTask task .failed c.status).dropFailed task).frontEnd else (s.settleTask task).dropFailed task

/-! Binding. -/

/-- The registers of a task at its start (R22, R70, R253, R347, R348). -/
def taskRegs (h : LaunchHdr) (t : Task) : Vector Word 64 :=
  let (a, b, c) := h.index t.index
  let tiles := t.tiles.map fun x => wordOfNat (0x7F * 2 ^ 57 + x.core * 2 ^ 22 + x.off)
  let head : List Word := [0, h.param, wordOfNat h.plen, wordOfNat a, wordOfNat b, wordOfNat c, wordOfNat t.index, wordOfNat tiles.length]
  Vector.ofFn fun i => (head ++ tiles)[i.val]?.getD 0

def taskCr (s : State) (h : LaunchHdr) (t : Task) : Vector Word 24 :=
  let e := s.jobContext t.job
  let r := Vector.replicate 24 (0 : Word)
  let r := r.set 0 (wordOfNat (0x20 + ofBoolNat h.verify <<< 4))
  let r := r.set 1 (wordOfNat (fld e 0 8) &&& crMask crTvec)
  let r := r.set 6 (wordOfNat t.job)
  let r := r.set 8 (wordOfNat t.index)
  let r := r.set 9 (wordOfNat t.phase)
  let r := r.set 0xB 0x0000FFFF00000033
  let r := r.set 0x10 h.seed
  let r := r.set 0x12 (wordOfNat t.index)
  let r := r.set 0x14 (s.jobRoot t.job)
  let r := r.set 0x15 (wordOfNat (ofBoolNat h.verify))
  r.set 0x17 (wordOfNat (fld e 8 8))

/-- The number of a cooperative group, by its share and the index of its first task: Cantor's pairing. -/
def groupNo (share first : Nat) : Nat := (share + first) * (share + first + 1) / 2 + first

/-- The group number of a task: none for a group of one (R130, R315). -/
def Task.group (t : Task) : Option Nat := if t.coop && 1 < t.gsize then some (groupNo t.share t.first) else none

/-- A slice enters verify layout with its shadows cleared (R312). -/
def State.enterVerify (s : State) (core : Nat) : State :=
  if (s.coreAt core).verify then s
  else
    let lo := scrKey (core * 2 ^ 22) + 0x200000
    { s.modCore core (fun k => { k with verify := true, kept := k.kept.filter fun e => e.base + e.size ≤ 0x200000 }) with mem := memClear s.mem lo (lo + 0x200000) }

/-- TASK_BIND: a Resident task starts on its context, once its cluster's arrays are enabled (R346, R347, R355). -/
def State.bind (s : State) (id : Nat) : State :=
  match s.findTask id with
  | none => s
  | some t =>
    match s.findShare t.share with
    | none => s
    | some h =>
      let cl := t.ctx / 16
      if t.st != .resident || (s.ctxAt t.ctx).st != .free || !s.jobOpen (dieOf t.ctx) t.job then s
      else if !(s.clusterAt cl).arraysOn then s.askEnable cl
      else
        let c : Ctx := { st := .ready, x := taskRegs h.hdr t, cr := taskCr s h.hdr t, pc := h.hdr.entries[t.phase]?.getD 0
                         sn := (s.ctxAt t.ctx).sn, task := some id, grp := t.group }
        let s := if t.ltag.isSome then s.enterVerify (coreOf t.ctx) else s
        (s.setCtx t.ctx c).modTask id fun t =>
          { t with st := .bound, tiles := t.tiles.map fun x => { x with st := .bound } }

/-! Barriers. -/

/-- A task of a group does not keep a barrier waiting: it has arrived, or has executed TEND. -/
def State.atBarrier (s : State) (b : Barrier) (t : Task) : Bool :=
  t.st = .bound && (b.arrived.contains t.ctx || (s.ctxAt t.ctx).drain = .tend)

/-- A member of a group by its index does not keep a barrier waiting: it has committed, has arrived or has executed TEND. -/
def State.memberThere (s : State) (b : Barrier) (share i : Nat) : Bool :=
  ((s.findShare share).any fun h => h.done.contains i) || s.tasks.any fun t => t.share = share && t.index = i && s.atBarrier b t

/-- Every member of the group of a barrier has arrived or executed TEND, bound here or not (R130). -/
def State.barrierFull (s : State) (b : Barrier) : Bool :=
  match s.tasks.find? fun t => t.group = some b.grp with
  | some t => (upTo t.gsize).all fun k => s.memberThere b t.share (t.first + k)
  | none => false

/-- BARRIER_RELEASE: every member has arrived or executed TEND, and what the members did before is performed (R130, R131). -/
def State.releaseBarrier (s : State) (g : Nat) (id : BitVec 12) : State :=
  match s.bars.find? (fun b => b.grp = g && b.id = id) with
  | none => s
  | some b =>
    let team := s.tasks.filter fun (q : Task) => q.group = some g
    if !s.barrierFull b || !b.arrived.all (fun n => (s.ctxAt n).acc.all Access.performed) then s
    else
      let s := b.arrived.foldl (fun s n => (s.flushTo n .grp).modCtx n fun c =>
        { c with passed := some c.pc, arrived := false, st := if c.st = .stalled then .ready else c.st }) s
      let s := team.foldl (fun s q => s.modTask q.id fun t => { t with bars := t.bars + 1 }) s
      { s with bars := s.bars.filter fun q => !(q.grp = g && q.id = id) }

/-! TEND and HALT. -/

/-- Nothing of a context is outstanding any more (R135, R260). -/
def State.drained (s : State) (n : Nat) : Bool :=
  let c := s.ctxAt n
  c.acc.isEmpty && c.fullX = BitVec.allOnes 64 && c.fullV = BitVec.allOnes 64 && !s.cmds.any fun m => m.agent = n && m.kind = .slot

/-- Write back one region of a task, the whole of it or the dirty granules, which it clears (R207, R208, R297). -/
def State.startWriteback (s : State) (n : Nat) (t : Task) (core : Nat) (r : Region) (whole : Bool) : State :=
  let dirty := if whole then 2 ^ (r.size / 64) - 1 else r.dirty
  let s := s.modCore core fun k => { k with regions := k.regions.map fun q => if q.base = r.base then { q with dirty := 0 } else q }
  let c : Cmd := { id := s.nextId, kind := .writeback t.id core r.base, ins := .nop, agent := n, job := t.job, root := s.jobRoot t.job
                   task := some t.id, hold := (s.ctxAt n).hold, st := .running, startAt := s.now, aux := dirty
                   rows := [(r.base, r.size, r.back.toNat)] }
  { s with cmds := s.cmds ++ [c], nextId := s.nextId + 1 }

/-- What TEND writes back of a slice: the declared outputs of the task, whole under DSPLIT, and the regions that it mapped with WB set
(R135, R208, R353). -/
def State.startSlice (n : Nat) (t : Task) (dsplit : Bool) (core : Nat) : List Region → State → State
  | [], s => s
  | r :: rest, s =>
    let tile := t.tiles.any fun x => x.core = core && x.off = r.base && x.dir != 0
    State.startSlice n t dsplit core rest
      (if r.owner = t.id && (if r.tile.isSome then tile else r.wb) then s.startWriteback n t core r (r.tile.isSome && dsplit) else s)

/-- The writebacks at TEND (R208, R297, R353). -/
def State.startWritebacks (s : State) (n : Nat) (t : Task) : State :=
  let s := s.cores.foldl (fun s k => State.startSlice n t (s.dsplitOf t) k.1 k.2.regions s) s
  s.modTask t.id fun t => { t with tiles := t.tiles.map fun x => if x.dir = 0 then x else { x with st := .writing } }

/-- TINFO of a Token Error at TEND: the lowest token in error. -/
def tendTokInfo (k st : Nat) : Word := wordOfNat (st <<< 18 + k <<< 14 + 0x1E <<< 6)

/-- TEND_DRAIN_END: a token in error traps, then a pending guard report; otherwise the writebacks begin (R135). -/
def State.tendDrained (s : State) (n : Nat) : Out :=
  let c := s.ctxAt n
  if !(c.st = .stalled && c.drain = .tend && !c.satisfied && s.drained n) then .next s
  else
    let s := s.modCtx n Ctx.landAll
    let errs := (upTo 16).filterMap fun k => let st := (c.k[k]?.getD {}).status.toNat; if k != 0 && st != 0 then some (k, st) else none
    match errs with
    | (k, st) :: _ =>
      let s := s.modCtx n fun c => { c with k := c.k.map fun t => { t with status := 0 } }
      takeTrap s n { cause := statusCause st, tpc := c.pc, taddr := statusAddr st (c.k[k]?.getD {}).addr, tinfo := tendTokInfo k st
                     atTend := true }
    | [] =>
      match c.task.bind s.findTask with
      | none => .next (s.modCtx n fun c => { c with satisfied := true })
      | some t =>
        match t.guard with
        | some g =>
          takeTrap (s.modTask t.id fun t => { t with guard := none }) n
            { cause := .guardTouch, tpc := c.pc, taddr := wordOfNat g.addr, tinfo := guardInfo 0x1E g, imprecise := true, atTend := true }
        | none => .next ((s.startWritebacks n t).modCtx n fun c => { c with satisfied := true })

/-- A unit of a writeback, none after its last word. -/
def writebackStep (s : State) (c : Cmd) : State :=
  match c.kind with
  | .writeback task core _ => if c.done < backWords c then writebackUnit s c task core else s
  | _ => s

def State.writebacksOf (s : State) (task : Nat) : List Cmd :=
  s.cmds.filter fun c => match c.kind with | .writeback t _ _ => t = task | _ => false

/-- The writeback has been acknowledged, or ended by CERESUME. -/
def writebackOver (c : Cmd) : Bool := c.st = .done || (c.st = .running && backWords c ≤ c.done)

/-- A declared tile may stay in its slice: an input filled from its backing without an error, which no agent has written and whose backing
no writeback of the launch has written (R298). -/
def State.mayStay (s : State) (t : Task) (x : Tile) : Bool :=
  x.dir != 1 && x.fill = 0 && x.status = 0 && !x.stale && (s.coreAt x.core).lastJob = some t.job &&
    (s.coreAt x.core).regions.any fun r => r.owner = t.id && r.tile = some x.desc && !r.wrote

/-- What a committed task leaves for later tasks of its launch, while all of the launch runs in this device: the writebacks of another one
are not known here (R298; log entry 22). -/
def State.keepTiles (s : State) (t : Task) : State :=
  match s.findShare t.share with
  | none => s
  | some h =>
    if !h.hdr.parts.all fun p => s.mapDev h.job p.dev = s.ownDev then s
    else (t.tiles.filter (s.mayStay t)).foldl (fun s x => s.modCore x.core fun k =>
      { k with kept := k.kept ++ [{ key := h.key, base := x.off, size := x.size, back := x.back }] }) s

/-- The task of a context commits: its writes are released at sys scope, its regions and its context are given back (R12, R135,
R208, R327), and inputs may stay (R298). -/
def State.commitTask (s : State) (n : Nat) (t : Task) : State :=
  let s := ((s.flushTo n .sys).keepTiles t).dropRegions t.id
  let s := { s with tasks := s.tasks.filter (·.id != t.id)
                    shares := s.shares.map fun (h : Share) => if h.id = t.share then { h with done := h.done ++ [t.index] } else h }
  ((s.freeCtx n).leaveVerify (coreOf n)).frontEnd

/-- TASK_COMMIT: once every writeback is acknowledged. -/
def State.commit (s : State) (n : Nat) : State :=
  let c := s.ctxAt n
  if !(c.st = .stalled && c.drain = .tend && c.satisfied) then s
  else match c.task.bind s.findTask with
    | none => (s.flushTo n .sys).freeCtx n
    | some t =>
      let s := (s.writebacksOf t.id).foldl (fun s c => runUnits writebackStep c.id (backWords c + 1) s) s
      if (s.writebacksOf t.id).all writebackOver then
        commitTask ((s.writebacksOf t.id).foldl (fun s c => s.dropCmd c.id) s) n t
      else s

/-- HALT_DRAIN_END: the context is Halted and its task does not commit (R260, R350, R361). -/
def State.haltDrained (s : State) (n : Nat) : State :=
  let c := s.ctxAt n
  if c.st = .selected && c.drain = .halt && s.drained n then
    (((s.modCtx n fun c => { c.landAll with st := .halted, drain := .none }).deselect n).failCtx n .halted).frontEnd
  else s

end Sys2Proof.Machine
end

