-- ==== Sys2Proof/Machine/Save.lean ====
section
/-! DEFINITION. Freezing a context and its save record (spec/20_traps.md R414 to R416, R473, spec/04_scalar.md R133): writing one, reading
one back, and the records of its commands. -/

namespace Sys2Proof.Machine

/-! Stopping. -/

/-- A boundary is quiet: every token free, no register empty, no result pending, nothing outstanding (R133, R427). -/
def Ctx.quietNow (c : Ctx) : Bool :=
  c.k.toList.all (fun t => !t.busy) && c.fullX = BitVec.allOnes 64 && c.fullV = BitVec.allOnes 64 && c.pend.isEmpty && c.acc.isEmpty &&
  c.held.isEmpty

/-- A context stops: what has been performed is taken in, the rest waits (R397, R414); its arrival at a barrier is taken back, and a WAITC
that has not issued starts again from its read (R129). -/
def State.freezeCtx (s : State) (n kind : Nat) : State :=
  let s := ((s.finishStvs n (s.ctxAt n).acc).forget n).withdraw n
  let c := (s.ctxAt n).fillAll.emptyRows (s.rowsOwed n)
  let c := { c with acc := c.acc.filter fun a => match a.st with | .got _ => false | _ => true
                    st := .frozen, frozenKind := kind, arrived := false, stopPoint := false, satisfied := c.satisfied && c.drain = .tend }
  (s.setCtx n c).deselect n

/-- A full freeze, or one in the drain of TEND (R136, R414). -/
def State.fullFreeze (s : State) (n : Nat) : State := s.freezeCtx n (if (s.ctxAt n).drain = .tend then 3 else 2)

/-- A job's contexts on a die that a cut or a freeze stops, or has stopped. -/
def State.liveCtxs (s : State) (j d : Nat) : List Nat :=
  (s.ctxsOf j d).filter fun n => let c := s.ctxAt n; c.st != .halted && c.st != .doubleFault

/-! The layout of a record (R415). -/

/-- Copy a range of one memory into another. -/
def copyCells (src : Mem) (a len : Nat) (dst : Mem) (b : Nat) : Mem :=
  ((src.filter fun c => a ≤ c.1 && c.1 < a + len).map fun c => (c.1 + b - a, c.2)).foldl (fun m c => memSet m c.1 c.2)
    (memClear dst b (b + len))

def pageUp (a : Nat) : Nat := ceilDiv a 4096 * 4096

/-- A row of the activation buffer in 320 bytes: codes, format, KACT, whether it is loaded, poison and entries, TA, side entries. -/
def arowNat (r : ARow) : Nat :=
  packN 16 (r.elems.map (·.toNat)) + (r.fmt.toNat + r.kact <<< 8 + ofBoolNat r.loaded <<< 16 +
    (ofBoolNat r.poison + 2 * r.scales.length) <<< 24 + r.ta.toNat <<< 32 + packN 8 (r.scales.map (·.toNat)) <<< 64) <<< 2048
where
  packN (w : Nat) (l : List Nat) : Nat := l.foldr (fun c a => a * 2 ^ w + c) 0

def arowOf (v : Nat) : ARow :=
  if fld v 258 1 = 0 then {}
  else { loaded := true, elems := (upTo 128).map fun i => BitVec.ofNat 16 (bitsOf v (16 * i) 16)
         scales := (upTo (fld v 259 1 / 2)).map fun i => BitVec.ofNat 8 (fld v (264 + i) 1)
         fmt := BitVec.ofNat 4 (fld v 256 1), kact := fld v 257 1, ta := BitVec.ofNat 32 (fld v 260 4), poison := fld v 259 1 % 2 = 1 }

def tokNat (t : Token) : Nat := ofBoolNat t.busy + t.status.toNat <<< 8

/-- Row slots and mask slots that the latches and replay entries of a context name. -/
def Ctx.rowSlots (c : Ctx) : Nat :=
  c.pend.countP (fun p => match p.res with | .v _ _ _ | .flags => true | _ => false) + c.replay.countP fun a => isStvIns a.ins
def Ctx.maskSlots (c : Ctx) : Nat := c.pend.countP fun p => match p.res with | .m _ _ _ => true | _ => false

/-- Row slots that a frame names: one more than the largest. -/
def frameRows (m : Mem) (f : Nat) : Nat :=
  let v := (upTo 32).map fun i => if memReadN m (f + 0x400 + 16 * i + 1) 1 = 0 then 0 else memReadN m (f + 0x400 + 16 * i + 2) 1 + 1
  let r := (upTo 32).map fun i =>
    match decode (BitVec.ofNat 32 (memReadN m (f + 0x600 + 64 * i) 4)) with
    | .ok ins => if isStvIns ins then memReadN m (f + 0x600 + 64 * i + 6) 1 + 1 else 0
    | .error _ => 0
  (v ++ r).foldl max 0

/-- Where a context's saved rows are: the live ones of a quiet stop, all of a freeze. -/
def Ctx.savedRows (c : Ctx) (quiet : Bool) : List Nat := (upTo 64).filter fun i => !quiet || c.live.getLsbD i

/-- The regions of a task in the slice of its core, in ascending base (R473). -/
def State.regionsOf (s : State) (core task : Nat) : List Region :=
  ((s.coreAt core).regions.filter (·.owner = task)).foldl (fun l r => (l.filter fun q => q.base < r.base) ++ [r] ++
    l.filter fun q => r.base < q.base) []

/-- Write one region at o: its entry, its dirty bits, its contents. -/
def putRegion (core : Nat) (p : Mem × Nat) (r : Region) : Mem × Nat :=
  let (m, o) := p
  let dirtyLen := ceilDiv (ceilDiv (r.size / 64) 8) 64 * 64
  let m := memClear m o (o + 64 + dirtyLen)
  let m := memWriteN m o 19 (r.base + r.size <<< 32 + r.back.toNat <<< 64 + ofBoolNat r.wb <<< 128 + ofBoolNat r.tile.isSome <<< 136 +
    (r.tile.getD 0) <<< 144)
  let m := memWriteN m (o + 64) (ceilDiv (r.size / 64) 8) r.dirty
  (copyCells m (scrKey (core * 2 ^ 22 + r.base)) r.size m (o + 64 + dirtyLen), o + pageUp (64 + dirtyLen + r.size))

/-- The pending guard report in 64 bytes (R415). -/
def putGuard (m : Mem) (o : Nat) (g : Guard) : Mem :=
  memWriteN (memClear m o (o + 64)) (o + 8) 12 (1 + g.count <<< 16 + g.bank <<< 32 + g.agent <<< 40 + g.addr <<< 64)

/-! What R414 saves and R415 gives no place: bytes 0x1480 to 0x1FFF of a record hold it, and of the list at 0x28 how many regions follow and
whether a guard report does (DESIGN CHOICE, log entry 12). -/

def Drain.num : Drain → Nat
  | .none => 0 | .rft => 1 | .halt => 2 | .tend => 3
def drainOf : Nat → Drain
  | 1 => .rft | 2 => .halt | 3 => .tend | _ => .none

/-- Bytes of an address that may be absent. -/
def putMaybe (m : Mem) (a : Nat) (v : Option Word) : Mem :=
  match v with
  | some w => memWriteN (memWriteN m a 1 1) (a + 8) 8 w.toNat
  | none => m
def getMaybe (m : Mem) (a : Nat) : Option Word := if memReadN m a 1 = 1 then some (memWord m (a + 8)) else none

/-- Numbers of w bytes each, in order. -/
def putList (m : Mem) (a w : Nat) (l : List Nat) : Mem := memWriteN m a (w * l.length) (l.foldr (fun v r => r * 2 ^ (8 * w) + v % 2 ^ (8 * w)) 0)
def getList (m : Mem) (a w n : Nat) : List Nat := (upTo n).map fun i => memReadN m (a + w * i) w

def putAside (m : Mem) (base : Nat) (c : Ctx) (bars : Nat) : Mem :=
  let m := putList m (base + 0x1480) 1 (c.budget.map (·.toNat))
  let m := putList m (base + 0x1680) 4 (c.mstat.map (·.toNat))
  let steps := c.steps.take 4
  let bad := c.vextBad.take 64
  let m := putList m (base + 0x16D0) 1 [c.drain.num, c.drainSlot, c.drainLen, (c.stepover.map (· + 1)).getD 0, ofBoolNat c.satisfied, ofBoolNat c.repOn,
    ofBoolNat c.window.isOpen, steps.length, bad.length, ofBoolNat (c.halts.contains 0), ofBoolNat (c.halts.contains 1)]
  let m := putMaybe (putMaybe m (base + 0x16E0) c.repNext) (base + 0x16F0) c.passed
  let m := memWriteN m (base + 0x1700) 8 bars
  let m := putList m (base + 0x1710) 8 (c.k.toList.map (·.addr.toNat))
  let m := putList m (base + 0x1790) 1 (c.k.toList.map (·.errRep))
  let m := putList m (base + 0x17A0) 8 (steps.flatMap fun q => [q.1, q.2.1.toNat, q.2.2])
  putList m (base + 0x1800) 1 (bad.flatMap fun q => [q.1, q.2.toNat])

/-- What bytes 0x1480 on of a record at base say. -/
def getAside (m : Mem) (base d i : Nat) : Aside :=
  let f := fun k => memReadN m (base + 0x16D0 + k) 1
  { die := d, recNo := i
    budget := (getList m (base + 0x1480) 1 512).map (BitVec.ofNat 8), mstat := (getList m (base + 0x1680) 4 20).map (BitVec.ofNat 32)
    drain := drainOf (f 0), drainSlot := f 1, drainLen := f 2, stepover := if f 3 = 0 then none else some (f 3 - 1)
    satisfied := f 4 = 1, repOn := f 5 = 1, window := { isOpen := f 6 = 1 }
    repNext := getMaybe m (base + 0x16E0), passed := getMaybe m (base + 0x16F0), bars := memReadN m (base + 0x1700) 8
    raceAt := (getList m (base + 0x1710) 8 16).map wordOfNat
    halts := (if f 9 = 1 then [0] else []) ++ if f 10 = 1 then [1] else []
    steps := (upTo (f 7)).map fun q => (memReadN m (base + 0x17A0 + 24 * q) 8, memWord m (base + 0x17A8 + 24 * q), memReadN m (base + 0x17B0 + 24 * q) 8)
    vextBad := (upTo (f 8)).map fun q => (memReadN m (base + 0x1800 + 2 * q) 1, BitVec.ofNat 6 (memReadN m (base + 0x1801 + 2 * q) 1)) }

/-- The record of context n at base: memory and the end of the record. Rows that a command saved unstarted had marked empty are saved as
full (R414). -/
def ctxRecord (s : State) (n launchIdx base : Nat) : Mem × Nat :=
  let c := s.ctxAt n
  let quiet := c.frozenKind = 1
  let task := c.task.bind s.findTask
  let rows := c.savedRows quiet
  let m := memClear s.mem base (base + 0x2000)
  let m := memWriteN m base 8 (c.frozenKind + c.frames <<< 8 + rows.length <<< 16 + ((task.map (·.gsize)).getD 1) <<< 24 + launchIdx <<< 32)
  let m := memWriteN m (base + 8) 24 (c.cr[crTaskid].toNat + ((task.map (·.first)).getD 0) <<< 64 + c.pc.toNat <<< 128)
  let regions := (task.map fun t => s.regionsOf (coreOf n) t.id).getD []
  let guard := task.bind (·.guard)
  let m := memWriteN m (base + 0x20) 11 ((if quiet then c.live.toNat else 2 ^ 64 - 1) + regions.length <<< 64 + ofBoolNat guard.isSome <<< 80)
  let m := putAside m base c ((task.map (·.bars)).getD 0)
  let m := (List.finRange 24).foldl (fun m i => memWriteN m (base + 0x100 + 8 * i.val) 8 (s.readCr n i).toNat) m
  let m := (upTo 63).foldl (fun m i => memWriteN m (base + 0x1C0 + 8 * i) 8 (c.x[i + 1]?.getD 0).toNat) m
  let m := (upTo 4).foldl (fun m i => memWriteN m (base + 0x3C0 + 32 * i) 32 (loopNat (c.loops[i]?.getD {}))) m
  let m := (upTo 16).foldl (fun m i => memWriteN m (base + 0x440 + 2 * i) 2 (tokNat (c.k[i]?.getD {}))) m
  let full := (s.rowsOwed n).foldl (fun f r => setBit64 f r true) c.fullV
  let m := memWriteN m (base + 0x460) 24 (c.fullX.toNat + full.toNat <<< 64 + c.poisonV.toNat <<< 128)
  let t : Mem := if quiet then [] else frameMem [] c 0 none
  let m := copyCells t 0x180 0x200 m (base + 0x800)
  let m := copyCells t 0x380 0x80 m (base + 0xA00)
  let m := copyCells t 0x400 0x200 m (base + 0xA80)
  let m := copyCells t 0x600 0x800 m (base + 0xC80)
  let m := rows.zipIdx.foldl (fun m r => memWriteN m (base + 0x2000 + 2048 * r.2) 2048 (c.v[r.1]?.getD 0).toNat) m
  let o := base + 0x2000 + 2048 * rows.length
  let (m, o) := if quiet then (m, o) else
    let m := memClear m o (o + 24576)
    let m := (upTo 7).foldl (fun m i => memWriteN m (o + 256 * i) 256 (c.m[i + 1]?.getD 0).toNat) m
    let m := (upTo 64).foldl (fun m i => memWriteN m (o + 4096 + 320 * i) 320 (arowNat (c.abuf[i]?.getD {}))) m
    let o := o + 24576
    let m := copyCells t 0x3000 (2304 * c.rowSlots) m o
    let o := o + 2304 * c.rowSlots
    let m := copyCells t 0x1000 (512 * c.maskSlots) m o
    let o := o + 512 * c.maskSlots
    (upTo c.frames).foldl (fun (p : Mem × Nat) lvl =>
      let f := s.frameBase n lvl
      let k := frameRows p.1 f
      (copyCells p.1 (f + 0x3000) (2304 * k) (copyCells p.1 f 0x3000 p.1 p.2) (p.2 + 0x3000), p.2 + 0x3000 + 2304 * k)) (m, o)
  let (m, o) := regions.foldl (putRegion (coreOf n)) (m, o)
  match guard with
  | some g => (putGuard m o g, pageUp (o + 64))
  | none => (m, pageUp o)

/-! Reading a record back. -/

/-- The bits that a control register implements: those that a write can change and those that are read only (R253 to R256). A record's other
bits, and the live and fixed registers, restore as zero (R41); no cut is pending in what it restores (R423). -/
def crBits (i : Fin 24) : Word :=
  crMask i ||| (match i.val with
    | 6 => 0xFFF | 8 => BitVec.allOnes 64 | 9 => 0xFFFF | 0x15 => 1 | 0x16 => 0x1FFF0000
    | _ => 0)

/-- A record read back. -/
structure Back where
  kind : Nat
  launch : Nat
  first : Nat
  gsize : Nat
  ctxid : Nat
  ctx : Ctx
  replays : List (Option Access)
  /-- Frames to put back: level, where the record keeps it, rows it names. -/
  frames : List (Nat × Nat × Nat)
  /-- Regions with the place of their contents. -/
  regions : List (Region × Nat)
  guard : Option Guard
  /-- Where the record begins and ends. -/
  base : Nat
  stop : Nat

/-- So many regions from o on, and where they end; written before, for all that the record says (R298). -/
def getRegions (m : Mem) : Nat → Nat → List (Region × Nat) × Nat
  | 0, o => ([], o)
  | fuel + 1, o =>
    let v := memReadN m o 19
    let size := fld v 4 4
    if size = 0 then ([], o)
    else
      let dirtyLen := ceilDiv (ceilDiv (size / 64) 8) 64 * 64
      let r : Region := { base := fld v 0 4, size := size, back := wordOfNat (fld v 8 8), wb := fld v 16 1 = 1, owner := 0
                          tile := if fld v 17 1 = 1 then some (fld v 18 1) else none
                          dirty := memReadN m (o + 64) (ceilDiv (size / 64) 8), wrote := true }
      let (l, e) := getRegions m fuel (o + pageUp (64 + dirtyLen + size))
      ((r, o + 64 + dirtyLen) :: l, e)

def getGuard (m : Mem) (o : Nat) : Option Guard :=
  let v := memReadN m (o + 8) 12
  if fld v 0 1 = 1 then some { addr := fld v 8 4, count := fld v 2 2, bank := fld v 4 1, agent := fld v 5 1 } else none

/-- Frames from o on. -/
def getFrames (m : Mem) : Nat → Nat → Nat → List (Nat × Nat × Nat) × Nat
  | 0, _, o => ([], o)
  | k + 1, lvl, o =>
    let r := frameRows m o
    let (l, e) := getFrames m k (lvl + 1) (o + 0x3000 + 2304 * r)
    ((lvl, o, r) :: l, e)

/-- A context record; none when one of its replay entries is no legal slot. -/
def readRecord (m : Mem) (base : Nat) : Option Back :=
  let h := memReadN m base 8
  let kind := fld h 0 1
  let quiet := kind = 1
  let nrows := fld h 2 1
  let mask := memReadN m (base + 0x20) 8
  let rows := (upTo 64).filter mask.testBit
  let o := base + 0x2000 + 2048 * nrows
  let t := copyCells m (base + 0x800) 0x200 [] 0x180
  let t := copyCells m (base + 0xA00) 0x80 t 0x380
  let t := copyCells m (base + 0xA80) 0x200 t 0x400
  let t := copyCells m (base + 0xC80) 0x800 t 0x600
  let nr := frameRows t 0
  let nm := ((upTo 16).map fun i => if memReadN t (0x380 + 8 * i + 1) 1 = 0 then 0 else memReadN t (0x380 + 8 * i + 2) 1 + 1).foldl max 0
  let t := copyCells m (o + 24576) (2304 * nr) t 0x3000
  let t := copyCells m (o + 24576 + 2304 * nr) (512 * nm) t 0x1000
  let (frames, o) := if quiet then ([], o) else getFrames m (fld h 1 1) 0 (o + 24576 + 2304 * nr + 512 * nm)
  let (regions, o) := getRegions m (min 64 (memReadN m (base + 0x28) 2)) o
  let guarded := memReadN m (base + 0x2A) 1 = 1
  let psw := memWord m (base + 0x100)
  let rc := memWord m (base + 0x100 + 8 * 0x15)
  match getReplays t 0 (psw.getLsbD 0) (rc.getLsbD 1) (upTo 32) with
  | .error _ => none
  | .ok entries =>
    let mo := base + 0x2000 + 2048 * nrows
    let c : Ctx := {
      st := .frozen, frozenKind := kind, frames := fld h 1 1
      x := Vector.ofFn fun i => if i.val = 0 then 0 else memWord m (base + 0x1C0 + 8 * (i.val - 1))
      v := Vector.ofFn fun i => match rows.findIdx? (· = i.val) with
        | some k => if k < nrows then BitVec.ofNat 16384 (memReadN m (base + 0x2000 + 2048 * k) 2048) else 0
        | none => 0
      m := Vector.ofFn fun i => if quiet || i.val = 0 then 0 else BitVec.ofNat 2048 (memReadN m (mo + 256 * (i.val - 1)) 256)
      k := Vector.ofFn fun i => { busy := memReadN m (base + 0x440 + 2 * i.val) 1 = 1
                                  status := BitVec.ofNat 8 (memReadN m (base + 0x440 + 2 * i.val + 1) 1)
                                  errRep := memReadN m (base + 0x1790 + i.val) 1, addr := memWord m (base + 0x1710 + 8 * i.val) }
      fullX := memWord m (base + 0x460), fullV := memWord m (base + 0x468), poisonV := memWord m (base + 0x470)
      pc := memWord m (base + 0x18)
      cr := Vector.ofFn fun i => memWord m (base + 0x100 + 8 * i.val) &&& crBits i
      loops := Vector.ofFn fun i => getLoop m (base + 0x2C0) i.val
      pend := (((upTo 32).map (getScalarLatch t 0)) ++ ((upTo 16).map (getMaskLatch t 0)) ++ ((upTo 32).map (getVectorLatch t 0))).filter
        (·.due != 0)
      abuf := if quiet then Vector.replicate 64 {} else Vector.ofFn fun i => arowOf (memReadN m (mo + 4096 + 320 * i.val) 320)
      live := wordOfNat mask }
    some { kind := kind, launch := fld h 4 4, first := memReadN m (base + 0x10) 8, gsize := fld h 3 1
           ctxid := memReadN m (base + 0x138) 2, ctx := c, replays := entries, frames := frames, regions := regions
           guard := if guarded then getGuard m o else none, base := base, stop := pageUp (if guarded then o + 64 else o) }

/-- The context records of a save area, each with its number, the first at o, and where they end; none when one cannot be read. -/
def readRecords (m : Mem) (base : Nat) : Nat → Nat → Nat → Option (List (Nat × Back) × Nat)
  | 0, _, o => some ([], o)
  | k + 1, i, o =>
    match readRecord m (base + o) with
    | none => none
    | some b => (readRecords m base k (i + 1) (b.stop - base)).map fun r => ((i, b) :: r.1, r.2)

/-! Command records (R416). -/

/-- Function code of a command's slot: the low bits of its word (R88, R89). -/
def fnOf (i : Instr) : Nat := (((encode i).getD 0).toNat) % 4

def stateNat (c : Cmd) : Nat :=
  match c.st with
  | .queued => 0
  | .parked _ | .faulting _ _ _ => 2
  | _ => 1

def cmdRecord (m : Mem) (base rec : Nat) (c : Cmd) (reqs : List Req) : Mem × Nat :=
  let stop := pageUp (base + 256 + 16 * reqs.length)
  let m := memClear m base stop
  let m := memWriteN m base 9 (opOf c.ins + fnOf c.ins <<< 8 + rec <<< 16 + c.kd.toNat <<< 32 + c.ka.toNat <<< 40 + c.kb.toNat <<< 48 +
    c.kc.toNat <<< 56 + stateNat c <<< 64)
  let m := ((c.par.take 9).zipIdx).foldl (fun m p => memWriteN m (base + 16 + 8 * p.2) 8 p.1.toNat) m
  let m := memWriteN m (base + 88) 10 (c.done % 2 ^ 64 + reqs.length <<< 64)
  (reqs.zipIdx.foldl (fun m (q : Req × Nat) => memWriteN m (base + 256 + 16 * q.2) 16
    (q.1.pkt.seq + (q.1.die * 2 ^ 15 + q.1.tag) <<< 32 + q.1.gen <<< 48 + q.1.pkt.cls <<< 56 + q.1.off <<< 64)) m, stop)

/-! Launch and sequence records (R417). The spec gives no layout: a record is a count of 8-byte words and the words, lists with their own
counts before them (DESIGN CHOICE, log entry 12). -/

def putWords (m : Mem) (base : Nat) (ws : List Nat) : Mem × Nat :=
  let stop := pageUp (base + 8 + 8 * ws.length)
  (putList (memClear m base stop) base 8 (ws.length :: ws), stop)

/-- The words of the record at base, at most 2^20, and where it ends. -/
def getWords (m : Mem) (base : Nat) : List Nat × Nat :=
  let n := min (memReadN m base 8) (2 ^ 20)
  (getList m (base + 8) 8 n, pageUp (base + 8 + 8 * n))

def listWords (l : List Nat) : List Nat := l.length :: l
def maybeWords (v : Option Nat) : List Nat := match v with | some x => [1, x] | none => [0, 0]

/-- The list that stands first, and the words after it. -/
def takeWords : List Nat → List Nat × List Nat
  | [] => ([], [])
  | n :: t => (t.take n, t.drop n)

def maybeOf (a v : Nat) : Option Nat := if a = 1 then some v else none
def nth (l : List Nat) (i : Nat) : Nat := l[i]?.getD 0

def hdrWords (h : LaunchHdr) : List Nat :=
  [h.pkt.toNat, h.param.toNat, h.plen, h.dim0, h.dim1, h.dim2, h.nphase, ofBoolNat h.coop, h.prio, ofBoolNat h.verify, ofBoolNat h.dsplit,
   ofBoolNat h.racc, ofBoolNat h.detach, h.gsize, h.seed.toNat] ++
  listWords (h.tiles.flatMap fun t => [t.back.toNat, t.s0.toNat, t.s1.toNat, t.s2.toNat, t.size, t.off, t.phase, t.dir, t.fill]) ++
  listWords (h.parts.flatMap fun p => [p.first, p.dev, p.die]) ++ listWords (h.entries.map (·.toNat)) ++ listWords (h.steps.map (·.toNat))

def hdrOf (w : List Nat) : LaunchHdr × List Nat :=
  let (tiles, r) := takeWords (w.drop 15)
  let (parts, r) := takeWords r
  let (entries, r) := takeWords r
  let (steps, r) := takeWords r
  ({ pkt := wordOfNat (nth w 0), param := wordOfNat (nth w 1), plen := nth w 2, dim0 := nth w 3, dim1 := nth w 4, dim2 := nth w 5, nphase := nth w 6
     coop := nth w 7 = 1, prio := nth w 8, verify := nth w 9 = 1, dsplit := nth w 10 = 1, racc := nth w 11 = 1, detach := nth w 12 = 1
     gsize := nth w 13, seed := wordOfNat (nth w 14)
     tiles := (chunks 9 (tiles.length / 9) tiles).map fun t =>
       { back := wordOfNat (nth t 0), s0 := wordOfNat (nth t 1), s1 := wordOfNat (nth t 2), s2 := wordOfNat (nth t 3), size := nth t 4
         off := nth t 5, phase := nth t 6, dir := nth t 7, fill := nth t 8 }
     parts := (chunks 3 (parts.length / 3) parts).map fun p => { first := nth p 0, dev := nth p 1, die := nth p 2 }
     entries := entries.map wordOfNat, steps := steps.map wordOfNat }, r)

def pairsOf (l : List Nat) : List (Nat × Nat) := (chunks 2 (l.length / 2) l).map fun p => (nth p 0, nth p 1)

/-- The committed tasks of a share as a bitmap, 64 to a word, bit i for its i-th index (R417). -/
def doneMap (h : Share) : List Nat :=
  let top := h.done.foldl (fun a i => max a (i - h.first + 1)) 0
  (upTo (ceilDiv top 64)).map fun w => h.done.foldl (fun a i => if (i - h.first) / 64 = w then a ||| 2 ^ ((i - h.first) % 64) else a) 0
def doneOf (first : Nat) (ws : List Nat) : List Nat :=
  ws.zipIdx.flatMap fun q => ((upTo 64).filter q.1.testBit).map fun b => first + 64 * q.2 + b

def ShareSt.num : ShareSt → Nat
  | .idle => 0 | .due => 1 | .running => 2
def LaunchSt.num : LaunchSt → Nat
  | .distributing => 0 | .running => 1 | .failing => 2

/-- A die's share of a launch, when it has one. -/
def shareWords (h : Share) : List Nat :=
  [h.key.job, h.key.dev, h.key.die, h.key.id, h.jd, h.first, h.count, h.phase, h.st.num, h.next, ofBoolNat h.told] ++
  maybeWords h.ltag ++ maybeWords (h.failed.map (·.toNat)) ++ listWords (doneMap h) ++ listWords h.redo ++ hdrWords h.hdr

def shareFrom (id d now : Nat) (w : List Nat) : Share :=
  let (done, r) := takeWords (w.drop 15)
  let (redo, r) := takeWords r
  { id := id, die := d, key := { job := nth w 0, dev := nth w 1, die := nth w 2, id := nth w 3 }, job := nth w 0, jd := nth w 4, first := nth w 5
    count := nth w 6, phase := nth w 7, st := if nth w 8 = 2 then .running else if nth w 8 = 1 then .due else .idle, next := nth w 9
    told := nth w 10 = 1, ltag := maybeOf (nth w 11) (nth w 12), failed := (maybeOf (nth w 13) (nth w 14)).map (BitVec.ofNat 8)
    done := doneOf (nth w 5) done, redo := redo, hdr := (hdrOf r).1, since := now }

/-- A launch at its origin; `detached` when its completion write waits for it. -/
def originWords (l : Launch) (agent : Nat) (detached : Bool) : List Nat :=
  [l.id, l.jd, l.die, l.job, l.cmd, l.pkt.toNat, l.phase, l.st.num, l.status.toNat, agent, ofBoolNat detached] ++
  listWords (l.accepted.flatMap fun p => [p.1, p.2]) ++ listWords (l.reported.flatMap fun p => [p.1, p.2]) ++ hdrWords l.hdr

def originFrom (now : Nat) (w : List Nat) : Launch :=
  let (acc, r) := takeWords (w.drop 11)
  let (rep, r) := takeWords r
  { id := nth w 0, jd := nth w 1, die := nth w 2, job := nth w 3, cmd := nth w 4, pkt := wordOfNat (nth w 5), phase := nth w 6
    st := if nth w 7 = 2 then .failing else if nth w 7 = 1 then .running else .distributing, status := BitVec.ofNat 8 (nth w 8)
    accepted := pairsOf acc, reported := pairsOf rep, hdr := (hdrOf r).1, since := now }

/-- The sequence record of a die: its numberings of the job, and its windows as home (R417). -/
def seqWords (f : Fabric) (j d : Nat) : List Nat :=
  listWords ((f.nums.filter fun n => n.job = j && n.die = d).flatMap fun n => [n.me, n.tgt, n.cls, n.next]) ++
  listWords ((f.homes.filter fun h => h.job = j && h.die = d).flatMap fun h =>
    [h.src, h.sdie, h.cls, h.tgt, h.h, h.f] ++ (upTo 4).map fun i => bitsOf h.mask (64 * i) 64)

def numsFrom (j d : Nat) (l : List Nat) : List Numbering :=
  (chunks 4 (l.length / 4) l).map fun n => { die := d, job := j, me := nth n 0, tgt := nth n 1, cls := nth n 2, next := nth n 3 }
def homesFrom (j d : Nat) (l : List Nat) : List Home :=
  (chunks 10 (l.length / 10) l).map fun n =>
    { die := d, job := j, src := nth n 0, sdie := nth n 1, cls := nth n 2, tgt := nth n 3, h := nth n 4, f := nth n 5
      mask := nth n 6 + nth n 7 <<< 64 + nth n 8 <<< 128 + nth n 9 <<< 192 }

end Sys2Proof.Machine
end

