-- ==== Sys2Proof/Machine/Gang.lean ====
section
/-! DEFINITION. Cuts and gang switches of a job (spec/20_traps.md R408 to R427, R473, spec/09_system.md R262, R263): cut messages, the freeze,
the sweep into the galley, saving, restoring and resuming. -/

namespace Sys2Proof.Machine

def State.toDies (s : State) (from_ job : Nat) (devs : List Nat) (c : Nat → Ctl) : State :=
  devs.foldl (fun s dev => (s.sendCtl from_ dev 0x22 job (c 0)).sendCtl from_ dev 0x22 job (c 1)) s

/-- A cut is open or a switch is in progress (R412, R418). -/
def JobCtl.busy (k : JobCtl) : Bool :=
  let moving := fun n => n = 1 || n = 2 || n = 3 || n = 4 || n = 6 || n = 8
  k.origin.isSome || moving k.st0 || moving k.st1

/-! Cuts (R412). -/

/-- SYS CUT: the job's dies are asked for reports; nothing with a cut pending, a switch in progress, or saves off. -/
def State.cutJob (s : State) (die job : Nat) : State :=
  if !s.savesOn || (s.jobCtl job).busy then s
  else
    let m := s.members job
    let s := (s.putJstate job 1).modJobCtl job fun k =>
      { k with origin := some die, odev := s.ownDev, odie := die, members := m, reports := [], saved := [], isCut := true, since := s.now }
    s.toDies die job m fun d => .cutOpen job d s.ownDev die

def execSysCut (a : Reg) (s : State) : Out :=
  issue (.sysCut a) (pureEff fun s => s.cutJob (dieOf s.cur) (((s.ctxAt s.cur).getX a).bits 0 12)) s

/-- Tasks of a job that have not been bound on a die go back to waiting (R412, R418). -/
def State.unplace (s : State) (j d : Nat) : State :=
  (s.tasks.filter fun t => t.job = j && dieOf t.ctx = d && t.reserves).foldl (fun s t =>
    let s := { s.dropRegions t.id with
      tasks := s.tasks.filter (·.id != t.id)
      cmds := s.cmds.filter fun c => match c.kind with | .fill k _ => k != t.id | _ => true }
    { s with shares := s.shares.map fun (h : Share) => if h.id = t.share then
        { h with redo := (h.redo.filter (· < t.index)) ++ [t.index] ++ h.redo.filter (t.index < ·), waits := mapSet h.waits t.index s.now } else h }) s

/-- Where the next record of a die goes, and how many contexts it holds (R415). -/
def JobCtl.nextOf (k : JobCtl) (d : Nat) : Nat := if d = 0 then k.next0 else k.next1
def JobCtl.setNext (k : JobCtl) (d o : Nat) : JobCtl := if d = 0 then { k with next0 := o } else { k with next1 := o }
def JobCtl.recsOf (k : JobCtl) (d : Nat) : Nat := k.ctxRecs.countP fun r => r.1 = d

/-- The save area of a die and its size in bytes (R409). -/
def State.saveArea (s : State) (j d : Nat) : Nat := (s.peek (s.saveEntry j + 8 * d)).toNat
def State.saveSize (s : State) (j d : Nat) : Nat := memReadN s.mem (s.saveEntry j + 16 + 4 * d) 4 * 4096

/-- The directory of a save area (R415). Its bytes from 32 on, which the rule leaves, say which device wrote the area and when, and where its
launch records begin (DESIGN CHOICE, log entry 12). -/
def State.putDirectory (s : State) (j d ncmd nlaunch launchAt : Nat) : State :=
  let k := s.jobCtl j
  s.putBytes (s.saveArea j d) 56 (k.recsOf d + ncmd <<< 64 + nlaunch <<< 128 + (k.nextOf d) <<< 192 + s.ownDev <<< 256 + (s.now + 1) <<< 320 +
    launchAt <<< 384)

/-- This device wrote the save area of a die last, so that what it kept beside the records belongs to them. -/
def State.ownArea (s : State) (j d : Nat) : Bool :=
  let k := s.jobCtl j
  let stamp := if d = 0 then k.stamp0 else k.stamp1
  stamp != 0 && memReadN s.mem (s.saveArea j d + 32) 16 = s.ownDev + stamp <<< 64

/-- Write the command records of a die; none when the area is too small. -/
def writeCmdRecs (base size : Nat) : List CmdRec → Mem → Nat → Option (Mem × Nat)
  | [], m, o => some (m, o)
  | r :: t, m, o =>
    let (m', e) := cmdRecord m (base + o) r.recNo r.cmd r.reqs
    if base + size < e then none else writeCmdRecs base size t m' (e - base)

/-- Write records of words; none when the area is too small. -/
def writeWordRecs (base size : Nat) : List (List Nat) → Mem → Nat → Option (Mem × Nat)
  | [], m, o => some (m, o)
  | w :: t, m, o =>
    let (m', e) := putWords m (base + o) w
    if base + size < e then none else writeWordRecs base size t m' (e - base)

/-- The shares of a job on a die, and the launches of the job whose origin the die is. -/
def State.sharesOf (s : State) (j d : Nat) : List Share := s.shares.filter fun h => h.job = j && h.die = d
def State.originsOf (s : State) (j d : Nat) : List Launch := s.launches.filter fun l => l.job = j && l.die = d

/-- The words of a launch whose origin is here: none of an LNCH that a sequencer keeps, which names its command. -/
def State.originRecord (s : State) (l : Launch) : List Nat :=
  match s.findCmd l.cmd with
  | some c => originWords l c.agent (c.kind = CmdKind.detach)
  | none => originWords l (numContexts + l.die) false

/-- The launch records of a die, its shares first, a share's launch with it where the die is its origin too (R417). -/
def State.launchRecords (s : State) (j d : Nat) : List (List Nat) :=
  let shares := s.sharesOf j d
  let origins := s.originsOf j d
  let of_ := fun (h : Share) => match origins.find? fun l => l.key = h.key with
    | some l => listWords (s.originRecord l)
    | none => [0]
  (shares.map fun h => listWords (shareWords h) ++ of_ h) ++
    (origins.filter fun l => !shares.any fun h => h.key = l.key).map fun l => [0] ++ listWords (s.originRecord l)

/-- Command, launch and sequence records of a die follow its context records, and the job's launches and numberings leave the die (R412,
R417, R418); none when the area is too small for them. -/
def State.saveRest (s : State) (j d : Nat) : Option State :=
  let s := s.unplace j d
  let k := s.jobCtl j
  let cmds := k.cmdRecs.filter (·.die = d)
  let base := s.saveArea j d
  let size := s.saveSize j d
  let launches := s.launchRecords j d
  let seq := seqWords s.fab j d
  if base = 0 then (if cmds.isEmpty && launches.isEmpty && seq = [0, 0] then some s else none)
  else
    (writeCmdRecs base size cmds s.mem (k.nextOf d)).bind fun r =>
    (writeWordRecs base size (launches ++ [seq]) r.1 r.2).map fun q =>
      let origins := (s.originsOf j d).map (·.cmd)
      let s := ({ s with mem := q.1 }.modJobCtl j fun k =>
        let k := k.setNext d q.2
        if d = 0 then { k with stamp0 := s.now + 1 } else { k with stamp1 := s.now + 1 })
      let s := s.putDirectory j d cmds.length launches.length r.2
      let s := { s with shares := s.shares.filter fun h => !(h.job = j && h.die = d), launches := s.launches.filter fun l => !(l.job = j && l.die = d)
                        cmds := s.cmds.filter fun (c : Cmd) => !(c.kind = CmdKind.detach && origins.contains c.id) }
      s.modFab fun f => { f with nums := f.nums.filter fun n => !(n.job = j && n.die = d), homes := f.homes.filter fun h => !(h.job = j && h.die = d) }

/-- A die has saved everything: STATE 5, and the origin hears of it (R412, R418). -/
def State.dieSaved (s : State) (j d : Nat) : State :=
  let k := s.jobCtl j
  match s.saveRest j d with
  | none => s.putState j d 8
  | some s =>
    let s := if k.isCut then s else s.setResident j false
    let s := s.putState j d 5
    let s := if k.isCut then s else (s.putEntry j 64 8 k.step.toNat).putEntry j 36 4 k.gcount
    s.sendCtl d k.odev 0x22 j (.saved j s.ownDev d false)

/-- The kernel has written 0 to the state byte of a die whose area was full: it saves again (R410). -/
def State.saveAgain (s : State) (j d : Nat) : State :=
  if (s.jobCtl j).stOf d = 8 && memReadN s.mem (s.saveEntry j + 56 + d) 1 = 0 then s.putState j d (if (s.jobCtl j).isCut then 2 else 4) else s

/-- A die whose contexts of the job are all gone has saved it: a cut once N is known, a switch once the sweep is over. -/
def State.gangTidy (s : State) (j : Nat) : State :=
  [0, 1].foldl (fun s d =>
    let s := s.saveAgain j d
    let k := s.jobCtl j
    let st := k.stOf d
    if (s.liveCtxs j d).isEmpty && ((st = 2 && k.isCut) || (st = 4 && !k.isCut && k.swept)) then s.dieSaved j d else s) s

/-- The state of a job's control as a cut or a switch out begins on a die. -/
def JobCtl.began (k : JobCtl) (d odev odie : Nat) (isCut : Bool) : JobCtl :=
  { (k.setNext d 4096) with odev := odev, odie := odie, isCut := isCut, swept := isCut, gcount := 0
                            ctxRecs := k.ctxRecs.filter (·.1 != d), asides := k.asides.filter (·.die != d)
                            cmdRecs := k.cmdRecs.filter (·.die != d) }

/-- CUT_OPEN: the die stops binding and reports the greatest LAST; without a context it writes its launch and sequence records and counts as
saved (R412). -/
def State.cutOpened (s : State) (m : Nat) : State :=
  s.launchMsg m fun s fl =>
    match fl.pkt.ctl with
    | .cutOpen j d odev odie =>
      let s := (s.dropFlight m).putState j d 1
      let s := s.modJobCtl j fun k => k.began d odev odie true
      let live := s.liveCtxs j d
      match (if live.isEmpty then s.saveRest j d else none) with
      | some s => (s.putState j d 5).sendCtl d odev 0x22 j (.cutReport j s.ownDev d none)
      | none =>
        let last := (live.map fun n => let c := s.ctxAt n; if c.cutPassed then c.cutLast else 0).foldl max 0
        s.sendCtl d odev 0x22 j (.cutReport j s.ownDev d (some last))
    | _ => s

/-- Every die of every member has an entry. -/
def allDies (members : List Nat) (l : List (Nat × Nat)) : Bool := members.all fun dev => l.contains (dev, 0) && l.contains (dev, 1)

/-- The origin sets JSTATE 5 once every die has saved the job. -/
def State.originTidy (s : State) (j : Nat) : State :=
  let k := s.jobCtl j
  if k.origin.isSome && allDies k.members k.saved then
    (s.putJstate j 5).modJobCtl j fun k => { k with origin := none, saved := [], reports := [] }
  else s

/-- CUT_REPORT: with the last report N is the greatest, and goes to every die that has contexts (R412). -/
def State.cutReported (s : State) (m : Nat) : State :=
  s.launchMsg m fun s fl =>
    match fl.pkt.ctl with
    | .cutReport j dev d last =>
      let s := s.dropFlight m
      let k := s.jobCtl j
      let k := { k with reports := k.reports ++ [(dev, d, last)], saved := if last.isNone then k.saved ++ [(dev, d)] else k.saved }
      let s := s.setJobCtl k
      if !k.origin.isSome || !allDies k.members (k.reports.map fun r => (r.1, r.2.1)) then s
      else
        let n := (k.reports.filterMap fun r => r.2.2).foldl max 0
        let s := s.putEntry j 60 2 n
        let s := (k.reports.filter fun r => r.2.2.isSome).foldl (fun s r => s.sendCtl k.odie r.1 0x22 j (.cutTarget j r.2.1 n)) s
        s.originTidy j
    | _ => s

/-- CUT_TARGET: the cut is pending in every bound context of the job (R256, R412). -/
def State.cutTargeted (s : State) (m : Nat) : State :=
  s.launchMsg m fun s fl =>
    match fl.pkt.ctl with
    | .cutTarget j d n =>
      let s := (s.dropFlight m).putState j d 2
      let s := (s.liveCtxs j d).foldl (fun s i => s.modCtx i fun c =>
        { c.setCr crCutreq ((c.cr[crCutreq] &&& 0x1FFF0000#64) ||| wordOfNat (4096 + n % 4096)) with pendingSince := s.now }) s
      s.gangTidy j
    | _ => s

/-- CUT_TIME_LIMIT: 2^20 cycles after PENDING rose the context is frozen in full (R412); a return from a trap completes first
(R427). -/
def State.cutLimit (s : State) (n : Nat) : State :=
  let c := s.ctxAt n
  if c.cutPending && !isSeq n && c.pendingSince + 2 ^ 20 ≤ s.now && c.drain != .rft && (c.st = .ready || c.st = .selected || c.st = .stalled) then
    s.fullFreeze n
  else s

/-! The freeze of a switch (R418, R419). -/

/-- The freeze step of the context's job has come (R394). -/
def State.freezeDue (s : State) (n : Nat) : Bool :=
  let c := s.ctxAt n
  let k := s.jobCtl c.job
  let st := k.stOf (dieOf n)
  !isSeq n && (st = 3 || st = 4) && k.step.ule s.step64 && c.drain != .rft && (c.st = .ready || c.st = .selected || c.st = .stalled)

/-- The places whose sweep a fence or a link that is not up completes, in the order of R419. -/
def sweepPlaces : List Place := (upTo 16).map Place.port ++ [.bridge 0, .bridge 1]

/-- The packets of a job at a place, channel by channel, oldest first. -/
def State.packetsAt (s : State) (j : Nat) (f : Flight → Bool) : List Flight :=
  let l := s.fab.flights.filter fun g => g.pkt.jid = j && g.pkt.cls != 3 && f g
  (upTo 64).flatMap fun ch => l.filter fun g => g.pkt.chan = ch

/-- The sweep of a place is complete: the job's packets there are kept for the galley (R419). -/
def State.sweepDone (s : State) (j : Nat) (pl : Place) : State :=
  let l := s.packetsAt j fun g => g.loc.place = some pl
  let s := l.foldl (fun s g => s.dropFlight g.id) s
  s.modJobCtl j fun k => { k with kept := k.kept ++ l, sweeps := k.sweeps.map fun w => if w.place = pl then { w with finished := true } else w }

/-- SWITCH_FREEZE: at step T the die stops the job and sends its fences (R418). -/
def State.switchFreeze (s : State) (d j : Nat) : State :=
  let k := s.jobCtl j
  if k.stOf d != 3 || s.step64.ult k.step then s
  else
    let s := (s.liveCtxs j d).foldl (fun s n => if s.freezeDue n then s.fullFreeze n else s) s
    let s := s.putState j d 4
    let first := k.sweeps.isEmpty
    let s := if first then s.modJobCtl j fun k => { k with frozen := true, since := s.now, swept := false, kept := []
                                                           sweeps := sweepPlaces.map fun p => { place := p } } else s
    let s := if first then (upTo 16).foldl (fun s i =>
      if (s.fab.port i).st = .down || (s.fab.port i).st = .retraining then s.sweepDone j (.port i) else s) s else s
    (upTo 8).foldl (fun s i =>
      let p := 8 * d + i
      if (s.fab.port p).st = .up then s.sendOn p 0x21 (.fence j) j else s) s

/-- Both dies of the device have frozen the job. -/
def State.frozenHere (s : State) (j : Nat) : Bool := let k := s.jobCtl j; k.st0 = 4 && k.st1 = 4

def State.sweeping (s : State) (j : Nat) (pl : Place) : Bool :=
  (s.jobCtl j).frozen && (s.jobCtl j).sweeps.any fun w => w.place = pl && !w.finished

/-- SWEEP_FENCE: the fence of a port has arrived at the head of its channel (R376), or both dies have frozen and nothing more enters the
bridge. -/
def State.sweepFence (s : State) (j : Nat) (pl : Place) : State :=
  match pl with
  | .port p =>
    match s.fab.flights.find? fun g => g.loc = .ingress p && g.pkt.op = 0x21 && g.pkt.ctl = .fence j with
    | some g => if !s.isHead g then s else if s.sweeping j pl then (s.dropFlight g.id).sweepDone j pl else if (s.jobCtl j).busy then s else s.dropFlight g.id
    | none => s
  | .bridge _ => if s.sweeping j pl && s.frozenHere j then s.sweepDone j pl else s
  | .localq _ => s

/-- SWEEP_TIMEOUT: no fence within 2^FTMO.LOG2 cycles. -/
def State.sweepTimeout (s : State) (j : Nat) (pl : Place) : State :=
  if s.sweeping j pl && (s.jobCtl j).since + s.timeout ≤ s.now then s.sweepDone j pl else s

/-- The galley of a job (R409, R420). -/
def State.galleyBase (s : State) (j : Nat) : Nat := (s.peek (s.saveEntry j + 24)).toNat
def State.galleyCap (s : State) (j : Nat) : Nat := memReadN s.mem (s.saveEntry j + 32) 4

/-- LOCAL_SWEEP_COMPLETE, once the memory system holds no request of the job: the local queues and the requests ended at their targets come last, and the galley is written (R419,
R420). -/
def State.localSweep (s : State) (j : Nat) : State :=
  let k := s.jobCtl j
  if !(k.frozen && !k.swept && !k.isCut && s.frozenHere j && k.sweeps.all (·.finished)) ||
      s.fab.flights.any (fun g => g.pkt.jid = j && g.ack.isSome) then s
  else
    let late := (sweepPlaces.flatMap fun p => k.kept.filter fun g => g.loc.place = some p) ++
      s.packetsAt j (fun g => g.loc = .localq 0) ++ s.packetsAt j (fun g => g.loc = .localq 1) ++
      s.packetsAt j fun g => match g.loc with | .held _ | .parked _ _ => true | _ => false
    let s := late.foldl (fun s g => s.dropFlight g.id) s
    if s.galleyCap j < late.length then s.jobLost j
    else
      let base := s.galleyBase j
      let s := if late.isEmpty && base = 0 then s else
        s.putBytes base 64 (late.length + j <<< 64 + s.ownDev <<< 80 + k.step.toNat <<< 128)
      let s := late.zipIdx.foldl (fun s g => { s with mem := memWriteBytes s.mem (base + 64 + 384 * g.2) (galleyRecord s g.1) }) s
      (s.modJobCtl j fun k => { k with swept := true, kept := [], gcount := late.length }).gangTidy j

/-! Saving (R415, R416). -/

/-- What a frozen context's accepted commands have still to do before its record may be written (R412, R414, R418). -/
def State.settled (s : State) (n : Nat) : Bool :=
  let k := s.jobCtl (s.ctxAt n).job
  s.cmds.all fun c => c.agent != n || (match c.kind with
    | .slot =>
      (match c.st with
        | .parked _ => true
        | .queued => if isMatrix c.ins then !matrixReady s c else (isE c.ins && !k.isCut) || !c.tokensFree || fenceBlocks s c
        | .held => !k.isCut || (match c.ins with | .lnch _ _ _ _ _ => true | _ => false)
        | .running => !k.isCut && isE c.ins
        | _ => false)
    | .writeback _ _ _ => (match c.st with | .parked _ => true | .running => !k.isCut | _ => false)
    | _ => true)
where
  isE (i : Instr) : Bool := cls i = .e

/-- A save takes a request of a command away: its tag is free again, its generation as it stands (R393, R422). -/
def State.takeReq (s : State) (r : Req) : State :=
  (s.modFab fun f => { f with reqs := f.reqs.filter (·.id != r.id) }).returnTag r.die r.tag

/-- CONTEXT_SAVE: a stopped context writes its record, in a switch once the sweep is over (R418), and becomes Free; an area that is full leaves
it frozen in place (R410, R415, R473). -/
def State.saveCtx (s : State) (n : Nat) : State :=
  let c := s.ctxAt n
  let j := c.job
  let d := dieOf n
  let s := if c.st = .frozen then s.saveAgain j d else s
  let k := s.jobCtl j
  if c.st != .frozen || !(k.stOf d = 2 || k.stOf d = 4) || !(k.isCut || k.swept) || !s.settled n then s
  else
    let s := s.flushTo n .dev
    let base := s.saveArea j d
    let task := c.task.bind s.findTask
    let idx := (task.bind fun t => (s.sharesOf j d).findIdx? fun h => h.id = t.share).getD 0xFFFF
    let (m, stop) := ctxRecord s n idx (base + k.nextOf d)
    if base = 0 || base + s.saveSize j d < stop || !installed base (stop - base) then s.putState j d 8
    else
      let rec_ := k.recsOf d
      let taken := s.cmds.filter fun x => x.agent = n && (match x.kind with | .slot | .writeback _ _ _ => true | _ => false)
      let recs := taken.map fun x => { die := d, recNo := rec_, cmd := x, reqs := s.fab.reqs.filter (·.cmd = x.id) : CmdRec }
      let s := recs.foldl (fun s r => r.reqs.foldl (fun s q => s.takeReq q) s) { s with mem := m }
      let s := taken.foldl (fun s x => s.dropCmd x.id) s
      let aside := { getAside m (base + k.nextOf d) d rec_ with
        held := c.held ++ heldAccesses c.frames 0 c.acc, pulled := c.pulled ++ c.pulledNow, sn := c.sn, window := c.window }
      let s := s.modJobCtl j fun k =>
        { k.setNext d (stop - base) with ctxRecs := k.ctxRecs ++ [(d, rec_, n)], asides := k.asides ++ [aside], cmdRecs := k.cmdRecs ++ recs }
      let s := s.putDirectory j d 0 0 0
      let s := match c.task with
        | some t => { s.dropRegions t with tasks := s.tasks.filter (·.id != t) }
        | none => s
      ((s.freeCtx n).leaveVerify (coreOf n)).gangTidy j

/-- SAVE_COMPLETE_REPORT: a die has saved the job, or restored it (R412, R418, R423). -/
def State.saveReported (s : State) (m : Nat) : State :=
  s.launchMsg m fun s fl =>
    match fl.pkt.ctl with
    | .saved j dev d restored =>
      let s := s.dropFlight m
      if restored then s.modJobCtl j fun k => { k with back := k.back ++ [(dev, d)] }
      else (s.modJobCtl j fun k => { k with saved := k.saved ++ [(dev, d)] }).originTidy j
    | _ => s

/-! Restoring (R422, R473). -/

/-- What a record leaves to be kept beside it: the accesses that stayed in the memory path and the numbers of the others, which only the
device that saved it still knows (log entry 12). -/
def State.asideOf (s : State) (j d i base : Nat) : Aside :=
  let a := getAside s.mem base d i
  match (if s.ownArea j d then (s.jobCtl j).asides.find? fun a => a.die = d && a.recNo = i else none) with
  | some t => { a with held := t.held, pulled := t.pulled, sn := t.sn, window := t.window }
  | none => a

/-- A saved context as it goes on at context n: what its record holds, the accesses that stayed, replay entries to issue again (R423). -/
def restoredCtx (b : Back) (a : Aside) (task : Nat) (grp : Option Nat) (sn : Nat) : Ctx :=
  let c0 := b.ctx
  let here := fun (lvl : Nat) => lvl = c0.frames
  let c := { c0 with task := some task, grp := grp, held := a.held.filter fun h => !here h.1, pulled := a.pulled.filter fun p => !here p.lvl
                     budget := a.budget, mstat := a.mstat, drain := if b.kind = 3 then .tend else a.drain, drainSlot := a.drainSlot
                     drainLen := a.drainLen, stepover := a.stepover, steps := a.steps, halts := a.halts, passed := a.passed
                     satisfied := a.satisfied, repOn := a.repOn, repNext := a.repNext, vextBad := a.vextBad, window := a.window
                     sn := max sn a.sn }
  reissue (a.held.filter fun h => here h.1) (a.pulled.filter fun p => here p.lvl) 0 b.replays c

/-- Put the saved context of record i back: its regions, its frames, its task, the context itself, frozen; none while its core has no room
(R422, R473). -/
def State.putBack (s : State) (j d i : Nat) (b : Back) : Option State :=
  let core := b.ctxid / 4
  match (s.sharesOf j d)[b.launch]?, (coreCtxs core).find? fun n => s.freeAndUnreserved n && s.coreServes core j with
  | some h, some n =>
    if !placesFit (s.regionsFor core j) (b.regions.map fun r => (r.1.base, r.1.size)) || core / 144 != d || !s.verifyFits core j h.hdr.verify then none
    else
      let a := s.asideOf j d i b.base
      let s := s.newJob core j
      let id := s.nextId
      let tiles := b.regions.filterMap fun r => r.1.tile.map fun t =>
        let td := h.hdr.tiles[t]?
        ({ desc := t, core := core, off := r.1.base, size := r.1.size, back := r.1.back, dir := (td.map (·.dir)).getD 0
           fill := (td.map (·.fill)).getD 0, st := .bound, stale := true } : Tile)
      let t : Task := { id := id, share := h.id, job := j, index := b.ctx.cr[crTaskid].toNat, phase := b.ctx.cr[crPhase].toNat, first := b.first
                        gsize := b.gsize, coop := h.hdr.coop, ltag := h.ltag, ctx := n, st := .bound, since := s.now, tiles := tiles
                        guard := b.guard, bars := a.bars }
      let s := if h.ltag.isSome then s.enterVerify core else s
      let s := { s with tasks := s.tasks ++ [t], nextId := id + 1 }
      let s := b.regions.foldl (fun s r =>
        { s.modCore core (fun q => { q with regions := q.regions ++ [{ r.1 with owner := id }], kept := q.kept.filter fun e => !regionClash e.base e.size r.1 }) with
          mem := copyCells s.mem r.2 r.1.size s.mem (scrKey (core * 2 ^ 22 + r.1.base)) }) s
      let s := b.frames.foldl (fun s f =>
        let dst := s.frameBase n f.1
        { s with mem := copyCells s.mem (f.2.1 + 0x3000) (2304 * f.2.2) (copyCells s.mem f.2.1 0x3000 (memClear s.mem dst (dst + 0x20000)) dst) (dst + 0x3000) }) s
      some ((s.setCtx n (restoredCtx b a id t.group (s.ctxAt n).sn)).modJobCtl j fun k => { k with ctxRecs := k.ctxRecs ++ [(d, i, n)] })
  | _, _ => none

/-- A context record is bound: with its whole group, or alone (R422). -/
def State.isBack (s : State) (j d i : Nat) : Bool := (s.jobCtl j).ctxRecs.any fun q => q.1 = d && q.2.1 = i
def State.bindRecord (j d : Nat) (all : List (Nat × Back)) (s : State) (r : Nat × Back) : State :=
  if s.isBack j d r.1 then s
  else
    let team := if r.2.gsize ≤ 1 then [r] else all.filter fun q => q.2.launch = r.2.launch && q.2.first = r.2.first && 1 < q.2.gsize
    (team.foldl (fun (a : Option State) q => a.bind fun s => s.putBack j d q.1 q.2) (some s)).getD s

/-- Load a launch record: the share, and the launch where the die is its origin, with the completion write that it owes (R417, R422). -/
def State.loadLaunch (j d : Nat) (s : State) (w : List Nat) : State :=
  let (sh, r) := takeWords w
  let (lo, _) := takeWords r
  let s := if sh.isEmpty then s else
    let h := shareFrom s.nextId d s.now sh
    { s with shares := s.shares ++ [h], nextId := max (s.nextId + 1) (h.key.id + 1) }
  if lo.isEmpty then s
  else
    let l := originFrom s.now lo
    let s := { s with nextId := max s.nextId (l.id + 1) }
    if nth lo 10 = 1 then
      let c : Cmd := { id := s.nextId, kind := .detach, ins := .lnch 0 0 0 0 0, agent := nth lo 9, job := j, root := s.jobRoot j, st := .held, startAt := s.now }
      { s with launches := s.launches ++ [{ l with cmd := c.id }], cmds := s.cmds ++ [c], nextId := s.nextId + 1 }
    else if s.ownArea j d then { s with launches := s.launches ++ [l] }
    else { s with launches := s.launches ++ [{ l with cmd := s.nextId }], nextId := s.nextId + 1 }

/-- The word records from o on, of which the last is the sequence record. -/
def readWordRecs (m : Mem) (base : Nat) : Nat → Nat → List (List Nat)
  | 0, o => [(getWords m (base + o)).1]
  | k + 1, o => let r := getWords m (base + o); r.1 :: readWordRecs m base k (r.2 - base)

/-- The launch and sequence records of a die, which come first (R422). -/
def State.loadRecords (s : State) (j d : Nat) : State :=
  let base := s.saveArea j d
  let n := memReadN s.mem (base + 16) 8
  let at_ := memReadN s.mem (base + 48) 8
  let s := if base = 0 || at_ = 0 then s else
    let recs := readWordRecs s.mem base (min n 4096) at_
    let (nums, r) := takeWords (recs.getLastD [])
    let (homes, _) := takeWords r
    let s := (recs.dropLast).foldl (State.loadLaunch j d) s
    s.modFab fun f => { f with nums := (f.nums.filter fun n => !(n.job = j && n.die = d)) ++ numsFrom j d nums
                               homes := (f.homes.filter fun h => !(h.job = j && h.die = d)) ++ homesFrom j d homes }
  s.modJobCtl j fun k => if d = 0 then { k with loaded0 := true } else { k with loaded1 := true }

/-- Take a tag that nothing uses; none when it is in use or in quarantine. -/
def TagPool.claim (t : TagPool) (n gen : Nat) : Option TagPool :=
  if t.fresh ≤ n && n < 32768 then
    some { t with free := t.free ++ (upTo (n - t.fresh)).map (· + t.fresh), fresh := n + 1, gens := mapSet t.gens n gen }
  else if t.free.contains n then some { t with free := t.free.erase n, gens := mapSet t.gens n gen }
  else none

/-- A request of a command as it was sent, made again (R422): its bytes are read again at the local end. -/
def rebuildPacket (s : State) (c : Cmd) (seq cls off : Nat) : State × Option Packet :=
  let jd := (c.parAt 2).bits 32 12
  let len := (c.parAt 2).bits 0 32
  let ra := c.parAt 1 + wordOfNat off
  let n := packetLen ra (len - off)
  let base : Packet := { dest := s.mapDev c.job jd, src := s.jobDevFor c, die := dieOf c.agent, cls := cls, jid := c.job, op := 2, seq := seq, tgt := some jd
                         kern := c.kernel, len := n, va := ra }
  match c.ins with
  | .csg _ _ _ _ _ _ =>
    (s, some { base with dest := s.mapDev c.job ((c.parAt 1).bits 32 12), tgt := some ((c.parAt 1).bits 32 12), op := 4, len := 0, va := c.parAt 0
                         val := wordOfNat ((c.parAt 1).bits 0 32) })
  | .cprRead _ _ _ _ _ => (s, some base)
  | i =>
    match s.engRead c 1 c.unit (c.parAt 0 + wordOfNat off) n true with
    | (s, .ok p) =>
      (s, some { base with op := if opOf i = 0x6F then 3 else 1, arg := if opOf i = 0x6F then (c.parAt 3).bits 0 8 else 0
                           data := bytesLE p.val n })
    | (s, _) => (s, none)

/-- Restore an outstanding request, with its old tag when that is free, and otherwise with a new one that every member learns of. -/
def State.putReq (s : State) (c : Cmd) (o : Nat) : Option State :=
  let v := memReadN s.mem o 16
  let seq := fld v 0 4
  let tag := fld v 4 2
  let gen := fld v 6 1 % 16
  let die := dieOf c.agent
  let (s, pk) := rebuildPacket s c seq (fld v 7 1) (fld v 8 8)
  match pk with
  | none => none
  | some p =>
    let pool := s.fab.pool die
    let pick := match pool.claim (tag % 2 ^ 15) gen with
      | some t => some (t, tag % 2 ^ 15, gen)
      | none => pool.front.map fun n => (pool.takeFront, n, pool.gen n)
    pick.map fun (t, n, g) =>
      let p := { p with tag := die * 2 ^ 15 + n, gen := g }
      let r : Req := { id := s.fab.nextId, die := die, tag := n, gen := g, cmd := c.id, off := fld v 8 8, began := s.now, sent := s.now, pkt := p }
      let s := s.modFab fun f => { f.setPool die t with reqs := f.reqs ++ [r], nextId := f.nextId + 1 }
      if n = tag % 2 ^ 15 && g = gen && tag / 2 ^ 15 = die then s
      else (s.members c.job).foldl (fun s dev => s.sendCtl die dev 0x22 c.job (.tagChange c.job p.src die tag gen p.tag g)) s

/-- How a restored command goes on: unstarted, at its progress, or, where it was parked, faulting again at its access, so that it parks with a
new record and a new handle (R310, R416, R423); of one that another device saved the access is not known, and it goes on from DONE. -/
def restoredSt (st : Nat) (held : Bool) (typed : Option CmdSt) : CmdSt :=
  if st = 0 then .queued
  else if held then .held
  else match (if st = 2 then typed else none) with
    | some (.parked p) => .faulting p.va p.cause p.kind
    | some (.faulting va cause kind) => .faulting va cause kind
    | _ => .running

/-- Restore command record i at o for its context, its rows empty again (R414); where it ends. -/
def putCmdBack (j d i o : Nat) (s : State) : Option (State × Nat) :=
  let v := memReadN s.mem o 98
  let k := s.jobCtl j
  let word : SlotWord := BitVec.ofNat 32 (fld v 0 1 * 2 ^ 24 + fld v 4 1 * 2 ^ 14 + fld v 5 1 * 2 ^ 10 + fld v 6 1 * 2 ^ 6 + fld v 7 1 * 4 + fld v 1 1)
  let typed := if s.ownArea j d then (k.cmdRecs.filter (·.die = d))[i]? else none
  match (k.ctxRecs.find? fun r => r.1 = d && r.2.1 = fld v 2 2), (match typed with | some t => some t.cmd.ins | none => (decode word).toOption) with
  | some r, some ins =>
    let n := r.2.2
    let x := s.ctxAt n
    let base : Cmd := match typed with
      | some t => t.cmd
      | none => { id := 0, ins := ins, agent := n, pcw := x.cr[crPcw], prov := x.cr[crProv], kernel := x.kernel, hold := x.hold
                  key := x.cr[crRngk], ctr := x.counter, sn := x.sn, lvl := x.frames }
    let kind := match base.kind, x.task with
      | .writeback _ _ b, some t => CmdKind.writeback t (coreOf n) b
      | q, _ => q
    let launch := s.launches.find? fun (l : Launch) => l.job = j && l.die = d && l.pkt = wordOfNat (fld v 16 8) && (match ins with | .lnch _ _ _ _ _ => true | _ => false)
    let c : Cmd := { base with
      id := s.nextId, kind := kind, agent := n, job := j, root := x.root, task := x.task
      par := (upTo 9).map fun q => wordOfNat (fld v (16 + 8 * q) 8)
      kd := BitVec.ofNat 4 (fld v 4 1), ka := BitVec.ofNat 4 (fld v 5 1), kb := BitVec.ofNat 4 (fld v 6 1), kc := BitVec.ofNat 4 (fld v 7 1)
      st := restoredSt (fld v 8 1) launch.isSome (typed.map (·.cmd.st))
      done := fld v 88 8, startAt := s.now, handle := none }
    let s := { s with cmds := s.cmds ++ [c], nextId := s.nextId + 1
                      launches := s.launches.map fun (l : Launch) => if some l.id = launch.map (fun (x : Launch) => x.id) then { l with cmd := c.id } else l }
    let s := s.modCtx n fun x =>
      let x := x.emptyRows (rowsWritten c)
      if c.kd = 0 then x else x.setK c.kd { x.getK c.kd with busy := true, left := (x.getK c.kd).left + 1 }
    let nout := fld v 96 2
    ((upTo nout).foldl (fun (a : Option State) q => a.bind fun s => s.putReq c (o + 256 + 16 * q)) (some s)).map fun s =>
      (s, pageUp (o + 256 + 16 * nout))
  | _, _ => none

def putCmdsBack (j d base : Nat) : Nat → Nat → Nat → State → Option State
  | 0, _, _, s => some s
  | k + 1, i, o, s => (putCmdBack j d i (base + o) s).bind fun r => putCmdsBack j d base k (i + 1) (r.2 - base) r.1

def JobCtl.restoredOf (k : JobCtl) (d : Nat) : Bool := if d = 0 then k.restored0 else k.restored1
def JobCtl.loadedOf (k : JobCtl) (d : Nat) : Bool := if d = 0 then k.loaded0 else k.loaded1

/-- Restore what the records of a die hold, each context record as soon as its core has room, then the commands (R422). -/
def State.restoreDie (s : State) (j d : Nat) : State :=
  let k := s.jobCtl j
  if k.stOf d != 6 || k.restoredOf d then s
  else
    let s := if k.loadedOf d then s else s.loadRecords j d
    let base := s.saveArea j d
    let dir := if base = 0 then 0 else memReadN s.mem base 16
    match readRecords s.mem base (min 576 (fld dir 0 8)) 0 4096 with
    | none => s.jobLost j
    | some (rs, o) =>
      if rs.any (fun r => ((s.sharesOf j d)[r.2.launch]?).isNone) then s.jobLost j
      else
        let s := rs.foldl (State.bindRecord j d rs) s
        if !rs.all (fun r => s.isBack j d r.1) then s
        else match putCmdsBack j d base (fld dir 8 8) 0 o s with
          | none => s.jobLost j
          | some s =>
            let s := s.modJobCtl j fun k =>
              { (if d = 0 then { k with restored0 := true } else { k with restored1 := true }) with
                asides := k.asides.filter (·.die != d), cmdRecs := k.cmdRecs.filter (·.die != d) }
            (s.members j).foldl (fun s dev => s.sendCtl d dev 0x22 j (.saved j s.ownDev d true)) s

/-- TASK_PLACEMENT: saves that may go on, and restores that wait for room on the die, which have priority 7, come before new tasks (R410, R422). -/
def State.gangPlacement (s : State) (die : Nat) : State :=
  (s.jobs.map (·.job)).foldl (fun s j => (s.gangTidy j).restoreDie j die) s

/-- SWITCH_ACCEPTANCE: a die learns the freeze step of a switch out, or begins the restore of a switch in (R418, R422); before that a member
tells the origin whether the galleys it is to inject are the job's, and the origin keeps the answer (R421). -/
def State.switchAccepted (s : State) (m : Nat) : State :=
  s.launchMsg m fun s fl =>
    match fl.pkt.ctl with
    | .switchOut j d t =>
      (s.dropFlight m).putState j d 3 |>.modJobCtl j fun k => { k.began d fl.pkt.src fl.pkt.die false with sweeps := [], step := t }
    | .switchIn j d resume dmap galleys =>
      let s := ((s.dropFlight m).putState j d 6).modJobCtl j fun k =>
        { k with odev := fl.pkt.src, odie := fl.pkt.die, isCut := false, step := resume, galleys := galleys, frozen := true
                 tagMap := if k.stOf (1 - d) = 6 then k.tagMap else [], ctxRecs := k.ctxRecs.filter (·.1 != d)
                 restored0 := k.restored0 && d != 0, restored1 := k.restored1 && d != 1
                 loaded0 := k.loaded0 && d != 0, loaded1 := k.loaded1 && d != 1 }
      let s := if dmap = 0 then s else match s.walk (s.jobRoot j) dmap.toNat with
        | .ok (leaf, size) => s.putEntry j 40 8 (pteFrame leaf + dmap.toNat % size)
        | .error _ => s.jobLost j
      s.restoreDie j d
    | .askGalley j odev _ cmd galleys =>
      (s.dropFlight m).sendCtl fl.loc.die odev 0x22 j (.galleyIs j s.ownDev cmd (galleys.all fun a => memReadN s.mem (a.toNat + 8) 2 = j))
    | .galleyIs _ dev cmd ok =>
      match s.findCmd cmd with
      | some c => if c.kind = .gsw && c.st = .held then (s.dropFlight m).putCmd { c with rows := c.rows ++ [(dev, ofBoolNat ok, 0)] } else s.dropFlight m
      | none => s.dropFlight m
    | _ => s

/-- TAG_CHANGE: a member learns of a tag that a restored request has changed (R422). -/
def State.tagChanged (s : State) (m : Nat) : State :=
  s.launchMsg m fun s fl =>
    match fl.pkt.ctl with
    | .tagChange j dev _ ot og nt ng => (s.dropFlight m).modJobCtl j fun k => { k with tagMap := k.tagMap ++ [(dev, ot, og, nt, ng)] }
    | _ => s

/-! Resuming (R423). -/

/-- The die at whose local queue a swept packet is injected again. -/
def portDie (p : Nat) : Nat := if p < 16 then p / 8 else if p = 17 || p = 19 then 1 else 0

/-- Re-inject record i of a galley. -/
def State.reinject (s : State) (j base i : Nat) : State :=
  let a := base + 64 + 384 * i
  let p := Packet.ofBytes ((upTo 320).map fun q => memGet s.mem (a + 64 + q))
  let tgt := memReadN s.mem (a + 4) 2
  let dest := s.mapDev j tgt
  let jd := s.jobDevOf j dest
  let p := match (s.jobCtl j).tagMap.find? fun t => p.cls = 1 && t.1 = jd && t.2.1 = p.tag && t.2.2.1 = p.gen with
    | some t => { p with tag := t.2.2.2.1, gen := t.2.2.2.2 }
    | none => p
  s.modFab fun f => f.addFlight (.localq (portDie (memReadN s.mem a 1))) { p with dest := dest, hop := 0, birth := s.step64, tgt := some tgt } true

/-- A restored context goes on, with the notice of how it was stopped (R407, R423). -/
def unfreeze (c : Ctx) : Ctx :=
  { c with st := .ready, notice := some (if c.frozenKind = 1 then .cut else .freeze), frozenKind := 0 }

/-- SWITCH_RESUME: from the resume step on, once every die has restored, the job runs again on this device (R423), its cores' slabs to be
built afresh (R299). -/
def State.switchResume (s : State) (j : Nat) : State :=
  let k := s.jobCtl j
  if !(k.st0 = 6 && k.st1 = 6 && k.restored0 && k.restored1 && k.step.ule s.step64 && allDies (s.members j) k.back) then s
  else
    let s := ((s.setResident j true).putState j 0 0).putState j 1 0
    let s := if k.origin.isSome then s.putJstate j 0 else s
    let s := (k.galleys.filter fun g => g.2 = s.ownDev).foldl (fun s g =>
      (upTo (s.peek g.1).toNat).foldl (fun s i => s.reinject j g.1 i) s) s
    let s := (k.ctxRecs.map (·.2.2)).foldl (fun s n =>
      if (s.ctxAt n).st = .frozen then (s.modCtx n unfreeze).modCore (coreOf n) CoreSt.noSlabs else s) s
    let s := { s with cmds := s.cmds.map fun (c : Cmd) => if c.job = j then { c with startAt := s.now } else c }
    let s := s.modFab fun f => { f with reqs := f.reqs.map fun r => if r.pkt.jid = j then { r with began := s.now, sent := s.now } else r }
    s.modJobCtl j fun k =>
      { k with frozen := false, origin := none, sweeps := [], swept := false, back := [], ctxRecs := [], resumed := some k.step
               restored0 := false, restored1 := false, galleys := [] }

/-! GSW (R262, R421). -/

/-- The galleys that a re-injection table names. -/
def tableGalleys (n v : Nat) : List (Nat × Nat) := (upTo n).map fun i => (fld v (32 * i) 8, fld v (32 * i + 8) 2)

/-- A descriptor is well formed. -/
def gswOk (v : Nat) : Bool :=
  fld v 10 1 ≤ 1 && fld v 9 1 < 16 && fld v 12 4 = 0 && fld v 32 32 = 0 && (fld v 10 1 = 1 || (fld v 16 8 = 0 && fld v 24 8 = 0))

/-- The devices of a job under a map at a virtual address, or under the one in force. -/
def State.newMembers (s : State) (j : Nat) (map : Word) : List Nat :=
  if map = 0 then s.members j
  else match s.walk (s.jobRoot j) map.toNat with
    | .ok (leaf, size) =>
      let a := pteFrame leaf + map.toNat % size
      let memb := (s.peek (s.saveEntry j + 48)).toNat
      let mask := if memb = 0 then 2 ^ s.ownJobDev j else memReadN s.mem memb 512
      (((upTo 4096).filter mask.testBit).map fun jd => memReadN s.mem (a + 2 * jd) 2 % 4096).eraseDups
    | .error _ => []

/-- Write STATUS as a dev-scope release, and the request is over; a fault on the write parks it. -/
def gswAnswer (s : State) (c : Cmd) (st : Nat) (act : State → State) : State :=
  let unit := 72 + dieOf c.agent
  match (s.flushTo c.agent .dev).engStore c 0 unit (c.parAt 0 + 11) 1 st false false with
  | (s, .flt va cause kind) => s.faultCmd c va cause kind
  | (s, _) => (act (s.dropCmd c.id)).settleEng c.agent

/-- Answer a switch out (R262, R263, R418). -/
def gswOut (s : State) (c : Cmd) (j : Nat) (t : Word) : State :=
  let k := s.jobCtl j
  if !s.savesOn || !s.resident j then gswAnswer s c 2 id
  else if k.busy then gswAnswer s c 3 id
  else if t.toNat < s.step64.toNat + 64 then gswAnswer s c 1 id
  else gswAnswer s c 0 fun s =>
    let d := dieOf c.agent
    let m := s.members j
    let s := (s.putJstate j 3).modJobCtl j fun k => { k with origin := some d, odev := s.ownDev, odie := d, members := m, saved := [], isCut := false }
    s.toDies d j m fun d => .switchOut j d t

/-- Answer a switch in: 4, 2, 3 and 1 in that order, so that 3 is for a job whose switch has still to end elsewhere (R262, R421). -/
def gswIn (s : State) (c : Cmd) (j : Nat) (resume map : Word) (galleys : List (Nat × Nat)) : State :=
  let k := s.jobCtl j
  let m := s.newMembers j map
  if !s.savesOn || !(k.st0 = 5 && k.st1 = 5) then gswAnswer s c 2 id
  else if k.busy then gswAnswer s c 3 id
  else if resume.toNat < s.step64.toNat + 64 then gswAnswer s c 1 id
  else gswAnswer s c 0 fun s =>
    let d := dieOf c.agent
    let s := (s.putJstate j 6).modJobCtl j fun k => { k with origin := some d, members := m, saved := [] }
    s.toDies d j m fun d => .switchIn j d resume map galleys

/-- A switch in whose other members have been asked about their galleys: its resume step, its map, its galleys, in the words that its
command keeps. -/
def gswKept (c : Cmd) : Word × Word × List (Nat × Nat) :=
  (c.parAt 1, c.parAt 2, pairsOf ((c.par.drop 3).map (·.toNat)))

/-- The checks of a switch in that need the other devices: each must answer that the galleys it injects are the job's, within the fabric
timeout (R421; log entry 51). -/
def gswAsk (s : State) (c : Cmd) (j : Nat) (resume map : Word) (galleys : List (Nat × Nat)) : State :=
  let m := s.newMembers j map
  let mine := fun (dev : Nat) => galleys.filter fun g => g.2 = dev
  let own := (mine s.ownDev).all fun g => memReadN s.mem (g.1 + 8) 2 = j
  if m.isEmpty || !m.all s.reaches || galleys.any (fun g => !m.contains g.2) || !own then gswAnswer s c 4 id
  else
    let others := m.filter (· != s.ownDev)
    if others.isEmpty then gswIn s c j resume map galleys
    else
      let d := dieOf c.agent
      let c := { c with st := .held, startAt := s.now, rows := [], aux := j
                        par := [c.parAt 0, resume, map] ++ galleys.flatMap fun g => [wordOfNat g.1, wordOfNat g.2] }
      others.foldl (fun s dev => s.sendCtl d dev 0x22 j (.askGalley j s.ownDev d c.id ((mine dev).map fun g => wordOfNat g.1))) (s.putCmd c)

/-- Every member has answered, or the fabric timeout is over (R421). -/
def gswAnswered (s : State) (c : Cmd) : State :=
  let (resume, map, galleys) := gswKept c
  let others := (s.newMembers c.aux map).filter (· != s.ownDev)
  if c.rows.any (fun r => r.2.1 = 0) || c.startAt + s.timeout ≤ s.now then gswAnswer s c 4 id
  else if others.all fun dev => c.rows.any fun r => r.1 = dev then gswIn s c c.aux resume map galleys
  else s

/-- The sequencer of the issuing die takes a GSW up: it reads the descriptor, and for a switch in the table (R262, R421). -/
def gswStep (s : State) (c : Cmd) : State :=
  let unit := 72 + dieOf c.agent
  match s.engRead c 0 unit (c.parAt 0) 64 false with
  | (s, .flt va cause kind) => s.faultCmd c va cause kind
  | (s, .race _) => s.dropCmd c.id
  | (s, .ok p) =>
    let v := p.val
    let j := fld v 8 2 % 4096
    if p.bad || !gswOk v then gswAnswer s c 4 id
    else if fld v 10 1 = 0 then gswOut s c j (wordOfNat (fld v 0 8))
    else if fld v 16 8 = 0 then gswAsk s c j (wordOfNat (fld v 24 8)) 0 []
    else
      let table := wordOfNat (fld v 16 8)
      match s.engRead c 0 unit table 64 false with
      | (s, .flt va cause kind) => s.faultCmd c va cause kind
      | (s, .race _) => gswAnswer s c 4 id
      | (s, .ok h) =>
        let n := fld h.val 0 8
        if h.bad || 4096 < n || fld h.val 16 48 != 0 then gswAnswer s c 4 id
        else match s.engRead c 0 unit (table + 64) (32 * n) false with
          | (s, .flt va cause kind) => s.faultCmd c va cause kind
          | (s, .race _) => gswAnswer s c 4 id
          | (s, .ok e) =>
            if e.bad || (upTo n).any (fun i => fld e.val (32 * i + 10) 22 != 0) then gswAnswer s c 4 id
            else gswAsk s c j (wordOfNat (fld v 24 8)) (wordOfNat (fld h.val 8 8)) (tableGalleys n e.val)

end Sys2Proof.Machine
end

