-- ==== Sys2Proof/Machine/Bundle.lean ====
section
/-! DEFINITION. What a context does at a bundle boundary (spec/20_traps.md R394, R395): freezes and stops, faults found after issue, notices,
and the issue of the next bundle, whole or one repeat of a REP (spec/03_encoding.md R79, R84, R93, R94); selection, rotation and
stalls (spec/16_scheduling.md R359, R361, spec/04_scalar.md R137). -/

namespace Sys2Proof.Machine

/-! Selection (R13, R14, R359). -/

def ctxOfCore (core i : Nat) : Nat := 4 * core + i

/-- The selected context of a core. -/
def State.selected (s : State) (core : Nat) : Option Nat :=
  ((s.coreAt core).sel).filter fun i => (s.ctxAt (ctxOfCore core i)).st = .selected

/-- The first Ready context of a core in the order that follows the last one. -/
def State.nextReady (s : State) (core : Nat) : Option Nat :=
  ([1, 2, 3, 4].map fun k => ((s.coreAt core).last + k) % 4).find? fun i => (s.ctxAt (ctxOfCore core i)).st = .ready

/-- The selected context has had its 1,024 bundles, and another is Ready. -/
def State.rotationDue (s : State) (core : Nat) : Bool :=
  match s.selected core with
  | some i => 1024 ≤ (s.coreAt core).count && !(s.ctxAt (ctxOfCore core i)).hog && (s.nextReady core).isSome
  | none => false

/-- HOG_ROTATION: the selected context goes back to Ready (R14, R361). -/
def State.rotate (s : State) (core : Nat) : State :=
  if s.rotationDue core then
    match s.selected core with
    | some i => (s.modCtx (ctxOfCore core i) fun c => { c with st := .ready }).modCore core fun k =>
        { k with sel := none, last := i, count := 0 }
    | none => s
  else s

/-- The context may be given the next bundle of its core. -/
def State.mayIssue (s : State) (n : Nat) : Bool :=
  let st := (s.ctxAt n).st
  if isSeq n then st = .ready || st = .selected
  else
    let core := coreOf n
    match s.selected core with
    | some i => i = n % 4 && !s.rotationDue core
    | none => s.nextReady core = some (n % 4)

/-- The context is the selected one. -/
def State.select (s : State) (n : Nat) : State :=
  let s := s.modCtx n fun c => { c with st := .selected }
  if isSeq n || (s.coreAt (coreOf n)).sel = some (n % 4) then s
  else s.modCore (coreOf n) fun k => { k with sel := some (n % 4), count := 0 }

/-! Boundaries (R394). -/

/-- The earliest-issued access that has faulted, once nothing before it has still to be performed: it stands first in the replay queue
(R193, R397). -/
def firstFaulted : List Access → Option Access
  | [] => none
  | a :: t =>
    match a.st with
    | .faulted _ _ _ => some a
    | _ => if isMem a.ins && !staysInPath a.ins && !a.performed then none else firstFaulted t

/-- The trap of a fault found after issue (R193, R255). -/
def faultTrap (c : Ctx) (a : Access) : TrapInfo :=
  match a.st with
  | .faulted cause addr part =>
    { cause := cause, tpc := c.pc, taddr := addr, tinfo := wordOfNat (ofBoolNat part <<< 13 + opOf a.ins <<< 6), imprecise := true
      atTend := c.drain = .tend, access := some a.sn }
  | _ => { cause := .poison, tpc := c.pc }

def Notice.cause : Notice → Cause
  | .cut => .cut | .freeze => .freeze | .latePacket => .latePacket

/-- Events 1 to 4 of R394, the first that applies. -/
def boundary (s : State) (n : Nat) : Option Out :=
  let c := s.ctxAt n
  if s.freezeDue n then some (.next (s.fullFreeze n))
  else if c.stopPoint && c.drain != .rft then some (.next (s.freezeCtx n (if c.quietNow then 1 else if c.drain = .tend then 3 else 2)))
  else match firstFaulted c.acc with
    | some a => some (takeTrap s n (faultTrap c a))
    | none =>
      match c.vextBad.find? fun p => p.1 = c.frames with
      | some p => some (takeTrap (s.modCtx n fun c => { c with vextBad := c.vextBad.erase p }) n
          { cause := .poison, tpc := c.pc, tinfo := issueInfo 0 1 0x3B (regDetail 1 p.2.toNat), imprecise := true, atTend := c.drain = .tend })
      | none =>
        match c.notice with
        | some k =>
          if c.async && c.drain != .rft then
            some (takeTrap (s.modCtx n fun c => { c with notice := none }) n
              { cause := k.cause, tpc := c.pc, isAsync := true, atTend := c.drain = .tend })
          else none
        | none => none

/-! Fetched slots. -/

/-- The slots of fetched words; none for a word that is no instruction. -/
def slotsOf (l : List SlotWord) : List (Option Instr) := l.map fun w => (decode w).toOption

/-- Repeat j of a REP target: its register fields stepped (R93). -/
def stepWord (w : SlotWord) (j ds as bs : Nat) : SlotWord :=
  let f := fun (lo st : Nat) => (w.bits lo 6 + j * st) % 64 * 2 ^ lo
  (w &&& 0xFF00003F#32) ||| BitVec.ofNat 32 (f 18 ds + f 12 as + f 6 bs)

/-- The place of the REP of a bundle, its fields, and its target's word. -/
def findRep : Nat → List SlotWord → Option (Nat × Nat × Nat × Nat × Nat × SlotWord)
  | k, w :: t :: rest =>
    match decode w with
    | .ok (.rep cnt ds as bs) => some (k, cnt.toNat, ds.toNat, as.toNat, bs.toNat, t)
    | _ => findRep (k + 1) (t :: rest)
  | _, _ => none

/-- What the checks of the words alone find, as a trap (R84, steps 2 to 5). -/
def staticTrap (s : State) (n : Nat) (pc : Word) (len : Nat) (skip : Option Nat) (l : List SlotWord) (slots : List (Option Instr)) :
    Option TrapInfo :=
  (staticFault (s.ctxAt n).kernel (isSeq n) skip slots).map fun (p : Cause × Nat) =>
    { cause := p.1, tpc := pc, tinfo := issueInfo p.2 len ((l[p.2]?.map fun (w : SlotWord) => w.bits 24 7).getD 0) 0 }

/-- The words of the bundle at the program counter, or the trap that fetching it takes. The slot count of a fetch fault is open: a free
value stands for it. Where no word has its stop bit, the slot is the eighth (log entry 42). -/
def fetchBundle (s : State) (n : Nat) : State × Except TrapInfo (List SlotWord) :=
  let c := s.ctxAt n
  match fetchFrom n 8 c.pc s with
  | (s, .flt cause va) =>
    let open_ := (Config.freeWord s.free).bits 0 3
    ({ s with free := s.free + 1 },
      .error { cause := cause, tpc := c.pc, taddr := va, tinfo := wordOfNat (((va - c.pc).toNat / 4) % 8 + open_ <<< 3) })
  | (s, .words l) =>
    if (l.getLast?.map stopBit).getD false then (s, .ok l)
    else (s, .error { cause := .illegalBundle, tpc := c.pc
                      tinfo := issueInfo 7 8 ((l[7]?.map fun (w : SlotWord) => w.bits 24 7).getD 0) 0 })

/-! Issue of a bundle. `run` is the effect of a slot of an open bundle. -/

/-- Slots that leave the mode or the context act after the others, which read the state as it stood at issue (R83). -/
def lastToAct : Instr → Bool
  | .sysRft | .sysHalt => true
  | _ => false

def runSlots (run : Instr → State → Out) : List (Instr × Nat) → State → Out
  | [], s => .next s
  | (i, k) :: t, s => andThen (run i { s with iss := { s.iss with slot := k } }) (runSlots run t)

/-- The checks are over: every slot acts, and the bundle is closed. -/
def issueAll (run : Instr → State → Out) (s : State) (l : List Instr) : Out :=
  let z := l.zipIdx
  andThen (runSlots run ((z.filter fun p => !lastToAct p.1) ++ z.filter fun p => lastToAct p.1) s) closeBundle

/-- The words as they issue: the slot that RFT steps over is a NOP (R259). -/
def steppedWords (skip : Option Nat) (words : List SlotWord) : List SlotWord :=
  match skip with
  | some k => words.modify k fun w => w &&& 0x80000000#32
  | none => words

/-- The bundle of several slots at pc. -/
def issueMany (run : Instr → State → Out) (s : State) (n : Nat) (words : List SlotWord) (slots : List (Option Instr)) : Out :=
  let pc := (s.ctxAt n).pc
  let len := words.length
  match staticTrap s n pc len (s.ctxAt n).stepover words slots with
  | some t => takeTrap s n t
  | none =>
    let l := slots.filterMap id
    match judge s n pc len 0 l 0 with
    | (s, .stall) => .next (stallCtx s n)
    | (s, .hold) => .next s
    | (s, .trap t) => takeTrap s n t
    | (s, .go) =>
      let rep := findRep 0 words
      let s := openBundle s pc len 0 0 (rep.map fun r => r.2.1)
      issueAll run { s with iss := { s.iss with repAt := rep.map fun r => r.1 + 1 } } l

/-- Repeat j of the REP in slot k: its target alone, stepped (R93, R94). -/
def issueRepeat (run : Instr → State → Out) (s : State) (n len k cnt j : Nat) (w : SlotWord) : Out :=
  let pc := (s.ctxAt n).pc
  let slots := slotsOf [w]
  match staticTrap s n pc 1 none [w] slots with
  | some t => takeTrap s n t
  | none =>
    let l := slots.filterMap id
    match judge s n pc 1 0 l j with
    | (s, .stall) => .next (stallCtx s n)
    | (s, .hold) => .next s
    | (s, .trap t) => takeTrap s n t
    | (s, .go) =>
      let s := openBundle s pc len (k + 1) j (some (cnt - j))
      andThen (runSlots run (l.map fun i => (i, k + 1)) { s with iss := { s.iss with repAt := some (k + 1) } }) closeBundle

/-- The next bundle of a context, fetched and issued. -/
def issueNext (run : Instr → State → Out) (s : State) (n : Nat) : Out :=
  match fetchBundle s n with
  | (s, .error t) => takeTrap s n t
  | (s, .ok fetched) =>
    let c := s.ctxAt n
    let words := steppedWords c.stepover fetched
    match (if c.repOn && c.repc != 0 then findRep 0 words else none) with
    | some (k, cnt, ds, as, bs, w) =>
      let j := cnt + 1 - c.repc
      issueRepeat run s n words.length k cnt j (stepWord w j ds as bs)
    | none =>
      let s := if c.repOn then s.modCtx n fun c => { c.setCr crRepc 0 with repOn := false } else s
      match slotsOf words with
      | [some i] => run i s
      | slots => issueMany run s n words slots

/-- A chosen context that drains has no bundle to issue: a drained RFT completes, and the core passes over the others, of which one at
TEND or RFT is Stalled and one at HALT stays Selected (R359, R361). -/
def drainTurn (s : State) (n : Nat) : Out :=
  let c := s.ctxAt n
  match c.drain with
  | .rft =>
    if rftReady s n then returnFromTrap (s.modCtx n Ctx.landAll) n c.pc c.drainSlot c.drainLen else .next (stallCtx s n)
  | .halt => .next (s.passOver n)
  | _ => .next (stallCtx s n)

/-- One issue cycle of an agent: what its boundary brings, else its next bundle when the selector gives it the core. -/
def issueStep (run : Instr → State → Out) (s : State) (n : Nat) : Out :=
  let st := (s.ctxAt n).st
  if st = .ready || st = .selected || st = .stalled then
    match boundary s n with
    | some o => o
    | none =>
      if !s.mayIssue n then .next s
      else if (s.ctxAt n).drain = .none then issueNext run { s.select n with cur := n } n
      else drainTurn { s.select n with cur := n } n
  else .next s

/-! Stalled contexts. -/

/-- The slots of the next bundle as they would issue: the whole bundle, or a repeat's target; none when fetching faults or a check of
the words does. -/
def peekSlots (s : State) (n : Nat) : State × Option (List Instr × Nat) :=
  let c := s.ctxAt n
  match fetchBundle s n with
  | (s, .error _) => (s, none)
  | (s, .ok fetched) =>
    let words := steppedWords c.stepover fetched
    let (slots, rep, skip) := match (if c.repOn && c.repc != 0 then findRep 0 words else none) with
      | some (_, cnt, ds, as, bs, w) => let j := cnt + 1 - c.repc; (slotsOf [stepWord w j ds as bs], j, none)
      | none => (slotsOf words, 0, c.stepover)
    if (staticFault c.kernel (isSeq n) skip slots).isSome then (s, none) else (s, some (slots.filterMap id, rep))

/-- A VEXT's register may be filled: two bundles have issued since its row became full (R102), or none can before it is filled, because the
context drains or its next bundle waits for that very register, or for everything (DESIGN CHOICE, log entry 41). -/
def vextDue (s : State) (n : Nat) (a : Access) (d : Reg) : Bool :=
  let c := s.ctxAt n
  a.due = 0 || c.drain != .none || (c.st = .stalled && (match (peekSlots s n).2 with
    | some (l, _) => l.any fun i => i = .sysRft || ((uses i).xs.any (·.1 = d)) || (uses i).vx.contains d || (uses i).dx.contains d
    | none => false))

/-- The bundle waits for nothing but the word of its WAITC. -/
def waitsOnWord (s : State) (n : Nat) (l : List Instr) : Bool :=
  match l.getLast? with
  | some (.waitc _ _ _ _ _ _) => !(s.ctxAt n).satisfied && !stalls s n l 0
  | _ => false

/-- STALL_CLEAR: a stalled context is Ready again once nothing holds its bundle; a drained RFT completes (R137, R361, R403). -/
def stallClear (s : State) (n : Nat) : Out :=
  let c := s.ctxAt n
  if c.st != .stalled then .next s
  else match c.drain with
    | .rft =>
      if rftReady s n then
        andThen (returnFromTrap (s.modCtx n Ctx.landAll) n c.pc c.drainSlot c.drainLen) fun s =>
          .next (s.modCtx n fun c => { c with st := if c.st = .selected && c.drain = .none then .ready else c.st })
      else .next s
    | .none =>
      let ready := fun (s : State) => Host.Outcome.next (s.modCtx n fun c => { c with st := .ready })
      match peekSlots s n with
      | (s, none) => ready s
      | (s, some (l, rep)) =>
        if stalls s n l rep then .next (s.arrive n l) else if waitsOnWord s n l then .next s else ready s
    | _ => .next s

/-- WAITC_RECHECK: the word is read again; when it satisfies the condition, or the read faults, the context goes on (R128, R129). -/
def waitRecheck (s : State) (n : Nat) : Out :=
  let c := s.ctxAt n
  if c.st != .stalled || c.drain != .none then .next s
  else match peekSlots s n with
    | (s, some (l, rep)) =>
      if !waitsOnWord s n l then .next s
      else match judge s n c.pc l.length 0 l rep with
        | (s, .stall) => .next s
        | (s, _) => .next (s.modCtx n fun c => { c with st := .ready })
    | (s, none) => .next s

/-- MEMORY_FAULT_REPORT: what a boundary brings to a context that does not issue, a reported fault above all (R193, R394). -/
def faultReport (s : State) (n : Nat) : Out :=
  let st := (s.ctxAt n).st
  if st = .ready || st = .selected || st = .stalled then (boundary s n).getD (.next s) else .next s

/-- REP_REPEAT: the next repeat of a REP (R93). -/
def repRepeat (run : Instr → State → Out) (s : State) (n : Nat) : Out :=
  let c := s.ctxAt n
  if c.repOn && c.repc != 0 then issueStep run s n else .next s

end Sys2Proof.Machine
end

