-- ==== Sys2Proof/Machine/Sparse.lean ====
section
/-! DEFINITION. The sparse engine (spec/08_engines.md R238 to R242, spec/22_sparse.md R431 to R447): header and pods, search, insert with
split, delete, the free list, SPL, SPS, SPA, SPI, SPD and SRGROW. An operation that meets trouble changes nothing (R441, R446). -/

namespace Sys2Proof.Machine

/-- Why an operation cannot be performed. -/
inductive SpErr where
  | flt (va : Word) (cause kind : Nat)
  | race (a : Word)
  | poison | badRegion | exhausted
deriving DecidableEq, Repr

/-! Words. -/

def ofEng {α : Type} (r : State × Eng α) : Except SpErr (State × α) :=
  match r with
  | (s, .ok a) => .ok (s, a)
  | (_, .flt va cause kind) => .error (.flt va cause kind)
  | (_, .race a) => .error (.race a)

/-- Read len bytes; an uncorrectable word stops the operation. -/
def spRead (c : Cmd) (a : Word) (len : Nat) (s : State) : Except SpErr (State × Nat) := do
  let (s, p) ← ofEng (s.engRead c 3 c.unit a len false)
  if p.bad then throw .poison else pure (s, p.val)

/-- Read len bytes of a pod, which lies at a virtual address (R432). -/
def spPod (c : Cmd) (a : Word) (len : Nat) (s : State) : Except SpErr (State × Nat) :=
  if a.bits 57 7 != 0 then .error (.flt a 10 0) else spRead c a len s

def spWrite (c : Cmd) (a : Word) (len v : Nat) (s : State) : Except SpErr State := do
  let (s, _) ← ofEng (s.engStore c 3 c.unit a len v false false)
  pure s

/-! The header (R432, R433). -/

structure SpHdr where
  addr : Word
  rank : Nat
  cap : Nat
  psize : Nat
  widths : List Nat
  root : Nat
  height : Nat
  freehd : Nat
  nfree : Nat
  npods : Nat
  next : Nat
  nkeys : Nat
  swings : Nat
  /-- Extents: base and pods. -/
  ext : List (Word × Nat)
deriving DecidableEq, Repr

def noPod : Nat := 0xFFFFFFFF
def SpHdr.psz8 (h : SpHdr) : Nat := roundUp h.psize 8
/-- The bytes of a pod (R434). -/
def SpHdr.podBytes (h : SpHdr) : Nat := 64 * ceilDiv (64 + 8 * h.cap + max (h.cap * h.psz8) (4 * h.cap)) 64

/-- The address of pod n (R434). -/
def podIn (pb : Nat) : List (Word × Nat) → Nat → Word
  | [], _ => 0
  | (base, count) :: t, n => if n < count then base + wordOfNat (pb * n) else podIn pb t (n - count)
def SpHdr.podAddr (h : SpHdr) (n : Nat) : Word := podIn h.podBytes h.ext n

/-- Extents from number e on, their zero fields checked. -/
def readExt (c : Cmd) (a : Word) : Nat → Nat → State → Except SpErr (State × List (Word × Nat))
  | 0, _, s => .ok (s, [])
  | n + 1, e, s => do
    let (s, v) ← spRead c (a + wordOfNat (0x100 + 16 * e)) 16 s
    if bitsOf v 96 32 != 0 || bitsOf v 0 6 != 0 then throw .badRegion
    let (s, t) ← readExt c a n (e + 1) s
    pure (s, (wordOfNat v, bitsOf v 64 32) :: t)

/-- The check of R433 on what a header holds. -/
def SpHdr.ok (h : SpHdr) : Bool :=
  1 ≤ h.rank && h.rank ≤ 4 && h.psize ≤ 4096 && 1 ≤ h.height && h.height ≤ 64 &&
  ((upTo 4).zip h.widths).all (fun (q : Nat × Nat) => if q.1 < h.rank then 1 ≤ q.2 && q.2 ≤ 64 else q.2 = 0) &&
  h.widths.foldl (· + ·) 0 ≤ 64 &&
  h.npods = (h.ext.map (·.2)).foldl (· + ·) 0 && h.npods ≤ 2 ^ 32 - 1 && h.root < h.npods &&
  (h.freehd = noPod || h.freehd < h.npods) && h.nfree < h.npods

/-- Read and check the header at HDR: a page with the SPARSE attribute, in device memory of the package (R239, R433). -/
def readSpHdr (c : Cmd) (a : Word) (s : State) : Except SpErr (State × SpHdr) := do
  let (s, leaf) ← match s.engTrans c c.unit a 8 { kernel := c.kernel, host := true } with
    | (s, .ok (leaf, p)) => if 2 ^ 47 ≤ p.key then .error .badRegion else .ok (s, leaf)
    | (_, .error e) => .error (.flt a e.num 0)
  if !pteSparse leaf || pteRepl leaf then throw .badRegion
  let (s, v) ← spRead c a 256 s
  let podc := bitsOf v 8 8
  let next := bitsOf v 224 8
  if 4 < podc || bitsOf v 104 24 != 0 || bitsOf v 232 24 != 0 || bitsOf v 384 1664 != 0 || next = 0 || 240 < next then throw .badRegion
  let (s, ext) ← readExt c a next 0 s
  let h : SpHdr :=
    { addr := a, rank := bitsOf v 0 8, cap := 4 * 2 ^ podc, psize := bitsOf v 16 16
      widths := (upTo 4).map fun i => bitsOf v (32 + 8 * i) 8, root := bitsOf v 64 32, height := bitsOf v 96 8
      freehd := bitsOf v 128 32, nfree := bitsOf v 160 32, npods := bitsOf v 192 32, next := next
      nkeys := bitsOf v 256 64, swings := bitsOf v 320 64, ext := ext }
  if h.ok then pure (s, h) else throw .badRegion

/-- The header's engine fields are written as dev-scope releases (R432): before it, what the issuing agent wrote is there for every agent
of the device. -/
def spRelease (c : Cmd) (s : State) : State := (s.flushTo c.agent .dev).showEng c.agent

/-- Write back the fields that the engine keeps. -/
def writeSpHdr (c : Cmd) (h : SpHdr) (s : State) : Except SpErr State := do
  let s ← spWrite c (h.addr + 16) 8 (h.freehd + h.nfree <<< 32) (spRelease c s)
  let s ← spWrite c (h.addr + 32) 16 (h.nkeys % 2 ^ 64 + (h.swings % 2 ^ 64) <<< 64) s
  spWrite c (h.addr + 8) 8 (h.root + h.height <<< 32) s

/-! Keys (R431). -/

/-- The key of four coordinates; none when one exceeds its width. -/
def spKey (widths : List Nat) (cs : List Nat) : Option Nat :=
  let r := (widths.zip cs).foldl (fun (a : Option (Nat × Nat)) q => a.bind fun k =>
    if 2 ^ q.1 ≤ q.2 then none else some (k.1 ||| q.2 <<< k.2, k.2 + q.1)) (some (0, 0))
  r.map (·.1)

/-- The coordinates of a key. -/
def spCoords (widths : List Nat) (k : Nat) : List Nat :=
  (widths.foldl (fun (a : List Nat × Nat) w => (a.1 ++ [bitsOf k a.2 w], a.2 + w)) ([], 0)).1

/-- The four coordinates of a record. -/
def recCoords (v : Nat) : List Nat := (upTo 4).map fun i => bitsOf v (64 * i) 64

/-! Pods (R435). -/

/-- A leaf with its keys and payloads, or an internal pod with its separators (0 first) and children. -/
structure Pod where
  num : Nat
  leaf : Bool
  keys : List Nat
  pays : List Nat := []
  kids : List Nat := []
deriving DecidableEq, Repr

/-- Strictly ascending and within bounds lo ≤ k < hi. -/
def keysOk (lo hi : Nat) : List Nat → Bool
  | [] => true
  | k :: t => lo ≤ k && k < hi && keysOk (k + 1) hi t

def splitWords (w n v : Nat) : List Nat := (upTo n).map fun i => bitsOf v (w * i) w

/-- Read pod n, which covers keys from lo up to hi. -/
def readPod (c : Cmd) (h : SpHdr) (n lo hi : Nat) (wantLeaf : Bool) (s : State) : Except SpErr (State × Pod) := do
  if h.npods ≤ n then throw .badRegion
  let a := h.podAddr n
  let (s, w) ← spPod c a 8 s
  let kind := bitsOf w 0 8
  let count := bitsOf w 8 8
  if kind != (if wantLeaf then 1 else 2) || h.cap < count || (!wantLeaf && count = 0) then throw .badRegion
  let (s, ks) ← spPod c (a + 64) (8 * count) s
  let keys := splitWords 64 count ks
  if wantLeaf then
    if !keysOk lo hi keys then throw .badRegion
    let (s, ps) ← spPod c (a + wordOfNat (64 + 8 * h.cap)) (h.psz8 * count) s
    pure (s, { num := n, leaf := true, keys := keys, pays := splitWords (8 * h.psz8) count ps })
  else
    if !keysOk lo hi keys.tail then throw .badRegion
    let (s, cs) ← spPod c (a + wordOfNat (64 + 8 * h.cap)) (4 * count) s
    let kids := splitWords 32 count cs
    if kids.any (h.npods ≤ ·) then throw .badRegion
    pure (s, { num := n, leaf := false, keys := keys, kids := kids })

/-- Write a pod whole. -/
def writePod (c : Cmd) (h : SpHdr) (p : Pod) (s : State) : Except SpErr State :=
  let head := (if p.leaf then 1 else 2) + p.keys.length <<< 8
  let body := packBits 64 p.keys <<< 512
  let rest := (if p.leaf then packBits (8 * h.psz8) p.pays else packBits 32 p.kids) <<< (8 * (64 + 8 * h.cap))
  spWrite c (h.podAddr p.num) h.podBytes (head + body + rest) s

/-- Write a free pod (R437). -/
def writeFree (c : Cmd) (h : SpHdr) (n next : Nat) (s : State) : Except SpErr State :=
  spWrite c (h.podAddr n) h.podBytes (next <<< 32) s

/-- Read a free pod and its next one: KIND 0, every other byte zero, the next above it or none (R437, R446). -/
def readFree (c : Cmd) (h : SpHdr) (n : Nat) (s : State) : Except SpErr (State × Nat) := do
  let (s, v) ← spPod c (h.podAddr n) h.podBytes s
  let next := bitsOf v 32 32
  if v != next <<< 32 || !(next = noPod || (n < next && next < h.npods)) then throw .badRegion
  pure (s, next)

/-- Take n pods from the front of the free list: their numbers, and the header after. -/
def takeFree (c : Cmd) : Nat → SpHdr → State → Except SpErr (State × List Nat × SpHdr)
  | 0, h, s => .ok (s, [], h)
  | n + 1, h, s => do
    if h.freehd = noPod then throw .badRegion
    let (s, next) ← readFree c h h.freehd s
    let (s, l, h') ← takeFree c n { h with freehd := next, nfree := h.nfree - 1 } s
    pure (s, h.freehd :: l, h')

/-- The right neighbour of a pod to be returned is a free pod too (R446). -/
def checkNext (c : Cmd) (h : SpHdr) (next : Nat) (s : State) : Except SpErr State :=
  if next = noPod then .ok s else (readFree c h next s).map (·.1)

/-- Walk from free pod p to the last one below n; a chain that ends before NFREE pods is broken (R446). -/
def freeBefore (c : Cmd) (h : SpHdr) (n : Nat) : Nat → Nat → State → Except SpErr (State × Nat × Nat)
  | 0, _, _ => .error .badRegion
  | fuel + 1, p, s => do
    let (s, next) ← readFree c h p s
    if next = noPod && 1 < fuel then throw .badRegion
    else if next = noPod || n < next then
      let s ← checkNext c h next s
      pure (s, p, next)
    else if next = n then throw .badRegion
    else freeBefore c h n fuel next s

/-- Return pod n to its place in the free list. -/
def giveFree (c : Cmd) (h : SpHdr) (n : Nat) (s : State) : Except SpErr (State × SpHdr) := do
  let h' := { h with nfree := h.nfree + 1 }
  if h.freehd = noPod && h.nfree != 0 then throw .badRegion
  else if h.freehd = noPod || n < h.freehd then
    let s ← checkNext c h h.freehd s
    let s ← writeFree c h n h.freehd s
    pure (s, { h' with freehd := n })
  else if n = h.freehd then throw .badRegion
  else
    let (s, p, next) ← freeBefore c h n (h.nfree + 1) h.freehd s
    let s ← writeFree c h n next s
    let s ← writeFree c h p n s
    pure (s, h')

def giveAll (c : Cmd) : List Nat → SpHdr → State → Except SpErr (State × SpHdr)
  | [], h, s => .ok (s, h)
  | n :: t, h, s => do
    let (s, h) ← giveFree c h n s
    giveAll c t h s

/-! Search. -/

/-- A pod of a path with the child taken. -/
structure Step where
  pod : Pod
  at_ : Nat
deriving DecidableEq, Repr

/-- The child whose range holds k. -/
def childFor (p : Pod) (k : Nat) : Nat := (p.keys.drop 1).countP (· ≤ k)

/-- From pod n down to the leaf for k, with the leaf's upper bound (R436). -/
def descend (c : Cmd) (h : SpHdr) (k : Nat) : Nat → Nat → Nat → Nat → State → Except SpErr (State × List Step × Nat)
  | 0, _, _, _, _ => .error .badRegion
  | level + 1, n, lo, hi, s => do
    if level = 0 then
      let (s, p) ← readPod c h n lo hi true s
      if p.keys.isEmpty && h.height != 1 then throw .badRegion
      pure (s, [⟨p, p.keys.countP (· < k)⟩], hi)
    else
      let (s, p) ← readPod c h n lo hi false s
      let i := childFor p k
      let lo' := if i = 0 then lo else p.keys[i]?.getD 0
      let hi' := p.keys[i + 1]?.getD hi
      let (s, t, b) ← descend c h k level (p.kids[i]?.getD 0) lo' hi' s
      pure (s, ⟨p, i⟩ :: t, b)

/-- The path from the root to the leaf for k. -/
def findPath (c : Cmd) (h : SpHdr) (k : Nat) (s : State) : Except SpErr (State × List Step × Nat) := descend c h k h.height h.root 0 (2 ^ 64) s

/-- The payload of k in the leaf of a path. -/
def pathPayload (path : List Step) (k : Nat) : Option Nat :=
  match path.getLast? with
  | some ⟨p, i⟩ => if p.keys[i]? = some k then some (p.pays[i]?.getD 0) else none
  | none => none

/-! Changing the tree. -/

def insertAt {α : Type} (l : List α) (i : Nat) (x : α) : List α := l.take i ++ x :: l.drop i
def removeAt {α : Type} (l : List α) (i : Nat) : List α := l.take i ++ l.drop (i + 1)

/-- Split the full pods of a path, given bottom up, each taking two pods: the top lower and upper pods and their separator (R440). -/
def splitUp (c : Cmd) (h : SpHdr) (lo up sep : Nat) : List Step → List Nat → State → Except SpErr (State × Nat × Nat × Nat)
  | [], _, s => .ok (s, lo, up, sep)
  | ⟨p, i⟩ :: t, f1 :: f2 :: rest, s => do
    let kids := insertAt (p.kids.set i lo) (i + 1) up
    let keys := insertAt p.keys (i + 1) sep
    let half := (h.cap + 2) / 2
    let s ← writePod c h { num := f1, leaf := false, keys := keys.take half, kids := kids.take half } s
    let s ← writePod c h { num := f2, leaf := false, keys := 0 :: (keys.drop half).tail, kids := kids.drop half } s
    splitUp c h f1 f2 ((keys.drop half).headD 0) t rest s
  | _ :: _, _, _ => .error .badRegion

/-- Insert key k with its payload along a path that does not hold it (R440). -/
def spInsert (c : Cmd) (h : SpHdr) (path : List Step) (k pay : Nat) (s : State) : Except SpErr State := do
  match path.reverse with
  | [] => throw .badRegion
  | ⟨leaf, i⟩ :: up =>
    let keys := insertAt leaf.keys i k
    let pays := insertAt leaf.pays i pay
    if leaf.keys.length < h.cap then
      let s ← writePod c h { leaf with keys := keys, pays := pays } s
      writeSpHdr c { h with nkeys := h.nkeys + 1 } s
    else
      let full := up.takeWhile fun q => q.pod.kids.length = h.cap
      let n := full.length + 1
      if h.nfree < 2 * n + 1 || (n = h.height && h.height = 64) then throw .exhausted
      let (s, fresh, h1) ← takeFree c (2 * n + 1) h s
      match fresh with
      | f1 :: f2 :: rest =>
        let half := (h.cap + 2) / 2
        let s ← writePod c h { num := f1, leaf := true, keys := keys.take half, pays := pays.take half } s
        let s ← writePod c h { num := f2, leaf := true, keys := keys.drop half, pays := pays.drop half } s
        let (s, lo, hi, sep) ← splitUp c h f1 f2 ((keys.drop half).headD 0) full rest s
        let last := fresh.getLast?.getD 0
        let old := leaf.num :: full.map (·.pod.num)
        let h1 := { h1 with nkeys := h.nkeys + 1, swings := h.swings + 1 }
        match up.drop full.length with
        | [] =>
          let s ← writePod c h { num := last, leaf := false, keys := [0, sep], kids := [lo, hi] } s
          let (s, h1) ← giveAll c old { h1 with root := last, height := h.height + 1 } s
          writeSpHdr c h1 s
        | ⟨a, j⟩ :: above =>
          let s ← writePod c h { num := last, leaf := false, keys := insertAt a.keys (j + 1) sep, kids := insertAt (a.kids.set j lo) (j + 1) hi } s
          let (s, h1) ← match above with
            | [] => pure (s, { h1 with root := last })
            | ⟨b, m⟩ :: _ => do
              let s ← spWrite c (h.podAddr b.num + wordOfNat (64 + 8 * h.cap + 4 * m)) 4 last s
              pure (s, h1)
          let (s, h1) ← giveAll c (old ++ [a.num]) h1 s
          writeSpHdr c h1 s
      | _ => throw .badRegion

/-- Overwrite the payload of the key at the end of a path. -/
def spReplace (c : Cmd) (h : SpHdr) (path : List Step) (pay : Nat) (s : State) : Except SpErr State :=
  match path.getLast? with
  | some ⟨p, i⟩ => spWrite c (h.podAddr p.num + wordOfNat (64 + 8 * h.cap + h.psz8 * i)) h.psz8 pay s
  | none => .error .badRegion

/-- Remove the entry of an emptied child from its parents, bottom up; the pods to return and the header (R442). -/
def spPrune (c : Cmd) (h : SpHdr) (gone : List Nat) : List Step → State → Except SpErr (State × List Nat × SpHdr)
  | [], s => .ok (s, gone, h)
  | ⟨p, i⟩ :: t, s => do
    let kids := removeAt p.kids i
    if kids.isEmpty then
      if t.isEmpty then
        let s ← writePod c h { num := p.num, leaf := true, keys := [] } s
        pure (s, gone, { h with height := 1 })
      else spPrune c h (p.num :: gone) t s
    else
      let s ← writePod c h { p with kids := kids, keys := removeAt p.keys (max i 1) } s
      pure (s, gone, h)

/-- Delete the key at the end of a path (R442). -/
def spDelete (c : Cmd) (h : SpHdr) (path : List Step) (s : State) : Except SpErr State := do
  match path.reverse with
  | [] => throw .badRegion
  | ⟨leaf, i⟩ :: up =>
    let h := { h with nkeys := h.nkeys - 1 }
    let keys := removeAt leaf.keys i
    if keys.isEmpty && !up.isEmpty then
      let (s, gone, h) ← spPrune c h [leaf.num] up s
      let (s, h) ← giveAll c gone h s
      writeSpHdr c h s
    else
      let s ← writePod c h { leaf with keys := keys, pays := removeAt leaf.pays i } s
      writeSpHdr c h s

/-! SPL, SPS, SPA. -/

def isSpl : Instr → Bool | .spl _ _ _ _ _ => true | _ => false
def isSps : Instr → Bool | .sps _ _ _ _ _ => true | _ => false
def isSpa : Instr → Bool | .spa _ _ _ _ _ => true | _ => false

def spCount (c : Cmd) : Nat := (c.parAt 3).bits 32 12 + 1
def spRes (c : Cmd) : Nat := (c.parAt 3).bits 0 31
def spEt (c : Cmd) : Option ETy := etyOf ((c.parAt 3).bits 45 3)
where
  /-- The element type of a T code (R87). -/
  etyOf : Nat → Option ETy
    | 0 => some .f32 | 1 => some .bf16 | 2 => some .f16 | 3 => some .s32 | 4 => some .s16 | 5 => some .s8 | 6 => some .n32
    | _ => some .n8

/-- The record of key i: its four coordinates. -/
def spCoordsAt (c : Cmd) (i : Nat) (s : State) : Except SpErr (State × List Nat) := do
  let (s, v) ← spRead c (scrAddr ((c.parAt 1).bits 0 31 + 32 * i)) 32 s
  pure (s, recCoords v)

/-- Coordinates i on, all within their widths. -/
def coordsOk (c : Cmd) (h : SpHdr) : Nat → Nat → State → Except SpErr (State × Bool)
  | 0, _, s => .ok (s, true)
  | n + 1, i, s => do
    let (s, cs) ← spCoordsAt c i s
    if (spKey h.widths cs).isNone then pure (s, false) else coordsOk c h n (i + 1) s

/-- Sum of two payloads, element by element in a type (R239). -/
def addPayload (t : ETy) (size a b : Nat) : Nat :=
  let w := 8 * t.bytes
  let add := fun (x y : Nat) => if t.isFloat then ((fmtOf t).addV .rne ((fmtOf t).unpack x) ((fmtOf t).unpack y) 0).1 else (x + y) % 2 ^ w
  packBits w (((splitWords w (size / t.bytes) a).zip (splitWords w (size / t.bytes) b)).map fun q => add q.1 q.2)

/-- The effect of a key and its result byte (R239): MISS 1, INS 2, DEL 4. -/
def keyEffect (c : Cmd) (h : SpHdr) (path : List Step) (k : Nat) (old : Option Nat) (slot : Nat) (s : State) : Except SpErr (State × Nat) := do
  let del := (c.parAt 3).getLsbD 44
  let pay := slot % 2 ^ (8 * h.psize)
  let miss := ofBoolNat old.isNone
  if isSpl c.ins then pure (s, miss)
  else
    let new := if isSpa c.ins then ((spEt c).map fun t => addPayload t h.psize (old.getD 0) pay).getD 0 else pay
    let remove := if h.psize = 0 then del else (new = 0 || (isSps c.ins && del))
    match old with
    | some _ =>
      if remove then
        let s ← spDelete c h path s
        pure (s, 4)
      else if h.psize = 0 then pure (s, 0)
      else
        let s ← spReplace c h path new s
        pure (s, 0)
    | none =>
      if remove then pure (s, 1)
      else
        let s ← spInsert c h path k new s
        pure (s, 3)

/-- Key i of SPL, SPS or SPA. -/
def spKeyOp (c : Cmd) (i : Nat) (s : State) : Except SpErr State := do
  let (s, h) ← readSpHdr c (c.parAt 0) s
  let (s, cs) ← spCoordsAt c i s
  match spKey h.widths cs with
  | none => throw .badRegion
  | some k =>
    let data := c.parAt 2 + wordOfNat (h.psz8 * i)
    let hasData := h.psize != 0
    let (s, slot) ← if hasData && !isSpl c.ins then spRead c data h.psz8 s else pure (s, 0)
    let (s, path, _) ← findPath c h k s
    let old := pathPayload path k
    let (s, r) ← keyEffect c h path k old slot s
    let s ← if hasData && isSpl c.ins then spWrite c data h.psz8 (old.getD 0) s else pure s
    spWrite c (scrAddr (spRes c + i)) 1 r s

/-- What a command may not ask of its region (R239). -/
def spMisfit (c : Cmd) (h : SpHdr) : Bool :=
  (isSpa c.ins && h.psize = 0) || ((isSpl c.ins || isSps c.ins) && h.psize = 0 && c.parAt 2 != 0) ||
  (isSpa c.ins && ((spEt c).map fun t => h.psize % t.bytes != 0).getD false)

/-- NP for key i and every later one (R240, R446). -/
def markNp (s : State) (c : Cmd) : State :=
  ((upTo (spCount c)).filter (c.done ≤ ·)).foldl (fun s i => (s.engPut c 3 c.unit (scrAddr (spRes c + i)) 1 0x80 false false).1) s

/-- Handle the trouble of an operation: nothing of it was done. -/
def spTrouble (s : State) (c : Cmd) (e : SpErr) (np : Bool) : State :=
  let stop := fun (st : BitVec 8) => (if np then markNp s c else s).over c st
  match e with
  | .flt va cause kind => s.faultCmd c va cause kind
  | .race a => s.over { c with raceVa := raceAddr a } 0x24
  | .poison => stop 0x41
  | .badRegion => stop 0x49
  | .exhausted => stop 0x42

/-! SPI (R241, R444). -/

/-- The first n entries at or above k, in ascending order. -/
def collect (c : Cmd) (h : SpHdr) : Nat → Nat → Nat → State → Except SpErr (State × List (Nat × Nat))
  | 0, _, _, s => .ok (s, [])
  | fuel + 1, n, k, s => do
    if n = 0 || 2 ^ 64 ≤ k then pure (s, [])
    else
      let (s, path, hi) ← findPath c h k s
      match path.getLast? with
      | none => pure (s, [])
      | some ⟨p, i⟩ =>
        let got := ((p.keys.zip (if p.pays.isEmpty then p.keys.map fun _ => 0 else p.pays)).drop i).take n
        let (s, rest) ← collect c h fuel (n - got.length) hi s
        pure (s, got ++ rest)

def spiOp (c : Cmd) (s : State) : Except SpErr State := do
  let (s, h) ← readSpHdr c (c.parAt 0) s
  let cur := scrAddr ((c.parAt 1).bits 0 31)
  let (s, v) ← spRead c cur 16 s
  let b := (c.parAt 3).bits 32 12 + 1
  let (s, l) ← if bitsOf v 64 1 = 1 then pure (s, []) else collect c h (b + 2) b (bitsOf v 0 64) s
  let s ← spWrite c (c.parAt 2) 8 l.length s
  let size := 8 + h.psz8
  let s ← ((upTo l.length).zip l).foldlM (fun (s : State) (q : Nat × Nat × Nat) =>
    spWrite c (c.parAt 2 + wordOfNat (8 + size * q.1)) size (q.2.1 + q.2.2 <<< 64) s) s
  let last := (l.getLast?.map (·.1)).getD 0
  if bitsOf v 64 1 = 1 then pure s
  else if l.length < b || last = 2 ^ 64 - 1 then spWrite c cur 16 (bitsOf v 0 64 + 1 <<< 64) s
  else spWrite c cur 16 (last + 1) s

/-! SPD (R242, R445). -/

structure Box where
  lo : List Nat
  hi : List Nat
deriving DecidableEq, Repr

/-- The extents of a box, lowest dimension first. -/
def Box.dims (b : Box) : List Nat := (b.lo.zip b.hi).map fun q => q.2 - q.1 + 1
def Box.volume (b : Box) : Nat := b.dims.foldl (· * ·) 1
def Box.ok (b : Box) (widths : List Nat) : Bool :=
  (spKey widths b.lo).isSome && (spKey widths b.hi).isSome && (b.lo.zip b.hi).all (fun q => q.1 ≤ q.2) && b.volume ≤ 2 ^ 32
/-- The linear index of a coordinate of the box; none outside. -/
def Box.index (b : Box) (cs : List Nat) : Option Nat :=
  let q := b.lo.zip (b.hi.zip cs)
  if q.all (fun t => t.1 ≤ t.2.2 && t.2.2 ≤ t.2.1) then
    some ((q.foldl (fun (a : Nat × Nat) t => (a.1 + (t.2.2 - t.1) * a.2, a.2 * (t.2.1 - t.1 + 1))) (0, 1)).1)
  else none

def readBox (c : Cmd) (s : State) : Except SpErr (State × Box) := do
  let (s, v) ← spRead c (scrAddr ((c.parAt 1).bits 0 31)) 64 s
  pure (s, { lo := recCoords v, hi := recCoords (v >>> 256) })

/-- Read the next segment: its entries inside the box by index, the key to go on at, whether the walk is over. -/
def spdSegment (c : Cmd) (s : State) : Except SpErr (State × SpHdr × Box × List (Nat × Nat) × Nat × Bool) := do
  let (s, h) ← readSpHdr c (c.parAt 0) s
  let (s, b) ← readBox c s
  let top := (spKey h.widths b.hi).getD 0
  let from_ := max c.aux2 ((spKey h.widths b.lo).getD 0)
  let (s, l) ← if b.ok h.widths then collect c h 66 64 from_ s else pure (s, [])
  let last := (l.getLast?.map (·.1)).getD 0
  let finish := l.length < 64 || top ≤ last
  let found := (l.filter fun q => q.1 ≤ top).filterMap fun q => (b.index (spCoords h.widths q.1)).map fun i => (i, q.2)
  pure (s, h, b, found, last + 1, finish)

/-- Write the positions of a payload region, or the bytes of a set, from `done` up to n. -/
def spdWrite (psize : Nat) (found : List (Nat × Nat × Nat)) : Nat → State → Cmd → State × Eng Cmd
  | 0, s, c => (s, .ok c)
  | k + 1, s, c =>
    let at_ := fun i => (found.find? (·.1 = i)).map (·.2.1)
    let (off, len, v) := if psize = 0 then
        (c.done, 1, (upTo 8).foldl (fun a j => a + (ofBoolNat (at_ (8 * c.done + j)).isSome) <<< j) 0)
      else (c.done * psize, psize, (at_ c.done).getD 0)
    match s.engStore c 3 c.unit (c.parAt 2 + wordOfNat off) len v false false with
    | (s, .ok _) => spdWrite psize found k s { c with done := c.done + 1 }
    | (s, .flt va cause kind) => (s.putCmd c, .flt va cause kind)
    | (s, .race a) => (s, .race a)

/-- The keys found before trouble stand (R446): every position up to the last of them is written; of a set, the later bits of its byte
stay. -/
def spdStand (c : Cmd) (s : State) : State × Eng Cmd :=
  match c.rows.getLast? with
  | none => (s, .ok c)
  | some (last, _, psize) =>
    if psize != 0 then spdWrite psize c.rows (last + 1 - c.done) s c
    else match spdWrite 0 c.rows (last / 8 - c.done) s c with
      | (s, .ok c) =>
        let a := c.parAt 2 + wordOfNat (last / 8)
        let n := last % 8 + 1
        let new := (upTo n).foldl (fun v j => v + ofBoolNat (c.rows.any (·.1 = last / 8 * 8 + j)) <<< j) 0
        if last / 8 < c.done then (s, .ok c)
        else match s.engRead c 3 c.unit a 1 false with
          | (s, .ok p) =>
            match s.engStore c 3 c.unit a 1 (p.val / 2 ^ n * 2 ^ n + new) false false with
            | (s, .ok _) => (s, .ok { c with done := c.done + 1 })
            | (s, .flt va cause kind) => (s.putCmd c, .flt va cause kind)
            | (s, .race a) => (s, .race a)
          | (s, .flt va cause kind) => (s.putCmd c, .flt va cause kind)
          | (s, .race a) => (s, .race a)
      | r => r

/-- One segment of SPD; entries found and not yet written are kept in `rows`. -/
def spdOp (s : State) (c : Cmd) : State :=
  let walk := fun (s : State) (h : SpHdr) (b : Box) (c : Cmd) =>
    let front := if c.aux = 2 then b.volume else ((c.rows.getLast?.map (·.1)).getD 0)
    let goal := if h.psize = 0 then (if c.aux = 2 then ceilDiv front 8 else front / 8) else front
    match spdWrite h.psize c.rows (goal - c.done) s c with
    | (s, .ok c) => if c.aux = 2 then s.over c c.status else s.putCmd { c with rows := c.rows.filter fun q => (if h.psize = 0 then 8 * c.done else c.done) ≤ q.1 }
    | (s, .flt va cause kind) => match s.findCmd c.id with | some c => s.faultCmd c va cause kind | none => s
    | (s, .race a) => s.over { c with raceVa := raceAddr a } 0x24
  match spdSegment c s with
  | .error (.flt va cause kind) => s.faultCmd c va cause kind
  | .error e =>
    match spdStand c s with
    | (s, .ok c) => spTrouble s c e false
    | (s, .flt va cause kind) => match s.findCmd c.id with | some c => s.faultCmd c va cause kind | none => s
    | (s, .race a) => s.over { c with raceVa := raceAddr a } 0x24
  | .ok (s, h, b, found, next, finish) =>
    if !b.ok h.widths then s.over c 0x47
    else walk s h b { c with rows := c.rows ++ found.map fun q => (q.1, q.2, h.psize), aux2 := next, aux := if finish then 2 else 1 }

/-! SRGROW (R262, R443). -/

/-- The status of the new memory's pages: 2 when one is unmapped, outside device memory, or replicated. -/
def growPages (c : Cmd) : Nat → Word → State → Except SpErr (State × Bool)
  | 0, _, s => .ok (s, true)
  | n + 1, a, s =>
    match s.engTrans c c.unit a 8 { kernel := c.kernel, host := true } with
    | (s, .ok (leaf, p)) => if 2 ^ 47 ≤ p.key || pteRepl leaf then .ok (s, false) else growPages c n (a + 4096) s
    | (s, .error .pageFault) => .ok (s, false)
    | (s, .error .nonCanonical) => .ok (s, false)
    | (_, .error e) => .error (.flt a e.num 1)

/-- Write pods n to n + k − 1 as free pods, the last ending the list. -/
def growPods (c : Cmd) (h : SpHdr) : Nat → Nat → State → Except SpErr State
  | 0, _, s => .ok s
  | k + 1, n, s => do
    let s ← writeFree c h n (if k = 0 then noPod else n + 1) s
    growPods c h k (n + 1) s

/-- The last free pod. -/
def lastFree (c : Cmd) (h : SpHdr) : Nat → Nat → State → Except SpErr (State × Nat)
  | 0, _, _ => .error .badRegion
  | fuel + 1, p, s => do
    let (s, next) ← readFree c h p s
    if next = noPod then pure (s, p) else lastFree c h fuel next s

/-- SRGROW up to its STATUS (R443); a BASE off its 4 KiB alignment (R262) has STATUS 2 (log entry 38). -/
def growOp (c : Cmd) (s : State) : Except SpErr (State × Nat) := do
  let (s, d) ← spRead c (c.parAt 0) 64 s
  let hdr := wordOfNat d
  let base := wordOfNat (d >>> 64)
  let add := bitsOf d 128 32
  if add = 0 || 2 ^ 20 < add || bitsOf d 168 344 != 0 || hdr.toNat % 4096 != 0 then pure (s, 1)
  else match readSpHdr c hdr s with
    | .error .badRegion => pure (s, 1)
    | .error e => throw e
    | .ok (s, h) =>
      if h.next = 240 || 2 ^ 32 - 1 < h.npods + add then pure (s, 1)
      else if base.toNat % 4096 != 0 then pure (s, 2)
      else
        let bytes := h.podBytes * add
        let hits := overlaps base.toNat bytes hdr.toNat 4096 ||
          h.ext.any fun e => overlaps base.toNat bytes e.1.toNat (h.podBytes * e.2)
        let (s, mapped) ← growPages c (ceilDiv bytes 4096) base s
        if hits || !mapped then pure (s, 2)
        else
          let h' := { h with ext := h.ext ++ [(base, add)] }
          let s ← growPods c h' add h.npods s
          let s ← spWrite c (hdr + wordOfNat (0x100 + 16 * h.next)) 16 (base.toNat + add <<< 64) (spRelease c s)
          let (s, first) ← if h.freehd = noPod then pure (s, h.npods)
            else do
              let (s, p) ← lastFree c h (h.nfree + 1) h.freehd s
              let s ← writeFree c h p h.npods s
              pure (s, h.freehd)
          let s ← spWrite c (hdr + 16) 8 (first + (h.nfree + add) <<< 32) s
          let s ← spWrite c (hdr + 24) 8 (h.npods + add + (h.next + 1) <<< 32) s
          pure (s, 0)

/-- SRGROW: the operation, then its STATUS, which a park on the descriptor leaves to be written (`aux`). -/
def growStep (s : State) (c : Cmd) : State :=
  let put := fun (s : State) (c : Cmd) =>
    match s.engStore c 3 c.unit (c.parAt 0 + 20) 1 c.aux2 false false with
    | (s, .ok _) => (s.dropCmd c.id).settleEng c.agent
    | (s, .flt va cause kind) => s.faultCmd c va cause kind
    | (s, .race _) => s.dropCmd c.id
  if c.aux = 1 then put s c
  else match growOp c s with
    | .ok (s, st) => put s { c with aux := 1, aux2 := st }
    | .error (.flt va cause kind) => s.faultCmd c va cause kind
    | .error _ => put s { c with aux := 1, aux2 := 1 }

/-! SPARSE_OPERATION. -/

/-- The check before the first key (R239). -/
def spCheck (c : Cmd) (s : State) : Except SpErr (State × BitVec 8) := do
  let (s, h) ← readSpHdr c (c.parAt 0) s
  if spMisfit c h then pure (s, 0x49)
  else
    let (s, ok) ← coordsOk c h (spCount c) 0 s
    pure (s, if ok then 0 else 0x47)

/-- One key of SPL, SPS or SPA, the check first. -/
def spKeyStep (s : State) (c : Cmd) : State :=
  let go := fun (s : State) (c : Cmd) =>
    match spKeyOp c c.done s with
    | .ok s => if c.done + 1 = spCount c then s.over { c with done := c.done + 1 } c.status else s.putCmd { c with done := c.done + 1 }
    | .error e => spTrouble s c e true
  if c.aux != 0 then go s c
  else match spCheck c s with
    | .error e => spTrouble s c e (e = .poison)
    | .ok (s, st) => if st != 0 then s.over c st else go s { c with aux := 1 }

/-- One operation of a running sparse command. -/
def sparseStep (s : State) (id : Nat) : State :=
  match s.findCmd id with
  | none => s
  | some c =>
    if c.st != .running then s
    else match c.kind, c.ins with
      | .grow, _ => growStep s c
      | .slot, .spl _ _ _ _ _ | .slot, .sps _ _ _ _ _ | .slot, .spa _ _ _ _ _ => spKeyStep s c
      | .slot, .spi _ _ _ _ _ => match spiOp c s with | .ok s => s.over c c.status | .error e => spTrouble s c e false
      | .slot, .spd _ _ _ _ _ => spdOp s c
      | _, _ => s

end Sys2Proof.Machine
end

