-- ==== Sys2Proof/Machine/WorkList.lean ====
section
/-! DEFINITION. Work lists (spec/07_memory_instr.md R210 to R215, spec/22_sparse.md R449 to R451): the header, the dedup set, push, insert
and pop as indivisible operations of the owning slice, and the spill to the backing. -/

namespace Sys2Proof.Machine

/-- Why a list operation cannot be performed. -/
inductive ListErr where
  | race | poison
deriving DecidableEq, Repr

/-- A header (R210). -/
structure ListHdr where
  h : Nat
  cap : Nat
  head : Word
  tail : Word
  spill : Word
  spillcap : Nat
  owner : Word
  setn : Nat
  spilled : Nat
deriving DecidableEq, Repr

/-- The agent that a list operation is: the copy engine for WLPOP, the context or sequencer for the others (R255). -/
def listWho (c : Cmd) : Nat := match c.ins with | .wlpop _ _ _ _ _ => 1 | _ => agentCode c.agent

/-- One 8-byte word of the list's slice. -/
def listGet (c : Cmd) (sa : Nat) (s : State) : Except ListErr (State × Word) :=
  match s.scrRead c (listWho c) sa 8 with
  | (_, none) => .error .race
  | (s, some r) => if r.bad then .error .poison else .ok (s, wordOfNat r.val)
def listPut (c : Cmd) (sa : Nat) (v : Word) (s : State) : Except ListErr State :=
  match s.scrWrite c (listWho c) sa 8 v.toNat with
  | none => .error .race
  | some s => .ok s

/-- Read the eight words of a header. -/
def listHdr (c : Cmd) (h : Nat) (s : State) : Except ListErr (State × ListHdr) := do
  let (s, cap) ← listGet c h s
  let (s, head) ← listGet c (h + 8) s
  let (s, tail) ← listGet c (h + 16) s
  let (s, spill) ← listGet c (h + 24) s
  let (s, sc) ← listGet c (h + 32) s
  let (s, owner) ← listGet c (h + 40) s
  let (s, setn) ← listGet c (h + 48) s
  let (s, sp) ← listGet c (h + 56) s
  pure (s, { h := h, cap := cap.toNat, head := head, tail := tail, spill := spill, spillcap := sc.toNat, owner := owner
             setn := setn.toNat, spilled := sp.toNat })

/-- TAIL − HEAD. -/
def ListHdr.count (l : ListHdr) : Nat := (l.tail - l.head).toNat

/-- The header check of R211; a list that runs past its slice fails it too. -/
def ListHdr.ok (l : ListHdr) : Bool :=
  4 ≤ l.cap && l.cap ≤ 65536 && l.cap = 2 ^ Nat.log2 l.cap && l.count ≤ l.cap + l.spillcap && l.spilled ≤ l.spillcap &&
  l.spilled ≤ l.count && l.setn ≤ l.cap && l.h % 2 ^ 22 + 64 + 16 * l.cap ≤ 2 ^ 22

/-- The owner check of a deterministic queue fails (R212). -/
def ownerRace (s : State) (task : Option Nat) (l : ListHdr) : Bool :=
  match task.bind s.findTask with
  | some t => !t.coop && l.owner != wordOfNat t.index
  | none => false

def ListHdr.ring (l : ListHdr) (p : Nat) : Nat := l.h + 64 + 8 * (p % l.cap)
def ListHdr.slot (l : ListHdr) (i : Nat) : Nat := l.h + 64 + 8 * l.cap + 8 * (i % l.cap)
def ListHdr.canSpill (l : ListHdr) : Bool := l.spill != 0 && l.spilled + l.cap / 4 ≤ l.spillcap
/-- The backing address of position p (R211). -/
def ListHdr.backing (l : ListHdr) (p : Nat) : Word := l.spill + wordOfNat (8 * (p % l.spillcap))

/-- Probe the dedup set from slot i for e: found, or the empty slot met first (R213). -/
def listProbe (c : Cmd) (l : ListHdr) (e : Word) : Nat → Nat → State → Except ListErr (State × Bool × Option Nat)
  | 0, _, s => .ok (s, false, none)
  | fuel + 1, i, s =>
    match listGet c (l.slot i) s with
    | .error r => .error r
    | .ok (s, w) =>
      if w = e then .ok (s, true, none)
      else if w = BitVec.allOnes 64 then .ok (s, false, some i)
      else listProbe c l e fuel (i + 1) s

/-- The first slot to probe. -/
def probeStart (e : Word) (cap : Nat) : Nat := ((e * 0xA2F16D3B95C84E27#64) >>> 32).toNat % cap

/-- What WLPSH or WLINS comes to: its result, or a spill to wait for. -/
inductive ListOut where
  | result (v : Nat)
  | spill
deriving DecidableEq, Repr

/-- WLPSH, or WLINS with `ins` (R213). -/
def listAppend (c : Cmd) (h : Nat) (ins : Bool) (e : Word) (s : State) : Except ListErr (State × ListOut) := do
  let (s, l) ← listHdr c h s
  if !l.ok then pure (s, .result 4)
  else if ownerRace s c.task l then throw .race
  else if ins && e = BitVec.allOnes 64 then pure (s, .result 4)
  else
    let (s, found, empty) ← if ins then listProbe c l e l.cap (probeStart e l.cap) s else pure (s, false, none)
    let full := ListOut.result (if ins then 3 else 1)
    if found then pure (s, .result 0)
    else if l.count = l.cap + l.spillcap then pure (s, full)
    else if ins && l.setn = l.cap then pure (s, .result 2)
    else if l.count - l.spilled = l.cap then pure (s, if l.canSpill then .spill else full)
    else
      let s ← match ins, empty with
        | true, some i => do
          let s ← listPut c (l.slot i) e s
          listPut c (h + 48) (wordOfNat (l.setn + 1)) s
        | _, _ => pure s
      let s ← listPut c (l.ring l.tail.toNat) e s
      let s ← listPut c (h + 16) (l.tail + 1) s
      pure (s, .result (ofBoolNat ins))

/-! Operations of contexts. -/

def isIns : Instr → Bool
  | .wlins _ _ _ _ _ => true
  | _ => false

/-- A list slot of a context, seen as a command of its own. -/
def listCmd (s : State) (n : Nat) (a : Access) : Cmd :=
  let c := s.ctxAt n
  { id := s.nextId, ins := a.ins, agent := n, job := c.job, root := c.root, task := c.task, kernel := a.kernel, hold := a.hold
    par := [a.ea, a.vb], sn := a.sn, st := .running }

/-- Perform a list slot: its result is on its way, or its spill begins (R213, R214). -/
def performList (s : State) (n : Nat) (a : Access) : State :=
  let c := listCmd s n a
  let h := listAddr a.ea
  match listAppend c h (isIns a.ins) a.vb s with
  | .error .race => s.putAcc n { a with st := .faulted .race (wordOfNat h) false }
  | .error .poison => s.putAcc n { a with st := .faulted .poison a.ea false }
  | .ok (s, .result v) => ((s.closeWindow n a.sn).putAcc n { a with st := .got (wordOfNat v) }).tidy n
  | .ok (s, .spill) => { s with cmds := s.cmds ++ [{ c with kind := .spill a.sn (h / 2 ^ 22) }], nextId := s.nextId + 1 }

/-! Pops. -/

def popMax (c : Cmd) : Nat := (c.parAt 0).bits 32 12 + 1
def popHdr (c : Cmd) : Nat := (c.parAt 0).bits 0 31
def popDst (c : Cmd) : Nat := (c.parAt 1).bits 0 31

/-- Write entries i to n − 1 of a pop, spilled ones from the backing (R215, R449). -/
def popEntries (c : Cmd) (l : ListHdr) : Nat → Nat → State → Bool → State × Eng Bool
  | 0, _, s, bad => (s, .ok bad)
  | k + 1, i, s, bad =>
    let p := l.head.toNat + i
    let src : Word := if i < l.spilled then l.backing p else wordOfNat (l.ring p + 0x7F * 2 ^ 57)
    let unit := l.h / 2 ^ 24
    match (if i < l.spilled then inVirt s src 0 else id) (s.engFetch c 1 unit src 8 true) with
    | (s, .flt va cause kind) => (s, .flt va cause kind)
    | (s, .race a) => (s, .race a)
    | (s, .ok r) =>
      match s.engPut c 1 unit (wordOfNat (popDst c + 8 + 8 * i + 0x7F * 2 ^ 57)) 8 r.val r.bad false with
      | (s, .flt va cause kind) => (s, .flt va cause kind)
      | (s, .race a) => (s, .race a)
      | (s, .ok _) => popEntries c l k (i + 1) s (bad || r.bad)

/-- A pop meets a race at an address (R266, R314). -/
def popRace (s : State) (c : Cmd) (a : Nat) : State := s.putCmd { c with status := 0x24, raceVa := wordOfNat a, done := 1 }

/-- WLPOP, as one indivisible operation (R215); one that parks on the backing keeps the list to itself (`aux`). -/
def performPop (s : State) (c : Cmd) : State :=
  match listHdr c (popHdr c) s with
  | .error .race => popRace s c (popHdr c)
  | .error .poison => s.putCmd { c with status := 0x41, done := 1 }
  | .ok (s, l) =>
    if !l.ok then s.putCmd { c with status := 0x34, done := 1 }
    else if ownerRace s c.task l then popRace s c (popHdr c)
    else
      let n := min (popMax c) l.count
      match s.scrWrite c 1 (popDst c) 8 n with
      | none => popRace s c (popDst c)
      | some s =>
        match popEntries c l n 0 s false with
        | (s, .flt va cause kind) => s.faultCmd { c with aux := 1 } va cause kind
        | (s, .race a) => s.raceCmd c 1 a
        | (s, .ok bad) =>
          let upd := do
            let s ← listPut c (l.h + 8) (l.head + wordOfNat n) s
            listPut c (l.h + 56) (wordOfNat (l.spilled - min n l.spilled)) s
          match upd with
          | .ok s => s.putCmd { c with status := if bad then 0x41 else 0, done := 1, aux := 0 }
          | .error _ => popRace s c (popHdr c)

/-! The events. -/

/-- A list operation that waits at a slice: its arrival, its agent, its issue number, the command of a pop. -/
structure Waiting where
  time : Nat
  agent : Nat
  sn : Nat
  pop : Option Nat
deriving DecidableEq, Repr

def Waiting.before (a b : Waiting) : Bool :=
  a.time < b.time || (a.time = b.time && (a.agent < b.agent || (a.agent = b.agent && a.sn < b.sn)))

/-- The list of header h is kept by a spill or by a pop that has begun. -/
def listBusy (s : State) (h : Nat) : Bool :=
  s.cmds.any fun c => match c.kind, c.ins with
    | .spill _ _, _ => listAddr (c.parAt 0) = h
    | .slot, .wlpop _ _ _ _ _ => c.aux = 1 && popHdr c = h
    | _, _ => false

/-- The list operations of a slice that may be performed now. -/
def waitingOps (s : State) (core : Nat) : List Waiting :=
  let slots := s.ctxs.flatMap fun (q : Nat × Ctx) =>
    if q.2.st = .frozen then [] else (q.2.acc.filter fun a => isListOp a.ins && (match a.st with | .got _ | .faulted _ _ _ => false | _ => true) &&
      listAddr a.ea / 2 ^ 22 = core && mayPerform s q.1 a && !listBusy s (listAddr a.ea)).map fun a =>
      ({ time := a.since, agent := q.1, sn := a.sn, pop := none } : Waiting)
  let pops := (s.cmds.filter fun c => (match c.ins with | .wlpop _ _ _ _ _ => true | _ => false) && c.st = .running && c.done = 0 && !s.stopped c &&
      popHdr c / 2 ^ 22 = core && (c.aux = 1 || !listBusy s (popHdr c))).map fun c =>
    ({ time := c.startAt, agent := c.agent, sn := c.sn, pop := some c.id } : Waiting)
  slots ++ pops

/-- WORK_LIST_OPERATION: the operation that arrived first at the slice is performed (R211). -/
def workListStep (s : State) (core : Nat) : State :=
  let first := (waitingOps s core).foldl (fun (b : Option Waiting) w => match b with
    | some x => if w.before x then some w else b
    | none => some w) none
  match first with
  | none => s
  | some w =>
    match w.pop with
    | some id => match s.findCmd id with | some c => performPop s c | none => s
    | none => match (s.ctxAt w.agent).findAcc w.sn with | some a => performList s w.agent a | none => s

/-- Write the entries of a spill from entry `done` on. -/
def spillEntries (c : Cmd) (l : ListHdr) : Nat → Nat → State → State × Eng Nat
  | 0, i, s => (s, .ok i)
  | k + 1, i, s =>
    let p := l.head.toNat + l.spilled + i
    match s.engFetch c 1 (l.h / 2 ^ 24) (wordOfNat (l.ring p + 0x7F * 2 ^ 57)) 8 false with
    | (s, .flt va cause kind) => (s, .flt va cause kind)
    | (s, .race a) => (s, .race a)
    | (s, .ok r) =>
      match inVirt s (l.backing p) 1 (s.engPut c 1 (l.h / 2 ^ 24) (l.backing p) 8 r.val r.bad true) with
      | (s, .flt va cause kind) => (s.putCmd { c with done := i }, .flt va cause kind)
      | (s, .race a) => (s, .race a)
      | (s, .ok _) => spillEntries c l k (i + 1) s

/-- The waiting append goes on once its spill is over; `full` when the spill was ended (R214, R449). -/
def State.endSpill (s : State) (c : Cmd) (sn : Nat) (full : Bool) : State :=
  let s := s.dropCmd c.id
  match (s.ctxAt c.agent).findAcc sn with
  | none => s
  | some a =>
    if full then (s.putAcc c.agent { a with st := .got (if isIns a.ins then 3 else 1) }).tidy c.agent else performList s c.agent a

/-- The spill meets a race: the append that waits for it reports it (R193, R314). -/
def State.raceSpill (s : State) (c : Cmd) (sn : Nat) (a : Word) : State :=
  let s := s.dropCmd c.id
  match (s.ctxAt c.agent).findAcc sn with
  | some x => s.putAcc c.agent { x with st := .faulted .race a false }
  | none => s

/-- WORK_LIST_SPILL_COMPLETE: the spill of the slice writes its entries and SPILLED, then the append goes on (R214). A header that a
racing reset has changed is for the append to act on as it stands (R450). -/
def spillStep (s : State) (core : Nat) : State :=
  let mine := s.cmds.find? fun c => c.st = .running && (match c.kind with | .spill _ k => k = core | _ => false)
  match mine with
  | none => s
  | some c =>
    let sn := match c.kind with | .spill sn _ => sn | _ => 0
    match listHdr c (listAddr (c.parAt 0)) s with
    | .error _ => s.endSpill c sn false
    | .ok (s, l) =>
      if !l.ok || !l.canSpill then s.endSpill c sn false
      else match spillEntries c l (l.cap / 4 - c.done) c.done s with
        | (s, .flt va cause kind) => match s.findCmd c.id with | some c => s.faultCmd c va cause kind | none => s
        | (s, .race a) => s.raceSpill c sn (raceAddr a)
        | (s, .ok _) =>
          match listPut c (l.h + 56) (wordOfNat (l.spilled + l.cap / 4)) s with
          | .ok s => s.endSpill c sn false
          | .error _ => s.raceSpill c sn (wordOfNat l.h)

end Sys2Proof.Machine
end

