-- ==== Sys2Proof/Machine/EngineRun.lean ====
section
/-! DEFINITION. The life of an engine command (spec/08_engines.md R217 to R226, spec/03_encoding.md R105, R106): its start, its holds, its
progress in walk order, its end, parks and CERESUME (spec/09_system.md R264). -/

namespace Sys2Proof.Machine

/-! Progress. -/

/-- The 4-byte completion write of a DETACH launch, after everything the launch did (R344). -/
def detachUnit (s : State) (c : Cmd) : State :=
  match (s.flushTo c.agent .dev).engStore c 0 (72 + dieOf c.agent) (c.parAt 0) 4 (c.parAt 1).toNat false true with
  | (s, .flt va cause kind) => s.faultCmd c va cause kind
  | (s, _) => (s.dropCmd c.id).settleEng c.agent

/-- Units of a command of a slot, in its own walk order; 0 for an RGMAP without a fill; a sparse command is over when its own
operations end it. -/
def slotUnits (c : Cmd) : Nat :=
  match c.ins with
  | .rgmap _ _ _ _ _ => if (c.parAt 2).bits 22 2 = 0 then 0 else (c.parAt 2).bits 0 22 / 8
  | .rgwb _ _ _ _ _ | .rginv _ _ _ _ _ => backWords c
  | .cpy _ _ _ _ _ => cpyEnd c
  | .cprWrite _ _ _ _ _ | .cprRead _ _ _ _ _ | .crd _ _ _ _ _ => (c.parAt 2).bits 0 32
  | .csg _ _ _ _ _ _ | .wlpop _ _ _ _ _ => 1
  | .gth _ _ _ _ _ | .sct _ _ _ _ _ | .sca _ _ _ _ _ => gCount c
  | .spl _ _ _ _ _ | .sps _ _ _ _ _ | .spa _ _ _ _ _ | .spi _ _ _ _ _ | .spd _ _ _ _ _ => c.done + 1
  | .lnch _ _ _ _ _ => 1
  | _ => 0

/-- One unit of a running slot command. -/
def slotUnit (s : State) (c : Cmd) : State :=
  if slotUnits c ≤ c.done then s
  else match c.ins with
    | .rgmap _ _ _ _ _ => rgmapUnit s c
    | .rgwb _ _ _ _ _ | .rginv _ _ _ _ _ => backUnit s c ((c.parAt 0).bits 0 31 / 2 ^ 22) false
    | .cpy _ _ _ _ _ => cpyUnit s c
    | .cprWrite _ _ _ _ _ => sendPacket s c 1 (if (c.parAt 3).getLsbD 14 then 2 else 0) 0
    | .cprRead _ _ _ _ _ => sendRead s c
    | .crd _ _ _ _ _ => sendPacket s c 3 0 ((c.parAt 3).bits 0 4)
    | .csg _ _ _ _ _ _ => csgUnit s c
    | .gth _ _ _ _ _ | .sct _ _ _ _ _ | .sca _ _ _ _ _ => gatherUnit s c
    | _ => s

/-- One unit of a running command of any engine but the matrix engine. -/
def engineUnit (s : State) (c : Cmd) : State :=
  match c.kind with
  | .slot => slotUnit s c
  | .fill _ _ => fillStep s c
  | .writeback _ _ _ => writebackStep s c
  | .detach => detachUnit s c
  | .gsw => gswStep s c
  | .grow | .spill _ _ => s

/-- Up to n further units of a command. -/
def State.advance (s : State) (id n : Nat) : State :=
  match s.findCmd id with
  | some c => if c.kind = .slot && isMatrix c.ins then matrixAdvance id n s else runUnits engineUnit id n s
  | none => s

/-! Start. -/

/-- A command's own engine takes it up: its release first, then what its first step does (R206, R207, R221, R243). -/
def engineBegin (s : State) (c : Cmd) : State :=
  let s := match c.relScope with | some sc => (s.flushTo c.agent (scopeOfNat sc)).showEng c.agent | none => s
  let c := { c with startAt := s.now }
  match c.ins with
  | .rgmap _ _ _ _ _ => rgmapStart s c
  | .rgwb _ _ _ _ _ => rgwbStart s c
  | .rginv _ _ _ _ _ => rginvStart s c
  | .lnch _ _ _ _ _ => lnchStart s c
  | _ => s.putCmd { c with st := .running }

/-- A sparse command of a slot, in the order of the opcode table (R238 to R242). -/
def isSparse (i : Instr) : Bool := let op := opOf i; 0x74 ≤ op && op ≤ 0x78

/-- Where the region of a sparse command lies: the physical address of its header, or its virtual address while it maps nothing. -/
def regionPlace (s : State) (c : Cmd) : Nat :=
  let va := (c.parAt 0).toNat
  match s.walk c.root va with
  | .ok (leaf, size) => pteFrame leaf + va % size
  | .error _ => va

/-- An earlier command of the agent on the same region has still to start: the engine takes them in the order it accepted them, and the order
among agents is open (R438). -/
def sparseWaits (s : State) (c : Cmd) : Bool :=
  isSparse c.ins && s.cmds.any fun d =>
    d.agent = c.agent && d.kind = .slot && isSparse d.ins && d.id < c.id && d.st = .queued && regionPlace s d = regionPlace s c

/-- ENGINE_COMMAND_START: with its consumed tokens free a command starts, ends at once with their error, or waits for its step (R105,
R106, R222). -/
def engineStart (s : State) (id : Nat) : State :=
  match s.findCmd id with
  | none => s
  | some c =>
    if c.st != .queued || (c.kind = .slot && isMatrix c.ins) || s.stopped c || !c.tokensFree || fenceBlocks s c || !releaseReady s c ||
        (c.kind = .slot && sparseWaits s c) then s
    else match c.kind with
      | .slot =>
        let s := s.acquire c.agent 0
        if c.inherited != 0 then s.endCmd { c with raceVa := c.inheritedAt } c.inherited
        else if !nbReady s c then s.putCmd { c with st := .held }
        else engineBegin s c
      | _ => s.putCmd { c with st := .running, startAt := s.now }

/-- NB_HOLD_RELEASE: a held copy starts once STEP has reached NBSTEP (R222). -/
def nbRelease (s : State) (id : Nat) : State :=
  match s.findCmd id with
  | some c => if c.st = .held && c.kind = .slot && isCopy c.ins && nbReady s c && !s.stopped c && releaseReady s c then engineBegin s c else s
  | none => s

/-! End. -/

/-- Nothing of a command is left to do or to be answered. -/
def cmdFinished (s : State) (c : Cmd) : Bool :=
  (c.st = .done || (c.st = .running && slotUnits c ≤ c.done)) && !s.fab.reqs.any (·.cmd = c.id)

/-- What a command still does as it ends: RGINV takes its entry away (R207). -/
def engineLast (s : State) (c : Cmd) : State :=
  match c.ins with
  | .rginv _ _ _ _ _ => if c.st = .running then rginvEnd s c else s
  | _ => s

/-- ENGINE_COMMAND_COMPLETE: what is left is done; once every access is performed or answered the token is freed (R220). -/
def engineComplete (s : State) (id : Nat) : State :=
  match s.findCmd id with
  | none => s
  | some c0 =>
    match c0.kind with
    | .slot =>
      if isMatrix c0.ins then s
      else
        let pendingLnch : Bool := match c0.ins with | .lnch _ _ _ _ _ => c0.st = .running && s.launches.all (·.cmd != id) | _ => false
        let s := if pendingLnch && !s.stopped c0 then launchCheck s c0 else runUnits slotUnit id (slotUnits c0 - c0.done) s
        match s.findCmd id with
        | some c => if cmdFinished s c then (engineLast s c).endCmd c c.status else s
        | none => s
    | .detach => runUnits engineUnit id 1 s
    | .gsw => if c0.st = .held then gswAnswered s c0 else runUnits engineUnit id 1 s
    | _ => s

/-! CERESUME. -/

/-- A parked command is ended with Aborted (R264); a CPY whose body is cut short still writes its completion record (R232). -/
def abortCmd (s : State) (c : Cmd) : State :=
  match c.kind with
  | .slot | .fill _ _ | .writeback _ _ _ =>
    let rec_ : Bool := match c.ins with | .cpy _ _ _ _ _ => c.done < cpyBody c && cRec c != 0 | _ => false
    if rec_ then s.putCmd { c with status := 0x44, st := .running, done := cpyBody c }
    else s.putCmd { c with status := 0x44, st := .done, aux := 0 }
  | .detach | .grow => s.dropCmd c.id
  | .spill sn _ => s.endSpill c sn true
  | .gsw =>
    let onDescriptor : Bool := match c.st with | .parked p => (p.va - c.parAt 0).toNat < 64 | _ => true
    if onDescriptor then s.dropCmd c.id else gswAnswer s c 4 fun s => s

/-- The request parked here under a handle, when the issuer may name it (R264, R307). -/
def State.parkedFlight (s : State) (n : Nat) (v : Word) : Option (Flight × Nat) :=
  s.fab.flights.findSome? fun fl => match fl.loc with
    | .parked d h => if h = v.bits 0 63 && (isSeq n || fl.pkt.jid = (s.ctxAt n).job) then some (fl, d) else none
    | _ => none

/-- SYS CERESUME restarts or ends the command, or the request, that is parked under the handle (R264). -/
def execSysCeresume (a : Reg) (s : State) : Out :=
  issue (.sysCeresume a) (pureEff fun s =>
    let v := (s.ctxAt s.cur).getX a
    match s.parkedFlight s.cur v with
    | some (fl, d) => s.resumeParked fl d (v.getLsbD 63)
    | none => s.resumeHandle s.cur v abortCmd) s

end Sys2Proof.Machine
end

