-- ==== Sys2Proof/Machine/LoadStore.lean ====
section
/-! DEFINITION. Loads, stores, acquires, releases, atomics, fences and the work-list slots (spec/07_memory_instr.md, R197 to R204,
R213): each goes to the memory path with its captured operands; MemPath performs it. -/

namespace Sys2Proof.Machine

/-- Every 8-byte word of an LDV or an STV. -/
def allWords : BitVec 512 := (BitVec.allOnes 256).setWidth 512

/-- A scalar or vector load (R198). -/
def loadEff (i : Instr) (a : Reg) (disp : BitVec 11) (z : Nat) : State → Out := fun s =>
  .next (s.addAccess s.cur i fun c e => { e with ea := effAddr (c.getX a) disp z, va := c.getX a, todo := allWords })

/-- A scalar store reads its data at issue (R199). -/
def storeEff (i : Instr) (t a : Reg) (disp : BitVec 11) (z : Nat) : State → Out := fun s =>
  .next (s.addAccess s.cur i fun c e => { e with ea := effAddr (c.getX a) disp z, va := c.getX a, vt := c.getX t })

/-- An atomic (R202): CAS reads x[D] too (R203). -/
def amoEff (i : Instr) (d a b : Reg) (fn : AmoFn) : State → Out := fun s =>
  .next (s.addAccess s.cur i fun c e =>
    { e with ea := c.getX a, va := c.getX a, vb := c.getX b, vd := if fn = .cas then c.getX d else 0 })

/-- A work-list slot (R213). -/
def listEff (i : Instr) (a b : Reg) : State → Out := fun s =>
  .next (s.addAccess s.cur i fun c e => { e with ea := c.getX a, va := c.getX a, vb := c.getX b })

def execLdbs (t a : Reg) (wa : Bool) (disp : BitVec 11) (s : State) : Out :=
  issue (.ldbs t a wa disp) (loadEff (.ldbs t a wa disp) a disp 1) s

def execLdbn (t a : Reg) (wa : Bool) (disp : BitVec 11) (s : State) : Out :=
  issue (.ldbn t a wa disp) (loadEff (.ldbn t a wa disp) a disp 1) s

def execLdhs (t a : Reg) (wa : Bool) (disp : BitVec 11) (s : State) : Out :=
  issue (.ldhs t a wa disp) (loadEff (.ldhs t a wa disp) a disp 2) s

def execLdhn (t a : Reg) (wa : Bool) (disp : BitVec 11) (s : State) : Out :=
  issue (.ldhn t a wa disp) (loadEff (.ldhn t a wa disp) a disp 2) s

def execLdws (t a : Reg) (wa : Bool) (disp : BitVec 11) (s : State) : Out :=
  issue (.ldws t a wa disp) (loadEff (.ldws t a wa disp) a disp 4) s

def execLdwn (t a : Reg) (wa : Bool) (disp : BitVec 11) (s : State) : Out :=
  issue (.ldwn t a wa disp) (loadEff (.ldwn t a wa disp) a disp 4) s

def execLdd (t a : Reg) (wa : Bool) (disp : BitVec 11) (s : State) : Out :=
  issue (.ldd t a wa disp) (loadEff (.ldd t a wa disp) a disp 8) s

def execLdv (t a : Reg) (wa : Bool) (disp : BitVec 11) (s : State) : Out :=
  issue (.ldv t a wa disp) (loadEff (.ldv t a wa disp) a disp 64) s

def execStb (t a : Reg) (wa : Bool) (disp : BitVec 11) (s : State) : Out :=
  issue (.stb t a wa disp) (storeEff (.stb t a wa disp) t a disp 1) s

def execSth (t a : Reg) (wa : Bool) (disp : BitVec 11) (s : State) : Out :=
  issue (.sth t a wa disp) (storeEff (.sth t a wa disp) t a disp 2) s

def execStw (t a : Reg) (wa : Bool) (disp : BitVec 11) (s : State) : Out :=
  issue (.stw t a wa disp) (storeEff (.stw t a wa disp) t a disp 4) s

def execStd (t a : Reg) (wa : Bool) (disp : BitVec 11) (s : State) : Out :=
  issue (.std t a wa disp) (storeEff (.std t a wa disp) t a disp 8) s

/-- STV captures its row at issue (R199). -/
def execStv (t a : Reg) (wa : Bool) (disp : BitVec 11) (s : State) : Out :=
  issue (.stv t a wa disp) (fun s => .next (s.addAccess s.cur (.stv t a wa disp) fun c e =>
    { e with ea := effAddr (c.getX a) disp 64, va := c.getX a, row := c.getV t, todo := allWords })) s

/-- LDA (R200). -/
def execLda (d a : Reg) (wa : Bool) (z : Width) (sc : Scope) (s : State) : Out :=
  issue (.lda d a wa z sc) (fun s => .next (s.addAccess s.cur (.lda d a wa z sc) fun c e =>
    { e with ea := c.getX a, va := c.getX a })) s

/-- STL (R200). -/
def execStl (a b : Reg) (wa wb : Bool) (z : Width) (sc : Scope) (s : State) : Out :=
  issue (.stl a b wa wb z sc) (fun s => .next (s.addAccess s.cur (.stl a b wa wb z sc) fun c e =>
    { e with ea := c.getX a, va := c.getX a, vb := c.getX b, vt := c.getX b })) s

def execAmog (d a b : Reg) (o : AmoOrd) (fn : AmoFn) (s : State) : Out :=
  issue (.amog d a b o fn) (amoEff (.amog d a b o fn) d a b fn) s

def execAmod (d a b : Reg) (o : AmoOrd) (fn : AmoFn) (s : State) : Out :=
  issue (.amod d a b o fn) (amoEff (.amod d a b o fn) d a b fn) s

def execAmos (d a b : Reg) (o : AmoOrd) (fn : AmoFn) (s : State) : Out :=
  issue (.amos d a b o fn) (amoEff (.amos d a b o fn) d a b fn) s

/-- FENCE waits in the memory path until what it orders has been performed (R204). -/
def execFence (eng : Bool) (k : FenceKind) (sc : Scope) (s : State) : Out :=
  issue (.fence eng k sc) (fun s => .next ((s.addAccess s.cur (.fence eng k sc) fun _ e => e).tidy s.cur)) s

def execWlpsh (d a b : Reg) (wa wb : Bool) (s : State) : Out :=
  issue (.wlpsh d a b wa wb) (listEff (.wlpsh d a b wa wb) a b) s

def execWlins (d a b : Reg) (wa wb : Bool) (s : State) : Out :=
  issue (.wlins d a b wa wb) (listEff (.wlins d a b wa wb) a b) s

end Sys2Proof.Machine
end

