-- ==== Sys2Proof/Machine/Slots.lean ====
section
/-! DEFINITION. The effect of a slot inside a bundle, and of a repeat of a REP: the slot's own meaning. -/

namespace Sys2Proof.Machine

/-- A slot runs its meaning; an event is no slot. -/
def execSlot (i : Instr) (s : State) : Out :=
  match i with
  | .nop => execNop s
  | .rep cnt ds as bs => execRep cnt ds as bs s
  | .add d a b wa wb => execAdd d a b wa wb s
  | .sub d a b wa wb => execSub d a b wa wb s
  | .and d a b wa wb => execAnd d a b wa wb s
  | .or d a b wa wb => execOr d a b wa wb s
  | .xor d a b wa wb => execXor d a b wa wb s
  | .andn d a b wa wb => execAndn d a b wa wb s
  | .shl d a b wa wb => execShl d a b wa wb s
  | .shr d a b wa wb => execShr d a b wa wb s
  | .sra d a b wa wb => execSra d a b wa wb s
  | .ror d a b wa wb => execRor d a b wa wb s
  | .slt d a b wa wb => execSlt d a b wa wb s
  | .sltn d a b wa wb => execSltn d a b wa wb s
  | .seq d a b wa wb => execSeq d a b wa wb s
  | .min d a b wa wb => execMin d a b wa wb s
  | .max d a b wa wb => execMax d a b wa wb s
  | .sel d a b wa wb => execSel d a b wa wb s
  | .mul d a b wa wb => execMul d a b wa wb s
  | .mulh d a b wa wb => execMulh d a b wa wb s
  | .mulhn d a b wa wb => execMulhn d a b wa wb s
  | .div d a b wa wb => execDiv d a b wa wb s
  | .divn d a b wa wb => execDivn d a b wa wb s
  | .rem d a b wa wb => execRem d a b wa wb s
  | .remn d a b wa wb => execRemn d a b wa wb s
  | .minn d a b wa wb => execMinn d a b wa wb s
  | .maxn d a b wa wb => execMaxn d a b wa wb s
  | .clz d a w wa => execClz d a w wa s
  | .ffs d a w wa => execFfs d a w wa s
  | .popc d a w wa => execPopc d a w wa s
  | .brev d a w wa => execBrev d a w wa s
  | .sext d a w wa => execSext d a w wa s
  | .zext d a w wa => execZext d a w wa s
  | .addi d a wa imm => execAddi d a wa imm s
  | .andi d a wa imm => execAndi d a wa imm s
  | .ori d a wa imm => execOri d a wa imm s
  | .xori d a wa imm => execXori d a wa imm s
  | .shli d a wa n => execShli d a wa n s
  | .shri d a wa n => execShri d a wa n s
  | .srai d a wa n => execSrai d a wa n s
  | .slti d a wa imm => execSlti d a wa imm s
  | .sltni d a wa imm => execSltni d a wa imm s
  | .li d imm => execLi d imm s
  | .lis d imm => execLis d imm s
  | .addpc d imm => execAddpc d imm s
  | .beq a b off => execBeq a b off s
  | .bne a b off => execBne a b off s
  | .blt a b off => execBlt a b off s
  | .bge a b off => execBge a b off s
  | .bltn a b off => execBltn a b off s
  | .bgen a b off => execBgen a b off s
  | .jmp off => execJmp off s
  | .jal off => execJal off s
  | .jr d a wa => execJr d a wa s
  | .loop a l off => execLoop a l off s
  | .quiet a n => execQuiet a n s
  | .tkw ka kb kc => execTkw ka kb kc s
  | .waitc a b wa wb sc c => execWaitc a b wa wb sc c s
  | .bar id => execBar id s
  | .tend => execTend s
  | .slk n => execSlk n s
  | .vadd d a b mk t => execVadd d a b mk t s
  | .vsub d a b mk t => execVsub d a b mk t s
  | .vmul d a b mk t => execVmul d a b mk t s
  | .vfma d a b mk t => execVfma d a b mk t s
  | .vfms d a b mk t => execVfms d a b mk t s
  | .vfnm d a b mk t => execVfnm d a b mk t s
  | .vmin d a b mk t => execVmin d a b mk t s
  | .vmax d a b mk t => execVmax d a b mk t s
  | .vminm d a b mk t => execVminm d a b mk t s
  | .vmaxm d a b mk t => execVmaxm d a b mk t s
  | .vabs d a mk t => execVabs d a mk t s
  | .vneg d a mk t => execVneg d a mk t s
  | .vsfn d a fn mk t => execVsfn d a fn mk t s
  | .vcmp e c a b mk t => execVcmp e c a b mk t s
  | .vsel d a b mk t => execVsel d a b mk t s
  | .vand d a b mk t => execVand d a b mk t s
  | .vor d a b mk t => execVor d a b mk t s
  | .vxor d a b mk t => execVxor d a b mk t s
  | .vshl d a b mk t => execVshl d a b mk t s
  | .vshr d a b mk t => execVshr d a b mk t s
  | .vsra d a b mk t => execVsra d a b mk t s
  | .vcvt d a dt rm mk t => execVcvt d a dt rm mk t s
  | .vqmx a b mk t => execVqmx a b mk t s
  | .vred d a op mk t => execVred d a op mk t s
  | .vscan d a mk t => execVscan d a mk t s
  | .vperm d a b mk t => execVperm d a b mk t s
  | .vbcst d a mk t => execVbcst d a mk t s
  | .vext d a b t => execVext d a b t s
  | .vins d a b mk t => execVins d a b mk t s
  | .viota d mk t => execViota d mk t s
  | .vbits d a op mk t => execVbits d a op mk t s
  | .vprune d a b mk t => execVprune d a b mk t s
  | .vrand d uniform mk t => execVrand d uniform mk t s
  | .vscl d a b mk t => execVscl d a b mk t s
  | .vmov d a mk t => execVmov d a mk t s
  | .vmsk e f op => execVmsk e f op s
  | .vmcnt d f t => execVmcnt d f t s
  | .mpcw a wa => execMpcw a wa s
  | .mlw p kd ka kb kc => execMlw p kd ka kb kc s
  | .mla p kd ka kb kc => execMla p kd ka kb kc s
  | .mma p kd ka kb kc => execMma p kd ka kb kc s
  | .mman p kd ka kb kc => execMman p kd ka kb kc s
  | .mmab p kd ka kb kc => execMmab p kd ka kb kc s
  | .mdr p kd ka kb kc => execMdr p kd ka kb kc s
  | .mza p kd ka kb kc => execMza p kd ka kb kc s
  | .mrb p kd ka kb kc => execMrb p kd ka kb kc s
  | .mstat p kd ka kb kc => execMstat p kd ka kb kc s
  | .ldbs t a wa disp => execLdbs t a wa disp s
  | .ldbn t a wa disp => execLdbn t a wa disp s
  | .ldhs t a wa disp => execLdhs t a wa disp s
  | .ldhn t a wa disp => execLdhn t a wa disp s
  | .ldws t a wa disp => execLdws t a wa disp s
  | .ldwn t a wa disp => execLdwn t a wa disp s
  | .ldd t a wa disp => execLdd t a wa disp s
  | .stb t a wa disp => execStb t a wa disp s
  | .sth t a wa disp => execSth t a wa disp s
  | .stw t a wa disp => execStw t a wa disp s
  | .std t a wa disp => execStd t a wa disp s
  | .ldv t a wa disp => execLdv t a wa disp s
  | .stv t a wa disp => execStv t a wa disp s
  | .lda d a wa z sc => execLda d a wa z sc s
  | .stl a b wa wb z sc => execStl a b wa wb z sc s
  | .amog d a b o fn => execAmog d a b o fn s
  | .amod d a b o fn => execAmod d a b o fn s
  | .amos d a b o fn => execAmos d a b o fn s
  | .fence eng k sc => execFence eng k sc s
  | .rgmap p kd ka kb kc => execRgmap p kd ka kb kc s
  | .rgwb p kd ka kb kc => execRgwb p kd ka kb kc s
  | .rginv p kd ka kb kc => execRginv p kd ka kb kc s
  | .wlpsh d a b wa wb => execWlpsh d a b wa wb s
  | .wlpop p kd ka kb kc => execWlpop p kd ka kb kc s
  | .wlins d a b wa wb => execWlins d a b wa wb s
  | .cpy p kd ka kb kc => execCpy p kd ka kb kc s
  | .cprWrite p kd ka kb kc => execCprWrite p kd ka kb kc s
  | .cprRead p kd ka kb kc => execCprRead p kd ka kb kc s
  | .crd p kd ka kb kc => execCrd p kd ka kb kc s
  | .csg p kd ka kb kc sc => execCsg p kd ka kb kc sc s
  | .gth p kd ka kb kc => execGth p kd ka kb kc s
  | .sct p kd ka kb kc => execSct p kd ka kb kc s
  | .sca p kd ka kb kc => execSca p kd ka kb kc s
  | .spl p kd ka kb kc => execSpl p kd ka kb kc s
  | .sps p kd ka kb kc => execSps p kd ka kb kc s
  | .spa p kd ka kb kc => execSpa p kd ka kb kc s
  | .spi p kd ka kb kc => execSpi p kd ka kb kc s
  | .spd p kd ka kb kc => execSpd p kd ka kb kc s
  | .lnch p kd ka kb kc => execLnch p kd ka kb kc s
  | .mfc d n => execMfc d n s
  | .mtc a n => execMtc a n s
  | .trap n => execTrap n s
  | .sysRft => execSysRft s
  | .sysHalt => execSysHalt s
  | .sysTlbi a => execSysTlbi a s
  | .sysTlbia => execSysTlbia s
  | .sysGsw a => execSysGsw a s
  | .sysCut a => execSysCut a s
  | .sysCeresume a => execSysCeresume a s
  | .sysSrgrow a => execSysSrgrow a s
  | .rget d => execRget d s
  | .rskip a b wa wb => execRskip a b wa wb s
  | .rseed a b wa wb => execRseed a b wa wb s
  | .rctl d => execRctl d s
  | .rcth d => execRcth d s
  | .repRepeat _ | .hogRotation _ | .stallClear _ | .divideComplete _ _ | .loadComplete _ _ | .vextDeferredFill _ _
  | .atomicPerform _ _ | .memoryFaultReport _ | .waitcRecheck _ | .barrierRelease _ _ | .tendDrainEnd _ | .taskCommit _
  | .matrixCommandStart _ | .matrixCommandComplete _ | .arrayEnableGrant _ | .arrayDisable _ | .engineCommandStart _ | .nbHoldRelease _
  | .engineCommandComplete _ | .enginePark _ | .faultRingDrain _ | .pageWalkComplete _ _ | .replicatedWrite _ | .workListOperation _
  | .workListSpillComplete _ | .sparseOperation _ | .launchDistribution _ | .launchAcceptance _ | .launchRefusal _ | .phaseStart _
  | .phaseBegin _ | .phaseReport _ | .taskPlacement _ | .tileFillComplete _ _ | .taskBind _ | .taskAging _ _
  | .groupReservation _ _ | .write _ | .read _ | .reduce _ | .counterAdd _ | .acknowledge _
  | .readData _ | .parkNotice _ | .resumeNotice _ | .floor _ | .heldRequestRelease _ | .requestResend _
  | .requestTimeout _ | .tagQuarantineEnd _ | .packetForward _ | .packetExpiry _ | .creditReturn _ _ _ | .linkResendRequest _
  | .trainingComplete _ _ _ | .trainingTimeout _ | .retrainingStart _ | .retrainingComplete _ | .retrainingTimeout _ | .beaconSend
  | .beacon _ _ | .echo _ _ | .alignmentLoss | .manage _ | .cutOpen _ | .cutReport _
  | .cutTarget _ | .cutTimeLimit _ | .contextSave _ | .switchAcceptance _ | .switchFreeze _ _ | .sweepFence _ _
  | .sweepTimeout _ _ | .localSweepComplete _ | .tagChange _ | .switchResume _ | .powerOn _ | .seqgo _ _
  | .ctxrst _ | .quoteNonce _ | .quoteComplete | .routeEntryWrite _ _ | .fstepWrite _ | .portEnable _
  | .portDisable _ | .counterWrite _ _ | .hostRegisterWrite _ _ | .hostMemoryAccess _ _ | .thermalUpdate _ _ _ | .powerMonitor _
  | .haltDrainEnd _ | .saveCompleteReport _ | .launchAnswerTimeout _ => .next s

end Sys2Proof.Machine
end

