-- ==== Sys2Proof/Machine/Events.lean ====
section
/-! DEFINITION. The events of the opcode table, each one indivisible step. An event whose condition does not hold leaves the state as
it is; when it comes is for `State.sched` to say (DESIGN CHOICE, log entry 14). -/

namespace Sys2Proof.Machine

/-! Helpers. -/

/-- The context goes on: it is not frozen (R414, R418). -/
def State.goes (s : State) (n : Nat) : Bool := (s.ctxAt n).st != .frozen

/-- A step for an agent that is not frozen. -/
def State.whenGoing (s : State) (n : Nat) (f : State → State) : State := if s.goes n then f s else s

def isDivide : Instr → Bool
  | .div _ _ _ _ _ | .divn _ _ _ _ _ | .rem _ _ _ _ _ | .remn _ _ _ _ _ => true
  | _ => false

/-- The divider writes its result, 6 cycles after issue at the earliest (R116). -/
def divideDone (s : State) (n sn : Nat) : State :=
  match (s.ctxAt n).findAcc sn with
  | some a =>
    if isDivide a.ins && a.since + 6 ≤ s.now then
      s.modCtx n fun c => (c.fillAccess a (divResult a.ins a.va a.vb)).dropAcc sn
    else s
  | none => s

/-- A load has filled its register, but for a row that a command accepted since has still to write (R20); a VEXT that waited on the row
takes its lane (R198, R102). -/
def loadDone (s : State) (n sn : Nat) : State := ((loadComplete s n sn).keepOwed n).modCtx n Ctx.settleVext

/-- VEXT_DEFERRED_FILL: x[D] is filled with the lane that the VEXT took (R102). -/
def vextDone (s : State) (n sn : Nat) : State :=
  match (s.ctxAt n).findAcc sn with
  | some a =>
    match a.ins, a.st with
    | .vext d _ _ _, .got v =>
      if vextDue s n a d then s.modCtx n fun c => ((c.setX d v).markX d true).dropAcc sn else s
    | _, _ => s
  | none => s

/-- One of the 32 walks under way at a unit ends: its leaf is held, and the accesses that waited on the page are taken up again, or fault
(R193, R303, R305). -/
def walkDone (s : State) (unit i : Nat) : State :=
  match (s.unitAt unit).walks[i]? with
  | none => s
  | some w =>
    if 32 ≤ i then s
    else
      let r := s.walk (wordOfNat w.root) (w.page * 4096)
      let who := s.ctxs.filter fun q => unitOf q.1 = unit && q.2.job = w.job && q.2.acc.any fun a => a.st = .walking w.page
      let t := s.endWalk unit w.job (w.page * 4096) r
      match r with
      | .ok _ => who.foldl (fun t q =>
          (q.2.acc.filter fun a => a.st = .walking w.page).foldl (fun t a => t.translateAcc q.1 { a with st := .waiting }) t) t
      | .error _ => t

/-- A write to a replicated page is applied at the replica of die i % 2, in the order of its page; once both replicas have it, it is
performed (R328). -/
def replicaStep (s : State) (i : Nat) : State :=
  match s.rw[i / 2]? with
  | none => s
  | some r =>
    if (s.rw.take (i / 2)).any fun q => q.leads r && !q.at (i % 2) then s
    else
      let r := if i % 2 = 0 then { r with die0 := true } else { r with die1 := true }
      if r.die0 && r.die1 then { s.homeWrite r.owner r.key r.en r.val with rw := s.rw.eraseIdx (i / 2) }
      else { s with rw := s.rw.set (i / 2) r }

/-- The next enable slot, 115 cycles after the last, goes to the cluster that asked first (R355). -/
def enableGrant (s : State) (cl : Nat) : State :=
  let open_ := match s.lastGrant with | some t => t + 115 ≤ s.now | none => true
  if enableFirst s = some cl && open_ then
    { s.setCluster cl { s.clusterAt cl with arraysOn := true, asked := none, lastBeat := s.now } with lastGrant := some s.now }
  else s

/-- The request belongs to a job that is frozen here: its timers stand still (R418). -/
def State.reqFrozen (s : State) (id : Nat) : Bool :=
  s.fab.reqs.any fun r => r.id = id && s.jobs.any fun j => j.job = r.pkt.jid && j.frozen

/-- The manager device: this one when its FDEV says so, else the one that the configuration image names (R369, R389). -/
def State.manager (s : State) : Nat := if s.fdev.getLsbD 16 then s.ownDev else Config.managerDev

/-- A manage packet of the manager device writes one register of the fabric block or the route table, by its offset in the control window;
one of another device is discarded (R369; log entry 46). -/
def State.managed (s : State) (m : Nat) : State :=
  s.ctlHere m 0x24 fun s fl =>
    let s := s.dropFlight m
    match fl.pkt.ctl with
    | .manage off v => if fl.pkt.src = s.manager && 0x100000 ≤ off && off < 0x114000 then s.ctrlWrite off v else s
    | _ => s

/-- A register that the control window serves only once the device has booted (R462). -/
def State.whenBooted (s : State) (f : State → State) : State := if s.plat.booted then f s else s

/-! The pipeline and the memory path. -/

def execRepRepeat (ag : Agent) (s : State) : Out := repRepeat execSlot s (agentNum ag)
def execHogRotation (core : Nat) (s : State) : Out := .next (s.rotate core)
def execStallClear (ag : Agent) (s : State) : Out := stallClear s (agentNum ag)
def execDivideComplete (ag : Agent) (sn : Nat) (s : State) : Out :=
  .next (s.whenGoing (agentNum ag) fun s => divideDone s (agentNum ag) sn)
def execLoadComplete (ag : Agent) (sn : Nat) (s : State) : Out :=
  .next (s.whenGoing (agentNum ag) fun s => loadDone s (agentNum ag) sn)
def execVextDeferredFill (ag : Agent) (sn : Nat) (s : State) : Out :=
  .next (s.whenGoing (agentNum ag) fun s => vextDone s (agentNum ag) sn)
def execAtomicPerform (ag : Agent) (sn : Nat) (s : State) : Out :=
  .next (s.whenGoing (agentNum ag) fun s => atomicStep s (agentNum ag) sn)
def execMemoryFaultReport (ag : Agent) (s : State) : Out := faultReport s (agentNum ag)
def execWaitcRecheck (ag : Agent) (s : State) : Out := waitRecheck s (agentNum ag)
def execBarrierRelease (grp : Nat) (id : BitVec 12) (s : State) : Out := .next (s.releaseBarrier grp id)
def execTendDrainEnd (ag : Agent) (s : State) : Out := s.tendDrained (agentNum ag)
/-- The task's context counts no more in a cut or switch of its job (R412). -/
def execTaskCommit (ag : Agent) (s : State) : Out :=
  .next ((s.commit (agentNum ag)).gangTidy (s.ctxAt (agentNum ag)).job)

/-! The matrix engine. -/

/-- A command of a job under restore waits for the resume step (R422). -/
def execMatrixCommandStart (c : Nat) (s : State) : Out :=
  .next (if (s.findCmd c).any s.stopped then s else matrixStart s c)
def execMatrixCommandComplete (c : Nat) (s : State) : Out := .next (matrixComplete s c)
def execArrayEnableGrant (cluster : Nat) (s : State) : Out := .next (enableGrant s cluster)
def execArrayDisable (cluster : Nat) (s : State) : Out := .next (arrayDisable s cluster)

/-! The other engines and translation. -/

def execEngineCommandStart (c : Nat) (s : State) : Out := .next (engineStart s c)
def execNbHoldRelease (c : Nat) (s : State) : Out := .next (nbRelease s c)
def execEngineCommandComplete (c : Nat) (s : State) : Out := .next (engineComplete s c)
def execEnginePark (c : Nat) (s : State) : Out := .next (s.parkCmd c)
def execFaultRingDrain (die : Nat) (s : State) : Out := .next (s.drainRing die)
def execPageWalkComplete (unit n : Nat) (s : State) : Out := .next (walkDone s unit n)
def execReplicatedWrite (n : Nat) (s : State) : Out := .next (replicaStep s n)
def execWorkListOperation (core : Nat) (s : State) : Out := .next (workListStep s core)
def execWorkListSpillComplete (core : Nat) (s : State) : Out := .next (spillStep s core)
def execSparseOperation (c : Nat) (s : State) : Out :=
  .next (if (s.findCmd c).any s.stopped then s else sparseStep s c)

/-! Launches. -/

def execLaunchDistribution (m : Nat) (s : State) : Out := .next (s.distribute m)
def execLaunchAcceptance (m : Nat) (s : State) : Out := .next (s.acceptance m)
def execLaunchRefusal (m : Nat) (s : State) : Out := .next (s.refusal m)
def execPhaseStart (m : Nat) (s : State) : Out := .next (s.phaseStart m)
def execPhaseBegin (sh : Nat) (s : State) : Out := .next (s.phaseBegin sh)
def execPhaseReport (m : Nat) (s : State) : Out := .next (s.phaseReport m)
def execTaskPlacement (die : Nat) (s : State) : Out := .next ((s.gangPlacement die).placement die)
def execTileFillComplete (t tile : Nat) (s : State) : Out := .next (s.fillComplete t tile)
def execTaskBind (t : Nat) (s : State) : Out := .next (s.bind t)
def execTaskAging (sh idx : Nat) (s : State) : Out := .next (s.ageTask sh idx)
def execGroupReservation (sh idx : Nat) (s : State) : Out := .next (s.reserveGroup sh idx)

/-! The fabric. -/

def execWrite (n : Nat) (s : State) : Out := .next (s.requestArrives n 1)
def execRead (n : Nat) (s : State) : Out := .next (s.requestArrives n 2)
def execReduce (n : Nat) (s : State) : Out := .next (s.requestArrives n 3)
def execCounterAdd (n : Nat) (s : State) : Out := .next (s.requestArrives n 4)
def execAcknowledge (n : Nat) (s : State) : Out := .next (s.acknowledge n)
def execReadData (n : Nat) (s : State) : Out := .next (s.readData n)
def execParkNotice (n : Nat) (s : State) : Out := .next (s.parkNotice n)
def execResumeNotice (n : Nat) (s : State) : Out := .next (s.resumeNotice n)
def execFloor (n : Nat) (s : State) : Out := .next (s.floorArrives n)
def execHeldRequestRelease (n : Nat) (s : State) : Out := .next (s.releaseHeld n)
def execRequestResend (r : Nat) (s : State) : Out := .next (if s.reqFrozen r then s else s.resend r)
def execRequestTimeout (r : Nat) (s : State) : Out := .next (if s.reqFrozen r then s else s.requestTimeout r)
def execTagQuarantineEnd (die : Nat) (s : State) : Out := .next (s.endQuarantine die)
def execPacketForward (n : Nat) (s : State) : Out := .next (s.forwardOrDrop n)
def execPacketExpiry (n : Nat) (s : State) : Out := .next (s.expire n)
def execCreditReturn (port ch : Nat) (reserved : Bool) (s : State) : Out :=
  .next (s.creditReturn port ch reserved)
def execLinkResendRequest (port : Nat) (s : State) : Out := .next (s.linkResend port)
def execTrainingComplete (port ndev nport : Nat) (s : State) : Out := .next (s.trainOk port ndev nport)
def execTrainingTimeout (port : Nat) (s : State) : Out := .next (s.trainFail port)
def execRetrainingStart (port : Nat) (s : State) : Out := .next (s.retrain port)
def execRetrainingComplete (port : Nat) (s : State) : Out := .next (s.retrainOk port)
def execRetrainingTimeout (port : Nat) (s : State) : Out := .next (s.retrainFail port)
def execBeaconSend (s : State) : Out := .next s.sendBeacons
def execBeacon (port : Nat) (cyc : BitVec 80) (s : State) : Out := .next (s.beacon port cyc)
def execEcho (port delay : Nat) (s : State) : Out := .next (s.echo port delay)
def execAlignmentLoss (s : State) : Out := .next s.loseAlignment
def execManage (n : Nat) (s : State) : Out := .next (s.managed n)

/-! Cuts and switches. -/

def execCutOpen (m : Nat) (s : State) : Out := .next (s.cutOpened m)
def execCutReport (m : Nat) (s : State) : Out := .next (s.cutReported m)
def execCutTarget (m : Nat) (s : State) : Out := .next (s.cutTargeted m)
def execCutTimeLimit (ag : Agent) (s : State) : Out := .next (s.cutLimit (agentNum ag))
def execContextSave (ag : Agent) (s : State) : Out := .next (s.saveCtx (agentNum ag))
def execSwitchAcceptance (m : Nat) (s : State) : Out := .next (s.switchAccepted m)
def execSwitchFreeze (die job : Nat) (s : State) : Out := .next (s.switchFreeze die job)
def execSweepFence (job : Nat) (pl : Place) (s : State) : Out := .next (s.sweepFence job pl)
def execSweepTimeout (job : Nat) (pl : Place) (s : State) : Out := .next (s.sweepTimeout job pl)
def execLocalSweepComplete (job : Nat) (s : State) : Out := .next (s.localSweep job)
def execTagChange (m : Nat) (s : State) : Out := .next (s.tagChanged m)
def execSwitchResume (job : Nat) (s : State) : Out := .next (s.switchResume job)

/-! The platform and the host. -/

def execPowerOn (fail : Nat) (s : State) : Out := .next (s.powerOn fail)
def execSeqgo (die : Nat) (v : Word) (s : State) : Out := .next (s.whenBooted fun s => s.seqStart die v)
def execCtxrst (v : Word) (s : State) : Out := .next (s.whenBooted fun s => s.ctxReset v)
/-- A host write of the whole nonce; each word of it starts or restarts the quote (R464). -/
def execQuoteNonce (nonce : BitVec 256) (s : State) : Out :=
  .next { s with plat := { s.plat with nonce := nonce, quoting := true, quoted := false } }
def execQuoteComplete (s : State) : Out := .next s.quoteDone
def execRouteEntryWrite (d : Nat) (v : BitVec 32) (s : State) : Out := .next (s.whenBooted fun s => s.writeRoute d v)
def execFstepWrite (v : Word) (s : State) : Out := .next (s.whenBooted fun s => s.writeFstep v)
def execPortEnable (port : Nat) (s : State) : Out := .next (s.whenBooted fun s => s.enablePort port true)
def execPortDisable (port : Nat) (s : State) : Out := .next (s.whenBooted fun s => s.enablePort port false)
def execCounterWrite (i : Nat) (v : Word) (s : State) : Out := .next (s.whenBooted fun s => s.writeCounter i v)
def execHostRegisterWrite (off : Nat) (v : Word) (s : State) : Out := .next (s.ctrlWrite off v)
def execHostMemoryAccess (off : Nat) (w : Option Word) (s : State) : Out := .next (s.hostAccess off w)
def execThermalUpdate (region temp stackTemp : Nat) (s : State) : Out := .next (s.thermalUpdate region temp stackTemp)
/-- R468. -/
def execPowerMonitor (above : Bool) (s : State) : Out := .next { s with overPower := above }
def execHaltDrainEnd (ag : Agent) (s : State) : Out :=
  .next ((s.haltDrained (agentNum ag)).gangTidy (s.ctxAt (agentNum ag)).job)
def execSaveCompleteReport (m : Nat) (s : State) : Out := .next (s.saveReported m)
def execLaunchAnswerTimeout (l : Nat) (s : State) : Out := .next (s.answerTimeout l)

end Sys2Proof.Machine
end

