-- ==== Sys2Proof/Machine/Picks.lean ====
section
/-! DEFINITION. The moves of the machine (log entry 14): who issues, which access the memory path performs, which write becomes
visible to whom (spec/14_ordering.md R316 to R320), how far an engine walks, what arrives from outside. The move that is made when
`State.sched` names none. -/

namespace Sys2Proof.Machine

/-! Writes become visible. -/

/-- A pending write becomes visible to its group, to every agent, or on a UO page to one agent more (R316, R317, R320). -/
def State.propagate (s : State) (i : Nat) (view : Option Nat) : State :=
  match s.pw[i]?, view with
  | none, _ => s
  | some _, some a => s.observe i a
  | some p, none =>
    if !p.grpSeen && !p.uo then
      { s with pw := s.pw.set i { p with grpSeen := true }, early := s.noteFor p.owner p.key fun a => s.grpOf a = s.grpOf p.owner }
    else if (s.pw.take i).all (mayPass p) then s.commitOne p (s.pw.eraseIdx i) else s

/-- Agent n reads a word ahead of its program order (R318): a word of scratch or of an RC page with one copy, through a held entry, that
it can read in one piece and has not read ahead already. -/
def State.readAhead (s : State) (n : Nat) (a : Word) : State :=
  let c := s.ctxAt n
  let piece : Option Piece := match coreTarget a with
    | .scratch sa => if s.scrOpen sa 1 then some { key := scrKey sa } else none
    | .virt va =>
      ((s.unitAt (unitOf n)).find c.job va).bind fun t =>
        match checkLeaf s t.leaf t.size va 1 { kernel := c.kernel } with
        | .ok p => some p
        | .error _ => none
    | .nonCanonical => none
  match piece with
  | some p =>
    let key := p.key / 8 * 8
    if p.ord = .rc && p.repl.isNone && s.readable n key && !s.isPoison n key && (s.earlyAt n key).isNone then
      { s with early := s.early ++ [{ agent := n, key := key, val := s.view n key }] }
    else s
  | none => s

/-! Errors of memories and links (R188, R291, R461). -/

/-- A word of scratch or of a stack takes an error: one bit is corrected and counted, more make the word poison. -/
def State.softError (s : State) (key : Nat) (uncorrectable : Bool) : State :=
  let w := key / 8 * 8
  let die := if isScr w then coreDie (scrCore w) else homeDie w
  let i := (if isScr w then 0 else 4) + ofBoolNat uncorrectable
  if isScr w && 288 ≤ scrCore w || !isScr w && (!installed w 8 || 2 ^ 47 ≤ w) then s
  else
    let s := s.countError die i
    if uncorrectable then { s with poison := natAdd s.poison w } else s

/-- An 8-byte word of the weight store of a core takes an error: one bit is corrected and counted, more mark both 4-byte words (R188,
R299, R461). -/
def State.weightError (s : State) (core w : Nat) (uncorrectable : Bool) : State :=
  if 288 ≤ core || 2048 * 256 ≤ w then s
  else
    let s := s.countError (coreDie core) (2 + ofBoolNat uncorrectable)
    if uncorrectable then s.modCore core fun k =>
      let g := k.granule (w / 256)
      let mark := fun (x : WeightWord) => { x with bad := true }
      { k with store := mapSet k.store (w / 256) { g with words := (g.words.modify (2 * (w % 256)) mark).modify (2 * (w % 256) + 1) mark } }
    else s

/-! A move. -/

/-- The instruction is a slot, not an event. -/
def isSlot (i : Instr) : Bool := (encode i).isSome

/-- Make a move; `run` gives an instruction its meaning. -/
def doPick (run : Instr → State → Out) (p : Pick) (s : State) : Out :=
  match p with
  | .issue ag => issueStep run s (agentNum ag)
  | .perform ag sn words => .next (s.whenGoing (agentNum ag) fun s => performAccess s (agentNum ag) sn words)
  | .readAhead ag a => .next (s.whenGoing (agentNum ag) fun s => s.readAhead (agentNum ag) a)
  | .engSee i => .next (s.engSee i)
  | .propagate i view => .next (s.propagate i view)
  | .advance c n => .next (s.advance c n)
  | .deliver port p => .next (s.deliver port p)
  | .linkAck port => .next (s.linkAck port)
  | .softError key unc => .next (s.softError key unc)
  | .weightError core w unc => .next (s.weightError core w unc)
  | .hostOwn off v => .next (s.hostOwn off v)
  | .hostRead off => .next (s.hostRegRead off)
  | .dropKept core base => .next (s.modCore core fun k => { k with kept := k.kept.filter fun e => e.base != base })
  | .bridgeResend die => .next (s.countError (die % 2) 7)
  | .event i => if isSlot i then .next s else run i s

/-! The move that is made when none is scheduled: writes on their way, then the current context's memory path, then the engines, then the
next bundle (DESIGN CHOICE, log entry 14). -/

def agentOf (n : Nat) : Agent := if isSeq n then .seq (n - numContexts) else .ctx n

/-- What an outstanding access does next, if it can. -/
def accessPick (s : State) (n : Nat) (a : Access) : Option Pick :=
  let ag := agentOf n
  match a.st with
  | .got _ =>
    (match a.ins with
    | .vext d _ _ _ => if vextDue s n a d then some (.event (.vextDeferredFill ag a.sn)) else none
    | _ => some (.event (.loadComplete ag a.sn)))
  | .faulted _ _ _ => if firstFaulted (s.ctxAt n).acc = some a then some (.event (.memoryFaultReport ag)) else none
  | .walking page => ((s.unitAt (unitOf n)).walks.findIdx? fun w => w.page = page).map fun i => .event (.pageWalkComplete (unitOf n) i)
  | .waiting =>
    if isDivide a.ins then (if a.since + 6 ≤ s.now then some (.event (.divideComplete ag a.sn)) else none)
    else if isListOp a.ins then
      (if mayPerform s n a then some (.event (.workListOperation (listAddr a.ea / 2 ^ 22))) else none)
    else if isMem a.ins && (a.wr.isEmpty || mayPerform s n a) then some (.perform ag a.sn (BitVec.allOnes 512)) else none
  | .ready p q =>
    if isAmo a.ins then (if amoReady s n a p then some (.event (.atomicPerform ag a.sn)) else none)
    else if !mayPerform s n a || (q.isNone && !soFree (s.ctxAt n) a p) then none
    else some (.perform ag a.sn (BitVec.allOnes 512))

/-- What a command does next, if it can. -/
def commandPick (s : State) (c : Cmd) : Option Pick :=
  if s.stopped c then none
  else match c.st with
    | .queued =>
      if c.kind = .slot && isMatrix c.ins then
        (if !matrixReady s c then none
         else if isMul c.ins && (s.clusterAt (clusterOf (coreOf c.agent))).asked.isSome then
           (enableFirst s).map fun cl => .event (.arrayEnableGrant cl)
         else some (.event (.matrixCommandStart c.id)))
      else if c.tokensFree && !fenceBlocks s c && releaseReady s c then some (.event (.engineCommandStart c.id)) else none
    | .held => if nbReady s c then some (.event (.nbHoldRelease c.id)) else none
    | .faulting _ _ _ => some (.event (.enginePark c.id))
    | .parked _ => none
    | .running | .done =>
      if s.fab.reqs.any (·.cmd = c.id) then none
      else match c.kind with
        | .fill t x => some (.event (.tileFillComplete t x))
        | .writeback _ _ _ => none
        | .spill _ core => some (.event (.workListSpillComplete core))
        | .grow => some (.event (.sparseOperation c.id))
        | .slot =>
          if isMatrix c.ins then some (.event (.matrixCommandComplete c.id))
          else if isSparseOp c.ins && c.st = .running then some (.event (.sparseOperation c.id))
          else match c.ins with
            | .wlpop _ _ _ _ _ => some (if c.st = .running && c.done = 0 then .event (.workListOperation (popHdr c / 2 ^ 22))
                else .event (.engineCommandComplete c.id))
            | .lnch _ _ _ _ _ => if s.launches.any (·.cmd = c.id) then none else some (.event (.engineCommandComplete c.id))
            | _ => some (.event (.engineCommandComplete c.id))
        | _ => some (.event (.engineCommandComplete c.id))
where
  isSparseOp : Instr → Bool
    | .spl _ _ _ _ _ | .sps _ _ _ _ _ | .spa _ _ _ _ _ | .spi _ _ _ _ _ | .spd _ _ _ _ _ => true
    | _ => false

/-- What the context does next. -/
def contextPick (s : State) (n : Nat) : Pick :=
  let c := s.ctxAt n
  let ag := agentOf n
  if c.drain = .halt && c.st = .selected then .event (.haltDrainEnd ag)
  else if c.st = .stalled then
    match c.drain with
    | .tend => .event (if c.satisfied then .taskCommit ag else .tendDrainEnd ag)
    | _ => .event (if s.now % 2 = 0 then .stallClear ag else .waitcRecheck ag)
  else .issue ag

def defaultPick (s : State) : Pick :=
  if !s.pw.isEmpty then .propagate 0 none
  else match s.rw with
  | r :: _ => .event (.replicatedWrite (ofBoolNat r.die0))
  | [] =>
  match (s.ctxAt s.cur).acc.findSome? (accessPick s s.cur) with
  | some p => p
  | none =>
    match s.cmds.findSome? (commandPick s) with
    | some p => p
    | none => contextPick s s.cur

end Sys2Proof.Machine
end

