-- ==== Sys2Proof/Machine/Dispatch.lean ====
section
/-! DEFINITION. The meaning of every instruction of the opcode table, one arm per constructor. -/

namespace Sys2Proof.Machine

def exec (i : Instr) (s : State) : Host.Outcome State Fault Refusal :=
  match i with
  | .nop => Sys2Proof.Machine.execNop s
  | .rep cnt ds as bs => Sys2Proof.Machine.execRep cnt ds as bs s
  | .add d a b wa wb => Sys2Proof.Machine.execAdd d a b wa wb s
  | .sub d a b wa wb => Sys2Proof.Machine.execSub d a b wa wb s
  | .and d a b wa wb => Sys2Proof.Machine.execAnd d a b wa wb s
  | .or d a b wa wb => Sys2Proof.Machine.execOr d a b wa wb s
  | .xor d a b wa wb => Sys2Proof.Machine.execXor d a b wa wb s
  | .andn d a b wa wb => Sys2Proof.Machine.execAndn d a b wa wb s
  | .shl d a b wa wb => Sys2Proof.Machine.execShl d a b wa wb s
  | .shr d a b wa wb => Sys2Proof.Machine.execShr d a b wa wb s
  | .sra d a b wa wb => Sys2Proof.Machine.execSra d a b wa wb s
  | .ror d a b wa wb => Sys2Proof.Machine.execRor d a b wa wb s
  | .slt d a b wa wb => Sys2Proof.Machine.execSlt d a b wa wb s
  | .sltn d a b wa wb => Sys2Proof.Machine.execSltn d a b wa wb s
  | .seq d a b wa wb => Sys2Proof.Machine.execSeq d a b wa wb s
  | .min d a b wa wb => Sys2Proof.Machine.execMin d a b wa wb s
  | .max d a b wa wb => Sys2Proof.Machine.execMax d a b wa wb s
  | .sel d a b wa wb => Sys2Proof.Machine.execSel d a b wa wb s
  | .mul d a b wa wb => Sys2Proof.Machine.execMul d a b wa wb s
  | .mulh d a b wa wb => Sys2Proof.Machine.execMulh d a b wa wb s
  | .mulhn d a b wa wb => Sys2Proof.Machine.execMulhn d a b wa wb s
  | .div d a b wa wb => Sys2Proof.Machine.execDiv d a b wa wb s
  | .divn d a b wa wb => Sys2Proof.Machine.execDivn d a b wa wb s
  | .rem d a b wa wb => Sys2Proof.Machine.execRem d a b wa wb s
  | .remn d a b wa wb => Sys2Proof.Machine.execRemn d a b wa wb s
  | .minn d a b wa wb => Sys2Proof.Machine.execMinn d a b wa wb s
  | .maxn d a b wa wb => Sys2Proof.Machine.execMaxn d a b wa wb s
  | .clz d a w wa => Sys2Proof.Machine.execClz d a w wa s
  | .ffs d a w wa => Sys2Proof.Machine.execFfs d a w wa s
  | .popc d a w wa => Sys2Proof.Machine.execPopc d a w wa s
  | .brev d a w wa => Sys2Proof.Machine.execBrev d a w wa s
  | .sext d a w wa => Sys2Proof.Machine.execSext d a w wa s
  | .zext d a w wa => Sys2Proof.Machine.execZext d a w wa s
  | .addi d a wa imm => Sys2Proof.Machine.execAddi d a wa imm s
  | .andi d a wa imm => Sys2Proof.Machine.execAndi d a wa imm s
  | .ori d a wa imm => Sys2Proof.Machine.execOri d a wa imm s
  | .xori d a wa imm => Sys2Proof.Machine.execXori d a wa imm s
  | .shli d a wa n => Sys2Proof.Machine.execShli d a wa n s
  | .shri d a wa n => Sys2Proof.Machine.execShri d a wa n s
  | .srai d a wa n => Sys2Proof.Machine.execSrai d a wa n s
  | .slti d a wa imm => Sys2Proof.Machine.execSlti d a wa imm s
  | .sltni d a wa imm => Sys2Proof.Machine.execSltni d a wa imm s
  | .li d imm => Sys2Proof.Machine.execLi d imm s
  | .lis d imm => Sys2Proof.Machine.execLis d imm s
  | .addpc d imm => Sys2Proof.Machine.execAddpc d imm s
  | .beq a b off => Sys2Proof.Machine.execBeq a b off s
  | .bne a b off => Sys2Proof.Machine.execBne a b off s
  | .blt a b off => Sys2Proof.Machine.execBlt a b off s
  | .bge a b off => Sys2Proof.Machine.execBge a b off s
  | .bltn a b off => Sys2Proof.Machine.execBltn a b off s
  | .bgen a b off => Sys2Proof.Machine.execBgen a b off s
  | .jmp off => Sys2Proof.Machine.execJmp off s
  | .jal off => Sys2Proof.Machine.execJal off s
  | .jr d a wa => Sys2Proof.Machine.execJr d a wa s
  | .loop a l off => Sys2Proof.Machine.execLoop a l off s
  | .quiet a n => Sys2Proof.Machine.execQuiet a n s
  | .tkw ka kb kc => Sys2Proof.Machine.execTkw ka kb kc s
  | .waitc a b wa wb sc c => Sys2Proof.Machine.execWaitc a b wa wb sc c s
  | .bar id => Sys2Proof.Machine.execBar id s
  | .tend => Sys2Proof.Machine.execTend s
  | .slk n => Sys2Proof.Machine.execSlk n s
  | .vadd d a b mk t => Sys2Proof.Machine.execVadd d a b mk t s
  | .vsub d a b mk t => Sys2Proof.Machine.execVsub d a b mk t s
  | .vmul d a b mk t => Sys2Proof.Machine.execVmul d a b mk t s
  | .vfma d a b mk t => Sys2Proof.Machine.execVfma d a b mk t s
  | .vfms d a b mk t => Sys2Proof.Machine.execVfms d a b mk t s
  | .vfnm d a b mk t => Sys2Proof.Machine.execVfnm d a b mk t s
  | .vmin d a b mk t => Sys2Proof.Machine.execVmin d a b mk t s
  | .vmax d a b mk t => Sys2Proof.Machine.execVmax d a b mk t s
  | .vminm d a b mk t => Sys2Proof.Machine.execVminm d a b mk t s
  | .vmaxm d a b mk t => Sys2Proof.Machine.execVmaxm d a b mk t s
  | .vabs d a mk t => Sys2Proof.Machine.execVabs d a mk t s
  | .vneg d a mk t => Sys2Proof.Machine.execVneg d a mk t s
  | .vsfn d a fn mk t => Sys2Proof.Machine.execVsfn d a fn mk t s
  | .vcmp e c a b mk t => Sys2Proof.Machine.execVcmp e c a b mk t s
  | .vsel d a b mk t => Sys2Proof.Machine.execVsel d a b mk t s
  | .vand d a b mk t => Sys2Proof.Machine.execVand d a b mk t s
  | .vor d a b mk t => Sys2Proof.Machine.execVor d a b mk t s
  | .vxor d a b mk t => Sys2Proof.Machine.execVxor d a b mk t s
  | .vshl d a b mk t => Sys2Proof.Machine.execVshl d a b mk t s
  | .vshr d a b mk t => Sys2Proof.Machine.execVshr d a b mk t s
  | .vsra d a b mk t => Sys2Proof.Machine.execVsra d a b mk t s
  | .vcvt d a dt rm mk t => Sys2Proof.Machine.execVcvt d a dt rm mk t s
  | .vqmx a b mk t => Sys2Proof.Machine.execVqmx a b mk t s
  | .vred d a op mk t => Sys2Proof.Machine.execVred d a op mk t s
  | .vscan d a mk t => Sys2Proof.Machine.execVscan d a mk t s
  | .vperm d a b mk t => Sys2Proof.Machine.execVperm d a b mk t s
  | .vbcst d a mk t => Sys2Proof.Machine.execVbcst d a mk t s
  | .vext d a b t => Sys2Proof.Machine.execVext d a b t s
  | .vins d a b mk t => Sys2Proof.Machine.execVins d a b mk t s
  | .viota d mk t => Sys2Proof.Machine.execViota d mk t s
  | .vbits d a op mk t => Sys2Proof.Machine.execVbits d a op mk t s
  | .vprune d a b mk t => Sys2Proof.Machine.execVprune d a b mk t s
  | .vrand d uniform mk t => Sys2Proof.Machine.execVrand d uniform mk t s
  | .vscl d a b mk t => Sys2Proof.Machine.execVscl d a b mk t s
  | .vmov d a mk t => Sys2Proof.Machine.execVmov d a mk t s
  | .vmsk e f op => Sys2Proof.Machine.execVmsk e f op s
  | .vmcnt d f t => Sys2Proof.Machine.execVmcnt d f t s
  | .mpcw a wa => Sys2Proof.Machine.execMpcw a wa s
  | .mlw p kd ka kb kc => Sys2Proof.Machine.execMlw p kd ka kb kc s
  | .mla p kd ka kb kc => Sys2Proof.Machine.execMla p kd ka kb kc s
  | .mma p kd ka kb kc => Sys2Proof.Machine.execMma p kd ka kb kc s
  | .mman p kd ka kb kc => Sys2Proof.Machine.execMman p kd ka kb kc s
  | .mmab p kd ka kb kc => Sys2Proof.Machine.execMmab p kd ka kb kc s
  | .mdr p kd ka kb kc => Sys2Proof.Machine.execMdr p kd ka kb kc s
  | .mza p kd ka kb kc => Sys2Proof.Machine.execMza p kd ka kb kc s
  | .mrb p kd ka kb kc => Sys2Proof.Machine.execMrb p kd ka kb kc s
  | .mstat p kd ka kb kc => Sys2Proof.Machine.execMstat p kd ka kb kc s
  | .ldbs t a wa disp => Sys2Proof.Machine.execLdbs t a wa disp s
  | .ldbn t a wa disp => Sys2Proof.Machine.execLdbn t a wa disp s
  | .ldhs t a wa disp => Sys2Proof.Machine.execLdhs t a wa disp s
  | .ldhn t a wa disp => Sys2Proof.Machine.execLdhn t a wa disp s
  | .ldws t a wa disp => Sys2Proof.Machine.execLdws t a wa disp s
  | .ldwn t a wa disp => Sys2Proof.Machine.execLdwn t a wa disp s
  | .ldd t a wa disp => Sys2Proof.Machine.execLdd t a wa disp s
  | .stb t a wa disp => Sys2Proof.Machine.execStb t a wa disp s
  | .sth t a wa disp => Sys2Proof.Machine.execSth t a wa disp s
  | .stw t a wa disp => Sys2Proof.Machine.execStw t a wa disp s
  | .std t a wa disp => Sys2Proof.Machine.execStd t a wa disp s
  | .ldv t a wa disp => Sys2Proof.Machine.execLdv t a wa disp s
  | .stv t a wa disp => Sys2Proof.Machine.execStv t a wa disp s
  | .lda d a wa z sc => Sys2Proof.Machine.execLda d a wa z sc s
  | .stl a b wa wb z sc => Sys2Proof.Machine.execStl a b wa wb z sc s
  | .amog d a b o fn => Sys2Proof.Machine.execAmog d a b o fn s
  | .amod d a b o fn => Sys2Proof.Machine.execAmod d a b o fn s
  | .amos d a b o fn => Sys2Proof.Machine.execAmos d a b o fn s
  | .fence eng k sc => Sys2Proof.Machine.execFence eng k sc s
  | .rgmap p kd ka kb kc => Sys2Proof.Machine.execRgmap p kd ka kb kc s
  | .rgwb p kd ka kb kc => Sys2Proof.Machine.execRgwb p kd ka kb kc s
  | .rginv p kd ka kb kc => Sys2Proof.Machine.execRginv p kd ka kb kc s
  | .wlpsh d a b wa wb => Sys2Proof.Machine.execWlpsh d a b wa wb s
  | .wlpop p kd ka kb kc => Sys2Proof.Machine.execWlpop p kd ka kb kc s
  | .wlins d a b wa wb => Sys2Proof.Machine.execWlins d a b wa wb s
  | .cpy p kd ka kb kc => Sys2Proof.Machine.execCpy p kd ka kb kc s
  | .cprWrite p kd ka kb kc => Sys2Proof.Machine.execCprWrite p kd ka kb kc s
  | .cprRead p kd ka kb kc => Sys2Proof.Machine.execCprRead p kd ka kb kc s
  | .crd p kd ka kb kc => Sys2Proof.Machine.execCrd p kd ka kb kc s
  | .csg p kd ka kb kc sc => Sys2Proof.Machine.execCsg p kd ka kb kc sc s
  | .gth p kd ka kb kc => Sys2Proof.Machine.execGth p kd ka kb kc s
  | .sct p kd ka kb kc => Sys2Proof.Machine.execSct p kd ka kb kc s
  | .sca p kd ka kb kc => Sys2Proof.Machine.execSca p kd ka kb kc s
  | .spl p kd ka kb kc => Sys2Proof.Machine.execSpl p kd ka kb kc s
  | .sps p kd ka kb kc => Sys2Proof.Machine.execSps p kd ka kb kc s
  | .spa p kd ka kb kc => Sys2Proof.Machine.execSpa p kd ka kb kc s
  | .spi p kd ka kb kc => Sys2Proof.Machine.execSpi p kd ka kb kc s
  | .spd p kd ka kb kc => Sys2Proof.Machine.execSpd p kd ka kb kc s
  | .lnch p kd ka kb kc => Sys2Proof.Machine.execLnch p kd ka kb kc s
  | .mfc d n => Sys2Proof.Machine.execMfc d n s
  | .mtc a n => Sys2Proof.Machine.execMtc a n s
  | .trap n => Sys2Proof.Machine.execTrap n s
  | .sysRft => Sys2Proof.Machine.execSysRft s
  | .sysHalt => Sys2Proof.Machine.execSysHalt s
  | .sysTlbi a => Sys2Proof.Machine.execSysTlbi a s
  | .sysTlbia => Sys2Proof.Machine.execSysTlbia s
  | .sysGsw a => Sys2Proof.Machine.execSysGsw a s
  | .sysCut a => Sys2Proof.Machine.execSysCut a s
  | .sysCeresume a => Sys2Proof.Machine.execSysCeresume a s
  | .sysSrgrow a => Sys2Proof.Machine.execSysSrgrow a s
  | .rget d => Sys2Proof.Machine.execRget d s
  | .rskip a b wa wb => Sys2Proof.Machine.execRskip a b wa wb s
  | .rseed a b wa wb => Sys2Proof.Machine.execRseed a b wa wb s
  | .rctl d => Sys2Proof.Machine.execRctl d s
  | .rcth d => Sys2Proof.Machine.execRcth d s
  | .repRepeat ag => Sys2Proof.Machine.execRepRepeat ag s
  | .hogRotation core => Sys2Proof.Machine.execHogRotation core s
  | .stallClear ag => Sys2Proof.Machine.execStallClear ag s
  | .divideComplete ag sn => Sys2Proof.Machine.execDivideComplete ag sn s
  | .loadComplete ag sn => Sys2Proof.Machine.execLoadComplete ag sn s
  | .vextDeferredFill ag sn => Sys2Proof.Machine.execVextDeferredFill ag sn s
  | .atomicPerform ag sn => Sys2Proof.Machine.execAtomicPerform ag sn s
  | .memoryFaultReport ag => Sys2Proof.Machine.execMemoryFaultReport ag s
  | .waitcRecheck ag => Sys2Proof.Machine.execWaitcRecheck ag s
  | .barrierRelease grp id => Sys2Proof.Machine.execBarrierRelease grp id s
  | .tendDrainEnd ag => Sys2Proof.Machine.execTendDrainEnd ag s
  | .taskCommit ag => Sys2Proof.Machine.execTaskCommit ag s
  | .haltDrainEnd ag => Sys2Proof.Machine.execHaltDrainEnd ag s
  | .matrixCommandStart c => Sys2Proof.Machine.execMatrixCommandStart c s
  | .matrixCommandComplete c => Sys2Proof.Machine.execMatrixCommandComplete c s
  | .arrayEnableGrant cluster => Sys2Proof.Machine.execArrayEnableGrant cluster s
  | .arrayDisable cluster => Sys2Proof.Machine.execArrayDisable cluster s
  | .engineCommandStart c => Sys2Proof.Machine.execEngineCommandStart c s
  | .nbHoldRelease c => Sys2Proof.Machine.execNbHoldRelease c s
  | .engineCommandComplete c => Sys2Proof.Machine.execEngineCommandComplete c s
  | .enginePark c => Sys2Proof.Machine.execEnginePark c s
  | .faultRingDrain die => Sys2Proof.Machine.execFaultRingDrain die s
  | .pageWalkComplete unit n => Sys2Proof.Machine.execPageWalkComplete unit n s
  | .replicatedWrite n => Sys2Proof.Machine.execReplicatedWrite n s
  | .workListOperation core => Sys2Proof.Machine.execWorkListOperation core s
  | .workListSpillComplete core => Sys2Proof.Machine.execWorkListSpillComplete core s
  | .sparseOperation c => Sys2Proof.Machine.execSparseOperation c s
  | .launchDistribution m => Sys2Proof.Machine.execLaunchDistribution m s
  | .launchAcceptance m => Sys2Proof.Machine.execLaunchAcceptance m s
  | .launchRefusal m => Sys2Proof.Machine.execLaunchRefusal m s
  | .phaseStart m => Sys2Proof.Machine.execPhaseStart m s
  | .phaseBegin sh => Sys2Proof.Machine.execPhaseBegin sh s
  | .phaseReport m => Sys2Proof.Machine.execPhaseReport m s
  | .taskPlacement die => Sys2Proof.Machine.execTaskPlacement die s
  | .tileFillComplete t tile => Sys2Proof.Machine.execTileFillComplete t tile s
  | .taskBind t => Sys2Proof.Machine.execTaskBind t s
  | .taskAging sh idx => Sys2Proof.Machine.execTaskAging sh idx s
  | .groupReservation sh idx => Sys2Proof.Machine.execGroupReservation sh idx s
  | .write n => Sys2Proof.Machine.execWrite n s
  | .read n => Sys2Proof.Machine.execRead n s
  | .reduce n => Sys2Proof.Machine.execReduce n s
  | .counterAdd n => Sys2Proof.Machine.execCounterAdd n s
  | .acknowledge n => Sys2Proof.Machine.execAcknowledge n s
  | .readData n => Sys2Proof.Machine.execReadData n s
  | .parkNotice n => Sys2Proof.Machine.execParkNotice n s
  | .resumeNotice n => Sys2Proof.Machine.execResumeNotice n s
  | .floor n => Sys2Proof.Machine.execFloor n s
  | .heldRequestRelease n => Sys2Proof.Machine.execHeldRequestRelease n s
  | .requestResend r => Sys2Proof.Machine.execRequestResend r s
  | .requestTimeout r => Sys2Proof.Machine.execRequestTimeout r s
  | .tagQuarantineEnd die => Sys2Proof.Machine.execTagQuarantineEnd die s
  | .packetForward n => Sys2Proof.Machine.execPacketForward n s
  | .packetExpiry n => Sys2Proof.Machine.execPacketExpiry n s
  | .creditReturn port ch reserved => Sys2Proof.Machine.execCreditReturn port ch reserved s
  | .linkResendRequest port => Sys2Proof.Machine.execLinkResendRequest port s
  | .trainingComplete port ndev nport => Sys2Proof.Machine.execTrainingComplete port ndev nport s
  | .trainingTimeout port => Sys2Proof.Machine.execTrainingTimeout port s
  | .retrainingStart port => Sys2Proof.Machine.execRetrainingStart port s
  | .retrainingComplete port => Sys2Proof.Machine.execRetrainingComplete port s
  | .retrainingTimeout port => Sys2Proof.Machine.execRetrainingTimeout port s
  | .beaconSend => Sys2Proof.Machine.execBeaconSend s
  | .beacon port cyc => Sys2Proof.Machine.execBeacon port cyc s
  | .echo port delay => Sys2Proof.Machine.execEcho port delay s
  | .alignmentLoss => Sys2Proof.Machine.execAlignmentLoss s
  | .manage n => Sys2Proof.Machine.execManage n s
  | .cutOpen m => Sys2Proof.Machine.execCutOpen m s
  | .cutReport m => Sys2Proof.Machine.execCutReport m s
  | .cutTarget m => Sys2Proof.Machine.execCutTarget m s
  | .cutTimeLimit ag => Sys2Proof.Machine.execCutTimeLimit ag s
  | .contextSave ag => Sys2Proof.Machine.execContextSave ag s
  | .switchAcceptance m => Sys2Proof.Machine.execSwitchAcceptance m s
  | .switchFreeze die job => Sys2Proof.Machine.execSwitchFreeze die job s
  | .sweepFence job pl => Sys2Proof.Machine.execSweepFence job pl s
  | .sweepTimeout job pl => Sys2Proof.Machine.execSweepTimeout job pl s
  | .localSweepComplete job => Sys2Proof.Machine.execLocalSweepComplete job s
  | .tagChange m => Sys2Proof.Machine.execTagChange m s
  | .switchResume job => Sys2Proof.Machine.execSwitchResume job s
  | .powerOn fail => Sys2Proof.Machine.execPowerOn fail s
  | .seqgo die v => Sys2Proof.Machine.execSeqgo die v s
  | .ctxrst v => Sys2Proof.Machine.execCtxrst v s
  | .quoteNonce nonce => Sys2Proof.Machine.execQuoteNonce nonce s
  | .quoteComplete => Sys2Proof.Machine.execQuoteComplete s
  | .routeEntryWrite d v => Sys2Proof.Machine.execRouteEntryWrite d v s
  | .fstepWrite v => Sys2Proof.Machine.execFstepWrite v s
  | .portEnable port => Sys2Proof.Machine.execPortEnable port s
  | .portDisable port => Sys2Proof.Machine.execPortDisable port s
  | .counterWrite n v => Sys2Proof.Machine.execCounterWrite n v s
  | .hostRegisterWrite off v => Sys2Proof.Machine.execHostRegisterWrite off v s
  | .hostMemoryAccess off w => Sys2Proof.Machine.execHostMemoryAccess off w s
  | .thermalUpdate region temp stackTemp => Sys2Proof.Machine.execThermalUpdate region temp stackTemp s
  | .powerMonitor above => Sys2Proof.Machine.execPowerMonitor above s
  | .saveCompleteReport m => Sys2Proof.Machine.execSaveCompleteReport m s
  | .launchAnswerTimeout l => Sys2Proof.Machine.execLaunchAnswerTimeout l s

end Sys2Proof.Machine
end

