-- ==== Sys2Proof/Machine/Step.lean ====
section
/-! DEFINITION. One step of the machine, and the placing of a word where the next step fetches. -/

namespace Sys2Proof.Machine

/-- The head of the schedule is the next move, with the cycles that pass before it; with none, a move that `defaultPick` names comes
one cycle later (log entry 14). -/
def step (s : State) : Host.Outcome State Fault Refusal :=
  match s.sched with
  | [] => doPick exec (defaultPick s) (s.pass 1)
  | m :: t => doPick exec m.pick ({ s with sched := t }.pass m.dt)

/-- The leaf that `withFetchWord` maps the code page with: valid, writable, for tasks, executable, RC, frame 0. -/
def fetchLeaf : Word := 0x3F

/-- s with the instruction w as the bundle that the next step issues (log entry 15): context 0 is selected in kernel mode, its
translation unit holds the page of its program counter, mapped to frame 0, and w stands there with its stop bit set; the target of a
REP, ADD x0, x0, x0, follows it. -/
def State.withFetchWord (s : State) (_nbits w : Nat) : State :=
  let c := s.ctxAt 0
  let va := c.pc.toNat
  let one : SlotWord := BitVec.ofNat 32 w
  let bytes : Nat := if opField one = 1 then one.toNat % 2 ^ 31 + 0x82000000 * 2 ^ 32 else (one ||| 0x80000000#32).toNat
  let u := s.unitAt 0
  let e : Tlb := { job := c.job, page := va / 4096 * 4096, size := 4096, leaf := fetchLeaf, pin := false }
  let s := s.setCtx 0 { c with st := .selected, cr := c.cr.set 0 (setBit64 c.cr[0] 0 true) }
  let s := (s.modCore 0 fun k => { k with sel := some 0, count := 0 }).setUnit 0 { u with held := [e] }
  { s.putBytes (va % 4096) 8 bytes with sched := [{ dt := 1, pick := .issue (.ctx 0) }] }

end Sys2Proof.Machine
end

