-- ==== Sys2Proof/Safety.lean ====
section
/-! DEFINITION. The terms of the statements: sound states, a slot that nothing holds back, what a slot's bundle leaves. -/

namespace Sys2Proof.Safety

open Sys2Proof.Machine

/-- Memory is in its canonical form. -/
def MemSound (s : State) : Prop := s.mem.wf = true

/-- Between steps no bundle is open. -/
def Settled (s : State) : Prop := s.iss.isOpen = false

/-- The context whose turn it is. -/
def own (s : State) : Ctx := s.ctxAt s.cur

/-- Alone in a bundle at its context's program counter, i meets no fault of R84 and no stall cause of R107, the memory path has room for
it (R397), and its context drains nothing. -/
def Ready (i : Instr) (s : State) : Prop :=
  s.iss.isOpen = false ∧ (own s).drain = .none ∧ staticFault (own s).kernel (isSeq s.cur) none [some i] = none ∧
  stalls s s.cur [i] 0 = false ∧ pathFull (own s) [i] = false ∧ lateFault s s.cur (own s).pc 1 0 [i] = none

/-- s with the bundle of the one slot at the program counter open. -/
def opened (s : State) : State := openBundle s (own s).pc 1 0 0 none

/-- A context whose bundle has issued: control registers that it wrote govern, results whose bundle is reached have landed (R83,
R95). -/
def aged (c : Ctx) : Ctx := c.applyMtc.tickPending

/-- The end of a bundle leaves a loop level as it was, makes it inactive, or takes one of its further passes (R125, R126). -/
def LevelsKept (c u : Ctx) : Prop := ∀ k : Fin 4, u.loops[k] = c.loops[k] ∨ u.loops[k] = { c.loops[k] with active := false } ∨
  (1 < c.loops[k].remaining.toNat ∧ u.loops[k] = { c.loops[k] with remaining := c.loops[k].remaining - 1 })

/-- u is c but for the program counter and what issue itself keeps: state, loop levels, the marks of a wait, of a REP and of a return
from a trap. -/
def SameButIssue (c u : Ctx) : Prop :=
  u = { c with pc := u.pc, st := u.st, loops := u.loops, repOn := u.repOn, repNext := u.repNext, satisfied := u.satisfied
               arrived := u.arrived, stepover := u.stepover } ∧ LevelsKept c u

/-- t is s but for the context whose turn it is, its core's selection, and the bundle being issued, which is closed. Every byte of memory
reads as before, and every other context, with all its registers, is as before. -/
def OnlyOwn (s t : State) : Prop :=
  t = { s with ctxs := t.ctxs, cores := t.cores, iss := {} } ∧ (∀ k, k ≠ s.cur → t.ctxAt k = s.ctxAt k) ∧
  (∀ a, memGet t.mem a = memGet s.mem a) ∧
  ∀ k, (t.coreAt k).slabs = (s.coreAt k).slabs ∧ (t.coreAt k).store = (s.coreAt k).store ∧
    (t.coreAt k).regions = (s.coreAt k).regions ∧ (t.coreAt k).kept = (s.coreAt k).kept ∧ (t.coreAt k).verify = (s.coreAt k).verify

/-- The bundle issues: its context is what f makes of it, aged by one bundle, and nothing else changes. -/
def Does (o : Host.Outcome State Fault Refusal) (s : State) (f : Ctx → Ctx) : Prop :=
  ∃ t, o = .next t ∧ OnlyOwn s t ∧ SameButIssue (aged (f (own s))) (t.ctxAt s.cur)

/-- The bundle issues, and the next bundle of the context reads v in x[d], and every other x register as the results that land now
leave it; x0 reads zero. Nothing else changes but what ageing by one bundle changes. -/
def WritesNow (o : Host.Outcome State Fault Refusal) (s : State) (d : Reg) (v : Word) : Prop :=
  ∃ t, o = .next t ∧ OnlyOwn s t ∧ (∀ r, (t.ctxAt s.cur).getX r = if r = d ∧ r ≠ 0 then v else (aged (own s)).getX r) ∧
    SameButIssue { aged (own s) with x := (t.ctxAt s.cur).x } (t.ctxAt s.cur)

/-- The bundle issues, and v is on its way to x[d], to land after `left` further bundles; a result for x0 is dropped. Every register
reads as the results that land now leave it. -/
def WritesLater (o : Host.Outcome State Fault Refusal) (s : State) (left : Nat) (d : Reg) (v : Word) : Prop :=
  ∃ t, o = .next t ∧ OnlyOwn s t ∧
    SameButIssue { aged (own s) with pend := (aged (own s)).pend ++ if d = 0 then [] else [{ due := left, res := .x d v }] } (t.ctxAt s.cur)

/-- The bundle issues, and the access a is outstanding from now on, the youngest of its context: its destination is empty, every other
register is as full as before, and no byte of memory changes. -/
def Starts (o : Host.Outcome State Fault Refusal) (s : State) (a : Access) : Prop :=
  ∃ t, o = .next t ∧ OnlyOwn s t ∧ (t.ctxAt s.cur).acc = (aged (own s)).acc ++ [a] ∧ (t.ctxAt s.cur).sn = a.sn + 1 ∧
    (∀ r, (t.ctxAt s.cur).xFull r = if accDestX a.ins = some r ∧ r ≠ 0 then false else (own s).xFull r) ∧
    (∀ r, (t.ctxAt s.cur).vFull r = if accDestV a.ins = some r then false else (own s).vFull r) ∧
    SameButIssue { aged (own s) with acc := (t.ctxAt s.cur).acc, sn := (t.ctxAt s.cur).sn, fullX := (t.ctxAt s.cur).fullX
                                     fullV := (t.ctxAt s.cur).fullV, window := (t.ctxAt s.cur).window } (t.ctxAt s.cur)

/-- What every access records at issue: its number, its slot, the mode and RACECTL.HOLD that govern it, when it was issued. -/
def access (s : State) (i : Instr) : Access :=
  { sn := (own s).sn, ins := i, word := (encode i).getD 0, kernel := (own s).kernel, hold := (own s).hold, since := s.now }

/-- What a command of n parameters captures at issue (R36, R105, R169, R471): the parameters, and its context's task, tables, mode, PCW,
provenance and random counter. A consumed token that is busy is waited for; of one that is free the status is kept; of each the racing
address that its status tells of (R266). -/
def captured (s : State) (i : Instr) (p : Reg) (n : Nat) (kd ka kb kc : Tok) : Cmd :=
  let c := own s
  let wait := fun (k : Tok) => if (c.getK k).busy then k else 0
  let kept := fun (k : Tok) => if (c.getK k).busy then 0 else (c.getK k).status
  { id := s.nextId, ins := i, agent := s.cur, job := c.job, root := c.root, task := c.task
    par := (List.range n).map fun j => c.getX (p + BitVec.ofNat 6 j), pcw := c.cr[0x0B], prov := c.cr[0x17], kernel := c.kernel, hold := c.hold
    key := c.cr[0x10], ctr := c.counter, kd := kd, ka := wait ka, kb := wait kb, kc := wait kc, kst := kept kc ++ kept kb ++ kept ka
    kad := ((c.getK ka).addr, (c.getK kb).addr, (c.getK kc).addr), sn := c.sn, lvl := c.frames, startAt := s.now }

/-- The bundle issues, and the command is accepted: it is the last of those in the engines, its token is busy with no status, and no other
token changes; its context is what f makes of it, aged by one bundle. -/
def Accepts (o : Host.Outcome State Fault Refusal) (s : State) (f : Ctx → Ctx) (cmd : Cmd) : Prop :=
  ∃ t, o = .next t ∧ OnlyOwn { s with cmds := s.cmds ++ [cmd], nextId := s.nextId + 1 } t ∧
    (∀ k, (t.ctxAt s.cur).getK k = if k = cmd.kd ∧ k ≠ 0 then { busy := true, left := 1 } else (own s).getK k) ∧
    SameButIssue { aged (f (own s)) with k := (t.ctxAt s.cur).k, sn := cmd.sn + 1, window := (t.ctxAt s.cur).window } (t.ctxAt s.cur)

/-- Level k of c's loops ends in the bundle of len slots at pc. -/
def EndsAt (pc : Word) (len : Nat) (c : Ctx) (k : Fin 4) : Prop :=
  c.loops[k].active = true ∧ pc.toNat ≤ c.loops[k].stop.toNat ∧ c.loops[k].stop.toNat < pc.toNat + 4 * len

/-- R125: u follows c after the bundle of len slots at pc, which made no transfer. Of the levels that end in it, the highest with more
than one pass remaining gives its start as the next address and loses a pass, those above it are inactive, and those below it are left
alone; with no such level all of them are inactive, and the next address is that of the word after the bundle. -/
def LoopsOn (pc : Word) (len : Nat) (c u : Ctx) : Prop :=
  (∃ j, EndsAt pc len c j ∧ 1 < c.loops[j].remaining.toNat ∧ (∀ k, j < k → EndsAt pc len c k → c.loops[k].remaining.toNat ≤ 1) ∧
    u.pc = c.loops[j].start ∧ u.loops[j] = { c.loops[j] with remaining := c.loops[j].remaining - 1 } ∧
    (∀ k, j < k → EndsAt pc len c k → u.loops[k] = { c.loops[k] with active := false }) ∧
    ∀ k, k < j ∨ (j < k ∧ ¬EndsAt pc len c k) → u.loops[k] = c.loops[k]) ∨
  ((∀ k, EndsAt pc len c k → c.loops[k].remaining.toNat ≤ 1) ∧ u.pc = pc + BitVec.ofNat 64 (4 * len) ∧
    (∀ k, EndsAt pc len c k → u.loops[k] = { c.loops[k] with active := false }) ∧
    ∀ k, ¬EndsAt pc len c k → u.loops[k] = c.loops[k])

/-- R126: u follows c after a transfer to target. A level stays active unless target lies outside its body or that of an active level
with a lower number. -/
def LoopsLeft (target : Word) (c u : Ctx) : Prop :=
  ∀ k : Fin 4, u.loops[k] = { c.loops[k] with active := c.loops[k].active && decide (∀ j, j ≤ k → c.loops[j].active = true →
    c.loops[j].start.toNat ≤ target.toNat ∧ target.toNat ≤ c.loops[j].stop.toNat) }

/-- The bundle issues, its context is what f makes of it, aged by one bundle, and goes on at target. -/
def GoesTo (o : Host.Outcome State Fault Refusal) (s : State) (f : Ctx → Ctx) (target : Word) : Prop :=
  ∃ t, o = .next t ∧ OnlyOwn s t ∧ SameButIssue (aged (f (own s))) (t.ctxAt s.cur) ∧ (t.ctxAt s.cur).pc = target ∧
    LoopsLeft target (own s) (t.ctxAt s.cur)

/-- The bundle issues and transfers nowhere: its context goes on at the next address. -/
def GoesOn (o : Host.Outcome State Fault Refusal) (s : State) (f : Ctx → Ctx) : Prop :=
  ∃ t, o = .next t ∧ OnlyOwn s t ∧ SameButIssue (aged (f (own s))) (t.ctxAt s.cur) ∧ LoopsOn (own s).pc 1 (own s) (t.ctxAt s.cur)

/-- The bundle issues, and its context issues nothing more while it drains, in the way of d: one at HALT stays Selected, another is
Stalled (R361). -/
def Drains (o : Host.Outcome State Fault Refusal) (s : State) (d : Drain) : Prop :=
  ∃ t, o = .next t ∧ OnlyOwn s t ∧ (t.ctxAt s.cur).st = (if d = .halt then .selected else .stalled) ∧ (t.ctxAt s.cur).drain = d ∧
    (d = .tend → ∀ k : Fin 4, (t.ctxAt s.cur).loops[k].active = false) ∧
    SameButIssue { aged (own s) with drain := d, drainSlot := (t.ctxAt s.cur).drainSlot, drainLen := (t.ctxAt s.cur).drainLen } (t.ctxAt s.cur)

/-- Lane i of a row at a type (R18). -/
def lane (t : ETy) (r : Row) (i : Nat) : Nat := r.bits (8 * t.bytes * i) (8 * t.bytes)

/-- The lanes of a row at a type (R87). -/
def lanes (t : ETy) : Nat := 2048 / t.bytes

/-- The bundle issues, its context is what f makes of it, aged by one bundle, and the result r with its flags is on its way, to land after
`left` further bundles. -/
def ResultLater (o : Host.Outcome State Fault Refusal) (s : State) (f : Ctx → Ctx) (left : Nat) (r : Result) (fl : Flags) : Prop :=
  ∃ t, o = .next t ∧ OnlyOwn s t ∧
    SameButIssue { aged (f (own s)) with pend := (aged (f (own s))).pend ++ [{ due := left, res := r, flags := fl }] } (t.ctxAt s.cur)

/-- R139, R47: a result for v[d] under mask m[mk] is on its way. Lane i of it is what g gives, a byte is written when the bit of its
lane's lowest byte is 1, and the flags are those of the lanes that are written. -/
def LanesLater (o : Host.Outcome State Fault Refusal) (s : State) (f : Ctx → Ctx) (left : Nat) (d : Reg) (mk : MReg) (t : ETy)
    (g : Nat → Nat × Flags) : Prop :=
  ∃ row en fl, ResultLater o s f left (.v d row en) fl ∧
    (∀ i, i < lanes t → lane t row i = (g i).1 % 2 ^ (8 * t.bytes)) ∧
    (∀ b, b < 2048 → en.getLsbD b = ((own s).getM mk).getLsbD (b / t.bytes * t.bytes)) ∧
    ∀ k, fl.getLsbD k = true ↔ ∃ i, i < lanes t ∧ ((own s).getM mk).getLsbD (t.bytes * i) = true ∧ (g i).2.getLsbD k = true

/-- A result that writes every lane of v[d] is on its way. -/
def RowLater (o : Host.Outcome State Fault Refusal) (s : State) (left : Nat) (d : Reg) (t : ETy) (g : Nat → Nat) (fl : Flags) : Prop :=
  ∃ row, ResultLater o s id left (.v d row (BitVec.allOnes 2048)) fl ∧ ∀ i, i < lanes t → lane t row i = g i % 2 ^ (8 * t.bytes)

/-! Events. -/

/-- The step answers a next state with P. -/
def Gives (o : Host.Outcome State Fault Refusal) (P : State → Prop) : Prop := ∃ t, o = .next t ∧ P t

/-- No byte of memory and no context changes. -/
def Beside (s t : State) : Prop := t.mem = s.mem ∧ t.ctxs = s.ctxs

/-- Context n drains, and nothing of it is outstanding, and no command of a slot of it (R135, R260). -/
def DrainedAt (s : State) (n : Nat) (d : Drain) : Prop :=
  (s.ctxAt n).st = (if d = .halt then .selected else .stalled) ∧ (s.ctxAt n).drain = d ∧ (s.ctxAt n).acc = [] ∧ (s.ctxAt n).fullX = BitVec.allOnes 64 ∧
    (s.ctxAt n).fullV = BitVec.allOnes 64 ∧ ∀ c, c ∈ s.cmds → c.agent = n → c.kind ≠ .slot

/-- The token of command c, which no other command keeps busy, is free from now on, with the status st and the racing address va where
that is an error (R103, R266). -/
def TokenEnds (s t : State) (c : Cmd) (st : BitVec 8) (va : Word) : Prop :=
  c.kd ≠ 0 → ∀ k, (s.ctxAt c.agent).getK c.kd = k → k.left = 1 → k.more = false → k.errRep = 0 →
    (t.ctxAt c.agent).getK c.kd = { k with busy := false, left := 0, status := if st = 0 then k.status else st
                                           errRep := if st = 0 then 0 else c.rep + 1, addr := if st = 0 then k.addr else va }

/-- Packet m has reached this device, undamaged and in its class, the first of its channel where it stands, bound for no one link. -/
def Arrived (s : State) (m : Nat) (fl : Flight) : Prop :=
  s.findFlight m = some fl ∧ (∃ d, fl.loc = .localq d ∨ fl.loc = .ingress d) ∧ fl.pkt.dest = s.ownDev ∧ fl.pkt.crcBad = false ∧
    opFits fl.pkt.op fl.pkt.cls = true ∧ s.isHead fl = true ∧ fl.out = none ∧
    m < s.fab.nextId

/-- A packet has arrived, and no job is under a cut or a switch. -/
def Stands (s : State) (m : Nat) (fl : Flight) : Prop := Arrived s m fl ∧ s.jobs = []

/-- Message m, which says c, has arrived for the control unit of a die. -/
def Told (s : State) (m : Nat) (c : Ctl) : Prop := ∃ fl, Arrived s m fl ∧ fl.pkt.op = 0x22 ∧ fl.pkt.ctl = c

/-- A packet that has arrived is not late, for its job is resident (R425), and not older than LIFE (R382). -/
def InTime (s : State) (fl : Flight) : Prop := s.resident fl.pkt.jid = true ∧ s.expired fl = false

/-- A packet with P waits in the local injection queue of a die, to be sent. -/
def Sent (t : State) (die : Nat) (P : Packet → Prop) : Prop := ∃ g, g ∈ t.fab.flights ∧ g.loc = .localq die ∧ P g.pkt

/-- The window of the home of a request's leaf, the request's floor taken in (R384). -/
def homeOf (s : State) (p : Packet) (leaf : Word) : Home :=
  (s.fab.home (pteHome leaf) p.jid p.src p.die p.cls (s.targetOf p)).raise p.floor

/-- A request is translated as it stands, to leaf and piece, and its number is new to its home: above the floor, not applied, in the
window (R307, R384). -/
def Fresh (s : State) (p : Packet) (die : Nat) (leaf : Word) (pc : Piece) : Prop :=
  s.translate (74 + die) p.jid (s.jobRoot p.jid) p.va.toNat (if p.op = 4 then 8 else p.len) (askOf p) = (s, .ok (leaf, pc)) ∧
    s.mustWait p = false ∧ seqBefore p.seq (homeOf s p leaf).f = false ∧ (homeOf s p leaf).applied p.seq = false ∧
    (homeOf s p leaf).tooOld p.seq = false ∧
    (seqBefore (homeOf s p leaf).h p.seq = true ∨ (homeOf s p leaf).behind p.seq < 256)

/-- The request has left its place and is answered: an answer of the operation op with its tag and generation goes to the device that
hosts its requester (R374). -/
def Answered (t : State) (m die : Nat) (p : Packet) (op : Nat) (P : Packet → Prop) : Prop :=
  t.findFlight m = none ∧ Sent t die fun q => q.op = op ∧ q.cls = 1 ∧ q.tag = p.tag ∧ q.gen = p.gen ∧ q.dest = t.mapDev p.jid p.src ∧ P q

/-- The number of the request counts as applied at its home. -/
def Applied (s t : State) (p : Packet) (leaf : Word) : Prop :=
  (t.fab.home (pteHome leaf) p.jid p.src p.die p.cls (s.targetOf p)).applied p.seq = true

/-- No write waits anywhere, no word is uncorrectable, and nothing is read ahead. -/
def Plain (s : State) : Prop := s.pw = [] ∧ s.rw = [] ∧ s.uo = [] ∧ s.poison = [] ∧ s.early = []

/-- No write of the engines of agent n waits to be performed. -/
def EnginesSettled (s : State) (n : Nat) : Prop := s.rw = [] ∧ ∀ w, w ∈ s.pw → w.owner ≠ engOf n

/-- A response has reached its requester and matches the outstanding request r (R382). -/
def Answers (s : State) (m op : Nat) (fl : Flight) (r : Req) : Prop :=
  Stands s m fl ∧ fl.pkt.op = op ∧ InTime s fl ∧ s.answered fl.pkt = some r

end Sys2Proof.Safety
end

