-- ==== Sys2Proof/Certificates/Slice0/Obligations.lean ====
section
/-! DEFINITION. The statements for the provers, from the numbered rules of the spec. -/

open Sys2Proof Sys2Proof.Machine Sys2Proof.Safety

/-! Scalar slots: spec/04_scalar.md. -/

/-- R114: each slot of the ALU group writes its function of x[A] and x[B], which the next bundle reads; a shift count is b[5:0],
comparisons write 1 or 0, SEL reads the old x[D]. Nothing else changes: no flag, no other register, no byte of memory. While x[D] is empty
SEL does not issue. -/
def Obligations.AluResults : Prop := ∀ (s : State) (d a b : Reg) (wa wb : Bool) (x y : Word),
  (own s).getX a = x → (own s).getX b = y →
  (Ready (.add d a b wa wb) s → WritesNow (Machine.exec (.add d a b wa wb) s) s d (x + y)) ∧
  (Ready (.sub d a b wa wb) s → WritesNow (Machine.exec (.sub d a b wa wb) s) s d (x - y)) ∧
  (Ready (.and d a b wa wb) s → WritesNow (Machine.exec (.and d a b wa wb) s) s d (x &&& y)) ∧
  (Ready (.or d a b wa wb) s → WritesNow (Machine.exec (.or d a b wa wb) s) s d (x ||| y)) ∧
  (Ready (.xor d a b wa wb) s → WritesNow (Machine.exec (.xor d a b wa wb) s) s d (x ^^^ y)) ∧
  (Ready (.andn d a b wa wb) s → WritesNow (Machine.exec (.andn d a b wa wb) s) s d (x &&& ~~~y)) ∧
  (Ready (.shl d a b wa wb) s → WritesNow (Machine.exec (.shl d a b wa wb) s) s d (x <<< (y.toNat % 64))) ∧
  (Ready (.shr d a b wa wb) s → WritesNow (Machine.exec (.shr d a b wa wb) s) s d (x >>> (y.toNat % 64))) ∧
  (Ready (.sra d a b wa wb) s → WritesNow (Machine.exec (.sra d a b wa wb) s) s d (BitVec.ofInt 64 (x.toInt >>> (y.toNat % 64)))) ∧
  (Ready (.ror d a b wa wb) s →
    WritesNow (Machine.exec (.ror d a b wa wb) s) s d ((x >>> (y.toNat % 64)) ||| (x <<< (64 - y.toNat % 64)))) ∧
  (Ready (.slt d a b wa wb) s → WritesNow (Machine.exec (.slt d a b wa wb) s) s d (if x.toInt < y.toInt then 1 else 0)) ∧
  (Ready (.sltn d a b wa wb) s → WritesNow (Machine.exec (.sltn d a b wa wb) s) s d (if x.toNat < y.toNat then 1 else 0)) ∧
  (Ready (.seq d a b wa wb) s → WritesNow (Machine.exec (.seq d a b wa wb) s) s d (if x = y then 1 else 0)) ∧
  (Ready (.min d a b wa wb) s → WritesNow (Machine.exec (.min d a b wa wb) s) s d (if x.toInt ≤ y.toInt then x else y)) ∧
  (Ready (.max d a b wa wb) s → WritesNow (Machine.exec (.max d a b wa wb) s) s d (if x.toInt ≤ y.toInt then y else x)) ∧
  (Ready (.sel d a b wa wb) s → WritesNow (Machine.exec (.sel d a b wa wb) s) s d (if (own s).getX d ≠ 0 then x else y)) ∧
  (s.iss.isOpen = false → (own s).xFull d = false → staticFault (own s).kernel (isSeq s.cur) none [some (.sel d a b wa wb)] = none →
    Machine.exec (.sel d a b wa wb) s = .next (stallCtx s s.cur))

/-- R115: MUL, MULH and MULHN write the low or the high half of the product, with latency 3; MINN and MAXN write the lesser or greater
unsigned value. R116, R99: a division is outstanding with its operands, and its destination is empty, until the divider writes it. -/
def Obligations.MulResults : Prop := ∀ (s : State) (d a b : Reg) (wa wb : Bool) (x y : Word),
  (own s).getX a = x → (own s).getX b = y →
  (Ready (.mul d a b wa wb) s → WritesLater (Machine.exec (.mul d a b wa wb) s) s 2 d (x * y)) ∧
  (Ready (.mulh d a b wa wb) s →
    WritesLater (Machine.exec (.mulh d a b wa wb) s) s 2 d ((x.signExtend 128 * y.signExtend 128).extractLsb' 64 64)) ∧
  (Ready (.mulhn d a b wa wb) s →
    WritesLater (Machine.exec (.mulhn d a b wa wb) s) s 2 d ((x.setWidth 128 * y.setWidth 128).extractLsb' 64 64)) ∧
  (Ready (.minn d a b wa wb) s → WritesNow (Machine.exec (.minn d a b wa wb) s) s d (if x.toNat ≤ y.toNat then x else y)) ∧
  (Ready (.maxn d a b wa wb) s → WritesNow (Machine.exec (.maxn d a b wa wb) s) s d (if x.toNat ≤ y.toNat then y else x)) ∧
  (Ready (.div d a b wa wb) s → Starts (Machine.exec (.div d a b wa wb) s) s
    { access s (.div d a b wa wb) with va := x, vb := y }) ∧
  (Ready (.divn d a b wa wb) s → Starts (Machine.exec (.divn d a b wa wb) s) s
    { access s (.divn d a b wa wb) with va := x, vb := y }) ∧
  (Ready (.rem d a b wa wb) s → Starts (Machine.exec (.rem d a b wa wb) s) s
    { access s (.rem d a b wa wb) with va := x, vb := y }) ∧
  (Ready (.remn d a b wa wb) s → Starts (Machine.exec (.remn d a b wa wb) s) s
    { access s (.remn d a b wa wb) with va := x, vb := y })

/-- R117 and R69: CLZ, FFS, POPC and BREV treat x[A] as elements of w bits and write each element's result in its place; SEXT and
ZEXT extend the low w bits. e and r are the elements before and after. -/
def Obligations.BitElements : Prop := ∀ (s : State) (d a : Reg) (z : Width) (wa : Bool) (x : Word) (w : Nat),
  (own s).getX a = x → w = 8 * widthBytes z →
  (Ready (.clz d a z wa) s → ∃ v, WritesNow (Machine.exec (.clz d a z wa) s) s d v ∧ ∀ i e r, i < 64 / w → x.bits (w * i) w = e →
    v.bits (w * i) w = r → (e = 0 → r = w) ∧ (e ≠ 0 → r < w ∧ e.testBit (w - 1 - r) ∧ ∀ j, w - 1 - r < j → ¬e.testBit j)) ∧
  (Ready (.ffs d a z wa) s → ∃ v, WritesNow (Machine.exec (.ffs d a z wa) s) s d v ∧ ∀ i e r, i < 64 / w → x.bits (w * i) w = e →
    v.bits (w * i) w = r → (e = 0 → r = 0) ∧ (e ≠ 0 → 1 ≤ r ∧ e.testBit (r - 1) ∧ ∀ j, j < r - 1 → ¬e.testBit j)) ∧
  (Ready (.popc d a z wa) s → ∃ v, WritesNow (Machine.exec (.popc d a z wa) s) s d v ∧ ∀ i e r, i < 64 / w → x.bits (w * i) w = e →
    v.bits (w * i) w = r → r = ((List.range w).filter fun j => e.testBit j).length) ∧
  (Ready (.brev d a z wa) s → ∃ v, WritesNow (Machine.exec (.brev d a z wa) s) s d v ∧ ∀ i e r, i < 64 / w → x.bits (w * i) w = e →
    v.bits (w * i) w = r → ∀ j, j < w → r.testBit (w - 1 - j) = e.testBit j) ∧
  (Ready (.sext d a z wa) s → WritesNow (Machine.exec (.sext d a z wa) s) s d ((x.setWidth w).signExtend 64)) ∧
  (Ready (.zext d a z wa) s → WritesNow (Machine.exec (.zext d a z wa) s) s d ((x.setWidth w).setWidth 64))

/-- R118: an immediate form is the ALU operation with b the sign-extended immediate; a shift takes its count from IMM11[5:0]. -/
def Obligations.ImmediateForms : Prop := ∀ (s : State) (d a : Reg) (wa : Bool) (n : BitVec 11) (k : BitVec 6) (x y : Word),
  (own s).getX a = x → n.signExtend 64 = y →
  (Ready (.addi d a wa n) s → WritesNow (Machine.exec (.addi d a wa n) s) s d (x + y)) ∧
  (Ready (.andi d a wa n) s → WritesNow (Machine.exec (.andi d a wa n) s) s d (x &&& y)) ∧
  (Ready (.ori d a wa n) s → WritesNow (Machine.exec (.ori d a wa n) s) s d (x ||| y)) ∧
  (Ready (.xori d a wa n) s → WritesNow (Machine.exec (.xori d a wa n) s) s d (x ^^^ y)) ∧
  (Ready (.shli d a wa k) s → WritesNow (Machine.exec (.shli d a wa k) s) s d (x <<< k.toNat)) ∧
  (Ready (.shri d a wa k) s → WritesNow (Machine.exec (.shri d a wa k) s) s d (x >>> k.toNat)) ∧
  (Ready (.srai d a wa k) s → WritesNow (Machine.exec (.srai d a wa k) s) s d (BitVec.ofInt 64 (x.toInt >>> k.toNat))) ∧
  (Ready (.slti d a wa n) s → WritesNow (Machine.exec (.slti d a wa n) s) s d (if x.toInt < y.toInt then 1 else 0)) ∧
  (Ready (.sltni d a wa n) s → WritesNow (Machine.exec (.sltni d a wa n) s) s d (if x.toNat < y.toNat then 1 else 0))

/-- R119: LI sign-extends, LIS shifts the old x[D] left by 18 and ORs, ADDPC counts from the address of the bundle's first slot. -/
def Obligations.LongImmediates : Prop := ∀ (s : State) (d : Reg) (n : BitVec 18),
  (Ready (.li d n) s → WritesNow (Machine.exec (.li d n) s) s d (n.signExtend 64)) ∧
  (Ready (.lis d n) s → WritesNow (Machine.exec (.lis d n) s) s d (((own s).getX d <<< 18) ||| n.setWidth 64)) ∧
  (Ready (.addpc d n) s → WritesNow (Machine.exec (.addpc d n) s) s d ((own s).pc + n.signExtend 64 * 4))

/-- R91: NOP changes nothing. R93, R94: in a bundle, REP has its target, the next slot, issue CNT more times; alone, with no next slot,
it takes Illegal Bundle (R92). -/
def Obligations.NopAndRep : Prop := ∀ (s : State) (n : BitVec 6) (ds as bs : BitVec 2),
  (Ready .nop s → Does (Machine.exec .nop s) s id) ∧
  (s.iss.isOpen = true → Machine.exec (.rep n ds as bs) s =
    .next { s with iss := { s.iss with repLeft := some n.toNat, repAt := some (s.iss.slot + 1) } }) ∧
  (s.iss.isOpen = false → Machine.exec (.rep n ds as bs) s =
    takeTrap s s.cur { cause := .illegalBundle, tpc := (own s).pc, tinfo := wordOfNat (1 * 2 ^ 6) })

/-! Control slots: spec/04_scalar.md. -/

/-- R120, R126: a branch compares x[A] with x[B] and goes to the word OFF12 slots away from its own, or on. -/
def Obligations.Branches : Prop := ∀ (s : State) (a b : Reg) (off : BitVec 12) (x y target : Word),
  (own s).getX a = x → (own s).getX b = y → (own s).pc + off.signExtend 64 * 4 = target → (own s).repNext = none →
  (Ready (.beq a b off) s → (x = y → GoesTo (Machine.exec (.beq a b off) s) s id target) ∧
    (x ≠ y → GoesOn (Machine.exec (.beq a b off) s) s id)) ∧
  (Ready (.bne a b off) s → (x ≠ y → GoesTo (Machine.exec (.bne a b off) s) s id target) ∧
    (x = y → GoesOn (Machine.exec (.bne a b off) s) s id)) ∧
  (Ready (.blt a b off) s → (x.toInt < y.toInt → GoesTo (Machine.exec (.blt a b off) s) s id target) ∧
    (y.toInt ≤ x.toInt → GoesOn (Machine.exec (.blt a b off) s) s id)) ∧
  (Ready (.bge a b off) s → (y.toInt ≤ x.toInt → GoesTo (Machine.exec (.bge a b off) s) s id target) ∧
    (x.toInt < y.toInt → GoesOn (Machine.exec (.bge a b off) s) s id)) ∧
  (Ready (.bltn a b off) s → (x.toNat < y.toNat → GoesTo (Machine.exec (.bltn a b off) s) s id target) ∧
    (y.toNat ≤ x.toNat → GoesOn (Machine.exec (.bltn a b off) s) s id)) ∧
  (Ready (.bgen a b off) s → (y.toNat ≤ x.toNat → GoesTo (Machine.exec (.bgen a b off) s) s id target) ∧
    (x.toNat < y.toNat → GoesOn (Machine.exec (.bgen a b off) s) s id))

/-- R121, R122, R126: JMP and JAL go OFF24 words away, JR to x[A] as read at issue; JAL links in x63, JR in x[D].
JR faults Misaligned when x[A][1:0] is not zero, else Non-canonical when x[A][63:57] is not zero, with x[A] in TADDR. That Misaligned
comes first where both hold is the model's choice: R122 gives no order (DEDUCED, log entry 7). -/
def Obligations.Jumps : Prop := ∀ (s : State) (d a : Reg) (wa : Bool) (off : BitVec 24) (target link x : Word),
  (own s).pc + off.signExtend 64 * 4 = target → (own s).pc + 4 = link → (own s).getX a = x →
  (Ready (.jmp off) s → GoesTo (Machine.exec (.jmp off) s) s id target) ∧
  (Ready (.jal off) s → GoesTo (Machine.exec (.jal off) s) s (fun c => c.addX 1 63 link) target ∧
    WritesNow (Machine.exec (.jal off) s) s 63 link) ∧
  (Ready (.jr d a wa) s → GoesTo (Machine.exec (.jr d a wa) s) s (fun c => c.addX 1 d link) x ∧
    WritesNow (Machine.exec (.jr d a wa) s) s d link) ∧
  (s.iss.isOpen = false → staticFault (own s).kernel (isSeq s.cur) none [some (.jr d a wa)] = none → stalls s s.cur [.jr d a wa] 0 = false →
    step6 (own s) (.jr d a wa) = none →
    (x.toNat % 4 ≠ 0 → ∃ info, Machine.exec (.jr d a wa) s =
      takeTrap s s.cur { cause := .misaligned, tpc := (own s).pc, taddr := x, tinfo := info }) ∧
    (x.toNat % 4 = 0 → 2 ^ 57 ≤ x.toNat → ∃ info, Machine.exec (.jr d a wa) s =
      takeTrap s s.cur { cause := .nonCanonical, tpc := (own s).pc, taddr := x, tinfo := info }))

/-- R124: LOOP with a count other than zero loads its level with start, end and count and marks it active; no other level and no
register changes. With a count of zero no level changes and the next bundle is that after the bundle that holds end. R125: after a bundle
with no taken transfer and no repeat to come, the levels that end in it are checked from the highest number down; else no level is. -/
def Obligations.Loops : Prop :=
  (∀ (s : State) (a : Reg) (l : BitVec 2) (off : BitVec 12), Ready (.loop a l off) s →
    ((own s).getX a ≠ 0 → (own s).repNext = none → ∀ c, c = { own s with loops := Vector.ofFn fun i =>
        if i.val = l.toNat then { start := (own s).pc + 4, stop := (own s).pc + off.signExtend 64 * 4, remaining := (own s).getX a, active := true }
        else (own s).loops[i] } →
      ∃ t, Machine.exec (.loop a l off) s = .next t ∧ OnlyOwn s t ∧ SameButIssue (aged c) (t.ctxAt s.cur) ∧
        LoopsOn (own s).pc 1 c (t.ctxAt s.cur)) ∧
    ((own s).getX a = 0 → ∀ w, s.fetchWord s.cur ((own s).pc + off.signExtend 64 * 4) = (s, .ok w) → stopBit w = true →
      ∃ t, Machine.exec (.loop a l off) s = .next t ∧ OnlyOwn s t ∧ SameButIssue (aged (own s)) (t.ctxAt s.cur) ∧
        (t.ctxAt s.cur).loops = (own s).loops ∧ (t.ctxAt s.cur).pc = (own s).pc + off.signExtend 64 * 4 + 4)) ∧
  ∀ (i : Iss) (c : Ctx), (i.repLeft.getD 0 ≠ 0 ∨ i.taken = true → (closedCtx i c).loops = c.loops) ∧
    (i.taken = false → i.repLeft.getD 0 = 0 → c.repNext = none → c.drain = .none → LoopsOn i.pc i.len c (closedCtx i c))

/-- R132, R133: QUIET records its number as the last cut passed and x[A], or no row for A = 0, as the live rows. Its bundle is the stop
point of a cut that is pending with a target it reaches, in a context with no frame. CUTREQ keeps PENDING and TARGET. -/
def Obligations.QuietPoint : Prop := ∀ (s : State) (a : Reg) (n : BitVec 12) (rows : Word),
  Ready (.quiet a n) s → (if a = 0 then 0 else (own s).getX a) = rows →
  ∃ req, Does (Machine.exec (.quiet a n) s) s (fun c =>
    { c with cr := c.cr.set 0x16 req, live := rows, stopPoint := c.stopPoint ||
        decide ((c.cr[0x16]).getLsbD 12 = true ∧ (c.cr[0x16]).bits 0 12 ≤ n.toNat ∧ c.frames = 0 ∧ isSeq s.cur = false) }) ∧
    req.bits 28 1 = 1 ∧ req.bits 16 12 = n.toNat ∧ req.bits 0 13 = ((own s).cr[0x16]).bits 0 13

/-- R134, R250, R71 and R265: SLK sets SLACK for later bundles; MTC has x[A] govern its register from the next bundle, by the register's
own mask; MFC reads the register at issue with latency 2. R83, R250: when the bundle has issued, a control register that it wrote last
holds the written value where the register has the bit, and what it held elsewhere; every other control register holds what it held, and no
write is pending any more. -/
def Obligations.ControlRegisterMoves : Prop :=
  (∀ (s : State) (a d : Reg) (n : BitVec 12) (k : Fin 24), n.toNat = k.val →
    (∀ m : BitVec 12, Ready (.slk m) s → Does (Machine.exec (.slk m) s) s fun c => { c with crPend := c.crPend ++ [(0x0C, m.setWidth 64)] }) ∧
    (Ready (.mtc a n) s → Does (Machine.exec (.mtc a n) s) s fun c => { c with crPend := c.crPend ++ [(n.toNat, (own s).getX a)] }) ∧
    (Ready (.mfc d n) s → WritesLater (Machine.exec (.mfc d n) s) s 1 d (s.readCr s.cur k)) ∧
    (∀ wa, Ready (.mpcw a wa) s →
      Does (Machine.exec (.mpcw a wa) s) s fun c => { c with crPend := c.crPend ++ [(0x0B, (own s).getX a)] })) ∧
  ∀ (c : Ctx) (k : Fin 24) (v : Word), c.crPend = [(k.val, v)] → (k.val = 0x0E → v.bits 0 3 < 6) →
    (∀ b, b < 64 → (c.applyMtc.cr[k]).getLsbD b = if (crMask k).getLsbD b then v.getLsbD b else (c.cr[k]).getLsbD b) ∧
    (∀ j : Fin 24, j ≠ k → c.applyMtc.cr[j] = c.cr[j]) ∧ c.applyMtc.crPend = []

/-- R71: the generator's subfunctions; each value that is delivered has latency 2, and counters are added modulo 2^128. An MTC to RNGK,
RNGCL or RNGCH replaces that part of the state and leaves RGH; one to VRM sets RGH. -/
def Obligations.GeneratorSlots : Prop := ∀ (s : State) (d a b : Reg) (wa wb : Bool) (k c0 c1 : Word) (r : BitVec 128),
  (own s).cr[0x10] = k → (own s).cr[0x11] = c0 → (own s).cr[0x12] = c1 → draw k (c1 ++ c0) = r →
  (Ready (.rget d) s → ((own s).cr[0x0E]).getLsbD 8 = false → Does (Machine.exec (.rget d) s) s fun c =>
    { c.addX 2 d (r.extractLsb' 0 64) with cr := c.cr.set 0x0E (c.cr[0x0E] ||| 256#64) }) ∧
  (Ready (.rget d) s → ((own s).cr[0x0E]).getLsbD 8 = true → Does (Machine.exec (.rget d) s) s fun c =>
    { c.addX 2 d (r.extractLsb' 64 64) with
        cr := ((c.cr.set 0x12 ((c1 ++ c0 + 1#128).extractLsb' 64 64)).set 0x11 ((c1 ++ c0 + 1#128).extractLsb' 0 64)).set 0x0E
          (c.cr[0x0E] &&& ~~~256#64) }) ∧
  (Ready (.rskip a b wa wb) s → ∀ e : BitVec 128, c1 ++ c0 + ((own s).getX a ++ (own s).getX b) = e →
    Does (Machine.exec (.rskip a b wa wb) s) s fun c =>
      { c with cr := ((c.cr.set 0x12 (e.extractLsb' 64 64)).set 0x11 (e.extractLsb' 0 64)).set 0x0E (c.cr[0x0E] &&& ~~~256#64) }) ∧
  (Ready (.rseed a b wa wb) s → Does (Machine.exec (.rseed a b wa wb) s) s fun c =>
    { c with cr := (((c.cr.set 0x10 ((own s).getX a)).set 0x12 0).set 0x11 ((own s).getX b)).set 0x0E (c.cr[0x0E] &&& ~~~256#64) }) ∧
  (Ready (.rctl d) s → WritesLater (Machine.exec (.rctl d) s) s 1 d c0) ∧
  (Ready (.rcth d) s → WritesLater (Machine.exec (.rcth d) s) s 1 d c1) ∧
  ∀ (c : Ctx) (v : Word),
    (∀ i : Fin 24, i = 0x10 ∨ i = 0x11 ∨ i = 0x12 → c.crPend = [(i.val, v)] → c.applyMtc.cr[i] = v ∧ c.applyMtc.cr[0x0E] = c.cr[0x0E]) ∧
    (c.crPend = [(0x0E, v)] → (c.applyMtc.cr[0x0E]).getLsbD 8 = v.getLsbD 8)

/-- R127: TKW with no error among its tokens does nothing. With one, every named token has its status set to ok, and once the bundle has
completed a trap is taken whose TPC is the next bundle's; TINFO names the first erroneous token in field order, its status, and
which fields carried errors; TADDR is the racing address of a Race, else 0 (R266). Its context acquires from itself: what it has read
ahead of its own engines' writes holds no longer (R220). -/
def Obligations.TokenWait : Prop := ∀ (s : State) (ka kb kc : Tok), Ready (.tkw ka kb kc) s →
  ((∀ k, k = ka ∨ k = kb ∨ k = kc → ((own s).getK k).status = 0) → Does (Machine.exec (.tkw ka kb kc) s) (s.acquire s.cur 0) id) ∧
  (∀ e k st, (if ((own s).getK ka).status ≠ 0 then ka else if ((own s).getK kb).status ≠ 0 then kb else kc) = e →
    ((own s).getK e).status = st → st ≠ 0 → ∃ u info, Machine.exec (.tkw ka kb kc) s =
      takeTrap u s.cur { cause := statusCause st.toNat, tpc := (u.ctxAt s.cur).pc, tinfo := info
                         taddr := if st = 0x24 then ((own s).getK e).addr else 0 } ∧
    Does (.next u) (s.acquire s.cur 0) (fun c => { c with k := (u.ctxAt s.cur).k }) ∧
    (u.ctxAt s.cur).getK k = (if k = ka ∨ k = kb ∨ k = kc then { (own s).getK k with status := 0 } else (own s).getK k) ∧
    info.bits 14 4 = e.toNat ∧ info.bits 18 8 = st.toNat ∧ (info.getLsbD 28 = true ↔ ((own s).getK ka).status ≠ 0) ∧
    (info.getLsbD 27 = true ↔ ((own s).getK kb).status ≠ 0) ∧ (info.getLsbD 26 = true ↔ ((own s).getK kc).status ≠ 0))

/-- R128: WAITC issues when the read at issue satisfies its condition, or one since did; else its context stalls. The four conditions
compare the word with x[B]. The read that satisfies it is an acquire at its scope (R322). As the first access of a handler it closes the
entry window (R406). -/
def Obligations.WaitOnWord : Prop := ∀ (s : State) (a b : Reg) (wa wb : Bool) (sc : Scope) (k : WCond) (w y : Word),
  (waitCond .ge w y = true ↔ y.toInt ≤ w.toInt) ∧ (waitCond .eq w y = true ↔ w = y) ∧ (waitCond .ne w y = true ↔ w ≠ y) ∧
  (waitCond .geu w y = true ↔ y.toNat ≤ w.toNat) ∧
  (Ready (.waitc a b wa wb sc k) s →
    ((own s).satisfied = true → Does (Machine.exec (.waitc a b wa wb sc k) s) s
      fun c => if c.window.first = none then { c with window := {} } else c) ∧
    ((own s).satisfied = false → waitRead s s.cur ((own s).getX a) ((own s).getX b) k = (s, .yes) →
      Does (Machine.exec (.waitc a b wa wb sc k) s) (s.acquire s.cur (scopeCode sc))
        fun c => if c.window.first = none then { c with window := {} } else c) ∧
    ((own s).satisfied = false → waitRead s s.cur ((own s).getX a) ((own s).getX b) k = (s, .no) →
      Machine.exec (.waitc a b wa wb sc k) s = .next (stallCtx s s.cur)))

/-- R130: a BAR that its group has let pass issues, an acquire at grp scope, and does nothing more, but that a guard report which its task
has pending is taken with TPC at the bundle after it; the report is pending no longer. A task with no group has then completed one episode
more (R313). -/
def Obligations.Barrier : Prop := ∀ (s : State) (id : BitVec 12), Ready (.bar id) s →
  ((own s).task = none → Does (Machine.exec (.bar id) s) (s.acquire s.cur 1) fun c => { c with passed := none }) ∧
  (∀ n t, (own s).task = some n → s.findTask n = some t →
    let s' := (s.acquire s.cur 1).modTask n fun k =>
      { k with guard := none, bars := if (own s).grp = none then k.bars + 1 else k.bars }
    (t.guard = none → Does (Machine.exec (.bar id) s) s' fun c => { c with passed := none }) ∧
    (∀ g, t.guard = some g → ∃ u info, Does (.next u) s' (fun c => { c with passed := none }) ∧ Machine.exec (.bar id) s =
      takeTrap u s.cur { cause := .guardTouch, tpc := (u.ctxAt s.cur).pc, taddr := BitVec.ofNat 64 g.addr, tinfo := info, imprecise := true }))

/-- R135, R260: after TEND or HALT the context issues nothing more and drains; TEND leaves every loop level (R126). R257: TRAP, when nothing that comes before it faults or
stalls, takes the trap of its code, at the bundle, with STEPOVER set; no slot of its bundle executes. With frames on and one free the
context goes on at TVEC, with the address of the bundle in TPC. -/
def Obligations.TaskEndsAndTraps : Prop := ∀ (s : State),
  (Ready .tend s → Drains (Machine.exec .tend s) s .tend) ∧ (Ready .sysHalt s → Drains (Machine.exec .sysHalt s) s .halt) ∧
  ∀ n : BitVec 12, s.iss.isOpen = false → staticFault (own s).kernel (isSeq s.cur) none [some (.trap n)] = none →
    stalls s s.cur [.trap n] 0 = false → ∃ info, info.bits 0 3 = 0 ∧ info.bits 3 3 = 0 ∧ Machine.exec (.trap n) s =
      takeTrap s s.cur { cause := .trap, tpc := (own s).pc, tinfo := info, code := n.toNat, stepover := true } ∧
      ((own s).frames < 2 → (own s).window.isOpen = false → s.framesOn s.cur = true →
        installed (s.frameBase s.cur (own s).frames) 0x20000 = true → ∃ u, Machine.exec (.trap n) s = .next u ∧
          (u.ctxAt s.cur).pc = (own s).cr[1] &&& 0x01FFFFFFFFFFFFFC#64 ∧ (u.ctxAt s.cur).cr[5] = (own s).pc ∧
          (u.ctxAt s.cur).frames = (own s).frames + 1)

/-- R261: TLBI removes from every unit the translations of the job that cover x[A], pinned or not, TLBIA every one of the job; no other
translation is touched. That they act at their own bundle, whatever the context has outstanding, and on the sequencers' units beside the
clusters' that R261 names, is the model's choice (DEDUCED, log entry 39). -/
def Obligations.TranslationsInvalidated : Prop := ∀ (s : State) (a : Reg),
  (Ready (.sysTlbi a) s → ∃ t, Machine.exec (.sysTlbi a) s = .next t ∧ OnlyOwn { s with units := t.units } t ∧
    SameButIssue (aged (own s)) (t.ctxAt s.cur) ∧ ∀ u e, e ∈ (t.unitAt u).held ↔ e ∈ (s.unitAt u).held ∧
      ¬(e.job = (own s).job ∧ e.page ≤ ((own s).getX a).toNat ∧ ((own s).getX a).toNat < e.page + e.size)) ∧
  (Ready .sysTlbia s → ∃ t, Machine.exec .sysTlbia s = .next t ∧ OnlyOwn { s with units := t.units } t ∧
    SameButIssue (aged (own s)) (t.ctxAt s.cur) ∧ ∀ u e, e ∈ (t.unitAt u).held ↔ e ∈ (s.unitAt u).held ∧ e.job ≠ (own s).job)

/-! Vector slots: spec/05_vector.md. -/

/-- R141, R142, R144, R145, R151, R161: lanes of an integer type. Sums, differences and products wrap, with no flag; minima and maxima
compare as the type says; a shift by the width or more leaves zeros, or copies of the sign. -/
def Obligations.IntegerLanes : Prop := ∀ (s : State) (d a b : Reg) (mk : MReg) (t : ETy) (w : Nat) (x y : Nat → Nat),
  t.isInt = true → w = 8 * t.bytes → (∀ i, lane t ((own s).getV a) i = x i) → (∀ i, lane t ((own s).getV b) i = y i) →
  (Ready (.vadd d a b mk t) s → LanesLater (Machine.exec (.vadd d a b mk t) s) s id 3 d mk t fun i => ((x i + y i) % 2 ^ w, 0)) ∧
  (Ready (.vsub d a b mk t) s → LanesLater (Machine.exec (.vsub d a b mk t) s) s id 3 d mk t fun i => ((x i + (2 ^ w - y i)) % 2 ^ w, 0)) ∧
  (Ready (.vmul d a b mk t) s → LanesLater (Machine.exec (.vmul d a b mk t) s) s id 3 d mk t fun i => ((x i * y i) % 2 ^ w, 0)) ∧
  (Ready (.vmin d a b mk t) s → LanesLater (Machine.exec (.vmin d a b mk t) s) s id 3 d mk t
    fun i => (if intOf t (x i) ≤ intOf t (y i) then x i else y i, 0)) ∧
  (Ready (.vmax d a b mk t) s → LanesLater (Machine.exec (.vmax d a b mk t) s) s id 3 d mk t
    fun i => (if intOf t (x i) ≤ intOf t (y i) then y i else x i, 0)) ∧
  (Ready (.vabs d a mk t) s → t.hasSign = true → LanesLater (Machine.exec (.vabs d a mk t) s) s id 1 d mk t
    fun i => (if x i < 2 ^ (w - 1) then x i else 2 ^ w - x i, 0)) ∧
  (Ready (.vneg d a mk t) s → LanesLater (Machine.exec (.vneg d a mk t) s) s id 1 d mk t fun i => (2 ^ w - x i, 0)) ∧
  (Ready (.vshl d a b mk t) s → LanesLater (Machine.exec (.vshl d a b mk t) s) s id 1 d mk t
    fun i => (if y i < w then x i * 2 ^ y i else 0, 0)) ∧
  (Ready (.vshr d a b mk t) s → LanesLater (Machine.exec (.vshr d a b mk t) s) s id 1 d mk t
    fun i => (if y i < w then x i / 2 ^ y i else 0, 0)) ∧
  (Ready (.vsra d a b mk t) s → LanesLater (Machine.exec (.vsra d a b mk t) s) s id 1 d mk t
    fun i => if x i < 2 ^ (w - 1) then (if y i < w then x i / 2 ^ y i else 0, 0)
      else (if y i < w then (x i + (2 ^ y i - 1) * 2 ^ w) / 2 ^ y i else 2 ^ w - 1, 0)) ∧
  (∀ op, Ready (.vbits d a op mk t) s → LanesLater (Machine.exec (.vbits d a op mk t) s) s id 3 d mk t fun i =>
    (match op with | .clz => clzNat w (x i) | .ffs => ffsNat w (x i) | .popc => popcNat w (x i) | .brev => brevNat w (x i), 0))

/-- R141 to R147, R152, R153, R162, R164, R63 and R72: lanes of a floating type. Each is the exact value of the operation, rounded once by
VRM.RM, and minima, maxima and special functions have their own rules; VABS and VNEG change the sign bit alone. Under SR lane i takes
the draw at C + i, and C goes on by the number of lanes. The rounding and the special functions are those of the model's numbers. -/
def Obligations.FloatLanes : Prop := ∀ (s : State) (d a b : Reg) (mk : MReg) (t : ETy) (f : Fmt) (rm : RMode) (x y z u : Nat → Nat)
    (after : Ctx → Ctx), t.isFloat = true → fmtOf t = f → (own s).vrm = rm →
  (∀ i, lane t ((own s).getV a) i = x i) → (∀ i, lane t ((own s).getV b) i = y i) → (∀ i, lane t ((own s).getV d) i = z i) →
  (∀ i, u i = if rm = .sr then (draw (own s).cr[0x10] ((own s).counter + BitVec.ofNat 128 i)).toNat % 2 ^ 24 else 0) →
  (∀ c, after c = if rm = .sr then (c.setCounter (c.counter + BitVec.ofNat 128 (lanes t))).setRgh false else c) →
  (Ready (.vadd d a b mk t) s → LanesLater (Machine.exec (.vadd d a b mk t) s) s after 3 d mk t
    fun i => f.addV rm (f.unpack (x i)) (f.unpack (y i)) (u i)) ∧
  (Ready (.vsub d a b mk t) s → LanesLater (Machine.exec (.vsub d a b mk t) s) s after 3 d mk t
    fun i => f.addV rm (f.unpack (x i)) (f.unpack (y i)).negate (u i)) ∧
  (Ready (.vmul d a b mk t) s → LanesLater (Machine.exec (.vmul d a b mk t) s) s after 3 d mk t
    fun i => f.mulV rm (f.unpack (x i)) (f.unpack (y i)) (u i)) ∧
  (Ready (.vfma d a b mk t) s → LanesLater (Machine.exec (.vfma d a b mk t) s) s after 4 d mk t
    fun i => f.fmaV rm (f.unpack (x i)) (f.unpack (y i)) (f.unpack (z i)) (u i)) ∧
  (Ready (.vfms d a b mk t) s → LanesLater (Machine.exec (.vfms d a b mk t) s) s after 4 d mk t
    fun i => f.fmaV rm (f.unpack (x i)) (f.unpack (y i)) (f.unpack (z i)).negate (u i)) ∧
  (Ready (.vfnm d a b mk t) s → LanesLater (Machine.exec (.vfnm d a b mk t) s) s after 4 d mk t
    fun i => f.fmaV rm (f.unpack (x i)).negate (f.unpack (y i)) (f.unpack (z i)) (u i)) ∧
  (Ready (.vscl d a b mk t) s → LanesLater (Machine.exec (.vscl d a b mk t) s) s after 3 d mk t
    fun i => laneScl t ((own s).getX b).toInt rm (x i) (u i)) ∧
  (Ready (.vmin d a b mk t) s → LanesLater (Machine.exec (.vmin d a b mk t) s) s id 3 d mk t fun i => f.minmax false false (x i) (y i)) ∧
  (Ready (.vmax d a b mk t) s → LanesLater (Machine.exec (.vmax d a b mk t) s) s id 3 d mk t fun i => f.minmax true false (x i) (y i)) ∧
  (Ready (.vminm d a b mk t) s → LanesLater (Machine.exec (.vminm d a b mk t) s) s id 3 d mk t fun i => f.minmax false true (x i) (y i)) ∧
  (Ready (.vmaxm d a b mk t) s → LanesLater (Machine.exec (.vmaxm d a b mk t) s) s id 3 d mk t fun i => f.minmax true true (x i) (y i)) ∧
  (Ready (.vabs d a mk t) s → LanesLater (Machine.exec (.vabs d a mk t) s) s id 1 d mk t fun i => (x i % 2 ^ (8 * t.bytes - 1), 0)) ∧
  (Ready (.vneg d a mk t) s → LanesLater (Machine.exec (.vneg d a mk t) s) s id 1 d mk t fun i => (x i ^^^ 2 ^ (8 * t.bytes - 1), 0)) ∧
  (∀ fn, Ready (.vsfn d a fn mk t) s → LanesLater (Machine.exec (.vsfn d a fn mk t) s) s id 9 d mk t fun i => sfnLane fn t (x i))

/-- R148: VCMP writes, in m[E], the bits of the active lanes: all ones where the comparison holds, all zeros where it does not; its flags
are those of the active lanes. R165: VMSK acts on all 2,048 bits of m[D]; VMCNT counts the governing bits. -/
def Obligations.MaskResults : Prop := ∀ (s : State) (e f : MReg) (a b d : Reg) (mk : MReg) (t : ETy) (k : VCond) (x y : Nat → Nat)
    (m n : Mask), (∀ i, lane t ((own s).getV a) i = x i) → (∀ i, lane t ((own s).getV b) i = y i) →
  (own s).getM e = m → (own s).getM f = n →
  (Ready (.vcmp e k a b mk t) s → ∃ v en fl, ResultLater (Machine.exec (.vcmp e k a b mk t) s) s id 3 (.m e v en) fl ∧
    (∀ q, q < 2048 → en.getLsbD q = ((own s).getM mk).getLsbD (q / t.bytes * t.bytes)) ∧
    (∀ q, q < 2048 → v.getLsbD q = (laneCmp t k (x (q / t.bytes)) (y (q / t.bytes))).1) ∧
    ∀ j, fl.getLsbD j = true ↔ ∃ i, i < lanes t ∧ ((own s).getM mk).getLsbD (t.bytes * i) = true ∧
      (laneCmp t k (x i) (y i)).2.getLsbD j = true) ∧
  (∀ op, Ready (.vmsk e f op) s → ResultLater (Machine.exec (.vmsk e f op) s) s id 1 (.m e (match op with
    | .and => m &&& n | .or => m ||| n | .xor => m ^^^ n | .andn => m &&& ~~~n | .not => ~~~n | .set => BitVec.allOnes 2048 | .clr => 0)
    (BitVec.allOnes 2048)) 0) ∧
  (Ready (.vmcnt d f t) s → WritesLater (Machine.exec (.vmcnt d f t) s) s 1 d
    (BitVec.ofNat 64 ((List.range (lanes t)).filter fun i => n.getLsbD (t.bytes * i)).length))

/-- R149, R150 and R160: logic, selection, permutes and moves copy bits and set no flag. -/
def Obligations.LaneMoves : Prop := ∀ (s : State) (d a b : Reg) (mk : MReg) (t : ETy) (x y : Nat → Nat),
  (∀ i, lane t ((own s).getV a) i = x i) → (∀ i, lane t ((own s).getV b) i = y i) →
  (Ready (.vand d a b mk t) s → LanesLater (Machine.exec (.vand d a b mk t) s) s id 1 d mk t fun i => (x i &&& y i, 0)) ∧
  (Ready (.vor d a b mk t) s → LanesLater (Machine.exec (.vor d a b mk t) s) s id 1 d mk t fun i => (x i ||| y i, 0)) ∧
  (Ready (.vxor d a b mk t) s → LanesLater (Machine.exec (.vxor d a b mk t) s) s id 1 d mk t fun i => (x i ^^^ y i, 0)) ∧
  (Ready (.vmov d a mk t) s → LanesLater (Machine.exec (.vmov d a mk t) s) s id 1 d mk t fun i => (x i, 0)) ∧
  (Ready (.vsel d a b mk t) s → RowLater (Machine.exec (.vsel d a b mk t) s) s 1 d t
    (fun i => if ((own s).getM mk).getLsbD (t.bytes * i) then x i else y i) 0) ∧
  (Ready (.vperm d a b mk t) s → LanesLater (Machine.exec (.vperm d a b mk t) s) s id 3 d mk t fun i => (x (y i % lanes t), 0)) ∧
  (Ready (.vbcst d a mk t) s → LanesLater (Machine.exec (.vbcst d a mk t) s) s id 1 d mk t fun _ => (((own s).getX a).toNat, 0)) ∧
  (Ready (.viota d mk t) s → LanesLater (Machine.exec (.viota d mk t) s) s id 1 d mk t fun i =>
    (if t.isFloat then (cvtFromInt (fmtOf t) .rne i 0).1 else i, 0)) ∧
  (Ready (.vins d a b mk t) s → ∃ row en, ResultLater (Machine.exec (.vins d a b mk t) s) s id 1 (.v d row en) 0 ∧
    ∀ j, ((own s).getX b).toNat % lanes t = j → lane t row j = ((own s).getX a).toNat % 2 ^ (8 * t.bytes) ∧
      ∀ q, q < 2048 → en.getLsbD q = (decide (q / t.bytes = j) && ((own s).getM mk).getLsbD (t.bytes * j))) ∧
  (Ready (.vext d a b t) s → (own s).vFull a = true → WritesLater (Machine.exec (.vext d a b t) s) s 1 d
    (if t.isInt && t.hasSign then BitVec.ofInt 64 (sextNat (x (((own s).getX b).toNat % lanes t)) (8 * t.bytes))
      else BitVec.ofNat 64 (x (((own s).getX b).toNat % lanes t)))) ∧
  (Ready (.vext d a b t) s → (own s).vFull a = false → Starts (Machine.exec (.vext d a b t) s) s
    { access s (.vext d a b t) with vb := (own s).getX b })

/-- R158, R159: VRED writes every lane, lane 0 with the value of the fixed tree over the active lanes, the others with zero, inactive
lanes entering as the identity; VSCAN's lane i is the sum of lanes 0 to i, formed from lane 0 upwards. For an integer type the
sum wraps. -/
def Obligations.Reductions : Prop := ∀ (s : State) (d a : Reg) (mk : MReg) (t : ETy) (x : Nat → Nat),
  (∀ i, lane t ((own s).getV a) i = x i) →
  (∀ op r fl, Ready (.vred d a op mk t) s → redTree (redFn t op) 11 ((List.range (lanes t)).map fun i =>
      if ((own s).getM mk).getLsbD (t.bytes * i) then x i else redIdentity t op) = (r, fl) →
    RowLater (Machine.exec (.vred d a op mk t) s) s 7 d t (fun i => if i = 0 then r else 0) fl) ∧
  (∀ p : Nat → Nat × Flags, Ready (.vscan d a mk t) s →
    (∀ i, p i = laneAdd t .rne (if i = 0 then redIdentity t .sum else (p (i - 1)).1)
      (if ((own s).getM mk).getLsbD (t.bytes * i) then x i else redIdentity t .sum) 0) →
    LanesLater (Machine.exec (.vscan d a mk t) s) s id 9 d mk t p) ∧
  (t.isInt = true → ∀ i j, laneAdd t .rne i j 0 = ((i + j) % 2 ^ (8 * t.bytes), 0))

/-- R162, R163, R72: VRAND and VPRUNE take one draw for each lane, active or not; VRAND delivers its low bits, or 24 of them as a fraction
in FP32; VPRUNE keeps a lane or gives +0. -/
def Obligations.RandomLanes : Prop := ∀ (s : State) (d a b : Reg) (mk : MReg) (t : ETy) (x r : Nat → Nat) (after : Ctx → Ctx),
  (∀ i, lane t ((own s).getV a) i = x i) →
  (∀ i, (draw (own s).cr[0x10] ((own s).counter + BitVec.ofNat 128 i)).toNat = r i) →
  (∀ c, after c = (c.setCounter (c.counter + BitVec.ofNat 128 (lanes t))).setRgh false) →
  (Ready (.vrand d false mk t) s → LanesLater (Machine.exec (.vrand d false mk t) s) s after 3 d mk t fun i => (r i, 0)) ∧
  (Ready (.vrand d true mk t) s → LanesLater (Machine.exec (.vrand d true mk t) s) s after 3 d mk t
    fun i => ((fmtF32.round .rne { neg := false, m := r i % 2 ^ 24, e := -24 } 0).1, 0)) ∧
  (Ready (.vprune d a b mk t) s → LanesLater (Machine.exec (.vprune d a b mk t) s) s after 4 d mk t
    fun i => lanePrune t (fmtF32.unpack (((own s).getX b).toNat % 2 ^ 32)) (x i) (r i % 2 ^ 24))

/-- R152 to R154: VCVT converts max(Ls, Ld) elements; element e comes from lane e mod Ls of register A + e / Ls and goes to lane e mod Ld
of register D + e / Ld, governed by the mask bit of its place in the narrow register. Under SR element e takes the draw at C + e. -/
def Obligations.Conversions : Prop := ∀ (s : State) (d a : Reg) (t dt : ETy) (rm : RMode) (mk : MReg) (n : Nat) (x u : Nat → Nat)
    (after : Ctx → Ctx), Ready (.vcvt d a dt rm mk t) s → n = max (lanes t) (lanes dt) →
  (∀ e, e < n → lane t ((own s).getV (a + BitVec.ofNat 6 (e / lanes t))) (e % lanes t) = x e) →
  (∀ e, u e = if rm = .sr then (draw (own s).cr[0x10] ((own s).counter + BitVec.ofNat 128 e)).toNat % 2 ^ 24 else 0) →
  (∀ c, after c = if rm = .sr then (c.setCounter (c.counter + BitVec.ofNat 128 n)).setRgh false else c) →
  ∃ (w : State) (l : List Pending), Machine.exec (.vcvt d a dt rm mk t) s = .next w ∧ OnlyOwn s w ∧ l.length = n / lanes dt ∧
    SameButIssue { aged (after (own s)) with pend := (aged (after (own s))).pend ++ l } (w.ctxAt s.cur) ∧
    ∀ j p, l[j]? = some p → ∃ row en, p.due = 3 ∧ p.res = .v (d + BitVec.ofNat 6 j) row en ∧
      (∀ i, i < lanes dt → lane dt row i = (cvtElem t dt rm (x (j * lanes dt + i)) (u (j * lanes dt + i))).1 % 2 ^ (8 * dt.bytes)) ∧
      (∀ q, q < 2048 → en.getLsbD q = ((own s).getM mk).getLsbD ((2048 / n) * (j * lanes dt + q / dt.bytes))) ∧
      ∀ k, p.flags.getLsbD k = true ↔ ∃ i, i < lanes dt ∧ ((own s).getM mk).getLsbD ((2048 / n) * (j * lanes dt + i)) = true ∧
        (cvtElem t dt rm (x (j * lanes dt + i)) (u (j * lanes dt + i))).2.getLsbD k = true

/-- R155 to R157: VQMX's flags are on their way, and its writes, block by block, are outstanding as stores of the context; with no block
to write there are none. Under SR it takes one draw for each lane. Its quantisation is that of the model's numbers. -/
def Obligations.Quantisation : Prop := ∀ (s : State) (a b : Reg) (mk : MReg) (t : ETy) (x u : List Nat) (v : Word) (act : List Bool)
    (rm : RMode) (after : Ctx → Ctx) (w : List (Nat × Nat × Nat)) (fl : Flags), Ready (.vqmx a b mk t) s → (own s).getX b = v →
  x = (List.range (lanes t)).map (lane t ((own s).getV a)) → act = (List.range (lanes t)).map (fun i => ((own s).getM mk).getLsbD (t.bytes * i)) →
  RMode.ofCode (v.extractLsb' 35 3) = some rm →
  u = (List.range (lanes t)).map (fun i => if rm = .sr then (draw (own s).cr[0x10] ((own s).counter + BitVec.ofNat 128 i)).toNat % 2 ^ 24 else 0) →
  (∀ c, after c = if rm = .sr then (c.setCounter (c.counter + BitVec.ofNat 128 (lanes t))).setRgh false else c) →
  qmxAll t (v.bits 31 4) rm (v.bits 0 31) (v.bits 38 22) act x u = (w, fl) →
  (w = [] → ResultLater (Machine.exec (.vqmx a b mk t) s) s after 3 .flags fl) ∧
  (w ≠ [] → ∃ z, Machine.exec (.vqmx a b mk t) s = .next z ∧ OnlyOwn s z ∧
    (∃ e, (z.ctxAt s.cur).acc = (aged (own s)).acc ++ [e] ∧ e.ins = .vqmx a b mk t ∧ e.wr = w ∧ e.sn = (own s).sn) ∧
    SameButIssue { aged (after (own s)) with
      pend := (aged (after (own s))).pend ++ [{ due := 3, res := .flags, flags := fl }], acc := (z.ctxAt s.cur).acc
      sn := (own s).sn + 1, window := (z.ctxAt s.cur).window } (z.ctxAt s.cur))

/-! The memory path: spec/07_memory_instr.md, spec/14_ordering.md. -/

/-- R197 to R199: a load or a store is outstanding from its bundle on with the address x[A] + DISP × size, a store with its data, an STV
with its row, as read at issue. -/
def Obligations.LoadsAndStoresStart : Prop := ∀ (s : State) (t a : Reg) (wa : Bool) (disp : BitVec 11) (x : Word) (ea : Nat → Word),
  (own s).getX a = x → (∀ z, ea z = x + disp.signExtend 64 * BitVec.ofNat 64 z) →
  (∀ i z, (i = .ldbs t a wa disp ∧ z = 1) ∨ (i = .ldbn t a wa disp ∧ z = 1) ∨ (i = .ldhs t a wa disp ∧ z = 2) ∨
      (i = .ldhn t a wa disp ∧ z = 2) ∨ (i = .ldws t a wa disp ∧ z = 4) ∨ (i = .ldwn t a wa disp ∧ z = 4) ∨
      (i = .ldd t a wa disp ∧ z = 8) ∨ (i = .ldv t a wa disp ∧ z = 64) → Ready i s →
    Starts (Machine.exec i s) s { access s i with ea := ea z, va := x, todo := allWords }) ∧
  (∀ i z, (i = .stb t a wa disp ∧ z = 1) ∨ (i = .sth t a wa disp ∧ z = 2) ∨ (i = .stw t a wa disp ∧ z = 4) ∨
      (i = .std t a wa disp ∧ z = 8) → Ready i s →
    Starts (Machine.exec i s) s { access s i with ea := ea z, va := x, vt := (own s).getX t }) ∧
  (Ready (.stv t a wa disp) s → Starts (Machine.exec (.stv t a wa disp) s) s
    { access s (.stv t a wa disp) with ea := ea 64, va := x, row := (own s).getV t, todo := allWords })

/-- R200, R202, R203, R213: LDA, STL, the atomics and the work-list slots are outstanding at the address x[A], with x[B] and, for CAS,
with x[D] as read at issue. R204: a FENCE behind an access that is not yet performed is outstanding. One with nothing before it is over
with its bundle: unless it is an acquire the writes before it are performed at its scope, unless it is a release what its context has read
ahead holds no longer, and with ENG its engines see those writes. -/
def Obligations.SynchronisingStart : Prop := ∀ (s : State) (d a b : Reg) (wa wb : Bool) (x y : Word),
  (own s).getX a = x → (own s).getX b = y →
  (∀ z sc, Ready (.lda d a wa z sc) s → Starts (Machine.exec (.lda d a wa z sc) s) s { access s (.lda d a wa z sc) with ea := x, va := x }) ∧
  (∀ z sc, Ready (.stl a b wa wb z sc) s → Starts (Machine.exec (.stl a b wa wb z sc) s) s
    { access s (.stl a b wa wb z sc) with ea := x, va := x, vb := y, vt := y }) ∧
  (∀ i o fn, i = .amog d a b o fn ∨ i = .amod d a b o fn ∨ i = .amos d a b o fn → Ready i s → Starts (Machine.exec i s) s
    { access s i with ea := x, va := x, vb := y, vd := if fn = .cas then (own s).getX d else 0 }) ∧
  (∀ i, i = .wlpsh d a b wa wb ∨ i = .wlins d a b wa wb → Ready i s → Starts (Machine.exec i s) s { access s i with ea := x, va := x, vb := y }) ∧
  (∀ eng k sc, Ready (.fence eng k sc) s →
    (∀ e l, (own s).acc = e :: l → isMem e.ins = true → e.performed = false →
      Starts (Machine.exec (.fence eng k sc) s) s (access s (.fence eng k sc))) ∧
    ((own s).acc = [] → Does (Machine.exec (.fence eng k sc) s) (s.fenceDone s.cur eng k sc) fun c => { c with sn := c.sn + 1 }))

/-- R195, R199, R316, R317: a scalar store that the memory path performs. On an SO page its bytes are in memory, lowest first, and no
other byte changes. On an RC page no byte of memory changes yet: its own context sees the bytes at once, no other one does. No
register changes, and the store is no longer outstanding. -/
def Obligations.StoresPerform : Prop := ∀ (s : State) (ag : Agent) (n sn len : Nat) (words : BitVec 512) (a : Access) (p : Piece),
  agentNum ag = n → (s.ctxAt n).st ≠ .frozen → (s.ctxAt n).findAcc sn = some a → isStore a.ins = true → isLoad a.ins = false →
  a.wr = [] → accBytes a.ins = len → 0 < len → len ≤ 8 → a.st = .ready p none → mayPerform s n a = true →
  soFree (s.ctxAt n) a p = true → p.repl = none →
  p.key % len = 0 → a.hold = true ∨ p.key < scrBase → MemSound s →
  ∃ t, doPick Machine.exec (.perform ag sn words) s = .next t ∧ (t.ctxAt n).findAcc sn = none ∧
    (∀ m, (t.ctxAt m).x = (s.ctxAt m).x ∧ (t.ctxAt m).v = (s.ctxAt m).v ∧ (t.ctxAt m).m = (s.ctxAt m).m ∧
      (t.ctxAt m).cr = (s.ctxAt m).cr) ∧
    (p.ord = .so → s.pw = [] → s.rw = [] → ∀ q, memGet t.mem q =
      if p.key ≤ q ∧ q < p.key + len then a.vt.extractLsb' (8 * (q - p.key)) 8 else memGet s.mem q) ∧
    (p.ord = .rc → relScope a.ins = none → (∀ e, e ∈ (s.ctxAt n).acc → isFence e.ins = false) → t.mem = s.mem ∧
      (∀ m w, t.view m w = if m = n ∧ w = p.key / 8 * 8 then
        applyEn (s.view n w) (enOf (p.key % 8) len) (a.vt <<< (8 * (p.key % 8))) else s.view m w))

/-- R197 to R200, R99: a scalar load or an LDA takes its bytes, extended by its kind, and nothing else changes in its context; then its
register holds the value and is full, and no other one changes. -/
def Obligations.LoadsPerform : Prop := ∀ (s : State) (ag : Agent) (n sn len w : Nat) (words : BitVec 512) (a : Access) (p : Piece),
  agentNum ag = n → (s.ctxAt n).st ≠ .frozen → (s.ctxAt n).findAcc sn = some a →
  (isLoad a.ins = true → isStore a.ins = false → a.wr = [] → accBytes a.ins = len → len ≤ 8 → a.st = .ready p none →
    mayPerform s n a = true → soFree (s.ctxAt n) a p = true → a.hold = true ∨ p.key < scrBase → s.rw = [] → s.readable n (p.key / 8 * 8) = true →
    s.isPoison n (p.key / 8 * 8) = false →
    (if (acqScope a.ins).isNone then s.viewPlain n (p.key / 8 * 8) else s.view n (p.key / 8 * 8)).bits (8 * (p.key % 8)) (8 * len) = w →
    ∃ t v, doPick Machine.exec (.perform ag sn words) s = .next t ∧ (t.ctxAt n).findAcc sn = some { a with st := .got v } ∧
      ((∃ r b wa d, a.ins = .ldbs r b wa d ∨ a.ins = .ldhs r b wa d ∨ a.ins = .ldws r b wa d) → v = BitVec.ofInt 64 (sextNat w (8 * len))) ∧
      ((∃ r b wa d, a.ins = .ldbn r b wa d ∨ a.ins = .ldhn r b wa d ∨ a.ins = .ldwn r b wa d ∨ a.ins = .ldd r b wa d) ∨
        (∃ r b wa z sc, a.ins = .lda r b wa z sc) → v = BitVec.ofNat 64 w) ∧
      ∀ m, (t.ctxAt m).x = (s.ctxAt m).x ∧ (t.ctxAt m).v = (s.ctxAt m).v ∧ (t.ctxAt m).cr = (s.ctxAt m).cr) ∧
  (∀ v r, a.st = .got v → accDestX a.ins = some r → (∀ d b i t, a.ins ≠ .vext d b i t) →
    ∃ t, Machine.exec (.loadComplete ag sn) s = .next t ∧ (t.ctxAt n).findAcc sn = none ∧ (t.ctxAt n).xFull r = true ∧
      (∀ q, (t.ctxAt n).getX q = if q = r ∧ q ≠ 0 then v else (s.ctxAt n).getX q) ∧ (t.ctxAt n).v = (s.ctxAt n).v) ∧
  (∀ v r, a.st = .got v → accDestX a.ins = none → accDestV a.ins = some r → (∀ j, j ∈ s.rowsOwed n → BitVec.ofNat 6 j ≠ r) →
    ∃ t, Machine.exec (.loadComplete ag sn) s = .next t ∧ (t.ctxAt n).findAcc sn = none ∧ (t.ctxAt n).vFull r = true ∧
      (∀ q, (t.ctxAt n).getV q = if q = r then a.row else (s.ctxAt n).getV q) ∧ (t.ctxAt n).x = (s.ctxAt n).x)

/-- R202, R203: an atomic that is performed reads and writes its location in one step: its register is to receive the old value, and the
location holds what the function of the table gives. No other byte of memory changes. -/
def Obligations.AtomicsPerform : Prop := ∀ (s : State) (ag : Agent) (n sn len : Nat) (a : Access) (p : Piece) (q : Option Piece)
    (fn : AmoFn) (o b : Word), agentNum ag = n → (s.ctxAt n).st ≠ .frozen → (s.ctxAt n).findAcc sn = some a →
  (∃ d x y k, a.ins = .amog d x y k fn ∨ a.ins = .amod d x y k fn ∨ a.ins = .amos d x y k fn) → (if fn = .fadd then 4 else 8) = len →
  a.st = .ready p q → mayPerform s n a = true → soFree (s.ctxAt n) a p = true → p.repl = none → p.key % len = 0 → a.hold = true ∨ p.key < scrBase →
  s.pw = [] → s.rw = [] → s.isPoison n (p.key / 8 * 8) = false → MemSound s → BitVec.ofNat 64 (memReadN s.mem p.key len) = o → a.vb = b →
  ∃ t v, Machine.exec (.atomicPerform ag sn) s = .next t ∧ (t.ctxAt n).findAcc sn = some { a with st := .got o } ∧
    (∀ k, memGet t.mem k = if p.key ≤ k ∧ k < p.key + len then v.extractLsb' (8 * (k - p.key)) 8 else memGet s.mem k) ∧
    v = (match fn with
      | .add => o + b | .and => o &&& b | .or => o ||| b | .xor => o ^^^ b | .swp => b
      | .min => if o.toInt < b.toInt then o else b | .max => if o.toInt < b.toInt then b else o
      | .minn => if o.toNat < b.toNat then o else b | .maxn => if o.toNat < b.toNat then b else o
      | .cas => if o = a.vd then b else o
      | .fadd => BitVec.ofNat 64 (fmtF32.addV .rne (fmtF32.unpack o.toNat) (fmtF32.unpack (b.toNat % 2 ^ 32)) 0).1)

/-! Commands: spec/06_matrix.md, spec/08_engines.md, spec/09_system.md. -/

/-- R169, R19, R186, R279: a matrix command is accepted with its parameters and PCW as they are at issue. The rows that a multiply, a
clearing drain or a MZA is to write are empty from now on; an SR multiply or drain takes 512 counters for each row. -/
def Obligations.MatrixCommandsAccepted : Prop := ∀ (s : State) (p : Reg) (kd ka kb kc : Tok) (x : Word) (m : Nat) (after : Ctx → Ctx),
  (own s).getX p = x →
  (∀ i n, (i = .mlw p kd ka kb kc ∧ n = 3) ∨ (i = .mla p kd ka kb kc ∧ n = 4) ∨ (i = .mrb p kd ka kb kc ∧ n = 1) ∨
      (i = .mstat p kd ka kb kc ∧ n = 1) → Ready i s →
    ∃ est, Accepts (Machine.exec i s) s id { captured s i p n kd ka kb kc with est := est }) ∧
  (∀ i, i = .mma p kd ka kb kc ∨ i = .mman p kd ka kb kc ∨ i = .mmab p kd ka kb kc → Ready i s → x.bits 24 6 + 1 = m →
    (∀ c, after c = if ((own s).cr[0x0B]).getLsbD 16 = true then (c.setCounter (c.counter + BitVec.ofNat 128 (512 * m))).setRgh false else c) →
    ∃ est fv, Accepts (Machine.exec i s) s (fun c => { after c with fullV := fv }) { captured s i p 3 kd ka kb kc with est := est } ∧
      ∀ r, r < 64 → fv.getLsbD r = ((own s).fullV.getLsbD r && !decide (∃ j, j < m ∧ r = (x.bits 32 6 + j) % 64))) ∧
  (Ready (.mdr p kd ka kb kc) s → x.bits 40 6 + 1 = m →
    (∀ c, after c = if RMode.ofCode (x.extractLsb' 52 3) = some .sr then
      (c.setCounter (c.counter + BitVec.ofNat 128 (512 * m))).setRgh false else c) →
    ∃ est fv, Accepts (Machine.exec (.mdr p kd ka kb kc) s) s (fun c => { after c with fullV := fv })
        { captured s (.mdr p kd ka kb kc) p 3 kd ka kb kc with est := est } ∧
      ∀ r, r < 64 → fv.getLsbD r =
        ((own s).fullV.getLsbD r && !(x.getLsbD 56 && decide (∃ j, j < m ∧ r = (x.bits 32 6 + j) % 64)))) ∧
  (Ready (.mza p kd ka kb kc) s → x.bits 8 6 + 1 = m →
    ∃ est fv, Accepts (Machine.exec (.mza p kd ka kb kc) s) s (fun c => { c with fullV := fv })
        { captured s (.mza p kd ka kb kc) p 1 kd ka kb kc with est := est } ∧
      ∀ r, r < 64 → fv.getLsbD r = ((own s).fullV.getLsbD r && !decide (∃ j, j < m ∧ r = (x.bits 0 6 + j) % 64)))

/-- R206, R214, R217 to R243: a command of a copy, sparse, region or work-list engine is accepted with its parameters as they are at
issue; its token is busy. A copy that seals its destination also captures SEALK (R465). -/
def Obligations.EngineCommandsAccepted : Prop := ∀ (s : State) (p : Reg) (kd ka kb kc : Tok) (i : Instr) (n : Nat),
  ((i = .cpy p kd ka kb kc ∧ n = 9) ∨ (i = .cprWrite p kd ka kb kc ∧ n = 5) ∨ (i = .cprRead p kd ka kb kc ∧ n = 5) ∨
    (i = .crd p kd ka kb kc ∧ n = 5) ∨ (∃ sc, i = .csg p kd ka kb kc sc ∧ n = 2) ∨ (i = .gth p kd ka kb kc ∧ n = 5) ∨
    (i = .sct p kd ka kb kc ∧ n = 5) ∨ (i = .sca p kd ka kb kc ∧ n = 5) ∨ (i = .spl p kd ka kb kc ∧ n = 4) ∨
    (i = .sps p kd ka kb kc ∧ n = 4) ∨ (i = .spa p kd ka kb kc ∧ n = 4) ∨ (i = .spi p kd ka kb kc ∧ n = 4) ∨
    (i = .spd p kd ka kb kc ∧ n = 3) ∨ (i = .lnch p kd ka kb kc ∧ n = 1) ∨ (i = .rgmap p kd ka kb kc ∧ n = 3) ∨
    (i = .rgwb p kd ka kb kc ∧ n = 1) ∨ (i = .rginv p kd ka kb kc ∧ n = 1) ∨ (i = .wlpop p kd ka kb kc ∧ n = 2)) →
  Ready i s → ∃ est sk, Accepts (Machine.exec i s) s id { captured s i p n kd ka kb kc with est := est, sealing := sk } ∧
    (sk = if n = 9 ∧ ((own s).getX (p + 6)).bits 0 4 = 3 then s.plat.sealk else 0)

/-- R262, R263: GSW and SRGROW are handed on with the address that x[A] holds, and no token. With saves on and no cut or switch of the job
under way, SYS CUT opens a cut of the job that x[A] names (R412): JSTATE is 1, both dies of every member are sent an open message, and no
other byte of memory changes; else it does nothing. R264: CERESUME restarts the command that is parked under its handle, or with bit 63
ends it with Aborted, a CPY with a record to write apart; a request that is parked under it at its home waits again and its requester is
told, or it is answered as aborted; a handle that names neither, or one of another job when the issuer is a context, does nothing. -/
def Obligations.RequestsAccepted : Prop := ∀ (s : State) (a : Reg),
  (Ready (.sysGsw a) s → Accepts (Machine.exec (.sysGsw a) s) s id { captured s (.sysGsw a) a 1 0 0 0 0 with kind := .gsw }) ∧
  (Ready (.sysSrgrow a) s → Accepts (Machine.exec (.sysSrgrow a) s) s id { captured s (.sysSrgrow a) a 1 0 0 0 0 with kind := .grow }) ∧
  (Ready (.sysCut a) s → ∀ j, ((own s).getX a).bits 0 12 = j →
    (s.savesOn = false ∨ (s.jobCtl j).busy = true → Does (Machine.exec (.sysCut a) s) s id) ∧
    (s.savesOn = true → (s.jobCtl j).busy = false → MemSound s → ∃ t l, Machine.exec (.sysCut a) s = .next t ∧
      t = { s with ctxs := t.ctxs, cores := t.cores, iss := {}, mem := t.mem, jobs := t.jobs
                   fab := { s.fab with flights := s.fab.flights ++ l, nextId := s.fab.nextId + l.length } } ∧
      SameButIssue (aged (own s)) (t.ctxAt s.cur) ∧ (∀ n, n ≠ s.cur → t.ctxAt n = s.ctxAt n) ∧
      (∀ q, memGet t.mem q = if q = s.saveEntry j + 58 then 1 else memGet s.mem q) ∧
      t.jobCtl j = { s.jobCtl j with origin := some (dieOf s.cur), odev := s.ownDev, odie := dieOf s.cur, members := s.members j
                                     reports := [], saved := [], isCut := true, since := s.now } ∧ (∀ i, i ≠ j → t.jobCtl i = s.jobCtl i) ∧
      ∀ dev x, dev ∈ s.members j → x < 2 → ∃ g, g ∈ l ∧ g.loc = .localq (dieOf s.cur) ∧ g.pkt.dest = dev ∧ g.pkt.op = 0x22 ∧
        g.pkt.ctl = .cutOpen j x s.ownDev (dieOf s.cur))) ∧
  (Ready (.sysCeresume a) s → ∀ v h, (own s).getX a = v → v.bits 0 63 = h →
    ((∀ c q, c ∈ s.cmds → c.st = .parked q → q.handle = h → isSeq s.cur = false ∧ c.job ≠ (own s).job) →
      (∀ g d, g ∈ s.fab.flights → g.loc = .parked d h → isSeq s.cur = false ∧ g.pkt.jid ≠ (own s).job) →
      Does (Machine.exec (.sysCeresume a) s) s id) ∧
    (∀ c p, (∀ g d, g ∈ s.fab.flights → g.loc ≠ .parked d h) → c ∈ s.cmds → c.st = .parked p → p.handle = h →
      (isSeq s.cur = true ∨ c.job = (own s).job) → (∀ e q, e ∈ s.cmds → e.st = .parked q → q.handle = h → e = c) →
      (v.getLsbD 63 = false → Does (Machine.exec (.sysCeresume a) s)
        { s.disown (dieOf c.agent) h with cmds := s.cmds.map fun e => if e.id = c.id then { c with st := .running } else e } id) ∧
      (v.getLsbD 63 = true → c.kind = .slot → (∀ r kd ka kb kc, c.ins = .cpy r kd ka kb kc → cRec c = 0) → Does (Machine.exec (.sysCeresume a) s)
        { s.disown (dieOf c.agent) h with cmds := s.cmds.map fun e => if e.id = c.id then { c with st := .done, status := 0x44, aux := 0 } else e } id)) ∧
    (∀ g d, g ∈ s.fab.flights → g.loc = .parked d h → (isSeq s.cur = true ∨ g.pkt.jid = (own s).job) → g.id < s.fab.nextId →
      (∀ e x, e ∈ s.fab.flights → e.loc = .parked x h → e = g) → ∃ t, Machine.exec (.sysCeresume a) s = .next t ∧
        OnlyOwn { s with fab := t.fab } t ∧ SameButIssue (aged (own s)) (t.ctxAt s.cur) ∧
        (∀ e, e.id ≠ g.id → e ∈ s.fab.flights → e ∈ t.fab.flights) ∧
        (v.getLsbD 63 = false → { g with loc := .held d } ∈ t.fab.flights ∧ Sent t d fun q =>
          q.dest = s.mapDev g.pkt.jid g.pkt.src ∧ q.op = 0x13 ∧ q.cls = 1 ∧ q.tag = g.pkt.tag ∧ q.gen = g.pkt.gen) ∧
        (v.getLsbD 63 = true → t.findFlight g.id = none ∧ Sent t d fun q =>
          q.dest = s.mapDev g.pkt.jid g.pkt.src ∧ q.op = 0x10 ∧ q.cls = 1 ∧ q.tag = g.pkt.tag ∧ q.gen = g.pkt.gen ∧ q.arg = 3)))

/-! Registers, issue and traps: spec/01_machine.md, spec/03_encoding.md, spec/20_traps.md. -/

/-- R15, R16, R103: a register keeps the value written last, and no other register changes; x0 reads zero, m0 all ones, k0 as free with no
status, whatever is written to them. R95, R139, R21, R47: a vector result whose bundle is reached writes the bytes of its enables and no
others, ORs its flags into VFLAGS, and, where it writes every byte, clears the register's poison bit; the registers, masks, tokens and full
bits beside it stay. -/
def Obligations.RegisterFiles : Prop := ∀ (c : Ctx) (d : Reg) (v : Row),
  (∀ (r : Reg) (m n : MReg) (j k : Tok) (x : Word) (w : Mask) (t : Token),
    (c.setX d x).getX r = (if r = 0 then 0 else if r = d then x else c.getX r) ∧ (c.setV d v).getV r = (if r = d then v else c.getV r) ∧
    (c.setM m w).getM n = (if n = 0 then BitVec.allOnes 2048 else if n = m then w else c.getM n) ∧
    (c.setK j t).getK k = (if k = 0 then {} else if k = j then t else c.getK k)) ∧
  ∀ (due : Nat) (en : Mask) (fl : Flags), c.pend = [{ due := due, res := .v d v en, flags := fl }] → c.crPend = [] → due ≤ 1 →
    (aged c).pend = [] ∧ (aged c).x = c.x ∧ (aged c).m = c.m ∧ (aged c).k = c.k ∧ (aged c).fullX = c.fullX ∧ (aged c).fullV = c.fullV ∧
    (∀ r, r ≠ d → (aged c).getV r = c.getV r ∧ (aged c).vBad r = c.vBad r) ∧
    (∀ b, b < 2048 → ((aged c).getV d).bits (8 * b) 8 = if en.getLsbD b then v.bits (8 * b) 8 else (c.getV d).bits (8 * b) 8) ∧
    (aged c).vBad d = (c.vBad d && decide (en ≠ BitVec.allOnes 2048)) ∧
    ∀ b, b < 64 → ((aged c).cr[0x0D]).getLsbD b = ((c.cr[0x0D]).getLsbD b || fl.getLsbD b)

/-- R84, R107, R137: a slot alone in its bundle meets the checks of its word first, then the stalls, then the faults decided at issue; a
fault among the words is taken even where the bundle would stall, and a stalled bundle takes none of the later ones. Inside a bundle that
issues, every slot acts and goes on. WAITC, whose faults are decided before its wait (R129), takes the other checks. -/
def Obligations.ChecksInOrder : Prop := ∀ (s : State) (i : Instr), (encode i).isSome = true →
  (s.iss.isOpen = true → ∃ t, Machine.exec i s = .next t) ∧
  (s.iss.isOpen = false → ∀ fault, staticFault (own s).kernel (isSeq s.cur) none [some i] = fault →
    (∀ cause k, fault = some (cause, k) → ∃ info, Machine.exec i s =
      takeTrap s s.cur { cause := cause, tpc := (own s).pc, tinfo := info } ∧
      info.bits 0 6 = 0 ∧ info.bits 6 7 = opOf i) ∧
    (fault = none → stalls s s.cur [i] 0 = true → Machine.exec i s = .next (stallCtx (s.arrive s.cur [i]) s.cur)) ∧
    (fault = none → stalls s s.cur [i] 0 = false → (∀ a b wa wb sc k, i ≠ .waitc a b wa wb sc k) →
      ∀ t, lateFault s s.cur (own s).pc 1 0 [i] = some t → Machine.exec i s = takeTrap s s.cur t))

/-- R249, R252: in task mode a context takes Privileged Instruction for every SYS subfunction and for the control registers that only
the kernel may name, at its own bundle. -/
def Obligations.PrivilegedSlots : Prop := ∀ (s : State) (i : Instr) (a d : Reg) (n : BitVec 12),
  s.iss.isOpen = false → isSeq s.cur = false → (own s).kernel = false →
  (i = .sysRft ∨ i = .sysHalt ∨ i = .sysTlbi a ∨ i = .sysTlbia ∨ i = .sysGsw a ∨ i = .sysCut a ∨ i = .sysCeresume a ∨ i = .sysSrgrow a ∨
    (i = .mfc d n ∧ n.toNat ∈ [1, 2, 3, 4, 5, 0x14, 0x17]) ∨ (i = .mtc a n ∧ n.toNat ∈ [1, 2, 3, 4, 5, 0x13, 0x14, 0x15, 0x17])) →
  ∃ info, Machine.exec i s = takeTrap s s.cur { cause := .privileged, tpc := (own s).pc, tinfo := info } ∧
    info.bits 0 6 = 0 ∧ info.bits 6 7 = opOf i

/-- R402, R255, R126, R396, R397: a trap saves where to go on, why and what about in the trap registers, enters kernel mode with ASYNC, PEND
and VTRAP clear, HOG and VERIFY kept, REPC zero and RACECTL.HOLD set, deactivates the loops, takes every pending result and unanswered
access away from the registers, fills those whose value is on its way, opens the entry window, and goes on at TVEC. A row that an
accepted command has still to write stays empty (R19). -/
def Obligations.TrapEntry : Prop := ∀ (s : State) (n : Nat) (t : TrapInfo) (c : Ctx),
  s.ctxAt n = c → c.frames < 2 → c.window.isOpen = false → s.framesOn n = true → installed (s.frameBase n c.frames) 0x20000 = true →
  ∃ u d, takeTrap s n t = .next u ∧ u.ctxAt n = d ∧ (∀ j, j ≠ n → u.ctxAt j = s.ctxAt j) ∧
    d.pc = c.cr[1] &&& 0x01FFFFFFFFFFFFFC#64 ∧ d.frames = c.frames + 1 ∧ d.window = { isOpen := true } ∧ d.pend = [] ∧ d.acc = [] ∧
    (∀ k : Fin 4, d.loops[k].active = false) ∧ d.m = c.m ∧ d.k = c.k ∧
    (∀ b, b < 64 → (d.cr[0]).getLsbD b = (b == 0 || ((c.cr[0]).getLsbD b && b != 1 && b != 2 && b != 5))) ∧
    (d.cr[2]).bits 0 8 = t.cause.num ∧ (d.cr[2]).getLsbD 8 = t.isAsync ∧ (d.cr[2]).getLsbD 9 = t.imprecise ∧
    (d.cr[2]).getLsbD 10 = t.atTend ∧ (d.cr[2]).getLsbD 11 = t.stepover ∧ (d.cr[2]).bits 16 12 = t.code % 4096 ∧
    d.cr[3] = t.taddr ∧ d.cr[5] = t.tpc ∧ d.cr[0x13] = 0 ∧
    (∀ b, b < 64 → (d.cr[4]).getLsbD b = (t.tinfo.getLsbD b || (b == 29 && !c.replay.isEmpty))) ∧
    (∀ b, b < 64 → (d.cr[0x15]).getLsbD b = ((c.cr[0x15]).getLsbD b || b == 1)) ∧
    (∀ k : Fin 24, k.val ∉ [0, 2, 3, 4, 5, 0x13, 0x15] → d.cr[k] = c.cr[k]) ∧
    (∀ r, (∀ a v, a ∈ c.acc → a.st = .got v → accDestX a.ins ≠ some r) → d.getX r = c.getX r) ∧
    (∀ r, (∀ a v, a ∈ c.acc → a.st = .got v → accDestV a.ins ≠ some r) → d.getV r = c.getV r) ∧
    (∀ r, d.xFull r = (c.xFull r || c.acc.any fun a => !staysInPath a.ins && accDestX a.ins = some r)) ∧
    ∀ r, d.vFull r =
      (!((s.rowsOwed n).any fun j => BitVec.ofNat 6 j = r) && (c.vFull r || c.acc.any fun a => !staysInPath a.ins && accDestV a.ins = some r))

/-- R399, R400: a trap that finds no access outstanding writes the frame of its level: the registers as they stood before entry, the loop
levels, a latch for each pending scalar result. Every byte of memory outside the frame stays. -/
def Obligations.TrapFrame : Prop := ∀ (s : State) (n : Nat) (t : TrapInfo) (c : Ctx) (f : Nat),
  s.ctxAt n = c → c.frames < 2 → c.window.isOpen = false → s.framesOn n = true → s.frameBase n c.frames = f → installed f 0x20000 = true →
  MemSound s → c.acc = [] → c.pend.length ≤ 16 →
  ∃ u, takeTrap s n t = .next u ∧ (∀ a, a < f ∨ f + 0x20000 ≤ a → memGet u.mem a = memGet s.mem a) ∧
    memReadN u.mem f 8 = (c.cr[0]).toNat ∧ memReadN u.mem (f + 8) 8 = (c.cr[5]).toNat ∧ memReadN u.mem (f + 16) 8 = (c.cr[2]).toNat ∧
    memReadN u.mem (f + 24) 8 = (c.cr[3]).toNat ∧ memReadN u.mem (f + 32) 8 = (c.cr[4]).toNat ∧
    memReadN u.mem (f + 40) 8 = (c.cr[0x15]).toNat ∧ memReadN u.mem (f + 48) 1 = (c.cr[0x13]).bits 0 8 ∧
    memReadN u.mem (f + 52) 1 = 0 ∧ memReadN u.mem (f + 53) 1 = c.frames ∧
    (∀ k : Fin 4, memReadN u.mem (f + 0x100 + 32 * k.val) 8 = (c.loops[k]).start.toNat ∧
      memReadN u.mem (f + 0x100 + 32 * k.val + 8) 8 = (c.loops[k]).stop.toNat ∧
      memReadN u.mem (f + 0x100 + 32 * k.val + 16) 8 = (c.loops[k]).remaining.toNat ∧
      memReadN u.mem (f + 0x100 + 32 * k.val + 24) 1 = if (c.loops[k]).active then 1 else 0) ∧
    ∀ l : List (Reg × Word × Nat), c.pend = (l.map fun q => { due := q.2.2, res := .x q.1 q.2.1 }) → memReadN u.mem (f + 49) 1 = l.length ∧
      memReadN u.mem (f + 50) 1 = 0 ∧ memReadN u.mem (f + 51) 1 = 0 ∧
      ∀ j r v due, l[j]? = some (r, v, due) → memReadN u.mem (f + 0x180 + 16 * j) 8 = v.toNat ∧
        memReadN u.mem (f + 0x180 + 16 * j + 8) 1 = r.toNat ∧ memReadN u.mem (f + 0x180 + 16 * j + 14) 1 = due % 256

/-- R406: a trap inside the entry window, with two frames held, or with frames off stops the context with its registers and frames as
they are, and its die has one record more, with CAUSE 22, KIND 3, the opcode, the faulting address and a HANDLE of all ones; with the 64
places of its holding area taken, the record waits for room (R309). -/
def Obligations.DoubleFault : Prop := ∀ (s : State) (n : Nat) (t : TrapInfo),
  2 ≤ (s.ctxAt n).frames ∨ (s.ctxAt n).window.isOpen = true ∨ s.framesOn n = false → n < 1154 →
  ∃ u r, takeTrap s n t = .next u ∧ u.ctxAt n = { s.ctxAt n with st := .doubleFault } ∧ (∀ j, j ≠ n → u.ctxAt j = s.ctxAt j) ∧
    u.mem = s.mem ∧ u.pw = s.pw ∧ u.cmds = s.cmds ∧ u.die (dieOf n) = (if (s.die (dieOf n)).records.length < 64 then
      { s.die (dieOf n) with records := (s.die (dieOf n)).records ++ [r] } else { s.die (dieOf n) with owed := (s.die (dieOf n)).owed ++ [r] }) ∧ r.va = t.taddr ∧
    r.handle = BitVec.allOnes 64 ∧ r.lo.bits 0 16 = 22 ∧ r.lo.bits 16 8 = 3 ∧ r.lo.bits 24 8 = t.tinfo.bits 6 7

/-- R259, R403, R404: RFT waits while an access of the handler is outstanding or a register is empty; that it waits before it issues, so
that a frame is rejected at issue, is the model's reading (DEDUCED, log entry 35). Then, from a frame with no latch and no replay entry, it
goes on at TPC with the mode, the loops, REPC and the trap registers of the frame, every result of the handler having landed; STEPOVER makes
the slot that TINFO names a NOP once, and AT_TEND lets the drain of TEND go on. That a step over or a HALT's drain which the trap itself
interrupted goes on too is the model's reading (DEDUCED, log entry 43). -/
def Obligations.ReturnFromTrap : Prop := ∀ (s : State) (c : Ctx) (f : Nat), own s = c →
  (s.iss.isOpen = false → staticFault c.kernel (isSeq s.cur) none [some .sysRft] = none → c.frames ≠ 0 →
    c.acc ≠ [] ∨ c.fullX ≠ BitVec.allOnes 64 → Machine.exec .sysRft s = .next (stallCtx s s.cur)) ∧
  (Ready .sysRft s → c.acc = [] → c.fullX = BitVec.allOnes 64 → c.held = [] → c.crPend = [] → s.pw = [] → s.rw = [] → s.frameBase s.cur (c.frames - 1) = f →
    installed f 0x20000 = true → memReadN s.mem (f + 49) 1 = 0 → memReadN s.mem (f + 50) 1 = 0 → memReadN s.mem (f + 51) 1 = 0 →
    memReadN s.mem (f + 52) 1 = 0 → ∃ t d, Machine.exec .sysRft s = .next t ∧ OnlyOwn { s with early := t.early } t ∧ t.ctxAt s.cur = d ∧
      d.pc = c.cr[5] &&& ~~~3#64 ∧ d.frames = c.frames - 1 ∧ d.window = {} ∧ d.pend = [] ∧ d.acc = [] ∧
      d.x = (aged c).landAll.x ∧ d.v = (aged c).landAll.v ∧ d.m = (aged c).landAll.m ∧ d.k = c.k ∧ d.fullX = c.fullX ∧ d.fullV = c.fullV ∧
      (∀ b, b < 64 → (d.cr[0]).getLsbD b = ((b < 6 && (memWord s.mem f).getLsbD b) || (b == 0 && isSeq s.cur))) ∧ d.cr[5] = memWord s.mem (f + 8) ∧
      d.cr[2] = memWord s.mem (f + 16) &&& crMask 2 ∧ d.cr[3] = memWord s.mem (f + 24) ∧ d.cr[4] = memWord s.mem (f + 32) &&& crMask 4 ∧
      (d.cr[0x15]).getLsbD 1 = (memWord s.mem (f + 40)).getLsbD 1 ∧ (d.cr[0x13]).toNat = memReadN s.mem (f + 48) 1 % 128 ∧
      (∀ k : Fin 4, (d.loops[k]).start = memWord s.mem (f + 0x100 + 32 * k.val) ∧
        (d.loops[k]).stop = memWord s.mem (f + 0x100 + 32 * k.val + 8) ∧
        (d.loops[k]).remaining = memWord s.mem (f + 0x100 + 32 * k.val + 16) ∧
        ((d.loops[k]).active = true ↔ memReadN s.mem (f + 0x100 + 32 * k.val + 24) 1 % 2 = 1)) ∧
      d.stepover = (if (c.cr[2]).getLsbD 11 then some ((c.cr[4]).bits 0 3)
        else (c.steps.find? fun p => p.1 = c.frames - 1 && p.2.1 = d.pc).map (·.2.2)) ∧
      d.drain = (if (c.cr[2]).getLsbD 10 then .tend else if c.halts.contains (c.frames - 1) then .halt else .none) ∧
      d.st = if (c.cr[2]).getLsbD 10 then .stalled else .selected)

/-! Encodings and steps: spec/03_encoding.md, spec/04_scalar.md. -/

/-- R76, R77, R85 to R89: words of the formats R, I, U, B, J, V, M, E, Z and Q, written out from the tables, decode to the slots they
stand for. -/
def Obligations.DecodeWords : Prop :=
  decode 0x020C4150#32 = .ok (.add 3 4 5 false true) ∧ decode 0x8220904F#32 = .ok (.sel 8 9 1 false false) ∧
  decode 0x040C47FF#32 = .ok (.addi 3 4 false 0x7FF) ∧ decode 0x8D0C028B#32 = .ok (.li 3 0x0028B) ∧
  decode 0x900C0006#32 = .ok (.beq 3 0 6) ∧ decode 0x96FFFFFE#32 = .ok (.jmp 0xFFFFFE) ∧
  decode 0x23209290#32 = .ok (.vfma 8 9 10 2 .f32) ∧ decode 0xD40C4802#32 = .ok (.ldbs 3 4 true 2) ∧
  decode 0xC9400440#32 = .ok (.mlw 16 0 1 1 0) ∧ decode 0xFA0C000D#32 = .ok (.mfc 3 0x00D) ∧
  decode 0xFD000000#32 = .ok .sysRft ∧ decode 0x010D8000#32 = .ok (.rep 3 1 2 0) ∧
  decode 0xE600001A#32 = .ok (.fence true .full .dev)

/-- R76, R77, R85 to R89: whatever word stands for a slot, with or without the stop bit, decodes to that slot. -/
def Obligations.DecodeEncode : Prop := ∀ (i : Instr) (s : Bool) (w : SlotWord), encodeS s i = some w → decode w = .ok i

/-- R41, R77, R85 to R89: a word that decodes is the word of its slot; no other word, beside the one with the other stop bit, decodes to
it, and no field of it is lost. -/
def Obligations.EncodeDecode : Prop := ∀ (i : Instr) (w : SlotWord), decode w = .ok i → encodeS (stopBit w) i = some w

/-- R76, R79, R83: the agent that the schedule lets issue, selected and with nothing at its boundary, runs what it fetches. Where its unit
holds a leaf that lets it fetch at its program counter, and the four bytes there are the word of a slot with its stop bit, the step is
exec of that slot, the leaf now the most recently used of its unit (R306). Where it fetches several words whose bundle passes every check, the step is exec of each slot in turn in an open
bundle, and then the end of the bundle. An event that is due is exec of the event. -/
def Obligations.StepRunsDecoded : Prop := ∀ (s u v : State) (m : Move) (rest : List Move),
  s.sched = m :: rest → { s with sched := rest }.pass m.dt = u →
  (∀ i, encode i = none → m.pick = .event i → Machine.step s = Machine.exec i u) ∧
  (∀ ag n c, m.pick = .issue ag → agentNum ag = n → u.ctxAt n = c → c.st = .selected → c.drain = .none → c.repOn = false → c.stepover = none →
    boundary u n = none → u.mayIssue n = true → { u.select n with cur := n } = v →
    (∀ i w e p, (u.unitAt (unitOf n)).find c.job c.pc.toNat = some e → c.pc.toNat < 2 ^ 57 →
      checkLeaf u e.leaf e.size c.pc.toNat 4 { kernel := c.kernel, fetch := true } = .ok p → p.key % 4 = 0 →
      u.pw = [] → u.rw = [] → u.uo = [] → u.poison = [] → memReadN u.mem p.key 4 = w.toNat → stopBit w = true → decode w = .ok i →
      Machine.step s = Machine.exec i (v.hit (unitOf n) c.job c.pc.toNat)) ∧
    (∀ words l t, fetchBundle v n = (t, .ok words) → slotsOf words = l.map some → 2 ≤ l.length → (t.ctxAt n).repOn = false →
      (t.ctxAt n).stepover = none → (t.ctxAt n).pc = c.pc → findRep 0 words = none → (∀ i, i ∈ l → lastToAct i = false) →
      staticFault (t.ctxAt n).kernel (isSeq n) none (l.map some) = none → ∀ t', judge t n c.pc words.length 0 l 0 = (t', .go) →
      Machine.step s = andThen (runSlots Machine.exec l.zipIdx (openBundle t' c.pc words.length 0 0 none)) closeBundle))

/-! Events of a context: spec/03_encoding.md, spec/04_scalar.md, spec/05_vector.md, spec/16_scheduling.md, spec/20_traps.md. -/

/-- R93, R94: a repeat of a REP whose target changes nothing but its context, as f says, issues the target alone with its register fields
stepped; the context ages by one bundle, REPC counts down, and until it is 0 the program counter stays at the bundle. R14, R361: a
selected context that has issued 1,024 bundles without HOG while another is Ready goes back to Ready, and its core selects anew. R116,
R102: the divider and a VEXT fill x[D], which is full from then on. R137, R361: a stalled context that nothing holds is Ready again. R128:
a WAITC reads its word again; when the condition holds, its context goes on. R193, R394: a fault that the memory path reports is taken as
an imprecise trap, at a boundary that no freeze and no stop point of a cut claims. -/
def Obligations.ContextEvents : Prop := ∀ (s : State) (ag : Agent) (n : Nat) (c : Ctx), agentNum ag = n → s.ctxAt n = c →
  (∀ words k cnt ds as bs w i f u, c.repOn = true → c.stepover = none → c.repc ≠ 0 → c.repc ≤ cnt → c.st = .ready ∨ c.st = .selected → boundary s n = none →
    s.mayIssue n = true → { s.select n with cur := n } = u → fetchBundle u n = (u, .ok words) →
    findRep 0 words = some (k, cnt, ds, as, bs, w) → decode (stepWord w (cnt + 1 - c.repc) ds as bs) = .ok i →
    staticFault c.kernel (isSeq n) none [some i] = none → judge u n c.pc 1 0 [i] (cnt + 1 - c.repc) = (u, .go) →
    (∀ v, v.iss.isOpen = true → execSlot i v = .next (v.modCtx v.cur f)) → (∀ d, (f d).drain = d.drain) → c.drain = .none →
    ∃ t d, Machine.exec (.repRepeat ag) s = .next t ∧ OnlyOwn u t ∧ t.ctxAt n = d ∧ d.repc = c.repc - 1 ∧
      (1 < c.repc → d.pc = c.pc ∧ d.repOn = true) ∧ (c.repc = 1 → d.repOn = false) ∧
      d.x = (aged (f { c with st := .selected })).x ∧ d.v = (aged (f { c with st := .selected })).v ∧
      d.m = (aged (f { c with st := .selected })).m ∧ d.pend = (aged (f { c with st := .selected })).pend) ∧
  (∀ core i, i < 4 → n = 4 * core + i → (s.coreAt core).sel = some i → c.st = .selected → 1024 ≤ (s.coreAt core).count → c.hog = false →
    (∃ j, j < 4 ∧ (s.ctxAt (4 * core + j)).st = .ready) → Machine.exec (.hogRotation core) s =
      .next ((s.modCtx n fun c => { c with st := .ready }).modCore core fun k => { k with sel := none, last := i, count := 0 })) ∧
  (∀ sn a d v, c.st ≠ .frozen → c.findAcc sn = some a → a.since + 6 ≤ s.now →
    (∃ x y p q, (a.ins = .div d x y p q ∧ v = if a.vb = 0 then BitVec.allOnes 64 else BitVec.ofInt 64 (a.va.toInt.tdiv a.vb.toInt)) ∨
      (a.ins = .divn d x y p q ∧ v = if a.vb = 0 then BitVec.allOnes 64 else BitVec.ofNat 64 (a.va.toNat / a.vb.toNat)) ∨
      (a.ins = .rem d x y p q ∧ v = if a.vb = 0 then a.va else BitVec.ofInt 64 (a.va.toInt.tmod a.vb.toInt)) ∨
      (a.ins = .remn d x y p q ∧ v = if a.vb = 0 then a.va else BitVec.ofNat 64 (a.va.toNat % a.vb.toNat))) →
    Machine.exec (.divideComplete ag sn) s = .next (s.modCtx n fun c => ((c.setX d v).markX d true).dropAcc sn)) ∧
  (∀ sn a d src i t v, c.st ≠ .frozen → c.findAcc sn = some a → a.ins = .vext d src i t → a.st = .got v → a.due = 0 ∨ c.drain ≠ .none →
    Machine.exec (.vextDeferredFill ag sn) s = .next (s.modCtx n fun c => ((c.setX d v).markX d true).dropAcc sn)) ∧
  (∀ l rep, c.st = .stalled → c.drain = .none → peekSlots s n = (s, some (l, rep)) → stalls s n l rep = false →
    waitsOnWord s n l = false → Machine.exec (.stallClear ag) s = .next (s.modCtx n fun c => { c with st := .ready })) ∧
  (∀ a b wa wb sc k, c.st = .stalled → c.drain = .none → c.satisfied = false → peekSlots s n = (s, some ([.waitc a b wa wb sc k], 0)) →
    stalls s n [.waitc a b wa wb sc k] 0 = false → step6 c (.waitc a b wa wb sc k) = none →
    (waitRead s n (c.getX a) (c.getX b) k = (s, .yes) →
      Machine.exec (.waitcRecheck ag) s = .next ((s.acquire n (scopeCode sc)).modCtx n fun c => { c with satisfied := true, st := .ready })) ∧
    (waitRead s n (c.getX a) (c.getX b) k = (s, .no) → Machine.exec (.waitcRecheck ag) s = .next s)) ∧
  (∀ e l cause addr part, c.st = .ready ∨ c.st = .selected ∨ c.st = .stalled → s.freezeDue n = false → c.stopPoint = false → c.acc = e :: l →
    e.st = .faulted cause addr part → c.frames < 2 → c.window.isOpen = false → s.framesOn n = true →
    installed (s.frameBase n c.frames) 0x20000 = true → ∃ t info, Machine.exec (.memoryFaultReport ag) s = .next t ∧
      .next t = takeTrap s n { cause := cause, tpc := c.pc, taddr := addr, tinfo := info, imprecise := true, atTend := c.drain = .tend,
                               access := some e.sn } ∧ info.bits 0 6 = 0 ∧ info.bits 6 7 = opOf e.ins ∧ info.getLsbD 13 = part)

/-! Events of tasks: spec/04_scalar.md, spec/13_memory.md, spec/16_scheduling.md. -/

/-- R130, R131: a barrier that every task of its group has reached, or left by TEND, lets those that wait go on; what they wrote is
performed for the group, whose tasks have completed one episode more (R313). R135, R260: a drained TEND starts the writebacks of its task's outputs and of the regions it mapped with WB, a drained HALT halts its context. R12,
R135, R208: a task whose writebacks are over commits, and its context and its regions are free. R347, R22, R253: a Resident task is bound
with the registers of its launch once its cluster's arrays are on; until then the cluster asks for them (R355). -/
def Obligations.TaskEvents : Prop := ∀ (s : State) (ag : Agent) (n : Nat) (c : Ctx), agentNum ag = n → s.ctxAt n = c →
  (∀ g id b t, s.bars.find? (fun q => q.grp = g && q.id = id) = some b → s.tasks.find? (fun q => q.group = some g) = some t →
    (∀ k, k < t.gsize → (∃ h, s.findShare t.share = some h ∧ t.first + k ∈ h.done) ∨
      ∃ q, q ∈ s.tasks ∧ q.share = t.share ∧ q.index = t.first + k ∧ q.st = .bound ∧ (q.ctx ∈ b.arrived ∨ (s.ctxAt q.ctx).drain = .tend)) →
    (∀ k a, k ∈ b.arrived → a ∈ (s.ctxAt k).acc → a.performed = true) →
    Gives (Machine.exec (.barrierRelease g id) s) fun u =>
      (∀ k, k ∈ b.arrived → u.ctxAt k = { s.ctxAt k with passed := some (s.ctxAt k).pc, arrived := false
                                                         st := if (s.ctxAt k).st = .stalled then .ready else (s.ctxAt k).st }) ∧
      (∀ k, k ∉ b.arrived → u.ctxAt k = s.ctxAt k) ∧ (∀ w, w ∈ u.pw → w.owner ∈ b.arrived → w.grpSeen = true) ∧
      ((s.tasks.map (·.id)).Nodup → u.tasks = s.tasks.map fun q => if q.group = some g then { q with bars := q.bars + 1 } else q) ∧
      u.bars = s.bars.filter fun q => !(q.grp = g && q.id = id)) ∧
  (∀ id t, DrainedAt s n .tend → c.satisfied = false → (∀ k, k ≠ 0 → (c.getK k).status = 0) → c.task = some id → s.findTask id = some t →
    t.guard = none → Gives (Machine.exec (.tendDrainEnd ag) s) fun u =>
      u.ctxAt n = { c.landAll with satisfied := true } ∧ (∀ k, k ≠ n → u.ctxAt k = s.ctxAt k) ∧ u.mem = s.mem ∧
      ((∀ k r, k ∈ s.cores → r ∈ k.2.regions → r.owner = t.id → r.wb = false ∧ r.tile = none) → u.cmds = s.cmds) ∧
      ∀ core r, r ∈ (s.coreAt core).regions → r.owner = t.id →
        (r.tile ≠ none ∧ (∃ x, x ∈ t.tiles ∧ x.core = core ∧ x.off = r.base ∧ x.dir ≠ 0)) ∨ (r.tile = none ∧ r.wb = true) →
        ∃ e, e ∈ u.cmds ∧ e.kind = .writeback t.id core r.base ∧ e.st = .running ∧ e.agent = n) ∧
  (∀ id t, c.st = .stalled → c.drain = .tend → c.satisfied = true → c.task = some id → s.findTask id = some t → s.jobs = [] →
    (∀ e k b, e ∈ s.cmds → e.kind ≠ .writeback t.id k b) → Gives (Machine.exec (.taskCommit ag) s) fun u =>
      (u.ctxAt n).st = .free ∧ (u.ctxAt n).task = none ∧ (∀ k, k ≠ n → u.ctxAt k = s.ctxAt k) ∧ (∀ q, q ∈ u.tasks → q.id ≠ t.id) ∧
      ∀ k r, r ∈ (u.coreAt k).regions → r.owner ≠ t.id) ∧
  (DrainedAt s n .halt → s.jobs = [] → Gives (Machine.exec (.haltDrainEnd ag) s) fun u =>
    u.ctxAt n = { c.landAll with st := .halted, drain := .none } ∧ (∀ k, k ≠ n → u.ctxAt k = s.ctxAt k) ∧ u.mem = s.mem) ∧
  (∀ t h id, s.findTask id = some t → s.findShare t.share = some h → t.st = .resident → t.ctx = n → c.st = .free → s.jobs = [] →
    ((s.clusterAt (n / 16)).arraysOn = false → (s.clusterAt (n / 16)).asked = none → Gives (Machine.exec (.taskBind id) s) fun u =>
      Beside s u ∧ (u.clusterAt (n / 16)).asked = some s.now ∧ u.tasks = s.tasks) ∧
    ((s.clusterAt (n / 16)).arraysOn = true → Gives (Machine.exec (.taskBind id) s) fun u => ∃ d, u.ctxAt n = d ∧
      d.st = .ready ∧ d.task = some id ∧ d.pc = h.hdr.entries[t.phase]?.getD 0 ∧ d.getX 1 = h.hdr.param ∧ (d.getX 2).toNat = h.hdr.plen % 2 ^ 64 ∧
      (d.getX 6).toNat = t.index % 2 ^ 64 ∧ (d.getX 7).toNat = t.tiles.length % 2 ^ 64 ∧
      (∀ j x, j < 56 → t.tiles[j]? = some x → d.getX (BitVec.ofNat 6 (8 + j)) = wordOfNat (0x7F * 2 ^ 57 + x.core * 2 ^ 22 + x.off)) ∧
      (∀ r, d.getV r = 0 ∧ d.vBad r = false ∧ d.vFull r = true ∧ d.xFull r = true) ∧ (∀ k, d.getK k = {}) ∧ d.frames = 0 ∧ d.acc = [] ∧
      d.pend = [] ∧ (∀ k : Fin 4, d.loops[k].active = false) ∧ d.kernel = false ∧ (d.cr[6]).toNat = t.job % 2 ^ 64 ∧
      (d.cr[8]).toNat = t.index % 2 ^ 64 ∧ (d.cr[9]).toNat = t.phase % 2 ^ 64 ∧ d.cr[0x10] = h.hdr.seed ∧ d.cr[0x11] = 0 ∧
      (d.cr[0x12]).toNat = t.index % 2 ^ 64 ∧ (∀ k, k ≠ n → u.ctxAt k = s.ctxAt k) ∧ (t.ltag = none → u.mem = s.mem) ∧
      ∀ q, u.findTask id = some q → q.st = .bound))

/-- R346, R351, R352: the head of the one share with waiting tasks is placed on the context chosen for it; with no tile to fill it is
Resident at once. R296, R297: a fill that has ended well makes its tile Resident, and its task once every tile is; a fill that has
failed makes its task fail (R350). R351: an index that has waited 2^20 cycles ages; a group that has waited 8,192 cycles keeps the
cluster of its die with the most Free contexts, among those that no other waiting group keeps (that exception is the model's choice, log
entry 49). -/
def Obligations.PlacementEvents : Prop := ∀ (s : State),
  (∀ die h i n, s.jobs = [] → s.shares = [h] → s.frontEnd = s → h.die = die → h.st = .running → h.failed = none → h.redo = [] → h.aged = [] →
    h.hdr.coop = false → h.hdr.prio ≤ 7 → h.next < h.count → h.first + h.next = i → h.hdr.tilesOf h.phase = [] →
    s.choose h i = some [n] → (∀ t, t ∈ s.tasks → t.id < s.nextId) → Gives (Machine.exec (.taskPlacement die) s) fun u =>
      u.tasks = s.tasks ++ [{ id := s.nextId, share := h.id, job := h.job, index := i, phase := h.phase, first := i, ltag := h.ltag, ctx := n
                              st := .resident, since := s.now }] ∧
      u.shares = [{ h with next := h.next + 1 }] ∧ u.ctxs = s.ctxs ∧ (u.coreAt (coreOf n)).lastJob = some h.job) ∧
  (∀ id tile t e, s.cmds.find? (fun c => c.kind = .fill id tile) = some e → s.findCmd e.id = some e → e.st = .done → EnginesSettled s e.agent →
    s.findTask id = some t → t.reserves = true →
    (e.status = 0 ∨ e.status = 0x41 → Gives (Machine.exec (.tileFillComplete id tile) s) fun u =>
      Beside s u ∧ u.findCmd e.id = none ∧ ∃ q, u.findTask id = some q ∧
        q.tiles = t.tiles.map (fun x => if x.desc = tile then { x with st := .resident, status := e.status, cmd := none } else x) ∧
        q.st = if q.tiles.all (fun x => x.st = .resident) then .resident else .filling) ∧
    (e.status ≠ 0 → e.status ≠ 0x41 → Gives (Machine.exec (.tileFillComplete id tile) s) fun u =>
      Beside s u ∧ ∀ q, q ∈ u.tasks → q.id = id → q.st = .failed)) ∧
  (∀ sh i h, s.findShare sh = some h → h.st = .running → h.failed = none →
    i ∈ h.redo ∨ (h.first + h.next ≤ i ∧ i < h.first + h.count) → h.hdr.coop = false ∨ (i - h.first) % max 1 h.hdr.gsize = 0 →
    (i ∉ h.aged → h.waitSince i + 2 ^ 20 ≤ s.now → Machine.exec (.taskAging sh i) s =
      .next { s with shares := s.shares.map fun g => if g.id = sh then { h with aged := h.aged ++ [i] } else g }) ∧
    (h.hdr.coop = true → h.waitSince i + 8192 ≤ s.now → (∀ k, k ∈ s.clusters → k.2.reserved ≠ some (sh, i)) →
      ∀ kept : Nat → Prop, (∀ k, kept k ↔ ∃ r, (s.clusterAt k).reserved = some r ∧ s.groupHolds r = true) →
      (∃ k, 36 * h.die ≤ k ∧ k < 36 * h.die + 36 ∧ ¬kept k) → Gives (Machine.exec (.groupReservation sh i) s) fun u =>
        Beside s u ∧ ∃ cl, 36 * h.die ≤ cl ∧ cl < 36 * h.die + 36 ∧ ¬kept cl ∧ (u.clusterAt cl).reserved = some (sh, i) ∧
          (∀ k, k ≠ cl → u.clusterAt k = s.clusterAt k) ∧ ∀ k, 36 * h.die ≤ k → k < 36 * h.die + 36 → ¬kept k →
            ((List.range 16).filter fun j => (s.ctxAt (16 * k + j)).st = .free).length ≤
              ((List.range 16).filter fun j => (s.ctxAt (16 * cl + j)).st = .free).length))

/-! Events of the engines: spec/06_matrix.md, spec/08_engines.md, spec/13_memory.md, spec/16_scheduling.md. -/

/-- R106: a matrix command with an error among its tokens ends with it, unstarted. R173, R355, R356: a multiply starts when its turn at the
free array of its core has come and its cluster's arrays are on, and with operands that do not match it ends with Operand Mismatch
(R183); until they are on the cluster asks. Another command starts at once. R171: a command that ends frees its token, and no row but its
own has changed. R187: MZA leaves zero rows without poison. R355: one enable slot each 115 cycles, to the cluster that asked first;
arrays idle for 65,536 cycles go off. -/
def Obligations.MatrixEvents : Prop := ∀ (s : State) (id : Nat) (c : Cmd),
  (s.findCmd id = some c → s.jobs = [] → matrixReady s c = true →
    (c.inherited ≠ 0 → Gives (Machine.exec (.matrixCommandStart id) s) fun u =>
      u.mem = s.mem ∧ (∀ d, d ∈ u.cmds → d.id ≠ id) ∧ TokenEnds s u c c.inherited c.inheritedAt ∧ ∀ r, (u.ctxAt c.agent).getV r = (s.ctxAt c.agent).getV r) ∧
    (c.inherited = 0 → isMul c.ins = true → arrayFree s (coreOf c.agent) = true → arrayNext s (coreOf c.agent) = some c →
      ((s.clusterAt (clusterOf (coreOf c.agent))).arraysOn = true → Gives (Machine.exec (.matrixCommandStart id) s) fun u =>
        Beside s u ∧ (u.coreAt (coreOf c.agent)).rr = c.agent % 4 ∧ ∃ d, u.findCmd id = some d ∧ d.st = .running ∧ d.startAt = s.now ∧
          d.par = c.par ∧ d.pcw = c.pcw ∧ (mulFits s c = true → d.status = c.status ∧ d.done = c.done) ∧
          (mulFits s c = false → d.status = 0x20 ∧ d.done = mulM c)) ∧
      ((s.clusterAt (clusterOf (coreOf c.agent))).arraysOn = false → (s.clusterAt (clusterOf (coreOf c.agent))).asked = none →
        Gives (Machine.exec (.matrixCommandStart id) s) fun u => Beside s u ∧ u.cmds = s.cmds ∧
          (u.clusterAt (clusterOf (coreOf c.agent))).asked = some s.now)) ∧
    (c.inherited = 0 → isMul c.ins = false → Gives (Machine.exec (.matrixCommandStart id) s) fun u =>
      Beside s u ∧ ∃ d, u.findCmd id = some d ∧ d.st = .running ∧ d.startAt = s.now ∧ d.ins = c.ins ∧ d.par = c.par)) ∧
  (s.findCmd id = some c → c.st = .running → c.kind = .slot → isMatrix c.ins = true → Gives (Machine.exec (.matrixCommandComplete id) s) fun u =>
    (∀ d, d ∈ u.cmds → d.id ≠ id) ∧ (u.ctxAt c.agent).x = (s.ctxAt c.agent).x ∧ (u.ctxAt c.agent).m = (s.ctxAt c.agent).m ∧
    (∀ n, n ≠ c.agent → u.ctxAt n = s.ctxAt n) ∧
    (c.kd ≠ 0 → ((s.ctxAt c.agent).getK c.kd).left = 1 → ((s.ctxAt c.agent).getK c.kd).more = false →
      ((u.ctxAt c.agent).getK c.kd).busy = false) ∧
    (∀ r : Reg, (∀ j, j ∈ rowsWritten c → BitVec.ofNat 6 j ≠ r) → (u.ctxAt c.agent).getV r = (s.ctxAt c.agent).getV r ∧
      (u.ctxAt c.agent).vBad r = (s.ctxAt c.agent).vBad r ∧ (u.ctxAt c.agent).vFull r = (s.ctxAt c.agent).vFull r)) ∧
  (∀ p kd ka kb kc, s.findCmd id = some c → c.st = .running → c.kind = .slot → c.ins = .mza p kd ka kb kc → c.done = 0 →
    mzaD0 c + mzaM c ≤ 64 → Gives (Machine.exec (.matrixCommandComplete id) s) fun u => u.mem = s.mem ∧ TokenEnds s u c c.status c.raceVa ∧
      ∀ r : Reg, mzaD0 c ≤ r.toNat → r.toNat < mzaD0 c + mzaM c → (u.ctxAt c.agent).getV r = 0 ∧ (u.ctxAt c.agent).vBad r = false ∧
        ((∀ d, d ∈ s.cmds → d.id ≠ id → d.agent = c.agent → d.kind = .slot → ∀ j, j ∈ rowsWritten d → BitVec.ofNat 6 j ≠ r) → (u.ctxAt c.agent).vFull r = true)) ∧
  (∀ cl t, cl < 72 → (s.clusterAt cl).asked = some t → (∀ k w, k < 72 → k ≠ cl → (s.clusterAt k).asked = some w → t < w) →
    (∀ g, s.lastGrant = some g → g + 115 ≤ s.now) → Gives (Machine.exec (.arrayEnableGrant cl) s) fun u =>
      Beside s u ∧ u.clusterAt cl = { s.clusterAt cl with arraysOn := true, asked := none, lastBeat := s.now } ∧ u.lastGrant = some s.now ∧
      ∀ k, k ≠ cl → u.clusterAt k = s.clusterAt k) ∧
  (∀ cl, (s.clusterAt cl).arraysOn = true → (s.clusterAt cl).lastBeat + 65536 ≤ s.now →
    (∀ d, d ∈ s.cmds → d.kind = .slot → isMul d.ins = true → isSeq d.agent = false → clusterOf (coreOf d.agent) ≠ cl) →
    Gives (Machine.exec (.arrayDisable cl) s) fun u =>
      Beside s u ∧ (u.clusterAt cl).arraysOn = false ∧ ∀ k, k ≠ cl → u.clusterAt k = s.clusterAt k)

/-- R105, R106, R222: an engine command whose tokens, fences and release let it start runs from now on, ends with the error of a token, or
waits for its step; one that waited starts once STEP has come; sparse commands of one agent on one region start in order (R438). R206: RGMAP adds its entry unless the region or its guards overlap one
that is there. R220, R103: a command that is over frees its token with its status. R224: a command that faulted parks under its handle, a
new one unless it had one, and its record waits in the holding area of 64, or for room there; R308, R309: the ring takes the oldest record
when it is on and has room, and a record that waited takes its place. -/
def Obligations.EngineEvents : Prop := ∀ (s : State) (id : Nat) (c : Cmd),
  (s.findCmd id = some c → s.jobs = [] → c.kind = .slot → isMatrix c.ins = false → releaseReady s c = true →
    (c.st = .queued → c.tokensFree = true → fenceBlocks s c = false → sparseWaits s c = false →
      (c.inherited ≠ 0 → EnginesSettled s c.agent → Gives (Machine.exec (.engineCommandStart id) s) fun u =>
        u.mem = s.mem ∧ (∀ d, d ∈ u.cmds → d.id ≠ id) ∧ TokenEnds s u c c.inherited c.inheritedAt) ∧
      (c.inherited = 0 → nbReady s c = false → Gives (Machine.exec (.engineCommandStart id) s) fun u =>
        Beside s u ∧ u.findCmd id = some { c with st := .held }) ∧
      (c.inherited = 0 → nbReady s c = true → (∀ p a b d e, c.ins ≠ .rgmap p a b d e ∧ c.ins ≠ .rgwb p a b d e ∧ c.ins ≠ .rginv p a b d e ∧
          c.ins ≠ .lnch p a b d e) → Gives (Machine.exec (.engineCommandStart id) s) fun u =>
        u.ctxs = s.ctxs ∧ u.findCmd id = some { c with st := .running, startAt := s.now }) ∧
      (∀ p a b d e sa size core base, c.inherited = 0 → c.ins = .rgmap p a b d e → (c.parAt 0).bits 0 31 = sa → (c.parAt 2).bits 0 22 = size →
        sa / 2 ^ 22 = core → sa % 2 ^ 22 = base → (s.coreAt core).regions.length < 64 →
        (∀ r, r ∈ (s.coreAt core).regions → overlaps (base - 64) (size + 128) (r.base - 64) (r.size + 128) = false) →
        Gives (Machine.exec (.engineCommandStart id) s) fun u => Beside s u ∧ (u.coreAt core).regions = (s.coreAt core).regions ++
          [{ base := base, size := size, back := c.parAt 1, wb := (c.parAt 2).getLsbD 24, owner := c.task.getD 0 }])) ∧
    (c.st = .held → isCopy c.ins = true → nbReady s c = true → Gives (Machine.exec (.nbHoldRelease id) s) fun u =>
      u.ctxs = s.ctxs ∧ u.findCmd id = some { c with st := .running, startAt := s.now })) ∧
  (s.findCmd id = some c → c.kind = .slot → isMatrix c.ins = false → c.st = .done → EnginesSettled s c.agent → (∀ r, r ∈ s.fab.reqs → r.cmd ≠ id) →
    Gives (Machine.exec (.engineCommandComplete id) s) fun u =>
      u.mem = s.mem ∧ (∀ d, d ∈ u.cmds → d.id ≠ id) ∧ TokenEnds s u c c.status c.raceVa ∧ ∀ n, n ≠ c.agent → u.ctxAt n = s.ctxAt n) ∧
  (∀ va cause kind h, s.findCmd id = some c → c.st = .faulting va cause kind → cause < 2 ^ 16 → c.handle.getD s.handle = h →
    Gives (Machine.exec (.enginePark id) s) fun u => Beside s u ∧
      u.findCmd id = some { c with st := .parked { va := va, cause := cause, kind := kind, handle := h }, handle := some h } ∧
      u.handle = (if c.handle = none then s.handle + 1 else s.handle) ∧
      ∃ r, u.die (dieOf c.agent) = (if (s.die (dieOf c.agent)).records.length < 64 then
          { s.die (dieOf c.agent) with records := (s.die (dieOf c.agent)).records ++ [r] }
        else { s.die (dieOf c.agent) with owed := (s.die (dieOf c.agent)).owed ++ [r] }) ∧ r.va = va ∧ r.handle = BitVec.ofNat 64 h ∧
        r.lo.bits 0 16 = cause) ∧
  (∀ d r rest base size prod a, d < 2 → MemSound s → (s.die d).records = r :: rest → (s.die d).efring.getLsbD 0 = true →
    (s.die d).efring.bits 6 42 * 64 = base → 2 ^ ((s.die d).efring.bits 60 4 + 4) = size → memWord s.mem base = prod →
    (prod - memWord s.mem (base + 8)).toNat < size → base + 64 + 32 * (prod.toNat % size) = a →
    Gives (Machine.exec (.faultRingDrain d) s) fun u => u.ctxs = s.ctxs ∧
      (u.die d).records = rest ++ (s.die d).owed.take 1 ∧ (u.die d).owed = (s.die d).owed.drop 1 ∧ memWord u.mem base = prod + 1 ∧
      memWord u.mem a = r.va ∧ memWord u.mem (a + 8) = r.lo ∧ memWord u.mem (a + 16) = r.handle ∧ memWord u.mem (a + 24) = r.hi ∧
      ∀ q, q < base ∨ (base + 8 ≤ q ∧ q < a) ∨ a + 32 ≤ q → memGet u.mem q = memGet s.mem q)

/-- R303, R305, R193: one of the 32 walks under way at a unit ends. Where it faults, the accesses that waited on its page fault, a split one
with the page's address and PART; where it ends well its leaf is held, and they are taken up: one that lies in the page is translated, or
faults as the leaf says. R328: a write to a replicated page reaches a replica in the order of its page, and once both have it, memory. R211,
R213: a push that is the one waiting at its slice is performed: with room its entry stands at the tail of the list and its result is 0; a
full list gives 1; where the ring alone is full a spill begins. R214, R449: a spill moves the CAP / 4 oldest entries of the ring to the
backing, and its append is performed. R239, R436: SPL performs a key: it writes the payload or zeros, for a set nothing, and whether the key
is there. -/
def Obligations.MemoryEvents : Prop := ∀ (s : State),
  (∀ unit n w, (s.unitAt unit).walks[n]? = some w → n < 32 →
    (∀ e, s.walk (wordOfNat w.root) (w.page * 4096) = .error e → Gives (Machine.exec (.pageWalkComplete unit n) s) fun u =>
      u.mem = s.mem ∧ u.cmds = s.cmds ∧ (u.unitAt unit).held = (s.unitAt unit).held ∧
      (u.unitAt unit).walks = ((s.unitAt unit).walks.filter fun x => !(x.job = w.job && x.page = w.page)) ∧
      (∀ q, unitOf q ≠ unit ∨ (s.ctxAt q).job ≠ w.job → u.ctxAt q = s.ctxAt q) ∧
      ∀ q, unitOf q = unit → (s.ctxAt q).job = w.job → ∀ (i : Nat) (a : Access), (s.ctxAt q).acc[i]? = some a →
        ∃ b : Access, (u.ctxAt q).acc[i]? = some b ∧ (a.st ≠ .walking w.page → b = a) ∧ (a.st = .walking w.page →
          (a.ea.toNat % 2 ^ 57 / 4096 = w.page → b = { a with st := .faulted e a.ea false }) ∧
          (a.ea.toNat % 2 ^ 57 / 4096 ≠ w.page → b = { a with st := .faulted e (wordOfNat (w.page * 4096)) true }))) ∧
    (∀ leaf size, s.walk (wordOfNat w.root) (w.page * 4096) = .ok (leaf, size) → (s.unitAt unit).held.length < 4096 →
      (s.ctxs.map (·.1)).Nodup → (∀ q, ((s.ctxAt q).acc.map (·.sn)).Nodup) → Gives (Machine.exec (.pageWalkComplete unit n) s) fun u =>
        u.mem = s.mem ∧ u.cmds = s.cmds ∧ (∀ x, x ∈ (u.unitAt unit).walks → ¬(x.job = w.job ∧ x.page = w.page)) ∧
        (∃ e, e ∈ (u.unitAt unit).held ∧ e.job = w.job ∧ e.leaf = leaf ∧ e.size = size ∧ e.page = w.page * 4096 / size * size) ∧
        ∀ q (i : Nat) (a : Access), (s.ctxAt q).acc[i]? = some a → ∃ b : Access, (u.ctxAt q).acc[i]? = some b ∧
          (a.st ≠ .walking w.page ∨ unitOf q ≠ unit ∨ (s.ctxAt q).job ≠ w.job → b = a) ∧
          (a.st = .walking w.page → unitOf q = unit → (s.ctxAt q).job = w.job → b = { a with st := b.st, cut := b.cut } ∧
            b.st ≠ .walking w.page ∧ ∀ va r, coreTarget a.ea = .virt va → va / 4096 = w.page → va % 4096 + accBytes a.ins ≤ 4096 →
              (s.unitAt unit).find w.job va = none → checkLeaf s leaf size va (accBytes a.ins)
                { kernel := a.kernel, isWrite := isStore a.ins, sync := isSync a.ins } = r →
              (∀ p, r = .ok p → b.st = .ready p none) ∧ ∀ x, r = .error x → b.st = .faulted x a.ea false))) ∧
  (∀ n r, s.rw[n / 2]? = some r → MemSound s →
    (∀ q, q ∈ s.rw.take (n / 2) → q.page = r.page ∨ q.key = r.key → (if n % 2 = 0 then q.die0 else q.die1) = true) →
    ((if n % 2 = 0 then r.die1 else r.die0) = false → Gives (Machine.exec (.replicatedWrite n) s) fun u => Beside s u ∧
      u.rw = s.rw.set (n / 2) (if n % 2 = 0 then { r with die0 := true } else { r with die1 := true })) ∧
    ((if n % 2 = 0 then r.die1 else r.die0) = true → Gives (Machine.exec (.replicatedWrite n) s) fun u => u.ctxs = s.ctxs ∧
      u.rw = s.rw.eraseIdx (n / 2) ∧ (∀ k, k < 8 → memGet u.mem (r.key + k) =
        if r.en.getLsbD k then r.val.extractLsb' (8 * k) 8 else memGet s.mem (r.key + k)) ∧
      ∀ q, q < r.key ∨ r.key + 8 ≤ q → memGet u.mem q = memGet s.mem q)) ∧
  (∀ n a d x y p q h b cap cnt sc sp tail, Plain s → MemSound s →
    waitingOps s (h / 2 ^ 22) = [{ time := a.since, agent := n, sn := a.sn, pop := none }] → (s.ctxAt n).findAcc a.sn = some a →
    a.ins = .wlpsh d x y p q → (s.ctxAt n).task = none → coreTarget a.ea = .scratch h → h % 8 = 0 →
    (s.coreAt (h / 2 ^ 22)).regions = [] → (s.coreAt (h / 2 ^ 22)).verify = false → scrKey h = b →
    (memWord s.mem b).toNat = cap → (∃ k, 2 ≤ k ∧ k ≤ 16 ∧ cap = 2 ^ k) → h % 2 ^ 22 + 64 + 16 * cap ≤ 2 ^ 22 → memWord s.mem (b + 16) = tail →
    (tail - memWord s.mem (b + 8)).toNat = cnt → (memWord s.mem (b + 32)).toNat = sc → (memWord s.mem (b + 56)).toNat = sp →
    (memWord s.mem (b + 48)).toNat ≤ cap → cnt ≤ cap + sc → sp ≤ sc → sp ≤ cnt →
    (cnt < cap + sp → cnt < cap + sc → Gives (Machine.exec (.workListOperation (h / 2 ^ 22)) s) fun u =>
      memWord u.mem (b + 64 + 8 * (tail.toNat % cap)) = a.vb ∧ memWord u.mem (b + 16) = tail + 1 ∧ u.cmds = s.cmds ∧
      (u.ctxAt n).findAcc a.sn = some { a with st := .got 0 } ∧ (∀ k, k ≠ n → u.ctxAt k = s.ctxAt k) ∧
      ∀ z, (z < b + 16 ∨ b + 24 ≤ z) → (z < b + 64 + 8 * (tail.toNat % cap) ∨ b + 72 + 8 * (tail.toNat % cap) ≤ z) →
        memGet u.mem z = memGet s.mem z) ∧
    (cnt = cap + sc ∨ (cnt = cap + sp ∧ (memWord s.mem (b + 24) = 0 ∨ sc < sp + cap / 4)) →
      Gives (Machine.exec (.workListOperation (h / 2 ^ 22)) s) fun u => u.mem = s.mem ∧ u.cmds = s.cmds ∧
        (u.ctxAt n).findAcc a.sn = some { a with st := .got 1 } ∧ ∀ k, k ≠ n → u.ctxAt k = s.ctxAt k) ∧
    (cnt < cap + sc → cnt = cap + sp → memWord s.mem (b + 24) ≠ 0 → sp + cap / 4 ≤ sc →
      Gives (Machine.exec (.workListOperation (h / 2 ^ 22)) s) fun u => Beside s u ∧ ∃ c, u.cmds = s.cmds ++ [c] ∧ c.agent = n ∧
        c.kind = .spill a.sn (h / 2 ^ 22) ∧ c.st = .running ∧ c.par = [a.ea, a.vb])) ∧
  (∀ n c e a d x y p q h b cap sc sp head tail spill key, Plain s → MemSound s → s.cmds = [c] → c.agent = n → c.st = .running →
    c.kind = .spill a.sn (h / 2 ^ 22) → c.ins = a.ins → c.par = [a.ea, a.vb] → c.done = 0 → c.task = none → (s.ctxAt n).acc = [a] →
    a.ins = .wlpsh d x y p q → (∃ pc, a.st = .ready pc none) → (s.ctxAt n).task = none → coreTarget a.ea = .scratch h → h % 8 = 0 →
    (s.coreAt (h / 2 ^ 22)).regions = [] → (s.coreAt (h / 2 ^ 22)).verify = false → scrKey h = b →
    (memWord s.mem b).toNat = cap → (∃ k, 2 ≤ k ∧ k ≤ 16 ∧ cap = 2 ^ k) → h % 2 ^ 22 + 64 + 16 * cap ≤ 2 ^ 22 → memWord s.mem (b + 8) = head →
    memWord s.mem (b + 16) = tail → memWord s.mem (b + 24) = spill → spill ≠ 0 → (memWord s.mem (b + 32)).toNat = sc →
    (memWord s.mem (b + 56)).toNat = sp → (memWord s.mem (b + 48)).toNat ≤ cap → (tail - head).toNat = cap + sp → sp + cap / 4 ≤ sc →
    h < 288 * 2 ^ 22 → (s.unitAt (h / 2 ^ 24)).held.head? = some e → e.job = c.job → e.page ≤ spill.toNat → spill.toNat + 8 * sc ≤ e.page + e.size →
    spill.toNat + 8 * sc < 2 ^ 57 → key % 8 = 0 → key + 8 * sc ≤ scrBase → (∀ j, j < sc → isLoop (key + 8 * j) = false ∧ ∃ o pg, o ≠ .uo ∧
      checkLeaf s e.leaf e.size (spill.toNat + 8 * j) 8 { kernel := c.kernel, isWrite := true, host := true } =
        .ok { key := key + 8 * j, ord := o, page := pg }) → Gives (Machine.exec (.workListSpillComplete (h / 2 ^ 22)) s) fun u =>
      (∀ j i, j < cap / 4 → head.toNat + sp + j = i → memWord u.mem (key + 8 * (i % sc)) = memWord s.mem (b + 64 + 8 * (i % cap))) ∧
      (memWord u.mem (b + 56)).toNat = sp + cap / 4 ∧ memWord u.mem (b + 64 + 8 * (tail.toNat % cap)) = a.vb ∧
      memWord u.mem (b + 16) = tail + 1 ∧ u.cmds = [] ∧ (u.ctxAt n).findAcc a.sn = some { a with st := .got 0 } ∧
      (∀ k, k ≠ n → u.ctxAt k = s.ctxAt k) ∧ ∀ z, (∀ j i, j < cap / 4 → head.toNat + sp + j = i →
          z < key + 8 * (i % sc) ∨ key + 8 * (i % sc) + 8 ≤ z) → (z < b + 16 ∨ b + 24 ≤ z) → (z < b + 56 ∨ b + 64 ≤ z) →
        (z < b + 64 + 8 * (tail.toNat % cap) ∨ b + 72 + 8 * (tail.toNat % cap) ≤ z) → memGet u.mem z = memGet s.mem z) ∧
  (∀ id c p kd ka kb kc h cs k path hi s1 s2 s3 s4 t, s.findCmd id = some c → s.jobs = [] → c.st = .running → c.kind = .slot →
    c.ins = .spl p kd ka kb kc → c.aux ≠ 0 → readSpHdr c (c.parAt 0) s = .ok (s1, h) → spCoordsAt c c.done s1 = .ok (s2, cs) →
    spKey h.widths cs = some k → findPath c h k s2 = .ok (s3, path, hi) → (h.psize = 0 → s4 = s3) →
    (h.psize ≠ 0 → spWrite c (c.parAt 2 + wordOfNat (h.psz8 * c.done)) h.psz8 ((pathPayload path k).getD 0) s3 = .ok s4) →
    spWrite c (scrAddr (spRes c + c.done)) 1 (if (pathPayload path k).isSome then 0 else 1) s4 = .ok t → t.findCmd id = some c →
    Gives (Machine.exec (.sparseOperation id) s) fun u => u.mem = t.mem ∧ u.findCmd id =
      some { c with done := c.done + 1, st := if c.done + 1 = spCount c then .done else .running })

/-! Events of launches: spec/08_engines.md, spec/16_scheduling.md. -/

/-- R343, R344, R348: a die that a launch names refuses it with Bad Header where its job may not run there; it accepts it with the indices of
its partition entry (R345), or keeps the message while its front end is full or no launch tag is free. The origin ends a refused launch with
the status, and once every die has accepted starts phase 0 at each; a DETACH launch then frees its token. A die takes a start message up as
its next phase (R349), and begins it at its start step, counting one that begins late in SCHEDSLIP (R363). With the last report of a phase
the origin starts the next one, or ends the launch; a failure in a phase tells every die (R350), which places no more. A launch that is not
answered within the fabric timeout ends with Fabric Timeout (R344); one that runs fails where a die cannot be reached any more. -/
def Obligations.LaunchEvents : Prop := ∀ (s : State) (m : Nat) (fl : Flight) (key : LaunchKey) (jd die : Nat),
  (∀ hdr, Stands s m fl → fl.pkt.op = 0x22 → fl.pkt.ctl = .launch key jd die hdr →
    (s.jobLaunchable key.job = false → Gives (Machine.exec (.launchDistribution m) s) fun u => Beside s u ∧ u.shares = s.shares ∧
      u.findFlight m = none ∧ Sent u die fun q => q.dest = s.mapDev key.job key.dev ∧ q.op = 0x22 ∧ q.ctl = .refused key jd die 0x48) ∧
    (s.jobLaunchable key.job = true → (∃ l, l ∈ s.launches ∧ l.key = key ∧ l.die = die) ∨ s.frontEndLoad die < 64 →
      (hdr.verify = true → s.freeTag key ≠ none) → Gives (Machine.exec (.launchDistribution m) s) fun u => Beside s u ∧
        u.findFlight m = none ∧ Sent u die (fun q => q.dest = s.mapDev key.job key.dev ∧ q.op = 0x22 ∧ q.ctl = .accepted key jd die) ∧
        ∃ h, u.shares = s.shares ++ [h] ∧ h.key = key ∧ h.job = key.job ∧ h.jd = jd ∧ h.die = die ∧ h.hdr = hdr ∧ h.st = .idle ∧
          h.failed = none ∧ (h.first, h.count) = shareOf hdr jd die ∧ h.ltag = if hdr.verify then s.freeTag key else none) ∧
    (s.jobLaunchable key.job = true → ((∀ l, l ∈ s.launches → l.key = key → l.die ≠ die) ∧ 64 ≤ s.frontEndLoad die) ∨
        (hdr.verify = true ∧ s.freeTag key = none) → Gives (Machine.exec (.launchDistribution m) s) fun u => Beside s u ∧
      u.shares = s.shares ∧ { fl with loc := .held die } ∈ u.fab.flights)) ∧
  (∀ l c, Stands s m fl → fl.pkt.op = 0x22 → fl.pkt.ctl = .accepted key jd die → s.launchOf key = some l → l.st = .distributing →
    s.findCmd l.cmd = some c →
    ((∃ p, p ∈ l.hdr.parts ∧ (p.dev, p.die) ∉ l.accepted ∧ (p.dev, p.die) ≠ (jd, die)) →
      Gives (Machine.exec (.launchAcceptance m) s) fun u => Beside s u ∧ u.cmds = s.cmds ∧ u.findFlight m = none ∧
        u.launchOf key = some { l with accepted := l.accepted ++ [(jd, die)] }) ∧
    ((∀ p, p ∈ l.hdr.parts → (p.dev, p.die) ∈ l.accepted ∨ (p.dev, p.die) = (jd, die)) →
      Gives (Machine.exec (.launchAcceptance m) s) fun u => u.mem = s.mem ∧ u.findFlight m = none ∧
        u.launchOf key = some { l with accepted := l.accepted ++ [(jd, die)], st := .running, since := s.now } ∧
        (∀ p, p ∈ l.hdr.parts → Sent u l.die fun q => q.dest = s.mapDev l.job p.dev ∧ q.op = 0x22 ∧ q.ctl = .start key p.dev p.die 0) ∧
        (l.hdr.detach = true → TokenEnds s u c 0 0 ∧ ∃ d, u.findCmd c.id = some d ∧ d.kind = .detach) ∧
        (l.hdr.detach = false → u.ctxs = s.ctxs ∧ u.cmds = s.cmds))) ∧
  (∀ l c st, Stands s m fl → fl.pkt.op = 0x22 → fl.pkt.ctl = .refused key jd die st → s.launchOf key = some l → s.findCmd l.cmd = some c →
    c.kind = .slot → EnginesSettled s c.agent →
    (l.st = .distributing → Gives (Machine.exec (.launchRefusal m) s) fun u => u.mem = s.mem ∧ u.findFlight m = none ∧
      u.launchOf key = none ∧ u.findCmd c.id = none ∧ TokenEnds s u c st c.raceVa ∧ (st ≠ 0 → ∀ p, p ∈ l.hdr.parts →
        Sent u l.die fun q => q.dest = s.mapDev l.job p.dev ∧ q.op = 0x22 ∧ q.ctl = .ended key p.dev p.die st)) ∧
    (l.st = .running → Gives (Machine.exec (.launchRefusal m) s) fun u => Beside s u ∧ u.cmds = s.cmds ∧ u.findFlight m = none ∧
      u.launchOf key = some { l with st := .failing, status := st } ∧ ∀ p, p ∈ l.hdr.parts →
        Sent u l.die fun q => q.dest = s.mapDev l.job p.dev ∧ q.op = 0x22 ∧ q.ctl = .ended key p.dev p.die st)) ∧
  (∀ st, Stands s m fl → fl.pkt.op = 0x22 → fl.pkt.ctl = .ended key jd die st → Gives (Machine.exec (.launchRefusal m) s) fun u =>
    Beside s u ∧ u.findFlight m = none ∧
    u.shares = (s.shares.filter fun h => !(h.key = key && h.jd = jd && h.die = die && h.st = .idle)).map fun h =>
      if h.key = key ∧ h.jd = jd ∧ h.die = die then { h with failed := some (h.failed.getD st), told := true } else h) ∧
  (∀ p, Stands s m fl → fl.pkt.op = 0x22 → fl.pkt.ctl = .start key jd die p → Gives (Machine.exec (.phaseStart m) s) fun u => Beside s u ∧
    u.findFlight m = none ∧ u.shares = s.shares.map fun h => if h.key = key ∧ h.jd = jd ∧ h.die = die ∧ h.st = .idle then
      { h with st := .due, phase := p, done := [], next := 0, redo := [], waits := [], aged := [] } else h) ∧
  (∀ id h late at_, s.findShare id = some h → h.st = .due → h.failed = none → h.done.length ≠ h.count → h.die < 2 →
    (∀ g, g ∈ s.shares → s.shareOver g = false ∧ (g.failed ≠ none → g.told = true)) →
    (h.hdr.steps[h.phase]?.getD 0).toNat = at_ → (h.hdr.steps = [] ∧ late = 0 ∨ h.hdr.steps ≠ [] ∧ at_ + late = s.step64.toNat) →
    Gives (Machine.exec (.phaseBegin id) s) fun u => Beside s u ∧
      (u.shares = s.shares.map fun g => if g.id = id then { h with st := .running, since := s.now } else g) ∧
      (late = 0 → u.dies = s.dies) ∧ (0 < late → ((u.die h.die).slip.bits 0 32 = min 0xFFFFFFFF ((s.die h.die).slip.bits 0 32 + 1) ∧
        (u.die h.die).slip.bits 32 32 = min 0xFFFFFFFF ((s.die h.die).slip.bits 32 32 + late)))) ∧
  (∀ l c p failed, Stands s m fl → fl.pkt.op = 0x22 → fl.pkt.ctl = .report key jd die p failed → s.launchOf key = some l → l.st = .running →
    l.phase = p → s.findCmd l.cmd = some c → c.kind = .slot → EnginesSettled s c.agent →
    ((∃ q, q ∈ l.hdr.parts ∧ (q.dev, q.die) ∉ l.reported ∧ (q.dev, q.die) ≠ (jd, die)) → Gives (Machine.exec (.phaseReport m) s) fun u =>
      Beside s u ∧ u.findFlight m = none ∧ (failed = none → u.launchOf key = some { l with reported := l.reported ++ [(jd, die)] }) ∧
      ∀ st, failed = some st → u.launchOf key = some { l with st := .failing, status := st, reported := l.reported ++ [(jd, die)] } ∧
        ∀ q, q ∈ l.hdr.parts → Sent u l.die fun r => r.dest = s.mapDev l.job q.dev ∧ r.op = 0x22 ∧ r.ctl = .ended key q.dev q.die st) ∧
    ((∀ q, q ∈ l.hdr.parts → (q.dev, q.die) ∈ l.reported ∨ (q.dev, q.die) = (jd, die)) → failed = none →
      (p + 1 < l.hdr.nphase → Gives (Machine.exec (.phaseReport m) s) fun u => Beside s u ∧ u.findFlight m = none ∧
        u.launchOf key = some { l with phase := p + 1, reported := [], since := s.now } ∧
        ∀ q, q ∈ l.hdr.parts → Sent u l.die fun r => r.dest = s.mapDev l.job q.dev ∧ r.op = 0x22 ∧ r.ctl = .start key q.dev q.die (p + 1)) ∧
      (l.hdr.nphase ≤ p + 1 → Gives (Machine.exec (.phaseReport m) s) fun u => u.mem = s.mem ∧ u.findFlight m = none ∧
        u.launchOf key = none ∧ u.findCmd c.id = none ∧ TokenEnds s u c 0 c.raceVa))) ∧
  (∀ id l c, s.findLaunch id = some l → l.since + s.timeout ≤ s.now → s.findCmd l.cmd = some c →
    (l.st = .distributing → c.kind = .slot → EnginesSettled s c.agent → Gives (Machine.exec (.launchAnswerTimeout id) s) fun u =>
      u.mem = s.mem ∧ (∀ x, x ∈ u.launches → x.key ≠ l.key) ∧ u.findCmd c.id = none ∧ TokenEnds s u c 0x40 c.raceVa ∧
      ∀ p, p ∈ l.hdr.parts → Sent u l.die fun q => q.dest = s.mapDev l.job p.dev ∧ q.op = 0x22 ∧ q.ctl = .ended l.key p.dev p.die 0x40) ∧
    (∀ gone, l.st = .running → ((l.hdr.parts.filter fun p => !l.reported.contains (p.dev, p.die) && !s.reaches (s.mapDev l.job p.dev)).map
        fun p => (p.dev, p.die)) = gone → gone ≠ [] →
      (∃ q, q ∈ l.hdr.parts ∧ (q.dev, q.die) ∉ l.reported ∧ (q.dev, q.die) ∉ gone) → Gives (Machine.exec (.launchAnswerTimeout id) s) fun u =>
        Beside s u ∧ u.cmds = s.cmds ∧ u.launchOf l.key = some { l with st := .failing, status := 0x40, reported := l.reported ++ gone } ∧
        ∀ p, p ∈ l.hdr.parts → Sent u l.die fun q => q.dest = s.mapDev l.job p.dev ∧ q.op = 0x22 ∧ q.ctl = .ended l.key p.dev p.die 0x40))

/-! Events of requests: spec/08_engines.md, spec/18_fabric.md. -/

/-- R374, R384: a request whose number is new to the window of its home is performed there, counts as applied, and is answered to its
requester: a write stores its bytes, a reduction replaces each element by its operation (R234), a counter add adds to the doubleword
(R235); a held write, once released, is taken up as one that arrives. A write that has been applied already is only answered, and counted in
DUPSUP; one that is not applied and lies below the floor is discarded and counted in STALEREQ. A read answers the bytes of its range; of a
SEALED page it answers none (R374). -/
def Obligations.RequestsPerform : Prop := ∀ (s : State) (m d : Nat) (fl : Flight) (leaf : Word) (pc : Piece) (p : Packet),
  fl.pkt = p → Plain s → MemSound s → pc.repl = none → fl.trans = none → s.reachesHome d (pteHome leaf) fl = true →
  (∀ i, (i = .write m ∧ Stands s m fl ∧ InTime s fl ∧ fl.loc.die = d ∨
      i = .heldRequestRelease m ∧ s.findFlight m = some fl ∧ fl.loc = .held d ∧ m < s.fab.nextId ∧ s.jobs = [] ∧ fl.ack = none ∧
        p.cls ≠ 1 ∧ p.cls ≠ 3 ∧ s.expired fl = false) →
    p.op = 1 → pc.ord ≠ .uo → Fresh s p d leaf pc → p.data.length = p.len → Gives (Machine.exec i s) fun u => u.ctxs = s.ctxs ∧
      (∀ j b, p.data[j]? = some b → memGet u.mem (pc.key + j) = b) ∧
      (∀ q, q < pc.key ∨ pc.key + p.len ≤ q → memGet u.mem q = memGet s.mem q) ∧
      Applied s u p leaf ∧ Answered u m d p 0x10 fun q => q.arg = 0) ∧
  (Stands s m fl → InTime s fl → fl.loc.die = d → p.op = 1 → s.mustWait p = false →
    s.translate (74 + d) p.jid (s.jobRoot p.jid) p.va.toNat p.len (askOf p) = (s, .ok (leaf, pc)) →
    ((homeOf s p leaf).applied p.seq = true → s.ackWaits p = false → Gives (Machine.exec (.write m) s) fun u => Beside s u ∧
      Answered u m d p 0x10 (fun q => q.arg = 0) ∧
      (u.fab.counters[ctrDupsup]).toNat = min (2 ^ 64 - 1) ((s.fab.counters[ctrDupsup]).toNat + 1)) ∧
    ((homeOf s p leaf).applied p.seq = false → seqBefore p.seq (homeOf s p leaf).f = true → Gives (Machine.exec (.write m) s) fun u =>
      Beside s u ∧ u.fab.flights = s.fab.flights.filter (fun g => g.id != m) ∧
      (u.fab.counters[ctrStalereq]).toNat = min (2 ^ 64 - 1) ((s.fab.counters[ctrStalereq]).toNat + 1))) ∧
  (Stands s m fl → InTime s fl → fl.loc.die = d → p.op = 2 → p.cls = 0 →
    s.translate (74 + d) p.jid (s.jobRoot p.jid) p.va.toNat p.len (askOf p) = (s, .ok (leaf, pc)) →
    (pteSealed leaf = false → Gives (Machine.exec (.read m) s) fun u => Beside s u ∧
      Answered u m d p 0x11 fun q => q.arg = 0 ∧ q.data.length = p.len ∧ ∀ j, j < p.len → q.data[j]? = some (memGet s.mem (pc.key + j))) ∧
    (pteSealed leaf = true → Gives (Machine.exec (.read m) s) fun u => Beside s u ∧
      Answered u m d p 0x11 fun q => q.arg = 2 ∧ q.data = [])) ∧
  (∀ w, Stands s m fl → InTime s fl → fl.loc.die = d → p.op = 3 → Fresh s p d leaf pc → reduceBytes p.arg = w → pc.key % w = 0 →
    Gives (Machine.exec (.reduce m) s) fun u => u.ctxs = s.ctxs ∧
      (∀ j, j < p.len / w → memReadN u.mem (pc.key + w * j) w =
        reduceOp p.arg (memReadN s.mem (pc.key + w * j) w) (natLE ((p.data.drop (w * j)).take w)) % 256 ^ w) ∧
      (∀ q, q < pc.key ∨ pc.key + p.len ≤ q → memGet u.mem q = memGet s.mem q) ∧
      Applied s u p leaf ∧ Answered u m d p 0x10 fun q => q.arg = 0) ∧
  (Stands s m fl → InTime s fl → fl.loc.die = d → p.op = 4 → Fresh s p d leaf pc → pc.key % 8 = 0 →
    Gives (Machine.exec (.counterAdd m) s) fun u => u.ctxs = s.ctxs ∧ memWord u.mem pc.key = memWord s.mem pc.key + p.val ∧
      (∀ q, q < pc.key ∨ pc.key + 8 ≤ q → memGet u.mem q = memGet s.mem q) ∧
      Applied s u p leaf ∧ Answered u m d p 0x10 fun q => q.arg = 0)

/-- R382, R374: an answer ends the request that it matches, frees its tag for quarantine (R380), and gives its command an error status;
read data is written first (R233), and of a SEALED page ends its command with 0x45 (R226). R381: a park notice stops the timer of its
request and a resume notice starts it afresh; a request without an answer goes again with the same tag, generation and number; at the
timeout every request of its command is given up, the command ends with Fabric Timeout, and a floor goes to the target, where both dies'
windows take it in (R384). R380: a tag leaves quarantine for the end of the free list. -/
def Obligations.RequestEvents : Prop := ∀ (s : State) (m : Nat) (fl : Flight) (r : Req) (p : Packet), fl.pkt = p →
  (Answers s m 0x10 fl r → Gives (Machine.exec (.acknowledge m) s) fun u => Beside s u ∧ u.findFlight m = none ∧
    u.fab.reqs = s.fab.reqs.filter (fun q => q.id != r.id) ∧ (u.fab.pool r.die).gen r.tag = ((s.fab.pool r.die).gen r.tag + 1) % 16 ∧
    (u.fab.pool r.die).quar = (s.fab.pool r.die).quar ++ [(r.tag, s.step64.toNat + s.life)] ∧
    ∀ c st, s.findCmd r.cmd = some c → (p.arg = 0 ∧ st = 0 ∨ p.arg = 1 ∧ st = 0x41 ∨ p.arg = 2 ∧ st = 0x45 ∨ p.arg = 3 ∧ st = 0x44) →
      u.findCmd r.cmd = some { c with status := if c.status = 0 then st else c.status }) ∧
  (∀ c h, Answers s m 0x11 fl r → s.findCmd r.cmd = some c → c.st = .running → c.task = none → c.aux = 0 →
    (p.arg = 2 → Gives (Machine.exec (.readData m) s) fun u => Beside s u ∧ u.findFlight m = none ∧
      u.fab.reqs = s.fab.reqs.filter (fun q => q.id != r.id) ∧
      ∃ e, u.findCmd r.cmd = some e ∧ e.status = 0x45 ∧ e.done = (c.parAt 2).bits 0 32) ∧
    (p.arg = 0 → (∀ q, q ∈ s.fab.reqs → q.cmd = r.cmd → r.off ≤ q.off) → Plain s → MemSound s →
      p.data.length = p.len → p.len ≤ 256 → coreTarget (c.parAt 0 + wordOfNat r.off) = .scratch h → h % 2 ^ 22 + p.len ≤ 2 ^ 22 →
      h + p.len ≤ 288 * 2 ^ 22 →
      (s.coreAt (h / 2 ^ 22)).regions = [] → (s.coreAt (h / 2 ^ 22)).verify = false → Gives (Machine.exec (.readData m) s) fun u =>
        u.ctxs = s.ctxs ∧ u.findFlight m = none ∧ u.fab.reqs = s.fab.reqs.filter (fun q => q.id != r.id) ∧
        (∀ j b, p.data[j]? = some b → memGet u.mem (scrKey h + j) = b) ∧
        ∀ q, q < scrKey h ∨ scrKey h + p.len ≤ q → memGet u.mem q = memGet s.mem q)) ∧
  (Answers s m 0x12 fl r → Gives (Machine.exec (.parkNotice m) s) fun u => Beside s u ∧ u.findFlight m = none ∧
    u.fab.reqs = s.fab.reqs.map fun q => if q.id = r.id then { q with parked := true } else q) ∧
  (Answers s m 0x13 fl r → Gives (Machine.exec (.resumeNotice m) s) fun u => Beside s u ∧ u.findFlight m = none ∧
    u.fab.reqs = s.fab.reqs.map fun q => if q.id = r.id then { q with parked := false, began := s.now, sent := s.now } else q) ∧
  (∀ job src tgt cls die h, Stands s m fl → p.op = 0x23 → p.ctl = .floor job src tgt cls → die < 2 →
    s.fab.home die job src p.die cls tgt = h → Gives (Machine.exec (.floor m) s) fun u => Beside s u ∧ u.findFlight m = none ∧
      u.fab.home die job src p.die cls tgt = { h with f := if seqBefore h.f p.floor then p.floor else h.f }) ∧
  (∀ id, s.fab.reqs.find? (·.id = id) = some r → s.jobs = [] → r.parked = false →
    (r.sent + s.timeout / 16 ≤ s.now → s.now < r.began + s.timeout → Gives (Machine.exec (.requestResend id) s) fun u => Beside s u ∧
      u.fab.reqs = s.fab.reqs.map (fun q => if q.id = id then { q with sent := s.now } else q) ∧
      (u.fab.counters[ctrResend]).toNat = min (2 ^ 64 - 1) ((s.fab.counters[ctrResend]).toNat + 1) ∧
      Sent u r.die fun q => q.op = r.pkt.op ∧ q.dest = r.pkt.dest ∧ q.tag = r.pkt.tag ∧ q.gen = r.pkt.gen ∧ q.seq = r.pkt.seq ∧
        q.va = r.pkt.va ∧ q.data = r.pkt.data ∧ q.birth = s.step64) ∧
    (∀ c, r.began + s.timeout ≤ s.now → s.findCmd r.cmd = some c → Gives (Machine.exec (.requestTimeout id) s) fun u => Beside s u ∧
      (∀ q, q ∈ u.fab.reqs → q.cmd ≠ r.cmd) ∧ u.findCmd r.cmd = some { c with status := 0x40, st := .done } ∧
      Sent u r.die fun q => q.op = 0x23 ∧ q.dest = r.pkt.dest ∧ q.ctl = .floor r.pkt.jid r.pkt.src (r.pkt.tgt.getD 0) r.pkt.cls)) ∧
  (∀ d n t rest, (s.fab.pool d).quar = (n, t) :: rest → t ≤ s.step64.toNat → Gives (Machine.exec (.tagQuarantineEnd d) s) fun u =>
    Beside s u ∧ (u.fab.pool d).quar = rest ∧ (u.fab.pool d).free = (s.fab.pool d).free ++ [n])

/-! Events of the fabric: spec/18_fabric.md, spec/23_platform.md. -/

/-- R371, R372, R376, R378, R472: the first packet of its channel leaves by the port of its route, for classes 2 and 3 the primary one and
for the others the enabled one with the most credits, the lower entry on a tie; its header flit and as many of its flits as credits and the
retry buffer allow go at once, its hop index raised, and the others follow as credits come back. It crosses the bridge first where that port
is of the other die; one with no valid route, or with more links before it than 15, is discarded. A packet of class 0, 1 or 2 older than
LIFE steps is discarded (R382). A credit comes back to the pool that it was taken from (R378). -/
def Obligations.PacketsMove : Prop := ∀ (s : State) (m : Nat) (fl : Flight) (p : Packet),
  fl.pkt = p →
  (∀ e, s.findFlight m = some fl → s.jobs = [] → fl.out = none → ((∃ d, fl.loc = .localq d) ∨ ∃ i, fl.loc = .ingress i) → p.dest ≠ s.ownDev →
    s.isHead fl = true → s.routeTo p.dest = e →
    ((routeV e = false ∨ 15 < p.hop + routeDist e) → Gives (Machine.exec (.packetForward m) s) fun u => Beside s u ∧
      u.fab.flights = s.fab.flights.filter (fun g => g.id != m) ∧
      (u.fab.counters[ctrRouteerr]).toNat = min (2 ^ 64 - 1) ((s.fab.counters[ctrRouteerr]).toNat + 1)) ∧
    (∀ i, routeV e = true → p.hop + routeDist e ≤ 15 → p.hop < 15 → p.cls ≤ 3 → (s.fab.port i).st = .up →
      (2 ≤ p.cls ∧ routePort e 0 = i ∨ p.cls < 2 ∧ ∃ k, k < 4 ∧ routeEn e k = true ∧ routePort e k = i ∧
        ∀ j, j < 4 → j ≠ k → routeEn e j = true → (s.fab.port (routePort e j)).st = .up →
          (s.fab.port (routePort e j)).credits (p.chan + 1) < (s.fab.port i).credits (p.chan + 1) ∨
          ((s.fab.port (routePort e j)).credits (p.chan + 1) = (s.fab.port i).credits (p.chan + 1) ∧ k < j)) →
      (∀ n, i / 8 = fl.loc.die → s.mayLeave i p = true → min p.flits (min ((s.fab.port i).credits (p.chan + 1)) (s.retryRoom i)) = n →
        Gives (Machine.exec (.packetForward m) s) fun u => Beside s u ∧ 0 < n ∧
          (∃ q, u.findFlight m = some { fl with loc := .retry i, pkt := q, debt := p.flits - n } ∧
            q = { p with hop := p.hop + 1, ctl := q.ctl } ∧ ((∀ c, p.ctl ≠ .beacon c) → q.ctl = p.ctl)) ∧
          (u.fab.port i).credits (p.chan + 1) + n = (s.fab.port i).credits (p.chan + 1)) ∧
      (i / 8 ≠ fl.loc.die → s.bridgeRoom (i / 8) p = true → Gives (Machine.exec (.packetForward m) s) fun u => Beside s u ∧
        u.findFlight m = some { fl with loc := .bridge (i / 8) } ∧ u.fab.ports = s.fab.ports))) ∧
  (s.findFlight m = some fl → ((∃ d, fl.loc = .localq d ∨ fl.loc = .ingress d ∨ fl.loc = .bridge d) ∨ (∃ d, fl.loc = .held d) ∧ p.cls ≠ 1) →
    fl.ack = none → fl.handle = none → p.cls < 3 → s.life < s.step64.toNat - p.birth.toNat →
    Gives (Machine.exec (.packetExpiry m) s) fun u => Beside s u ∧ u.fab.flights = s.fab.flights.filter (fun g => g.id != m) ∧
      (u.fab.counters[ctrExpired]).toNat = min (2 ^ 64 - 1) ((s.fab.counters[ctrExpired]).toNat + 1)) ∧
  (∀ i ch, i < 16 → ch < 64 →
    ((∀ g, g ∈ s.fab.flights → g.loc = .retry i → g.debt = 0) →
      (Gives (Machine.exec (.creditReturn i ch true) s) fun u => Beside s u ∧
        u.fab.port i = { s.fab.port i with reserved := (s.fab.port i).reserved ||| BitVec.ofNat 64 (2 ^ ch) }) ∧
      (0 < (s.fab.port i).usedOn ch → Gives (Machine.exec (.creditReturn i ch false) s) fun u => Beside s u ∧
        (u.fab.port i).shared = min 4032 ((s.fab.port i).shared + 1) ∧ (u.fab.port i).usedOn ch = (s.fab.port i).usedOn ch - 1 ∧
        (u.fab.port i).reserved = (s.fab.port i).reserved)) ∧
    (s.findFlight m = some fl → fl.loc = .retry i → p.chan = ch → 0 < fl.debt →
      (∀ g, g ∈ s.fab.flights → g.loc = .retry i → g.debt ≠ 0 → g = fl) → (s.fab.port i).credits ch = 0 → 0 < s.retryRoom i →
      Gives (Machine.exec (.creditReturn i ch true) s) fun u => Beside s u ∧ u.findFlight m = some { fl with debt := fl.debt - 1 } ∧
        (u.fab.port i).credits ch = 0))

/-- R379, R389: a port that has trained is Up with every credit, and one that has not within 1 ms is Down, with its retry buffer counted in
DISCARD; a flit that is asked for again counts as a resend (R461), one that has failed 16 resends starts retraining, which brings the port
Up again or, after 1 ms, Down. Each change of state is reported. R387: a beacon leaves on each Up port every 65,536 cycles, or waits there
for a credit, and is echoed; one from the parent steers CYC, and the fourth in a row within one cycle aligns the device; 1 ms without one
ends the alignment. R369: a manage packet of the manager writes a register of the fabric block. -/
def Obligations.LinkEvents : Prop := ∀ (s : State) (i : Nat) (p : Port), i < 16 → s.fab.port i = p →
  (∀ nd np, p.st = .training → Gives (Machine.exec (.trainingComplete i nd np) s) fun u => Beside s u ∧ u.fab.flights = s.fab.flights ∧
    u.fab.reports = s.fab.reports ++ [(i, .up)] ∧
    u.fab.port i = { p with st := .up, since := s.now, ndev := nd % 4096, nport := np % 16, resends := 0, reserved := BitVec.allOnes 64
                            shared := 4032, used := [] } ∧ ∀ j, j ≠ i → u.fab.port j = s.fab.port j) ∧
  (∀ e, (p.st = .training ∧ e = .trainingTimeout i ∨ p.st = .retraining ∧ e = .retrainingTimeout i) → p.since + 1800000 ≤ s.now →
    Gives (Machine.exec e s) fun u => Beside s u ∧ (u.fab.port i).st = .down ∧ u.fab.reports = s.fab.reports ++ [(i, .down)] ∧
      u.fab.flights = s.fab.flights.filter (fun g => g.loc != .retry i) ∧ (u.fab.counters[ctrDiscard]).toNat =
        min (2 ^ 64 - 1) ((s.fab.counters[ctrDiscard]).toNat + s.fab.flights.countP fun g => g.loc = .retry i)) ∧
  (p.st = .up → (∃ g, g ∈ s.fab.flights ∧ g.loc = .retry i) → Gives (Machine.exec (.linkResendRequest i) s) fun u => Beside s u ∧
    u.fab.flights = s.fab.flights ∧ u.fab.port i = { p with resends := p.resends + 1 } ∧
    ((u.die (i / 8)).errors[6]).toNat = min 0xFFFFFFFF (((s.die (i / 8)).errors[6]).toNat + 1)) ∧
  (p.st = .up → 17 ≤ p.resends → Gives (Machine.exec (.retrainingStart i) s) fun u => Beside s u ∧ u.fab.flights = s.fab.flights ∧
    u.fab.reports = s.fab.reports ++ [(i, .retraining)] ∧
    u.fab.port i = { p with st := .retraining, since := s.now, retrain := min 0xFFFF (p.retrain + 1) }) ∧
  (p.st = .retraining → Gives (Machine.exec (.retrainingComplete i) s) fun u => Beside s u ∧ u.fab.flights = s.fab.flights ∧
    u.fab.reports = s.fab.reports ++ [(i, .up)] ∧ u.fab.port i = { p with st := .up, since := s.now, resends := 0 }) ∧
  (s.fab.lastSent + 65536 ≤ s.now → Gives (Machine.exec .beaconSend s) fun u => Beside s u ∧ u.fab.lastSent = s.now ∧
    (p.st = .up → ∃ g, g ∈ u.fab.flights ∧ (g.loc = .retry i ∨ (g.loc = .localq (i / 8) ∧ g.out = some i)) ∧ g.pkt.op = 0x20 ∧
      g.pkt.dest = p.ndev ∧ g.pkt.ctl = .beacon s.cyc)) ∧
  (∀ cyc e, p.st = .up → (cyc.toNat : Int) + p.delay - s.cyc.toNat = e → Gives (Machine.exec (.beacon i cyc) s) fun u => Beside s u ∧
    (∃ g, g ∈ u.fab.flights ∧ (g.loc = .retry i ∨ (g.loc = .localq (i / 8) ∧ g.out = some i)) ∧ g.pkt.op = 0x20 ∧ g.pkt.ctl = .echo) ∧
    ((s.fstep.getLsbD 6 = true ∨ s.fstep.bits 8 4 ≠ i) → u.fstep = s.fstep ∧ u.fab.steer = s.fab.steer) ∧
    (s.fstep.getLsbD 6 = false → s.fstep.bits 8 4 = i → u.fab.steer = e ∧ u.fab.lastBeacon = s.now ∧
      u.fab.goodBeacons = (if e.natAbs ≤ 1 then s.fab.goodBeacons + 1 else 0) ∧
      (e.natAbs ≤ 1 → 3 ≤ s.fab.goodBeacons → u.fstep = s.fstep ||| 0x80) ∧ ((1 < e.natAbs ∨ s.fab.goodBeacons < 3) → u.fstep = s.fstep))) ∧
  (∀ n, p.st = .up → Gives (Machine.exec (.echo i n) s) fun u => Beside s u ∧ u.fab.port i = { p with delay := n }) ∧
  (s.fstep.getLsbD 6 = false → s.fab.lastBeacon + 1800000 ≤ s.now → Gives (Machine.exec .alignmentLoss s) fun u => Beside s u ∧
    u.fstep = s.fstep &&& ~~~0x80 ∧ u.fab.steer = 0) ∧
  (∀ m fl v, Stands s m fl → fl.pkt.op = 0x24 → fl.pkt.ctl = .manage 0x100010 v → s.plat.booted = true →
    fl.pkt.src = (if s.fdev.getLsbD 16 then s.ownDev else Config.managerDev) → 16 ≤ v.bits 0 6 → v.bits 0 6 ≤ 40 →
    Gives (Machine.exec (.manage m) s) fun u => Beside s u ∧ u.findFlight m = none ∧ u.fab.ftmo = v.bits 0 6)

/-! Events of cuts and switches: spec/20_traps.md. -/

/-- R412: a die that a cut reaches reports the greatest LAST of its contexts, or, with nothing of the job left on it, that it has saved the
job (STATE 5). With the last report the target, the greatest of them, goes to every die that has contexts, and there the cut is pending in
every context, at that target. A context that has not stopped within 2^20 cycles is frozen in full. R410, R415: a settled context whose
record fits its save area is saved and Free; where it does not fit, the die shows STATE 8 and the context stays as it is. R412, R418: reports
that a die has saved or restored the job are kept until all are there. -/
def Obligations.CutEvents : Prop := ∀ (s : State) (m j d : Nat) (k : JobCtl) (live : List Nat), d < 2 → s.jobCtl j = k → s.liveCtxs j d = live →
  (∀ odev odie, Told s m (.cutOpen j d odev odie) → MemSound s → s.saveArea j d % 4096 = 0 → s.saveArea j d = 0 ∨ 8192 ≤ s.saveSize j d →
    (live = [] → (∀ h, h ∈ s.shares → h.job = j → h.die ≠ d) ∧ (∀ l, l ∈ s.launches → l.job = j → l.die ≠ d) ∧
      (∀ n, n ∈ s.fab.nums → n.job = j → n.die ≠ d) ∧ (∀ h, h ∈ s.fab.homes → h.job = j → h.die ≠ d)) →
    Gives (Machine.exec (.cutOpen m) s) fun u => u.ctxs = s.ctxs ∧ u.findFlight m = none ∧ (u.jobCtl j).isCut = true ∧
    (live = [] → (u.jobCtl j).stOf d = 5 ∧
      Sent u d fun q => q.dest = odev ∧ q.op = 0x22 ∧ q.ctl = .cutReport j s.ownDev d none) ∧
    (live ≠ [] → (u.jobCtl j).stOf d = 1 ∧ ∃ last, (∀ n, n ∈ live → (s.ctxAt n).cutPassed = true → (s.ctxAt n).cutLast ≤ last) ∧
      (last = 0 ∨ ∃ n, n ∈ live ∧ (s.ctxAt n).cutPassed = true ∧ (s.ctxAt n).cutLast = last) ∧
      Sent u d fun q => q.dest = odev ∧ q.op = 0x22 ∧ q.ctl = .cutReport j s.ownDev d (some last))) ∧
  (∀ dev last reports, Told s m (.cutReport j dev d last) → k.reports ++ [(dev, d, last)] = reports →
    Gives (Machine.exec (.cutReport m) s) fun u => u.ctxs = s.ctxs ∧ u.findFlight m = none ∧
      ((k.origin = none ∨ ∃ e x, e ∈ k.members ∧ x < 2 ∧ ∀ r, r ∈ reports → (r.1, r.2.1) ≠ (e, x)) → u.mem = s.mem ∧
        (u.jobCtl j).reports = reports) ∧
      (k.origin ≠ none → (∀ e x, e ∈ k.members → x < 2 → ∃ r, r ∈ reports ∧ (r.1, r.2.1) = (e, x)) →
        ∃ n, (∀ r v, r ∈ reports → r.2.2 = some v → v ≤ n) ∧ (n = 0 ∨ ∃ r, r ∈ reports ∧ r.2.2 = some n) ∧
          ∀ r, r ∈ reports → r.2.2 ≠ none → Sent u k.odie fun q => q.dest = r.1 ∧ q.op = 0x22 ∧ q.ctl = .cutTarget j r.2.1 n)) ∧
  (∀ n, Told s m (.cutTarget j d n) → n < 4096 → live ≠ [] → k.stOf (1 - d) < 2 → Gives (Machine.exec (.cutTarget m) s) fun u =>
    u.findFlight m = none ∧ (u.jobCtl j).stOf d = 2 ∧ (∀ i, i ∉ live → u.ctxAt i = s.ctxAt i) ∧ ∀ i, i ∈ live →
      u.ctxAt i = { s.ctxAt i with cr := (u.ctxAt i).cr, pendingSince := s.now } ∧
      (∀ r : Fin 24, r ≠ crCutreq → (u.ctxAt i).cr[r] = (s.ctxAt i).cr[r]) ∧ ((u.ctxAt i).cr[crCutreq]).bits 0 12 = n ∧
      ((u.ctxAt i).cr[crCutreq]).getLsbD 12 = true ∧ ((u.ctxAt i).cr[crCutreq]).bits 16 13 = ((s.ctxAt i).cr[crCutreq]).bits 16 13) ∧
  (∀ ag n c, agentNum ag = n → n < 1152 → s.ctxAt n = c → c.cutPending = true → c.pendingSince + 2 ^ 20 ≤ s.now → c.drain ≠ .rft → c.acc = [] →
    (c.st = .ready ∨ c.st = .selected ∨ c.st = .stalled) → Gives (Machine.exec (.cutTimeLimit ag) s) fun u => u.mem = s.mem ∧
      (u.ctxAt n).st = .frozen ∧ (u.ctxAt n).frozenKind = (if c.drain = .tend then 3 else 2) ∧ (u.ctxAt n).x = c.x ∧ (u.ctxAt n).pc = c.pc ∧
      ∀ i, i ≠ n → u.ctxAt i = s.ctxAt i) ∧
  (∀ ag n c idx r stop, agentNum ag = n → n < 1152 → dieOf n = d → s.ctxAt n = c → c.job = j → c.st = .frozen → k.stOf d = 2 ∨ k.stOf d = 4 →
    k.isCut = true ∨ k.swept = true → s.settled n = true → s.pw = [] → s.rw = [] → s.early = [] →
    ((c.task.bind s.findTask).bind fun t => (s.shares.filter fun h => h.job = j && h.die = d).findIdx? fun h => h.id = t.share).getD 0xFFFF = idx →
    ctxRecord s n idx (s.saveArea j d + k.nextOf d) = (r, stop) →
    (0 < s.saveArea j d → stop ≤ s.saveArea j d + s.saveSize j d →
      installed (s.saveArea j d) (stop - s.saveArea j d) = true → Gives (Machine.exec (.contextSave ag) s) fun u =>
        (u.ctxAt n).st = .free ∧ (u.ctxAt n).task = none ∧ (u.jobCtl j).ctxRecs = k.ctxRecs ++ [(d, k.recsOf d, n)] ∧
        (∀ x, x ∈ u.cmds → x.agent = n → x.kind ≠ .slot) ∧ ∀ i, i ≠ n → u.ctxAt i = s.ctxAt i) ∧
    (s.saveArea j d + s.saveSize j d < stop → Gives (Machine.exec (.contextSave ag) s) fun u => u.ctxs = s.ctxs ∧ (u.jobCtl j).stOf d = 8 ∧
      u.cmds = s.cmds)) ∧
  (∀ dev, Told s m (.saved j dev d true) → Gives (Machine.exec (.saveCompleteReport m) s) fun u => Beside s u ∧ u.findFlight m = none ∧
    (u.jobCtl j).back = k.back ++ [(dev, d)]) ∧
  (∀ dev, Told s m (.saved j dev d false) → Gives (Machine.exec (.saveCompleteReport m) s) fun u => u.ctxs = s.ctxs ∧ u.findFlight m = none ∧
    ((∃ e x, e ∈ k.members ∧ x < 2 ∧ (e, x) ∉ k.saved ∧ (e, x) ≠ (dev, d)) → u.mem = s.mem ∧ (u.jobCtl j).saved = k.saved ++ [(dev, d)]) ∧
    (k.origin ≠ none → (∀ e x, e ∈ k.members → x < 2 → (e, x) ∈ k.saved ∨ (e, x) = (dev, d)) → (u.jobCtl j).origin = none ∧
      (s.savesOn = true → MemSound s → memGet u.mem (s.saveEntry j + 58) = 5)))

/-- R418: a die that a switch out reaches takes its step; at that step it freezes the contexts of the job and sends a fence on each of its
Up links, at once or as credits come; with the first die the sweep begins, and the links that are Down or Retraining have been swept
(R419). R419: the fence of a link, or the timeout of its sweep, empties that place of the job's packets, and once both dies have frozen a
bridge is empty of them; once every place is swept the packets are in the galley, a record each (R420), and a galley too small for them
loses the job (STATE 7). R422: a die that a switch in reaches, with nothing saved for it to restore, tells every member that it has
restored the job; a member asked about its galleys answers, and the origin keeps the answer (R421; the messages are the model's, log entry
51); a member notes a tag that a restored request has changed. R423: once every die has restored, from the resume step on, the job's contexts
go on, Ready, with the notice of how they were stopped, and the packets of its galleys wait in the local queues. -/
def Obligations.SwitchEvents : Prop := ∀ (s : State) (m j d : Nat) (k : JobCtl), d < 2 → s.jobCtl j = k →
  (∀ t, Told s m (.switchOut j d t) → Gives (Machine.exec (.switchAcceptance m) s) fun u => u.ctxs = s.ctxs ∧ u.findFlight m = none ∧
    (u.jobCtl j).stOf d = 3 ∧ (u.jobCtl j).step = t ∧ (u.jobCtl j).isCut = false) ∧
  (∀ resume galleys, Told s m (.switchIn j d resume 0 galleys) → MemSound s → s.saveArea j d = 0 →
    Gives (Machine.exec (.switchAcceptance m) s) fun u => u.ctxs = s.ctxs ∧ u.findFlight m = none ∧ (u.jobCtl j).stOf d = 6 ∧
      (u.jobCtl j).step = resume ∧ (u.jobCtl j).galleys = galleys ∧ (u.jobCtl j).restoredOf d = true ∧
      ∀ dev, dev ∈ u.members j → Sent u d fun q => q.dest = dev ∧ q.op = 0x22 ∧ q.ctl = .saved j s.ownDev d true) ∧
  (∀ odev odie cmd galleys ok, Told s m (.askGalley j odev odie cmd galleys) → (ok = true ↔ ∀ a, a ∈ galleys → memReadN s.mem (a.toNat + 8) 2 = j) →
    Gives (Machine.exec (.switchAcceptance m) s) fun u => Beside s u ∧ u.findFlight m = none ∧ ∃ die, Sent u die fun q => q.dest = odev ∧
      q.op = 0x22 ∧ q.ctl = .galleyIs j s.ownDev cmd ok) ∧
  (∀ dev cmd ok c, Told s m (.galleyIs j dev cmd ok) → s.findCmd cmd = some c → c.kind = .gsw → c.st = .held →
    Gives (Machine.exec (.switchAcceptance m) s) fun u => Beside s u ∧ u.findFlight m = none ∧
      u.findCmd cmd = some { c with rows := c.rows ++ [(dev, ofBoolNat ok, 0)] }) ∧
  (k.stOf d = 3 → k.step.toNat ≤ s.step64.toNat → Gives (Machine.exec (.switchFreeze d j) s) fun u =>
    (u.jobCtl j).stOf d = 4 ∧ (u.jobCtl j).frozen = (k.frozen || k.sweeps.isEmpty) ∧
    (∀ n, n ∈ s.liveCtxs j d → s.freezeDue n = true → (u.ctxAt n).st = .frozen) ∧ (∀ n, n ∉ s.liveCtxs j d → u.ctxAt n = s.ctxAt n) ∧
    (k.sweeps = [] → ∀ i, i < 16 → (u.sweeping j (.port i) = true ↔ (s.fab.port i).st = .up ∨ (s.fab.port i).st = .training)) ∧
    ∀ i, i / 8 = d → i < 16 → (s.fab.port i).st = .up → ∃ g, g ∈ u.fab.flights ∧
      (g.loc = .retry i ∨ (g.loc = .localq d ∧ g.out = some i)) ∧ g.pkt.op = 0x21 ∧ g.pkt.jid = j ∧ g.pkt.ctl = .fence j) ∧
  (∀ pl e, ((∃ p g, e = .sweepFence j pl ∧ pl = .port p ∧ s.isHead g = true ∧ g.pkt.cls = 3 ∧
        s.fab.flights.find? (fun f => f.loc = .ingress p && f.pkt.op = 0x21 && f.pkt.ctl = .fence j) = some g) ∨
      (∃ b, e = .sweepFence j pl ∧ pl = .bridge b ∧ k.st0 = 4 ∧ k.st1 = 4) ∨
      e = .sweepTimeout j pl ∧ k.since + s.timeout ≤ s.now) → s.sweeping j pl = true →
    (∀ g h, g ∈ s.fab.flights → h ∈ s.fab.flights → g.id = h.id → g = h) → Gives (Machine.exec e s) fun u => Beside s u ∧
    u.sweeping j pl = false ∧ (∀ g, g ∈ u.fab.flights → g.pkt.jid = j → g.pkt.cls < 3 → g.pkt.hop < 16 → g.loc.place ≠ some pl) ∧
    ∀ g, g ∈ s.fab.flights → g.pkt.jid = j → g.pkt.cls < 3 → g.pkt.hop < 16 → g.loc.place = some pl → g ∈ (u.jobCtl j).kept) ∧
  (∀ base pl l, k.frozen = true → k.swept = false → k.isCut = false → k.st0 = 4 → k.st1 = 4 → (∀ w, w ∈ k.sweeps → w.finished = true) →
    k.kept = l → pl ∈ sweepPlaces → (∀ g, g ∈ l → g.loc.place = some pl ∧ g.pkt.data.length ≤ 256) →
    (∀ g, g ∈ s.fab.flights → g.pkt.jid = j → g.pkt.cls = 3 ∧ g.ack = none) → s.galleyBase j = base →
    (l = [] → base = 0 → Gives (Machine.exec (.localSweepComplete j) s) fun u =>
      u.ctxs = s.ctxs ∧ (u.jobCtl j).swept = true ∧ (u.jobCtl j).gcount = 0) ∧
    (l.length ≤ s.galleyCap j → l ≠ [] → s.liveCtxs j 0 ≠ [] → s.liveCtxs j 1 ≠ [] → MemSound s →
      Gives (Machine.exec (.localSweepComplete j) s) fun u => u.ctxs = s.ctxs ∧ (u.jobCtl j).swept = true ∧ (u.jobCtl j).gcount = l.length ∧
        (l.length < 2 ^ 64 → j < 2 ^ 16 → memReadN u.mem base 8 = l.length ∧ memReadN u.mem (base + 8) 2 = j) ∧
        ∀ i g n b, l[i]? = some g → (galleyRecord s g)[n]? = some b → n < 4 ∨ 64 ≤ n ∨ g.pkt.tgt ≠ none ∨ s.savesOn = false →
          memGet u.mem (base + 64 + 384 * i + n) = b) ∧
    (s.galleyCap j < l.length → Gives (Machine.exec (.localSweepComplete j) s) fun u => (u.jobCtl j).st0 = 7 ∧ (u.jobCtl j).st1 = 7)) ∧
  (∀ dev die ot og nt ng, Told s m (.tagChange j dev die ot og nt ng) → Gives (Machine.exec (.tagChange m) s) fun u => Beside s u ∧
    u.findFlight m = none ∧ (u.jobCtl j).tagMap = k.tagMap ++ [(dev, ot, og, nt, ng)]) ∧
  (k.st0 = 6 → k.st1 = 6 → k.restored0 = true → k.restored1 = true → k.step.toNat ≤ s.step64.toNat →
    (∀ e x, e ∈ s.members j → x < 2 → (e, x) ∈ k.back) → Gives (Machine.exec (.switchResume j) s) fun u =>
      (u.jobCtl j).st0 = 0 ∧ (u.jobCtl j).st1 = 0 ∧ (u.jobCtl j).frozen = false ∧ (u.jobCtl j).resumed = some k.step ∧
      (∀ r c, r ∈ k.ctxRecs → s.ctxAt r.2.2 = c → c.st = .frozen → u.ctxAt r.2.2 = { c with
        st := .ready, notice := some (if c.frozenKind = 1 then .cut else .freeze), frozenKind := 0 }) ∧
      (∀ n, (∀ r, r ∈ k.ctxRecs → r.2.2 ≠ n) → u.ctxAt n = s.ctxAt n) ∧
      ∀ base, k.galleys = [(base, s.ownDev)] → (memWord u.mem base).toNat = 1 →
        Sent u (portDie (memReadN u.mem (base + 64) 1)) fun q => q.hop = 0 ∧ q.birth = s.step64 ∧
          q.tgt = some (memReadN u.mem (base + 68) 2))

/-! The platform and the host: spec/18_fabric.md, spec/23_platform.md. -/

/-- R462: a boot that fails at a step leaves that step's code in BOOTSTAT, and M0 and M1 as far as they were measured, and starts nothing;
an image whose signature does not hold fails its step; one that succeeds loads the registers of the image and leaves both sequencers
Halted. What the images and the keys are is open, so whether they hold stays a case of the conclusion. R464: a quote covers the last nonce
written; its last bytes are the Ed25519 signature under the device key (R463). R460: a write of 1 to SEQGO starts a Halted sequencer
from its start registers. R459: CTXRST frees a context, and halts a sequencer, that is Halted or in Double Fault. R371: a malformed
route entry is not stored. R388: FSTEP takes PARENT and ROOT, and its step length while no job is resident; a root is aligned. R379:
enabling a port that is Down starts its training; disabling one takes it Down. R390: a counter is cleared by a write of zero. R457:
host writes and reads of memory, of which an offset from 2^47 on maps nothing. R466 to R469: a region's allowance and refresh rate. -/
def Obligations.PlatformEvents : Prop := ∀ (s : State),
  (s.plat.booted = false → s.plat.bootstat = 0 →
    (∀ f code, f ≤ 4 → (if f = 1 then 1 else if f = 2 ∨ firmwareTrusted = false then 2 else if f = 3 ∨ configTrusted = false then 3 else
        if f = 4 then 4 else 0xFF) = code → Gives (Machine.exec (.powerOn f) s) fun u => u.mem = s.mem ∧ u.plat.bootstat = code ∧
      u.plat.m0 = (if code < 3 then s.plat.m0 else BitVec.ofNat 512 (natLE (sha512 Config.firmwareImage))) ∧
      u.plat.m1 = (if code < 4 then s.plat.m1 else BitVec.ofNat 512 (natLE (sha512 Config.configImage))) ∧
      (code ≤ 4 → u.ctxs = s.ctxs ∧ u.plat.booted = false ∧ u.fab = s.fab ∧ u.fdev = s.fdev ∧ u.dies = s.dies) ∧
      (code = 0xFF → u.plat.booted = true ∧ u.fdev = Config.imageRegister 6 &&& 0x10FFF ∧
        u.plat.sealk = Config.imageRegister 7 ∧ (∀ n, n = 1152 ∨ n = 1153 → u.ctxAt n = { s.ctxAt n with st := .halted }) ∧
        ∀ n, n ≠ 1152 → n ≠ 1153 → u.ctxAt n = s.ctxAt n)) ∧
    ∀ off v, off < 0x80 ∨ 0xA0 ≤ off → Machine.exec (.hostRegisterWrite off v) s = .next s) ∧
  (∀ nonce, Gives (Machine.exec (.quoteNonce nonce) s) fun u => u = { s with plat := { s.plat with nonce := nonce, quoting := true, quoted := false } }) ∧
  (s.plat.quoting = true → Gives (Machine.exec .quoteComplete s) fun u => Beside s u ∧ u.plat.quoted = true ∧ u.plat.quoting = false ∧
    ∀ msg, bytesLE s.plat.m0.toNat 64 ++ bytesLE s.plat.m1.toNat 64 ++ bytesLE s.plat.nonce.toNat 32 ++ bytesLE s.fdev.toNat 8 = msg →
      u.plat.quote = msg ++ edSign deviceSeed msg) ∧
  (s.plat.booted = true →
    (∀ d c, d < 2 → s.ctxAt (1152 + d) = c → c.st = .halted → Gives (Machine.exec (.seqgo d 1) s) fun u => ∃ e, u.ctxAt (1152 + d) = e ∧
      u.mem = s.mem ∧ (∀ n, n ≠ 1152 + d → u.ctxAt n = s.ctxAt n) ∧ e.st = .ready ∧ e.pc = (s.die d).seqpc ∧
      (∀ r, e.getX r = 0 ∧ e.xFull r = true) ∧ (∀ k, e.getK k = {}) ∧ e.cr[0] = 0x21 ∧ e.cr[1] = (s.die d).seqtv ∧
      e.cr[6] = (s.die d).seqjid ∧ e.cr[0x14] = (s.die d).seqpt ∧ e.cr[8] = BitVec.allOnes 64 ∧
      ∀ k : Fin 24, k.val ∉ [0, 1, 6, 8, 0x14] → e.cr[k] = 0) ∧
    (∀ n c, s.ctxAt n = c → c.st = .halted ∨ c.st = .doubleFault →
      (n < 1152 → Gives (Machine.exec (.ctxrst (BitVec.ofNat 64 n)) s) fun u => u.mem = s.mem ∧ (u.ctxAt n).st = .free ∧
        (u.ctxAt n).frames = 0 ∧ (u.ctxAt n).acc = [] ∧ (u.ctxAt n).x = c.x ∧ ∀ k, k ≠ n → u.ctxAt k = s.ctxAt k) ∧
      (n = 1152 ∨ n = 1153 → Gives (Machine.exec (.ctxrst (BitVec.ofNat 64 (0x7F0 + (n - 1152)))) s) fun u => u.mem = s.mem ∧
        (u.ctxAt n).st = .halted ∧ (u.ctxAt n).frames = 0 ∧ (u.ctxAt n).acc = [] ∧ (u.ctxAt n).x = c.x ∧ ∀ k, k ≠ n → u.ctxAt k = s.ctxAt k)) ∧
    (∀ d v e, d < 4096 → v &&& 0x8FFFFF0F#32 = e →
      (v.getLsbD 31 = true → v.bits 24 4 = 0 ∨ v.getLsbD 0 = false → Gives (Machine.exec (.routeEntryWrite d v) s) fun u => Beside s u ∧
        u.fab.routes = s.fab.routes ∧ (u.fab.counters[ctrRouteerr]).toNat = min (2 ^ 64 - 1) ((s.fab.counters[ctrRouteerr]).toNat + 1)) ∧
      (v.getLsbD 31 = false ∨ v.bits 24 4 ≠ 0 ∧ v.getLsbD 0 = true → Gives (Machine.exec (.routeEntryWrite d v) s) fun u => Beside s u ∧
        u.routeTo d = e ∧ u.fab.counters = s.fab.counters)) ∧
    (∀ v, Gives (Machine.exec (.fstepWrite v) s) fun u => Beside s u ∧ u.fab = s.fab ∧ u.fstep.bits 8 4 = v.bits 8 4 ∧
      u.fstep.getLsbD 6 = v.getLsbD 6 ∧ (v.getLsbD 6 = true → u.fstep.getLsbD 7 = true) ∧
      (v.bits 0 4 ≤ 8 → (∀ j, j < 4096 → s.resident j = false) → u.fstep.bits 0 4 = v.bits 0 4) ∧
      (8 < v.bits 0 4 ∨ (∃ j, j < 4096 ∧ s.resident j = true) → u.fstep.bits 0 4 = s.fstep.bits 0 4)) ∧
    (∀ i, i < 16 → (s.fab.port i).st = .down → Gives (Machine.exec (.portEnable i) s) fun u => Beside s u ∧
      u.fab.flights = s.fab.flights ∧ u.fab.port i = { s.fab.port i with en := true, st := .training, since := s.now }) ∧
    (∀ i, i < 16 → Gives (Machine.exec (.portDisable i) s) fun u => Beside s u ∧ (u.fab.port i).st = .down ∧ (u.fab.port i).en = false ∧
      u.fab.flights = s.fab.flights.filter fun g => g.loc != .retry i) ∧
    (∀ i : Fin 8, (Gives (Machine.exec (.counterWrite i.val 0) s) fun u => Beside s u ∧ u.fab.counters[i] = 0 ∧
        ∀ j : Fin 8, j ≠ i → u.fab.counters[j] = s.fab.counters[j]) ∧
      ∀ v, v ≠ 0 → Machine.exec (.counterWrite i.val v) s = .next s) ∧
    ∀ v, Gives (Machine.exec (.hostRegisterWrite 0x20200 v) s) fun u => Beside s u ∧
      (u.die 0).seqpc = v &&& 0x01FFFFFFFFFFFFFC#64 ∧ u.die 1 = s.die 1) ∧
  (∀ off a, off / 8 * 8 = a →
    (a < 2 ^ 47 → installed a 8 = true → (∀ v, MemSound s → Gives (Machine.exec (.hostMemoryAccess off (some v)) s) fun u =>
        u.ctxs = s.ctxs ∧ memWord u.mem a = v ∧ ∀ q, q < a ∨ a + 8 ≤ q → memGet u.mem q = memGet s.mem q) ∧
      Gives (Machine.exec (.hostMemoryAccess off none) s) fun u => Beside s u ∧ u.plat.hostRead = memWord s.mem a) ∧
    (2 ^ 47 ≤ a ∨ installed a 8 = false → (∀ v, Machine.exec (.hostMemoryAccess off (some v)) s = .next s) ∧
      Gives (Machine.exec (.hostMemoryAccess off none) s) fun u => Beside s u ∧ u.plat.hostRead = 0)) ∧
  (∀ r temp stack x, r < 6 → temp < 65536 → stack < 65536 → max temp stack = x → Gives (Machine.exec (.thermalUpdate r temp stack) s) fun u =>
    Beside s u ∧ (1360 < stack → u.dblref.getLsbD r = true) ∧ (stack < 1328 → u.dblref.getLsbD r = false) ∧
    (1328 ≤ stack → stack ≤ 1360 → u.dblref.getLsbD r = s.dblref.getLsbD r) ∧ (u.therm[r]?.getD 0).bits 0 16 = x ∧
    ((u.therm[r]?.getD 0).getLsbD 32 = u.dblref.getLsbD r) ∧ (u.therm[r]?.getD 0).bits 24 8 =
      (if u.dblref.getLsbD r then min 255 ((1520 - x) / 2) / 2 else min 255 ((1520 - x) / 2)) ∧
    ∀ q, q ≠ r → u.dblref.getLsbD q = s.dblref.getLsbD q ∧ u.therm[q]? = s.therm[q]?) ∧
  (∀ above, Machine.exec (.powerMonitor above) s = .next { s with overPower := above })

/-! Reset and the invariant. -/

/-- What reset leaves, from the reset columns of R46, R48, R167, R254 to R256, R308, R348, R363, R369, R388 to R390, R399, R408, R460, R461 and
R469, and R22, R103 and R23: PSW with ASYNC alone, PCW, the fabric registers, with FTMO 22 and FSTEP.L 1, every counter, start register and
error counter zero, every port Down, every token free, every register full, every context Free; no bundle is open, and memory is in its
canonical form. The values that the spec gives no reset for, registers and memory that read as zero, are the model's choice (log entries 1
and 2). -/
def Obligations.ResetState : Prop :=
  MemSound State.reset ∧ Settled State.reset ∧ State.reset.fab.ftmo = 22 ∧ State.reset.fstep = 1 ∧ State.reset.fdev = 0 ∧
  State.reset.fab.fjobt = 0 ∧ State.reset.plat.jsavet = 0 ∧ State.reset.plat.lgal = 0 ∧ State.reset.plat.jctxt = 0 ∧
  State.reset.plat.bootstat = 0 ∧ State.reset.plat.booted = false ∧ (∀ i : Fin 8, State.reset.fab.counters[i] = 0) ∧
  (∀ i, i < 16 → (State.reset.fab.port i).st = .down ∧ (State.reset.fab.port i).en = false) ∧
  (∀ d x, d < 2 → State.reset.die d = x → x.efring = 0 ∧ x.frameb = 0 ∧ x.slip = 0 ∧ x.seqpc = 0 ∧ x.seqpt = 0 ∧ x.seqtv = 0 ∧ x.seqjid = 0 ∧
    x.records = [] ∧ ∀ i : Fin 8, x.errors[i] = 0) ∧ (∀ r, r < 6 → State.reset.therm[r]? = some 0) ∧
  (∀ n c, State.reset.ctxAt n = c → c.st = .free ∧ c.frames = 0 ∧ (∀ k, (c.getK k).busy = false ∧ (c.getK k).status = 0) ∧
    (∀ r, c.xFull r = true ∧ c.vFull r = true ∧ c.getX r = 0 ∧ c.getV r = 0) ∧ (∀ k : Fin 4, c.loops[k].active = false) ∧ c.acc = [] ∧ c.pend = [] ∧
    c.cr[0] = 0x20 ∧ c.cr[0xB] = 0x0000FFFF00000033 ∧ ∀ k : Fin 24, k.val ≠ 0 → k.val ≠ 0xB → c.cr[k] = 0) ∧
  (∀ k, (State.reset.clusterAt k).arraysOn = false) ∧ (∀ k, (State.reset.coreAt k).regions = [] ∧ (State.reset.coreAt k).slabs = []) ∧
  ∀ a, memGet State.reset.mem a = 0

/-- Whatever a step does, slot or event, in any state: memory stays in its one canonical form, addresses strictly rising and no entry
equal to what an unlisted byte reads as. -/
def Obligations.StepKeepsMemorySound : Prop := ∀ (s t : State), MemSound s → Machine.step s = .next t → MemSound t
end

