-- ==== Sys2Proof/Laws/Encode.lean ====
section
/-! SUPPORT. The fields of the words that the encoder builds, format by format, and what the S bit leaves alone (R76, R77). -/

namespace Sys2Proof

/-! Format R. -/

@[simp] theorem opField_encR (op : BitVec 7) (d a b : Reg) (wa wb : Bool) (fn : BitVec 4) : opField (encR op d a b wa wb fn) = op.toNat := by
  have h : fld (encR op d a b wa wb fn) 24 7 = op := by
    unfold encR fld
    simp (disch := omega) only [BitVec.extractLsb'_append_eq_of_le, BitVec.extractLsb'_append_eq_of_add_le, BitVec.extractLsb'_eq_self, Nat.reduceSub]
  unfold opField
  rw [h]
@[simp] theorem rD_encR (op : BitVec 7) (d a b : Reg) (wa wb : Bool) (fn : BitVec 4) : rD (encR op d a b wa wb fn) = d := by
  unfold rD encR
  simp (disch := omega) only [BitVec.extractLsb'_append_eq_of_le, BitVec.extractLsb'_append_eq_of_add_le, BitVec.extractLsb'_eq_self, Nat.reduceSub]
@[simp] theorem rA_encR (op : BitVec 7) (d a b : Reg) (wa wb : Bool) (fn : BitVec 4) : rA (encR op d a b wa wb fn) = a := by
  unfold rA encR
  simp (disch := omega) only [BitVec.extractLsb'_append_eq_of_le, BitVec.extractLsb'_append_eq_of_add_le, BitVec.extractLsb'_eq_self, Nat.reduceSub]
@[simp] theorem rB_encR (op : BitVec 7) (d a b : Reg) (wa wb : Bool) (fn : BitVec 4) : rB (encR op d a b wa wb fn) = b := by
  unfold rB encR
  simp (disch := omega) only [BitVec.extractLsb'_append_eq_of_le, BitVec.extractLsb'_append_eq_of_add_le, BitVec.extractLsb'_eq_self, Nat.reduceSub]
@[simp] theorem fWA_encR (op : BitVec 7) (d a b : Reg) (wa wb : Bool) (fn : BitVec 4) : fWA (encR op d a b wa wb fn) = wa := by
  unfold fWA encR ofB
  simp only [BitVec.getLsbD_append]
  cases wa <;> simp
@[simp] theorem fWB_encR (op : BitVec 7) (d a b : Reg) (wa wb : Bool) (fn : BitVec 4) : fWB (encR op d a b wa wb fn) = wb := by
  unfold fWB encR ofB
  simp only [BitVec.getLsbD_append]
  cases wb <;> simp
@[simp] theorem fFN_encR (op : BitVec 7) (d a b : Reg) (wa wb : Bool) (fn : BitVec 4) : fFN (encR op d a b wa wb fn) = fn := by
  unfold fFN encR
  simp (disch := omega) only [BitVec.extractLsb'_append_eq_of_add_le, BitVec.extractLsb'_eq_self]
/-! Format I. -/

@[simp] theorem opField_encI (op : BitVec 7) (d a : Reg) (wa : Bool) (imm : BitVec 11) : opField (encI op d a wa imm) = op.toNat := by
  have h : fld (encI op d a wa imm) 24 7 = op := by
    unfold encI fld
    simp (disch := omega) only [BitVec.extractLsb'_append_eq_of_le, BitVec.extractLsb'_append_eq_of_add_le, BitVec.extractLsb'_eq_self, Nat.reduceSub]
  unfold opField
  rw [h]
@[simp] theorem rD_encI (op : BitVec 7) (d a : Reg) (wa : Bool) (imm : BitVec 11) : rD (encI op d a wa imm) = d := by
  unfold rD encI
  simp (disch := omega) only [BitVec.extractLsb'_append_eq_of_le, BitVec.extractLsb'_append_eq_of_add_le, BitVec.extractLsb'_eq_self, Nat.reduceSub]
@[simp] theorem rA_encI (op : BitVec 7) (d a : Reg) (wa : Bool) (imm : BitVec 11) : rA (encI op d a wa imm) = a := by
  unfold rA encI
  simp (disch := omega) only [BitVec.extractLsb'_append_eq_of_le, BitVec.extractLsb'_append_eq_of_add_le, BitVec.extractLsb'_eq_self, Nat.reduceSub]
@[simp] theorem fWI_encI (op : BitVec 7) (d a : Reg) (wa : Bool) (imm : BitVec 11) : fWI (encI op d a wa imm) = wa := by
  unfold fWI encI ofB
  simp only [BitVec.getLsbD_append]
  cases wa <;> simp
@[simp] theorem fI11_encI (op : BitVec 7) (d a : Reg) (wa : Bool) (imm : BitVec 11) : fI11 (encI op d a wa imm) = imm := by
  unfold fI11 encI
  simp (disch := omega) only [BitVec.extractLsb'_append_eq_of_add_le, BitVec.extractLsb'_eq_self]
/-! Format U. -/

@[simp] theorem opField_encU (op : BitVec 7) (d : Reg) (imm : BitVec 18) : opField (encU op d imm) = op.toNat := by
  have h : fld (encU op d imm) 24 7 = op := by
    unfold encU fld
    simp (disch := omega) only [BitVec.extractLsb'_append_eq_of_le, BitVec.extractLsb'_append_eq_of_add_le, BitVec.extractLsb'_eq_self, Nat.reduceSub]
  unfold opField
  rw [h]
@[simp] theorem rD_encU (op : BitVec 7) (d : Reg) (imm : BitVec 18) : rD (encU op d imm) = d := by
  unfold rD encU
  simp (disch := omega) only [BitVec.extractLsb'_append_eq_of_le, BitVec.extractLsb'_append_eq_of_add_le, BitVec.extractLsb'_eq_self, Nat.reduceSub]
@[simp] theorem fI18_encU (op : BitVec 7) (d : Reg) (imm : BitVec 18) : fI18 (encU op d imm) = imm := by
  unfold fI18 encU
  simp (disch := omega) only [BitVec.extractLsb'_append_eq_of_add_le, BitVec.extractLsb'_eq_self]
/-! Format Z. -/

@[simp] theorem opField_encZ (op : BitVec 7) (d a : Reg) (imm : BitVec 12) : opField (encZ op d a imm) = op.toNat := by
  have h : fld (encZ op d a imm) 24 7 = op := by
    unfold encZ fld
    simp (disch := omega) only [BitVec.extractLsb'_append_eq_of_le, BitVec.extractLsb'_append_eq_of_add_le, BitVec.extractLsb'_eq_self, Nat.reduceSub]
  unfold opField
  rw [h]
@[simp] theorem rD_encZ (op : BitVec 7) (d a : Reg) (imm : BitVec 12) : rD (encZ op d a imm) = d := by
  unfold rD encZ
  simp (disch := omega) only [BitVec.extractLsb'_append_eq_of_le, BitVec.extractLsb'_append_eq_of_add_le, BitVec.extractLsb'_eq_self, Nat.reduceSub]
@[simp] theorem rA_encZ (op : BitVec 7) (d a : Reg) (imm : BitVec 12) : rA (encZ op d a imm) = a := by
  unfold rA encZ
  simp (disch := omega) only [BitVec.extractLsb'_append_eq_of_le, BitVec.extractLsb'_append_eq_of_add_le, BitVec.extractLsb'_eq_self, Nat.reduceSub]
@[simp] theorem fI12_encZ (op : BitVec 7) (d a : Reg) (imm : BitVec 12) : fI12 (encZ op d a imm) = imm := by
  unfold fI12 encZ
  simp (disch := omega) only [BitVec.extractLsb'_append_eq_of_add_le, BitVec.extractLsb'_eq_self]
/-! Format J. -/

@[simp] theorem opField_encJ (op : BitVec 7) (off : BitVec 24) : opField (encJ op off) = op.toNat := by
  have h : fld (encJ op off) 24 7 = op := by
    unfold encJ fld
    simp (disch := omega) only [BitVec.extractLsb'_append_eq_of_le, BitVec.extractLsb'_append_eq_of_add_le, BitVec.extractLsb'_eq_self, Nat.reduceSub]
  unfold opField
  rw [h]
@[simp] theorem fI24_encJ (op : BitVec 7) (off : BitVec 24) : fI24 (encJ op off) = off := by
  unfold fI24 encJ
  simp (disch := omega) only [BitVec.extractLsb'_append_eq_of_add_le, BitVec.extractLsb'_eq_self]
/-! Format V. -/

@[simp] theorem opField_encV (op : BitVec 7) (d a b : BitVec 6) (m : MReg) (t : BitVec 3) : opField (encV op d a b m t) = op.toNat := by
  have h : fld (encV op d a b m t) 24 7 = op := by
    unfold encV fld
    simp (disch := omega) only [BitVec.extractLsb'_append_eq_of_le, BitVec.extractLsb'_append_eq_of_add_le, BitVec.extractLsb'_eq_self, Nat.reduceSub]
  unfold opField
  rw [h]
@[simp] theorem rD_encV (op : BitVec 7) (d a b : BitVec 6) (m : MReg) (t : BitVec 3) : rD (encV op d a b m t) = d := by
  unfold rD encV
  simp (disch := omega) only [BitVec.extractLsb'_append_eq_of_le, BitVec.extractLsb'_append_eq_of_add_le, BitVec.extractLsb'_eq_self, Nat.reduceSub]
@[simp] theorem rA_encV (op : BitVec 7) (d a b : BitVec 6) (m : MReg) (t : BitVec 3) : rA (encV op d a b m t) = a := by
  unfold rA encV
  simp (disch := omega) only [BitVec.extractLsb'_append_eq_of_le, BitVec.extractLsb'_append_eq_of_add_le, BitVec.extractLsb'_eq_self, Nat.reduceSub]
@[simp] theorem rB_encV (op : BitVec 7) (d a b : BitVec 6) (m : MReg) (t : BitVec 3) : rB (encV op d a b m t) = b := by
  unfold rB encV
  simp (disch := omega) only [BitVec.extractLsb'_append_eq_of_le, BitVec.extractLsb'_append_eq_of_add_le, BitVec.extractLsb'_eq_self, Nat.reduceSub]
@[simp] theorem fMK_encV (op : BitVec 7) (d a b : BitVec 6) (m : MReg) (t : BitVec 3) : fMK (encV op d a b m t) = m := by
  unfold fMK encV
  simp (disch := omega) only [BitVec.extractLsb'_append_eq_of_le, BitVec.extractLsb'_append_eq_of_add_le, BitVec.extractLsb'_eq_self, Nat.reduceSub]
@[simp] theorem fT_encV (op : BitVec 7) (d a b : BitVec 6) (m : MReg) (t : BitVec 3) : fT (encV op d a b m t) = ETy.ofCode t := by
  have h : fld (encV op d a b m t) 0 3 = t := by
    unfold encV fld
    simp (disch := omega) only [BitVec.extractLsb'_append_eq_of_add_le, BitVec.extractLsb'_eq_self]
  unfold fT
  rw [h]
/-! Format E. -/

@[simp] theorem opField_encE (op : BitVec 7) (p : Reg) (kd ka kb kc : Tok) (fn : BitVec 2) : opField (encE op p kd ka kb kc fn) = op.toNat := by
  have h : fld (encE op p kd ka kb kc fn) 24 7 = op := by
    unfold encE fld
    simp (disch := omega) only [BitVec.extractLsb'_append_eq_of_le, BitVec.extractLsb'_append_eq_of_add_le, BitVec.extractLsb'_eq_self, Nat.reduceSub]
  unfold opField
  rw [h]
@[simp] theorem rD_encE (op : BitVec 7) (p : Reg) (kd ka kb kc : Tok) (fn : BitVec 2) : rD (encE op p kd ka kb kc fn) = p := by
  unfold rD encE
  simp (disch := omega) only [BitVec.extractLsb'_append_eq_of_le, BitVec.extractLsb'_append_eq_of_add_le, BitVec.extractLsb'_eq_self, Nat.reduceSub]
@[simp] theorem fKD_encE (op : BitVec 7) (p : Reg) (kd ka kb kc : Tok) (fn : BitVec 2) : fKD (encE op p kd ka kb kc fn) = kd := by
  unfold fKD encE
  simp (disch := omega) only [BitVec.extractLsb'_append_eq_of_le, BitVec.extractLsb'_append_eq_of_add_le, BitVec.extractLsb'_eq_self, Nat.reduceSub]
@[simp] theorem fKA_encE (op : BitVec 7) (p : Reg) (kd ka kb kc : Tok) (fn : BitVec 2) : fKA (encE op p kd ka kb kc fn) = ka := by
  unfold fKA encE
  simp (disch := omega) only [BitVec.extractLsb'_append_eq_of_le, BitVec.extractLsb'_append_eq_of_add_le, BitVec.extractLsb'_eq_self, Nat.reduceSub]
@[simp] theorem fKB_encE (op : BitVec 7) (p : Reg) (kd ka kb kc : Tok) (fn : BitVec 2) : fKB (encE op p kd ka kb kc fn) = kb := by
  unfold fKB encE
  simp (disch := omega) only [BitVec.extractLsb'_append_eq_of_le, BitVec.extractLsb'_append_eq_of_add_le, BitVec.extractLsb'_eq_self, Nat.reduceSub]
@[simp] theorem fKC_encE (op : BitVec 7) (p : Reg) (kd ka kb kc : Tok) (fn : BitVec 2) : fKC (encE op p kd ka kb kc fn) = kc := by
  unfold fKC encE
  simp (disch := omega) only [BitVec.extractLsb'_append_eq_of_le, BitVec.extractLsb'_append_eq_of_add_le, BitVec.extractLsb'_eq_self, Nat.reduceSub]
@[simp] theorem fE2_encE (op : BitVec 7) (p : Reg) (kd ka kb kc : Tok) (fn : BitVec 2) : fE2 (encE op p kd ka kb kc fn) = fn := by
  unfold fE2 encE
  simp (disch := omega) only [BitVec.extractLsb'_append_eq_of_add_le, BitVec.extractLsb'_eq_self]
/-! Format Q. -/

@[simp] theorem opField_encQ (op : BitVec 7) (c : BitVec 6) (ds as bs : BitVec 2) : opField (encQ op c ds as bs) = op.toNat := by
  have h : fld (encQ op c ds as bs) 24 7 = op := by
    unfold encQ fld
    simp (disch := omega) only [BitVec.extractLsb'_append_eq_of_le, BitVec.extractLsb'_append_eq_of_add_le, BitVec.extractLsb'_eq_self, Nat.reduceSub]
  unfold opField
  rw [h]
@[simp] theorem rD_encQ (op : BitVec 7) (c : BitVec 6) (ds as bs : BitVec 2) : rD (encQ op c ds as bs) = c := by
  unfold rD encQ
  simp (disch := omega) only [BitVec.extractLsb'_append_eq_of_le, BitVec.extractLsb'_append_eq_of_add_le, BitVec.extractLsb'_eq_self, Nat.reduceSub]
@[simp] theorem fI12_encQ (op : BitVec 7) (c : BitVec 6) (ds as bs : BitVec 2) : fI12 (encQ op c ds as bs) = 0 := by
  unfold fI12 encQ
  simp (disch := omega) only [BitVec.extractLsb'_append_eq_of_add_le, BitVec.extractLsb'_eq_self]
  rfl
@[simp] theorem fld_ds_encQ (op : BitVec 7) (c : BitVec 6) (ds as bs : BitVec 2) : fld (encQ op c ds as bs) 16 2 = ds := by
  unfold encQ
  simp (disch := omega) only [BitVec.extractLsb'_append_eq_of_le, BitVec.extractLsb'_append_eq_of_add_le, BitVec.extractLsb'_eq_self, Nat.reduceSub]
@[simp] theorem fld_as_encQ (op : BitVec 7) (c : BitVec 6) (ds as bs : BitVec 2) : fld (encQ op c ds as bs) 14 2 = as := by
  unfold encQ
  simp (disch := omega) only [BitVec.extractLsb'_append_eq_of_le, BitVec.extractLsb'_append_eq_of_add_le, BitVec.extractLsb'_eq_self, Nat.reduceSub]
@[simp] theorem fld_bs_encQ (op : BitVec 7) (c : BitVec 6) (ds as bs : BitVec 2) : fld (encQ op c ds as bs) 12 2 = bs := by
  unfold encQ
  simp (disch := omega) only [BitVec.extractLsb'_append_eq_of_le, BitVec.extractLsb'_append_eq_of_add_le, BitVec.extractLsb'_eq_self, Nat.reduceSub]

/-! The fields below a field. -/

theorem fld_fld (w : SlotWord) (lo len p q : Nat) (h : p + q ≤ len) : (fld w lo len).extractLsb' p q = fld w (lo + p) q := by
  apply BitVec.eq_of_getLsbD_eq
  intro i hi
  have : p + i < len := by omega
  simp [hi, this, Nat.add_assoc]
@[simp] theorem rB_encR_low (z : BitVec 4) (n : BitVec 2) (op : BitVec 7) (d a : Reg) (wa wb : Bool) (fn : BitVec 4) : fld (encR op d a (z ++ n) wa wb fn) 6 2 = n := by
  refine (fld_fld _ 6 6 0 2 (by decide)).symm.trans ?_
  rw [show fld (encR op d a (z ++ n) wa wb fn) 6 6 = z ++ n from rB_encR ..]
  simp (disch := omega) only [BitVec.extractLsb'_append_eq_of_add_le, BitVec.extractLsb'_eq_self]
@[simp] theorem rB_encR_high (z : BitVec 4) (n : BitVec 2) (op : BitVec 7) (d a : Reg) (wa wb : Bool) (fn : BitVec 4) : fld (encR op d a (z ++ n) wa wb fn) 8 4 = z := by
  refine (fld_fld _ 6 6 2 4 (by decide)).symm.trans ?_
  rw [show fld (encR op d a (z ++ n) wa wb fn) 6 6 = z ++ n from rB_encR ..]
  simp (disch := omega) only [BitVec.extractLsb'_append_eq_of_le, BitVec.extractLsb'_eq_self, Nat.reduceSub]
@[simp] theorem fFN_encR_low (z : BitVec 2) (n : BitVec 2) (op : BitVec 7) (d a b : Reg) (wa wb : Bool) : fld (encR op d a b wa wb (z ++ n)) 0 2 = n := by
  refine (fld_fld _ 0 4 0 2 (by decide)).symm.trans ?_
  rw [show fld (encR op d a b wa wb (z ++ n)) 0 4 = z ++ n from fFN_encR ..]
  simp (disch := omega) only [BitVec.extractLsb'_append_eq_of_add_le, BitVec.extractLsb'_eq_self]
@[simp] theorem fFN_encR_high (z : BitVec 2) (n : BitVec 2) (op : BitVec 7) (d a b : Reg) (wa wb : Bool) : fld (encR op d a b wa wb (z ++ n)) 2 2 = z := by
  refine (fld_fld _ 0 4 2 2 (by decide)).symm.trans ?_
  rw [show fld (encR op d a b wa wb (z ++ n)) 0 4 = z ++ n from fFN_encR ..]
  simp (disch := omega) only [BitVec.extractLsb'_append_eq_of_le, BitVec.extractLsb'_eq_self, Nat.reduceSub]
@[simp] theorem fI11_encI_low (z : BitVec 5) (n : BitVec 6) (op : BitVec 7) (d a : Reg) (wa : Bool) : fld (encI op d a wa (z ++ n)) 0 6 = n := by
  refine (fld_fld _ 0 11 0 6 (by decide)).symm.trans ?_
  rw [show fld (encI op d a wa (z ++ n)) 0 11 = z ++ n from fI11_encI ..]
  simp (disch := omega) only [BitVec.extractLsb'_append_eq_of_add_le, BitVec.extractLsb'_eq_self]
@[simp] theorem fI11_encI_high (z : BitVec 5) (n : BitVec 6) (op : BitVec 7) (d a : Reg) (wa : Bool) : fld (encI op d a wa (z ++ n)) 6 5 = z := by
  refine (fld_fld _ 0 11 6 5 (by decide)).symm.trans ?_
  rw [show fld (encI op d a wa (z ++ n)) 0 11 = z ++ n from fI11_encI ..]
  simp (disch := omega) only [BitVec.extractLsb'_append_eq_of_le, BitVec.extractLsb'_eq_self, Nat.reduceSub]
@[simp] theorem rA_encZ_low (z : BitVec 4) (n : BitVec 2) (op : BitVec 7) (d : Reg) (imm : BitVec 12) : fld (encZ op d (z ++ n) imm) 12 2 = n := by
  refine (fld_fld _ 12 6 0 2 (by decide)).symm.trans ?_
  rw [show fld (encZ op d (z ++ n) imm) 12 6 = z ++ n from rA_encZ ..]
  simp (disch := omega) only [BitVec.extractLsb'_append_eq_of_add_le, BitVec.extractLsb'_eq_self]
@[simp] theorem rA_encZ_high (z : BitVec 4) (n : BitVec 2) (op : BitVec 7) (d : Reg) (imm : BitVec 12) : fld (encZ op d (z ++ n) imm) 14 4 = z := by
  refine (fld_fld _ 12 6 2 4 (by decide)).symm.trans ?_
  rw [show fld (encZ op d (z ++ n) imm) 12 6 = z ++ n from rA_encZ ..]
  simp (disch := omega) only [BitVec.extractLsb'_append_eq_of_le, BitVec.extractLsb'_eq_self, Nat.reduceSub]
@[simp] theorem rD_encV_low (z : BitVec 3) (n : BitVec 3) (op : BitVec 7) (a b : Reg) (m t : BitVec 3) : fld (encV op (z ++ n) a b m t) 18 3 = n := by
  refine (fld_fld _ 18 6 0 3 (by decide)).symm.trans ?_
  rw [show fld (encV op (z ++ n) a b m t) 18 6 = z ++ n from rD_encV ..]
  simp (disch := omega) only [BitVec.extractLsb'_append_eq_of_add_le, BitVec.extractLsb'_eq_self]
@[simp] theorem rD_encV_high (z : BitVec 3) (n : BitVec 3) (op : BitVec 7) (a b : Reg) (m t : BitVec 3) : fld (encV op (z ++ n) a b m t) 21 3 = z := by
  refine (fld_fld _ 18 6 3 3 (by decide)).symm.trans ?_
  rw [show fld (encV op (z ++ n) a b m t) 18 6 = z ++ n from rD_encV ..]
  simp (disch := omega) only [BitVec.extractLsb'_append_eq_of_le, BitVec.extractLsb'_eq_self, Nat.reduceSub]
@[simp] theorem rA_encV_low (z : BitVec 3) (n : BitVec 3) (op : BitVec 7) (d b : Reg) (m t : BitVec 3) : fld (encV op d (z ++ n) b m t) 12 3 = n := by
  refine (fld_fld _ 12 6 0 3 (by decide)).symm.trans ?_
  rw [show fld (encV op d (z ++ n) b m t) 12 6 = z ++ n from rA_encV ..]
  simp (disch := omega) only [BitVec.extractLsb'_append_eq_of_add_le, BitVec.extractLsb'_eq_self]
@[simp] theorem rA_encV_high (z : BitVec 3) (n : BitVec 3) (op : BitVec 7) (d b : Reg) (m t : BitVec 3) : fld (encV op d (z ++ n) b m t) 15 3 = z := by
  refine (fld_fld _ 12 6 3 3 (by decide)).symm.trans ?_
  rw [show fld (encV op d (z ++ n) b m t) 12 6 = z ++ n from rA_encV ..]
  simp (disch := omega) only [BitVec.extractLsb'_append_eq_of_le, BitVec.extractLsb'_eq_self, Nat.reduceSub]
@[simp] theorem rB_encV_low (z : BitVec 3) (n : BitVec 3) (op : BitVec 7) (d a : Reg) (m t : BitVec 3) : fld (encV op d a (z ++ n) m t) 6 3 = n := by
  refine (fld_fld _ 6 6 0 3 (by decide)).symm.trans ?_
  rw [show fld (encV op d a (z ++ n) m t) 6 6 = z ++ n from rB_encV ..]
  simp (disch := omega) only [BitVec.extractLsb'_append_eq_of_add_le, BitVec.extractLsb'_eq_self]
@[simp] theorem rB_encV_high (z : BitVec 3) (n : BitVec 3) (op : BitVec 7) (d a : Reg) (m t : BitVec 3) : fld (encV op d a (z ++ n) m t) 9 3 = z := by
  refine (fld_fld _ 6 6 3 3 (by decide)).symm.trans ?_
  rw [show fld (encV op d a (z ++ n) m t) 6 6 = z ++ n from rB_encV ..]
  simp (disch := omega) only [BitVec.extractLsb'_append_eq_of_le, BitVec.extractLsb'_eq_self, Nat.reduceSub]
@[simp] theorem order_encR (op : BitVec 7) (d a b : Reg) (wa wb : Bool) (fn : BitVec 4) :
    fld (encR op d a b wa wb fn) 4 2 = ofB wa ++ ofB wb := by
  unfold fld encR
  simp (disch := omega) only [BitVec.extractLsb'_append_eq_of_le, Nat.reduceSub]
  apply BitVec.eq_of_getLsbD_eq
  intro i hi
  match i, hi with
  | 0, _ => simp only [BitVec.getLsbD_extractLsb', BitVec.getLsbD_append]; rfl
  | 1, _ => simp only [BitVec.getLsbD_extractLsb', BitVec.getLsbD_append]; rfl
@[simp] theorem fence_scope (op : BitVec 7) (d a : Reg) (z : BitVec 7) (e : Bool) (k n : BitVec 2) :
    fld (encZ op d a (z ++ ofB e ++ k ++ n)) 0 2 = n := by
  unfold fld encZ
  simp (disch := omega) only [BitVec.extractLsb'_append_eq_of_add_le, BitVec.extractLsb'_eq_self]
@[simp] theorem fence_kind (op : BitVec 7) (d a : Reg) (z : BitVec 7) (e : Bool) (k n : BitVec 2) :
    fld (encZ op d a (z ++ ofB e ++ k ++ n)) 2 2 = k := by
  unfold fld encZ
  simp (disch := omega) only [BitVec.extractLsb'_append_eq_of_le, BitVec.extractLsb'_append_eq_of_add_le, BitVec.extractLsb'_eq_self, Nat.reduceSub]
@[simp] theorem fence_zero (op : BitVec 7) (d a : Reg) (z : BitVec 7) (e : Bool) (k n : BitVec 2) :
    fld (encZ op d a (z ++ ofB e ++ k ++ n)) 5 7 = z := by
  unfold fld encZ
  simp (disch := omega) only [BitVec.extractLsb'_append_eq_of_le, BitVec.extractLsb'_append_eq_of_add_le, BitVec.extractLsb'_eq_self, Nat.reduceSub]
@[simp] theorem fence_held (op : BitVec 7) (d a : Reg) (z : BitVec 7) (e : Bool) (k n : BitVec 2) :
    (encZ op d a (z ++ ofB e ++ k ++ n))[4] = e := by
  rw [← BitVec.getLsbD_eq_getElem]
  unfold encZ ofB
  simp only [BitVec.getLsbD_append]
  cases e <;> simp


/-! Selectors and their codes. -/

@[simp] theorem ETy.ofCode_code (x : ETy) : ETy.ofCode x.code = x := by cases x <;> rfl
@[simp] theorem Scope.ofCode_code (x : Scope) : Scope.ofCode x.code = x := by cases x <;> rfl
@[simp] theorem WCond.ofCode_code (x : WCond) : WCond.ofCode x.code = x := by cases x <;> rfl
@[simp] theorem Width.ofCode_code (x : Width) : Width.ofCode x.code = x := by cases x <;> rfl
@[simp] theorem VCond.ofCode_code (x : VCond) : VCond.ofCode x.code = x := by cases x <;> rfl
@[simp] theorem AmoOrd.ofCode_code (x : AmoOrd) : AmoOrd.ofCode x.code = x := by cases x <;> rfl
@[simp] theorem RMode.ofCode_code (x : RMode) : RMode.ofCode x.code = some x := by cases x <;> rfl
@[simp] theorem SFn.ofCode_code (x : SFn) : SFn.ofCode x.code = some x := by cases x <;> rfl
@[simp] theorem RedOp.ofCode_code (x : RedOp) : RedOp.ofCode x.code = some x := by cases x <;> rfl
@[simp] theorem BitOp.ofCode_code (x : BitOp) : BitOp.ofCode x.code = some x := by cases x <;> rfl
@[simp] theorem MaskOp.ofCode_code (x : MaskOp) : MaskOp.ofCode x.code = some x := by cases x <;> rfl
@[simp] theorem AmoFn.ofCode_code (x : AmoFn) : AmoFn.ofCode x.code = some x := by cases x <;> rfl
@[simp] theorem FenceKind.ofCode_code (x : FenceKind) : FenceKind.ofCode x.code = some x := by cases x <;> rfl

@[simp] theorem AmoOrd.ofCode_bits (x : AmoOrd) : AmoOrd.ofCode (ofB x.code[1] ++ ofB x.code[0]) = x := by cases x <;> rfl
@[simp] theorem low_encV (op : BitVec 7) (d a b : BitVec 6) (m t : BitVec 3) : fld (encV op d a b m t) 0 6 = m ++ t := by
  unfold fld encV
  rw [BitVec.append_assoc]
  apply BitVec.eq_of_getLsbD_eq
  intro i hi
  simp only [BitVec.getLsbD_extractLsb', BitVec.getLsbD_cast, BitVec.getLsbD_append]
  simp [hi]

/-! The S bit. -/

theorem fld_orS (w : SlotWord) (lo len : Nat) (h : lo + len ≤ 31) : fld (w ||| 0x80000000#32) lo len = fld w lo len := by
  apply BitVec.eq_of_getLsbD_eq
  intro i hi
  simp only [BitVec.getLsbD_extractLsb', BitVec.getLsbD_or, hi, decide_true, Bool.true_and]
  have : (0x80000000#32).getLsbD (lo + i) = false := by
    rw [show (0x80000000#32) = BitVec.twoPow 32 31 from rfl, BitVec.getLsbD_twoPow]
    simp
    omega
  rw [this, Bool.or_false]

theorem bit_orS (w : SlotWord) (i : Nat) (h : i < 31) : (w ||| 0x80000000#32).getLsbD i = w.getLsbD i := by
  rw [BitVec.getLsbD_or, show (0x80000000#32) = BitVec.twoPow 32 31 from rfl, BitVec.getLsbD_twoPow]
  simp
  omega

theorem rD_orS (w : SlotWord) : rD (w ||| 0x80000000#32) = rD w := fld_orS w _ _ (by decide)
theorem rA_orS (w : SlotWord) : rA (w ||| 0x80000000#32) = rA w := fld_orS w _ _ (by decide)
theorem rB_orS (w : SlotWord) : rB (w ||| 0x80000000#32) = rB w := fld_orS w _ _ (by decide)
theorem fFN_orS (w : SlotWord) : fFN (w ||| 0x80000000#32) = fFN w := fld_orS w _ _ (by decide)
theorem fI11_orS (w : SlotWord) : fI11 (w ||| 0x80000000#32) = fI11 w := fld_orS w _ _ (by decide)
theorem fI12_orS (w : SlotWord) : fI12 (w ||| 0x80000000#32) = fI12 w := fld_orS w _ _ (by decide)
theorem fI18_orS (w : SlotWord) : fI18 (w ||| 0x80000000#32) = fI18 w := fld_orS w _ _ (by decide)
theorem fI24_orS (w : SlotWord) : fI24 (w ||| 0x80000000#32) = fI24 w := fld_orS w _ _ (by decide)
theorem fMK_orS (w : SlotWord) : fMK (w ||| 0x80000000#32) = fMK w := fld_orS w _ _ (by decide)
theorem fKD_orS (w : SlotWord) : fKD (w ||| 0x80000000#32) = fKD w := fld_orS w _ _ (by decide)
theorem fKA_orS (w : SlotWord) : fKA (w ||| 0x80000000#32) = fKA w := fld_orS w _ _ (by decide)
theorem fKB_orS (w : SlotWord) : fKB (w ||| 0x80000000#32) = fKB w := fld_orS w _ _ (by decide)
theorem fKC_orS (w : SlotWord) : fKC (w ||| 0x80000000#32) = fKC w := fld_orS w _ _ (by decide)
theorem fE2_orS (w : SlotWord) : fE2 (w ||| 0x80000000#32) = fE2 w := fld_orS w _ _ (by decide)
theorem fWA_orS (w : SlotWord) : fWA (w ||| 0x80000000#32) = fWA w := bit_orS w _ (by decide)
theorem fWB_orS (w : SlotWord) : fWB (w ||| 0x80000000#32) = fWB w := bit_orS w _ (by decide)
theorem fWI_orS (w : SlotWord) : fWI (w ||| 0x80000000#32) = fWI w := bit_orS w _ (by decide)
theorem opField_orS (w : SlotWord) : opField (w ||| 0x80000000#32) = opField w := by
  unfold opField
  rw [fld_orS w _ _ (by decide)]
theorem fT_orS (w : SlotWord) : fT (w ||| 0x80000000#32) = fT w := by
  unfold fT
  rw [fld_orS w _ _ (by decide)]

theorem needZero_orS (w : SlotWord) (z : Bool) (i : Instr) : needZero (w ||| 0x80000000#32) z i = needZero w z i := by
  unfold needZero
  rw [opField_orS]
theorem needSel_orS {α : Type} (w : SlotWord) (n : Nat) (o : Option α) (f : α → Except DecodeError Instr) :
    needSel (w ||| 0x80000000#32) n o f = needSel w n o f := by
  unfold needSel
  rw [opField_orS]
theorem decodeAlu_orS (w : SlotWord) : decodeAlu (w ||| 0x80000000#32) = decodeAlu w := by
  unfold decodeAlu
  simp (disch := decide) only [rD_orS, rA_orS, rB_orS, fFN_orS, 
    fWA_orS, fWB_orS]
theorem decodeMul_orS (w : SlotWord) : decodeMul (w ||| 0x80000000#32) = decodeMul w := by
  unfold decodeMul
  simp (disch := decide) only [needZero_orS, rD_orS, rA_orS, rB_orS, fFN_orS, 
    fWA_orS, fWB_orS, fld_orS]
theorem decodeE_orS (w : SlotWord) (mk : Reg → Tok → Tok → Tok → Tok → Instr) : decodeE (w ||| 0x80000000#32) mk = decodeE w mk := by
  unfold decodeE
  simp (disch := decide) only [needZero_orS, rD_orS, fKD_orS, fKA_orS, fKB_orS, fKC_orS,
    fE2_orS]
theorem decodeAmo_orS (w : SlotWord) (mk : Reg → Reg → Reg → AmoOrd → AmoFn → Instr) : decodeAmo (w ||| 0x80000000#32) mk = decodeAmo w mk := by
  unfold decodeAmo
  simp (disch := decide) only [needSel_orS, rD_orS, rA_orS, rB_orS, fFN_orS, 
    fld_orS]
theorem decodeNSC_orS (w : SlotWord) : decodeNSC (w ||| 0x80000000#32) = decodeNSC w := by
  unfold decodeNSC
  simp (disch := decide) only [needZero_orS, decodeAlu_orS, decodeMul_orS, opField_orS, rD_orS, rA_orS, rB_orS, fFN_orS, fI11_orS, fI12_orS, fI18_orS, fI24_orS, fKD_orS, fKA_orS, fKB_orS, fKC_orS,
    fE2_orS, fWA_orS, fWB_orS, fWI_orS, fld_orS]
theorem decodeV_orS (w : SlotWord) : decodeV (w ||| 0x80000000#32) = decodeV w := by
  unfold decodeV
  simp (disch := decide) only [needZero_orS, needSel_orS, opField_orS, rD_orS, rA_orS, rB_orS, fMK_orS, 
    fT_orS, fld_orS]
theorem decodeXL_orS (w : SlotWord) : decodeXL (w ||| 0x80000000#32) = decodeXL w := by
  unfold decodeXL
  simp (disch := decide) only [needZero_orS, needSel_orS, decodeE_orS, decodeAmo_orS, opField_orS, rD_orS, rA_orS, rB_orS, fFN_orS, fI11_orS, 
    fWA_orS, fWB_orS, fWI_orS, fld_orS, bit_orS]
theorem decodeEZ_orS (w : SlotWord) : decodeEZ (w ||| 0x80000000#32) = decodeEZ w := by
  unfold decodeEZ
  simp (disch := decide) only [needZero_orS, decodeE_orS, opField_orS, rD_orS, rA_orS, rB_orS, fFN_orS, fI12_orS, fKD_orS, fKA_orS, fKB_orS, fKC_orS,
    fE2_orS, fWA_orS, fWB_orS]

/-- Decoding does not look at the S bit. -/
theorem decode_orS (w : SlotWord) : decode (w ||| 0x80000000#32) = decode w := by
  unfold decode
  rw [opField_orS, decodeNSC_orS, decodeV_orS, decodeXL_orS, decodeEZ_orS]

theorem decode_of_encode {i : Instr} {v : SlotWord} (he : encode i = some v) (hd : decode v = .ok i) :
    ∀ s w, encodeS s i = some w → decode w = .ok i := by
  intro s w h
  unfold encodeS at h
  rw [he] at h
  cases s
  · injection h with h; rw [← h]; exact hd
  · injection h with h; rw [← h]; exact (decode_orS v).trans hd

end Sys2Proof
end

