-- ==== Sys2Proof/Laws/State.lean ====
section
/-! SUPPORT. The small lemmas of the updates of State and Ctx: what each update leaves, one lemma per field, true by unfolding, and
what the accessors of agents, cores, clusters, units and registers give after an update. -/

namespace Sys2Proof.Machine

/-! Maps: a read after a write of the same key gives the value written, and a write leaves every other key alone. -/

theorem mapGet_mapSet_self {α : Type} (d : α) (l : List (Nat × α)) (n : Nat) (x : α) : mapGet d (mapSet l n x) n = x := by
  induction l with
  | nil => simp [mapSet, mapGet]
  | cons p t ih =>
    obtain ⟨k, v⟩ := p
    simp only [mapSet]
    split
    · simp [mapGet]
    · split
      · simp [mapGet]
      · rename_i h1 h2
        simp [mapGet, h1, h2, ih]

theorem mapGet_mapSet_ne {α : Type} (d : α) (l : List (Nat × α)) (n k : Nat) (x : α) (h : k ≠ n) :
    mapGet d (mapSet l n x) k = mapGet d l k := by
  induction l with
  | nil => simp [mapSet, mapGet, h]
  | cons p t ih =>
    obtain ⟨j, v⟩ := p
    simp only [mapSet]
    split
    · rename_i h1
      simp only [mapGet, h, if_false]
      split
      · rename_i h2
        have h3 : ¬ k = j := by omega
        have h4 : k < j := by omega
        simp [h3, h4]
      · rfl
    · split
      · rename_i h1 h2
        subst h2
        simp [mapGet, h]
      · simp [mapGet, ih]

/-! State. -/

@[simp] theorem State.setCtx_now (s : State) (n : Nat) (c : Ctx) : (s.setCtx n c).now = s.now := rfl
@[simp] theorem State.setCtx_cyc (s : State) (n : Nat) (c : Ctx) : (s.setCtx n c).cyc = s.cyc := rfl
@[simp] theorem State.setCtx_mem (s : State) (n : Nat) (c : Ctx) : (s.setCtx n c).mem = s.mem := rfl
@[simp] theorem State.setCtx_poison (s : State) (n : Nat) (c : Ctx) : (s.setCtx n c).poison = s.poison := rfl
@[simp] theorem State.setCtx_pw (s : State) (n : Nat) (c : Ctx) : (s.setCtx n c).pw = s.pw := rfl
@[simp] theorem State.setCtx_rw (s : State) (n : Nat) (c : Ctx) : (s.setCtx n c).rw = s.rw := rfl
@[simp] theorem State.setCtx_uo (s : State) (n : Nat) (c : Ctx) : (s.setCtx n c).uo = s.uo := rfl
@[simp] theorem State.setCtx_early (s : State) (n : Nat) (c : Ctx) : (s.setCtx n c).early = s.early := rfl
@[simp] theorem State.setCtx_cores (s : State) (n : Nat) (c : Ctx) : (s.setCtx n c).cores = s.cores := rfl
@[simp] theorem State.setCtx_clusters (s : State) (n : Nat) (c : Ctx) : (s.setCtx n c).clusters = s.clusters := rfl
@[simp] theorem State.setCtx_tasks (s : State) (n : Nat) (c : Ctx) : (s.setCtx n c).tasks = s.tasks := rfl
@[simp] theorem State.setCtx_bars (s : State) (n : Nat) (c : Ctx) : (s.setCtx n c).bars = s.bars := rfl
@[simp] theorem State.setCtx_cmds (s : State) (n : Nat) (c : Ctx) : (s.setCtx n c).cmds = s.cmds := rfl
@[simp] theorem State.setCtx_nextId (s : State) (n : Nat) (c : Ctx) : (s.setCtx n c).nextId = s.nextId := rfl
@[simp] theorem State.setCtx_handle (s : State) (n : Nat) (c : Ctx) : (s.setCtx n c).handle = s.handle := rfl
@[simp] theorem State.setCtx_fdev (s : State) (n : Nat) (c : Ctx) : (s.setCtx n c).fdev = s.fdev := rfl
@[simp] theorem State.setCtx_fstep (s : State) (n : Nat) (c : Ctx) : (s.setCtx n c).fstep = s.fstep := rfl
@[simp] theorem State.setCtx_therm (s : State) (n : Nat) (c : Ctx) : (s.setCtx n c).therm = s.therm := rfl
@[simp] theorem State.setCtx_overPower (s : State) (n : Nat) (c : Ctx) : (s.setCtx n c).overPower = s.overPower := rfl
@[simp] theorem State.setCtx_lastGrant (s : State) (n : Nat) (c : Ctx) : (s.setCtx n c).lastGrant = s.lastGrant := rfl
@[simp] theorem State.setCtx_units (s : State) (n : Nat) (c : Ctx) : (s.setCtx n c).units = s.units := rfl
@[simp] theorem State.setCtx_dies (s : State) (n : Nat) (c : Ctx) : (s.setCtx n c).dies = s.dies := rfl
@[simp] theorem State.setCtx_launches (s : State) (n : Nat) (c : Ctx) : (s.setCtx n c).launches = s.launches := rfl
@[simp] theorem State.setCtx_shares (s : State) (n : Nat) (c : Ctx) : (s.setCtx n c).shares = s.shares := rfl
@[simp] theorem State.setCtx_fab (s : State) (n : Nat) (c : Ctx) : (s.setCtx n c).fab = s.fab := rfl
@[simp] theorem State.setCtx_jobs (s : State) (n : Nat) (c : Ctx) : (s.setCtx n c).jobs = s.jobs := rfl
@[simp] theorem State.setCtx_plat (s : State) (n : Nat) (c : Ctx) : (s.setCtx n c).plat = s.plat := rfl
@[simp] theorem State.setCtx_dblref (s : State) (n : Nat) (c : Ctx) : (s.setCtx n c).dblref = s.dblref := rfl
@[simp] theorem State.setCtx_sched (s : State) (n : Nat) (c : Ctx) : (s.setCtx n c).sched = s.sched := rfl
@[simp] theorem State.setCtx_cur (s : State) (n : Nat) (c : Ctx) : (s.setCtx n c).cur = s.cur := rfl
@[simp] theorem State.setCtx_iss (s : State) (n : Nat) (c : Ctx) : (s.setCtx n c).iss = s.iss := rfl
@[simp] theorem State.setCtx_free (s : State) (n : Nat) (c : Ctx) : (s.setCtx n c).free = s.free := rfl

@[simp] theorem State.modCtx_now (s : State) (n : Nat) (f : Ctx → Ctx) : (s.modCtx n f).now = s.now := rfl
@[simp] theorem State.modCtx_cyc (s : State) (n : Nat) (f : Ctx → Ctx) : (s.modCtx n f).cyc = s.cyc := rfl
@[simp] theorem State.modCtx_mem (s : State) (n : Nat) (f : Ctx → Ctx) : (s.modCtx n f).mem = s.mem := rfl
@[simp] theorem State.modCtx_poison (s : State) (n : Nat) (f : Ctx → Ctx) : (s.modCtx n f).poison = s.poison := rfl
@[simp] theorem State.modCtx_pw (s : State) (n : Nat) (f : Ctx → Ctx) : (s.modCtx n f).pw = s.pw := rfl
@[simp] theorem State.modCtx_rw (s : State) (n : Nat) (f : Ctx → Ctx) : (s.modCtx n f).rw = s.rw := rfl
@[simp] theorem State.modCtx_uo (s : State) (n : Nat) (f : Ctx → Ctx) : (s.modCtx n f).uo = s.uo := rfl
@[simp] theorem State.modCtx_early (s : State) (n : Nat) (f : Ctx → Ctx) : (s.modCtx n f).early = s.early := rfl
@[simp] theorem State.modCtx_cores (s : State) (n : Nat) (f : Ctx → Ctx) : (s.modCtx n f).cores = s.cores := rfl
@[simp] theorem State.modCtx_clusters (s : State) (n : Nat) (f : Ctx → Ctx) : (s.modCtx n f).clusters = s.clusters := rfl
@[simp] theorem State.modCtx_tasks (s : State) (n : Nat) (f : Ctx → Ctx) : (s.modCtx n f).tasks = s.tasks := rfl
@[simp] theorem State.modCtx_bars (s : State) (n : Nat) (f : Ctx → Ctx) : (s.modCtx n f).bars = s.bars := rfl
@[simp] theorem State.modCtx_cmds (s : State) (n : Nat) (f : Ctx → Ctx) : (s.modCtx n f).cmds = s.cmds := rfl
@[simp] theorem State.modCtx_nextId (s : State) (n : Nat) (f : Ctx → Ctx) : (s.modCtx n f).nextId = s.nextId := rfl
@[simp] theorem State.modCtx_handle (s : State) (n : Nat) (f : Ctx → Ctx) : (s.modCtx n f).handle = s.handle := rfl
@[simp] theorem State.modCtx_fdev (s : State) (n : Nat) (f : Ctx → Ctx) : (s.modCtx n f).fdev = s.fdev := rfl
@[simp] theorem State.modCtx_fstep (s : State) (n : Nat) (f : Ctx → Ctx) : (s.modCtx n f).fstep = s.fstep := rfl
@[simp] theorem State.modCtx_therm (s : State) (n : Nat) (f : Ctx → Ctx) : (s.modCtx n f).therm = s.therm := rfl
@[simp] theorem State.modCtx_overPower (s : State) (n : Nat) (f : Ctx → Ctx) : (s.modCtx n f).overPower = s.overPower := rfl
@[simp] theorem State.modCtx_lastGrant (s : State) (n : Nat) (f : Ctx → Ctx) : (s.modCtx n f).lastGrant = s.lastGrant := rfl
@[simp] theorem State.modCtx_units (s : State) (n : Nat) (f : Ctx → Ctx) : (s.modCtx n f).units = s.units := rfl
@[simp] theorem State.modCtx_dies (s : State) (n : Nat) (f : Ctx → Ctx) : (s.modCtx n f).dies = s.dies := rfl
@[simp] theorem State.modCtx_launches (s : State) (n : Nat) (f : Ctx → Ctx) : (s.modCtx n f).launches = s.launches := rfl
@[simp] theorem State.modCtx_shares (s : State) (n : Nat) (f : Ctx → Ctx) : (s.modCtx n f).shares = s.shares := rfl
@[simp] theorem State.modCtx_fab (s : State) (n : Nat) (f : Ctx → Ctx) : (s.modCtx n f).fab = s.fab := rfl
@[simp] theorem State.modCtx_jobs (s : State) (n : Nat) (f : Ctx → Ctx) : (s.modCtx n f).jobs = s.jobs := rfl
@[simp] theorem State.modCtx_plat (s : State) (n : Nat) (f : Ctx → Ctx) : (s.modCtx n f).plat = s.plat := rfl
@[simp] theorem State.modCtx_dblref (s : State) (n : Nat) (f : Ctx → Ctx) : (s.modCtx n f).dblref = s.dblref := rfl
@[simp] theorem State.modCtx_sched (s : State) (n : Nat) (f : Ctx → Ctx) : (s.modCtx n f).sched = s.sched := rfl
@[simp] theorem State.modCtx_cur (s : State) (n : Nat) (f : Ctx → Ctx) : (s.modCtx n f).cur = s.cur := rfl
@[simp] theorem State.modCtx_iss (s : State) (n : Nat) (f : Ctx → Ctx) : (s.modCtx n f).iss = s.iss := rfl
@[simp] theorem State.modCtx_free (s : State) (n : Nat) (f : Ctx → Ctx) : (s.modCtx n f).free = s.free := rfl

@[simp] theorem State.setCore_now (s : State) (n : Nat) (c : CoreSt) : (s.setCore n c).now = s.now := rfl
@[simp] theorem State.setCore_cyc (s : State) (n : Nat) (c : CoreSt) : (s.setCore n c).cyc = s.cyc := rfl
@[simp] theorem State.setCore_mem (s : State) (n : Nat) (c : CoreSt) : (s.setCore n c).mem = s.mem := rfl
@[simp] theorem State.setCore_poison (s : State) (n : Nat) (c : CoreSt) : (s.setCore n c).poison = s.poison := rfl
@[simp] theorem State.setCore_pw (s : State) (n : Nat) (c : CoreSt) : (s.setCore n c).pw = s.pw := rfl
@[simp] theorem State.setCore_rw (s : State) (n : Nat) (c : CoreSt) : (s.setCore n c).rw = s.rw := rfl
@[simp] theorem State.setCore_uo (s : State) (n : Nat) (c : CoreSt) : (s.setCore n c).uo = s.uo := rfl
@[simp] theorem State.setCore_early (s : State) (n : Nat) (c : CoreSt) : (s.setCore n c).early = s.early := rfl
@[simp] theorem State.setCore_ctxs (s : State) (n : Nat) (c : CoreSt) : (s.setCore n c).ctxs = s.ctxs := rfl
@[simp] theorem State.setCore_clusters (s : State) (n : Nat) (c : CoreSt) : (s.setCore n c).clusters = s.clusters := rfl
@[simp] theorem State.setCore_tasks (s : State) (n : Nat) (c : CoreSt) : (s.setCore n c).tasks = s.tasks := rfl
@[simp] theorem State.setCore_bars (s : State) (n : Nat) (c : CoreSt) : (s.setCore n c).bars = s.bars := rfl
@[simp] theorem State.setCore_cmds (s : State) (n : Nat) (c : CoreSt) : (s.setCore n c).cmds = s.cmds := rfl
@[simp] theorem State.setCore_nextId (s : State) (n : Nat) (c : CoreSt) : (s.setCore n c).nextId = s.nextId := rfl
@[simp] theorem State.setCore_handle (s : State) (n : Nat) (c : CoreSt) : (s.setCore n c).handle = s.handle := rfl
@[simp] theorem State.setCore_fdev (s : State) (n : Nat) (c : CoreSt) : (s.setCore n c).fdev = s.fdev := rfl
@[simp] theorem State.setCore_fstep (s : State) (n : Nat) (c : CoreSt) : (s.setCore n c).fstep = s.fstep := rfl
@[simp] theorem State.setCore_therm (s : State) (n : Nat) (c : CoreSt) : (s.setCore n c).therm = s.therm := rfl
@[simp] theorem State.setCore_overPower (s : State) (n : Nat) (c : CoreSt) : (s.setCore n c).overPower = s.overPower := rfl
@[simp] theorem State.setCore_lastGrant (s : State) (n : Nat) (c : CoreSt) : (s.setCore n c).lastGrant = s.lastGrant := rfl
@[simp] theorem State.setCore_units (s : State) (n : Nat) (c : CoreSt) : (s.setCore n c).units = s.units := rfl
@[simp] theorem State.setCore_dies (s : State) (n : Nat) (c : CoreSt) : (s.setCore n c).dies = s.dies := rfl
@[simp] theorem State.setCore_launches (s : State) (n : Nat) (c : CoreSt) : (s.setCore n c).launches = s.launches := rfl
@[simp] theorem State.setCore_shares (s : State) (n : Nat) (c : CoreSt) : (s.setCore n c).shares = s.shares := rfl
@[simp] theorem State.setCore_fab (s : State) (n : Nat) (c : CoreSt) : (s.setCore n c).fab = s.fab := rfl
@[simp] theorem State.setCore_jobs (s : State) (n : Nat) (c : CoreSt) : (s.setCore n c).jobs = s.jobs := rfl
@[simp] theorem State.setCore_plat (s : State) (n : Nat) (c : CoreSt) : (s.setCore n c).plat = s.plat := rfl
@[simp] theorem State.setCore_dblref (s : State) (n : Nat) (c : CoreSt) : (s.setCore n c).dblref = s.dblref := rfl
@[simp] theorem State.setCore_sched (s : State) (n : Nat) (c : CoreSt) : (s.setCore n c).sched = s.sched := rfl
@[simp] theorem State.setCore_cur (s : State) (n : Nat) (c : CoreSt) : (s.setCore n c).cur = s.cur := rfl
@[simp] theorem State.setCore_iss (s : State) (n : Nat) (c : CoreSt) : (s.setCore n c).iss = s.iss := rfl
@[simp] theorem State.setCore_free (s : State) (n : Nat) (c : CoreSt) : (s.setCore n c).free = s.free := rfl

@[simp] theorem State.modCore_now (s : State) (n : Nat) (f : CoreSt → CoreSt) : (s.modCore n f).now = s.now := rfl
@[simp] theorem State.modCore_cyc (s : State) (n : Nat) (f : CoreSt → CoreSt) : (s.modCore n f).cyc = s.cyc := rfl
@[simp] theorem State.modCore_mem (s : State) (n : Nat) (f : CoreSt → CoreSt) : (s.modCore n f).mem = s.mem := rfl
@[simp] theorem State.modCore_poison (s : State) (n : Nat) (f : CoreSt → CoreSt) : (s.modCore n f).poison = s.poison := rfl
@[simp] theorem State.modCore_pw (s : State) (n : Nat) (f : CoreSt → CoreSt) : (s.modCore n f).pw = s.pw := rfl
@[simp] theorem State.modCore_rw (s : State) (n : Nat) (f : CoreSt → CoreSt) : (s.modCore n f).rw = s.rw := rfl
@[simp] theorem State.modCore_uo (s : State) (n : Nat) (f : CoreSt → CoreSt) : (s.modCore n f).uo = s.uo := rfl
@[simp] theorem State.modCore_early (s : State) (n : Nat) (f : CoreSt → CoreSt) : (s.modCore n f).early = s.early := rfl
@[simp] theorem State.modCore_ctxs (s : State) (n : Nat) (f : CoreSt → CoreSt) : (s.modCore n f).ctxs = s.ctxs := rfl
@[simp] theorem State.modCore_clusters (s : State) (n : Nat) (f : CoreSt → CoreSt) : (s.modCore n f).clusters = s.clusters := rfl
@[simp] theorem State.modCore_tasks (s : State) (n : Nat) (f : CoreSt → CoreSt) : (s.modCore n f).tasks = s.tasks := rfl
@[simp] theorem State.modCore_bars (s : State) (n : Nat) (f : CoreSt → CoreSt) : (s.modCore n f).bars = s.bars := rfl
@[simp] theorem State.modCore_cmds (s : State) (n : Nat) (f : CoreSt → CoreSt) : (s.modCore n f).cmds = s.cmds := rfl
@[simp] theorem State.modCore_nextId (s : State) (n : Nat) (f : CoreSt → CoreSt) : (s.modCore n f).nextId = s.nextId := rfl
@[simp] theorem State.modCore_handle (s : State) (n : Nat) (f : CoreSt → CoreSt) : (s.modCore n f).handle = s.handle := rfl
@[simp] theorem State.modCore_fdev (s : State) (n : Nat) (f : CoreSt → CoreSt) : (s.modCore n f).fdev = s.fdev := rfl
@[simp] theorem State.modCore_fstep (s : State) (n : Nat) (f : CoreSt → CoreSt) : (s.modCore n f).fstep = s.fstep := rfl
@[simp] theorem State.modCore_therm (s : State) (n : Nat) (f : CoreSt → CoreSt) : (s.modCore n f).therm = s.therm := rfl
@[simp] theorem State.modCore_overPower (s : State) (n : Nat) (f : CoreSt → CoreSt) : (s.modCore n f).overPower = s.overPower := rfl
@[simp] theorem State.modCore_lastGrant (s : State) (n : Nat) (f : CoreSt → CoreSt) : (s.modCore n f).lastGrant = s.lastGrant := rfl
@[simp] theorem State.modCore_units (s : State) (n : Nat) (f : CoreSt → CoreSt) : (s.modCore n f).units = s.units := rfl
@[simp] theorem State.modCore_dies (s : State) (n : Nat) (f : CoreSt → CoreSt) : (s.modCore n f).dies = s.dies := rfl
@[simp] theorem State.modCore_launches (s : State) (n : Nat) (f : CoreSt → CoreSt) : (s.modCore n f).launches = s.launches := rfl
@[simp] theorem State.modCore_shares (s : State) (n : Nat) (f : CoreSt → CoreSt) : (s.modCore n f).shares = s.shares := rfl
@[simp] theorem State.modCore_fab (s : State) (n : Nat) (f : CoreSt → CoreSt) : (s.modCore n f).fab = s.fab := rfl
@[simp] theorem State.modCore_jobs (s : State) (n : Nat) (f : CoreSt → CoreSt) : (s.modCore n f).jobs = s.jobs := rfl
@[simp] theorem State.modCore_plat (s : State) (n : Nat) (f : CoreSt → CoreSt) : (s.modCore n f).plat = s.plat := rfl
@[simp] theorem State.modCore_dblref (s : State) (n : Nat) (f : CoreSt → CoreSt) : (s.modCore n f).dblref = s.dblref := rfl
@[simp] theorem State.modCore_sched (s : State) (n : Nat) (f : CoreSt → CoreSt) : (s.modCore n f).sched = s.sched := rfl
@[simp] theorem State.modCore_cur (s : State) (n : Nat) (f : CoreSt → CoreSt) : (s.modCore n f).cur = s.cur := rfl
@[simp] theorem State.modCore_iss (s : State) (n : Nat) (f : CoreSt → CoreSt) : (s.modCore n f).iss = s.iss := rfl
@[simp] theorem State.modCore_free (s : State) (n : Nat) (f : CoreSt → CoreSt) : (s.modCore n f).free = s.free := rfl

@[simp] theorem State.setCluster_now (s : State) (n : Nat) (c : ClusterSt) : (s.setCluster n c).now = s.now := rfl
@[simp] theorem State.setCluster_cyc (s : State) (n : Nat) (c : ClusterSt) : (s.setCluster n c).cyc = s.cyc := rfl
@[simp] theorem State.setCluster_mem (s : State) (n : Nat) (c : ClusterSt) : (s.setCluster n c).mem = s.mem := rfl
@[simp] theorem State.setCluster_poison (s : State) (n : Nat) (c : ClusterSt) : (s.setCluster n c).poison = s.poison := rfl
@[simp] theorem State.setCluster_pw (s : State) (n : Nat) (c : ClusterSt) : (s.setCluster n c).pw = s.pw := rfl
@[simp] theorem State.setCluster_rw (s : State) (n : Nat) (c : ClusterSt) : (s.setCluster n c).rw = s.rw := rfl
@[simp] theorem State.setCluster_uo (s : State) (n : Nat) (c : ClusterSt) : (s.setCluster n c).uo = s.uo := rfl
@[simp] theorem State.setCluster_early (s : State) (n : Nat) (c : ClusterSt) : (s.setCluster n c).early = s.early := rfl
@[simp] theorem State.setCluster_ctxs (s : State) (n : Nat) (c : ClusterSt) : (s.setCluster n c).ctxs = s.ctxs := rfl
@[simp] theorem State.setCluster_cores (s : State) (n : Nat) (c : ClusterSt) : (s.setCluster n c).cores = s.cores := rfl
@[simp] theorem State.setCluster_tasks (s : State) (n : Nat) (c : ClusterSt) : (s.setCluster n c).tasks = s.tasks := rfl
@[simp] theorem State.setCluster_bars (s : State) (n : Nat) (c : ClusterSt) : (s.setCluster n c).bars = s.bars := rfl
@[simp] theorem State.setCluster_cmds (s : State) (n : Nat) (c : ClusterSt) : (s.setCluster n c).cmds = s.cmds := rfl
@[simp] theorem State.setCluster_nextId (s : State) (n : Nat) (c : ClusterSt) : (s.setCluster n c).nextId = s.nextId := rfl
@[simp] theorem State.setCluster_handle (s : State) (n : Nat) (c : ClusterSt) : (s.setCluster n c).handle = s.handle := rfl
@[simp] theorem State.setCluster_fdev (s : State) (n : Nat) (c : ClusterSt) : (s.setCluster n c).fdev = s.fdev := rfl
@[simp] theorem State.setCluster_fstep (s : State) (n : Nat) (c : ClusterSt) : (s.setCluster n c).fstep = s.fstep := rfl
@[simp] theorem State.setCluster_therm (s : State) (n : Nat) (c : ClusterSt) : (s.setCluster n c).therm = s.therm := rfl
@[simp] theorem State.setCluster_overPower (s : State) (n : Nat) (c : ClusterSt) : (s.setCluster n c).overPower = s.overPower := rfl
@[simp] theorem State.setCluster_lastGrant (s : State) (n : Nat) (c : ClusterSt) : (s.setCluster n c).lastGrant = s.lastGrant := rfl
@[simp] theorem State.setCluster_units (s : State) (n : Nat) (c : ClusterSt) : (s.setCluster n c).units = s.units := rfl
@[simp] theorem State.setCluster_dies (s : State) (n : Nat) (c : ClusterSt) : (s.setCluster n c).dies = s.dies := rfl
@[simp] theorem State.setCluster_launches (s : State) (n : Nat) (c : ClusterSt) : (s.setCluster n c).launches = s.launches := rfl
@[simp] theorem State.setCluster_shares (s : State) (n : Nat) (c : ClusterSt) : (s.setCluster n c).shares = s.shares := rfl
@[simp] theorem State.setCluster_fab (s : State) (n : Nat) (c : ClusterSt) : (s.setCluster n c).fab = s.fab := rfl
@[simp] theorem State.setCluster_jobs (s : State) (n : Nat) (c : ClusterSt) : (s.setCluster n c).jobs = s.jobs := rfl
@[simp] theorem State.setCluster_plat (s : State) (n : Nat) (c : ClusterSt) : (s.setCluster n c).plat = s.plat := rfl
@[simp] theorem State.setCluster_dblref (s : State) (n : Nat) (c : ClusterSt) : (s.setCluster n c).dblref = s.dblref := rfl
@[simp] theorem State.setCluster_sched (s : State) (n : Nat) (c : ClusterSt) : (s.setCluster n c).sched = s.sched := rfl
@[simp] theorem State.setCluster_cur (s : State) (n : Nat) (c : ClusterSt) : (s.setCluster n c).cur = s.cur := rfl
@[simp] theorem State.setCluster_iss (s : State) (n : Nat) (c : ClusterSt) : (s.setCluster n c).iss = s.iss := rfl
@[simp] theorem State.setCluster_free (s : State) (n : Nat) (c : ClusterSt) : (s.setCluster n c).free = s.free := rfl

@[simp] theorem State.setUnit_now (s : State) (n : Nat) (u : TransUnit) : (s.setUnit n u).now = s.now := rfl
@[simp] theorem State.setUnit_cyc (s : State) (n : Nat) (u : TransUnit) : (s.setUnit n u).cyc = s.cyc := rfl
@[simp] theorem State.setUnit_mem (s : State) (n : Nat) (u : TransUnit) : (s.setUnit n u).mem = s.mem := rfl
@[simp] theorem State.setUnit_poison (s : State) (n : Nat) (u : TransUnit) : (s.setUnit n u).poison = s.poison := rfl
@[simp] theorem State.setUnit_pw (s : State) (n : Nat) (u : TransUnit) : (s.setUnit n u).pw = s.pw := rfl
@[simp] theorem State.setUnit_rw (s : State) (n : Nat) (u : TransUnit) : (s.setUnit n u).rw = s.rw := rfl
@[simp] theorem State.setUnit_uo (s : State) (n : Nat) (u : TransUnit) : (s.setUnit n u).uo = s.uo := rfl
@[simp] theorem State.setUnit_early (s : State) (n : Nat) (u : TransUnit) : (s.setUnit n u).early = s.early := rfl
@[simp] theorem State.setUnit_ctxs (s : State) (n : Nat) (u : TransUnit) : (s.setUnit n u).ctxs = s.ctxs := rfl
@[simp] theorem State.setUnit_cores (s : State) (n : Nat) (u : TransUnit) : (s.setUnit n u).cores = s.cores := rfl
@[simp] theorem State.setUnit_clusters (s : State) (n : Nat) (u : TransUnit) : (s.setUnit n u).clusters = s.clusters := rfl
@[simp] theorem State.setUnit_tasks (s : State) (n : Nat) (u : TransUnit) : (s.setUnit n u).tasks = s.tasks := rfl
@[simp] theorem State.setUnit_bars (s : State) (n : Nat) (u : TransUnit) : (s.setUnit n u).bars = s.bars := rfl
@[simp] theorem State.setUnit_cmds (s : State) (n : Nat) (u : TransUnit) : (s.setUnit n u).cmds = s.cmds := rfl
@[simp] theorem State.setUnit_nextId (s : State) (n : Nat) (u : TransUnit) : (s.setUnit n u).nextId = s.nextId := rfl
@[simp] theorem State.setUnit_handle (s : State) (n : Nat) (u : TransUnit) : (s.setUnit n u).handle = s.handle := rfl
@[simp] theorem State.setUnit_fdev (s : State) (n : Nat) (u : TransUnit) : (s.setUnit n u).fdev = s.fdev := rfl
@[simp] theorem State.setUnit_fstep (s : State) (n : Nat) (u : TransUnit) : (s.setUnit n u).fstep = s.fstep := rfl
@[simp] theorem State.setUnit_therm (s : State) (n : Nat) (u : TransUnit) : (s.setUnit n u).therm = s.therm := rfl
@[simp] theorem State.setUnit_overPower (s : State) (n : Nat) (u : TransUnit) : (s.setUnit n u).overPower = s.overPower := rfl
@[simp] theorem State.setUnit_lastGrant (s : State) (n : Nat) (u : TransUnit) : (s.setUnit n u).lastGrant = s.lastGrant := rfl
@[simp] theorem State.setUnit_dies (s : State) (n : Nat) (u : TransUnit) : (s.setUnit n u).dies = s.dies := rfl
@[simp] theorem State.setUnit_launches (s : State) (n : Nat) (u : TransUnit) : (s.setUnit n u).launches = s.launches := rfl
@[simp] theorem State.setUnit_shares (s : State) (n : Nat) (u : TransUnit) : (s.setUnit n u).shares = s.shares := rfl
@[simp] theorem State.setUnit_fab (s : State) (n : Nat) (u : TransUnit) : (s.setUnit n u).fab = s.fab := rfl
@[simp] theorem State.setUnit_jobs (s : State) (n : Nat) (u : TransUnit) : (s.setUnit n u).jobs = s.jobs := rfl
@[simp] theorem State.setUnit_plat (s : State) (n : Nat) (u : TransUnit) : (s.setUnit n u).plat = s.plat := rfl
@[simp] theorem State.setUnit_dblref (s : State) (n : Nat) (u : TransUnit) : (s.setUnit n u).dblref = s.dblref := rfl
@[simp] theorem State.setUnit_sched (s : State) (n : Nat) (u : TransUnit) : (s.setUnit n u).sched = s.sched := rfl
@[simp] theorem State.setUnit_cur (s : State) (n : Nat) (u : TransUnit) : (s.setUnit n u).cur = s.cur := rfl
@[simp] theorem State.setUnit_iss (s : State) (n : Nat) (u : TransUnit) : (s.setUnit n u).iss = s.iss := rfl
@[simp] theorem State.setUnit_free (s : State) (n : Nat) (u : TransUnit) : (s.setUnit n u).free = s.free := rfl

@[simp] theorem State.setDie_now (s : State) (d : Nat) (x : DieSt) : (s.setDie d x).now = s.now := rfl
@[simp] theorem State.setDie_cyc (s : State) (d : Nat) (x : DieSt) : (s.setDie d x).cyc = s.cyc := rfl
@[simp] theorem State.setDie_mem (s : State) (d : Nat) (x : DieSt) : (s.setDie d x).mem = s.mem := rfl
@[simp] theorem State.setDie_poison (s : State) (d : Nat) (x : DieSt) : (s.setDie d x).poison = s.poison := rfl
@[simp] theorem State.setDie_pw (s : State) (d : Nat) (x : DieSt) : (s.setDie d x).pw = s.pw := rfl
@[simp] theorem State.setDie_rw (s : State) (d : Nat) (x : DieSt) : (s.setDie d x).rw = s.rw := rfl
@[simp] theorem State.setDie_uo (s : State) (d : Nat) (x : DieSt) : (s.setDie d x).uo = s.uo := rfl
@[simp] theorem State.setDie_early (s : State) (d : Nat) (x : DieSt) : (s.setDie d x).early = s.early := rfl
@[simp] theorem State.setDie_ctxs (s : State) (d : Nat) (x : DieSt) : (s.setDie d x).ctxs = s.ctxs := rfl
@[simp] theorem State.setDie_cores (s : State) (d : Nat) (x : DieSt) : (s.setDie d x).cores = s.cores := rfl
@[simp] theorem State.setDie_clusters (s : State) (d : Nat) (x : DieSt) : (s.setDie d x).clusters = s.clusters := rfl
@[simp] theorem State.setDie_tasks (s : State) (d : Nat) (x : DieSt) : (s.setDie d x).tasks = s.tasks := rfl
@[simp] theorem State.setDie_bars (s : State) (d : Nat) (x : DieSt) : (s.setDie d x).bars = s.bars := rfl
@[simp] theorem State.setDie_cmds (s : State) (d : Nat) (x : DieSt) : (s.setDie d x).cmds = s.cmds := rfl
@[simp] theorem State.setDie_nextId (s : State) (d : Nat) (x : DieSt) : (s.setDie d x).nextId = s.nextId := rfl
@[simp] theorem State.setDie_handle (s : State) (d : Nat) (x : DieSt) : (s.setDie d x).handle = s.handle := rfl
@[simp] theorem State.setDie_fdev (s : State) (d : Nat) (x : DieSt) : (s.setDie d x).fdev = s.fdev := rfl
@[simp] theorem State.setDie_fstep (s : State) (d : Nat) (x : DieSt) : (s.setDie d x).fstep = s.fstep := rfl
@[simp] theorem State.setDie_therm (s : State) (d : Nat) (x : DieSt) : (s.setDie d x).therm = s.therm := rfl
@[simp] theorem State.setDie_overPower (s : State) (d : Nat) (x : DieSt) : (s.setDie d x).overPower = s.overPower := rfl
@[simp] theorem State.setDie_lastGrant (s : State) (d : Nat) (x : DieSt) : (s.setDie d x).lastGrant = s.lastGrant := rfl
@[simp] theorem State.setDie_units (s : State) (d : Nat) (x : DieSt) : (s.setDie d x).units = s.units := rfl
@[simp] theorem State.setDie_launches (s : State) (d : Nat) (x : DieSt) : (s.setDie d x).launches = s.launches := rfl
@[simp] theorem State.setDie_shares (s : State) (d : Nat) (x : DieSt) : (s.setDie d x).shares = s.shares := rfl
@[simp] theorem State.setDie_fab (s : State) (d : Nat) (x : DieSt) : (s.setDie d x).fab = s.fab := rfl
@[simp] theorem State.setDie_jobs (s : State) (d : Nat) (x : DieSt) : (s.setDie d x).jobs = s.jobs := rfl
@[simp] theorem State.setDie_plat (s : State) (d : Nat) (x : DieSt) : (s.setDie d x).plat = s.plat := rfl
@[simp] theorem State.setDie_dblref (s : State) (d : Nat) (x : DieSt) : (s.setDie d x).dblref = s.dblref := rfl
@[simp] theorem State.setDie_sched (s : State) (d : Nat) (x : DieSt) : (s.setDie d x).sched = s.sched := rfl
@[simp] theorem State.setDie_cur (s : State) (d : Nat) (x : DieSt) : (s.setDie d x).cur = s.cur := rfl
@[simp] theorem State.setDie_iss (s : State) (d : Nat) (x : DieSt) : (s.setDie d x).iss = s.iss := rfl
@[simp] theorem State.setDie_free (s : State) (d : Nat) (x : DieSt) : (s.setDie d x).free = s.free := rfl

@[simp] theorem State.modDie_now (s : State) (d : Nat) (f : DieSt → DieSt) : (s.modDie d f).now = s.now := rfl
@[simp] theorem State.modDie_cyc (s : State) (d : Nat) (f : DieSt → DieSt) : (s.modDie d f).cyc = s.cyc := rfl
@[simp] theorem State.modDie_mem (s : State) (d : Nat) (f : DieSt → DieSt) : (s.modDie d f).mem = s.mem := rfl
@[simp] theorem State.modDie_poison (s : State) (d : Nat) (f : DieSt → DieSt) : (s.modDie d f).poison = s.poison := rfl
@[simp] theorem State.modDie_pw (s : State) (d : Nat) (f : DieSt → DieSt) : (s.modDie d f).pw = s.pw := rfl
@[simp] theorem State.modDie_rw (s : State) (d : Nat) (f : DieSt → DieSt) : (s.modDie d f).rw = s.rw := rfl
@[simp] theorem State.modDie_uo (s : State) (d : Nat) (f : DieSt → DieSt) : (s.modDie d f).uo = s.uo := rfl
@[simp] theorem State.modDie_early (s : State) (d : Nat) (f : DieSt → DieSt) : (s.modDie d f).early = s.early := rfl
@[simp] theorem State.modDie_ctxs (s : State) (d : Nat) (f : DieSt → DieSt) : (s.modDie d f).ctxs = s.ctxs := rfl
@[simp] theorem State.modDie_cores (s : State) (d : Nat) (f : DieSt → DieSt) : (s.modDie d f).cores = s.cores := rfl
@[simp] theorem State.modDie_clusters (s : State) (d : Nat) (f : DieSt → DieSt) : (s.modDie d f).clusters = s.clusters := rfl
@[simp] theorem State.modDie_tasks (s : State) (d : Nat) (f : DieSt → DieSt) : (s.modDie d f).tasks = s.tasks := rfl
@[simp] theorem State.modDie_bars (s : State) (d : Nat) (f : DieSt → DieSt) : (s.modDie d f).bars = s.bars := rfl
@[simp] theorem State.modDie_cmds (s : State) (d : Nat) (f : DieSt → DieSt) : (s.modDie d f).cmds = s.cmds := rfl
@[simp] theorem State.modDie_nextId (s : State) (d : Nat) (f : DieSt → DieSt) : (s.modDie d f).nextId = s.nextId := rfl
@[simp] theorem State.modDie_handle (s : State) (d : Nat) (f : DieSt → DieSt) : (s.modDie d f).handle = s.handle := rfl
@[simp] theorem State.modDie_fdev (s : State) (d : Nat) (f : DieSt → DieSt) : (s.modDie d f).fdev = s.fdev := rfl
@[simp] theorem State.modDie_fstep (s : State) (d : Nat) (f : DieSt → DieSt) : (s.modDie d f).fstep = s.fstep := rfl
@[simp] theorem State.modDie_therm (s : State) (d : Nat) (f : DieSt → DieSt) : (s.modDie d f).therm = s.therm := rfl
@[simp] theorem State.modDie_overPower (s : State) (d : Nat) (f : DieSt → DieSt) : (s.modDie d f).overPower = s.overPower := rfl
@[simp] theorem State.modDie_lastGrant (s : State) (d : Nat) (f : DieSt → DieSt) : (s.modDie d f).lastGrant = s.lastGrant := rfl
@[simp] theorem State.modDie_units (s : State) (d : Nat) (f : DieSt → DieSt) : (s.modDie d f).units = s.units := rfl
@[simp] theorem State.modDie_launches (s : State) (d : Nat) (f : DieSt → DieSt) : (s.modDie d f).launches = s.launches := rfl
@[simp] theorem State.modDie_shares (s : State) (d : Nat) (f : DieSt → DieSt) : (s.modDie d f).shares = s.shares := rfl
@[simp] theorem State.modDie_fab (s : State) (d : Nat) (f : DieSt → DieSt) : (s.modDie d f).fab = s.fab := rfl
@[simp] theorem State.modDie_jobs (s : State) (d : Nat) (f : DieSt → DieSt) : (s.modDie d f).jobs = s.jobs := rfl
@[simp] theorem State.modDie_plat (s : State) (d : Nat) (f : DieSt → DieSt) : (s.modDie d f).plat = s.plat := rfl
@[simp] theorem State.modDie_dblref (s : State) (d : Nat) (f : DieSt → DieSt) : (s.modDie d f).dblref = s.dblref := rfl
@[simp] theorem State.modDie_sched (s : State) (d : Nat) (f : DieSt → DieSt) : (s.modDie d f).sched = s.sched := rfl
@[simp] theorem State.modDie_cur (s : State) (d : Nat) (f : DieSt → DieSt) : (s.modDie d f).cur = s.cur := rfl
@[simp] theorem State.modDie_iss (s : State) (d : Nat) (f : DieSt → DieSt) : (s.modDie d f).iss = s.iss := rfl
@[simp] theorem State.modDie_free (s : State) (d : Nat) (f : DieSt → DieSt) : (s.modDie d f).free = s.free := rfl

@[simp] theorem State.setMem_now (s : State) (m : Mem) : (s.setMem m).now = s.now := rfl
@[simp] theorem State.setMem_cyc (s : State) (m : Mem) : (s.setMem m).cyc = s.cyc := rfl
@[simp] theorem State.setMem_poison (s : State) (m : Mem) : (s.setMem m).poison = s.poison := rfl
@[simp] theorem State.setMem_pw (s : State) (m : Mem) : (s.setMem m).pw = s.pw := rfl
@[simp] theorem State.setMem_rw (s : State) (m : Mem) : (s.setMem m).rw = s.rw := rfl
@[simp] theorem State.setMem_uo (s : State) (m : Mem) : (s.setMem m).uo = s.uo := rfl
@[simp] theorem State.setMem_early (s : State) (m : Mem) : (s.setMem m).early = s.early := rfl
@[simp] theorem State.setMem_ctxs (s : State) (m : Mem) : (s.setMem m).ctxs = s.ctxs := rfl
@[simp] theorem State.setMem_cores (s : State) (m : Mem) : (s.setMem m).cores = s.cores := rfl
@[simp] theorem State.setMem_clusters (s : State) (m : Mem) : (s.setMem m).clusters = s.clusters := rfl
@[simp] theorem State.setMem_tasks (s : State) (m : Mem) : (s.setMem m).tasks = s.tasks := rfl
@[simp] theorem State.setMem_bars (s : State) (m : Mem) : (s.setMem m).bars = s.bars := rfl
@[simp] theorem State.setMem_cmds (s : State) (m : Mem) : (s.setMem m).cmds = s.cmds := rfl
@[simp] theorem State.setMem_nextId (s : State) (m : Mem) : (s.setMem m).nextId = s.nextId := rfl
@[simp] theorem State.setMem_handle (s : State) (m : Mem) : (s.setMem m).handle = s.handle := rfl
@[simp] theorem State.setMem_fdev (s : State) (m : Mem) : (s.setMem m).fdev = s.fdev := rfl
@[simp] theorem State.setMem_fstep (s : State) (m : Mem) : (s.setMem m).fstep = s.fstep := rfl
@[simp] theorem State.setMem_therm (s : State) (m : Mem) : (s.setMem m).therm = s.therm := rfl
@[simp] theorem State.setMem_overPower (s : State) (m : Mem) : (s.setMem m).overPower = s.overPower := rfl
@[simp] theorem State.setMem_lastGrant (s : State) (m : Mem) : (s.setMem m).lastGrant = s.lastGrant := rfl
@[simp] theorem State.setMem_units (s : State) (m : Mem) : (s.setMem m).units = s.units := rfl
@[simp] theorem State.setMem_dies (s : State) (m : Mem) : (s.setMem m).dies = s.dies := rfl
@[simp] theorem State.setMem_launches (s : State) (m : Mem) : (s.setMem m).launches = s.launches := rfl
@[simp] theorem State.setMem_shares (s : State) (m : Mem) : (s.setMem m).shares = s.shares := rfl
@[simp] theorem State.setMem_fab (s : State) (m : Mem) : (s.setMem m).fab = s.fab := rfl
@[simp] theorem State.setMem_jobs (s : State) (m : Mem) : (s.setMem m).jobs = s.jobs := rfl
@[simp] theorem State.setMem_plat (s : State) (m : Mem) : (s.setMem m).plat = s.plat := rfl
@[simp] theorem State.setMem_dblref (s : State) (m : Mem) : (s.setMem m).dblref = s.dblref := rfl
@[simp] theorem State.setMem_sched (s : State) (m : Mem) : (s.setMem m).sched = s.sched := rfl
@[simp] theorem State.setMem_cur (s : State) (m : Mem) : (s.setMem m).cur = s.cur := rfl
@[simp] theorem State.setMem_iss (s : State) (m : Mem) : (s.setMem m).iss = s.iss := rfl
@[simp] theorem State.setMem_free (s : State) (m : Mem) : (s.setMem m).free = s.free := rfl

@[simp] theorem State.putBytes_now (s : State) (a k v : Nat) : (s.putBytes a k v).now = s.now := rfl
@[simp] theorem State.putBytes_cyc (s : State) (a k v : Nat) : (s.putBytes a k v).cyc = s.cyc := rfl
@[simp] theorem State.putBytes_poison (s : State) (a k v : Nat) : (s.putBytes a k v).poison = s.poison := rfl
@[simp] theorem State.putBytes_pw (s : State) (a k v : Nat) : (s.putBytes a k v).pw = s.pw := rfl
@[simp] theorem State.putBytes_rw (s : State) (a k v : Nat) : (s.putBytes a k v).rw = s.rw := rfl
@[simp] theorem State.putBytes_uo (s : State) (a k v : Nat) : (s.putBytes a k v).uo = s.uo := rfl
@[simp] theorem State.putBytes_early (s : State) (a k v : Nat) : (s.putBytes a k v).early = s.early := rfl
@[simp] theorem State.putBytes_ctxs (s : State) (a k v : Nat) : (s.putBytes a k v).ctxs = s.ctxs := rfl
@[simp] theorem State.putBytes_cores (s : State) (a k v : Nat) : (s.putBytes a k v).cores = s.cores := rfl
@[simp] theorem State.putBytes_clusters (s : State) (a k v : Nat) : (s.putBytes a k v).clusters = s.clusters := rfl
@[simp] theorem State.putBytes_tasks (s : State) (a k v : Nat) : (s.putBytes a k v).tasks = s.tasks := rfl
@[simp] theorem State.putBytes_bars (s : State) (a k v : Nat) : (s.putBytes a k v).bars = s.bars := rfl
@[simp] theorem State.putBytes_cmds (s : State) (a k v : Nat) : (s.putBytes a k v).cmds = s.cmds := rfl
@[simp] theorem State.putBytes_nextId (s : State) (a k v : Nat) : (s.putBytes a k v).nextId = s.nextId := rfl
@[simp] theorem State.putBytes_handle (s : State) (a k v : Nat) : (s.putBytes a k v).handle = s.handle := rfl
@[simp] theorem State.putBytes_fdev (s : State) (a k v : Nat) : (s.putBytes a k v).fdev = s.fdev := rfl
@[simp] theorem State.putBytes_fstep (s : State) (a k v : Nat) : (s.putBytes a k v).fstep = s.fstep := rfl
@[simp] theorem State.putBytes_therm (s : State) (a k v : Nat) : (s.putBytes a k v).therm = s.therm := rfl
@[simp] theorem State.putBytes_overPower (s : State) (a k v : Nat) : (s.putBytes a k v).overPower = s.overPower := rfl
@[simp] theorem State.putBytes_lastGrant (s : State) (a k v : Nat) : (s.putBytes a k v).lastGrant = s.lastGrant := rfl
@[simp] theorem State.putBytes_units (s : State) (a k v : Nat) : (s.putBytes a k v).units = s.units := rfl
@[simp] theorem State.putBytes_dies (s : State) (a k v : Nat) : (s.putBytes a k v).dies = s.dies := rfl
@[simp] theorem State.putBytes_launches (s : State) (a k v : Nat) : (s.putBytes a k v).launches = s.launches := rfl
@[simp] theorem State.putBytes_shares (s : State) (a k v : Nat) : (s.putBytes a k v).shares = s.shares := rfl
@[simp] theorem State.putBytes_fab (s : State) (a k v : Nat) : (s.putBytes a k v).fab = s.fab := rfl
@[simp] theorem State.putBytes_jobs (s : State) (a k v : Nat) : (s.putBytes a k v).jobs = s.jobs := rfl
@[simp] theorem State.putBytes_plat (s : State) (a k v : Nat) : (s.putBytes a k v).plat = s.plat := rfl
@[simp] theorem State.putBytes_dblref (s : State) (a k v : Nat) : (s.putBytes a k v).dblref = s.dblref := rfl
@[simp] theorem State.putBytes_sched (s : State) (a k v : Nat) : (s.putBytes a k v).sched = s.sched := rfl
@[simp] theorem State.putBytes_cur (s : State) (a k v : Nat) : (s.putBytes a k v).cur = s.cur := rfl
@[simp] theorem State.putBytes_iss (s : State) (a k v : Nat) : (s.putBytes a k v).iss = s.iss := rfl
@[simp] theorem State.putBytes_free (s : State) (a k v : Nat) : (s.putBytes a k v).free = s.free := rfl

@[simp] theorem State.homeWrite_now (s : State) (who key : Nat) (en : BitVec 8) (val : Word) : (s.homeWrite who key en val).now = s.now := rfl
@[simp] theorem State.homeWrite_cyc (s : State) (who key : Nat) (en : BitVec 8) (val : Word) : (s.homeWrite who key en val).cyc = s.cyc := rfl
@[simp] theorem State.homeWrite_pw (s : State) (who key : Nat) (en : BitVec 8) (val : Word) : (s.homeWrite who key en val).pw = s.pw := rfl
@[simp] theorem State.homeWrite_rw (s : State) (who key : Nat) (en : BitVec 8) (val : Word) : (s.homeWrite who key en val).rw = s.rw := rfl
@[simp] theorem State.homeWrite_uo (s : State) (who key : Nat) (en : BitVec 8) (val : Word) : (s.homeWrite who key en val).uo = s.uo := rfl
@[simp] theorem State.homeWrite_ctxs (s : State) (who key : Nat) (en : BitVec 8) (val : Word) : (s.homeWrite who key en val).ctxs = s.ctxs := rfl
@[simp] theorem State.homeWrite_cores (s : State) (who key : Nat) (en : BitVec 8) (val : Word) : (s.homeWrite who key en val).cores = s.cores := rfl
@[simp] theorem State.homeWrite_clusters (s : State) (who key : Nat) (en : BitVec 8) (val : Word) : (s.homeWrite who key en val).clusters = s.clusters := rfl
@[simp] theorem State.homeWrite_tasks (s : State) (who key : Nat) (en : BitVec 8) (val : Word) : (s.homeWrite who key en val).tasks = s.tasks := rfl
@[simp] theorem State.homeWrite_bars (s : State) (who key : Nat) (en : BitVec 8) (val : Word) : (s.homeWrite who key en val).bars = s.bars := rfl
@[simp] theorem State.homeWrite_cmds (s : State) (who key : Nat) (en : BitVec 8) (val : Word) : (s.homeWrite who key en val).cmds = s.cmds := rfl
@[simp] theorem State.homeWrite_nextId (s : State) (who key : Nat) (en : BitVec 8) (val : Word) : (s.homeWrite who key en val).nextId = s.nextId := rfl
@[simp] theorem State.homeWrite_handle (s : State) (who key : Nat) (en : BitVec 8) (val : Word) : (s.homeWrite who key en val).handle = s.handle := rfl
@[simp] theorem State.homeWrite_fdev (s : State) (who key : Nat) (en : BitVec 8) (val : Word) : (s.homeWrite who key en val).fdev = s.fdev := rfl
@[simp] theorem State.homeWrite_fstep (s : State) (who key : Nat) (en : BitVec 8) (val : Word) : (s.homeWrite who key en val).fstep = s.fstep := rfl
@[simp] theorem State.homeWrite_therm (s : State) (who key : Nat) (en : BitVec 8) (val : Word) : (s.homeWrite who key en val).therm = s.therm := rfl
@[simp] theorem State.homeWrite_overPower (s : State) (who key : Nat) (en : BitVec 8) (val : Word) : (s.homeWrite who key en val).overPower = s.overPower := rfl
@[simp] theorem State.homeWrite_lastGrant (s : State) (who key : Nat) (en : BitVec 8) (val : Word) : (s.homeWrite who key en val).lastGrant = s.lastGrant := rfl
@[simp] theorem State.homeWrite_units (s : State) (who key : Nat) (en : BitVec 8) (val : Word) : (s.homeWrite who key en val).units = s.units := rfl
@[simp] theorem State.homeWrite_dies (s : State) (who key : Nat) (en : BitVec 8) (val : Word) : (s.homeWrite who key en val).dies = s.dies := rfl
@[simp] theorem State.homeWrite_launches (s : State) (who key : Nat) (en : BitVec 8) (val : Word) : (s.homeWrite who key en val).launches = s.launches := rfl
@[simp] theorem State.homeWrite_shares (s : State) (who key : Nat) (en : BitVec 8) (val : Word) : (s.homeWrite who key en val).shares = s.shares := rfl
@[simp] theorem State.homeWrite_fab (s : State) (who key : Nat) (en : BitVec 8) (val : Word) : (s.homeWrite who key en val).fab = s.fab := rfl
@[simp] theorem State.homeWrite_jobs (s : State) (who key : Nat) (en : BitVec 8) (val : Word) : (s.homeWrite who key en val).jobs = s.jobs := rfl
@[simp] theorem State.homeWrite_plat (s : State) (who key : Nat) (en : BitVec 8) (val : Word) : (s.homeWrite who key en val).plat = s.plat := rfl
@[simp] theorem State.homeWrite_dblref (s : State) (who key : Nat) (en : BitVec 8) (val : Word) : (s.homeWrite who key en val).dblref = s.dblref := rfl
@[simp] theorem State.homeWrite_sched (s : State) (who key : Nat) (en : BitVec 8) (val : Word) : (s.homeWrite who key en val).sched = s.sched := rfl
@[simp] theorem State.homeWrite_cur (s : State) (who key : Nat) (en : BitVec 8) (val : Word) : (s.homeWrite who key en val).cur = s.cur := rfl
@[simp] theorem State.homeWrite_iss (s : State) (who key : Nat) (en : BitVec 8) (val : Word) : (s.homeWrite who key en val).iss = s.iss := rfl
@[simp] theorem State.homeWrite_free (s : State) (who key : Nat) (en : BitVec 8) (val : Word) : (s.homeWrite who key en val).free = s.free := rfl

@[simp] theorem State.modTask_now (s : State) (id : Nat) (f : Task → Task) : (s.modTask id f).now = s.now := rfl
@[simp] theorem State.modTask_cyc (s : State) (id : Nat) (f : Task → Task) : (s.modTask id f).cyc = s.cyc := rfl
@[simp] theorem State.modTask_mem (s : State) (id : Nat) (f : Task → Task) : (s.modTask id f).mem = s.mem := rfl
@[simp] theorem State.modTask_poison (s : State) (id : Nat) (f : Task → Task) : (s.modTask id f).poison = s.poison := rfl
@[simp] theorem State.modTask_pw (s : State) (id : Nat) (f : Task → Task) : (s.modTask id f).pw = s.pw := rfl
@[simp] theorem State.modTask_rw (s : State) (id : Nat) (f : Task → Task) : (s.modTask id f).rw = s.rw := rfl
@[simp] theorem State.modTask_uo (s : State) (id : Nat) (f : Task → Task) : (s.modTask id f).uo = s.uo := rfl
@[simp] theorem State.modTask_early (s : State) (id : Nat) (f : Task → Task) : (s.modTask id f).early = s.early := rfl
@[simp] theorem State.modTask_ctxs (s : State) (id : Nat) (f : Task → Task) : (s.modTask id f).ctxs = s.ctxs := rfl
@[simp] theorem State.modTask_cores (s : State) (id : Nat) (f : Task → Task) : (s.modTask id f).cores = s.cores := rfl
@[simp] theorem State.modTask_clusters (s : State) (id : Nat) (f : Task → Task) : (s.modTask id f).clusters = s.clusters := rfl
@[simp] theorem State.modTask_bars (s : State) (id : Nat) (f : Task → Task) : (s.modTask id f).bars = s.bars := rfl
@[simp] theorem State.modTask_cmds (s : State) (id : Nat) (f : Task → Task) : (s.modTask id f).cmds = s.cmds := rfl
@[simp] theorem State.modTask_nextId (s : State) (id : Nat) (f : Task → Task) : (s.modTask id f).nextId = s.nextId := rfl
@[simp] theorem State.modTask_handle (s : State) (id : Nat) (f : Task → Task) : (s.modTask id f).handle = s.handle := rfl
@[simp] theorem State.modTask_fdev (s : State) (id : Nat) (f : Task → Task) : (s.modTask id f).fdev = s.fdev := rfl
@[simp] theorem State.modTask_fstep (s : State) (id : Nat) (f : Task → Task) : (s.modTask id f).fstep = s.fstep := rfl
@[simp] theorem State.modTask_therm (s : State) (id : Nat) (f : Task → Task) : (s.modTask id f).therm = s.therm := rfl
@[simp] theorem State.modTask_overPower (s : State) (id : Nat) (f : Task → Task) : (s.modTask id f).overPower = s.overPower := rfl
@[simp] theorem State.modTask_lastGrant (s : State) (id : Nat) (f : Task → Task) : (s.modTask id f).lastGrant = s.lastGrant := rfl
@[simp] theorem State.modTask_units (s : State) (id : Nat) (f : Task → Task) : (s.modTask id f).units = s.units := rfl
@[simp] theorem State.modTask_dies (s : State) (id : Nat) (f : Task → Task) : (s.modTask id f).dies = s.dies := rfl
@[simp] theorem State.modTask_launches (s : State) (id : Nat) (f : Task → Task) : (s.modTask id f).launches = s.launches := rfl
@[simp] theorem State.modTask_shares (s : State) (id : Nat) (f : Task → Task) : (s.modTask id f).shares = s.shares := rfl
@[simp] theorem State.modTask_fab (s : State) (id : Nat) (f : Task → Task) : (s.modTask id f).fab = s.fab := rfl
@[simp] theorem State.modTask_jobs (s : State) (id : Nat) (f : Task → Task) : (s.modTask id f).jobs = s.jobs := rfl
@[simp] theorem State.modTask_plat (s : State) (id : Nat) (f : Task → Task) : (s.modTask id f).plat = s.plat := rfl
@[simp] theorem State.modTask_dblref (s : State) (id : Nat) (f : Task → Task) : (s.modTask id f).dblref = s.dblref := rfl
@[simp] theorem State.modTask_sched (s : State) (id : Nat) (f : Task → Task) : (s.modTask id f).sched = s.sched := rfl
@[simp] theorem State.modTask_cur (s : State) (id : Nat) (f : Task → Task) : (s.modTask id f).cur = s.cur := rfl
@[simp] theorem State.modTask_iss (s : State) (id : Nat) (f : Task → Task) : (s.modTask id f).iss = s.iss := rfl
@[simp] theorem State.modTask_free (s : State) (id : Nat) (f : Task → Task) : (s.modTask id f).free = s.free := rfl

@[simp] theorem State.modCmd_now (s : State) (id : Nat) (f : Cmd → Cmd) : (s.modCmd id f).now = s.now := rfl
@[simp] theorem State.modCmd_cyc (s : State) (id : Nat) (f : Cmd → Cmd) : (s.modCmd id f).cyc = s.cyc := rfl
@[simp] theorem State.modCmd_mem (s : State) (id : Nat) (f : Cmd → Cmd) : (s.modCmd id f).mem = s.mem := rfl
@[simp] theorem State.modCmd_poison (s : State) (id : Nat) (f : Cmd → Cmd) : (s.modCmd id f).poison = s.poison := rfl
@[simp] theorem State.modCmd_pw (s : State) (id : Nat) (f : Cmd → Cmd) : (s.modCmd id f).pw = s.pw := rfl
@[simp] theorem State.modCmd_rw (s : State) (id : Nat) (f : Cmd → Cmd) : (s.modCmd id f).rw = s.rw := rfl
@[simp] theorem State.modCmd_uo (s : State) (id : Nat) (f : Cmd → Cmd) : (s.modCmd id f).uo = s.uo := rfl
@[simp] theorem State.modCmd_early (s : State) (id : Nat) (f : Cmd → Cmd) : (s.modCmd id f).early = s.early := rfl
@[simp] theorem State.modCmd_ctxs (s : State) (id : Nat) (f : Cmd → Cmd) : (s.modCmd id f).ctxs = s.ctxs := rfl
@[simp] theorem State.modCmd_cores (s : State) (id : Nat) (f : Cmd → Cmd) : (s.modCmd id f).cores = s.cores := rfl
@[simp] theorem State.modCmd_clusters (s : State) (id : Nat) (f : Cmd → Cmd) : (s.modCmd id f).clusters = s.clusters := rfl
@[simp] theorem State.modCmd_tasks (s : State) (id : Nat) (f : Cmd → Cmd) : (s.modCmd id f).tasks = s.tasks := rfl
@[simp] theorem State.modCmd_bars (s : State) (id : Nat) (f : Cmd → Cmd) : (s.modCmd id f).bars = s.bars := rfl
@[simp] theorem State.modCmd_nextId (s : State) (id : Nat) (f : Cmd → Cmd) : (s.modCmd id f).nextId = s.nextId := rfl
@[simp] theorem State.modCmd_handle (s : State) (id : Nat) (f : Cmd → Cmd) : (s.modCmd id f).handle = s.handle := rfl
@[simp] theorem State.modCmd_fdev (s : State) (id : Nat) (f : Cmd → Cmd) : (s.modCmd id f).fdev = s.fdev := rfl
@[simp] theorem State.modCmd_fstep (s : State) (id : Nat) (f : Cmd → Cmd) : (s.modCmd id f).fstep = s.fstep := rfl
@[simp] theorem State.modCmd_therm (s : State) (id : Nat) (f : Cmd → Cmd) : (s.modCmd id f).therm = s.therm := rfl
@[simp] theorem State.modCmd_overPower (s : State) (id : Nat) (f : Cmd → Cmd) : (s.modCmd id f).overPower = s.overPower := rfl
@[simp] theorem State.modCmd_lastGrant (s : State) (id : Nat) (f : Cmd → Cmd) : (s.modCmd id f).lastGrant = s.lastGrant := rfl
@[simp] theorem State.modCmd_units (s : State) (id : Nat) (f : Cmd → Cmd) : (s.modCmd id f).units = s.units := rfl
@[simp] theorem State.modCmd_dies (s : State) (id : Nat) (f : Cmd → Cmd) : (s.modCmd id f).dies = s.dies := rfl
@[simp] theorem State.modCmd_launches (s : State) (id : Nat) (f : Cmd → Cmd) : (s.modCmd id f).launches = s.launches := rfl
@[simp] theorem State.modCmd_shares (s : State) (id : Nat) (f : Cmd → Cmd) : (s.modCmd id f).shares = s.shares := rfl
@[simp] theorem State.modCmd_fab (s : State) (id : Nat) (f : Cmd → Cmd) : (s.modCmd id f).fab = s.fab := rfl
@[simp] theorem State.modCmd_jobs (s : State) (id : Nat) (f : Cmd → Cmd) : (s.modCmd id f).jobs = s.jobs := rfl
@[simp] theorem State.modCmd_plat (s : State) (id : Nat) (f : Cmd → Cmd) : (s.modCmd id f).plat = s.plat := rfl
@[simp] theorem State.modCmd_dblref (s : State) (id : Nat) (f : Cmd → Cmd) : (s.modCmd id f).dblref = s.dblref := rfl
@[simp] theorem State.modCmd_sched (s : State) (id : Nat) (f : Cmd → Cmd) : (s.modCmd id f).sched = s.sched := rfl
@[simp] theorem State.modCmd_cur (s : State) (id : Nat) (f : Cmd → Cmd) : (s.modCmd id f).cur = s.cur := rfl
@[simp] theorem State.modCmd_iss (s : State) (id : Nat) (f : Cmd → Cmd) : (s.modCmd id f).iss = s.iss := rfl
@[simp] theorem State.modCmd_free (s : State) (id : Nat) (f : Cmd → Cmd) : (s.modCmd id f).free = s.free := rfl

@[simp] theorem State.putCmd_now (s : State) (c : Cmd) : (s.putCmd c).now = s.now := rfl
@[simp] theorem State.putCmd_cyc (s : State) (c : Cmd) : (s.putCmd c).cyc = s.cyc := rfl
@[simp] theorem State.putCmd_mem (s : State) (c : Cmd) : (s.putCmd c).mem = s.mem := rfl
@[simp] theorem State.putCmd_poison (s : State) (c : Cmd) : (s.putCmd c).poison = s.poison := rfl
@[simp] theorem State.putCmd_pw (s : State) (c : Cmd) : (s.putCmd c).pw = s.pw := rfl
@[simp] theorem State.putCmd_rw (s : State) (c : Cmd) : (s.putCmd c).rw = s.rw := rfl
@[simp] theorem State.putCmd_uo (s : State) (c : Cmd) : (s.putCmd c).uo = s.uo := rfl
@[simp] theorem State.putCmd_early (s : State) (c : Cmd) : (s.putCmd c).early = s.early := rfl
@[simp] theorem State.putCmd_ctxs (s : State) (c : Cmd) : (s.putCmd c).ctxs = s.ctxs := rfl
@[simp] theorem State.putCmd_cores (s : State) (c : Cmd) : (s.putCmd c).cores = s.cores := rfl
@[simp] theorem State.putCmd_clusters (s : State) (c : Cmd) : (s.putCmd c).clusters = s.clusters := rfl
@[simp] theorem State.putCmd_tasks (s : State) (c : Cmd) : (s.putCmd c).tasks = s.tasks := rfl
@[simp] theorem State.putCmd_bars (s : State) (c : Cmd) : (s.putCmd c).bars = s.bars := rfl
@[simp] theorem State.putCmd_nextId (s : State) (c : Cmd) : (s.putCmd c).nextId = s.nextId := rfl
@[simp] theorem State.putCmd_handle (s : State) (c : Cmd) : (s.putCmd c).handle = s.handle := rfl
@[simp] theorem State.putCmd_fdev (s : State) (c : Cmd) : (s.putCmd c).fdev = s.fdev := rfl
@[simp] theorem State.putCmd_fstep (s : State) (c : Cmd) : (s.putCmd c).fstep = s.fstep := rfl
@[simp] theorem State.putCmd_therm (s : State) (c : Cmd) : (s.putCmd c).therm = s.therm := rfl
@[simp] theorem State.putCmd_overPower (s : State) (c : Cmd) : (s.putCmd c).overPower = s.overPower := rfl
@[simp] theorem State.putCmd_lastGrant (s : State) (c : Cmd) : (s.putCmd c).lastGrant = s.lastGrant := rfl
@[simp] theorem State.putCmd_units (s : State) (c : Cmd) : (s.putCmd c).units = s.units := rfl
@[simp] theorem State.putCmd_dies (s : State) (c : Cmd) : (s.putCmd c).dies = s.dies := rfl
@[simp] theorem State.putCmd_launches (s : State) (c : Cmd) : (s.putCmd c).launches = s.launches := rfl
@[simp] theorem State.putCmd_shares (s : State) (c : Cmd) : (s.putCmd c).shares = s.shares := rfl
@[simp] theorem State.putCmd_fab (s : State) (c : Cmd) : (s.putCmd c).fab = s.fab := rfl
@[simp] theorem State.putCmd_jobs (s : State) (c : Cmd) : (s.putCmd c).jobs = s.jobs := rfl
@[simp] theorem State.putCmd_plat (s : State) (c : Cmd) : (s.putCmd c).plat = s.plat := rfl
@[simp] theorem State.putCmd_dblref (s : State) (c : Cmd) : (s.putCmd c).dblref = s.dblref := rfl
@[simp] theorem State.putCmd_sched (s : State) (c : Cmd) : (s.putCmd c).sched = s.sched := rfl
@[simp] theorem State.putCmd_cur (s : State) (c : Cmd) : (s.putCmd c).cur = s.cur := rfl
@[simp] theorem State.putCmd_iss (s : State) (c : Cmd) : (s.putCmd c).iss = s.iss := rfl
@[simp] theorem State.putCmd_free (s : State) (c : Cmd) : (s.putCmd c).free = s.free := rfl

@[simp] theorem State.dropCmd_now (s : State) (id : Nat) : (s.dropCmd id).now = s.now := rfl
@[simp] theorem State.dropCmd_cyc (s : State) (id : Nat) : (s.dropCmd id).cyc = s.cyc := rfl
@[simp] theorem State.dropCmd_mem (s : State) (id : Nat) : (s.dropCmd id).mem = s.mem := rfl
@[simp] theorem State.dropCmd_poison (s : State) (id : Nat) : (s.dropCmd id).poison = s.poison := rfl
@[simp] theorem State.dropCmd_pw (s : State) (id : Nat) : (s.dropCmd id).pw = s.pw := rfl
@[simp] theorem State.dropCmd_rw (s : State) (id : Nat) : (s.dropCmd id).rw = s.rw := rfl
@[simp] theorem State.dropCmd_uo (s : State) (id : Nat) : (s.dropCmd id).uo = s.uo := rfl
@[simp] theorem State.dropCmd_early (s : State) (id : Nat) : (s.dropCmd id).early = s.early := rfl
@[simp] theorem State.dropCmd_ctxs (s : State) (id : Nat) : (s.dropCmd id).ctxs = s.ctxs := rfl
@[simp] theorem State.dropCmd_cores (s : State) (id : Nat) : (s.dropCmd id).cores = s.cores := rfl
@[simp] theorem State.dropCmd_clusters (s : State) (id : Nat) : (s.dropCmd id).clusters = s.clusters := rfl
@[simp] theorem State.dropCmd_tasks (s : State) (id : Nat) : (s.dropCmd id).tasks = s.tasks := rfl
@[simp] theorem State.dropCmd_bars (s : State) (id : Nat) : (s.dropCmd id).bars = s.bars := rfl
@[simp] theorem State.dropCmd_nextId (s : State) (id : Nat) : (s.dropCmd id).nextId = s.nextId := rfl
@[simp] theorem State.dropCmd_handle (s : State) (id : Nat) : (s.dropCmd id).handle = s.handle := rfl
@[simp] theorem State.dropCmd_fdev (s : State) (id : Nat) : (s.dropCmd id).fdev = s.fdev := rfl
@[simp] theorem State.dropCmd_fstep (s : State) (id : Nat) : (s.dropCmd id).fstep = s.fstep := rfl
@[simp] theorem State.dropCmd_therm (s : State) (id : Nat) : (s.dropCmd id).therm = s.therm := rfl
@[simp] theorem State.dropCmd_overPower (s : State) (id : Nat) : (s.dropCmd id).overPower = s.overPower := rfl
@[simp] theorem State.dropCmd_lastGrant (s : State) (id : Nat) : (s.dropCmd id).lastGrant = s.lastGrant := rfl
@[simp] theorem State.dropCmd_units (s : State) (id : Nat) : (s.dropCmd id).units = s.units := rfl
@[simp] theorem State.dropCmd_dies (s : State) (id : Nat) : (s.dropCmd id).dies = s.dies := rfl
@[simp] theorem State.dropCmd_launches (s : State) (id : Nat) : (s.dropCmd id).launches = s.launches := rfl
@[simp] theorem State.dropCmd_shares (s : State) (id : Nat) : (s.dropCmd id).shares = s.shares := rfl
@[simp] theorem State.dropCmd_fab (s : State) (id : Nat) : (s.dropCmd id).fab = s.fab := rfl
@[simp] theorem State.dropCmd_jobs (s : State) (id : Nat) : (s.dropCmd id).jobs = s.jobs := rfl
@[simp] theorem State.dropCmd_plat (s : State) (id : Nat) : (s.dropCmd id).plat = s.plat := rfl
@[simp] theorem State.dropCmd_dblref (s : State) (id : Nat) : (s.dropCmd id).dblref = s.dblref := rfl
@[simp] theorem State.dropCmd_sched (s : State) (id : Nat) : (s.dropCmd id).sched = s.sched := rfl
@[simp] theorem State.dropCmd_cur (s : State) (id : Nat) : (s.dropCmd id).cur = s.cur := rfl
@[simp] theorem State.dropCmd_iss (s : State) (id : Nat) : (s.dropCmd id).iss = s.iss := rfl
@[simp] theorem State.dropCmd_free (s : State) (id : Nat) : (s.dropCmd id).free = s.free := rfl

@[simp] theorem State.modFab_now (s : State) (f : Fabric → Fabric) : (s.modFab f).now = s.now := rfl
@[simp] theorem State.modFab_cyc (s : State) (f : Fabric → Fabric) : (s.modFab f).cyc = s.cyc := rfl
@[simp] theorem State.modFab_mem (s : State) (f : Fabric → Fabric) : (s.modFab f).mem = s.mem := rfl
@[simp] theorem State.modFab_poison (s : State) (f : Fabric → Fabric) : (s.modFab f).poison = s.poison := rfl
@[simp] theorem State.modFab_pw (s : State) (f : Fabric → Fabric) : (s.modFab f).pw = s.pw := rfl
@[simp] theorem State.modFab_rw (s : State) (f : Fabric → Fabric) : (s.modFab f).rw = s.rw := rfl
@[simp] theorem State.modFab_uo (s : State) (f : Fabric → Fabric) : (s.modFab f).uo = s.uo := rfl
@[simp] theorem State.modFab_early (s : State) (f : Fabric → Fabric) : (s.modFab f).early = s.early := rfl
@[simp] theorem State.modFab_ctxs (s : State) (f : Fabric → Fabric) : (s.modFab f).ctxs = s.ctxs := rfl
@[simp] theorem State.modFab_cores (s : State) (f : Fabric → Fabric) : (s.modFab f).cores = s.cores := rfl
@[simp] theorem State.modFab_clusters (s : State) (f : Fabric → Fabric) : (s.modFab f).clusters = s.clusters := rfl
@[simp] theorem State.modFab_tasks (s : State) (f : Fabric → Fabric) : (s.modFab f).tasks = s.tasks := rfl
@[simp] theorem State.modFab_bars (s : State) (f : Fabric → Fabric) : (s.modFab f).bars = s.bars := rfl
@[simp] theorem State.modFab_cmds (s : State) (f : Fabric → Fabric) : (s.modFab f).cmds = s.cmds := rfl
@[simp] theorem State.modFab_nextId (s : State) (f : Fabric → Fabric) : (s.modFab f).nextId = s.nextId := rfl
@[simp] theorem State.modFab_handle (s : State) (f : Fabric → Fabric) : (s.modFab f).handle = s.handle := rfl
@[simp] theorem State.modFab_fdev (s : State) (f : Fabric → Fabric) : (s.modFab f).fdev = s.fdev := rfl
@[simp] theorem State.modFab_fstep (s : State) (f : Fabric → Fabric) : (s.modFab f).fstep = s.fstep := rfl
@[simp] theorem State.modFab_therm (s : State) (f : Fabric → Fabric) : (s.modFab f).therm = s.therm := rfl
@[simp] theorem State.modFab_overPower (s : State) (f : Fabric → Fabric) : (s.modFab f).overPower = s.overPower := rfl
@[simp] theorem State.modFab_lastGrant (s : State) (f : Fabric → Fabric) : (s.modFab f).lastGrant = s.lastGrant := rfl
@[simp] theorem State.modFab_units (s : State) (f : Fabric → Fabric) : (s.modFab f).units = s.units := rfl
@[simp] theorem State.modFab_dies (s : State) (f : Fabric → Fabric) : (s.modFab f).dies = s.dies := rfl
@[simp] theorem State.modFab_launches (s : State) (f : Fabric → Fabric) : (s.modFab f).launches = s.launches := rfl
@[simp] theorem State.modFab_shares (s : State) (f : Fabric → Fabric) : (s.modFab f).shares = s.shares := rfl
@[simp] theorem State.modFab_jobs (s : State) (f : Fabric → Fabric) : (s.modFab f).jobs = s.jobs := rfl
@[simp] theorem State.modFab_plat (s : State) (f : Fabric → Fabric) : (s.modFab f).plat = s.plat := rfl
@[simp] theorem State.modFab_dblref (s : State) (f : Fabric → Fabric) : (s.modFab f).dblref = s.dblref := rfl
@[simp] theorem State.modFab_sched (s : State) (f : Fabric → Fabric) : (s.modFab f).sched = s.sched := rfl
@[simp] theorem State.modFab_cur (s : State) (f : Fabric → Fabric) : (s.modFab f).cur = s.cur := rfl
@[simp] theorem State.modFab_iss (s : State) (f : Fabric → Fabric) : (s.modFab f).iss = s.iss := rfl
@[simp] theorem State.modFab_free (s : State) (f : Fabric → Fabric) : (s.modFab f).free = s.free := rfl

@[simp] theorem State.modPort_now (s : State) (i : Nat) (g : Port → Port) : (s.modPort i g).now = s.now := rfl
@[simp] theorem State.modPort_cyc (s : State) (i : Nat) (g : Port → Port) : (s.modPort i g).cyc = s.cyc := rfl
@[simp] theorem State.modPort_mem (s : State) (i : Nat) (g : Port → Port) : (s.modPort i g).mem = s.mem := rfl
@[simp] theorem State.modPort_poison (s : State) (i : Nat) (g : Port → Port) : (s.modPort i g).poison = s.poison := rfl
@[simp] theorem State.modPort_pw (s : State) (i : Nat) (g : Port → Port) : (s.modPort i g).pw = s.pw := rfl
@[simp] theorem State.modPort_rw (s : State) (i : Nat) (g : Port → Port) : (s.modPort i g).rw = s.rw := rfl
@[simp] theorem State.modPort_uo (s : State) (i : Nat) (g : Port → Port) : (s.modPort i g).uo = s.uo := rfl
@[simp] theorem State.modPort_early (s : State) (i : Nat) (g : Port → Port) : (s.modPort i g).early = s.early := rfl
@[simp] theorem State.modPort_ctxs (s : State) (i : Nat) (g : Port → Port) : (s.modPort i g).ctxs = s.ctxs := rfl
@[simp] theorem State.modPort_cores (s : State) (i : Nat) (g : Port → Port) : (s.modPort i g).cores = s.cores := rfl
@[simp] theorem State.modPort_clusters (s : State) (i : Nat) (g : Port → Port) : (s.modPort i g).clusters = s.clusters := rfl
@[simp] theorem State.modPort_tasks (s : State) (i : Nat) (g : Port → Port) : (s.modPort i g).tasks = s.tasks := rfl
@[simp] theorem State.modPort_bars (s : State) (i : Nat) (g : Port → Port) : (s.modPort i g).bars = s.bars := rfl
@[simp] theorem State.modPort_cmds (s : State) (i : Nat) (g : Port → Port) : (s.modPort i g).cmds = s.cmds := rfl
@[simp] theorem State.modPort_nextId (s : State) (i : Nat) (g : Port → Port) : (s.modPort i g).nextId = s.nextId := rfl
@[simp] theorem State.modPort_handle (s : State) (i : Nat) (g : Port → Port) : (s.modPort i g).handle = s.handle := rfl
@[simp] theorem State.modPort_fdev (s : State) (i : Nat) (g : Port → Port) : (s.modPort i g).fdev = s.fdev := rfl
@[simp] theorem State.modPort_fstep (s : State) (i : Nat) (g : Port → Port) : (s.modPort i g).fstep = s.fstep := rfl
@[simp] theorem State.modPort_therm (s : State) (i : Nat) (g : Port → Port) : (s.modPort i g).therm = s.therm := rfl
@[simp] theorem State.modPort_overPower (s : State) (i : Nat) (g : Port → Port) : (s.modPort i g).overPower = s.overPower := rfl
@[simp] theorem State.modPort_lastGrant (s : State) (i : Nat) (g : Port → Port) : (s.modPort i g).lastGrant = s.lastGrant := rfl
@[simp] theorem State.modPort_units (s : State) (i : Nat) (g : Port → Port) : (s.modPort i g).units = s.units := rfl
@[simp] theorem State.modPort_dies (s : State) (i : Nat) (g : Port → Port) : (s.modPort i g).dies = s.dies := rfl
@[simp] theorem State.modPort_launches (s : State) (i : Nat) (g : Port → Port) : (s.modPort i g).launches = s.launches := rfl
@[simp] theorem State.modPort_shares (s : State) (i : Nat) (g : Port → Port) : (s.modPort i g).shares = s.shares := rfl
@[simp] theorem State.modPort_jobs (s : State) (i : Nat) (g : Port → Port) : (s.modPort i g).jobs = s.jobs := rfl
@[simp] theorem State.modPort_plat (s : State) (i : Nat) (g : Port → Port) : (s.modPort i g).plat = s.plat := rfl
@[simp] theorem State.modPort_dblref (s : State) (i : Nat) (g : Port → Port) : (s.modPort i g).dblref = s.dblref := rfl
@[simp] theorem State.modPort_sched (s : State) (i : Nat) (g : Port → Port) : (s.modPort i g).sched = s.sched := rfl
@[simp] theorem State.modPort_cur (s : State) (i : Nat) (g : Port → Port) : (s.modPort i g).cur = s.cur := rfl
@[simp] theorem State.modPort_iss (s : State) (i : Nat) (g : Port → Port) : (s.modPort i g).iss = s.iss := rfl
@[simp] theorem State.modPort_free (s : State) (i : Nat) (g : Port → Port) : (s.modPort i g).free = s.free := rfl

theorem State.setCtx_ctxs (s : State) (n : Nat) (c : Ctx) : (s.setCtx n c).ctxs = mapSet s.ctxs n c := rfl
@[simp] theorem State.setMem_mem (s : State) (m : Mem) : (s.setMem m).mem = m := rfl
@[simp] theorem State.putBytes_mem (s : State) (a k v : Nat) : (s.putBytes a k v).mem = memWriteN s.mem a k v := rfl
@[simp] theorem State.homeWrite_mem (s : State) (who key : Nat) (en : BitVec 8) (val : Word) :
    (s.homeWrite who key en val).mem = memMerge s.mem key val.toNat (enList en) := rfl
@[simp] theorem State.modFab_fab (s : State) (f : Fabric → Fabric) : (s.modFab f).fab = f s.fab := rfl
@[simp] theorem State.dropCmd_cmds (s : State) (id : Nat) : (s.dropCmd id).cmds = s.cmds.filter (·.id != id) := rfl

/-! Agents, cores, clusters, units and dies after an update. -/

@[simp] theorem State.ctxAt_setCtx_self (s : State) (n : Nat) (c : Ctx) : (s.setCtx n c).ctxAt n = c :=
  mapGet_mapSet_self _ _ _ _
theorem State.ctxAt_setCtx_ne (s : State) (n k : Nat) (c : Ctx) (h : k ≠ n) : (s.setCtx n c).ctxAt k = s.ctxAt k :=
  mapGet_mapSet_ne _ _ _ _ _ h
@[simp] theorem State.ctxAt_modCtx_self (s : State) (n : Nat) (f : Ctx → Ctx) : (s.modCtx n f).ctxAt n = f (s.ctxAt n) :=
  mapGet_mapSet_self _ _ _ _
theorem State.ctxAt_modCtx_ne (s : State) (n k : Nat) (f : Ctx → Ctx) (h : k ≠ n) : (s.modCtx n f).ctxAt k = s.ctxAt k :=
  mapGet_mapSet_ne _ _ _ _ _ h
@[simp] theorem State.coreAt_setCore_self (s : State) (n : Nat) (c : CoreSt) : (s.setCore n c).coreAt n = c :=
  mapGet_mapSet_self _ _ _ _
theorem State.coreAt_setCore_ne (s : State) (n k : Nat) (c : CoreSt) (h : k ≠ n) : (s.setCore n c).coreAt k = s.coreAt k :=
  mapGet_mapSet_ne _ _ _ _ _ h
@[simp] theorem State.coreAt_modCore_self (s : State) (n : Nat) (f : CoreSt → CoreSt) : (s.modCore n f).coreAt n = f (s.coreAt n) :=
  mapGet_mapSet_self _ _ _ _
@[simp] theorem State.clusterAt_setCluster_self (s : State) (n : Nat) (c : ClusterSt) : (s.setCluster n c).clusterAt n = c :=
  mapGet_mapSet_self _ _ _ _
@[simp] theorem State.unitAt_setUnit_self (s : State) (n : Nat) (u : TransUnit) : (s.setUnit n u).unitAt n = u :=
  mapGet_mapSet_self _ _ _ _

@[simp] theorem State.ctxAt_setCore (s : State) (n : Nat) (c : CoreSt) (k : Nat) : (s.setCore n c).ctxAt k = s.ctxAt k := rfl
@[simp] theorem State.ctxAt_modCore (s : State) (n : Nat) (f : CoreSt → CoreSt) (k : Nat) : (s.modCore n f).ctxAt k = s.ctxAt k := rfl
@[simp] theorem State.ctxAt_setCluster (s : State) (n : Nat) (c : ClusterSt) (k : Nat) : (s.setCluster n c).ctxAt k = s.ctxAt k := rfl
@[simp] theorem State.ctxAt_setUnit (s : State) (n : Nat) (u : TransUnit) (k : Nat) : (s.setUnit n u).ctxAt k = s.ctxAt k := rfl
@[simp] theorem State.ctxAt_modDie (s : State) (d : Nat) (f : DieSt → DieSt) (k : Nat) : (s.modDie d f).ctxAt k = s.ctxAt k := rfl
@[simp] theorem State.ctxAt_putBytes (s : State) (a j v : Nat) (k : Nat) : (s.putBytes a j v).ctxAt k = s.ctxAt k := rfl
@[simp] theorem State.ctxAt_modFab (s : State) (f : Fabric → Fabric) (k : Nat) : (s.modFab f).ctxAt k = s.ctxAt k := rfl
@[simp] theorem State.ctxAt_modTask (s : State) (id : Nat) (f : Task → Task) (k : Nat) : (s.modTask id f).ctxAt k = s.ctxAt k := rfl
@[simp] theorem State.ctxAt_putCmd (s : State) (c : Cmd) (k : Nat) : (s.putCmd c).ctxAt k = s.ctxAt k := rfl
@[simp] theorem State.ctxAt_dropCmd (s : State) (id : Nat) (k : Nat) : (s.dropCmd id).ctxAt k = s.ctxAt k := rfl

theorem State.die_setDie_zero (s : State) (x : DieSt) : (s.setDie 0 x).die 0 = x := by simp [State.setDie, State.die]
theorem State.die_setDie_one (s : State) (d : Nat) (x : DieSt) (h : d ≠ 0) : (s.setDie d x).die d = x := by
  simp [State.setDie, State.die, h]
theorem State.die_setDie_other (s : State) (x : DieSt) : (s.setDie 0 x).die 1 = s.die 1 := by simp [State.setDie, State.die]

/-! Ctx. -/

@[simp] theorem Ctx.setX_st (c : Ctx) (r : Reg) (w : Word) : (c.setX r w).st = c.st := by
  unfold Ctx.setX; split <;> rfl
@[simp] theorem Ctx.setX_drain (c : Ctx) (r : Reg) (w : Word) : (c.setX r w).drain = c.drain := by
  unfold Ctx.setX; split <;> rfl
@[simp] theorem Ctx.setX_drainSlot (c : Ctx) (r : Reg) (w : Word) : (c.setX r w).drainSlot = c.drainSlot := by
  unfold Ctx.setX; split <;> rfl
@[simp] theorem Ctx.setX_drainLen (c : Ctx) (r : Reg) (w : Word) : (c.setX r w).drainLen = c.drainLen := by
  unfold Ctx.setX; split <;> rfl
@[simp] theorem Ctx.setX_v (c : Ctx) (r : Reg) (w : Word) : (c.setX r w).v = c.v := by
  unfold Ctx.setX; split <;> rfl
@[simp] theorem Ctx.setX_m (c : Ctx) (r : Reg) (w : Word) : (c.setX r w).m = c.m := by
  unfold Ctx.setX; split <;> rfl
@[simp] theorem Ctx.setX_k (c : Ctx) (r : Reg) (w : Word) : (c.setX r w).k = c.k := by
  unfold Ctx.setX; split <;> rfl
@[simp] theorem Ctx.setX_fullX (c : Ctx) (r : Reg) (w : Word) : (c.setX r w).fullX = c.fullX := by
  unfold Ctx.setX; split <;> rfl
@[simp] theorem Ctx.setX_fullV (c : Ctx) (r : Reg) (w : Word) : (c.setX r w).fullV = c.fullV := by
  unfold Ctx.setX; split <;> rfl
@[simp] theorem Ctx.setX_poisonV (c : Ctx) (r : Reg) (w : Word) : (c.setX r w).poisonV = c.poisonV := by
  unfold Ctx.setX; split <;> rfl
@[simp] theorem Ctx.setX_pc (c : Ctx) (r : Reg) (w : Word) : (c.setX r w).pc = c.pc := by
  unfold Ctx.setX; split <;> rfl
@[simp] theorem Ctx.setX_cr (c : Ctx) (r : Reg) (w : Word) : (c.setX r w).cr = c.cr := by
  unfold Ctx.setX; split <;> rfl
@[simp] theorem Ctx.setX_crPend (c : Ctx) (r : Reg) (w : Word) : (c.setX r w).crPend = c.crPend := by
  unfold Ctx.setX; split <;> rfl
@[simp] theorem Ctx.setX_loops (c : Ctx) (r : Reg) (w : Word) : (c.setX r w).loops = c.loops := by
  unfold Ctx.setX; split <;> rfl
@[simp] theorem Ctx.setX_pend (c : Ctx) (r : Reg) (w : Word) : (c.setX r w).pend = c.pend := by
  unfold Ctx.setX; split <;> rfl
@[simp] theorem Ctx.setX_acc (c : Ctx) (r : Reg) (w : Word) : (c.setX r w).acc = c.acc := by
  unfold Ctx.setX; split <;> rfl
@[simp] theorem Ctx.setX_held (c : Ctx) (r : Reg) (w : Word) : (c.setX r w).held = c.held := by
  unfold Ctx.setX; split <;> rfl
@[simp] theorem Ctx.setX_sn (c : Ctx) (r : Reg) (w : Word) : (c.setX r w).sn = c.sn := by
  unfold Ctx.setX; split <;> rfl
@[simp] theorem Ctx.setX_abuf (c : Ctx) (r : Reg) (w : Word) : (c.setX r w).abuf = c.abuf := by
  unfold Ctx.setX; split <;> rfl
@[simp] theorem Ctx.setX_budget (c : Ctx) (r : Reg) (w : Word) : (c.setX r w).budget = c.budget := by
  unfold Ctx.setX; split <;> rfl
@[simp] theorem Ctx.setX_mstat (c : Ctx) (r : Reg) (w : Word) : (c.setX r w).mstat = c.mstat := by
  unfold Ctx.setX; split <;> rfl
@[simp] theorem Ctx.setX_frames (c : Ctx) (r : Reg) (w : Word) : (c.setX r w).frames = c.frames := by
  unfold Ctx.setX; split <;> rfl
@[simp] theorem Ctx.setX_window (c : Ctx) (r : Reg) (w : Word) : (c.setX r w).window = c.window := by
  unfold Ctx.setX; split <;> rfl
@[simp] theorem Ctx.setX_notice (c : Ctx) (r : Reg) (w : Word) : (c.setX r w).notice = c.notice := by
  unfold Ctx.setX; split <;> rfl
@[simp] theorem Ctx.setX_task (c : Ctx) (r : Reg) (w : Word) : (c.setX r w).task = c.task := by
  unfold Ctx.setX; split <;> rfl
@[simp] theorem Ctx.setX_stepover (c : Ctx) (r : Reg) (w : Word) : (c.setX r w).stepover = c.stepover := by
  unfold Ctx.setX; split <;> rfl
@[simp] theorem Ctx.setX_satisfied (c : Ctx) (r : Reg) (w : Word) : (c.setX r w).satisfied = c.satisfied := by
  unfold Ctx.setX; split <;> rfl
@[simp] theorem Ctx.setX_arrived (c : Ctx) (r : Reg) (w : Word) : (c.setX r w).arrived = c.arrived := by
  unfold Ctx.setX; split <;> rfl
@[simp] theorem Ctx.setX_passed (c : Ctx) (r : Reg) (w : Word) : (c.setX r w).passed = c.passed := by
  unfold Ctx.setX; split <;> rfl
@[simp] theorem Ctx.setX_live (c : Ctx) (r : Reg) (w : Word) : (c.setX r w).live = c.live := by
  unfold Ctx.setX; split <;> rfl
@[simp] theorem Ctx.setX_stopPoint (c : Ctx) (r : Reg) (w : Word) : (c.setX r w).stopPoint = c.stopPoint := by
  unfold Ctx.setX; split <;> rfl
@[simp] theorem Ctx.setX_pendingSince (c : Ctx) (r : Reg) (w : Word) : (c.setX r w).pendingSince = c.pendingSince := by
  unfold Ctx.setX; split <;> rfl
@[simp] theorem Ctx.setX_grp (c : Ctx) (r : Reg) (w : Word) : (c.setX r w).grp = c.grp := by
  unfold Ctx.setX; split <;> rfl
@[simp] theorem Ctx.setX_vextBad (c : Ctx) (r : Reg) (w : Word) : (c.setX r w).vextBad = c.vextBad := by
  unfold Ctx.setX; split <;> rfl
@[simp] theorem Ctx.setX_pulled (c : Ctx) (r : Reg) (w : Word) : (c.setX r w).pulled = c.pulled := by
  unfold Ctx.setX; split <;> rfl
@[simp] theorem Ctx.setX_steps (c : Ctx) (r : Reg) (w : Word) : (c.setX r w).steps = c.steps := by
  unfold Ctx.setX; split <;> rfl
@[simp] theorem Ctx.setX_halts (c : Ctx) (r : Reg) (w : Word) : (c.setX r w).halts = c.halts := by
  unfold Ctx.setX; split <;> rfl
@[simp] theorem Ctx.setX_frozenKind (c : Ctx) (r : Reg) (w : Word) : (c.setX r w).frozenKind = c.frozenKind := by
  unfold Ctx.setX; split <;> rfl
@[simp] theorem Ctx.setX_repOn (c : Ctx) (r : Reg) (w : Word) : (c.setX r w).repOn = c.repOn := by
  unfold Ctx.setX; split <;> rfl
@[simp] theorem Ctx.setX_repNext (c : Ctx) (r : Reg) (w : Word) : (c.setX r w).repNext = c.repNext := by
  unfold Ctx.setX; split <;> rfl

@[simp] theorem Ctx.setV_st (c : Ctx) (r : Reg) (w : Row) : (c.setV r w).st = c.st := rfl
@[simp] theorem Ctx.setV_drain (c : Ctx) (r : Reg) (w : Row) : (c.setV r w).drain = c.drain := rfl
@[simp] theorem Ctx.setV_drainSlot (c : Ctx) (r : Reg) (w : Row) : (c.setV r w).drainSlot = c.drainSlot := rfl
@[simp] theorem Ctx.setV_drainLen (c : Ctx) (r : Reg) (w : Row) : (c.setV r w).drainLen = c.drainLen := rfl
@[simp] theorem Ctx.setV_x (c : Ctx) (r : Reg) (w : Row) : (c.setV r w).x = c.x := rfl
@[simp] theorem Ctx.setV_m (c : Ctx) (r : Reg) (w : Row) : (c.setV r w).m = c.m := rfl
@[simp] theorem Ctx.setV_k (c : Ctx) (r : Reg) (w : Row) : (c.setV r w).k = c.k := rfl
@[simp] theorem Ctx.setV_fullX (c : Ctx) (r : Reg) (w : Row) : (c.setV r w).fullX = c.fullX := rfl
@[simp] theorem Ctx.setV_fullV (c : Ctx) (r : Reg) (w : Row) : (c.setV r w).fullV = c.fullV := rfl
@[simp] theorem Ctx.setV_poisonV (c : Ctx) (r : Reg) (w : Row) : (c.setV r w).poisonV = c.poisonV := rfl
@[simp] theorem Ctx.setV_pc (c : Ctx) (r : Reg) (w : Row) : (c.setV r w).pc = c.pc := rfl
@[simp] theorem Ctx.setV_cr (c : Ctx) (r : Reg) (w : Row) : (c.setV r w).cr = c.cr := rfl
@[simp] theorem Ctx.setV_crPend (c : Ctx) (r : Reg) (w : Row) : (c.setV r w).crPend = c.crPend := rfl
@[simp] theorem Ctx.setV_loops (c : Ctx) (r : Reg) (w : Row) : (c.setV r w).loops = c.loops := rfl
@[simp] theorem Ctx.setV_pend (c : Ctx) (r : Reg) (w : Row) : (c.setV r w).pend = c.pend := rfl
@[simp] theorem Ctx.setV_acc (c : Ctx) (r : Reg) (w : Row) : (c.setV r w).acc = c.acc := rfl
@[simp] theorem Ctx.setV_held (c : Ctx) (r : Reg) (w : Row) : (c.setV r w).held = c.held := rfl
@[simp] theorem Ctx.setV_sn (c : Ctx) (r : Reg) (w : Row) : (c.setV r w).sn = c.sn := rfl
@[simp] theorem Ctx.setV_abuf (c : Ctx) (r : Reg) (w : Row) : (c.setV r w).abuf = c.abuf := rfl
@[simp] theorem Ctx.setV_budget (c : Ctx) (r : Reg) (w : Row) : (c.setV r w).budget = c.budget := rfl
@[simp] theorem Ctx.setV_mstat (c : Ctx) (r : Reg) (w : Row) : (c.setV r w).mstat = c.mstat := rfl
@[simp] theorem Ctx.setV_frames (c : Ctx) (r : Reg) (w : Row) : (c.setV r w).frames = c.frames := rfl
@[simp] theorem Ctx.setV_window (c : Ctx) (r : Reg) (w : Row) : (c.setV r w).window = c.window := rfl
@[simp] theorem Ctx.setV_notice (c : Ctx) (r : Reg) (w : Row) : (c.setV r w).notice = c.notice := rfl
@[simp] theorem Ctx.setV_task (c : Ctx) (r : Reg) (w : Row) : (c.setV r w).task = c.task := rfl
@[simp] theorem Ctx.setV_stepover (c : Ctx) (r : Reg) (w : Row) : (c.setV r w).stepover = c.stepover := rfl
@[simp] theorem Ctx.setV_satisfied (c : Ctx) (r : Reg) (w : Row) : (c.setV r w).satisfied = c.satisfied := rfl
@[simp] theorem Ctx.setV_arrived (c : Ctx) (r : Reg) (w : Row) : (c.setV r w).arrived = c.arrived := rfl
@[simp] theorem Ctx.setV_passed (c : Ctx) (r : Reg) (w : Row) : (c.setV r w).passed = c.passed := rfl
@[simp] theorem Ctx.setV_live (c : Ctx) (r : Reg) (w : Row) : (c.setV r w).live = c.live := rfl
@[simp] theorem Ctx.setV_stopPoint (c : Ctx) (r : Reg) (w : Row) : (c.setV r w).stopPoint = c.stopPoint := rfl
@[simp] theorem Ctx.setV_pendingSince (c : Ctx) (r : Reg) (w : Row) : (c.setV r w).pendingSince = c.pendingSince := rfl
@[simp] theorem Ctx.setV_grp (c : Ctx) (r : Reg) (w : Row) : (c.setV r w).grp = c.grp := rfl
@[simp] theorem Ctx.setV_vextBad (c : Ctx) (r : Reg) (w : Row) : (c.setV r w).vextBad = c.vextBad := rfl
@[simp] theorem Ctx.setV_pulled (c : Ctx) (r : Reg) (w : Row) : (c.setV r w).pulled = c.pulled := rfl
@[simp] theorem Ctx.setV_steps (c : Ctx) (r : Reg) (w : Row) : (c.setV r w).steps = c.steps := rfl
@[simp] theorem Ctx.setV_halts (c : Ctx) (r : Reg) (w : Row) : (c.setV r w).halts = c.halts := rfl
@[simp] theorem Ctx.setV_frozenKind (c : Ctx) (r : Reg) (w : Row) : (c.setV r w).frozenKind = c.frozenKind := rfl
@[simp] theorem Ctx.setV_repOn (c : Ctx) (r : Reg) (w : Row) : (c.setV r w).repOn = c.repOn := rfl
@[simp] theorem Ctx.setV_repNext (c : Ctx) (r : Reg) (w : Row) : (c.setV r w).repNext = c.repNext := rfl

@[simp] theorem Ctx.setM_st (c : Ctx) (r : MReg) (w : Mask) : (c.setM r w).st = c.st := by
  unfold Ctx.setM; split <;> rfl
@[simp] theorem Ctx.setM_drain (c : Ctx) (r : MReg) (w : Mask) : (c.setM r w).drain = c.drain := by
  unfold Ctx.setM; split <;> rfl
@[simp] theorem Ctx.setM_drainSlot (c : Ctx) (r : MReg) (w : Mask) : (c.setM r w).drainSlot = c.drainSlot := by
  unfold Ctx.setM; split <;> rfl
@[simp] theorem Ctx.setM_drainLen (c : Ctx) (r : MReg) (w : Mask) : (c.setM r w).drainLen = c.drainLen := by
  unfold Ctx.setM; split <;> rfl
@[simp] theorem Ctx.setM_x (c : Ctx) (r : MReg) (w : Mask) : (c.setM r w).x = c.x := by
  unfold Ctx.setM; split <;> rfl
@[simp] theorem Ctx.setM_v (c : Ctx) (r : MReg) (w : Mask) : (c.setM r w).v = c.v := by
  unfold Ctx.setM; split <;> rfl
@[simp] theorem Ctx.setM_k (c : Ctx) (r : MReg) (w : Mask) : (c.setM r w).k = c.k := by
  unfold Ctx.setM; split <;> rfl
@[simp] theorem Ctx.setM_fullX (c : Ctx) (r : MReg) (w : Mask) : (c.setM r w).fullX = c.fullX := by
  unfold Ctx.setM; split <;> rfl
@[simp] theorem Ctx.setM_fullV (c : Ctx) (r : MReg) (w : Mask) : (c.setM r w).fullV = c.fullV := by
  unfold Ctx.setM; split <;> rfl
@[simp] theorem Ctx.setM_poisonV (c : Ctx) (r : MReg) (w : Mask) : (c.setM r w).poisonV = c.poisonV := by
  unfold Ctx.setM; split <;> rfl
@[simp] theorem Ctx.setM_pc (c : Ctx) (r : MReg) (w : Mask) : (c.setM r w).pc = c.pc := by
  unfold Ctx.setM; split <;> rfl
@[simp] theorem Ctx.setM_cr (c : Ctx) (r : MReg) (w : Mask) : (c.setM r w).cr = c.cr := by
  unfold Ctx.setM; split <;> rfl
@[simp] theorem Ctx.setM_crPend (c : Ctx) (r : MReg) (w : Mask) : (c.setM r w).crPend = c.crPend := by
  unfold Ctx.setM; split <;> rfl
@[simp] theorem Ctx.setM_loops (c : Ctx) (r : MReg) (w : Mask) : (c.setM r w).loops = c.loops := by
  unfold Ctx.setM; split <;> rfl
@[simp] theorem Ctx.setM_pend (c : Ctx) (r : MReg) (w : Mask) : (c.setM r w).pend = c.pend := by
  unfold Ctx.setM; split <;> rfl
@[simp] theorem Ctx.setM_acc (c : Ctx) (r : MReg) (w : Mask) : (c.setM r w).acc = c.acc := by
  unfold Ctx.setM; split <;> rfl
@[simp] theorem Ctx.setM_held (c : Ctx) (r : MReg) (w : Mask) : (c.setM r w).held = c.held := by
  unfold Ctx.setM; split <;> rfl
@[simp] theorem Ctx.setM_sn (c : Ctx) (r : MReg) (w : Mask) : (c.setM r w).sn = c.sn := by
  unfold Ctx.setM; split <;> rfl
@[simp] theorem Ctx.setM_abuf (c : Ctx) (r : MReg) (w : Mask) : (c.setM r w).abuf = c.abuf := by
  unfold Ctx.setM; split <;> rfl
@[simp] theorem Ctx.setM_budget (c : Ctx) (r : MReg) (w : Mask) : (c.setM r w).budget = c.budget := by
  unfold Ctx.setM; split <;> rfl
@[simp] theorem Ctx.setM_mstat (c : Ctx) (r : MReg) (w : Mask) : (c.setM r w).mstat = c.mstat := by
  unfold Ctx.setM; split <;> rfl
@[simp] theorem Ctx.setM_frames (c : Ctx) (r : MReg) (w : Mask) : (c.setM r w).frames = c.frames := by
  unfold Ctx.setM; split <;> rfl
@[simp] theorem Ctx.setM_window (c : Ctx) (r : MReg) (w : Mask) : (c.setM r w).window = c.window := by
  unfold Ctx.setM; split <;> rfl
@[simp] theorem Ctx.setM_notice (c : Ctx) (r : MReg) (w : Mask) : (c.setM r w).notice = c.notice := by
  unfold Ctx.setM; split <;> rfl
@[simp] theorem Ctx.setM_task (c : Ctx) (r : MReg) (w : Mask) : (c.setM r w).task = c.task := by
  unfold Ctx.setM; split <;> rfl
@[simp] theorem Ctx.setM_stepover (c : Ctx) (r : MReg) (w : Mask) : (c.setM r w).stepover = c.stepover := by
  unfold Ctx.setM; split <;> rfl
@[simp] theorem Ctx.setM_satisfied (c : Ctx) (r : MReg) (w : Mask) : (c.setM r w).satisfied = c.satisfied := by
  unfold Ctx.setM; split <;> rfl
@[simp] theorem Ctx.setM_arrived (c : Ctx) (r : MReg) (w : Mask) : (c.setM r w).arrived = c.arrived := by
  unfold Ctx.setM; split <;> rfl
@[simp] theorem Ctx.setM_passed (c : Ctx) (r : MReg) (w : Mask) : (c.setM r w).passed = c.passed := by
  unfold Ctx.setM; split <;> rfl
@[simp] theorem Ctx.setM_live (c : Ctx) (r : MReg) (w : Mask) : (c.setM r w).live = c.live := by
  unfold Ctx.setM; split <;> rfl
@[simp] theorem Ctx.setM_stopPoint (c : Ctx) (r : MReg) (w : Mask) : (c.setM r w).stopPoint = c.stopPoint := by
  unfold Ctx.setM; split <;> rfl
@[simp] theorem Ctx.setM_pendingSince (c : Ctx) (r : MReg) (w : Mask) : (c.setM r w).pendingSince = c.pendingSince := by
  unfold Ctx.setM; split <;> rfl
@[simp] theorem Ctx.setM_grp (c : Ctx) (r : MReg) (w : Mask) : (c.setM r w).grp = c.grp := by
  unfold Ctx.setM; split <;> rfl
@[simp] theorem Ctx.setM_vextBad (c : Ctx) (r : MReg) (w : Mask) : (c.setM r w).vextBad = c.vextBad := by
  unfold Ctx.setM; split <;> rfl
@[simp] theorem Ctx.setM_pulled (c : Ctx) (r : MReg) (w : Mask) : (c.setM r w).pulled = c.pulled := by
  unfold Ctx.setM; split <;> rfl
@[simp] theorem Ctx.setM_steps (c : Ctx) (r : MReg) (w : Mask) : (c.setM r w).steps = c.steps := by
  unfold Ctx.setM; split <;> rfl
@[simp] theorem Ctx.setM_halts (c : Ctx) (r : MReg) (w : Mask) : (c.setM r w).halts = c.halts := by
  unfold Ctx.setM; split <;> rfl
@[simp] theorem Ctx.setM_frozenKind (c : Ctx) (r : MReg) (w : Mask) : (c.setM r w).frozenKind = c.frozenKind := by
  unfold Ctx.setM; split <;> rfl
@[simp] theorem Ctx.setM_repOn (c : Ctx) (r : MReg) (w : Mask) : (c.setM r w).repOn = c.repOn := by
  unfold Ctx.setM; split <;> rfl
@[simp] theorem Ctx.setM_repNext (c : Ctx) (r : MReg) (w : Mask) : (c.setM r w).repNext = c.repNext := by
  unfold Ctx.setM; split <;> rfl

@[simp] theorem Ctx.setK_st (c : Ctx) (r : Tok) (t : Token) : (c.setK r t).st = c.st := by
  unfold Ctx.setK; split <;> rfl
@[simp] theorem Ctx.setK_drain (c : Ctx) (r : Tok) (t : Token) : (c.setK r t).drain = c.drain := by
  unfold Ctx.setK; split <;> rfl
@[simp] theorem Ctx.setK_drainSlot (c : Ctx) (r : Tok) (t : Token) : (c.setK r t).drainSlot = c.drainSlot := by
  unfold Ctx.setK; split <;> rfl
@[simp] theorem Ctx.setK_drainLen (c : Ctx) (r : Tok) (t : Token) : (c.setK r t).drainLen = c.drainLen := by
  unfold Ctx.setK; split <;> rfl
@[simp] theorem Ctx.setK_x (c : Ctx) (r : Tok) (t : Token) : (c.setK r t).x = c.x := by
  unfold Ctx.setK; split <;> rfl
@[simp] theorem Ctx.setK_v (c : Ctx) (r : Tok) (t : Token) : (c.setK r t).v = c.v := by
  unfold Ctx.setK; split <;> rfl
@[simp] theorem Ctx.setK_m (c : Ctx) (r : Tok) (t : Token) : (c.setK r t).m = c.m := by
  unfold Ctx.setK; split <;> rfl
@[simp] theorem Ctx.setK_fullX (c : Ctx) (r : Tok) (t : Token) : (c.setK r t).fullX = c.fullX := by
  unfold Ctx.setK; split <;> rfl
@[simp] theorem Ctx.setK_fullV (c : Ctx) (r : Tok) (t : Token) : (c.setK r t).fullV = c.fullV := by
  unfold Ctx.setK; split <;> rfl
@[simp] theorem Ctx.setK_poisonV (c : Ctx) (r : Tok) (t : Token) : (c.setK r t).poisonV = c.poisonV := by
  unfold Ctx.setK; split <;> rfl
@[simp] theorem Ctx.setK_pc (c : Ctx) (r : Tok) (t : Token) : (c.setK r t).pc = c.pc := by
  unfold Ctx.setK; split <;> rfl
@[simp] theorem Ctx.setK_cr (c : Ctx) (r : Tok) (t : Token) : (c.setK r t).cr = c.cr := by
  unfold Ctx.setK; split <;> rfl
@[simp] theorem Ctx.setK_crPend (c : Ctx) (r : Tok) (t : Token) : (c.setK r t).crPend = c.crPend := by
  unfold Ctx.setK; split <;> rfl
@[simp] theorem Ctx.setK_loops (c : Ctx) (r : Tok) (t : Token) : (c.setK r t).loops = c.loops := by
  unfold Ctx.setK; split <;> rfl
@[simp] theorem Ctx.setK_pend (c : Ctx) (r : Tok) (t : Token) : (c.setK r t).pend = c.pend := by
  unfold Ctx.setK; split <;> rfl
@[simp] theorem Ctx.setK_acc (c : Ctx) (r : Tok) (t : Token) : (c.setK r t).acc = c.acc := by
  unfold Ctx.setK; split <;> rfl
@[simp] theorem Ctx.setK_held (c : Ctx) (r : Tok) (t : Token) : (c.setK r t).held = c.held := by
  unfold Ctx.setK; split <;> rfl
@[simp] theorem Ctx.setK_sn (c : Ctx) (r : Tok) (t : Token) : (c.setK r t).sn = c.sn := by
  unfold Ctx.setK; split <;> rfl
@[simp] theorem Ctx.setK_abuf (c : Ctx) (r : Tok) (t : Token) : (c.setK r t).abuf = c.abuf := by
  unfold Ctx.setK; split <;> rfl
@[simp] theorem Ctx.setK_budget (c : Ctx) (r : Tok) (t : Token) : (c.setK r t).budget = c.budget := by
  unfold Ctx.setK; split <;> rfl
@[simp] theorem Ctx.setK_mstat (c : Ctx) (r : Tok) (t : Token) : (c.setK r t).mstat = c.mstat := by
  unfold Ctx.setK; split <;> rfl
@[simp] theorem Ctx.setK_frames (c : Ctx) (r : Tok) (t : Token) : (c.setK r t).frames = c.frames := by
  unfold Ctx.setK; split <;> rfl
@[simp] theorem Ctx.setK_window (c : Ctx) (r : Tok) (t : Token) : (c.setK r t).window = c.window := by
  unfold Ctx.setK; split <;> rfl
@[simp] theorem Ctx.setK_notice (c : Ctx) (r : Tok) (t : Token) : (c.setK r t).notice = c.notice := by
  unfold Ctx.setK; split <;> rfl
@[simp] theorem Ctx.setK_task (c : Ctx) (r : Tok) (t : Token) : (c.setK r t).task = c.task := by
  unfold Ctx.setK; split <;> rfl
@[simp] theorem Ctx.setK_stepover (c : Ctx) (r : Tok) (t : Token) : (c.setK r t).stepover = c.stepover := by
  unfold Ctx.setK; split <;> rfl
@[simp] theorem Ctx.setK_satisfied (c : Ctx) (r : Tok) (t : Token) : (c.setK r t).satisfied = c.satisfied := by
  unfold Ctx.setK; split <;> rfl
@[simp] theorem Ctx.setK_arrived (c : Ctx) (r : Tok) (t : Token) : (c.setK r t).arrived = c.arrived := by
  unfold Ctx.setK; split <;> rfl
@[simp] theorem Ctx.setK_passed (c : Ctx) (r : Tok) (t : Token) : (c.setK r t).passed = c.passed := by
  unfold Ctx.setK; split <;> rfl
@[simp] theorem Ctx.setK_live (c : Ctx) (r : Tok) (t : Token) : (c.setK r t).live = c.live := by
  unfold Ctx.setK; split <;> rfl
@[simp] theorem Ctx.setK_stopPoint (c : Ctx) (r : Tok) (t : Token) : (c.setK r t).stopPoint = c.stopPoint := by
  unfold Ctx.setK; split <;> rfl
@[simp] theorem Ctx.setK_pendingSince (c : Ctx) (r : Tok) (t : Token) : (c.setK r t).pendingSince = c.pendingSince := by
  unfold Ctx.setK; split <;> rfl
@[simp] theorem Ctx.setK_grp (c : Ctx) (r : Tok) (t : Token) : (c.setK r t).grp = c.grp := by
  unfold Ctx.setK; split <;> rfl
@[simp] theorem Ctx.setK_vextBad (c : Ctx) (r : Tok) (t : Token) : (c.setK r t).vextBad = c.vextBad := by
  unfold Ctx.setK; split <;> rfl
@[simp] theorem Ctx.setK_pulled (c : Ctx) (r : Tok) (t : Token) : (c.setK r t).pulled = c.pulled := by
  unfold Ctx.setK; split <;> rfl
@[simp] theorem Ctx.setK_steps (c : Ctx) (r : Tok) (t : Token) : (c.setK r t).steps = c.steps := by
  unfold Ctx.setK; split <;> rfl
@[simp] theorem Ctx.setK_halts (c : Ctx) (r : Tok) (t : Token) : (c.setK r t).halts = c.halts := by
  unfold Ctx.setK; split <;> rfl
@[simp] theorem Ctx.setK_frozenKind (c : Ctx) (r : Tok) (t : Token) : (c.setK r t).frozenKind = c.frozenKind := by
  unfold Ctx.setK; split <;> rfl
@[simp] theorem Ctx.setK_repOn (c : Ctx) (r : Tok) (t : Token) : (c.setK r t).repOn = c.repOn := by
  unfold Ctx.setK; split <;> rfl
@[simp] theorem Ctx.setK_repNext (c : Ctx) (r : Tok) (t : Token) : (c.setK r t).repNext = c.repNext := by
  unfold Ctx.setK; split <;> rfl

@[simp] theorem Ctx.markX_st (c : Ctx) (r : Reg) (b : Bool) : (c.markX r b).st = c.st := by
  unfold Ctx.markX; split <;> rfl
@[simp] theorem Ctx.markX_drain (c : Ctx) (r : Reg) (b : Bool) : (c.markX r b).drain = c.drain := by
  unfold Ctx.markX; split <;> rfl
@[simp] theorem Ctx.markX_drainSlot (c : Ctx) (r : Reg) (b : Bool) : (c.markX r b).drainSlot = c.drainSlot := by
  unfold Ctx.markX; split <;> rfl
@[simp] theorem Ctx.markX_drainLen (c : Ctx) (r : Reg) (b : Bool) : (c.markX r b).drainLen = c.drainLen := by
  unfold Ctx.markX; split <;> rfl
@[simp] theorem Ctx.markX_x (c : Ctx) (r : Reg) (b : Bool) : (c.markX r b).x = c.x := by
  unfold Ctx.markX; split <;> rfl
@[simp] theorem Ctx.markX_v (c : Ctx) (r : Reg) (b : Bool) : (c.markX r b).v = c.v := by
  unfold Ctx.markX; split <;> rfl
@[simp] theorem Ctx.markX_m (c : Ctx) (r : Reg) (b : Bool) : (c.markX r b).m = c.m := by
  unfold Ctx.markX; split <;> rfl
@[simp] theorem Ctx.markX_k (c : Ctx) (r : Reg) (b : Bool) : (c.markX r b).k = c.k := by
  unfold Ctx.markX; split <;> rfl
@[simp] theorem Ctx.markX_fullV (c : Ctx) (r : Reg) (b : Bool) : (c.markX r b).fullV = c.fullV := by
  unfold Ctx.markX; split <;> rfl
@[simp] theorem Ctx.markX_poisonV (c : Ctx) (r : Reg) (b : Bool) : (c.markX r b).poisonV = c.poisonV := by
  unfold Ctx.markX; split <;> rfl
@[simp] theorem Ctx.markX_pc (c : Ctx) (r : Reg) (b : Bool) : (c.markX r b).pc = c.pc := by
  unfold Ctx.markX; split <;> rfl
@[simp] theorem Ctx.markX_cr (c : Ctx) (r : Reg) (b : Bool) : (c.markX r b).cr = c.cr := by
  unfold Ctx.markX; split <;> rfl
@[simp] theorem Ctx.markX_crPend (c : Ctx) (r : Reg) (b : Bool) : (c.markX r b).crPend = c.crPend := by
  unfold Ctx.markX; split <;> rfl
@[simp] theorem Ctx.markX_loops (c : Ctx) (r : Reg) (b : Bool) : (c.markX r b).loops = c.loops := by
  unfold Ctx.markX; split <;> rfl
@[simp] theorem Ctx.markX_pend (c : Ctx) (r : Reg) (b : Bool) : (c.markX r b).pend = c.pend := by
  unfold Ctx.markX; split <;> rfl
@[simp] theorem Ctx.markX_acc (c : Ctx) (r : Reg) (b : Bool) : (c.markX r b).acc = c.acc := by
  unfold Ctx.markX; split <;> rfl
@[simp] theorem Ctx.markX_held (c : Ctx) (r : Reg) (b : Bool) : (c.markX r b).held = c.held := by
  unfold Ctx.markX; split <;> rfl
@[simp] theorem Ctx.markX_sn (c : Ctx) (r : Reg) (b : Bool) : (c.markX r b).sn = c.sn := by
  unfold Ctx.markX; split <;> rfl
@[simp] theorem Ctx.markX_abuf (c : Ctx) (r : Reg) (b : Bool) : (c.markX r b).abuf = c.abuf := by
  unfold Ctx.markX; split <;> rfl
@[simp] theorem Ctx.markX_budget (c : Ctx) (r : Reg) (b : Bool) : (c.markX r b).budget = c.budget := by
  unfold Ctx.markX; split <;> rfl
@[simp] theorem Ctx.markX_mstat (c : Ctx) (r : Reg) (b : Bool) : (c.markX r b).mstat = c.mstat := by
  unfold Ctx.markX; split <;> rfl
@[simp] theorem Ctx.markX_frames (c : Ctx) (r : Reg) (b : Bool) : (c.markX r b).frames = c.frames := by
  unfold Ctx.markX; split <;> rfl
@[simp] theorem Ctx.markX_window (c : Ctx) (r : Reg) (b : Bool) : (c.markX r b).window = c.window := by
  unfold Ctx.markX; split <;> rfl
@[simp] theorem Ctx.markX_notice (c : Ctx) (r : Reg) (b : Bool) : (c.markX r b).notice = c.notice := by
  unfold Ctx.markX; split <;> rfl
@[simp] theorem Ctx.markX_task (c : Ctx) (r : Reg) (b : Bool) : (c.markX r b).task = c.task := by
  unfold Ctx.markX; split <;> rfl
@[simp] theorem Ctx.markX_stepover (c : Ctx) (r : Reg) (b : Bool) : (c.markX r b).stepover = c.stepover := by
  unfold Ctx.markX; split <;> rfl
@[simp] theorem Ctx.markX_satisfied (c : Ctx) (r : Reg) (b : Bool) : (c.markX r b).satisfied = c.satisfied := by
  unfold Ctx.markX; split <;> rfl
@[simp] theorem Ctx.markX_arrived (c : Ctx) (r : Reg) (b : Bool) : (c.markX r b).arrived = c.arrived := by
  unfold Ctx.markX; split <;> rfl
@[simp] theorem Ctx.markX_passed (c : Ctx) (r : Reg) (b : Bool) : (c.markX r b).passed = c.passed := by
  unfold Ctx.markX; split <;> rfl
@[simp] theorem Ctx.markX_live (c : Ctx) (r : Reg) (b : Bool) : (c.markX r b).live = c.live := by
  unfold Ctx.markX; split <;> rfl
@[simp] theorem Ctx.markX_stopPoint (c : Ctx) (r : Reg) (b : Bool) : (c.markX r b).stopPoint = c.stopPoint := by
  unfold Ctx.markX; split <;> rfl
@[simp] theorem Ctx.markX_pendingSince (c : Ctx) (r : Reg) (b : Bool) : (c.markX r b).pendingSince = c.pendingSince := by
  unfold Ctx.markX; split <;> rfl
@[simp] theorem Ctx.markX_grp (c : Ctx) (r : Reg) (b : Bool) : (c.markX r b).grp = c.grp := by
  unfold Ctx.markX; split <;> rfl
@[simp] theorem Ctx.markX_vextBad (c : Ctx) (r : Reg) (b : Bool) : (c.markX r b).vextBad = c.vextBad := by
  unfold Ctx.markX; split <;> rfl
@[simp] theorem Ctx.markX_pulled (c : Ctx) (r : Reg) (b : Bool) : (c.markX r b).pulled = c.pulled := by
  unfold Ctx.markX; split <;> rfl
@[simp] theorem Ctx.markX_steps (c : Ctx) (r : Reg) (b : Bool) : (c.markX r b).steps = c.steps := by
  unfold Ctx.markX; split <;> rfl
@[simp] theorem Ctx.markX_halts (c : Ctx) (r : Reg) (b : Bool) : (c.markX r b).halts = c.halts := by
  unfold Ctx.markX; split <;> rfl
@[simp] theorem Ctx.markX_frozenKind (c : Ctx) (r : Reg) (b : Bool) : (c.markX r b).frozenKind = c.frozenKind := by
  unfold Ctx.markX; split <;> rfl
@[simp] theorem Ctx.markX_repOn (c : Ctx) (r : Reg) (b : Bool) : (c.markX r b).repOn = c.repOn := by
  unfold Ctx.markX; split <;> rfl
@[simp] theorem Ctx.markX_repNext (c : Ctx) (r : Reg) (b : Bool) : (c.markX r b).repNext = c.repNext := by
  unfold Ctx.markX; split <;> rfl

@[simp] theorem Ctx.markV_st (c : Ctx) (r : Reg) (b : Bool) : (c.markV r b).st = c.st := rfl
@[simp] theorem Ctx.markV_drain (c : Ctx) (r : Reg) (b : Bool) : (c.markV r b).drain = c.drain := rfl
@[simp] theorem Ctx.markV_drainSlot (c : Ctx) (r : Reg) (b : Bool) : (c.markV r b).drainSlot = c.drainSlot := rfl
@[simp] theorem Ctx.markV_drainLen (c : Ctx) (r : Reg) (b : Bool) : (c.markV r b).drainLen = c.drainLen := rfl
@[simp] theorem Ctx.markV_x (c : Ctx) (r : Reg) (b : Bool) : (c.markV r b).x = c.x := rfl
@[simp] theorem Ctx.markV_v (c : Ctx) (r : Reg) (b : Bool) : (c.markV r b).v = c.v := rfl
@[simp] theorem Ctx.markV_m (c : Ctx) (r : Reg) (b : Bool) : (c.markV r b).m = c.m := rfl
@[simp] theorem Ctx.markV_k (c : Ctx) (r : Reg) (b : Bool) : (c.markV r b).k = c.k := rfl
@[simp] theorem Ctx.markV_fullX (c : Ctx) (r : Reg) (b : Bool) : (c.markV r b).fullX = c.fullX := rfl
@[simp] theorem Ctx.markV_poisonV (c : Ctx) (r : Reg) (b : Bool) : (c.markV r b).poisonV = c.poisonV := rfl
@[simp] theorem Ctx.markV_pc (c : Ctx) (r : Reg) (b : Bool) : (c.markV r b).pc = c.pc := rfl
@[simp] theorem Ctx.markV_cr (c : Ctx) (r : Reg) (b : Bool) : (c.markV r b).cr = c.cr := rfl
@[simp] theorem Ctx.markV_crPend (c : Ctx) (r : Reg) (b : Bool) : (c.markV r b).crPend = c.crPend := rfl
@[simp] theorem Ctx.markV_loops (c : Ctx) (r : Reg) (b : Bool) : (c.markV r b).loops = c.loops := rfl
@[simp] theorem Ctx.markV_pend (c : Ctx) (r : Reg) (b : Bool) : (c.markV r b).pend = c.pend := rfl
@[simp] theorem Ctx.markV_acc (c : Ctx) (r : Reg) (b : Bool) : (c.markV r b).acc = c.acc := rfl
@[simp] theorem Ctx.markV_held (c : Ctx) (r : Reg) (b : Bool) : (c.markV r b).held = c.held := rfl
@[simp] theorem Ctx.markV_sn (c : Ctx) (r : Reg) (b : Bool) : (c.markV r b).sn = c.sn := rfl
@[simp] theorem Ctx.markV_abuf (c : Ctx) (r : Reg) (b : Bool) : (c.markV r b).abuf = c.abuf := rfl
@[simp] theorem Ctx.markV_budget (c : Ctx) (r : Reg) (b : Bool) : (c.markV r b).budget = c.budget := rfl
@[simp] theorem Ctx.markV_mstat (c : Ctx) (r : Reg) (b : Bool) : (c.markV r b).mstat = c.mstat := rfl
@[simp] theorem Ctx.markV_frames (c : Ctx) (r : Reg) (b : Bool) : (c.markV r b).frames = c.frames := rfl
@[simp] theorem Ctx.markV_window (c : Ctx) (r : Reg) (b : Bool) : (c.markV r b).window = c.window := rfl
@[simp] theorem Ctx.markV_notice (c : Ctx) (r : Reg) (b : Bool) : (c.markV r b).notice = c.notice := rfl
@[simp] theorem Ctx.markV_task (c : Ctx) (r : Reg) (b : Bool) : (c.markV r b).task = c.task := rfl
@[simp] theorem Ctx.markV_stepover (c : Ctx) (r : Reg) (b : Bool) : (c.markV r b).stepover = c.stepover := rfl
@[simp] theorem Ctx.markV_satisfied (c : Ctx) (r : Reg) (b : Bool) : (c.markV r b).satisfied = c.satisfied := rfl
@[simp] theorem Ctx.markV_arrived (c : Ctx) (r : Reg) (b : Bool) : (c.markV r b).arrived = c.arrived := rfl
@[simp] theorem Ctx.markV_passed (c : Ctx) (r : Reg) (b : Bool) : (c.markV r b).passed = c.passed := rfl
@[simp] theorem Ctx.markV_live (c : Ctx) (r : Reg) (b : Bool) : (c.markV r b).live = c.live := rfl
@[simp] theorem Ctx.markV_stopPoint (c : Ctx) (r : Reg) (b : Bool) : (c.markV r b).stopPoint = c.stopPoint := rfl
@[simp] theorem Ctx.markV_pendingSince (c : Ctx) (r : Reg) (b : Bool) : (c.markV r b).pendingSince = c.pendingSince := rfl
@[simp] theorem Ctx.markV_grp (c : Ctx) (r : Reg) (b : Bool) : (c.markV r b).grp = c.grp := rfl
@[simp] theorem Ctx.markV_vextBad (c : Ctx) (r : Reg) (b : Bool) : (c.markV r b).vextBad = c.vextBad := rfl
@[simp] theorem Ctx.markV_pulled (c : Ctx) (r : Reg) (b : Bool) : (c.markV r b).pulled = c.pulled := rfl
@[simp] theorem Ctx.markV_steps (c : Ctx) (r : Reg) (b : Bool) : (c.markV r b).steps = c.steps := rfl
@[simp] theorem Ctx.markV_halts (c : Ctx) (r : Reg) (b : Bool) : (c.markV r b).halts = c.halts := rfl
@[simp] theorem Ctx.markV_frozenKind (c : Ctx) (r : Reg) (b : Bool) : (c.markV r b).frozenKind = c.frozenKind := rfl
@[simp] theorem Ctx.markV_repOn (c : Ctx) (r : Reg) (b : Bool) : (c.markV r b).repOn = c.repOn := rfl
@[simp] theorem Ctx.markV_repNext (c : Ctx) (r : Reg) (b : Bool) : (c.markV r b).repNext = c.repNext := rfl

@[simp] theorem Ctx.markBad_st (c : Ctx) (r : Reg) (b : Bool) : (c.markBad r b).st = c.st := rfl
@[simp] theorem Ctx.markBad_drain (c : Ctx) (r : Reg) (b : Bool) : (c.markBad r b).drain = c.drain := rfl
@[simp] theorem Ctx.markBad_drainSlot (c : Ctx) (r : Reg) (b : Bool) : (c.markBad r b).drainSlot = c.drainSlot := rfl
@[simp] theorem Ctx.markBad_drainLen (c : Ctx) (r : Reg) (b : Bool) : (c.markBad r b).drainLen = c.drainLen := rfl
@[simp] theorem Ctx.markBad_x (c : Ctx) (r : Reg) (b : Bool) : (c.markBad r b).x = c.x := rfl
@[simp] theorem Ctx.markBad_v (c : Ctx) (r : Reg) (b : Bool) : (c.markBad r b).v = c.v := rfl
@[simp] theorem Ctx.markBad_m (c : Ctx) (r : Reg) (b : Bool) : (c.markBad r b).m = c.m := rfl
@[simp] theorem Ctx.markBad_k (c : Ctx) (r : Reg) (b : Bool) : (c.markBad r b).k = c.k := rfl
@[simp] theorem Ctx.markBad_fullX (c : Ctx) (r : Reg) (b : Bool) : (c.markBad r b).fullX = c.fullX := rfl
@[simp] theorem Ctx.markBad_fullV (c : Ctx) (r : Reg) (b : Bool) : (c.markBad r b).fullV = c.fullV := rfl
@[simp] theorem Ctx.markBad_pc (c : Ctx) (r : Reg) (b : Bool) : (c.markBad r b).pc = c.pc := rfl
@[simp] theorem Ctx.markBad_cr (c : Ctx) (r : Reg) (b : Bool) : (c.markBad r b).cr = c.cr := rfl
@[simp] theorem Ctx.markBad_crPend (c : Ctx) (r : Reg) (b : Bool) : (c.markBad r b).crPend = c.crPend := rfl
@[simp] theorem Ctx.markBad_loops (c : Ctx) (r : Reg) (b : Bool) : (c.markBad r b).loops = c.loops := rfl
@[simp] theorem Ctx.markBad_pend (c : Ctx) (r : Reg) (b : Bool) : (c.markBad r b).pend = c.pend := rfl
@[simp] theorem Ctx.markBad_acc (c : Ctx) (r : Reg) (b : Bool) : (c.markBad r b).acc = c.acc := rfl
@[simp] theorem Ctx.markBad_held (c : Ctx) (r : Reg) (b : Bool) : (c.markBad r b).held = c.held := rfl
@[simp] theorem Ctx.markBad_sn (c : Ctx) (r : Reg) (b : Bool) : (c.markBad r b).sn = c.sn := rfl
@[simp] theorem Ctx.markBad_abuf (c : Ctx) (r : Reg) (b : Bool) : (c.markBad r b).abuf = c.abuf := rfl
@[simp] theorem Ctx.markBad_budget (c : Ctx) (r : Reg) (b : Bool) : (c.markBad r b).budget = c.budget := rfl
@[simp] theorem Ctx.markBad_mstat (c : Ctx) (r : Reg) (b : Bool) : (c.markBad r b).mstat = c.mstat := rfl
@[simp] theorem Ctx.markBad_frames (c : Ctx) (r : Reg) (b : Bool) : (c.markBad r b).frames = c.frames := rfl
@[simp] theorem Ctx.markBad_window (c : Ctx) (r : Reg) (b : Bool) : (c.markBad r b).window = c.window := rfl
@[simp] theorem Ctx.markBad_notice (c : Ctx) (r : Reg) (b : Bool) : (c.markBad r b).notice = c.notice := rfl
@[simp] theorem Ctx.markBad_task (c : Ctx) (r : Reg) (b : Bool) : (c.markBad r b).task = c.task := rfl
@[simp] theorem Ctx.markBad_stepover (c : Ctx) (r : Reg) (b : Bool) : (c.markBad r b).stepover = c.stepover := rfl
@[simp] theorem Ctx.markBad_satisfied (c : Ctx) (r : Reg) (b : Bool) : (c.markBad r b).satisfied = c.satisfied := rfl
@[simp] theorem Ctx.markBad_arrived (c : Ctx) (r : Reg) (b : Bool) : (c.markBad r b).arrived = c.arrived := rfl
@[simp] theorem Ctx.markBad_passed (c : Ctx) (r : Reg) (b : Bool) : (c.markBad r b).passed = c.passed := rfl
@[simp] theorem Ctx.markBad_live (c : Ctx) (r : Reg) (b : Bool) : (c.markBad r b).live = c.live := rfl
@[simp] theorem Ctx.markBad_stopPoint (c : Ctx) (r : Reg) (b : Bool) : (c.markBad r b).stopPoint = c.stopPoint := rfl
@[simp] theorem Ctx.markBad_pendingSince (c : Ctx) (r : Reg) (b : Bool) : (c.markBad r b).pendingSince = c.pendingSince := rfl
@[simp] theorem Ctx.markBad_grp (c : Ctx) (r : Reg) (b : Bool) : (c.markBad r b).grp = c.grp := rfl
@[simp] theorem Ctx.markBad_vextBad (c : Ctx) (r : Reg) (b : Bool) : (c.markBad r b).vextBad = c.vextBad := rfl
@[simp] theorem Ctx.markBad_pulled (c : Ctx) (r : Reg) (b : Bool) : (c.markBad r b).pulled = c.pulled := rfl
@[simp] theorem Ctx.markBad_steps (c : Ctx) (r : Reg) (b : Bool) : (c.markBad r b).steps = c.steps := rfl
@[simp] theorem Ctx.markBad_halts (c : Ctx) (r : Reg) (b : Bool) : (c.markBad r b).halts = c.halts := rfl
@[simp] theorem Ctx.markBad_frozenKind (c : Ctx) (r : Reg) (b : Bool) : (c.markBad r b).frozenKind = c.frozenKind := rfl
@[simp] theorem Ctx.markBad_repOn (c : Ctx) (r : Reg) (b : Bool) : (c.markBad r b).repOn = c.repOn := rfl
@[simp] theorem Ctx.markBad_repNext (c : Ctx) (r : Reg) (b : Bool) : (c.markBad r b).repNext = c.repNext := rfl

@[simp] theorem Ctx.setCr_st (c : Ctx) (i : Fin 24) (w : Word) : (c.setCr i w).st = c.st := rfl
@[simp] theorem Ctx.setCr_drain (c : Ctx) (i : Fin 24) (w : Word) : (c.setCr i w).drain = c.drain := rfl
@[simp] theorem Ctx.setCr_drainSlot (c : Ctx) (i : Fin 24) (w : Word) : (c.setCr i w).drainSlot = c.drainSlot := rfl
@[simp] theorem Ctx.setCr_drainLen (c : Ctx) (i : Fin 24) (w : Word) : (c.setCr i w).drainLen = c.drainLen := rfl
@[simp] theorem Ctx.setCr_x (c : Ctx) (i : Fin 24) (w : Word) : (c.setCr i w).x = c.x := rfl
@[simp] theorem Ctx.setCr_v (c : Ctx) (i : Fin 24) (w : Word) : (c.setCr i w).v = c.v := rfl
@[simp] theorem Ctx.setCr_m (c : Ctx) (i : Fin 24) (w : Word) : (c.setCr i w).m = c.m := rfl
@[simp] theorem Ctx.setCr_k (c : Ctx) (i : Fin 24) (w : Word) : (c.setCr i w).k = c.k := rfl
@[simp] theorem Ctx.setCr_fullX (c : Ctx) (i : Fin 24) (w : Word) : (c.setCr i w).fullX = c.fullX := rfl
@[simp] theorem Ctx.setCr_fullV (c : Ctx) (i : Fin 24) (w : Word) : (c.setCr i w).fullV = c.fullV := rfl
@[simp] theorem Ctx.setCr_poisonV (c : Ctx) (i : Fin 24) (w : Word) : (c.setCr i w).poisonV = c.poisonV := rfl
@[simp] theorem Ctx.setCr_pc (c : Ctx) (i : Fin 24) (w : Word) : (c.setCr i w).pc = c.pc := rfl
@[simp] theorem Ctx.setCr_crPend (c : Ctx) (i : Fin 24) (w : Word) : (c.setCr i w).crPend = c.crPend := rfl
@[simp] theorem Ctx.setCr_loops (c : Ctx) (i : Fin 24) (w : Word) : (c.setCr i w).loops = c.loops := rfl
@[simp] theorem Ctx.setCr_pend (c : Ctx) (i : Fin 24) (w : Word) : (c.setCr i w).pend = c.pend := rfl
@[simp] theorem Ctx.setCr_acc (c : Ctx) (i : Fin 24) (w : Word) : (c.setCr i w).acc = c.acc := rfl
@[simp] theorem Ctx.setCr_held (c : Ctx) (i : Fin 24) (w : Word) : (c.setCr i w).held = c.held := rfl
@[simp] theorem Ctx.setCr_sn (c : Ctx) (i : Fin 24) (w : Word) : (c.setCr i w).sn = c.sn := rfl
@[simp] theorem Ctx.setCr_abuf (c : Ctx) (i : Fin 24) (w : Word) : (c.setCr i w).abuf = c.abuf := rfl
@[simp] theorem Ctx.setCr_budget (c : Ctx) (i : Fin 24) (w : Word) : (c.setCr i w).budget = c.budget := rfl
@[simp] theorem Ctx.setCr_mstat (c : Ctx) (i : Fin 24) (w : Word) : (c.setCr i w).mstat = c.mstat := rfl
@[simp] theorem Ctx.setCr_frames (c : Ctx) (i : Fin 24) (w : Word) : (c.setCr i w).frames = c.frames := rfl
@[simp] theorem Ctx.setCr_window (c : Ctx) (i : Fin 24) (w : Word) : (c.setCr i w).window = c.window := rfl
@[simp] theorem Ctx.setCr_notice (c : Ctx) (i : Fin 24) (w : Word) : (c.setCr i w).notice = c.notice := rfl
@[simp] theorem Ctx.setCr_task (c : Ctx) (i : Fin 24) (w : Word) : (c.setCr i w).task = c.task := rfl
@[simp] theorem Ctx.setCr_stepover (c : Ctx) (i : Fin 24) (w : Word) : (c.setCr i w).stepover = c.stepover := rfl
@[simp] theorem Ctx.setCr_satisfied (c : Ctx) (i : Fin 24) (w : Word) : (c.setCr i w).satisfied = c.satisfied := rfl
@[simp] theorem Ctx.setCr_arrived (c : Ctx) (i : Fin 24) (w : Word) : (c.setCr i w).arrived = c.arrived := rfl
@[simp] theorem Ctx.setCr_passed (c : Ctx) (i : Fin 24) (w : Word) : (c.setCr i w).passed = c.passed := rfl
@[simp] theorem Ctx.setCr_live (c : Ctx) (i : Fin 24) (w : Word) : (c.setCr i w).live = c.live := rfl
@[simp] theorem Ctx.setCr_stopPoint (c : Ctx) (i : Fin 24) (w : Word) : (c.setCr i w).stopPoint = c.stopPoint := rfl
@[simp] theorem Ctx.setCr_pendingSince (c : Ctx) (i : Fin 24) (w : Word) : (c.setCr i w).pendingSince = c.pendingSince := rfl
@[simp] theorem Ctx.setCr_grp (c : Ctx) (i : Fin 24) (w : Word) : (c.setCr i w).grp = c.grp := rfl
@[simp] theorem Ctx.setCr_vextBad (c : Ctx) (i : Fin 24) (w : Word) : (c.setCr i w).vextBad = c.vextBad := rfl
@[simp] theorem Ctx.setCr_pulled (c : Ctx) (i : Fin 24) (w : Word) : (c.setCr i w).pulled = c.pulled := rfl
@[simp] theorem Ctx.setCr_steps (c : Ctx) (i : Fin 24) (w : Word) : (c.setCr i w).steps = c.steps := rfl
@[simp] theorem Ctx.setCr_halts (c : Ctx) (i : Fin 24) (w : Word) : (c.setCr i w).halts = c.halts := rfl
@[simp] theorem Ctx.setCr_frozenKind (c : Ctx) (i : Fin 24) (w : Word) : (c.setCr i w).frozenKind = c.frozenKind := rfl
@[simp] theorem Ctx.setCr_repOn (c : Ctx) (i : Fin 24) (w : Word) : (c.setCr i w).repOn = c.repOn := rfl
@[simp] theorem Ctx.setCr_repNext (c : Ctx) (i : Fin 24) (w : Word) : (c.setCr i w).repNext = c.repNext := rfl

@[simp] theorem Ctx.writeCr_st (c : Ctx) (i : Fin 24) (w : Word) : (c.writeCr i w).st = c.st := rfl
@[simp] theorem Ctx.writeCr_drain (c : Ctx) (i : Fin 24) (w : Word) : (c.writeCr i w).drain = c.drain := rfl
@[simp] theorem Ctx.writeCr_drainSlot (c : Ctx) (i : Fin 24) (w : Word) : (c.writeCr i w).drainSlot = c.drainSlot := rfl
@[simp] theorem Ctx.writeCr_drainLen (c : Ctx) (i : Fin 24) (w : Word) : (c.writeCr i w).drainLen = c.drainLen := rfl
@[simp] theorem Ctx.writeCr_x (c : Ctx) (i : Fin 24) (w : Word) : (c.writeCr i w).x = c.x := rfl
@[simp] theorem Ctx.writeCr_v (c : Ctx) (i : Fin 24) (w : Word) : (c.writeCr i w).v = c.v := rfl
@[simp] theorem Ctx.writeCr_m (c : Ctx) (i : Fin 24) (w : Word) : (c.writeCr i w).m = c.m := rfl
@[simp] theorem Ctx.writeCr_k (c : Ctx) (i : Fin 24) (w : Word) : (c.writeCr i w).k = c.k := rfl
@[simp] theorem Ctx.writeCr_fullX (c : Ctx) (i : Fin 24) (w : Word) : (c.writeCr i w).fullX = c.fullX := rfl
@[simp] theorem Ctx.writeCr_fullV (c : Ctx) (i : Fin 24) (w : Word) : (c.writeCr i w).fullV = c.fullV := rfl
@[simp] theorem Ctx.writeCr_poisonV (c : Ctx) (i : Fin 24) (w : Word) : (c.writeCr i w).poisonV = c.poisonV := rfl
@[simp] theorem Ctx.writeCr_pc (c : Ctx) (i : Fin 24) (w : Word) : (c.writeCr i w).pc = c.pc := rfl
@[simp] theorem Ctx.writeCr_crPend (c : Ctx) (i : Fin 24) (w : Word) : (c.writeCr i w).crPend = c.crPend := rfl
@[simp] theorem Ctx.writeCr_loops (c : Ctx) (i : Fin 24) (w : Word) : (c.writeCr i w).loops = c.loops := rfl
@[simp] theorem Ctx.writeCr_pend (c : Ctx) (i : Fin 24) (w : Word) : (c.writeCr i w).pend = c.pend := rfl
@[simp] theorem Ctx.writeCr_acc (c : Ctx) (i : Fin 24) (w : Word) : (c.writeCr i w).acc = c.acc := rfl
@[simp] theorem Ctx.writeCr_held (c : Ctx) (i : Fin 24) (w : Word) : (c.writeCr i w).held = c.held := rfl
@[simp] theorem Ctx.writeCr_sn (c : Ctx) (i : Fin 24) (w : Word) : (c.writeCr i w).sn = c.sn := rfl
@[simp] theorem Ctx.writeCr_abuf (c : Ctx) (i : Fin 24) (w : Word) : (c.writeCr i w).abuf = c.abuf := rfl
@[simp] theorem Ctx.writeCr_budget (c : Ctx) (i : Fin 24) (w : Word) : (c.writeCr i w).budget = c.budget := rfl
@[simp] theorem Ctx.writeCr_mstat (c : Ctx) (i : Fin 24) (w : Word) : (c.writeCr i w).mstat = c.mstat := rfl
@[simp] theorem Ctx.writeCr_frames (c : Ctx) (i : Fin 24) (w : Word) : (c.writeCr i w).frames = c.frames := rfl
@[simp] theorem Ctx.writeCr_window (c : Ctx) (i : Fin 24) (w : Word) : (c.writeCr i w).window = c.window := rfl
@[simp] theorem Ctx.writeCr_notice (c : Ctx) (i : Fin 24) (w : Word) : (c.writeCr i w).notice = c.notice := rfl
@[simp] theorem Ctx.writeCr_task (c : Ctx) (i : Fin 24) (w : Word) : (c.writeCr i w).task = c.task := rfl
@[simp] theorem Ctx.writeCr_stepover (c : Ctx) (i : Fin 24) (w : Word) : (c.writeCr i w).stepover = c.stepover := rfl
@[simp] theorem Ctx.writeCr_satisfied (c : Ctx) (i : Fin 24) (w : Word) : (c.writeCr i w).satisfied = c.satisfied := rfl
@[simp] theorem Ctx.writeCr_arrived (c : Ctx) (i : Fin 24) (w : Word) : (c.writeCr i w).arrived = c.arrived := rfl
@[simp] theorem Ctx.writeCr_passed (c : Ctx) (i : Fin 24) (w : Word) : (c.writeCr i w).passed = c.passed := rfl
@[simp] theorem Ctx.writeCr_live (c : Ctx) (i : Fin 24) (w : Word) : (c.writeCr i w).live = c.live := rfl
@[simp] theorem Ctx.writeCr_stopPoint (c : Ctx) (i : Fin 24) (w : Word) : (c.writeCr i w).stopPoint = c.stopPoint := rfl
@[simp] theorem Ctx.writeCr_pendingSince (c : Ctx) (i : Fin 24) (w : Word) : (c.writeCr i w).pendingSince = c.pendingSince := rfl
@[simp] theorem Ctx.writeCr_grp (c : Ctx) (i : Fin 24) (w : Word) : (c.writeCr i w).grp = c.grp := rfl
@[simp] theorem Ctx.writeCr_vextBad (c : Ctx) (i : Fin 24) (w : Word) : (c.writeCr i w).vextBad = c.vextBad := rfl
@[simp] theorem Ctx.writeCr_pulled (c : Ctx) (i : Fin 24) (w : Word) : (c.writeCr i w).pulled = c.pulled := rfl
@[simp] theorem Ctx.writeCr_steps (c : Ctx) (i : Fin 24) (w : Word) : (c.writeCr i w).steps = c.steps := rfl
@[simp] theorem Ctx.writeCr_halts (c : Ctx) (i : Fin 24) (w : Word) : (c.writeCr i w).halts = c.halts := rfl
@[simp] theorem Ctx.writeCr_frozenKind (c : Ctx) (i : Fin 24) (w : Word) : (c.writeCr i w).frozenKind = c.frozenKind := rfl
@[simp] theorem Ctx.writeCr_repOn (c : Ctx) (i : Fin 24) (w : Word) : (c.writeCr i w).repOn = c.repOn := rfl
@[simp] theorem Ctx.writeCr_repNext (c : Ctx) (i : Fin 24) (w : Word) : (c.writeCr i w).repNext = c.repNext := rfl

@[simp] theorem Ctx.addPend_st (c : Ctx) (lat : Nat) (r : Result) (fl : BitVec 6) : (c.addPend lat r fl).st = c.st := rfl
@[simp] theorem Ctx.addPend_drain (c : Ctx) (lat : Nat) (r : Result) (fl : BitVec 6) : (c.addPend lat r fl).drain = c.drain := rfl
@[simp] theorem Ctx.addPend_drainSlot (c : Ctx) (lat : Nat) (r : Result) (fl : BitVec 6) : (c.addPend lat r fl).drainSlot = c.drainSlot := rfl
@[simp] theorem Ctx.addPend_drainLen (c : Ctx) (lat : Nat) (r : Result) (fl : BitVec 6) : (c.addPend lat r fl).drainLen = c.drainLen := rfl
@[simp] theorem Ctx.addPend_x (c : Ctx) (lat : Nat) (r : Result) (fl : BitVec 6) : (c.addPend lat r fl).x = c.x := rfl
@[simp] theorem Ctx.addPend_v (c : Ctx) (lat : Nat) (r : Result) (fl : BitVec 6) : (c.addPend lat r fl).v = c.v := rfl
@[simp] theorem Ctx.addPend_m (c : Ctx) (lat : Nat) (r : Result) (fl : BitVec 6) : (c.addPend lat r fl).m = c.m := rfl
@[simp] theorem Ctx.addPend_k (c : Ctx) (lat : Nat) (r : Result) (fl : BitVec 6) : (c.addPend lat r fl).k = c.k := rfl
@[simp] theorem Ctx.addPend_fullX (c : Ctx) (lat : Nat) (r : Result) (fl : BitVec 6) : (c.addPend lat r fl).fullX = c.fullX := rfl
@[simp] theorem Ctx.addPend_fullV (c : Ctx) (lat : Nat) (r : Result) (fl : BitVec 6) : (c.addPend lat r fl).fullV = c.fullV := rfl
@[simp] theorem Ctx.addPend_poisonV (c : Ctx) (lat : Nat) (r : Result) (fl : BitVec 6) : (c.addPend lat r fl).poisonV = c.poisonV := rfl
@[simp] theorem Ctx.addPend_pc (c : Ctx) (lat : Nat) (r : Result) (fl : BitVec 6) : (c.addPend lat r fl).pc = c.pc := rfl
@[simp] theorem Ctx.addPend_cr (c : Ctx) (lat : Nat) (r : Result) (fl : BitVec 6) : (c.addPend lat r fl).cr = c.cr := rfl
@[simp] theorem Ctx.addPend_crPend (c : Ctx) (lat : Nat) (r : Result) (fl : BitVec 6) : (c.addPend lat r fl).crPend = c.crPend := rfl
@[simp] theorem Ctx.addPend_loops (c : Ctx) (lat : Nat) (r : Result) (fl : BitVec 6) : (c.addPend lat r fl).loops = c.loops := rfl
@[simp] theorem Ctx.addPend_acc (c : Ctx) (lat : Nat) (r : Result) (fl : BitVec 6) : (c.addPend lat r fl).acc = c.acc := rfl
@[simp] theorem Ctx.addPend_held (c : Ctx) (lat : Nat) (r : Result) (fl : BitVec 6) : (c.addPend lat r fl).held = c.held := rfl
@[simp] theorem Ctx.addPend_sn (c : Ctx) (lat : Nat) (r : Result) (fl : BitVec 6) : (c.addPend lat r fl).sn = c.sn := rfl
@[simp] theorem Ctx.addPend_abuf (c : Ctx) (lat : Nat) (r : Result) (fl : BitVec 6) : (c.addPend lat r fl).abuf = c.abuf := rfl
@[simp] theorem Ctx.addPend_budget (c : Ctx) (lat : Nat) (r : Result) (fl : BitVec 6) : (c.addPend lat r fl).budget = c.budget := rfl
@[simp] theorem Ctx.addPend_mstat (c : Ctx) (lat : Nat) (r : Result) (fl : BitVec 6) : (c.addPend lat r fl).mstat = c.mstat := rfl
@[simp] theorem Ctx.addPend_frames (c : Ctx) (lat : Nat) (r : Result) (fl : BitVec 6) : (c.addPend lat r fl).frames = c.frames := rfl
@[simp] theorem Ctx.addPend_window (c : Ctx) (lat : Nat) (r : Result) (fl : BitVec 6) : (c.addPend lat r fl).window = c.window := rfl
@[simp] theorem Ctx.addPend_notice (c : Ctx) (lat : Nat) (r : Result) (fl : BitVec 6) : (c.addPend lat r fl).notice = c.notice := rfl
@[simp] theorem Ctx.addPend_task (c : Ctx) (lat : Nat) (r : Result) (fl : BitVec 6) : (c.addPend lat r fl).task = c.task := rfl
@[simp] theorem Ctx.addPend_stepover (c : Ctx) (lat : Nat) (r : Result) (fl : BitVec 6) : (c.addPend lat r fl).stepover = c.stepover := rfl
@[simp] theorem Ctx.addPend_satisfied (c : Ctx) (lat : Nat) (r : Result) (fl : BitVec 6) : (c.addPend lat r fl).satisfied = c.satisfied := rfl
@[simp] theorem Ctx.addPend_arrived (c : Ctx) (lat : Nat) (r : Result) (fl : BitVec 6) : (c.addPend lat r fl).arrived = c.arrived := rfl
@[simp] theorem Ctx.addPend_passed (c : Ctx) (lat : Nat) (r : Result) (fl : BitVec 6) : (c.addPend lat r fl).passed = c.passed := rfl
@[simp] theorem Ctx.addPend_live (c : Ctx) (lat : Nat) (r : Result) (fl : BitVec 6) : (c.addPend lat r fl).live = c.live := rfl
@[simp] theorem Ctx.addPend_stopPoint (c : Ctx) (lat : Nat) (r : Result) (fl : BitVec 6) : (c.addPend lat r fl).stopPoint = c.stopPoint := rfl
@[simp] theorem Ctx.addPend_pendingSince (c : Ctx) (lat : Nat) (r : Result) (fl : BitVec 6) : (c.addPend lat r fl).pendingSince = c.pendingSince := rfl
@[simp] theorem Ctx.addPend_grp (c : Ctx) (lat : Nat) (r : Result) (fl : BitVec 6) : (c.addPend lat r fl).grp = c.grp := rfl
@[simp] theorem Ctx.addPend_vextBad (c : Ctx) (lat : Nat) (r : Result) (fl : BitVec 6) : (c.addPend lat r fl).vextBad = c.vextBad := rfl
@[simp] theorem Ctx.addPend_pulled (c : Ctx) (lat : Nat) (r : Result) (fl : BitVec 6) : (c.addPend lat r fl).pulled = c.pulled := rfl
@[simp] theorem Ctx.addPend_steps (c : Ctx) (lat : Nat) (r : Result) (fl : BitVec 6) : (c.addPend lat r fl).steps = c.steps := rfl
@[simp] theorem Ctx.addPend_halts (c : Ctx) (lat : Nat) (r : Result) (fl : BitVec 6) : (c.addPend lat r fl).halts = c.halts := rfl
@[simp] theorem Ctx.addPend_frozenKind (c : Ctx) (lat : Nat) (r : Result) (fl : BitVec 6) : (c.addPend lat r fl).frozenKind = c.frozenKind := rfl
@[simp] theorem Ctx.addPend_repOn (c : Ctx) (lat : Nat) (r : Result) (fl : BitVec 6) : (c.addPend lat r fl).repOn = c.repOn := rfl
@[simp] theorem Ctx.addPend_repNext (c : Ctx) (lat : Nat) (r : Result) (fl : BitVec 6) : (c.addPend lat r fl).repNext = c.repNext := rfl

@[simp] theorem Ctx.addX_st (c : Ctx) (lat : Nat) (d : Reg) (w : Word) : (c.addX lat d w).st = c.st := by
  unfold Ctx.addX; split <;> rfl
@[simp] theorem Ctx.addX_drain (c : Ctx) (lat : Nat) (d : Reg) (w : Word) : (c.addX lat d w).drain = c.drain := by
  unfold Ctx.addX; split <;> rfl
@[simp] theorem Ctx.addX_drainSlot (c : Ctx) (lat : Nat) (d : Reg) (w : Word) : (c.addX lat d w).drainSlot = c.drainSlot := by
  unfold Ctx.addX; split <;> rfl
@[simp] theorem Ctx.addX_drainLen (c : Ctx) (lat : Nat) (d : Reg) (w : Word) : (c.addX lat d w).drainLen = c.drainLen := by
  unfold Ctx.addX; split <;> rfl
@[simp] theorem Ctx.addX_x (c : Ctx) (lat : Nat) (d : Reg) (w : Word) : (c.addX lat d w).x = c.x := by
  unfold Ctx.addX; split <;> rfl
@[simp] theorem Ctx.addX_v (c : Ctx) (lat : Nat) (d : Reg) (w : Word) : (c.addX lat d w).v = c.v := by
  unfold Ctx.addX; split <;> rfl
@[simp] theorem Ctx.addX_m (c : Ctx) (lat : Nat) (d : Reg) (w : Word) : (c.addX lat d w).m = c.m := by
  unfold Ctx.addX; split <;> rfl
@[simp] theorem Ctx.addX_k (c : Ctx) (lat : Nat) (d : Reg) (w : Word) : (c.addX lat d w).k = c.k := by
  unfold Ctx.addX; split <;> rfl
@[simp] theorem Ctx.addX_fullX (c : Ctx) (lat : Nat) (d : Reg) (w : Word) : (c.addX lat d w).fullX = c.fullX := by
  unfold Ctx.addX; split <;> rfl
@[simp] theorem Ctx.addX_fullV (c : Ctx) (lat : Nat) (d : Reg) (w : Word) : (c.addX lat d w).fullV = c.fullV := by
  unfold Ctx.addX; split <;> rfl
@[simp] theorem Ctx.addX_poisonV (c : Ctx) (lat : Nat) (d : Reg) (w : Word) : (c.addX lat d w).poisonV = c.poisonV := by
  unfold Ctx.addX; split <;> rfl
@[simp] theorem Ctx.addX_pc (c : Ctx) (lat : Nat) (d : Reg) (w : Word) : (c.addX lat d w).pc = c.pc := by
  unfold Ctx.addX; split <;> rfl
@[simp] theorem Ctx.addX_cr (c : Ctx) (lat : Nat) (d : Reg) (w : Word) : (c.addX lat d w).cr = c.cr := by
  unfold Ctx.addX; split <;> rfl
@[simp] theorem Ctx.addX_crPend (c : Ctx) (lat : Nat) (d : Reg) (w : Word) : (c.addX lat d w).crPend = c.crPend := by
  unfold Ctx.addX; split <;> rfl
@[simp] theorem Ctx.addX_loops (c : Ctx) (lat : Nat) (d : Reg) (w : Word) : (c.addX lat d w).loops = c.loops := by
  unfold Ctx.addX; split <;> rfl
@[simp] theorem Ctx.addX_acc (c : Ctx) (lat : Nat) (d : Reg) (w : Word) : (c.addX lat d w).acc = c.acc := by
  unfold Ctx.addX; split <;> rfl
@[simp] theorem Ctx.addX_held (c : Ctx) (lat : Nat) (d : Reg) (w : Word) : (c.addX lat d w).held = c.held := by
  unfold Ctx.addX; split <;> rfl
@[simp] theorem Ctx.addX_sn (c : Ctx) (lat : Nat) (d : Reg) (w : Word) : (c.addX lat d w).sn = c.sn := by
  unfold Ctx.addX; split <;> rfl
@[simp] theorem Ctx.addX_abuf (c : Ctx) (lat : Nat) (d : Reg) (w : Word) : (c.addX lat d w).abuf = c.abuf := by
  unfold Ctx.addX; split <;> rfl
@[simp] theorem Ctx.addX_budget (c : Ctx) (lat : Nat) (d : Reg) (w : Word) : (c.addX lat d w).budget = c.budget := by
  unfold Ctx.addX; split <;> rfl
@[simp] theorem Ctx.addX_mstat (c : Ctx) (lat : Nat) (d : Reg) (w : Word) : (c.addX lat d w).mstat = c.mstat := by
  unfold Ctx.addX; split <;> rfl
@[simp] theorem Ctx.addX_frames (c : Ctx) (lat : Nat) (d : Reg) (w : Word) : (c.addX lat d w).frames = c.frames := by
  unfold Ctx.addX; split <;> rfl
@[simp] theorem Ctx.addX_window (c : Ctx) (lat : Nat) (d : Reg) (w : Word) : (c.addX lat d w).window = c.window := by
  unfold Ctx.addX; split <;> rfl
@[simp] theorem Ctx.addX_notice (c : Ctx) (lat : Nat) (d : Reg) (w : Word) : (c.addX lat d w).notice = c.notice := by
  unfold Ctx.addX; split <;> rfl
@[simp] theorem Ctx.addX_task (c : Ctx) (lat : Nat) (d : Reg) (w : Word) : (c.addX lat d w).task = c.task := by
  unfold Ctx.addX; split <;> rfl
@[simp] theorem Ctx.addX_stepover (c : Ctx) (lat : Nat) (d : Reg) (w : Word) : (c.addX lat d w).stepover = c.stepover := by
  unfold Ctx.addX; split <;> rfl
@[simp] theorem Ctx.addX_satisfied (c : Ctx) (lat : Nat) (d : Reg) (w : Word) : (c.addX lat d w).satisfied = c.satisfied := by
  unfold Ctx.addX; split <;> rfl
@[simp] theorem Ctx.addX_arrived (c : Ctx) (lat : Nat) (d : Reg) (w : Word) : (c.addX lat d w).arrived = c.arrived := by
  unfold Ctx.addX; split <;> rfl
@[simp] theorem Ctx.addX_passed (c : Ctx) (lat : Nat) (d : Reg) (w : Word) : (c.addX lat d w).passed = c.passed := by
  unfold Ctx.addX; split <;> rfl
@[simp] theorem Ctx.addX_live (c : Ctx) (lat : Nat) (d : Reg) (w : Word) : (c.addX lat d w).live = c.live := by
  unfold Ctx.addX; split <;> rfl
@[simp] theorem Ctx.addX_stopPoint (c : Ctx) (lat : Nat) (d : Reg) (w : Word) : (c.addX lat d w).stopPoint = c.stopPoint := by
  unfold Ctx.addX; split <;> rfl
@[simp] theorem Ctx.addX_pendingSince (c : Ctx) (lat : Nat) (d : Reg) (w : Word) : (c.addX lat d w).pendingSince = c.pendingSince := by
  unfold Ctx.addX; split <;> rfl
@[simp] theorem Ctx.addX_grp (c : Ctx) (lat : Nat) (d : Reg) (w : Word) : (c.addX lat d w).grp = c.grp := by
  unfold Ctx.addX; split <;> rfl
@[simp] theorem Ctx.addX_vextBad (c : Ctx) (lat : Nat) (d : Reg) (w : Word) : (c.addX lat d w).vextBad = c.vextBad := by
  unfold Ctx.addX; split <;> rfl
@[simp] theorem Ctx.addX_pulled (c : Ctx) (lat : Nat) (d : Reg) (w : Word) : (c.addX lat d w).pulled = c.pulled := by
  unfold Ctx.addX; split <;> rfl
@[simp] theorem Ctx.addX_steps (c : Ctx) (lat : Nat) (d : Reg) (w : Word) : (c.addX lat d w).steps = c.steps := by
  unfold Ctx.addX; split <;> rfl
@[simp] theorem Ctx.addX_halts (c : Ctx) (lat : Nat) (d : Reg) (w : Word) : (c.addX lat d w).halts = c.halts := by
  unfold Ctx.addX; split <;> rfl
@[simp] theorem Ctx.addX_frozenKind (c : Ctx) (lat : Nat) (d : Reg) (w : Word) : (c.addX lat d w).frozenKind = c.frozenKind := by
  unfold Ctx.addX; split <;> rfl
@[simp] theorem Ctx.addX_repOn (c : Ctx) (lat : Nat) (d : Reg) (w : Word) : (c.addX lat d w).repOn = c.repOn := by
  unfold Ctx.addX; split <;> rfl
@[simp] theorem Ctx.addX_repNext (c : Ctx) (lat : Nat) (d : Reg) (w : Word) : (c.addX lat d w).repNext = c.repNext := by
  unfold Ctx.addX; split <;> rfl

/-! Registers after an update (R15, R16, R103). -/

@[simp] theorem Ctx.getX_zero (c : Ctx) : c.getX 0 = 0 := rfl
theorem Ctx.getX_setX_self (c : Ctx) (r : Reg) (w : Word) (h : r ≠ 0) : (c.setX r w).getX r = w := by
  unfold Ctx.getX Ctx.setX
  rw [if_neg h, if_neg h]
  exact Vector.getElem_set_self _
theorem Ctx.getX_setX_ne (c : Ctx) (r q : Reg) (w : Word) (h : q ≠ r) : (c.setX r w).getX q = c.getX q := by
  have h' : r.toNat ≠ q.toNat := fun e => h (BitVec.eq_of_toNat_eq e).symm
  unfold Ctx.getX Ctx.setX
  split
  · rfl
  · split
    · rfl
    · exact Vector.getElem_set_ne (by have := r.isLt; omega) (by have := q.isLt; omega) h'
@[simp] theorem Ctx.setX_zero (c : Ctx) (w : Word) : c.setX 0 w = c := rfl
@[simp] theorem Ctx.addX_zero (c : Ctx) (lat : Nat) (w : Word) : c.addX lat 0 w = c := rfl
@[simp] theorem Ctx.setK_zero (c : Ctx) (t : Token) : c.setK 0 t = c := rfl
@[simp] theorem Ctx.setM_zero (c : Ctx) (w : Mask) : c.setM 0 w = c := rfl
@[simp] theorem Ctx.getV_setV_self (c : Ctx) (r : Reg) (w : Row) : (c.setV r w).getV r = w := by simp [Ctx.getV, Ctx.setV]
theorem Ctx.getV_setV_ne (c : Ctx) (r q : Reg) (w : Row) (h : q ≠ r) : (c.setV r w).getV q = c.getV q := by
  have h' : r.toNat ≠ q.toNat := fun e => h (BitVec.eq_of_toNat_eq e).symm
  exact Vector.getElem_set_ne (by have := r.isLt; omega) (by have := q.isLt; omega) h'
theorem Ctx.getM_setM_self (c : Ctx) (r : MReg) (w : Mask) (h : r ≠ 0) : (c.setM r w).getM r = w := by
  unfold Ctx.getM Ctx.setM
  rw [if_neg h, if_neg h]
  exact Vector.getElem_set_self _
theorem Ctx.getK_setK_self (c : Ctx) (r : Tok) (t : Token) (h : r ≠ 0) : (c.setK r t).getK r = t := by
  unfold Ctx.getK Ctx.setK
  rw [if_neg h, if_neg h]
  exact Vector.getElem_set_self _
@[simp] theorem Ctx.cr_setCr_self (c : Ctx) (i : Fin 24) (w : Word) : (c.setCr i w).cr[i] = w := by simp [Ctx.setCr]
theorem Ctx.cr_setCr_ne (c : Ctx) (i j : Fin 24) (w : Word) (h : j ≠ i) : (c.setCr i w).cr[j] = c.cr[j] := by
  have h' : i.val ≠ j.val := fun e => h (Fin.ext e).symm
  exact Vector.getElem_set_ne i.isLt j.isLt h'

end Sys2Proof.Machine
end

