-- ==== Sys2Proof/Laws/Issue.lean ====
section
/-! SUPPORT. What issuing one slot alone comes to: the checks of R84 and R107, then the slot's effect, then the end of the bundle. -/

namespace Sys2Proof.Machine

open Sys2Proof.Safety

/-- Inside an open bundle a slot only acts. -/
theorem issue_open {i : Instr} {s : State} (eff : State → Out) (h : s.iss.isOpen = true) : issue i eff s = eff s := by
  unfold issue
  rw [if_pos h]

/-- Alone, a slot whose word has a fault of steps 3 to 5 takes its trap. -/
theorem issue_static {i : Instr} {s : State} {cs : Cause} {k : Nat} (eff : State → Out) (h : s.iss.isOpen = false)
    (hf : staticFault (own s).kernel (isSeq s.cur) none [some i] = some (cs, k)) :
    issue i eff s = takeTrap s s.cur (issueTrap (own s).pc 1 k (some i) cs 0 0) := by
  unfold own at hf
  unfold issue
  rw [if_neg (by simp [h])]
  simp only [hf]
  rfl

/-- Alone, a slot that a stall cause holds does not issue. -/
theorem issue_stalls {i : Instr} {s : State} (eff : State → Out) (h : s.iss.isOpen = false)
    (hf : staticFault (own s).kernel (isSeq s.cur) none [some i] = none) (hs : stalls s s.cur [i] 0 = true) :
    issue i eff s = .next (stallCtx (s.arrive s.cur [i]) s.cur) := by
  unfold own at hf
  unfold issue judge
  rw [if_neg (by simp [h])]
  simp only [hf, hs, if_true]

/-- Alone, a slot with a fault of step 6 or 7 takes its trap. -/
theorem issue_late {i : Instr} {s : State} {t : TrapInfo} (eff : State → Out) (h : s.iss.isOpen = false)
    (hf : staticFault (own s).kernel (isSeq s.cur) none [some i] = none) (hs : stalls s s.cur [i] 0 = false)
    (hp : pathFull (own s) [i] = false) (hl : lateFault s s.cur (own s).pc 1 0 [i] = some t) (hw : ∀ a b wa wb sc k, i ≠ .waitc a b wa wb sc k) :
    issue i eff s = takeTrap s s.cur t := by
  have hj : judge s s.cur (own s).pc 1 0 [i] 0 = (s, .trap t) := by
    unfold own at hp
    unfold judge
    rw [if_neg (by simp [hs]), if_neg (by simp [hp])]
    simp only [List.getLast?_singleton]
    split
    · next heq => injection heq with heq; exact absurd heq (hw _ _ _ _ _ _)
    · simp only [hl]
  unfold issue
  rw [if_neg (by simp [h])]
  unfold own at hf hj
  simp only [hf, hj]

/-- A slot alone, its checks passed, acts and its bundle ends; WAITC apart, whose check reads memory. -/
theorem issue_ready {i : Instr} {s : State} (eff : State → Out) (h : Ready i s)
    (hw : ∀ a b wa wb sc k, i ≠ .waitc a b wa wb sc k) : issue i eff s = andThen (eff (opened s)) closeBundle := by
  obtain ⟨h1, h2, h3, h4, h5, h6⟩ := h
  have hj : judge s s.cur (own s).pc 1 0 [i] 0 = (s, .go) := by
    unfold own at h5
    unfold judge
    rw [if_neg (by simp [h4]), if_neg (by simp [h5])]
    simp only [List.getLast?_singleton]
    split
    · next heq => injection heq with heq; exact absurd heq (hw _ _ _ _ _ _)
    · simp only [h6]
  unfold issue
  rw [if_neg (by simp [h1])]
  unfold own at h3 hj
  simp only [h3, hj]
  rfl

/-- A bundle with nothing to follow it ends in its closed state; where its context drains from now on, the core looks for another. -/
theorem closeBundle_next {s : State} (hp : s.iss.post = none) (hd : ((closed s).ctxAt s.cur).drain ≠ .rft) :
    closeBundle s = .next (if ((closed s).ctxAt s.cur).drain = .none then closed s else (closed s).passOver s.cur) := by
  unfold closeBundle
  simp only [hp]
  rw [if_neg (by simp [hd])]
  split <;> rfl

theorem passOver_ctxAt (s : State) (n k : Nat) : (s.passOver n).ctxAt k = s.ctxAt k := by
  unfold State.passOver
  split <;> rfl

theorem loopEnd_frame (pc : Word) (len : Nat) : ∀ (l : List Nat) (c : Ctx), (loopEnd pc len l c).1 = { c with loops := (loopEnd pc len l c).1.loops }
  | [], _ => rfl
  | k :: t, c => by
    unfold loopEnd
    split
    · rfl
    · split
      · split
        · rfl
        · rw [loopEnd_frame pc len t]
      · exact loopEnd_frame pc len t c

theorem goOn_frame (i : Iss) (left : Nat) (c : Ctx) :
    (goOn i left c).1 = { c with loops := (goOn i left c).1.loops, repNext := (goOn i left c).1.repNext } := by
  unfold goOn
  split
  · rfl
  · split
    · rfl
    · split
      · rfl
      · dsimp only
        exact (loopEnd_frame i.pc i.len [3, 2, 1, 0] c).trans (by rw [loopEnd_frame])

/-- A level that the check of loop ends does not come to is as it was, and every other one as `LevelsKept` says. -/
theorem loopEnd_levels (pc : Word) (len : Nat) : ∀ (l : List Nat) (c : Ctx), l.Nodup →
    LevelsKept c (loopEnd pc len l c).1 ∧ ∀ j : Fin 4, j.val ∉ l → (loopEnd pc len l c).1.loops[j] = c.loops[j]
  | [], c, _ => ⟨fun _ => .inl rfl, fun _ _ => rfl⟩
  | k :: t, c, hn => by
    obtain ⟨hk, ht⟩ := List.nodup_cons.mp hn
    unfold loopEnd
    by_cases h4 : k < 4
    · have hg : c.loops[k]? = some c.loops[k] := Vector.getElem?_eq_getElem h4
      have hset : ∀ (x : Loop) (j : Fin 4), ({ c with loops := c.loops.set! k x } : Ctx).loops[j] = if j.val = k then x else c.loops[j] := by
        intro x j
        show (c.loops.set! k x)[j.val] = _
        rw [Vector.set!_eq_setIfInBounds, Vector.getElem_setIfInBounds]
        simp only [eq_comm]
        rfl
      simp only [hg]
      split
      · split
        · next h1 =>
          constructor
          · intro j
            rw [hset]
            split
            · next e =>
              right; right
              have : c.loops[j] = c.loops[k] := by cases j; subst e; rfl
              rw [this]
              exact ⟨h1, rfl⟩
            · exact .inl rfl
          · intro j hj
            rw [hset, if_neg fun e : j.val = k => hj (by rw [e]; exact List.mem_cons_self)]
        · obtain ⟨h1, h2⟩ := loopEnd_levels pc len t { c with loops := c.loops.set! k { c.loops[k] with active := false } } ht
          constructor
          · intro j
            by_cases e : j.val = k
            · rw [h2 j (e ▸ hk), hset, if_pos e]
              have : c.loops[j] = c.loops[k] := by cases j; subst e; rfl
              rw [this]
              exact .inr (.inl rfl)
            · have h := h1 j
              rw [hset, if_neg e] at h
              exact h
          · intro j hj
            rw [h2 j fun e => hj (List.mem_cons_of_mem _ e), hset,
              if_neg fun e : j.val = k => hj (by rw [e]; exact List.mem_cons_self)]
      · obtain ⟨h1, h2⟩ := loopEnd_levels pc len t c ht
        exact ⟨h1, fun j hj => h2 j fun e => hj (List.mem_cons_of_mem _ e)⟩
    · have hg : c.loops[k]? = none := Vector.getElem?_eq_none (Nat.le_of_not_lt h4)
      simp only [hg]
      exact ⟨fun _ => .inl rfl, fun _ _ => trivial⟩

theorem goOn_levels (i : Iss) (left : Nat) (c : Ctx) : LevelsKept c (goOn i left c).1 := by
  unfold goOn
  split
  · exact fun _ => .inl rfl
  · split
    · exact fun _ => .inl rfl
    · split
      · exact fun _ => .inl rfl
      · exact (loopEnd_levels i.pc i.len [3, 2, 1, 0] c (by decide)).1

/-- The context of a closed bundle that was no repeat's is the aged one but for the program counter and what issue keeps. -/
theorem closedCtx_frame {i : Iss} {c : Ctx} (hr : i.repLeft = none) : SameButIssue (aged c) (closedCtx i c) := by
  unfold SameButIssue closedCtx
  simp only [hr, Option.isSome_none, Bool.false_eq_true, if_false, Option.getD_none]
  have h := goOn_frame i 0 c.applyMtc.tickPending
  have hl := goOn_levels i 0 c.applyMtc.tickPending
  generalize goOn i 0 c.applyMtc.tickPending = r at h hl ⊢
  obtain ⟨u, p⟩ := r
  dsimp only at h hl ⊢
  refine ⟨?_, hl⟩
  rw [h]
  rfl

theorem closed_ctxAt (s : State) : (closed s).ctxAt s.cur = closedCtx s.iss (s.ctxAt s.cur) := by
  unfold closed
  dsimp only
  split <;> simp

theorem closed_ctxAt_ne {s : State} {k : Nat} (h : k ≠ s.cur) : (closed s).ctxAt k = s.ctxAt k := by
  unfold closed
  dsimp only
  split
  · rw [State.ctxAt_setCtx_ne _ _ _ _ h]; rfl
  · exact State.ctxAt_setCtx_ne _ _ _ _ h

/-! What ageing leaves alone. -/

theorem land_drain (c : Ctx) (p : Pending) : (c.land p).drain = c.drain := by
  unfold Ctx.land
  split <;> (cases p.res <;> (dsimp only; try split)) <;> simp [Ctx.markBad, Ctx.setV]

theorem foldl_land_drain : ∀ (l : List Pending) (c : Ctx), (l.foldl Ctx.land c).drain = c.drain
  | [], _ => rfl
  | p :: t, c => by rw [List.foldl_cons, foldl_land_drain t, land_drain]

theorem tickPending_drain (c : Ctx) : c.tickPending.drain = c.drain := by
  unfold Ctx.tickPending
  exact foldl_land_drain _ _

theorem applyMtc_drain (c : Ctx) : c.applyMtc.drain = c.drain := by
  unfold Ctx.applyMtc
  generalize c.crPend = l
  suffices h : ∀ (l : List (Nat × Word)) (u : Ctx), (l.foldl (fun c p => if h : p.1 < 24 then c.writeCr ⟨p.1, h⟩ p.2 else c) u).drain = u.drain from
    h l _
  intro l
  induction l with
  | nil => intro u; rfl
  | cons p t ih =>
    intro u
    rw [List.foldl_cons, ih]
    split <;> simp

theorem aged_drain (c : Ctx) : (aged c).drain = c.drain := by
  unfold aged
  rw [tickPending_drain, applyMtc_drain]

/-! What a slot's bundle leaves. -/

/-- Closing a bundle changes the context whose turn it is, its core's selection, and the bundle being issued. -/
theorem closed_onlyOwn {s u : State} (hs : u = { s with ctxs := u.ctxs, iss := u.iss }) (hk : ∀ k, k ≠ s.cur → u.ctxAt k = s.ctxAt k) :
    OnlyOwn s (closed u) := by
  have hcur : u.cur = s.cur := by rw [hs]
  have hcore : ∀ k, u.coreAt k = s.coreAt k := by intro k; rw [hs]; rfl
  have hclosed : closed u = { s with ctxs := (closed u).ctxs, cores := (closed u).cores, iss := {} } := by
    conv => lhs; rw [hs]
    conv => rhs; rw [hs]
    unfold closed
    dsimp only
    split <;> rfl
  refine ⟨hclosed, ?_, ?_, ?_⟩
  · intro k h
    rw [closed_ctxAt_ne (s := u) (by rw [hcur]; exact h), hk k h]
  · intro a
    rw [hclosed]
  · intro k
    have hc : (closed u).coreAt k = if isSeq u.cur ∨ k ≠ coreOf u.cur then u.coreAt k
        else { u.coreAt k with sel := some (u.cur % 4), last := u.cur % 4, count := (u.coreAt k).count + 1 } := by
      unfold closed
      dsimp only
      by_cases h1 : isSeq u.cur = true
      · simp only [h1, if_true, true_or]
        rfl
      · by_cases h2 : k = coreOf u.cur
        · subst h2
          simp only [h1, ne_eq, not_true_eq_false, or_false, if_false, Bool.false_eq_true]
          exact State.coreAt_modCore_self _ _ _
        · simp only [h1, h2, ne_eq, not_false_eq_true, or_true, if_true, Bool.false_eq_true, if_false]
          exact State.coreAt_setCore_ne _ _ _ _ h2
    rw [hc]
    split <;> (rw [hcore k]; exact ⟨rfl, rfl, rfl, rfl, rfl⟩)

/-- Nor does the core's looking for another context. -/
theorem passOver_onlyOwn {s t : State} (n : Nat) (h : OnlyOwn s t) : OnlyOwn s (t.passOver n) := by
  obtain ⟨h1, h2, h3, h4⟩ := h
  unfold State.passOver
  split
  · exact ⟨h1, h2, h3, h4⟩
  · refine ⟨?_, h2, h3, ?_⟩
    · conv => lhs; rw [h1]
      rfl
    · intro k
      by_cases e : k = coreOf n
      · subst e
        rw [State.coreAt_modCore_self]
        exact h4 _
      · rw [show (t.modCore (coreOf n) fun k => { k with sel := none, last := n % 4, count := 0 }).coreAt k = t.coreAt k from
          State.coreAt_setCore_ne _ _ _ _ e]
        exact h4 k

/-- A ready slot whose effect leaves u: s' but for the context whose turn it is, which becomes what f makes of it. -/
theorem does_of {i : Instr} {eff : State → Out} {s s' u : State} {f : Ctx → Ctx} (h : Ready i s)
    (hw : ∀ a b wa wb sc k, i ≠ .waitc a b wa wb sc k) (he : eff (opened s) = .next u)
    (hs : u = { s' with ctxs := u.ctxs, iss := u.iss }) (hk : ∀ k, k ≠ s'.cur → u.ctxAt k = s'.ctxAt k)
    (hc : u.ctxAt s'.cur = f (own s')) (hp : u.iss.post = none) (hr : u.iss.repLeft = none) (hd : (f (own s')).drain ≠ .rft) :
    Does (issue i eff s) s' f := by
  rw [issue_ready _ h hw, he]
  have hcu : u.cur = s'.cur := by rw [hs]
  have e : (closed u).ctxAt u.cur = closedCtx u.iss (f (own s')) := by
    rw [closed_ctxAt]
    rw [hcu, hc]
  have hf := closedCtx_frame (i := u.iss) (c := f (own s')) hr
  refine ⟨_, closeBundle_next hp (by rw [e, hf.1]; simpa [aged_drain] using hd), ?_, ?_⟩
  · split
    · exact closed_onlyOwn hs hk
    · exact passOver_onlyOwn _ (closed_onlyOwn hs hk)
  · split
    · rw [← hcu, e]
      exact hf
    · rw [passOver_ctxAt, ← hcu, e]
      exact hf

/-- A ready slot whose effect is f on its own context does f and nothing else. -/
theorem does_onCtx {i : Instr} {s : State} {f : Ctx → Ctx} (h : Ready i s) (hw : ∀ a b wa wb sc k, i ≠ .waitc a b wa wb sc k)
    (hd : (f (own s)).drain ≠ .rft) : Does (issue i (onCtx f) s) s f :=
  does_of h hw rfl rfl (fun _ hk => State.ctxAt_modCtx_ne _ _ _ _ hk) (State.ctxAt_modCtx_self _ _ _) rfl rfl hd

/-! Results of fixed latency. -/

theorem addX_drain (c : Ctx) (n : Nat) (d : Reg) (v : Word) : (c.addX n d v).drain = c.drain := by
  unfold Ctx.addX
  split <;> rfl

theorem addPend_drain (c : Ctx) (n : Nat) (r : Result) (fl : BitVec 6) : (c.addPend n r fl).drain = c.drain := rfl

end Sys2Proof.Machine
end

