-- ==== Sys2Proof/Laws/Landing.lean ====
section
/-! SUPPORT. Results of fixed latency (R95): what ageing a context by one bundle does to the results that it has pending. -/

namespace Sys2Proof.Machine

open Sys2Proof.Safety

/-! Landing touches no list of the context. -/

theorem land_pend (c : Ctx) (p : Pending) : (c.land p).pend = c.pend := by
  unfold Ctx.land
  split <;> (cases p.res <;> (dsimp only; try split)) <;> simp [Ctx.markBad, Ctx.setV]

theorem land_acc (c : Ctx) (p : Pending) : (c.land p).acc = c.acc := by
  unfold Ctx.land
  split <;> (cases p.res <;> (dsimp only; try split)) <;> simp [Ctx.markBad, Ctx.setV]

theorem land_withPend (c : Ctx) (l : List Pending) (p : Pending) : ({ c with pend := l } : Ctx).land p = { c.land p with pend := l } := by
  unfold Ctx.land
  split <;> (cases p.res <;> (dsimp only; try split)) <;> first | rfl | (simp only [Ctx.setX, Ctx.setM]; split <;> rfl)

theorem land_withAcc (c : Ctx) (l : List Access) (p : Pending) : ({ c with acc := l } : Ctx).land p = { c.land p with acc := l } := by
  unfold Ctx.land
  split <;> (cases p.res <;> (dsimp only; try split)) <;> first | rfl | (simp only [Ctx.setX, Ctx.setM]; split <;> rfl)

theorem foldl_land_withPend (pl : List Pending) : ∀ (ps : List Pending) (c : Ctx),
    ps.foldl Ctx.land ({ c with pend := pl } : Ctx) = { ps.foldl Ctx.land c with pend := pl }
  | [], _ => rfl
  | p :: t, c => by rw [List.foldl_cons, land_withPend, foldl_land_withPend pl t, List.foldl_cons]

theorem foldl_land_pend : ∀ (l : List Pending) (c : Ctx), (l.foldl Ctx.land c).pend = c.pend
  | [], _ => rfl
  | p :: t, c => by rw [List.foldl_cons, foldl_land_pend t, land_pend]

theorem foldl_land_acc : ∀ (l : List Pending) (c : Ctx), (l.foldl Ctx.land c).acc = c.acc
  | [], _ => rfl
  | p :: t, c => by rw [List.foldl_cons, foldl_land_acc t, land_acc]

theorem land_withLists (c : Ctx) (pl pl' : List Pending) (al : List Access) (p : Pending) :
    ({ ({ c with pend := pl } : Ctx).land p with pend := pl', acc := al } : Ctx) = ({ c with pend := pl', acc := al } : Ctx).land p := by
  have h1 := land_withPend c pl p
  have h2 := land_withPend c pl' p
  have h3 := land_withAcc { c with pend := pl' } al p
  rw [h1]
  exact (h3.trans (by rw [h2])).symm

/-- Control registers written by the bundle do not look at the pending results. -/
theorem applyMtc_withPend (c : Ctx) (pl : List Pending) : ({ c with pend := pl } : Ctx).applyMtc = { c.applyMtc with pend := pl } := by
  unfold Ctx.applyMtc
  generalize c.crPend = l
  suffices h : ∀ (l : List (Nat × Word)) (u : Ctx),
      l.foldl (fun c p => if h : p.1 < 24 then c.writeCr ⟨p.1, h⟩ p.2 else c) ({ u with pend := pl } : Ctx) =
        { l.foldl (fun c p => if h : p.1 < 24 then c.writeCr ⟨p.1, h⟩ p.2 else c) u with pend := pl } from h l { c with crPend := [] }
  intro l
  induction l with
  | nil => intro u; rfl
  | cons p t ih =>
    intro u
    simp only [List.foldl_cons]
    rw [← ih]
    split <;> rfl

theorem applyMtc_pend (c : Ctx) : c.applyMtc.pend = c.pend := by
  have h := applyMtc_withPend c c.pend
  have e : ({ c with pend := c.pend } : Ctx) = c := rfl
  rw [e] at h
  rw [h]

/-- The results of the age that a bundle brings. -/
theorem tickPending_eq (c : Ctx) : c.tickPending =
    { ((c.pend.map fun p => { p with due := p.due - 1 }).filter (·.due = 0)).foldl Ctx.land c with
        pend := (c.pend.map fun p => { p with due := p.due - 1 }).filter (·.due != 0)
        acc := c.acc.map fun a => { a with due := a.due - 1 } } := by
  unfold Ctx.tickPending
  dsimp only
  rw [foldl_land_withPend, foldl_land_acc]

theorem tickPending_append (c : Ctx) (p : Pending) : ({ c with pend := c.pend ++ [p] } : Ctx).tickPending =
    if p.due ≤ 1 then c.tickPending.land { p with due := 0 }
    else { c.tickPending with pend := c.tickPending.pend ++ [{ p with due := p.due - 1 }] } := by
  rw [tickPending_eq, tickPending_eq]
  dsimp only
  simp only [List.map_append, List.map_cons, List.map_nil, List.filter_append, List.foldl_append]
  by_cases h : p.due ≤ 1
  · have h0 : p.due - 1 = 0 := by omega
    simp only [h0, h, if_true, List.filter_cons, decide_true, List.filter_nil, List.foldl_cons, List.foldl_nil, bne_self_eq_false,
      Bool.false_eq_true, if_false, List.append_nil]
    rw [foldl_land_withPend]
    exact land_withLists _ _ _ _ _
  · have h0 : p.due - 1 ≠ 0 := by omega
    simp only [h0, h, if_false, List.filter_cons, decide_false, List.filter_nil, List.foldl_nil, bne_iff_ne, ne_eq, not_false_eq_true,
      if_true, Bool.false_eq_true]
    rw [foldl_land_withPend]

/-- A result of latency lat, added while a bundle issues, after that bundle: it has landed, or is due one bundle sooner. -/
theorem aged_addPend (c : Ctx) (lat : Nat) (r : Result) (fl : BitVec 6) : aged (c.addPend lat r fl) =
    if lat ≤ 1 then (aged c).land { due := 0, res := r, flags := fl }
    else { aged c with pend := (aged c).pend ++ [{ due := lat - 1, res := r, flags := fl }] } := by
  unfold aged Ctx.addPend
  rw [applyMtc_withPend]
  have h := tickPending_append c.applyMtc { due := lat, res := r, flags := fl }
  rw [applyMtc_pend] at h
  exact h

theorem land_x (c : Ctx) (r : Reg) (v : Word) : c.land { due := 0, res := .x r v } = c.setX r v := rfl

theorem aged_addX_now (c : Ctx) (d : Reg) (v : Word) : aged (c.addX 1 d v) = (aged c).setX d v := by
  unfold Ctx.addX
  split
  · next h => unfold Ctx.setX; rw [if_pos h]
  · rw [aged_addPend]
    rfl

theorem aged_addX_later (c : Ctx) (left : Nat) (hl : left ≠ 0) (d : Reg) (v : Word) : aged (c.addX (left + 1) d v) =
    { aged c with pend := (aged c).pend ++ if d = 0 then [] else [{ due := left, res := .x d v }] } := by
  unfold Ctx.addX
  split
  · simp
  · rw [aged_addPend, if_neg (by omega)]
    rfl

theorem getX_setX (c : Ctx) (d r : Reg) (v : Word) : (c.setX d v).getX r = if r = d ∧ r ≠ 0 then v else c.getX r := by
  have hlt := d.isLt
  by_cases hd : d = 0
  · rw [show c.setX d v = c from if_pos hd]
    have : ¬(r = d ∧ r ≠ 0) := by rintro ⟨h1, h2⟩; exact h2 (h1.trans hd)
    simp only [this, if_false]
  · rw [show c.setX d v = { c with x := c.x.set d.toNat v (by omega) } from if_neg hd]
    unfold Ctx.getX
    by_cases hr : r = 0
    · simp only [hr, if_true, ne_eq, not_true_eq_false, and_false, if_false]
    · simp only [hr, if_false, ne_eq, not_false_eq_true, and_true]
      split
      · next h =>
        subst h
        exact Vector.getElem_set_self _
      · next h => exact Vector.getElem_set_ne _ _ fun e => h (BitVec.eq_of_toNat_eq e).symm

/-! From what a bundle does to what the next one reads. -/

theorem sameButIssue_getX {c u : Ctx} (h : SameButIssue c u) (r : Reg) : u.getX r = c.getX r := by
  rw [h.1]
  rfl

theorem writesNow_of_does {o : Out} {s : State} {d : Reg} {v : Word} (h : Does o s fun c => c.addX 1 d v) : WritesNow o s d v := by
  obtain ⟨t, ho, h1, h2⟩ := h
  rw [aged_addX_now] at h2
  refine ⟨t, ho, h1, ?_, ?_⟩
  · intro r
    rw [sameButIssue_getX h2, getX_setX]
  · have hl : ((aged (own s)).setX d v).loops = (aged (own s)).loops := by unfold Ctx.setX; split <;> rfl
    refine ⟨?_, fun k => by have h := h2.2 k; rwa [show ((aged (own s)).setX d v).loops[k] = (aged (own s)).loops[k] by rw [hl]] at h⟩
    rw [h2.1]
    unfold Ctx.setX
    split <;> rfl

theorem writesLater_of_does {o : Out} {s : State} {left : Nat} {d : Reg} {v : Word} (hl : left ≠ 0)
    (h : Does o s fun c => c.addX (left + 1) d v) : WritesLater o s left d v := by
  obtain ⟨t, ho, h1, h2⟩ := h
  rw [aged_addX_later _ _ hl] at h2
  exact ⟨t, ho, h1, h2⟩

theorem writesNow_congr {o : Out} {s : State} {d : Reg} {v v' : Word} (h : WritesNow o s d v) (e : v = v') : WritesNow o s d v' := e ▸ h

theorem writesLater_congr {o : Out} {s : State} {l : Nat} {d : Reg} {v v' : Word} (h : WritesLater o s l d v) (e : v = v') :
    WritesLater o s l d v' := e ▸ h

/-- A ready slot that writes x[d] for the next bundle. -/
theorem writesNow_xRes {i : Instr} {s : State} {d : Reg} {f : Ctx → Word} (h : Ready i s)
    (hw : ∀ a b wa wb sc k, i ≠ .waitc a b wa wb sc k) : WritesNow (issue i (xRes 1 d f) s) s d (f (own s)) :=
  have hdoes := does_onCtx (f := fun c => c.addX 1 d (f c)) h hw (by rw [addX_drain, h.2.1]; exact fun h => nomatch h)
  writesNow_of_does (by obtain ⟨t, ho, h1, h2⟩ := hdoes; exact ⟨t, ho, h1, h2⟩)

/-- A ready slot that writes x[d] `left` bundles later. -/
theorem writesLater_xRes {i : Instr} {s : State} {d : Reg} {f : Ctx → Word} {left : Nat} (h : Ready i s)
    (hw : ∀ a b wa wb sc k, i ≠ .waitc a b wa wb sc k) (hl : left ≠ 0) :
    WritesLater (issue i (xRes (left + 1) d f) s) s left d (f (own s)) :=
  have hdoes := does_onCtx (f := fun c => c.addX (left + 1) d (f c)) h hw (by rw [addX_drain, h.2.1]; exact fun h => nomatch h)
  writesLater_of_does hl (by obtain ⟨t, ho, h1, h2⟩ := hdoes; exact ⟨t, ho, h1, h2⟩)

/-! Accesses. -/

theorem markX_xFull (c : Ctx) (d r : Reg) (b : Bool) : (c.markX d b).xFull r = if r = d ∧ r ≠ 0 then b else c.xFull r := by
  unfold Ctx.xFull Ctx.markX
  by_cases hd : d = 0
  · have : ¬(r = d ∧ r ≠ 0) := by rintro ⟨h1, h2⟩; exact h2 (h1.trans hd)
    simp only [hd, if_true] at this ⊢
    simp only [this, if_false]
  · simp only [hd, if_false]
    by_cases hr : r = 0
    · simp only [hr, decide_true, Bool.true_or, ne_eq, not_true_eq_false, and_false, if_false]
    · simp only [hr, decide_false, Bool.false_or, ne_eq, not_false_eq_true, and_true]
      exact setBit64_get c.fullX d r b
where
  setBit64_get (w : BitVec 64) (d r : Reg) (b : Bool) : (setBit64 w d.toNat b).getLsbD r.toNat = if r = d then b else w.getLsbD r.toNat := by
    have hd := d.isLt
    have hr := r.isLt
    have e : (1#64 <<< d.toNat).getLsbD r.toNat = decide (r = d) := by
      rw [BitVec.getLsbD_shiftLeft]
      by_cases h : r = d
      · subst h; simp; omega
      · have hne : r.toNat ≠ d.toNat := fun e => h (BitVec.eq_of_toNat_eq e)
        simp [h, BitVec.getLsbD_one]
        omega
    unfold setBit64
    cases b
    · simp only [Bool.false_eq_true, if_false, BitVec.getLsbD_and, BitVec.getLsbD_not, e]
      by_cases h : r = d <;> simp [h]
      intro _; omega
    · simp only [if_true, BitVec.getLsbD_or, e]
      by_cases h : r = d <;> simp [h]

theorem markV_vFull (c : Ctx) (d r : Reg) (b : Bool) : (c.markV d b).vFull r = if r = d then b else c.vFull r :=
  markX_xFull.setBit64_get c.fullV d r b

/-! What ageing does not look at. -/

/-- c with the fields of u that ageing does not look at. -/
def Ctx.withSide (c u : Ctx) : Ctx := { c with k := u.k, sn := u.sn, fullX := u.fullX, fullV := u.fullV, window := u.window, drain := u.drain, drainSlot := u.drainSlot, drainLen := u.drainLen, live := u.live, stopPoint := u.stopPoint, loops := u.loops, acc := u.acc }

theorem land_withSide (c u : Ctx) (p : Pending) : (c.withSide u).land p = (c.land p).withSide u := by
  unfold Ctx.land Ctx.withSide
  split <;> (cases p.res <;> (dsimp only; try split)) <;> first | rfl | (simp only [Ctx.setX, Ctx.setM]; split <;> rfl)

theorem foldl_land_withSide (u : Ctx) : ∀ (l : List Pending) (c : Ctx), l.foldl Ctx.land (c.withSide u) = (l.foldl Ctx.land c).withSide u
  | [], _ => rfl
  | p :: t, c => by rw [List.foldl_cons, land_withSide, foldl_land_withSide u t, List.foldl_cons]

theorem applyMtc_withSide (c u : Ctx) : (c.withSide u).applyMtc = c.applyMtc.withSide u := by
  unfold Ctx.applyMtc
  have e : (c.withSide u).crPend = c.crPend := rfl
  rw [e]
  generalize c.crPend = l
  suffices h : ∀ (l : List (Nat × Word)) (a : Ctx),
      l.foldl (fun c p => if h : p.1 < 24 then c.writeCr ⟨p.1, h⟩ p.2 else c) (a.withSide u) =
        (l.foldl (fun c p => if h : p.1 < 24 then c.writeCr ⟨p.1, h⟩ p.2 else c) a).withSide u from h l { c with crPend := [] }
  intro l
  induction l with
  | nil => intro a; rfl
  | cons p t ih =>
    intro a
    simp only [List.foldl_cons]
    rw [← ih]
    split <;> rfl

/-- Ageing carries these fields along; an outstanding access counts one bundle less. -/
theorem aged_withSide (c u : Ctx) :
    aged (c.withSide u) = { (aged c).withSide u with acc := u.acc.map fun a => { a with due := a.due - 1 } } := by
  unfold aged
  rw [applyMtc_withSide, tickPending_eq, tickPending_eq]
  have e : (c.applyMtc.withSide u).pend = c.applyMtc.pend := rfl
  rw [e, foldl_land_withSide]
  rfl

theorem aged_acc (c : Ctx) : (aged c).acc = c.acc.map fun a => { a with due := a.due - 1 } := by
  have h := aged_withSide c c
  have e : c.withSide c = c := rfl
  rw [e] at h
  rw [h]

theorem aged_side (c : Ctx) : aged c = { aged c with k := c.k, sn := c.sn, fullX := c.fullX, fullV := c.fullV, window := c.window, drain := c.drain, drainSlot := c.drainSlot, drainLen := c.drainLen, live := c.live, stopPoint := c.stopPoint, loops := c.loops } := by
  have h := aged_withSide c c
  have e : c.withSide c = c := rfl
  rw [e] at h
  conv => lhs; rw [h]
  have ha := aged_acc c
  conv => rhs; rw [show aged c = { aged c with acc := (aged c).acc } from rfl, ha]
  rfl

theorem markDest_xFull (c : Ctx) (i : Instr) (r : Reg) :
    (c.markDest i false).xFull r = if accDestX i = some r ∧ r ≠ 0 then false else c.xFull r := by
  have hd : ∀ d, (c.markX d false).xFull r = if some d = some r ∧ r ≠ 0 then false else c.xFull r := by
    intro d
    rw [markX_xFull]
    by_cases h : r = d
    · subst h; simp
    · rw [if_neg fun e => h e.1, if_neg fun e => h (Option.some.inj e.1).symm]
  unfold Ctx.markDest
  cases accDestX i <;> cases accDestV i
  · simp
  · simp; rfl
  · exact hd _
  · exact hd _

theorem markDest_vFull (c : Ctx) (i : Instr) (r : Reg) :
    (c.markDest i false).vFull r = if accDestV i = some r then false else c.vFull r := by
  have hd : ∀ (u : Ctx) d, (u.markV d false).vFull r = if some d = some r then false else u.vFull r := by
    intro u d
    rw [markV_vFull]
    by_cases h : r = d
    · subst h; simp
    · rw [if_neg h, if_neg fun e => h (Option.some.inj e).symm]
  have hx : ∀ d, (c.markX d false).vFull r = c.vFull r := by
    intro d
    unfold Ctx.markX
    split <;> rfl
  unfold Ctx.markDest
  cases accDestX i <;> cases accDestV i
  · simp
  · exact hd _ _
  · simpa using hx _
  · exact (hd _ _).trans (by rw [hx])

theorem aged_access (c : Ctx) (al : List Access) (n : Nat) (fx fv : BitVec 64) (w : Window) :
    aged { c with acc := al, sn := n, fullX := fx, fullV := fv, window := w } =
      { aged c with acc := al.map (fun a => { a with due := a.due - 1 }), sn := n, fullX := fx, fullV := fv, window := w } := by
  refine (aged_withSide c { c with acc := al, sn := n, fullX := fx, fullV := fv, window := w }).trans ?_
  conv => rhs; rw [aged_side]
  rfl

theorem queue_eq (c : Ctx) (now : Nat) (i : Instr) (f : Ctx → Access → Access) : c.queue now i f =
    { c with acc := (c.queue now i f).acc, sn := (c.queue now i f).sn, fullX := (c.queue now i f).fullX
             fullV := (c.queue now i f).fullV, window := (c.queue now i f).window } := by
  unfold Ctx.queue Ctx.markDest
  cases accDestX i <;> cases accDestV i <;> first | rfl | (simp only [Ctx.markX]; split <;> rfl)

/-- A ready slot whose effect is to start an access. -/
theorem starts_of {i : Instr} {s : State} {eff : State → Out} {f : Ctx → Access → Access} {a : Access} (h : Ready i s)
    (hw : ∀ a b wa wb sc k, i ≠ .waitc a b wa wb sc k) (he : eff (opened s) = .next ((opened s).addAccess s.cur i f))
    (ha : f (own s) (access s i) = a) (h1 : a.sn = (own s).sn) (h2 : a.ins = i) (h3 : a.due = 0) : Starts (issue i eff s) s a := by
  have hq := queue_eq (own s) s.now i f
  have hd : ((own s).queue s.now i f).drain = (own s).drain := by rw [hq]
  obtain ⟨t, ho, ht, hsb⟩ := does_of (s' := s) (f := fun c => c.queue s.now i f) (u := (opened s).addAccess s.cur i f)
    h hw he rfl (fun _ hk => State.ctxAt_modCtx_ne _ _ _ _ hk)
    (State.ctxAt_modCtx_self _ _ _) rfl rfl (by rw [hd, h.2.1]; exact fun h => nomatch h)
  have hacc : ((own s).queue s.now i f).acc = (own s).acc ++ [a] := by rw [← ha]; rfl
  have hmap : ((own s).acc ++ [a]).map (fun b => { b with due := b.due - 1 }) = (aged (own s)).acc ++ [a] := by
    rw [List.map_append, ← aged_acc]
    obtain ⟨sn, ins, word, ea, va, vb, vd, vt, row, bad, kernel, hold, due, since, todo, wr, st⟩ := a
    simp only at h3
    subst h3
    rfl
  have hsn : ((own s).queue s.now i f).sn = a.sn + 1 := by rw [h1]; rfl
  have hage := aged_access (own s) ((own s).acc ++ [a]) (a.sn + 1) ((own s).queue s.now i f).fullX ((own s).queue s.now i f).fullV
    ((own s).queue s.now i f).window
  rw [← hacc, ← hsn, ← hq, hsn, hacc, hmap] at hage
  obtain ⟨hsb, hlv⟩ := hsb
  dsimp only at hsb hlv
  rw [hage] at hsb hlv
  generalize hx : ((own s).queue s.now i f).fullX = fx at hsb
  generalize hv : ((own s).queue s.now i f).fullV = fv at hsb
  generalize ((own s).queue s.now i f).window = wn at hsb
  refine ⟨t, ho, ht, ?_, ?_, ?_, ?_, ?_⟩
  · rw [hsb]
  · rw [hsb]
  · intro r
    have : (t.ctxAt s.cur).xFull r = ((own s).queue s.now i f).xFull r := by
      unfold Ctx.xFull
      rw [hx, hsb]
    rw [this, h2]
    exact markDest_xFull (own s) i r
  · intro r
    have : (t.ctxAt s.cur).vFull r = ((own s).queue s.now i f).vFull r := by
      unfold Ctx.vFull
      rw [hv, hsb]
    rw [this, h2]
    exact markDest_vFull (own s) i r
  · refine ⟨?_, hlv⟩
    rw [hsb]

/-- A ready slot that starts an access. -/
theorem starts_queue {i : Instr} {s : State} {f : Ctx → Access → Access} {a : Access} (h : Ready i s)
    (hw : ∀ a b wa wb sc k, i ≠ .waitc a b wa wb sc k) (ha : f (own s) (access s i) = a)
    (h1 : a.sn = (own s).sn) (h2 : a.ins = i) (h3 : a.due = 0) :
    Starts (issue i (fun u => .next (u.addAccess u.cur i f)) s) s a :=
  starts_of h hw rfl ha h1 h2 h3

end Sys2Proof.Machine
end

