-- ==== Sys2Proof/Laws/Maps.lean ====
section
/-! SUPPORT. Memory laws: every memory operation keeps the canonical form, a read after a write gives the value written, and a write
leaves every other byte alone. -/

namespace Sys2Proof.Machine

theorem memWfFrom_mono {lo hi : Nat} (h : lo ≤ hi) : ∀ {m : Mem}, memWfFrom hi m = true → memWfFrom lo m = true
  | [], _ => rfl
  | (k, v) :: t, hm => by
    simp only [memWfFrom, Bool.and_eq_true, decide_eq_true_eq] at hm ⊢
    exact ⟨⟨Nat.le_trans h hm.1.1, hm.1.2⟩, hm.2⟩

theorem memWfFrom_memSet (n : Nat) (x : Byte) : ∀ (m : Mem) (lo : Nat), lo ≤ n → memWfFrom lo m = true →
    memWfFrom lo (memSet m n x) = true
  | [], lo, h, _ => by
    unfold memSet
    split
    · rfl
    · next hx => simp [memWfFrom, h, hx]
  | (k, v) :: t, lo, h, hm => by
    have hm' := hm
    simp only [memWfFrom, Bool.and_eq_true, decide_eq_true_eq, bne_iff_ne] at hm'
    obtain ⟨⟨h1, h2⟩, h3⟩ := hm'
    unfold memSet
    split
    · next hk =>
      split
      · exact hm
      · next hx => simp [memWfFrom, h, hx, Nat.succ_le_of_lt hk, h2, h3]
    · next hk =>
      split
      · next he =>
        split
        · exact memWfFrom_mono (by omega) h3
        · next hx => subst he; simp [memWfFrom, h, hx, h3]
      · next he =>
        simp only [memWfFrom, Bool.and_eq_true, decide_eq_true_eq, bne_iff_ne]
        exact ⟨⟨h1, h2⟩, memWfFrom_memSet n x t (k + 1) (by omega) h3⟩

theorem wf_memSet {m : Mem} (n : Nat) (x : Byte) (h : m.wf = true) : (memSet m n x).wf = true :=
  memWfFrom_memSet n x m 0 (Nat.zero_le _) h

theorem memWfFrom_filter (p : Host.Cell → Bool) : ∀ (m : Mem) (lo : Nat), memWfFrom lo m = true → memWfFrom lo (m.filter p) = true
  | [], _, _ => rfl
  | (k, v) :: t, lo, hm => by
    have hm' := hm
    simp only [memWfFrom, Bool.and_eq_true, decide_eq_true_eq, bne_iff_ne] at hm'
    obtain ⟨⟨h1, h2⟩, h3⟩ := hm'
    have ih := memWfFrom_filter p t (k + 1) h3
    rw [List.filter_cons]
    split
    · simp [memWfFrom, h1, h2, ih]
    · exact memWfFrom_mono (by omega) ih

theorem wf_memClear {m : Mem} (lo hi : Nat) (h : m.wf = true) : (memClear m lo hi).wf = true := memWfFrom_filter _ m 0 h

theorem wf_memWriteN : ∀ (n : Nat) {m : Mem} (a v : Nat), m.wf = true → (memWriteN m a n v).wf = true
  | 0, _, _, _, h => h
  | n + 1, _, a, v, h => wf_memWriteN n (a + 1) (v / 256) (wf_memSet a _ h)

theorem wf_memMerge : ∀ (bs : List Bool) {m : Mem} (a v : Nat), m.wf = true → (memMerge m a v bs).wf = true
  | [], _, _, _, h => h
  | b :: bs, _, a, v, h => by
    refine wf_memMerge bs (a + 1) (v / 256) ?_
    split
    · exact wf_memSet a _ h
    · exact h

theorem wf_memWriteBytes : ∀ (bs : List Byte) {m : Mem} (a : Nat), m.wf = true → (memWriteBytes m a bs).wf = true
  | [], _, _, h => h
  | b :: bs, _, a, h => wf_memWriteBytes bs (a + 1) (wf_memSet a b h)

/-! Reads after writes. -/

theorem memGet_below {n : Nat} : ∀ {m : Mem} {lo : Nat}, memWfFrom lo m = true → n < lo → memGet m n = memDefault
  | [], _, _, _ => rfl
  | (k, v) :: t, lo, hm, h => by
    simp only [memWfFrom, Bool.and_eq_true, decide_eq_true_eq] at hm
    unfold memGet
    rw [if_neg (by omega), if_pos (by omega)]

theorem memGet_memSet_self_from (n : Nat) (x : Byte) : ∀ (m : Mem) (lo : Nat), memWfFrom lo m = true → memGet (memSet m n x) n = x
  | [], _, _ => by
    unfold memSet
    split
    · next h => rw [h]; rfl
    · simp [memGet]
  | (k, v) :: t, lo, hm => by
    simp only [memWfFrom, Bool.and_eq_true, decide_eq_true_eq] at hm
    unfold memSet
    split
    · next hk =>
      split
      · next hx => unfold memGet; rw [if_neg (by omega), if_pos hk, hx]
      · simp [memGet]
    · next hk =>
      split
      · next he =>
        split
        · next hx => rw [hx]; exact memGet_below hm.2 (by omega)
        · simp [memGet]
      · next he =>
        unfold memGet
        rw [if_neg he, if_neg hk]
        exact memGet_memSet_self_from n x t (k + 1) hm.2

theorem memGet_memSet_ne_from (n a : Nat) (x : Byte) (h : a ≠ n) : ∀ (m : Mem) (lo : Nat), memWfFrom lo m = true →
    memGet (memSet m n x) a = memGet m a
  | [], _, _ => by
    unfold memSet
    split
    · rfl
    · unfold memGet; rw [if_neg h]; split <;> rfl
  | (k, v) :: t, lo, hm => by
    simp only [memWfFrom, Bool.and_eq_true, decide_eq_true_eq] at hm
    unfold memSet
    split
    · next hk =>
      split
      · rfl
      · conv => lhs; unfold memGet
        rw [if_neg h]
        split
        · unfold memGet; rw [if_neg (by omega), if_pos (by omega)]
        · rfl
    · next hk =>
      split
      · next he =>
        subst he
        have hr : memGet ((n, v) :: t) a = if a < n then memDefault else memGet t a := by
          conv => lhs; unfold memGet
          rw [if_neg h]
        rw [hr]
        split
        · split
          · exact memGet_below hm.2 (by omega)
          · rfl
        · conv => lhs; unfold memGet
          rw [if_neg h]
      · next he =>
        unfold memGet
        rw [memGet_memSet_ne_from n a x h t (k + 1) hm.2]

/-- The byte just written is read back. -/
theorem memGet_memSet_self {m : Mem} (n : Nat) (x : Byte) (h : m.wf = true) : memGet (memSet m n x) n = x :=
  memGet_memSet_self_from n x m 0 h

/-- Every other byte is left alone. -/
theorem memGet_memSet_ne {m : Mem} (n a : Nat) (x : Byte) (h : m.wf = true) (hne : a ≠ n) : memGet (memSet m n x) a = memGet m a :=
  memGet_memSet_ne_from n a x hne m 0 h

theorem memGet_memWriteN_outside : ∀ (n : Nat) {m : Mem} (a v k : Nat), m.wf = true → k < a ∨ a + n ≤ k →
    memGet (memWriteN m a n v) k = memGet m k
  | 0, _, _, _, _, _, _ => rfl
  | n + 1, m, a, v, k, h, hk => by
    show memGet (memWriteN (memSet m a _) (a + 1) n (v / 256)) k = _
    rw [memGet_memWriteN_outside n (a + 1) (v / 256) k (wf_memSet a _ h) (by omega), memGet_memSet_ne a k _ h (by omega)]

/-- n bytes written are read back as the number modulo 2^(8n). -/
theorem memReadN_memWriteN : ∀ (n : Nat) {m : Mem} (a v : Nat), m.wf = true → memReadN (memWriteN m a n v) a n = v % 256 ^ n
  | 0, _, _, v, _ => by simp [memReadN, Nat.mod_one]
  | n + 1, m, a, v, h => by
    show (memGet (memWriteN (memSet m a _) (a + 1) n (v / 256)) a).toNat + 256 * memReadN (memWriteN (memSet m a _) (a + 1) n (v / 256)) (a + 1) n = _
    rw [memReadN_memWriteN n (a + 1) (v / 256) (wf_memSet a _ h),
      memGet_memWriteN_outside n (a + 1) (v / 256) a (wf_memSet a _ h) (by omega), memGet_memSet_self a _ h, BitVec.toNat_ofNat,
      show 256 ^ (n + 1) = 256 * 256 ^ n from by rw [Nat.pow_succ, Nat.mul_comm], Nat.mod_mul]

theorem memGet_memMerge_outside : ∀ (bs : List Bool) {m : Mem} (a v k : Nat), m.wf = true → k < a ∨ a + bs.length ≤ k →
    memGet (memMerge m a v bs) k = memGet m k
  | [], _, _, _, _, _, _ => rfl
  | b :: bs, m, a, v, k, h, hk => by
    simp only [List.length_cons] at hk
    show memGet (memMerge (if b then memSet m a _ else m) (a + 1) (v / 256) bs) k = _
    have hw : (if b then memSet m a (BitVec.ofNat 8 v) else m).wf = true := by
      split
      · exact wf_memSet a _ h
      · exact h
    rw [memGet_memMerge_outside bs (a + 1) (v / 256) k hw (by omega)]
    split
    · exact memGet_memSet_ne a k _ h (by omega)
    · rfl

end Sys2Proof.Machine
end

