-- ==== Sys2Proof/Laws/PerInstr.lean ====
section
/-! SUPPORT. The round trip of every slot through its word, instruction by instruction: whatever word stands for it, with or without
the S bit, decodes to it (R76, R77, R85 to R89). An event has no word. -/

namespace Sys2Proof.Laws.RoundTrip

/-- Every word of the instruction decodes to it. -/
def Statement (i : Instr) : Prop := ∀ s w, encodeS s i = some w → decode w = .ok i

theorem nop : Statement (.nop) :=
  decode_of_encode rfl (by simp (disch := omega) [decode, decodeNSC, needZero])
theorem rep (cnt : BitVec 6) (ds as bs : BitVec 2) : Statement (.rep cnt ds as bs) :=
  decode_of_encode rfl (by simp (disch := omega) [decode, decodeNSC, needZero])
theorem add (d a b : Reg) (wa wb : Bool) : Statement (.add d a b wa wb) :=
  decode_of_encode rfl (by simp (disch := omega) [decode, decodeNSC, decodeAlu])
theorem sub (d a b : Reg) (wa wb : Bool) : Statement (.sub d a b wa wb) :=
  decode_of_encode rfl (by simp (disch := omega) [decode, decodeNSC, decodeAlu])
theorem and (d a b : Reg) (wa wb : Bool) : Statement (.and d a b wa wb) :=
  decode_of_encode rfl (by simp (disch := omega) [decode, decodeNSC, decodeAlu])
theorem or (d a b : Reg) (wa wb : Bool) : Statement (.or d a b wa wb) :=
  decode_of_encode rfl (by simp (disch := omega) [decode, decodeNSC, decodeAlu])
theorem xor (d a b : Reg) (wa wb : Bool) : Statement (.xor d a b wa wb) :=
  decode_of_encode rfl (by simp (disch := omega) [decode, decodeNSC, decodeAlu])
theorem andn (d a b : Reg) (wa wb : Bool) : Statement (.andn d a b wa wb) :=
  decode_of_encode rfl (by simp (disch := omega) [decode, decodeNSC, decodeAlu])
theorem shl (d a b : Reg) (wa wb : Bool) : Statement (.shl d a b wa wb) :=
  decode_of_encode rfl (by simp (disch := omega) [decode, decodeNSC, decodeAlu])
theorem shr (d a b : Reg) (wa wb : Bool) : Statement (.shr d a b wa wb) :=
  decode_of_encode rfl (by simp (disch := omega) [decode, decodeNSC, decodeAlu])
theorem sra (d a b : Reg) (wa wb : Bool) : Statement (.sra d a b wa wb) :=
  decode_of_encode rfl (by simp (disch := omega) [decode, decodeNSC, decodeAlu])
theorem ror (d a b : Reg) (wa wb : Bool) : Statement (.ror d a b wa wb) :=
  decode_of_encode rfl (by simp (disch := omega) [decode, decodeNSC, decodeAlu])
theorem slt (d a b : Reg) (wa wb : Bool) : Statement (.slt d a b wa wb) :=
  decode_of_encode rfl (by simp (disch := omega) [decode, decodeNSC, decodeAlu])
theorem sltn (d a b : Reg) (wa wb : Bool) : Statement (.sltn d a b wa wb) :=
  decode_of_encode rfl (by simp (disch := omega) [decode, decodeNSC, decodeAlu])
theorem seq (d a b : Reg) (wa wb : Bool) : Statement (.seq d a b wa wb) :=
  decode_of_encode rfl (by simp (disch := omega) [decode, decodeNSC, decodeAlu])
theorem min (d a b : Reg) (wa wb : Bool) : Statement (.min d a b wa wb) :=
  decode_of_encode rfl (by simp (disch := omega) [decode, decodeNSC, decodeAlu])
theorem max (d a b : Reg) (wa wb : Bool) : Statement (.max d a b wa wb) :=
  decode_of_encode rfl (by simp (disch := omega) [decode, decodeNSC, decodeAlu])
theorem sel (d a b : Reg) (wa wb : Bool) : Statement (.sel d a b wa wb) :=
  decode_of_encode rfl (by simp (disch := omega) [decode, decodeNSC, decodeAlu])
theorem mul (d a b : Reg) (wa wb : Bool) : Statement (.mul d a b wa wb) :=
  decode_of_encode rfl (by simp (disch := omega) [decode, decodeNSC, decodeMul])
theorem mulh (d a b : Reg) (wa wb : Bool) : Statement (.mulh d a b wa wb) :=
  decode_of_encode rfl (by simp (disch := omega) [decode, decodeNSC, decodeMul])
theorem mulhn (d a b : Reg) (wa wb : Bool) : Statement (.mulhn d a b wa wb) :=
  decode_of_encode rfl (by simp (disch := omega) [decode, decodeNSC, decodeMul])
theorem div (d a b : Reg) (wa wb : Bool) : Statement (.div d a b wa wb) :=
  decode_of_encode rfl (by simp (disch := omega) [decode, decodeNSC, decodeMul])
theorem divn (d a b : Reg) (wa wb : Bool) : Statement (.divn d a b wa wb) :=
  decode_of_encode rfl (by simp (disch := omega) [decode, decodeNSC, decodeMul])
theorem rem (d a b : Reg) (wa wb : Bool) : Statement (.rem d a b wa wb) :=
  decode_of_encode rfl (by simp (disch := omega) [decode, decodeNSC, decodeMul])
theorem remn (d a b : Reg) (wa wb : Bool) : Statement (.remn d a b wa wb) :=
  decode_of_encode rfl (by simp (disch := omega) [decode, decodeNSC, decodeMul])
theorem minn (d a b : Reg) (wa wb : Bool) : Statement (.minn d a b wa wb) :=
  decode_of_encode rfl (by simp (disch := omega) [decode, decodeNSC, decodeMul])
theorem maxn (d a b : Reg) (wa wb : Bool) : Statement (.maxn d a b wa wb) :=
  decode_of_encode rfl (by simp (disch := omega) [decode, decodeNSC, decodeMul])
theorem clz (d a : Reg) (w : Width) (wa : Bool) : Statement (.clz d a w wa) :=
  decode_of_encode rfl (by simp (disch := omega) [decode, decodeNSC, decodeMul, needZero])
theorem ffs (d a : Reg) (w : Width) (wa : Bool) : Statement (.ffs d a w wa) :=
  decode_of_encode rfl (by simp (disch := omega) [decode, decodeNSC, decodeMul, needZero])
theorem popc (d a : Reg) (w : Width) (wa : Bool) : Statement (.popc d a w wa) :=
  decode_of_encode rfl (by simp (disch := omega) [decode, decodeNSC, decodeMul, needZero])
theorem brev (d a : Reg) (w : Width) (wa : Bool) : Statement (.brev d a w wa) :=
  decode_of_encode rfl (by simp (disch := omega) [decode, decodeNSC, decodeMul, needZero])
theorem sext (d a : Reg) (w : Width) (wa : Bool) : Statement (.sext d a w wa) :=
  decode_of_encode rfl (by simp (disch := omega) [decode, decodeNSC, decodeMul, needZero])
theorem zext (d a : Reg) (w : Width) (wa : Bool) : Statement (.zext d a w wa) :=
  decode_of_encode rfl (by simp (disch := omega) [decode, decodeNSC, decodeMul, needZero])
theorem addi (d a : Reg) (wa : Bool) (imm : BitVec 11) : Statement (.addi d a wa imm) :=
  decode_of_encode rfl (by simp (disch := omega) [decode, decodeNSC])
theorem andi (d a : Reg) (wa : Bool) (imm : BitVec 11) : Statement (.andi d a wa imm) :=
  decode_of_encode rfl (by simp (disch := omega) [decode, decodeNSC])
theorem ori (d a : Reg) (wa : Bool) (imm : BitVec 11) : Statement (.ori d a wa imm) :=
  decode_of_encode rfl (by simp (disch := omega) [decode, decodeNSC])
theorem xori (d a : Reg) (wa : Bool) (imm : BitVec 11) : Statement (.xori d a wa imm) :=
  decode_of_encode rfl (by simp (disch := omega) [decode, decodeNSC])
theorem shli (d a : Reg) (wa : Bool) (n : BitVec 6) : Statement (.shli d a wa n) :=
  decode_of_encode rfl (by simp (disch := omega) [decode, decodeNSC, needZero])
theorem shri (d a : Reg) (wa : Bool) (n : BitVec 6) : Statement (.shri d a wa n) :=
  decode_of_encode rfl (by simp (disch := omega) [decode, decodeNSC, needZero])
theorem srai (d a : Reg) (wa : Bool) (n : BitVec 6) : Statement (.srai d a wa n) :=
  decode_of_encode rfl (by simp (disch := omega) [decode, decodeNSC, needZero])
theorem slti (d a : Reg) (wa : Bool) (imm : BitVec 11) : Statement (.slti d a wa imm) :=
  decode_of_encode rfl (by simp (disch := omega) [decode, decodeNSC])
theorem sltni (d a : Reg) (wa : Bool) (imm : BitVec 11) : Statement (.sltni d a wa imm) :=
  decode_of_encode rfl (by simp (disch := omega) [decode, decodeNSC])
theorem li (d : Reg) (imm : BitVec 18) : Statement (.li d imm) :=
  decode_of_encode rfl (by simp (disch := omega) [decode, decodeNSC])
theorem lis (d : Reg) (imm : BitVec 18) : Statement (.lis d imm) :=
  decode_of_encode rfl (by simp (disch := omega) [decode, decodeNSC])
theorem addpc (d : Reg) (imm : BitVec 18) : Statement (.addpc d imm) :=
  decode_of_encode rfl (by simp (disch := omega) [decode, decodeNSC])
theorem beq (a b : Reg) (off : BitVec 12) : Statement (.beq a b off) :=
  decode_of_encode rfl (by simp (disch := omega) [decode, decodeNSC])
theorem bne (a b : Reg) (off : BitVec 12) : Statement (.bne a b off) :=
  decode_of_encode rfl (by simp (disch := omega) [decode, decodeNSC])
theorem blt (a b : Reg) (off : BitVec 12) : Statement (.blt a b off) :=
  decode_of_encode rfl (by simp (disch := omega) [decode, decodeNSC])
theorem bge (a b : Reg) (off : BitVec 12) : Statement (.bge a b off) :=
  decode_of_encode rfl (by simp (disch := omega) [decode, decodeNSC])
theorem bltn (a b : Reg) (off : BitVec 12) : Statement (.bltn a b off) :=
  decode_of_encode rfl (by simp (disch := omega) [decode, decodeNSC])
theorem bgen (a b : Reg) (off : BitVec 12) : Statement (.bgen a b off) :=
  decode_of_encode rfl (by simp (disch := omega) [decode, decodeNSC])
theorem jmp (off : BitVec 24) : Statement (.jmp off) :=
  decode_of_encode rfl (by simp (disch := omega) [decode, decodeNSC])
theorem jal (off : BitVec 24) : Statement (.jal off) :=
  decode_of_encode rfl (by simp (disch := omega) [decode, decodeNSC])
theorem jr (d a : Reg) (wa : Bool) : Statement (.jr d a wa) :=
  decode_of_encode rfl (by simp (disch := omega) [decode, decodeNSC, needZero])
theorem loop (a : Reg) (l : BitVec 2) (off : BitVec 12) : Statement (.loop a l off) :=
  decode_of_encode rfl (by simp (disch := omega) [decode, decodeNSC, needZero])
theorem quiet (a : Reg) (n : BitVec 12) : Statement (.quiet a n) :=
  decode_of_encode rfl (by simp (disch := omega) [decode, decodeNSC, needZero])
theorem tkw (ka kb kc : Tok) : Statement (.tkw ka kb kc) :=
  decode_of_encode rfl (by simp (disch := omega) [decode, decodeNSC, needZero])
theorem waitc (a b : Reg) (wa wb : Bool) (sc : Scope) (c : WCond) : Statement (.waitc a b wa wb sc c) :=
  decode_of_encode rfl (by simp (disch := omega) [decode, decodeNSC, needZero])
theorem bar (id : BitVec 12) : Statement (.bar id) :=
  decode_of_encode rfl (by simp (disch := omega) [decode, decodeNSC, needZero])
theorem tend : Statement (.tend) :=
  decode_of_encode rfl (by simp (disch := omega) [decode, decodeNSC, needZero])
theorem slk (n : BitVec 12) : Statement (.slk n) :=
  decode_of_encode rfl (by simp (disch := omega) [decode, decodeNSC, needZero])
theorem vadd (d a b : Reg) (mk : MReg) (t : ETy) : Statement (.vadd d a b mk t) :=
  decode_of_encode rfl (by simp (disch := omega) [decode, decodeV])
theorem vsub (d a b : Reg) (mk : MReg) (t : ETy) : Statement (.vsub d a b mk t) :=
  decode_of_encode rfl (by simp (disch := omega) [decode, decodeV])
theorem vmul (d a b : Reg) (mk : MReg) (t : ETy) : Statement (.vmul d a b mk t) :=
  decode_of_encode rfl (by simp (disch := omega) [decode, decodeV])
theorem vfma (d a b : Reg) (mk : MReg) (t : ETy) : Statement (.vfma d a b mk t) :=
  decode_of_encode rfl (by simp (disch := omega) [decode, decodeV])
theorem vfms (d a b : Reg) (mk : MReg) (t : ETy) : Statement (.vfms d a b mk t) :=
  decode_of_encode rfl (by simp (disch := omega) [decode, decodeV])
theorem vfnm (d a b : Reg) (mk : MReg) (t : ETy) : Statement (.vfnm d a b mk t) :=
  decode_of_encode rfl (by simp (disch := omega) [decode, decodeV])
theorem vmin (d a b : Reg) (mk : MReg) (t : ETy) : Statement (.vmin d a b mk t) :=
  decode_of_encode rfl (by simp (disch := omega) [decode, decodeV])
theorem vmax (d a b : Reg) (mk : MReg) (t : ETy) : Statement (.vmax d a b mk t) :=
  decode_of_encode rfl (by simp (disch := omega) [decode, decodeV])
theorem vminm (d a b : Reg) (mk : MReg) (t : ETy) : Statement (.vminm d a b mk t) :=
  decode_of_encode rfl (by simp (disch := omega) [decode, decodeV])
theorem vmaxm (d a b : Reg) (mk : MReg) (t : ETy) : Statement (.vmaxm d a b mk t) :=
  decode_of_encode rfl (by simp (disch := omega) [decode, decodeV])
theorem vabs (d a : Reg) (mk : MReg) (t : ETy) : Statement (.vabs d a mk t) :=
  decode_of_encode rfl (by simp (disch := omega) [decode, decodeV, needZero])
theorem vneg (d a : Reg) (mk : MReg) (t : ETy) : Statement (.vneg d a mk t) :=
  decode_of_encode rfl (by simp (disch := omega) [decode, decodeV, needZero])
theorem vsfn (d a : Reg) (fn : SFn) (mk : MReg) (t : ETy) : Statement (.vsfn d a fn mk t) :=
  decode_of_encode rfl (by simp (disch := omega) [decode, decodeV, needSel])
theorem vcmp (e : MReg) (c : VCond) (a b : Reg) (mk : MReg) (t : ETy) : Statement (.vcmp e c a b mk t) :=
  decode_of_encode rfl (by simp (disch := omega) [decode, decodeV])
theorem vsel (d a b : Reg) (mk : MReg) (t : ETy) : Statement (.vsel d a b mk t) :=
  decode_of_encode rfl (by simp (disch := omega) [decode, decodeV])
theorem vand (d a b : Reg) (mk : MReg) (t : ETy) : Statement (.vand d a b mk t) :=
  decode_of_encode rfl (by simp (disch := omega) [decode, decodeV])
theorem vor (d a b : Reg) (mk : MReg) (t : ETy) : Statement (.vor d a b mk t) :=
  decode_of_encode rfl (by simp (disch := omega) [decode, decodeV])
theorem vxor (d a b : Reg) (mk : MReg) (t : ETy) : Statement (.vxor d a b mk t) :=
  decode_of_encode rfl (by simp (disch := omega) [decode, decodeV])
theorem vshl (d a b : Reg) (mk : MReg) (t : ETy) : Statement (.vshl d a b mk t) :=
  decode_of_encode rfl (by simp (disch := omega) [decode, decodeV])
theorem vshr (d a b : Reg) (mk : MReg) (t : ETy) : Statement (.vshr d a b mk t) :=
  decode_of_encode rfl (by simp (disch := omega) [decode, decodeV])
theorem vsra (d a b : Reg) (mk : MReg) (t : ETy) : Statement (.vsra d a b mk t) :=
  decode_of_encode rfl (by simp (disch := omega) [decode, decodeV])
theorem vcvt (d a : Reg) (dt : ETy) (rm : RMode) (mk : MReg) (t : ETy) : Statement (.vcvt d a dt rm mk t) :=
  decode_of_encode rfl (by simp (disch := omega) [decode, decodeV, needSel])
theorem vqmx (a b : Reg) (mk : MReg) (t : ETy) : Statement (.vqmx a b mk t) :=
  decode_of_encode rfl (by simp (disch := omega) [decode, decodeV, needZero])
theorem vred (d a : Reg) (op : RedOp) (mk : MReg) (t : ETy) : Statement (.vred d a op mk t) :=
  decode_of_encode rfl (by simp (disch := omega) [decode, decodeV, needSel])
theorem vscan (d a : Reg) (mk : MReg) (t : ETy) : Statement (.vscan d a mk t) :=
  decode_of_encode rfl (by simp (disch := omega) [decode, decodeV, needZero])
theorem vperm (d a b : Reg) (mk : MReg) (t : ETy) : Statement (.vperm d a b mk t) :=
  decode_of_encode rfl (by simp (disch := omega) [decode, decodeV])
theorem vbcst (d a : Reg) (mk : MReg) (t : ETy) : Statement (.vbcst d a mk t) :=
  decode_of_encode rfl (by simp (disch := omega) [decode, decodeV, needZero])
theorem vext (d a b : Reg) (t : ETy) : Statement (.vext d a b t) :=
  decode_of_encode rfl (by simp (disch := omega) [decode, decodeV, needZero])
theorem vins (d a b : Reg) (mk : MReg) (t : ETy) : Statement (.vins d a b mk t) :=
  decode_of_encode rfl (by simp (disch := omega) [decode, decodeV])
theorem viota (d : Reg) (mk : MReg) (t : ETy) : Statement (.viota d mk t) :=
  decode_of_encode rfl (by simp (disch := omega) [decode, decodeV, needZero])
theorem vbits (d a : Reg) (op : BitOp) (mk : MReg) (t : ETy) : Statement (.vbits d a op mk t) :=
  decode_of_encode rfl (by simp (disch := omega) [decode, decodeV, needSel])
theorem vprune (d a b : Reg) (mk : MReg) (t : ETy) : Statement (.vprune d a b mk t) :=
  decode_of_encode rfl (by simp (disch := omega) [decode, decodeV])
theorem vrand (d : Reg) (uniform : Bool) (mk : MReg) (t : ETy) : Statement (.vrand d uniform mk t) :=
  decode_of_encode rfl (by cases uniform <;> simp (disch := omega) [decode, decodeV, needZero])
theorem vscl (d a b : Reg) (mk : MReg) (t : ETy) : Statement (.vscl d a b mk t) :=
  decode_of_encode rfl (by simp (disch := omega) [decode, decodeV])
theorem vmov (d a : Reg) (mk : MReg) (t : ETy) : Statement (.vmov d a mk t) :=
  decode_of_encode rfl (by simp (disch := omega) [decode, decodeV, needZero])
theorem vmsk (e f : MReg) (op : MaskOp) : Statement (.vmsk e f op) :=
  decode_of_encode rfl (by simp (disch := omega) [decode, decodeV, needZero, needSel])
theorem vmcnt (d : Reg) (f : MReg) (t : ETy) : Statement (.vmcnt d f t) :=
  decode_of_encode rfl (by simp (disch := omega) [decode, decodeV, needZero])
theorem mpcw (a : Reg) (wa : Bool) : Statement (.mpcw a wa) :=
  decode_of_encode rfl (by simp (disch := omega) [decode, decodeXL, needZero])
theorem mlw (p : Reg) (kd ka kb kc : Tok) : Statement (.mlw p kd ka kb kc) :=
  decode_of_encode rfl (by simp (disch := omega) [decode, decodeXL, decodeE, needZero])
theorem mla (p : Reg) (kd ka kb kc : Tok) : Statement (.mla p kd ka kb kc) :=
  decode_of_encode rfl (by simp (disch := omega) [decode, decodeXL, decodeE, needZero])
theorem mma (p : Reg) (kd ka kb kc : Tok) : Statement (.mma p kd ka kb kc) :=
  decode_of_encode rfl (by simp (disch := omega) [decode, decodeXL, decodeE, needZero])
theorem mman (p : Reg) (kd ka kb kc : Tok) : Statement (.mman p kd ka kb kc) :=
  decode_of_encode rfl (by simp (disch := omega) [decode, decodeXL, decodeE, needZero])
theorem mmab (p : Reg) (kd ka kb kc : Tok) : Statement (.mmab p kd ka kb kc) :=
  decode_of_encode rfl (by simp (disch := omega) [decode, decodeXL, decodeE, needZero])
theorem mdr (p : Reg) (kd ka kb kc : Tok) : Statement (.mdr p kd ka kb kc) :=
  decode_of_encode rfl (by simp (disch := omega) [decode, decodeXL, decodeE, needZero])
theorem mza (p : Reg) (kd ka kb kc : Tok) : Statement (.mza p kd ka kb kc) :=
  decode_of_encode rfl (by simp (disch := omega) [decode, decodeXL, decodeE, needZero])
theorem mrb (p : Reg) (kd ka kb kc : Tok) : Statement (.mrb p kd ka kb kc) :=
  decode_of_encode rfl (by simp (disch := omega) [decode, decodeXL, decodeE, needZero])
theorem mstat (p : Reg) (kd ka kb kc : Tok) : Statement (.mstat p kd ka kb kc) :=
  decode_of_encode rfl (by simp (disch := omega) [decode, decodeXL, decodeE, needZero])
theorem ldbs (t a : Reg) (wa : Bool) (disp : BitVec 11) : Statement (.ldbs t a wa disp) :=
  decode_of_encode rfl (by simp (disch := omega) [decode, decodeXL])
theorem ldbn (t a : Reg) (wa : Bool) (disp : BitVec 11) : Statement (.ldbn t a wa disp) :=
  decode_of_encode rfl (by simp (disch := omega) [decode, decodeXL])
theorem ldhs (t a : Reg) (wa : Bool) (disp : BitVec 11) : Statement (.ldhs t a wa disp) :=
  decode_of_encode rfl (by simp (disch := omega) [decode, decodeXL])
theorem ldhn (t a : Reg) (wa : Bool) (disp : BitVec 11) : Statement (.ldhn t a wa disp) :=
  decode_of_encode rfl (by simp (disch := omega) [decode, decodeXL])
theorem ldws (t a : Reg) (wa : Bool) (disp : BitVec 11) : Statement (.ldws t a wa disp) :=
  decode_of_encode rfl (by simp (disch := omega) [decode, decodeXL])
theorem ldwn (t a : Reg) (wa : Bool) (disp : BitVec 11) : Statement (.ldwn t a wa disp) :=
  decode_of_encode rfl (by simp (disch := omega) [decode, decodeXL])
theorem ldd (t a : Reg) (wa : Bool) (disp : BitVec 11) : Statement (.ldd t a wa disp) :=
  decode_of_encode rfl (by simp (disch := omega) [decode, decodeXL])
theorem stb (t a : Reg) (wa : Bool) (disp : BitVec 11) : Statement (.stb t a wa disp) :=
  decode_of_encode rfl (by simp (disch := omega) [decode, decodeXL])
theorem sth (t a : Reg) (wa : Bool) (disp : BitVec 11) : Statement (.sth t a wa disp) :=
  decode_of_encode rfl (by simp (disch := omega) [decode, decodeXL])
theorem stw (t a : Reg) (wa : Bool) (disp : BitVec 11) : Statement (.stw t a wa disp) :=
  decode_of_encode rfl (by simp (disch := omega) [decode, decodeXL])
theorem std (t a : Reg) (wa : Bool) (disp : BitVec 11) : Statement (.std t a wa disp) :=
  decode_of_encode rfl (by simp (disch := omega) [decode, decodeXL])
theorem ldv (t a : Reg) (wa : Bool) (disp : BitVec 11) : Statement (.ldv t a wa disp) :=
  decode_of_encode rfl (by simp (disch := omega) [decode, decodeXL])
theorem stv (t a : Reg) (wa : Bool) (disp : BitVec 11) : Statement (.stv t a wa disp) :=
  decode_of_encode rfl (by simp (disch := omega) [decode, decodeXL])
theorem lda (d a : Reg) (wa : Bool) (z : Width) (sc : Scope) : Statement (.lda d a wa z sc) :=
  decode_of_encode rfl (by simp (disch := omega) [decode, decodeXL, needZero])
theorem stl (a b : Reg) (wa wb : Bool) (z : Width) (sc : Scope) : Statement (.stl a b wa wb z sc) :=
  decode_of_encode rfl (by simp (disch := omega) [decode, decodeXL, needZero])
theorem amog (d a b : Reg) (o : AmoOrd) (fn : AmoFn) : Statement (.amog d a b o fn) :=
  decode_of_encode rfl (by simp (disch := omega) [decode, decodeXL, decodeAmo, needSel])
theorem amod (d a b : Reg) (o : AmoOrd) (fn : AmoFn) : Statement (.amod d a b o fn) :=
  decode_of_encode rfl (by simp (disch := omega) [decode, decodeXL, decodeAmo, needSel])
theorem amos (d a b : Reg) (o : AmoOrd) (fn : AmoFn) : Statement (.amos d a b o fn) :=
  decode_of_encode rfl (by simp (disch := omega) [decode, decodeXL, decodeAmo, needSel])
theorem fence (eng : Bool) (k : FenceKind) (sc : Scope) : Statement (.fence eng k sc) :=
  decode_of_encode rfl (by simp (disch := omega) [decode, decodeXL, needZero, needSel])
theorem rgmap (p : Reg) (kd ka kb kc : Tok) : Statement (.rgmap p kd ka kb kc) :=
  decode_of_encode rfl (by simp (disch := omega) [decode, decodeXL, decodeE, needZero])
theorem rgwb (p : Reg) (kd ka kb kc : Tok) : Statement (.rgwb p kd ka kb kc) :=
  decode_of_encode rfl (by simp (disch := omega) [decode, decodeXL, decodeE, needZero])
theorem rginv (p : Reg) (kd ka kb kc : Tok) : Statement (.rginv p kd ka kb kc) :=
  decode_of_encode rfl (by simp (disch := omega) [decode, decodeXL, decodeE, needZero])
theorem wlpsh (d a b : Reg) (wa wb : Bool) : Statement (.wlpsh d a b wa wb) :=
  decode_of_encode rfl (by simp (disch := omega) [decode, decodeXL, needZero])
theorem wlpop (p : Reg) (kd ka kb kc : Tok) : Statement (.wlpop p kd ka kb kc) :=
  decode_of_encode rfl (by simp (disch := omega) [decode, decodeXL, decodeE, needZero])
theorem wlins (d a b : Reg) (wa wb : Bool) : Statement (.wlins d a b wa wb) :=
  decode_of_encode rfl (by simp (disch := omega) [decode, decodeXL, needZero])
theorem cpy (p : Reg) (kd ka kb kc : Tok) : Statement (.cpy p kd ka kb kc) :=
  decode_of_encode rfl (by simp (disch := omega) [decode, decodeEZ, decodeE, needZero])
theorem cprWrite (p : Reg) (kd ka kb kc : Tok) : Statement (.cprWrite p kd ka kb kc) :=
  decode_of_encode rfl (by simp (disch := omega) [decode, decodeEZ])
theorem cprRead (p : Reg) (kd ka kb kc : Tok) : Statement (.cprRead p kd ka kb kc) :=
  decode_of_encode rfl (by simp (disch := omega) [decode, decodeEZ])
theorem crd (p : Reg) (kd ka kb kc : Tok) : Statement (.crd p kd ka kb kc) :=
  decode_of_encode rfl (by simp (disch := omega) [decode, decodeEZ, decodeE, needZero])
theorem csg (p : Reg) (kd ka kb kc : Tok) (sc : Scope) : Statement (.csg p kd ka kb kc sc) :=
  decode_of_encode rfl (by simp (disch := omega) [decode, decodeEZ])
theorem gth (p : Reg) (kd ka kb kc : Tok) : Statement (.gth p kd ka kb kc) :=
  decode_of_encode rfl (by simp (disch := omega) [decode, decodeEZ, decodeE, needZero])
theorem sct (p : Reg) (kd ka kb kc : Tok) : Statement (.sct p kd ka kb kc) :=
  decode_of_encode rfl (by simp (disch := omega) [decode, decodeEZ, decodeE, needZero])
theorem sca (p : Reg) (kd ka kb kc : Tok) : Statement (.sca p kd ka kb kc) :=
  decode_of_encode rfl (by simp (disch := omega) [decode, decodeEZ, decodeE, needZero])
theorem spl (p : Reg) (kd ka kb kc : Tok) : Statement (.spl p kd ka kb kc) :=
  decode_of_encode rfl (by simp (disch := omega) [decode, decodeEZ, decodeE, needZero])
theorem sps (p : Reg) (kd ka kb kc : Tok) : Statement (.sps p kd ka kb kc) :=
  decode_of_encode rfl (by simp (disch := omega) [decode, decodeEZ, decodeE, needZero])
theorem spa (p : Reg) (kd ka kb kc : Tok) : Statement (.spa p kd ka kb kc) :=
  decode_of_encode rfl (by simp (disch := omega) [decode, decodeEZ, decodeE, needZero])
theorem spi (p : Reg) (kd ka kb kc : Tok) : Statement (.spi p kd ka kb kc) :=
  decode_of_encode rfl (by simp (disch := omega) [decode, decodeEZ, decodeE, needZero])
theorem spd (p : Reg) (kd ka kb kc : Tok) : Statement (.spd p kd ka kb kc) :=
  decode_of_encode rfl (by simp (disch := omega) [decode, decodeEZ, decodeE, needZero])
theorem lnch (p : Reg) (kd ka kb kc : Tok) : Statement (.lnch p kd ka kb kc) :=
  decode_of_encode rfl (by simp (disch := omega) [decode, decodeEZ, decodeE, needZero])
theorem mfc (d : Reg) (n : BitVec 12) : Statement (.mfc d n) :=
  decode_of_encode rfl (by simp (disch := omega) [decode, decodeEZ, needZero])
theorem mtc (a : Reg) (n : BitVec 12) : Statement (.mtc a n) :=
  decode_of_encode rfl (by simp (disch := omega) [decode, decodeEZ, needZero])
theorem trap (n : BitVec 12) : Statement (.trap n) :=
  decode_of_encode rfl (by simp (disch := omega) [decode, decodeEZ, needZero])
theorem sysRft : Statement (.sysRft) :=
  decode_of_encode rfl (by simp (disch := omega) [decode, decodeEZ, needZero])
theorem sysHalt : Statement (.sysHalt) :=
  decode_of_encode rfl (by simp (disch := omega) [decode, decodeEZ, needZero])
theorem sysTlbi (a : Reg) : Statement (.sysTlbi a) :=
  decode_of_encode rfl (by simp (disch := omega) [decode, decodeEZ, needZero])
theorem sysTlbia : Statement (.sysTlbia) :=
  decode_of_encode rfl (by simp (disch := omega) [decode, decodeEZ, needZero])
theorem sysGsw (a : Reg) : Statement (.sysGsw a) :=
  decode_of_encode rfl (by simp (disch := omega) [decode, decodeEZ, needZero])
theorem sysCut (a : Reg) : Statement (.sysCut a) :=
  decode_of_encode rfl (by simp (disch := omega) [decode, decodeEZ, needZero])
theorem sysCeresume (a : Reg) : Statement (.sysCeresume a) :=
  decode_of_encode rfl (by simp (disch := omega) [decode, decodeEZ, needZero])
theorem sysSrgrow (a : Reg) : Statement (.sysSrgrow a) :=
  decode_of_encode rfl (by simp (disch := omega) [decode, decodeEZ, needZero])
theorem rget (d : Reg) : Statement (.rget d) :=
  decode_of_encode rfl (by simp (disch := omega) [decode, decodeEZ, needZero])
theorem rskip (a b : Reg) (wa wb : Bool) : Statement (.rskip a b wa wb) :=
  decode_of_encode rfl (by simp (disch := omega) [decode, decodeEZ, needZero])
theorem rseed (a b : Reg) (wa wb : Bool) : Statement (.rseed a b wa wb) :=
  decode_of_encode rfl (by simp (disch := omega) [decode, decodeEZ, needZero])
theorem rctl (d : Reg) : Statement (.rctl d) :=
  decode_of_encode rfl (by simp (disch := omega) [decode, decodeEZ, needZero])
theorem rcth (d : Reg) : Statement (.rcth d) :=
  decode_of_encode rfl (by simp (disch := omega) [decode, decodeEZ, needZero])
theorem repRepeat (ag : Agent) : Statement (.repRepeat ag) := by
  intro s w h; cases h
theorem hogRotation (core : Nat) : Statement (.hogRotation core) := by
  intro s w h; cases h
theorem stallClear (ag : Agent) : Statement (.stallClear ag) := by
  intro s w h; cases h
theorem divideComplete (ag : Agent) (sn : Nat) : Statement (.divideComplete ag sn) := by
  intro s w h; cases h
theorem loadComplete (ag : Agent) (sn : Nat) : Statement (.loadComplete ag sn) := by
  intro s w h; cases h
theorem vextDeferredFill (ag : Agent) (sn : Nat) : Statement (.vextDeferredFill ag sn) := by
  intro s w h; cases h
theorem atomicPerform (ag : Agent) (sn : Nat) : Statement (.atomicPerform ag sn) := by
  intro s w h; cases h
theorem memoryFaultReport (ag : Agent) : Statement (.memoryFaultReport ag) := by
  intro s w h; cases h
theorem waitcRecheck (ag : Agent) : Statement (.waitcRecheck ag) := by
  intro s w h; cases h
theorem barrierRelease (grp : Nat) (id : BitVec 12) : Statement (.barrierRelease grp id) := by
  intro s w h; cases h
theorem tendDrainEnd (ag : Agent) : Statement (.tendDrainEnd ag) := by
  intro s w h; cases h
theorem taskCommit (ag : Agent) : Statement (.taskCommit ag) := by
  intro s w h; cases h
theorem haltDrainEnd (ag : Agent) : Statement (.haltDrainEnd ag) := by
  intro s w h; cases h
theorem matrixCommandStart (c : Nat) : Statement (.matrixCommandStart c) := by
  intro s w h; cases h
theorem matrixCommandComplete (c : Nat) : Statement (.matrixCommandComplete c) := by
  intro s w h; cases h
theorem arrayEnableGrant (cluster : Nat) : Statement (.arrayEnableGrant cluster) := by
  intro s w h; cases h
theorem arrayDisable (cluster : Nat) : Statement (.arrayDisable cluster) := by
  intro s w h; cases h
theorem engineCommandStart (c : Nat) : Statement (.engineCommandStart c) := by
  intro s w h; cases h
theorem nbHoldRelease (c : Nat) : Statement (.nbHoldRelease c) := by
  intro s w h; cases h
theorem engineCommandComplete (c : Nat) : Statement (.engineCommandComplete c) := by
  intro s w h; cases h
theorem enginePark (c : Nat) : Statement (.enginePark c) := by
  intro s w h; cases h
theorem faultRingDrain (die : Nat) : Statement (.faultRingDrain die) := by
  intro s w h; cases h
theorem pageWalkComplete (unit n : Nat) : Statement (.pageWalkComplete unit n) := by
  intro s w h; cases h
theorem replicatedWrite (n : Nat) : Statement (.replicatedWrite n) := by
  intro s w h; cases h
theorem workListOperation (core : Nat) : Statement (.workListOperation core) := by
  intro s w h; cases h
theorem workListSpillComplete (core : Nat) : Statement (.workListSpillComplete core) := by
  intro s w h; cases h
theorem sparseOperation (c : Nat) : Statement (.sparseOperation c) := by
  intro s w h; cases h
theorem launchDistribution (m : Nat) : Statement (.launchDistribution m) := by
  intro s w h; cases h
theorem launchAcceptance (m : Nat) : Statement (.launchAcceptance m) := by
  intro s w h; cases h
theorem launchRefusal (m : Nat) : Statement (.launchRefusal m) := by
  intro s w h; cases h
theorem phaseStart (m : Nat) : Statement (.phaseStart m) := by
  intro s w h; cases h
theorem phaseBegin (sh : Nat) : Statement (.phaseBegin sh) := by
  intro s w h; cases h
theorem phaseReport (m : Nat) : Statement (.phaseReport m) := by
  intro s w h; cases h
theorem taskPlacement (die : Nat) : Statement (.taskPlacement die) := by
  intro s w h; cases h
theorem tileFillComplete (t tile : Nat) : Statement (.tileFillComplete t tile) := by
  intro s w h; cases h
theorem taskBind (t : Nat) : Statement (.taskBind t) := by
  intro s w h; cases h
theorem taskAging (sh idx : Nat) : Statement (.taskAging sh idx) := by
  intro s w h; cases h
theorem groupReservation (sh idx : Nat) : Statement (.groupReservation sh idx) := by
  intro s w h; cases h
theorem write (n : Nat) : Statement (.write n) := by
  intro s w h; cases h
theorem read (n : Nat) : Statement (.read n) := by
  intro s w h; cases h
theorem reduce (n : Nat) : Statement (.reduce n) := by
  intro s w h; cases h
theorem counterAdd (n : Nat) : Statement (.counterAdd n) := by
  intro s w h; cases h
theorem acknowledge (n : Nat) : Statement (.acknowledge n) := by
  intro s w h; cases h
theorem readData (n : Nat) : Statement (.readData n) := by
  intro s w h; cases h
theorem parkNotice (n : Nat) : Statement (.parkNotice n) := by
  intro s w h; cases h
theorem resumeNotice (n : Nat) : Statement (.resumeNotice n) := by
  intro s w h; cases h
theorem floor (n : Nat) : Statement (.floor n) := by
  intro s w h; cases h
theorem heldRequestRelease (n : Nat) : Statement (.heldRequestRelease n) := by
  intro s w h; cases h
theorem requestResend (r : Nat) : Statement (.requestResend r) := by
  intro s w h; cases h
theorem requestTimeout (r : Nat) : Statement (.requestTimeout r) := by
  intro s w h; cases h
theorem tagQuarantineEnd (die : Nat) : Statement (.tagQuarantineEnd die) := by
  intro s w h; cases h
theorem packetForward (n : Nat) : Statement (.packetForward n) := by
  intro s w h; cases h
theorem packetExpiry (n : Nat) : Statement (.packetExpiry n) := by
  intro s w h; cases h
theorem creditReturn (port ch : Nat) (reserved : Bool) : Statement (.creditReturn port ch reserved) := by
  intro s w h; cases h
theorem linkResendRequest (port : Nat) : Statement (.linkResendRequest port) := by
  intro s w h; cases h
theorem trainingComplete (port ndev nport : Nat) : Statement (.trainingComplete port ndev nport) := by
  intro s w h; cases h
theorem trainingTimeout (port : Nat) : Statement (.trainingTimeout port) := by
  intro s w h; cases h
theorem retrainingStart (port : Nat) : Statement (.retrainingStart port) := by
  intro s w h; cases h
theorem retrainingComplete (port : Nat) : Statement (.retrainingComplete port) := by
  intro s w h; cases h
theorem retrainingTimeout (port : Nat) : Statement (.retrainingTimeout port) := by
  intro s w h; cases h
theorem beaconSend : Statement (.beaconSend) := by
  intro s w h; cases h
theorem beacon (port : Nat) (cyc : BitVec 80) : Statement (.beacon port cyc) := by
  intro s w h; cases h
theorem echo (port delay : Nat) : Statement (.echo port delay) := by
  intro s w h; cases h
theorem alignmentLoss : Statement (.alignmentLoss) := by
  intro s w h; cases h
theorem manage (n : Nat) : Statement (.manage n) := by
  intro s w h; cases h
theorem cutOpen (m : Nat) : Statement (.cutOpen m) := by
  intro s w h; cases h
theorem cutReport (m : Nat) : Statement (.cutReport m) := by
  intro s w h; cases h
theorem cutTarget (m : Nat) : Statement (.cutTarget m) := by
  intro s w h; cases h
theorem cutTimeLimit (ag : Agent) : Statement (.cutTimeLimit ag) := by
  intro s w h; cases h
theorem contextSave (ag : Agent) : Statement (.contextSave ag) := by
  intro s w h; cases h
theorem switchAcceptance (m : Nat) : Statement (.switchAcceptance m) := by
  intro s w h; cases h
theorem switchFreeze (die job : Nat) : Statement (.switchFreeze die job) := by
  intro s w h; cases h
theorem sweepFence (job : Nat) (pl : Place) : Statement (.sweepFence job pl) := by
  intro s w h; cases h
theorem sweepTimeout (job : Nat) (pl : Place) : Statement (.sweepTimeout job pl) := by
  intro s w h; cases h
theorem localSweepComplete (job : Nat) : Statement (.localSweepComplete job) := by
  intro s w h; cases h
theorem tagChange (m : Nat) : Statement (.tagChange m) := by
  intro s w h; cases h
theorem switchResume (job : Nat) : Statement (.switchResume job) := by
  intro s w h; cases h
theorem powerOn (fail : Nat) : Statement (.powerOn fail) := by
  intro s w h; cases h
theorem seqgo (die : Nat) (v : Word) : Statement (.seqgo die v) := by
  intro s w h; cases h
theorem ctxrst (v : Word) : Statement (.ctxrst v) := by
  intro s w h; cases h
theorem quoteNonce (nonce : BitVec 256) : Statement (.quoteNonce nonce) := by
  intro s w h; cases h
theorem quoteComplete : Statement (.quoteComplete) := by
  intro s w h; cases h
theorem routeEntryWrite (d : Nat) (v : BitVec 32) : Statement (.routeEntryWrite d v) := by
  intro s w h; cases h
theorem fstepWrite (v : Word) : Statement (.fstepWrite v) := by
  intro s w h; cases h
theorem portEnable (port : Nat) : Statement (.portEnable port) := by
  intro s w h; cases h
theorem portDisable (port : Nat) : Statement (.portDisable port) := by
  intro s w h; cases h
theorem counterWrite (i : Nat) (v : Word) : Statement (.counterWrite i v) := by
  intro s w h; cases h
theorem hostRegisterWrite (off : Nat) (v : Word) : Statement (.hostRegisterWrite off v) := by
  intro s w h; cases h
theorem hostMemoryAccess (off : Nat) (w : Option Word) : Statement (.hostMemoryAccess off w) := by
  intro s w h; cases h
theorem thermalUpdate (region temp stackTemp : Nat) : Statement (.thermalUpdate region temp stackTemp) := by
  intro s w h; cases h
theorem powerMonitor (above : Bool) : Statement (.powerMonitor above) := by
  intro s w h; cases h
theorem saveCompleteReport (m : Nat) : Statement (.saveCompleteReport m) := by
  intro s w h; cases h
theorem launchAnswerTimeout (l : Nat) : Statement (.launchAnswerTimeout l) := by
  intro s w h; cases h

end Sys2Proof.Laws.RoundTrip
end

