-- ==== Sys2Proof/Tests/Slice0.lean ====
section
/-! SUPPORT. Decode tests from words written out by the encoding tables, a smoke test of every well-formedness check, and, for each
statement, states and operands that meet its hypotheses, clause by clause. -/

namespace Sys2Proof.Tests

open Sys2Proof.Machine Sys2Proof.Safety
set_option Elab.async false

/-! Small states. -/

/-- A context in kernel mode, selected, with these control registers and x registers. -/
def ctxOf (cr : List (Fin 24 × Word)) (x : List (Fin 64 × Word)) : Ctx :=
  { st := .selected, pc := 0x1000, cr := cr.foldl (fun v p => v.set p.1 p.2) (Vector.replicate 24 0)
    x := x.foldl (fun v p => v.set p.1 p.2) (Vector.replicate 64 0) }

/-- The machine with one context, number 0. -/
def only (c : Ctx) : State := ({} : State).setCtx 0 c

/-- Context 0 in kernel mode with every register zero. -/
def plain : State := only (ctxOf [(0, 1)] [])

/-- Ready, as a check. -/
def readyB (i : Instr) (s : State) : Bool :=
  !s.iss.isOpen && decide ((own s).drain = .none) && (staticFault (own s).kernel (isSeq s.cur) none [some i]).isNone &&
    !stalls s s.cur [i] 0 && !pathFull (own s) [i] && (lateFault s s.cur (own s).pc 1 0 [i]).isNone

theorem ready_of_readyB {i : Instr} {s : State} (h : readyB i s = true) : Ready i s := by
  simp only [readyB, Bool.and_eq_true, Bool.not_eq_true', decide_eq_true_eq, Option.isNone_iff_eq_none] at h
  exact ⟨h.1.1.1.1.1, h.1.1.1.1.2, h.1.1.1.2, h.1.1.2, h.1.2, h.2⟩

theorem ready_of_all {l : List Instr} {s : State} (h : l.all (readyB · s) = true) : ∀ i ∈ l, Ready i s := fun i hi =>
  ready_of_readyB (List.all_eq_true.mp h i hi)

/-! Decoding: words put together by hand from the formats of spec/03_encoding.md (R77, R85 to R89), one or more for each class. -/

/-- N, S: opcodes 0x00, 0x02, 0x03, 0x0E; D at bit 18, A at 12, B at 6, WA and WB at 5 and 4, the function code in the low bits. -/
theorem decode_scalar : decode 0x00000000#32 = .ok .nop ∧ decode 0x020C4150#32 = .ok (.add 3 4 5 false true) ∧
    decode 0x030C4049#32 = .ok (.clz 3 4 .w16 false) ∧ decode 0x8E0F16D3#32 = .ok (.lis 3 0x316D3) := by decide +kernel

/-- C: A at bit 18 and B at 12 of a branch, LOOP with L at 12, TKW with three tokens, WAITC with scope and condition. -/
theorem decode_control : decode 0x900C0006#32 = .ok (.beq 3 0 6) ∧ decode 0x99100002#32 = .ok (.loop 4 0 2) ∧
    decode 0x1B00048C#32 = .ok (.tkw 1 2 3) ∧ decode 0x1C003109#32 = .ok (.waitc 3 4 false false .dev .eq) := by decide +kernel

/-- V: the mask at bit 3 and the type in bits 2 to 0; the selectors of VCVT and VRED in B. -/
theorem decode_vector : decode 0x23209290#32 = .ok (.vfma 8 9 10 2 .f32) ∧ decode 0xB5508200#32 = .ok (.vcvt 20 8 .bf16 .rne 0 .f32) ∧
    decode 0x370C8053#32 = .ok (.vred 3 8 .max 2 .s32) := by decide +kernel

/-- X and E: P at bit 18, KD, KA, KB, KC at 14, 10, 6 and 2. -/
theorem decode_commands : decode 0xC8004000#32 = .ok (.mpcw 4 false) ∧ decode 0xCB20C480#32 = .ok (.mma 8 3 1 2 0) ∧
    decode 0xED208400#32 = .ok (.cpy 8 2 1 0 0) := by decide +kernel

/-- L: T at bit 18, A at 12, an eleven-bit displacement; size and scope of LDA and STL; order and function of the atomics. -/
theorem decode_memory : decode 0xDA146002#32 = .ok (.ldd 5 6 false 2) ∧ decode 0xDD1C27FF#32 = .ok (.stw 7 2 false 0x7FF) ∧
    decode 0xDF244002#32 = .ok (.ldv 9 4 false 2) ∧ decode 0xE10C400E#32 = .ok (.lda 3 4 false .w64 .dev) ∧
    decode 0xE200414E#32 = .ok (.stl 4 5 false false .w64 .dev) ∧ decode 0xE40C4179#32 = .ok (.amod 3 4 5 .acqrel .cas) := by decide +kernel

/-- Y: opcodes 0x7A, 0x7D and 0x7E. -/
theorem decode_system : decode 0xFA0C000D#32 = .ok (.mfc 3 0xD) ∧ decode 0xFD000000#32 = .ok .sysRft ∧ decode 0xFE0C0000#32 = .ok (.rget 3) := by
  decide +kernel

/-- R90: a non-zero must-be-zero field, a reserved opcode, an unlisted function code. -/
theorem decode_refuses : decode 0x00000001#32 = .error (.fieldNotZero 0) ∧ decode 0x7F000000#32 = .error (.reservedOpcode 0x7F) ∧
    decode 0x640C415B#32 = .error (.unlistedFunction 0x64 11) := by decide +kernel

/-! Well-formedness: an ill-formed instruction for each check, and its well-formed neighbour. -/

/-- The five parameters of CPR end with x63; one further they do not. -/
theorem illFormed_params : illFormed? (.cprWrite 60 1 0 0 0) = some .paramsPastX63 ∧ (Instr.cprWrite 59 1 0 0 0).wf = true := by decide
theorem illFormed_type : illFormed? (.vfma 1 2 3 0 .s32) = some .elementType ∧ (Instr.vfma 1 2 3 0 .f16).wf = true := by decide
theorem illFormed_mask : illFormed? (.vcmp 0 .eq 1 2 0 .f32) = some .maskZero ∧ (Instr.vcmp 1 .eq 1 2 0 .f32).wf = true := by decide
theorem illFormed_loop : illFormed? (.loop 4 0 0xFFF) = some .loopOffset ∧ (Instr.loop 4 0 1).wf = true := by decide
/-- A conversion to a type half as wide reads two registers. -/
theorem illFormed_group : illFormed? (.vcvt 1 63 .bf16 .rne 0 .f32) = some .groupPastV63 ∧ (Instr.vcvt 1 62 .bf16 .rne 0 .f32).wf = true := by decide
theorem illFormed_maskSource : illFormed? (.vmsk 1 1 .set) = some .maskSource ∧ (Instr.vmsk 1 0 .set).wf = true := by decide
theorem illFormed_controlNumber : illFormed? (.mfc 3 0x18) = some .controlNumber ∧ (Instr.mfc 3 0x17).wf = true := by decide
theorem illFormed_readOnly : illFormed? (.mtc 3 0x0A) = some .controlReadOnly ∧ (Instr.mtc 3 0x0B).wf = true := by decide

/-! Results, from the rules. -/

/-- The value of register d after a slot, or the one on its way to it. -/
def resultOf (i : Instr) (d : Reg) (s : State) : Option Word :=
  match Machine.exec i s with
  | .next t => some (((t.ctxAt 0).pend.findSome? fun p => match p.res with | .x r v => if r = d then some v else none | _ => none).getD ((t.ctxAt 0).getX d))
  | _ => none

/-- x4 is all ones, x5 is 65. -/
def operands : State := only (ctxOf [(0, 1)] [(4, -1), (5, 65)])

/-- R114: sums wrap modulo 2^64, and of B only the low six bits count in a shift. -/
theorem test_add_wraps : resultOf (.add 3 4 5 false false) 3 operands = some 64 := by decide +kernel
theorem test_shl_counts_modulo_64 : resultOf (.shl 3 5 5 false false) 3 operands = some 130 := by decide +kernel
/-- R115: the upper half of the signed and of the unsigned product. -/
theorem test_mulh_signed : resultOf (.mulh 3 4 5 false false) 3 operands = some (-1) := by decide +kernel
theorem test_mulhn_unsigned : resultOf (.mulhn 3 4 5 false false) 3 operands = some 64 := by decide +kernel

/-- SHA-512 of "abc", as FIPS 180-4 gives it: its first and last bytes. -/
theorem test_sha512 : (sha512 [0x61, 0x62, 0x63]).take 4 = [0xDD, 0xAF, 0x35, 0xA1] ∧
    (sha512 [0x61, 0x62, 0x63]).drop 60 = [0xA5, 0x4C, 0xA4, 0x9F] := by decide +kernel
/-- The key pair of the first test of RFC 8032. -/
theorem test_ed25519_public : natLE (edPublic (bytesLE 0x607fae1c03ac3b701969327b69c54944c42cec92f44a84ba605afdef9db1619d 32)) =
    0x1a5107f7681a02af2523a6daf372e10e3a0764c9d3fe4bd5b70ab18201985ad7 := by decide +kernel

/-! Witnesses: scalar slots. -/

theorem witness_AluResults : ∀ i ∈ [.add 3 4 5 false true, .sub 3 4 5 false false, .and 3 4 5 false false, .or 3 4 5 false false,
    .xor 3 4 5 false false, .andn 3 4 5 false false, .shl 3 4 5 false false, .shr 3 4 5 false false, .sra 3 4 5 false false,
    .ror 0 0 0 false false, .slt 3 4 5 false false, .sltn 3 4 5 false false, .seq 3 4 5 false false, .min 3 4 5 false false,
    .max 3 4 5 false false, Instr.sel 63 63 63 false false], Ready i plain := ready_of_all (by decide +kernel)

/-- SEL does not issue while its destination is empty. -/
theorem witness_AluResults_sel : (own (only { ctxOf [(0, 1)] [] with fullX := 0 })).xFull 3 = false ∧
    staticFault true false none [some (.sel 3 4 5 false false)] = none := by decide +kernel

theorem witness_MulResults : ∀ i ∈ [.mul 3 4 5 false false, .mulh 3 4 5 false false, .mulhn 0 4 5 false false, .minn 3 4 5 false false,
    .maxn 3 4 5 false false, .div 3 4 5 false false, .divn 63 4 5 false false, .rem 0 4 5 false false, Instr.remn 3 4 5 false false],
    Ready i plain := ready_of_all (by decide +kernel)

theorem witness_BitElements : ∀ i ∈ [.clz 3 4 .w8 false, .ffs 3 4 .w16 false, .popc 3 4 .w32 false, .brev 3 4 .w64 true, .sext 3 4 .w8 false,
    Instr.zext 0 4 .w64 false], Ready i plain := ready_of_all (by decide +kernel)

theorem witness_ImmediateForms : ∀ i ∈ [.addi 3 4 false 0x7FF, .andi 3 4 false 0x400, .ori 3 4 false 1, .xori 3 4 false 1, .shli 3 4 false 63,
    .shri 3 4 false 0, .srai 3 4 false 63, .slti 3 4 false 1, Instr.sltni 0 0 false 1], Ready i plain := ready_of_all (by decide +kernel)

theorem witness_LongImmediates : ∀ i ∈ [.li 3 0x20000, .lis 3 0x3FFFF, Instr.addpc 63 0], Ready i plain := ready_of_all (by decide +kernel)

/-- NOP alone; a REP alone, and one inside an open bundle. -/
theorem witness_NopAndRep : Ready .nop plain ∧ plain.iss.isOpen = false ∧ (opened plain).iss.isOpen = true :=
  ⟨ready_of_readyB (by decide +kernel), by decide +kernel, by decide +kernel⟩

/-! Witnesses: control slots. -/

/-- x3 is negative, x4 positive. -/
def signed : State := only (ctxOf [(0, 1)] [(3, -1), (4, 1)])

theorem witness_Branches : (∀ i ∈ [.beq 3 4 6, .beq 3 3 6, .bne 3 4 0xFFF, .bne 3 3 0, .blt 3 4 6, .blt 4 3 6, .bge 4 3 6, .bge 3 4 6,
      .bltn 4 3 6, .bltn 3 4 6, .bgen 3 4 6, Instr.bgen 4 3 6], Ready i signed) ∧ (own signed).repNext = none :=
  ⟨ready_of_all (by decide +kernel), by decide +kernel⟩

/-- x3 is not a multiple of 4, x4 lies above the virtual addresses. -/
def badTarget : State := only (ctxOf [(0, 1)] [(3, 0x1002), (4, 0x0200000000000000)])

theorem witness_Jumps : (∀ i ∈ [.jmp 0xFFFFFE, .jal 6, .jr 3 4 false, Instr.jr 0 0 true], Ready i plain) ∧
    (∀ a ∈ [3, 4], staticFault (own badTarget).kernel (isSeq badTarget.cur) none [some (.jr 5 a false)] = none ∧
      stalls badTarget badTarget.cur [.jr 5 a false] 0 = false ∧ step6 (own badTarget) (.jr 5 a false) = none) ∧
    ((own badTarget).getX 3).toNat % 4 = 2 ∧ ((own badTarget).getX 4).toNat = 2 ^ 57 :=
  ⟨ready_of_all (by decide +kernel), by decide +kernel, by decide +kernel, by decide +kernel⟩

/-- The page of the program counter is mapped to frame 0 in the unit of context 0. -/
def mapped (s : State) : State :=
  s.setUnit 0 { held := [{ job := 0, page := 0x1000, size := 4096, leaf := 0x3F, pin := false }] }

/-- Words at the program counter. -/
def coded (s : State) : List SlotWord → Nat → State
  | [], _ => mapped s
  | w :: t, a => coded (s.putBytes a 4 w.toNat) t (a + 4)

/-- x4 is 5; the word two after the LOOP has its stop bit set. -/
def looping : State := coded (only (ctxOf [(0, 1)] [(4, 5)])) [0x19100002, 0, 0x80000000] 0

theorem witness_Loops : (∀ i ∈ [.loop 4 1 2, .loop 0 3 2, Instr.loop 4 0 0x7FF], Ready i looping) ∧ (own looping).repNext = none ∧
    looping.fetchWord looping.cur ((own looping).pc + (2 : BitVec 12).signExtend 64 * 4) = (looping, .ok 0x80000000#32) ∧
    stopBit 0x80000000#32 = true := ⟨ready_of_all (by decide +kernel), by decide +kernel⟩

theorem witness_QuietPoint : ∀ i ∈ [.quiet 0 1, Instr.quiet 4 0xFFF], Ready i plain := ready_of_all (by decide +kernel)

theorem witness_ControlRegisterMoves : (∀ i ∈ [.slk 0xFFF, .mtc 4 0xD, .mtc 4 0, .mfc 3 0x16, .mfc 0 0xA, Instr.mpcw 4 false], Ready i signed) ∧
    (7 : Word).bits 0 3 = 7 ∧ (0x105 : Word).bits 0 3 < 6 := ⟨ready_of_all (by decide +kernel), by decide +kernel⟩

/-- VRM.RGH is set. -/
def halfDrawn : State := only (ctxOf [(0, 1), (0xE, 256), (0x11, -1)] [])

theorem witness_GeneratorSlots : (∀ i ∈ [.rget 3, .rskip 3 4 false false, .rseed 3 4 false false, .rctl 3, Instr.rcth 0], Ready i plain) ∧
    Ready (.rget 3) halfDrawn ∧ ((own plain).cr[0x0E]).getLsbD 8 = false ∧ ((own halfDrawn).cr[0x0E]).getLsbD 8 = true :=
  ⟨ready_of_all (by decide +kernel), ready_of_readyB (by decide +kernel), by decide +kernel⟩

/-- k2 has ended with status 0x41, k3 with a race at 0x5000. -/
def tokenBad : State :=
  only { ctxOf [(0, 1)] [] with k := ((Vector.replicate 16 {}).set 2 { status := 0x41 }).set 3 { status := 0x24, addr := 0x5000 } }

theorem witness_TokenWait : (∀ i ∈ [.tkw 1 2 3, .tkw 3 0 0, Instr.tkw 0 0 0], Ready i tokenBad) ∧ ((own tokenBad).getK 1).status = 0 ∧
    ((own tokenBad).getK 2).status = 0x41 := ⟨ready_of_all (by decide +kernel), by decide +kernel⟩

/-- x3 names a word of scratch that holds 0, x4 is 1. -/
def waiting : State := only (ctxOf [(0, 1)] [(3, 0xFE00000000000000), (4, 1)])

theorem witness_WaitOnWord : (∀ i ∈ [.waitc 3 4 false false .dev .ge, Instr.waitc 3 4 false false .dev .ne], Ready i waiting) ∧
    (own waiting).satisfied = false ∧ waitRead waiting waiting.cur ((own waiting).getX 3) ((own waiting).getX 4) .ne = (waiting, .yes) ∧
    waitRead waiting waiting.cur ((own waiting).getX 3) ((own waiting).getX 4) .ge = (waiting, .no) :=
  ⟨ready_of_all (by decide +kernel), by decide +kernel⟩

/-- Context 0 runs task 5, of a group of one, with or without a guard report. -/
def tasked (g : Option Guard) : State :=
  { only { ctxOf [(0, 1)] [] with task := some 5 } with
    tasks := [{ id := 5, share := 1, job := 0, index := 0, phase := 0, st := .bound, guard := g }] }

def someGuard : Guard := { addr := 64, count := 1, bank := 1, agent := 0 }

theorem witness_Barrier : Ready (.bar 1) plain ∧ Ready (.bar 0xFFF) (tasked none) ∧ Ready (.bar 1) (tasked (some someGuard)) ∧
    (own plain).task = none ∧ (own (tasked none)).task = some 5 ∧ ((tasked none).findTask 5).isSome = true :=
  ⟨ready_of_readyB (by decide +kernel), ready_of_readyB (by decide +kernel), ready_of_readyB (by decide +kernel), by decide +kernel⟩

/-- Frames are on, in installed memory; the context holds none, and its entry window is closed. -/
def framed (s : State) : State := s.modDie 0 fun d => { d with frameb := 0x40001 }

theorem witness_TaskEndsAndTraps : (∀ i ∈ [.tend, Instr.sysHalt], Ready i plain) ∧
    staticFault (own plain).kernel (isSeq plain.cur) none [some (.trap 0xFFF)] = none ∧ stalls plain plain.cur [.trap 0xFFF] 0 = false ∧
    (own (framed plain)).frames < 2 ∧ (own (framed plain)).window.isOpen = false ∧ (framed plain).framesOn 0 = true ∧
    installed ((framed plain).frameBase 0 0) 0x20000 = true := ⟨ready_of_all (by decide +kernel), by decide +kernel⟩

theorem witness_TranslationsInvalidated : ∀ i ∈ [.sysTlbi 4, Instr.sysTlbia], Ready i plain := ready_of_all (by decide +kernel)

/-! Witnesses: vector slots. -/

theorem witness_IntegerLanes : ∀ i ∈ [.vadd 1 2 3 0 .s8, .vsub 1 2 3 1 .n32, .vmul 1 2 3 7 .s32, .vmin 1 2 3 0 .s16, .vmax 1 2 3 0 .n8, .vabs 1 2 0 .s8,
    .vneg 1 2 0 .s32, .vshl 1 2 3 0 .n32, .vshr 1 2 3 0 .s8, .vsra 1 2 3 0 .s16, .vbits 1 2 .clz 0 .s8, Instr.vbits 1 2 .brev 0 .n32],
    Ready i plain := ready_of_all (by decide +kernel)

/-- VRM.RM is SR. -/
def stochastic : State := only (ctxOf [(0, 1), (0xE, 5)] [])

theorem witness_FloatLanes : ∀ i ∈ [.vadd 1 2 3 0 .f32, .vsub 1 2 3 1 .bf16, .vmul 1 2 3 7 .f16, .vfma 1 2 3 0 .f32, .vfms 1 2 3 0 .f32,
    .vfnm 1 2 3 0 .f32, .vscl 1 2 3 0 .f32, .vmin 1 2 3 0 .f32, .vmax 1 2 3 0 .f16, .vminm 1 2 3 0 .f32, .vmaxm 1 2 3 0 .bf16, .vabs 1 2 0 .f32,
    .vneg 1 2 0 .f32, Instr.vsfn 1 2 .erf 0 .f32], Ready i stochastic := ready_of_all (by decide +kernel)

theorem witness_MaskResults : ∀ i ∈ [.vcmp 1 .un 2 3 0 .f32, .vcmp 7 .lt 2 3 1 .n8, .vmsk 1 2 .xor, .vmsk 1 0 .set, Instr.vmcnt 3 0 .f32],
    Ready i plain := ready_of_all (by decide +kernel)

/-- v2 is empty. -/
def rowEmpty : State := only { ctxOf [(0, 1)] [] with fullV := ~~~4#64 }

theorem witness_LaneMoves : (∀ i ∈ [.vand 1 2 3 0 .f32, .vor 1 2 3 0 .s8, .vxor 1 2 3 0 .n32, .vmov 1 2 0 .f32, .vsel 1 2 3 4 .bf16, .vperm 1 2 3 0 .s8,
      .vbcst 1 2 0 .f32, .viota 1 0 .f16, .vins 1 2 3 0 .s16, Instr.vext 1 2 3 .f32], Ready i plain) ∧ Ready (.vext 1 2 3 .f32) rowEmpty ∧
    (own plain).vFull 2 = true ∧ (own rowEmpty).vFull 2 = false :=
  ⟨ready_of_all (by decide +kernel), ready_of_readyB (by decide +kernel), by decide +kernel⟩

theorem witness_Reductions : ∀ i ∈ [.vred 1 2 .sum 0 .f32, .vred 1 2 .max 3 .s8, .vred 1 2 .minm 0 .f16, Instr.vscan 1 2 0 .n32], Ready i plain :=
  ready_of_all (by decide +kernel)

theorem witness_RandomLanes : ∀ i ∈ [.vrand 1 false 0 .s8, .vrand 1 true 0 .f32, Instr.vprune 1 2 3 0 .f16], Ready i plain :=
  ready_of_all (by decide +kernel)

theorem witness_Conversions : ∀ i ∈ [.vcvt 8 9 .s8 .rne 1 .f32, .vcvt 60 9 .f32 .sr 0 .s8, Instr.vcvt 8 9 .f32 .rtz 0 .f32], Ready i plain :=
  ready_of_all (by decide +kernel)

/-- With every lane governed, and with none. -/
theorem witness_Quantisation : (∀ i ∈ [.vqmx 1 2 0 .f32, Instr.vqmx 1 2 1 .bf16], Ready i plain) ∧
    RMode.ofCode (((own plain).getX 2).extractLsb' 35 3) = some .rne := ⟨ready_of_all (by decide +kernel), by decide +kernel⟩

/-! Witnesses: the memory path. -/

/-- x4 is 0x10000. -/
def highBase : State := only (ctxOf [(0, 1)] [(4, 0x10000)])

theorem witness_LoadsAndStoresStart : ∀ i ∈ [.ldbs 3 4 false 0x400, .ldbn 3 4 false 1, .ldhs 3 4 false 1, .ldhn 3 4 false 1, .ldws 3 4 false 1,
    .ldwn 0 4 false 1, .ldd 3 4 false 1, .ldv 63 4 false 0, .stb 3 4 false 1, .sth 3 4 false 1, .stw 3 4 false 1, .std 3 4 true 0,
    Instr.stv 3 4 false 0], Ready i highBase := ready_of_all (by decide +kernel)

/-- x4 names the first word of scratch. -/
def scratchBase : State := only (ctxOf [(0, 1)] [(4, 0xFE00000000000000)])

/-- A load whose value is awaited stands before the fence. -/
def loading : State := only { ctxOf [(0, 1)] [] with acc := [{ sn := 0, ins := .ldd 3 4 false 0 }], sn := 1, fullX := ~~~8#64 }

theorem witness_SynchronisingStart : (∀ i ∈ [.lda 3 4 false .w8 .ctx, .stl 4 3 false false .w64 .sys, .amog 3 4 5 .acq .add, .amod 3 4 5 .acqrel .cas,
      .amos 3 4 5 .rel .fadd, .wlpsh 3 4 5 false false, Instr.wlins 0 4 5 false false], Ready i scratchBase) ∧
    (∀ i ∈ [.fence true .full .dev, .fence false .acq .grp, Instr.fence true .rel .sys], Ready i plain ∧ Ready i loading) ∧ (own plain).acc = [] ∧
    ∃ e l, (own loading).acc = e :: l ∧ isMem e.ins = true ∧ e.performed = false :=
  ⟨ready_of_all (by decide +kernel), fun i h => ⟨ready_of_all (l := [.fence true .full .dev, .fence false .acq .grp, .fence true .rel .sys])
    (by decide +kernel) i h, ready_of_all (l := [.fence true .full .dev, .fence false .acq .grp, .fence true .rel .sys]) (by decide +kernel) i h⟩,
   by decide +kernel, _, [], rfl, by decide +kernel⟩

/-- Context 0 has the access outstanding. -/
def accessing (a : Access) : State := only { ctxOf [(0, 1)] [] with acc := [a], sn := 1, fullX := ~~~8#64 }

/-- A store of the low four bytes of its register, at byte 4 of memory, on a page of the order o. -/
def storing (o : Ord) : Access := { sn := 0, ins := .stw 3 4 false 0, vt := 0x11223344, st := .ready { key := 4, ord := o } none }

theorem witness_StoresPerform : ∀ o ∈ [Ord.so, .rc], ((accessing (storing o)).ctxAt 0).st ≠ .frozen ∧
    ((accessing (storing o)).ctxAt 0).findAcc 0 = some (storing o) ∧ mayPerform (accessing (storing o)) 0 (storing o) = true ∧
    soFree ((accessing (storing o)).ctxAt 0) (storing o) { key := 4, ord := o } = true ∧ (accessing (storing o)).mem.wf = true ∧
    (accessing (storing o)).pw = [] ∧ (accessing (storing o)).rw = [] := by decide +kernel

/-- A load of two bytes at byte 6 of memory, sign-extended. -/
def reading : Access := { sn := 0, ins := .ldhs 3 4 false 0, st := .ready { key := 6, ord := .so } none }

theorem witness_LoadsPerform : ((accessing reading).ctxAt 0).findAcc 0 = some reading ∧ mayPerform (accessing reading) 0 reading = true ∧
    soFree ((accessing reading).ctxAt 0) reading { key := 6, ord := .so } = true ∧ (accessing reading).readable 0 0 = true ∧
    (accessing reading).isPoison 0 0 = false := by decide +kernel

/-- The value of a load is there, and the row of another. -/
def loaded (i : Instr) : Access := { sn := 0, ins := i, row := 77, st := .got 5 }

theorem witness_LoadsPerform_complete : (∀ i ∈ [.ldhs 3 4 false 0, Instr.lda 0 4 false .w8 .ctx], ((accessing (loaded i)).ctxAt 0).findAcc 0 =
      some (loaded i) ∧ (accDestX i).isSome) ∧ accDestX (.ldv 63 4 false 0) = none ∧ accDestV (.ldv 63 4 false 0) = some 63 ∧
    (63 : Reg).toNat ∉ (accessing (loaded (.ldv 63 4 false 0))).rowsOwed 0 := by decide +kernel

/-- A compare and swap at a word that holds 9, and an addition of floats. -/
def swapping : Access := { sn := 0, ins := .amod 3 4 5 .acqrel .cas, vb := 6, vd := 9, st := .ready { key := 8 } none }
def adding : Access := { sn := 0, ins := .amos 3 4 5 .relaxed .fadd, vb := 0x3F800000, st := .ready { key := 12 } none }

theorem witness_AtomicsPerform : ∀ a ∈ [swapping, adding], (((accessing a).putBytes 8 8 9).ctxAt 0).findAcc 0 = some a ∧
    mayPerform ((accessing a).putBytes 8 8 9) 0 a = true ∧ ((accessing a).putBytes 8 8 9).mem.wf = true := by decide +kernel

/-! Witnesses: commands. -/

/-- PCW says SPARSE 1 with N = 1 of 4, or SPARSE 2. -/
def nm : State := only (ctxOf [(0, 1), (0xB, 0x300450000)] [])
def budgeted : State := only (ctxOf [(0, 1), (0xB, 0x300080000)] [])

theorem witness_MatrixCommandsAccepted : (∀ i ∈ [.mlw 16 1 2 3 0, .mla 16 1 0 0 0, .mma 16 0 0 0 0, .mdr 16 15 0 0 0, .mza 63 1 0 0 0, .mrb 16 1 0 0 0,
      Instr.mstat 16 1 1 0 0], Ready i plain) ∧ Ready (.mman 16 1 0 0 0) nm ∧ Ready (.mmab 16 1 0 0 0) budgeted :=
  ⟨ready_of_all (by decide +kernel), ready_of_readyB (by decide +kernel), ready_of_readyB (by decide +kernel)⟩

/-- x17 and x18 are 1: a count and a length. -/
def counted : State := only (ctxOf [(0, 1)] [(17, 1), (18, 1)])
/-- A region of 64 bytes at offset 64. -/
def mapping : State := only (ctxOf [(0, 1)] [(16, 64), (18, 64)])
/-- A copy that marks, mode 3. -/
def marking : State := only (ctxOf [(0, 1)] [(18, 0x700001000), (22, 3)])

theorem witness_EngineCommandsAccepted : (∀ i ∈ [.crd 16 1 0 0 0, .csg 16 1 0 0 0 .sys, .spl 16 1 0 0 0, .sps 16 1 0 0 0, .spa 16 1 0 0 0,
      .spi 16 1 0 0 0, .spd 16 1 0 0 0, .lnch 16 1 0 0 0, .rgwb 16 1 0 0 0, .rginv 16 1 0 0 0, Instr.wlpop 16 1 0 0 0], Ready i plain) ∧
    (∀ i ∈ [.cpy 16 1 0 0 0, .cprWrite 16 1 0 0 0, Instr.cprRead 16 1 2 0 0], Ready i (only (ctxOf [(0, 1)] [(18, 1)]))) ∧
    (∀ i ∈ [.gth 16 1 0 0 0, .sct 16 1 0 0 0, Instr.sca 16 1 0 0 0], Ready i (only (ctxOf [(0, 1)] [(17, 1)]))) ∧
    Ready (.rgmap 16 1 0 0 0) mapping ∧ Ready (.cpy 16 1 0 0 0) marking :=
  ⟨ready_of_all (by decide +kernel), ready_of_all (by decide +kernel), ready_of_all (by decide +kernel), ready_of_readyB (by decide +kernel),
   ready_of_readyB (by decide +kernel)⟩

/-- Saves are on: the signed image has given a save table. -/
def saving : State := { plain with plat := { plain.plat with jsavet := 0x100001 } }
/-- A command of the context is parked under handle 0. -/
def parked : State :=
  { plain with cmds := [{ id := 1, ins := .cpy 16 1 0 0 0, agent := 0, st := .parked { va := 0, cause := 7, kind := 0, handle := 0 } }] }

/-- x4 asks for handle 0 to be aborted. -/
def aborting (s : State) : State := s.modCtx 0 fun c => c.setX 4 0x8000000000000000

theorem witness_RequestsAccepted : (∀ i ∈ [.sysGsw 4, .sysSrgrow 4, .sysCut 4, Instr.sysCeresume 4], Ready i plain) ∧ Ready (.sysCut 4) saving ∧
    (∀ s ∈ [parked, aborting parked], Ready (.sysCeresume 4) s) ∧ plain.savesOn = false ∧ saving.savesOn = true ∧ (saving.jobCtl 0).busy = false ∧
    saving.mem.wf = true ∧ parked.fab.flights = [] ∧ (∀ c ∈ parked.cmds, c.job = (own parked).job ∧ cRec c = 0) ∧
    ((own parked).getX 4).bits 0 63 = 0 ∧ ((own (aborting parked)).getX 4).bits 0 63 = 0 ∧ ((own parked).getX 4).getLsbD 63 = false ∧
    ((own (aborting parked)).getX 4).getLsbD 63 = true :=
  ⟨ready_of_all (by decide +kernel), ready_of_readyB (by decide +kernel),
   fun _ h => by simp only [List.mem_cons, List.not_mem_nil, or_false] at h; rcases h with rfl | rfl <;> exact ready_of_readyB (by decide +kernel),
   by decide +kernel⟩

/-- A write of another device is parked at die 1 under handle 0. -/
def parkedHere : State :=
  { plain with fab := { plain.fab with nextId := 2, flights := [{ id := 1, loc := .parked 1 0, pkt :=
      { dest := 0, src := 3, die := 1, cls := 0, op := 1, len := 4, va := 0x5000, data := [1, 2, 3, 4], tag := 9, gen := 2 } }] } }

theorem witness_RequestsAccepted_remote : (∀ s ∈ [parkedHere, aborting parkedHere], Ready (.sysCeresume 4) s) ∧ parkedHere.cmds = [] ∧
    ∀ g ∈ parkedHere.fab.flights, g.loc = .parked 1 0 ∧ g.pkt.jid = (own parkedHere).job ∧ g.id < parkedHere.fab.nextId :=
  ⟨fun _ h => by simp only [List.mem_cons, List.not_mem_nil, or_false] at h; rcases h with rfl | rfl <;> exact ready_of_readyB (by decide +kernel),
   by decide +kernel⟩

/-! Witnesses: registers, issue, traps. -/

/-- A vector result that lands with the next bundle, over half of its row. -/
def landing : Ctx := { pend := [{ due := 1, res := .v 63 5 1, flags := 3 }], poisonV := 0x8000000000000000 }

theorem witness_RegisterFiles : landing.pend = [{ due := 1, res := .v 63 5 1, flags := 3 }] ∧ landing.crPend = [] := by decide +kernel

theorem witness_ChecksInOrder : (∀ i ∈ [Instr.vcmp 0 .eq 1 2 0 .f32, .add 3 3 4 false false, .jr 3 4 false], (encode i).isSome = true) ∧
    (opened plain).iss.isOpen = true ∧ (staticFault true false none [some (.vcmp 0 .eq 1 2 0 .f32)]).isSome = true ∧
    (staticFault true false none [some (.add 3 3 4 false false)]).isNone = true ∧ stalls loading 0 [.add 5 3 4 false false] 0 = true ∧
    stalls badTarget 0 [.jr 5 3 false] 0 = false ∧ (lateFault badTarget 0 0x1000 1 0 [.jr 5 3 false]).isSome = true := by decide +kernel

theorem witness_PrivilegedSlots : (only (ctxOf [] [])).iss.isOpen = false ∧ isSeq (only (ctxOf [] [])).cur = false ∧
    (own (only (ctxOf [] []))).kernel = false := by decide +kernel

/-- A trap may be entered, with a frame held and with none. -/
theorem witness_TrapEntry : ∀ l ∈ [0, 1], ∀ s ∈ [framed (only { ctxOf [(0, 1)] [] with frames := l })], (s.ctxAt 0).frames < 2 ∧
    (s.ctxAt 0).window.isOpen = false ∧ s.framesOn 0 = true ∧ installed (s.frameBase 0 l) 0x20000 = true := by decide +kernel

/-- A scalar result is on its way. -/
def latched : Ctx := { ctxOf [(0, 1)] [] with pend := [{ due := 2, res := .x 3 9 }] }

theorem witness_TrapFrame : ((framed (only latched)).ctxAt 0).acc = [] ∧ (framed (only latched)).mem.wf = true ∧
    installed ((framed (only latched)).frameBase 0 0) 0x20000 = true ∧
    ((framed (only latched)).ctxAt 0).pend = [((3 : Reg), (9 : Word), 2)].map fun q => { due := q.2.2, res := .x q.1 q.2.1 } := by decide +kernel

theorem witness_DoubleFault : plain.framesOn 0 = false ∧ 2 ≤ ((only { ctxOf [(0, 1)] [] with frames := 2 }).ctxAt 0).frames ∧
    ((only { ctxOf [(0, 1)] [] with window := { isOpen := true } }).ctxAt 0).window.isOpen = true := by decide +kernel

/-- A handler, its entry window closed, and one with a load outstanding. -/
def handling : State := framed (only { ctxOf [(0, 1)] [] with frames := 1 })
def handlingLoad : State := framed (only { ctxOf [(0, 1)] [] with frames := 1, acc := [{ sn := 0, ins := .ldd 3 4 false 0 }], fullX := ~~~8#64 })

theorem witness_ReturnFromTrap : Ready .sysRft handling ∧ staticFault (own handlingLoad).kernel (isSeq handlingLoad.cur) none [some .sysRft] = none ∧
    handlingLoad.iss.isOpen = false ∧ (own handlingLoad).frames ≠ 0 ∧ (own handlingLoad).acc ≠ [] ∧ (own handling).acc = [] ∧
    (own handling).fullX = BitVec.allOnes 64 ∧ (own handling).held = [] ∧ (own handling).crPend = [] ∧
    installed (handling.frameBase 0 0) 0x20000 = true ∧ ∀ j ∈ [49, 50, 51, 52], memReadN handling.mem (handling.frameBase 0 0 + j) 1 = 0 :=
  ⟨ready_of_readyB (by decide +kernel), by decide +kernel⟩

/-! Witnesses: encodings and steps. -/

theorem witness_DecodeEncode : encodeS true (.add 3 4 5 false true) = some 0x820C4150#32 ∧ decode 0x820C4150#32 = .ok (.add 3 4 5 false true) := by
  decide +kernel

/-- The schedule lets context 0 issue, which its core has selected, with its page mapped and words of memory at its program counter. -/
def scheduled (l : List SlotWord) : State :=
  { (coded (plain.modCore 0 fun k => { k with sel := some 0 }) l 0) with sched := [{ dt := 1, pick := .issue (.ctx 0) }] }

/-- The state of `scheduled` once a cycle has passed. -/
def passed (l : List SlotWord) : State := { scheduled l with sched := [] }.pass 1

theorem witness_StepRunsDecoded_event : encode .beaconSend = none := by decide +kernel

theorem witness_StepRunsDecoded_one : (passed [0x820C4150]).ctxAt 0 = own plain ∧ boundary (passed [0x820C4150]) 0 = none ∧
    (passed [0x820C4150]).mayIssue 0 = true ∧ checkLeaf (passed [0x820C4150]) 0x3F 4096 0x1000 4 { kernel := true, fetch := true } = .ok { key := 0 } ∧
    memReadN (passed [0x820C4150]).mem 0 4 = 0x820C4150 ∧ stopBit 0x820C4150#32 = true ∧ (passed [0x820C4150]).pw = [] ∧
    ((passed [0x820C4150]).unitAt 0).find 0 0x1000 = some { job := 0, page := 0x1000, size := 4096, leaf := 0x3F, pin := false } := by decide +kernel

/-- ADD x3, x4, x5 and ADDI x6, x7, 1 in one bundle. -/
def pair : State := { passed [0x020C4150, 0x84187001] with cur := 0 }

theorem witness_StepRunsDecoded_many : fetchBundle pair 0 = (pair, .ok [0x020C4150, 0x84187001]) ∧
    slotsOf [0x020C4150, 0x84187001] = [some (.add 3 4 5 false true), some (.addi 6 7 false 1)] ∧ findRep 0 [0x020C4150, 0x84187001] = none ∧
    staticFault true false none [some (.add 3 4 5 false true), some (.addi 6 7 false 1)] = none ∧
    judge pair 0 0x1000 2 0 [.add 3 4 5 false true, .addi 6 7 false 1] 0 = (pair, .go) := by decide +kernel

/-! Witnesses: events of a context. -/

/-- REP 1 of ADDI x6, x7, 1, its first issue done. -/
def repeating : State :=
  (coded (only { ctxOf [(0, 1), (0x13, 1)] [] with repOn := true }) [0x01040000, 0x84187001] 0).modCore 0 fun k => { k with sel := some 0 }

theorem witness_ContextEvents_repRepeat : boundary repeating 0 = none ∧ repeating.mayIssue 0 = true ∧ (own repeating).repc = 1 ∧
    fetchBundle (repeating.select 0) 0 = (repeating.select 0, .ok [0x01040000, 0x84187001]) ∧
    findRep 0 [0x01040000, 0x84187001] = some (0, 1, 0, 0, 0, 0x84187001) ∧ decode (stepWord 0x84187001 1 0 0 0) = .ok (.addi 6 7 false 1) ∧
    judge (repeating.select 0) 0 0x1000 1 0 [.addi 6 7 false 1] 1 = (repeating.select 0, .go) := by decide +kernel

/-- Context 0 has had its bundles, and context 1 is Ready. -/
def rotating : State :=
  (plain.setCtx 1 { ctxOf [] [] with st := .ready }).modCore 0 fun k => { k with sel := some 0, count := 1024 }

theorem witness_ContextEvents_hogRotation : (rotating.coreAt 0).sel = some 0 ∧ (rotating.ctxAt 0).st = .selected ∧
    (rotating.coreAt 0).count = 1024 ∧ (rotating.ctxAt 0).hog = false ∧ (rotating.ctxAt (4 * 0 + 1)).st = .ready := by decide +kernel

/-- A division of the most negative number by -1, and one by 0; cycle 6. -/
def dividing (i : Instr) (b : Word) : Access := { sn := 0, ins := i, va := 0x8000000000000000, vb := b, since := 0 }

theorem witness_ContextEvents_divideComplete : ∀ i ∈ [.div 3 4 5 false false, .divn 3 4 5 false false, .rem 3 4 5 false false,
    Instr.remn 0 4 5 false false], ((accessing (dividing i 0)).ctxAt 0).findAcc 0 = some (dividing i 0) ∧ (dividing i 0).since + 6 ≤ 6 := by
  decide +kernel

/-- A VEXT whose row is there. -/
def extracting : Access := { sn := 0, ins := .vext 3 7 4 .f32, st := .got 9, bad := true }

theorem witness_ContextEvents_vextDeferredFill : ((accessing extracting).ctxAt 0).findAcc 0 = some extracting ∧ extracting.due = 0 := by decide +kernel

/-- A stalled context whose bundle is w. -/
def stalled (c : Ctx) (w : SlotWord) : State := coded (only { c with st := .stalled }) [w] 0

theorem witness_ContextEvents_stallClear : peekSlots (stalled (own plain) 0x820C4150) 0 = (stalled (own plain) 0x820C4150, some ([.add 3 4 5 false true], 0)) ∧
    stalls (stalled (own plain) 0x820C4150) 0 [.add 3 4 5 false true] 0 = false ∧
    waitsOnWord (stalled (own plain) 0x820C4150) 0 [.add 3 4 5 false true] = false := by decide +kernel

/-- WAITC on the word that x3 names, for the value of x4, with the condition of code k. -/
def waitWord (k : WCond) : SlotWord := (encodeS true (.waitc 3 4 false false .dev k)).getD 0

theorem witness_ContextEvents_waitcRecheck : ∀ k ∈ [(WCond.ne, WaitRes.yes), (.ge, .no)], ∀ s ∈ [stalled (own waiting) (waitWord k.1)],
    peekSlots s 0 = (s, some ([.waitc 3 4 false false .dev k.1], 0)) ∧ stalls s 0 [.waitc 3 4 false false .dev k.1] 0 = false ∧
    step6 (s.ctxAt 0) (.waitc 3 4 false false .dev k.1) = none ∧ waitRead s 0 ((s.ctxAt 0).getX 3) ((s.ctxAt 0).getX 4) k.1 = (s, k.2) := by
  decide +kernel

/-- A load has met a page fault. -/
def faulting : State :=
  framed (only { ctxOf [(0, 1)] [] with acc := [{ sn := 0, ins := .ldd 3 4 false 0, st := .faulted .pageFault 0x2000 false }], fullX := ~~~8#64 })

theorem witness_ContextEvents_memoryFaultReport : faulting.freezeDue 0 = false ∧ (own faulting).stopPoint = false ∧ (own faulting).frames < 2 ∧
    (own faulting).window.isOpen = false ∧ faulting.framesOn 0 = true ∧ installed (faulting.frameBase 0 0) 0x20000 = true := by decide +kernel

/-! Witnesses: events of tasks. -/

/-- A task of share 1 on context n, of the group that begins with index 0. -/
def member (id n : Nat) : Task := { id := id, share := 1, job := 0, index := n, phase := 0, gsize := 2, coop := true, ctx := n, st := .bound }

/-- A group of two: context 0 waits at barrier 7, context 1 drains a TEND. -/
def barred : State :=
  { (only { ctxOf [(0, 1)] [] with st := .stalled, grp := some 1, task := some 5, arrived := true }).setCtx 1
      { ctxOf [] [] with st := .stalled, grp := some 1, task := some 6, drain := .tend } with
    tasks := [member 5 0, member 6 1], bars := [{ grp := 1, id := 7, arrived := [0] }]
    pw := [{ key := 0, en := 1, val := 3, owner := 0, grp := 10 }] }

theorem witness_TaskEvents_barrierRelease : barred.bars.find? (fun q => q.grp = 1 && q.id = 7) = some { grp := 1, id := 7, arrived := [0] } ∧
    barred.tasks.find? (fun q => q.group = some 1) = some (member 5 0) ∧ (barred.tasks.map (·.id)).Nodup ∧
    (∀ k < 2, ∃ q ∈ barred.tasks, q.share = 1 ∧ q.index = (member 5 0).first + k ∧ q.st = .bound ∧
      (q.ctx ∈ [0] ∨ (barred.ctxAt q.ctx).drain = .tend)) ∧
    ∀ a ∈ (barred.ctxAt 0).acc, a.performed = true := by decide +kernel

/-- A declared tile of task 5 in slice 0, of direction dir. -/
def tile (dir : Nat) : Tile := { desc := 0, core := 0, off := 64, size := 64, back := 0x3000, dir := dir, fill := 0, st := .bound }

/-- Context 0 has drained its TEND; its task has one tile. -/
def tended (dir : Nat) : State :=
  { only { ctxOf [(0, 1)] [] with st := .stalled, drain := .tend, task := some 5, pend := [{ due := 2, res := .x 3 9 }] } with
    tasks := [{ member 5 0 with coop := false, gsize := 1, tiles := [tile dir] }]
    cores := [(0, { regions := [{ base := 64, size := 64, back := 0x3000, wb := dir != 0, owner := 5, tile := some 0, dirty := 1 }] })] }

theorem witness_TaskEvents_tendDrainEnd : ∀ dir ∈ [0, 1], ((tended dir).ctxAt 0).st = .stalled ∧ ((tended dir).ctxAt 0).fullX = BitVec.allOnes 64 ∧
    ((tended dir).ctxAt 0).fullV = BitVec.allOnes 64 ∧ (tended dir).cmds = [] ∧ (∀ k : Fin 16, (((tended dir).ctxAt 0).k[k]).status = 0) ∧
    ((tended dir).findTask 5).map (·.guard) = some none := by decide +kernel

/-- Its writebacks are over. -/
def committing : State := (tended 0).modCtx 0 fun c => { c with satisfied := true, pend := [] }

theorem witness_TaskEvents_taskCommit : (committing.ctxAt 0).satisfied = true ∧ (committing.ctxAt 0).drain = .tend ∧ committing.jobs = [] ∧
    (committing.findTask 5).isSome = true ∧ committing.cmds = [] := by decide +kernel

/-- A drained HALT. -/
def haltedNext : State := only { ctxOf [(0, 1)] [] with st := .selected, drain := .halt }

theorem witness_TaskEvents_haltDrainEnd : (haltedNext.ctxAt 0).st = .selected ∧ (haltedNext.ctxAt 0).drain = .halt ∧ (haltedNext.ctxAt 0).acc = [] ∧
    haltedNext.cmds = [] ∧ haltedNext.jobs = [] := by decide +kernel

/-- A launch of four indices of one phase, with no tiles. -/
def hdr : LaunchHdr :=
  { param := 3, plen := 4, dim0 := 4, dim1 := 1, dim2 := 1, nphase := 1, coop := false, prio := 3, verify := false, dsplit := false, racc := false
    detach := false, gsize := 1, seed := 11, tiles := [], parts := [{ first := 0, dev := 0, die := 0 }], entries := [0x1000], steps := [] }

def key0 : LaunchKey := { job := 0, dev := 0, die := 0, id := 9 }

/-- Its share of die 0. -/
def share : Share := { id := 1, die := 0, key := key0, job := 0, hdr := hdr, first := 0, count := 4, st := .running }

/-- Task 5 of the share is Resident for context 3; the arrays of its cluster are on or off. -/
def bindable (on : Bool) : State :=
  { plain with tasks := [{ id := 5, share := 1, job := 0, index := 2, phase := 0, ctx := 3, st := .resident, tiles := [{ tile 0 with st := .resident }] }]
               shares := [share], clusters := [(0, { arraysOn := on })] }

theorem witness_TaskEvents_taskBind : ∀ on ∈ [true, false], ((bindable on).findTask 5).isSome = true ∧ (bindable on).findShare 1 = some share ∧
    ((bindable on).ctxAt 3).st = .free ∧ (bindable on).jobs = [] ∧ ((bindable on).clusterAt (3 / 16)).arraysOn = on ∧
    ((bindable on).clusterAt (3 / 16)).asked = none := by decide +kernel

/-! Witnesses: placement. -/

/-- The share waits alone on die 0; the regions allow tasks. -/
def placing : State := { plain with shares := [share], nextId := 40, therm := Vector.replicate 6 (0xFF000000 : Word) }

theorem witness_PlacementEvents_taskPlacement : placing.frontEnd = placing ∧ share.hdr.tilesOf share.phase = [] ∧ (placing.choose share 0).isSome = true := by
  decide +kernel

/-- The fill of tile 0 of task 5 is over, with the status st. -/
def filled (st : BitVec 8) : State :=
  { plain with cmds := [{ id := 1, kind := .fill 5 0, ins := .nop, agent := 3, st := .done, status := st }], shares := [share]
               tasks := [{ id := 5, share := 1, job := 0, index := 2, phase := 0, ctx := 3, st := .filling
                           tiles := [{ tile 0 with st := .filling, cmd := some 1 }] }] }

theorem witness_PlacementEvents_tileFillComplete : ∀ st ∈ [0, 0x41, 0x44], ((filled st).cmds.find? (fun c => c.kind = .fill 5 0)).isSome = true ∧
    ((filled st).findTask 5).map (·.reserves) = some true ∧ (filled st).findCmd 1 = (filled st).cmds.head? ∧ (filled st).rw = [] ∧ (filled st).pw = [] := by
  decide +kernel

theorem witness_PlacementEvents_taskAging : (placing.findShare 1) = some share ∧ share.st = .running ∧ 0 ∉ share.aged ∧
    share.since + 2 ^ 20 ≤ { placing with now := 2 ^ 20 }.now := by decide +kernel

/-- A share of groups of two. -/
def grouped : Share := { share with hdr := { hdr with coop := true, gsize := 2 } }

theorem witness_PlacementEvents_groupReservation : { placing with shares := [grouped], now := 8192 }.findShare 1 = some grouped ∧ grouped.waitSince 0 = 0 ∧ 0 % max 1 grouped.hdr.gsize = 0 ∧
    { placing with shares := [grouped], now := 8192 }.clusters = [] := by decide +kernel

/-! Witnesses: the matrix engine. -/

/-- A context whose token 1 is busy under one command. -/
def busyK : Ctx := { ctxOf [(0, 1)] [] with k := (Vector.replicate 16 {}).set 1 { busy := true, left := 1 } }

/-- The machine with the one command. -/
def commanded (c : Cmd) : State := { only busyK with cmds := [c] }

/-- A multiply of one row that accepts no slab, one that has inherited an error, and a MZA of rows 9 and 10, in the state st. -/
def mulCmd (kst : BitVec 24) : Cmd := { id := 1, ins := .mma 16 1 0 0 0, agent := 0, par := [0, 0, 0], kd := 1, kst := kst }
def mzaCmd (st : CmdSt) : Cmd := { id := 1, ins := .mza 16 1 0 0 0, agent := 0, par := [0x109], kd := 1, st := st }

/-- The arrays of cluster 0 are on or off. -/
def arrays (on : Bool) (s : State) : State := { s with clusters := [(0, { arraysOn := on })] }

theorem witness_MatrixEvents_start : (∀ c ∈ [mulCmd 0x41, mulCmd 0, mzaCmd .queued], (commanded c).findCmd 1 = some c ∧ (commanded c).jobs = [] ∧
      matrixReady (commanded c) c = true) ∧ (mulCmd 0x41).inherited ≠ 0 ∧ (mulCmd 0).inherited = 0 ∧ (mzaCmd .queued).inherited = 0 ∧
    isMul (mulCmd 0).ins = true ∧ isMul (mzaCmd .queued).ins = false ∧
    ∀ on ∈ [true, false], arrayFree (arrays on (commanded (mulCmd 0))) 0 = true ∧ arrayNext (arrays on (commanded (mulCmd 0))) 0 = some (mulCmd 0) ∧
      ((arrays on (commanded (mulCmd 0))).clusterAt 0).arraysOn = on ∧ ((arrays on (commanded (mulCmd 0))).clusterAt 0).asked = none := by decide +kernel

theorem witness_MatrixEvents_complete : (commanded (mzaCmd .running)).findCmd 1 = some (mzaCmd .running) ∧ isMatrix (mzaCmd .running).ins = true ∧
    mzaD0 (mzaCmd .running) + mzaM (mzaCmd .running) ≤ 64 ∧ (mzaCmd .running).done = 0 := by decide +kernel

/-- Clusters 3 and 70 have asked, 3 first. -/
def asking : State := { plain with clusters := [(3, { asked := some 4 }), (70, { asked := some 5 })], now := 200, lastGrant := some 85 }

theorem witness_MatrixEvents_grant : (asking.clusterAt 3).asked = some 4 ∧ (∀ k : Fin 72, k.val ≠ 3 → (asking.clusterAt k.val).asked.all (4 < ·)) ∧
    85 + 115 ≤ asking.now := by decide +kernel

theorem witness_MatrixEvents_disable : ({ arrays true plain with now := 65536 }.clusterAt 0).arraysOn = true ∧ (arrays true plain).cmds = [] := by
  decide +kernel

/-! Witnesses: the engines. -/

/-- A copy of 8 bytes from scratch to scratch, in the state st, with or without a step to wait for. -/
def copyCmd (st : CmdSt) (nb : Bool) (kst : BitVec 24) : Cmd :=
  { id := 1, ins := .cpy 16 1 0 0 0, agent := 0, kd := 1, kst := kst, st := st
    par := [0xFE00000000000000, 0xFE00000000000100, 8, 0, 0, 0, if nb then 0x10000 else 0, if nb then 1 else 0, 0] }

/-- A RGMAP of 64 bytes at offset 64 of slice 0. -/
def mapCmd : Cmd := { id := 1, ins := .rgmap 16 1 0 0 0, agent := 0, kd := 1, par := [64, 0x3000, 64] }

/-- Step 1 has come. -/
def later (s : State) : State := { s with cyc := 512 }

theorem witness_EngineEvents_start : (∀ c ∈ [copyCmd .queued false 0x41, copyCmd .queued true 0, copyCmd .queued false 0, mapCmd],
      (commanded c).findCmd 1 = some c ∧ c.kind = .slot ∧ isMatrix c.ins = false ∧ releaseReady (commanded c) c = true ∧ c.st = .queued ∧
      c.tokensFree = true ∧ fenceBlocks (commanded c) c = false ∧ sparseWaits (commanded c) c = false) ∧ (copyCmd .queued false 0x41).inherited ≠ 0 ∧ mapCmd.inherited = 0 ∧
    nbReady (commanded (copyCmd .queued true 0)) (copyCmd .queued true 0) = false ∧
    nbReady (commanded (copyCmd .queued false 0)) (copyCmd .queued false 0) = true ∧
    (mapCmd.parAt 0).bits 0 31 = 64 ∧ (mapCmd.parAt 2).bits 0 22 = 64 ∧ ((commanded mapCmd).coreAt 0).regions = [] := by decide +kernel

theorem witness_EngineEvents_held : (later (commanded (copyCmd .held true 0))).findCmd 1 = some (copyCmd .held true 0) ∧
    releaseReady (later (commanded (copyCmd .held true 0))) (copyCmd .held true 0) = true ∧ isCopy (copyCmd .held true 0).ins = true ∧
    nbReady (later (commanded (copyCmd .held true 0))) (copyCmd .held true 0) = true := by decide +kernel

theorem witness_EngineEvents_complete : (commanded (copyCmd .done false 0)).findCmd 1 = some (copyCmd .done false 0) ∧
    (commanded (copyCmd .done false 0)).rw = [] ∧ (commanded (copyCmd .done false 0)).fab.reqs = [] := by decide +kernel

theorem witness_EngineEvents_park : (commanded (copyCmd (.faulting 0x5000 7 1) false 0)).findCmd 1 = some (copyCmd (.faulting 0x5000 7 1) false 0) ∧
    7 < 2 ^ 16 ∧ (copyCmd (.faulting 0x5000 7 1) false 0).handle.getD plain.handle = 0 := by decide +kernel

/-- The ring of die 0 has 16 entries at 0x40, and one record waits. -/
def ringing : State := plain.modDie 0 fun d => { d with efring := 0x41, records := [{ handle := 5, va := 0x5000, lo := 7, hi := 0 }] }

theorem witness_EngineEvents_ring : ringing.mem.wf = true ∧ (ringing.die 0).efring.getLsbD 0 = true ∧ (ringing.die 0).efring.bits 6 42 * 64 = 0x40 ∧
    2 ^ ((ringing.die 0).efring.bits 60 4 + 4) = 16 ∧ memWord ringing.mem 0x40 = 0 ∧ (0 - memWord ringing.mem 0x48).toNat < 16 := by decide +kernel

/-! Witnesses: memory. -/

/-- Unit 0 walks page 2 of job 0 at a root where there are no tables; a load waits on it. -/
def walking (table : Bool) : State :=
  { accessing { sn := 0, ins := .ldd 3 4 false 0, ea := if table then 0x5000 else 0x2000, st := .walking (if table then 5 else 2) } with
    units := [(0, { walks := [{ job := 0, root := 0x10000, page := 2 }] })] }

/-- Tables that map page 2: each level in a page of its own, the leaf in the last. -/
def tables : Mem :=
  [0x11001, 0x12001, 0x13001, 0x14001, 0x15001].zipIdx.foldl (fun m (p : Nat × Nat) => memWriteN m (0x10000 + 0x1000 * p.2) 8 p.1)
    (memWriteN [] 0x15010 8 0x303F)

theorem witness_MemoryEvents_walk_fault : ((walking false).unitAt 0).walks[0]? = some { job := 0, root := 0x10000, page := 2 } ∧
    (walking false).walk (wordOfNat 0x10000) (2 * 4096) = .error .pageFault := by decide +kernel

/-- A load of page 2 waits, and one of page 5, which is another walk's. -/
theorem witness_MemoryEvents_walk : { walking false with mem := tables }.walk (wordOfNat 0x10000) (2 * 4096) = .ok (0x303F, 4096) ∧
    ((walking true).unitAt 0).held = [] ∧ ((walking true).ctxAt 0).acc.all (fun a => a.st ≠ .walking 2) = true ∧
    ((walking false).ctxAt 0).acc.all (fun a => a.st = .walking 2) = true ∧ ((walking false).ctxs.map (·.1)).Nodup ∧
    (((walking false).ctxAt 0).acc.map (·.sn)).Nodup ∧ ((walking false).unitAt 0).find 0 0x2000 = none ∧
    coreTarget 0x2000 = .virt 0x2000 := by decide +kernel

/-- A write of two bytes to a replicated page, which die 0's replica has or has not. -/
def replicating (d0 : Bool) : State := { plain with rw := [{ page := 3, key := 0x3000, en := 3, val := 0x1234, owner := 0, die0 := d0 }] }

theorem witness_MemoryEvents_replica : ∀ d0 ∈ [true, false], ((replicating d0).rw[1 / 2]?).isSome = true ∧ (replicating d0).mem.wf = true := by
  decide +kernel

/-- A list of four entries at the start of slice 0, of which n are used, with a backing of four at 0x6000 when b says so; a push waits. -/
def pushing (n : Nat) (b : Bool) : State :=
  let s := accessing { sn := 0, ins := .wlpsh 3 4 5 false false, ea := 0xFE00000000000000, vb := 0x77, st := .ready { key := scrBase } none }
  let s := (s.putBytes scrBase 8 4).putBytes (scrBase + 16) 8 n
  if b then (s.putBytes (scrBase + 24) 8 0x6000).putBytes (scrBase + 32) 8 4 else s

/-- It has room, the ring is full and there is no backing, the ring is full. -/
theorem witness_MemoryEvents_push : (∀ q ∈ [(0, false), (4, false), (4, true)], (pushing q.1 q.2).mem.wf = true ∧
      waitingOps (pushing q.1 q.2) 0 = [{ time := 0, agent := 0, sn := 0, pop := none }] ∧ memWord (pushing q.1 q.2).mem scrBase = 4 ∧
      (memWord (pushing q.1 q.2).mem (scrBase + 16) - memWord (pushing q.1 q.2).mem (scrBase + 8)).toNat = q.1 ∧
      (memWord (pushing q.1 q.2).mem (scrBase + 32)).toNat = (if q.2 then 4 else 0) ∧
      (memWord (pushing q.1 q.2).mem (scrBase + 56)).toNat = 0 ∧ (memWord (pushing q.1 q.2).mem (scrBase + 48)).toNat = 0) ∧
    coreTarget 0xFE00000000000000 = .scratch 0 ∧ scrKey 0 = scrBase ∧ 4 = 2 ^ 2 ∧ 0 + 4 / 4 ≤ 4 := by decide +kernel

/-- Its spill; the engine's unit holds the page of the backing. -/
def spillCmd : Cmd := { id := 1, kind := .spill 0 0, ins := .wlpsh 3 4 5 false false, agent := 0, par := [0xFE00000000000000, 0x77], st := .running }
def spilling : State :=
  { pushing 4 true with cmds := [spillCmd], units := [(0, { held := [{ job := 0, page := 0x6000, size := 4096, leaf := 0x603F, pin := false }] })] }

theorem witness_MemoryEvents_spill : Plain spilling ∧ spilling.mem.wf = true ∧ spillCmd.unit = 0 ∧
    ((spilling.ctxAt 0).acc.all fun a => a.ins = spillCmd.ins && spillCmd.par = [a.ea, a.vb]) = true ∧
    (spilling.unitAt 0).held.head? = some { job := 0, page := 0x6000, size := 4096, leaf := 0x603F, pin := false } ∧
    ∀ j < 4, isLoop (0x6000 + 8 * j) = false ∧ checkLeaf spilling 0x603F 4096 (0x6000 + 8 * j) 8
      { kernel := spillCmd.kernel, isWrite := true, host := true } = .ok { key := 0x6000 + 8 * j, ord := .rc, page := 0x6000 } :=
  ⟨⟨rfl, rfl, rfl, rfl, rfl⟩, by decide +kernel⟩

/-- A set of rank 1 with the key 5, at virtual address 0x1000, and a command that looks key 5 up. -/
def setMem : Mem :=
  [(0x00, 1), (0x04, 8), (0x0C, 1), (0x18, 1), (0x1C, 1), (0x20, 1), (0x101, 0x12), (0x108, 1), (0x200, 1), (0x201, 1), (0x240, 5),
   (scrBase, 5)].foldl (fun m (p : Nat × Nat) => memWriteN m p.1 1 p.2) (memWriteN [] 0x10 4 0xFFFFFFFF)
def setCmd : Cmd :=
  { id := 1, ins := .spl 16 1 0 0 0, agent := 0, kd := 1, kernel := true, par := [0x1000, 0, 0, 0x100], st := .running, aux := 1 }
def setState : State :=
  { commanded setCmd with mem := setMem, units := [(setCmd.unit, { held := [{ job := 0, page := 0x1000, size := 4096, leaf := 0x13F, pin := false }] })] }

theorem witness_MemoryEvents_sparse : setState.findCmd 1 = some setCmd ∧ setState.jobs = [] ∧
    ((readSpHdr setCmd (setCmd.parAt 0) setState).toOption.bind fun r => (spCoordsAt setCmd setCmd.done setState).toOption.bind fun e =>
      (spKey r.2.widths e.2).bind fun k => (findPath setCmd r.2 k setState).toOption.bind fun q =>
        (spWrite setCmd (scrAddr (spRes setCmd + setCmd.done)) 1 (if (pathPayload q.2.1 k).isSome then 0 else 1) setState).toOption.map fun t =>
          ([r.1, e.1, q.1].map fun z => decide (z = setState), r.2.psize, k, decide (t.findCmd 1 = some setCmd))) =
    some ([true, true, true], 0, 5, true) := by decide +kernel

/-! Witnesses: launches. -/

/-- A packet has come in by port 0. -/
def arriving (p : Packet) (s : State) : State := { s with fab := { s.fab with flights := [{ id := 1, loc := .ingress 0, pkt := p }], nextId := 2 } }

/-- A message for a control unit. -/
def message (op : Nat) (c : Ctl) : Packet := { dest := 0, src := 0, die := 0, cls := 3, op := op, ctl := c }

theorem arrived_of {p : Packet} {s : State} (hd : p.dest = s.ownDev) (hc : p.crcBad = false) (hf : opFits p.op p.cls = true) :
    Arrived (arriving p s) 1 { id := 1, loc := .ingress 0, pkt := p } :=
  ⟨rfl, ⟨0, .inr rfl⟩, hd, hc, hf, by simp [State.isHead, arriving], rfl, by simp [arriving]⟩

theorem told_of {c : Ctl} {s : State} (h : s.ownDev = 0) : Told (arriving (message 0x22 c) s) 1 c :=
  ⟨_, arrived_of (by simp [message, h]) rfl (by simp [message, opFits]), rfl, rfl⟩

/-- Job 0 is resident, and its job context, where there is one, allows launches. -/
def launchable (b : Bool) : State :=
  { plain with mem := memWriteN (memWriteN [] 0 8 1) 0x1010 1 (if b then 1 else 0), plat := { plain.plat with jctxt := 0x1001 } }

/-- The launch of two parts, of one; verified or detached; of two phases. -/
def hdr2 : LaunchHdr := { hdr with parts := [{ first := 0, dev := 0, die := 0 }, { first := 2, dev := 0, die := 1 }], nphase := 2 }

theorem witness_LaunchEvents_distribution : (∀ b ∈ [true, false], ∀ h ∈ [hdr, { hdr with verify := true }],
      (arriving (message 0x22 (.launch key0 0 0 h)) (launchable b)).jobLaunchable 0 = b ∧
      ((arriving (message 0x22 (.launch key0 0 0 h)) (launchable b)).freeTag key0).isSome = true) ∧
    ∀ b h, Stands (arriving (message 0x22 (.launch key0 0 0 h)) (launchable b)) 1 { id := 1, loc := .ingress 0, pkt := message 0x22 (.launch key0 0 0 h) } :=
  ⟨by decide +kernel, fun _ _ => ⟨arrived_of rfl rfl rfl, rfl⟩⟩

/-- The command of the launch, and the launch at its origin. -/
def lnchCmd : Cmd := { id := 1, ins := .lnch 16 1 0 0 0, agent := 0, kd := 1, st := .running }
def origin (h : LaunchHdr) (st : LaunchSt) : State := { commanded lnchCmd with launches := [{ id := 9, die := 0, job := 0, cmd := 1, pkt := 0, hdr := h, st := st }] }

theorem witness_LaunchEvents_origin : (∀ h ∈ [hdr, hdr2, { hdr with detach := true }], ∀ st ∈ [LaunchSt.distributing, .running],
      ((origin h st).findLaunch 9).isSome = true ∧ (origin h st).launchOf key0 = (origin h st).findLaunch 9 ∧
      (origin h st).findCmd 1 = some lnchCmd ∧ (origin h st).rw = [] ∧ (origin h st).pw = [] ∧
      { origin h st with now := 2 ^ 22 }.timeout ≤ 2 ^ 22) ∧
    (∃ p ∈ hdr2.parts, (p.dev, p.die) ≠ (0, 0)) ∧ (∀ p ∈ hdr.parts, (p.dev, p.die) = (0, 0)) ∧ 0 + 1 < hdr2.nphase ∧ hdr.nphase ≤ 0 + 1 ∧
    ∀ c h st, Stands (arriving (message 0x22 c) (origin h st)) 1 { id := 1, loc := .ingress 0, pkt := message 0x22 c } :=
  ⟨by decide +kernel, by decide, by decide, by decide, by decide, fun _ _ _ => ⟨arrived_of rfl rfl rfl, rfl⟩⟩

/-- A share whose phase is due, at no step, at step 1, or late. -/
def dueShare (l : List Word) : State := { plain with shares := [{ share with st := .due, hdr := { hdr with steps := l } }], cyc := 512 * 3 }

theorem witness_LaunchEvents_phases : (({ hdr with steps := [1] }.steps[0]?.getD 0).toNat + 2 = (dueShare [1]).step64.toNat) ∧
    (({ hdr with steps := [3] }.steps[0]?.getD 0).toNat + 0 = (dueShare [3]).step64.toNat) ∧ 0 < share.count ∧
    Stands (arriving (message 0x22 (.start key0 0 0 0)) { plain with shares := [{ share with st := .idle }] }) 1
      { id := 1, loc := .ingress 0, pkt := message 0x22 (.start key0 0 0 0) } :=
  ⟨by decide +kernel, by decide +kernel, by decide, arrived_of rfl rfl rfl, rfl⟩

/-! Witnesses: requests at their target. -/

/-- Job 0 is resident, its tables at 0x10000; unit u holds its page 0x5000 with leaf. -/
def hosting (u : Nat) (leaf : Word) : State :=
  { plain with mem := memWriteN [] 0 8 0x10001, units := [(u, { held := [{ job := 0, page := 0x5000, size := 4096, leaf := leaf, pin := false }] })] }

/-- A request of four bytes, or a counter add, number 1 of its source. -/
def request (op cls arg : Nat) (data : List Byte) : Packet :=
  { dest := 0, src := 0, die := 0, cls := cls, op := op, len := if op = 4 then 8 else 4, arg := arg, va := 0x5000, seq := 1, floor := 1, val := 7, data := data }

def writeReq : Packet := request 1 0 0 [1, 2, 3, 4]

/-- As `Fresh`, as a check. -/
def freshB (s : State) (p : Packet) (leaf : Word) (pc : Piece) : Bool :=
  decide (s.translate 74 p.jid (s.jobRoot p.jid) p.va.toNat (if p.op = 4 then 8 else p.len) (askOf p) = (s, .ok (leaf, pc))) && !s.mustWait p &&
    !seqBefore p.seq (homeOf s p leaf).f && !(homeOf s p leaf).applied p.seq && !(homeOf s p leaf).tooOld p.seq &&
    seqBefore (homeOf s p leaf).h p.seq

theorem fresh_of {s : State} {p : Packet} {leaf : Word} {pc : Piece} (h : freshB s p leaf pc = true) : Fresh s p 0 leaf pc := by
  simp only [freshB, Bool.and_eq_true, Bool.not_eq_true', decide_eq_true_eq] at h
  exact ⟨h.1.1.1.1.1, h.1.1.1.1.2, h.1.1.1.2, h.1.1.2, h.1.2, .inl h.2⟩

theorem witness_RequestsPerform_new : (∀ p ∈ [writeReq, request 3 0 0 [0, 0, 0, 1], request 4 0 0 [], request 1 2 0 [1, 2, 3, 4]],
      freshB (arriving p (hosting 74 0x503F)) p 0x503F { key := 0x5000, page := 0x5000 } = true) ∧
    (∀ p ∈ [writeReq, request 3 2 0 [0, 0, 0, 1], request 4 0 0 [], request 2 0 0 []], (arriving p (hosting 74 0x503F)).resident 0 = true ∧
      (arriving p (hosting 74 0x503F)).expired { id := 1, loc := .ingress 0, pkt := p } = false ∧
      (arriving p (hosting 74 0x503F)).reachesHome 0 (pteHome 0x503F) { id := 1, loc := .ingress 0, pkt := p } = true ∧ opFits p.op p.cls = true ∧ p.dest = (arriving p (hosting 74 0x503F)).ownDev ∧ p.crcBad = false) ∧
    Plain (hosting 74 0x503F) ∧ (hosting 74 0x503F).mem.wf = true ∧ writeReq.data.length = writeReq.len ∧ (0x5000 : Nat) % reduceBytes 0 = 0 :=
  ⟨by decide +kernel, by decide +kernel, ⟨rfl, rfl, rfl, rfl, rfl⟩, by decide +kernel, rfl, rfl⟩

/-- The packet waits at die 0 for its predecessor. -/
def heldBack (p : Packet) : State :=
  { hosting 74 0x503F with fab := { (hosting 74 0x503F).fab with flights := [{ id := 1, loc := .held 0, pkt := p }], nextId := 2 } }

theorem witness_RequestsPerform_held : freshB (heldBack writeReq) writeReq 0x503F { key := 0x5000, page := 0x5000 } = true ∧
    (heldBack writeReq).findFlight 1 = some { id := 1, loc := .held 0, pkt := writeReq } ∧ 1 < (heldBack writeReq).fab.nextId ∧
    (heldBack writeReq).jobs = [] ∧ (heldBack writeReq).expired { id := 1, loc := .held 0, pkt := writeReq } = false := by decide +kernel

/-- The home of die 0 has applied number h, and the floor f has come. -/
def homed (h f : Nat) : State :=
  { hosting 74 0x503F with fab := { (hosting 74 0x503F).fab with homes := [{ die := 0, job := 0, src := 0, sdie := 0, cls := 0, tgt := 0, h := h, mask := 1, f := f }] } }
def applied1 : State := homed 1 1

theorem witness_RequestsPerform_again : (homeOf (arriving writeReq applied1) writeReq 0x503F).applied 1 = true ∧
    (arriving writeReq applied1).mustWait writeReq = false ∧ (arriving writeReq applied1).translate 74 0 (wordOfNat 0x10000) 0x5000 4 (askOf writeReq) =
      (arriving writeReq applied1, .ok (0x503F, { key := 0x5000, page := 0x5000 })) ∧ (arriving writeReq applied1).jobRoot 0 = wordOfNat 0x10000 ∧
    (arriving writeReq applied1).ackWaits writeReq = false ∧ (homeOf (arriving writeReq (homed 5 4)) writeReq 0x503F).applied 1 = false ∧
    seqBefore 1 (homeOf (arriving writeReq (homed 5 4)) writeReq 0x503F).f = true ∧ (arriving writeReq (homed 5 4)).mustWait writeReq = false := by
  decide +kernel

/-- A read is translated to a page with this leaf. -/
def readsFrom (l : Word) : Bool :=
  let s := arriving (request 2 0 0 []) (hosting 74 l)
  decide (s.translate 74 0 (s.jobRoot 0) 0x5000 4 (askOf (request 2 0 0 [])) = (s, .ok (l, { key := 0x5000, page := 0x5000 })))

theorem witness_RequestsPerform_read : readsFrom 0x503F = true ∧ readsFrom 0x523F = true ∧ pteSealed 0x503F = false ∧ pteSealed 0x523F = true := by
  decide +kernel

/-! Witnesses: answers and timers. -/

/-- Request 7 of die 0: tag 0, generation 0, of the copy of `copyCmd`, which reads to scratch or writes. -/
def outstanding : Req := { id := 7, die := 0, tag := 0, gen := 0, cmd := 1, off := 0, began := 0, sent := 0, pkt := { writeReq with tgt := some 0 } }

def requesting (par : Bool) : State :=
  { commanded (copyCmd .running false 0) with
    mem := memWriteN [] 0 8 0x10001, fab := { (commanded (copyCmd .running false 0)).fab with reqs := [{ outstanding with parked := par }] } }

/-- An answer to it. -/
def answer (op arg : Nat) (data : List Byte) : Packet := { dest := 0, src := 0, die := 0, cls := 1, op := op, len := 4, arg := arg, data := data }

theorem witness_RequestEvents_answers : (∀ p ∈ [answer 0x10 0 [], answer 0x10 1 [], answer 0x10 2 [], answer 0x10 3 [], answer 0x11 0 [1, 2, 3, 4],
      answer 0x11 2 [], answer 0x12 0 [], answer 0x13 0 []], (arriving p (requesting false)).answered p = some outstanding ∧
      (arriving p (requesting false)).expired { id := 1, loc := .ingress 0, pkt := p } = false ∧ (arriving p (requesting false)).resident 0 = true ∧
      opFits p.op p.cls = true ∧ p.dest = (arriving p (requesting false)).ownDev ∧ (arriving p (requesting false)).jobs = []) ∧
    (requesting false).findCmd 1 = some (copyCmd .running false 0) ∧ (copyCmd .running false 0).task = none ∧ (copyCmd .running false 0).aux = 0 ∧
    (∀ q ∈ (requesting false).fab.reqs, outstanding.off ≤ q.off) ∧
    coreTarget ((copyCmd .running false 0).parAt 0 + wordOfNat 0) = .scratch 0 ∧ ((requesting false).coreAt 0).regions = [] ∧
    ((requesting false).coreAt 0).verify = false ∧ (requesting false).mem.wf = true := by decide +kernel

theorem witness_RequestEvents_floor : Stands (arriving { message 0x23 (.floor 0 0 0 0) with floor := 5 } plain) 1
      { id := 1, loc := .ingress 0, pkt := { message 0x23 (.floor 0 0 0 0) with floor := 5 } } ∧
    seqBefore ((arriving { message 0x23 (.floor 0 0 0 0) with floor := 5 } plain).fab.home 0 0 0 0 0 0).f 5 = true :=
  ⟨⟨arrived_of rfl rfl rfl, rfl⟩, by decide +kernel⟩

theorem witness_RequestEvents_timers : (requesting false).fab.reqs.find? (·.id = 7) = some outstanding ∧ (requesting false).jobs = [] ∧
    outstanding.sent + (requesting false).timeout / 16 ≤ 2 ^ 18 ∧ 2 ^ 18 < outstanding.began + (requesting false).timeout ∧
    outstanding.began + (requesting false).timeout ≤ 2 ^ 22 := by decide +kernel

/-- Tag 3 of die 0 is in quarantine until step 1. -/
def quarantined : State :=
  { plain with cyc := 512, fab := { plain.fab with tags := plain.fab.tags.set 0 { fresh := 4, quar := [(3, 1)] } } }

theorem witness_RequestEvents_quarantine : (quarantined.fab.pool 0).quar = [(3, 1)] ∧ 1 ≤ quarantined.step64.toNat := by decide +kernel

/-! Witnesses: packets and links. -/

/-- Port i is in the state st. -/
def withPort (i : Nat) (p : Port) (s : State) : State := { s with fab := { s.fab with ports := s.fab.ports.set! i p } }

/-- A packet for device 1 stands at die 0, and the route to it has entry e; the port of the entry is Up. -/
def routing (e : BitVec 32) (i : Nat) (p : Packet) : State :=
  withPort i { st := .up } { arriving p plain with fab := { (arriving p plain).fab with routes := [(1, e)] } }

/-- Of class 2, whose port is the primary one, and of class 0, of two ports that are Up. -/
theorem witness_PacketsMove_adaptive : ∀ p ∈ [{ writeReq with dest := 1, cls := 0 }], ∀ s ∈ [withPort 5 { st := .up, reserved := 0 } (routing 0x81350003 3 p)],
    (∃ k < 4, routeEn 0x81350003 k = true ∧ routePort 0x81350003 k = 3 ∧ ∀ j < 4, j ≠ k → routeEn 0x81350003 j = true →
      (s.fab.port (routePort 0x81350003 j)).credits (p.chan + 1) < (s.fab.port 3).credits (p.chan + 1)) ∧
    s.routeTo 1 = 0x81350003 ∧ s.mayLeave 3 p = true ∧ s.isHead { id := 1, loc := .ingress 0, pkt := p } = true := by decide +kernel

theorem witness_PacketsMove_forward : ∀ p ∈ [{ writeReq with dest := 1, cls := 2 }],
    (∀ e ∈ [(0, 0), (0x81300001, 3), (0x81B00001, 11)].map fun q => ((q.1 : BitVec 32), q.2), (routing e.1 e.2 p).findFlight 1 =
      some { id := 1, loc := .ingress 0, pkt := p } ∧ (routing e.1 e.2 p).isHead { id := 1, loc := .ingress 0, pkt := p } = true ∧
      (routing e.1 e.2 p).ownDev = 0 ∧ (routing e.1 e.2 p).routeTo 1 = e.1 ∧ ((routing e.1 e.2 p).fab.port e.2).st = .up ∧
      (routing e.1 e.2 p).mayLeave e.2 p = true ∧ (routing e.1 e.2 p).bridgeRoom 1 p = true) ∧
    routeV 0 = false ∧ routeV 0x81300001 = true ∧ routePort 0x81300001 0 = 3 ∧ routePort 0x81B00001 0 = 11 ∧
    p.hop + routeDist 0x81300001 ≤ 15 ∧ p.hop + routeDist 0x81B00001 ≤ 15 := by decide +kernel

theorem witness_PacketsMove_expiry : { arriving writeReq plain with cyc := 2 ^ 24 }.life < { arriving writeReq plain with cyc := 2 ^ 24 }.step64.toNat -
    writeReq.birth.toNat ∧ { arriving writeReq plain with cyc := 2 ^ 24 }.findFlight 1 = some { id := 1, loc := .ingress 0, pkt := writeReq } := by
  decide +kernel

/-- A packet waits in the retry buffer of port 3, which has this state; flits of it are still to follow. -/
def linkedWith (d : Nat) (p : Port) : State :=
  withPort 3 p { plain with fab := { plain.fab with flights := [{ id := 1, loc := .retry 3, pkt := writeReq, debt := d }], nextId := 2 } }
def linked (p : Port) : State := linkedWith 0 p

theorem witness_PacketsMove_credits : 0 < ((withPort 15 { used := [(63, 1)], shared := 4031 } plain).fab.port 15).usedOn 63 ∧
    (linkedWith 1 { st := .up, reserved := 0, shared := 0 }).findFlight 1 = some { id := 1, loc := .retry 3, pkt := writeReq, debt := 1 } ∧
    writeReq.chan = 0 ∧ ((linkedWith 1 { st := .up, reserved := 0, shared := 0 }).fab.port 3).credits 0 = 0 ∧
    0 < (linkedWith 1 { st := .up, reserved := 0, shared := 0 }).retryRoom 3 := by decide +kernel

theorem witness_LinkEvents_states : (∀ st ∈ [PortSt.training, .retraining], (linked { st := st }).fab.port 3 = { st := st } ∧ 0 + 1800000 ≤
      { linked { st := st } with now := 1800000 }.now) ∧ (linked { st := .up, resends := 17 }).fab.port 3 = { st := .up, resends := 17 } ∧
    (∃ g ∈ (linked { st := .up, resends := 17 }).fab.flights, g.loc = .retry 3) ∧ plain.fab.lastSent + 65536 ≤ { plain with now := 65536 }.now := by
  decide +kernel

/-- Port 3 is the parent, and three beacons in a row have come within a cycle. -/
def steered (n : Nat) : State := { linked { st := .up, ndev := 4, delay := 5 } with
    fstep := 0x300, cyc := 100, fab := { (linked { st := .up, ndev := 4, delay := 5 }).fab with goodBeacons := n } }

theorem witness_LinkEvents_beacons : (steered 3).fstep.getLsbD 6 = false ∧ (steered 3).fstep.bits 8 4 = 3 ∧
    ((95 : BitVec 80).toNat : Int) + 5 - (steered 3).cyc.toNat = 0 ∧ ((90 : BitVec 80).toNat : Int) + 5 - (steered 3).cyc.toNat = -5 ∧
    (linked {}).fstep.getLsbD 6 = false ∧ (linked {}).fstep.bits 8 4 ≠ 3 ∧ (steered 3).fab.lastBeacon + 1800000 ≤ { steered 3 with now := 1800000 }.now := by
  decide +kernel

/-- The signed image has booted. -/
def bootedUp : State := { plain with plat := { plain.plat with booted := true } }
/-- This device is the manager. -/
def managing : State := { bootedUp with fdev := 0x10000 }

theorem witness_LinkEvents_manage : Stands (arriving (message 0x24 (.manage 0x100010 40)) managing) 1
    { id := 1, loc := .ingress 0, pkt := message 0x24 (.manage 0x100010 40) } ∧ managing.plat.booted = true ∧
    (message 0x24 (.manage 0x100010 40)).src = (if managing.fdev.getLsbD 16 then managing.ownDev else Config.managerDev) ∧ 16 ≤ (40 : Word).bits 0 6 ∧
    (40 : Word).bits 0 6 ≤ 40 := ⟨⟨arrived_of rfl rfl rfl, rfl⟩, rfl, rfl, by decide, by decide⟩

/-! Witnesses: cuts and switches. -/

/-- A job under control, in a machine. -/
def governed (k : JobCtl) (s : State) : State := { s with jobs := [k] }

/-- Context 0 of job 0 lives on die 0 and no context on die 1. -/
theorem witness_CutEvents_open : plain.liveCtxs 0 0 = [0] ∧ plain.liveCtxs 0 1 = [] ∧ ((plain.jobCtl 0).stOf 1 < 2) ∧ plain.saveArea 0 1 = 0 ∧
    plain.shares = [] ∧ plain.launches = [] ∧ plain.fab.nums = [] ∧ plain.fab.homes = [] ∧ plain.mem.wf = true ∧
    ∀ c, Told (arriving (message 0x22 c) plain) 1 c :=
  ⟨by decide +kernel, by decide +kernel, by decide +kernel, by decide +kernel, rfl, rfl, rfl, rfl, rfl, fun _ => told_of rfl⟩

/-- The origin of a cut, with or without the report of die 0. -/
def cutOrigin (r : List (Nat × Nat × Option Nat)) : JobCtl := { job := 0, origin := some 0, members := [0], reports := r, isCut := true, st0 := 1 }

theorem witness_CutEvents_report : (∀ c k, Told (arriving (message 0x22 c) (governed k plain)) 1 c) ∧
    (∃ e ∈ (cutOrigin []).members, ∃ x < 2, ∀ r ∈ [(0, 1, some 4)] ++ (cutOrigin []).reports, (r.1, r.2.1) ≠ (e, x)) ∧
    ∀ e ∈ (cutOrigin [(0, 0, some 3)]).members, ∀ x < 2, ∃ r ∈ (cutOrigin [(0, 0, some 3)]).reports ++ [(0, 1, none)], (r.1, r.2.1) = (e, x) :=
  ⟨fun _ _ => told_of rfl, by decide, by decide⟩

/-- A cut has been pending in context 0 since cycle 0. -/
def cutWaiting (d : Drain) : State :=
  { only { ctxOf [(0, 1), (0x16, 0x1003)] [] with drain := d, st := if d = .none then .selected else .stalled } with now := 2 ^ 20 }

theorem witness_CutEvents_limit : ∀ d ∈ [Drain.none, .tend], ((cutWaiting d).ctxAt 0).cutPending = true ∧ ((cutWaiting d).ctxAt 0).pendingSince + 2 ^ 20 ≤
    (cutWaiting d).now ∧ ((cutWaiting d).ctxAt 0).drain ≠ .rft ∧ ((cutWaiting d).ctxAt 0).acc = [] := by decide +kernel

/-- Context 0 of job 0 is frozen under a cut; the save area of die 0 has 16 pages at 0x200000. -/
def savingTo (pages : Nat) : State :=
  { governed { job := 0, st0 := 2, isCut := true } (only { ctxOf [(0, 1)] [] with st := .frozen, frozenKind := 1 }) with
    mem := memWriteN (memWriteN [] 0x100000 8 0x200000) 0x100010 4 pages, plat := { plain.plat with jsavet := 0x100001 } }

def toSave : State := savingTo 16

/-- One page is too small an area. -/
theorem witness_CutEvents_full : (savingTo 1).settled 0 = true ∧ (savingTo 1).saveArea 0 0 + (savingTo 1).saveSize 0 0 <
    (ctxRecord (savingTo 1) 0 0xFFFF (0x200000 + ((savingTo 1).jobCtl 0).nextOf 0)).2 := by decide +kernel

theorem witness_CutEvents_save : (toSave.jobCtl 0).isCut = true ∧ (toSave.ctxAt 0).st = .frozen ∧ (toSave.jobCtl 0).stOf 0 = 2 ∧ toSave.settled 0 = true ∧ toSave.saveArea 0 0 = 0x200000 ∧
    (ctxRecord toSave 0 0xFFFF (0x200000 + (toSave.jobCtl 0).nextOf 0)).2 ≤ 0x200000 + toSave.saveSize 0 0 ∧
    0x200000 ≤ (ctxRecord toSave 0 0xFFFF (0x200000 + (toSave.jobCtl 0).nextOf 0)).2 ∧ installed 0x200000 0x10000 = true ∧
    installed (toSave.saveArea 0 0) ((ctxRecord toSave 0 0xFFFF (0x200000 + (toSave.jobCtl 0).nextOf 0)).2 - toSave.saveArea 0 0) = true := by
  decide +kernel

/-- Die 0 of the one member has saved. -/
def halfSaved : JobCtl := { job := 0, origin := some 0, members := [0], saved := [(0, 0)] }

theorem witness_CutEvents_saved : (∀ c k, Told (arriving (message 0x22 c) (governed k saving)) 1 c) ∧ saving.savesOn = true ∧ saving.mem.wf = true ∧
    (∃ e ∈ halfSaved.members, ∃ x < 2, (e, x) ∉ halfSaved.saved ∧ (e, x) ≠ (0, 0)) ∧
    ∀ e ∈ halfSaved.members, ∀ x < 2, (e, x) ∈ halfSaved.saved ∨ (e, x) = (0, 1) :=
  ⟨fun _ _ => told_of rfl, by decide +kernel, by decide +kernel, by decide, by decide⟩

theorem witness_SwitchEvents_acceptance : (∀ c, Told (arriving (message 0x22 c) plain) 1 c) ∧ plain.mem.wf = true ∧ plain.saveArea 0 0 = 0 ∧
    saving.saveArea 0 0 = 0 := ⟨fun _ => told_of rfl, by decide +kernel⟩

/-- A GSW waits for the answers of other members. -/
def gswHeld : Cmd := { id := 1, kind := .gsw, ins := .sysGsw 4, agent := 0, st := .held }

theorem witness_SwitchEvents_galleys : Told (arriving (message 0x22 (.galleyIs 0 3 1 true)) (commanded gswHeld)) 1 (.galleyIs 0 3 1 true) ∧
    (commanded gswHeld).findCmd 1 = some gswHeld := ⟨told_of rfl, by decide +kernel⟩

/-- A switch whose freeze step is 0; port 2 is Up. -/
def freezing : State := governed { job := 0, st0 := 3 } (withPort 2 { st := .up } plain)

theorem witness_SwitchEvents_freeze : (freezing.jobCtl 0).stOf 0 = 3 ∧ (freezing.jobCtl 0).step.toNat ≤ freezing.step64.toNat ∧
    freezing.liveCtxs 0 0 = [0] ∧ freezing.freezeDue 0 = true ∧ (freezing.fab.port 2).st = .up := by decide +kernel

/-- The sweep of port 0; a packet of the job stands there before the fence. -/
def sweepingNow : State :=
  governed { job := 0, st0 := 4, st1 := 4, frozen := true, sweeps := [{ place := .port 0 }] } { plain with
    now := 2 ^ 22, fab := { plain.fab with nextId := 3, flights := [{ id := 1, loc := .ingress 0, pkt := writeReq },
      { id := 2, loc := .ingress 0, pkt := { message 0x21 (.fence 0) with jid := 0 } }] } }

theorem witness_SwitchEvents_sweep : sweepingNow.sweeping 0 (.port 0) = true ∧ (sweepingNow.jobCtl 0).since + sweepingNow.timeout ≤ sweepingNow.now ∧
    (∃ g ∈ sweepingNow.fab.flights, sweepingNow.fab.flights.find? (fun f => f.loc = .ingress 0 && f.pkt.op = 0x21 && f.pkt.ctl = .fence 0) = some g ∧
      sweepingNow.isHead g = true ∧ g.pkt.cls = 3) ∧
    ∀ g ∈ sweepingNow.fab.flights, ∀ h ∈ sweepingNow.fab.flights, g.id = h.id → g = h := by decide +kernel

/-- The sweep of a bridge. -/
def sweepingBridge : State := governed { job := 0, st0 := 4, st1 := 4, frozen := true, sweeps := [{ place := .bridge 1 }] } plain

theorem witness_SwitchEvents_bridge : sweepingBridge.sweeping 0 (.bridge 1) = true ∧ sweepingBridge.fab.flights = [] := by decide +kernel

/-- Every place is swept, which kept these packets. -/
def sweptWith (l : List Flight) : State :=
  governed { job := 0, st0 := 4, st1 := 4, frozen := true, sweeps := [{ place := .port 0, finished := true }], kept := l } plain
def swept : State := sweptWith []

/-- A packet that port 0 had, a galley of n places, and a context of the job on each die. -/
def keptPacket : Flight := { id := 1, loc := .ingress 0, pkt := writeReq }
def galleyOf (n : Nat) : State :=
  { (sweptWith [keptPacket]).setCtx 576 { ctxOf [] [] with st := .frozen } with mem := memWriteN (memWriteN [] 24 8 0x4000) 32 4 n }

theorem witness_SwitchEvents_galley : (∀ n ∈ [0, 1], (galleyOf n).galleyBase 0 = 0x4000 ∧ (galleyOf n).galleyCap 0 = n ∧ (galleyOf n).liveCtxs 0 0 ≠ [] ∧
      (galleyOf n).liveCtxs 0 1 ≠ [] ∧ (galleyOf n).mem.wf = true ∧ (galleyOf n).savesOn = false) ∧ .port 0 ∈ sweepPlaces ∧
    keptPacket.loc.place = some (.port 0) ∧ keptPacket.pkt.data.length ≤ 256 := by decide +kernel

theorem witness_SwitchEvents_localSweep : (swept.jobCtl 0).frozen = true ∧ (swept.jobCtl 0).swept = false ∧ (swept.jobCtl 0).kept = [] ∧
    swept.fab.flights = [] ∧ swept.galleyBase 0 = 0 := by decide +kernel

/-- Both dies have restored the job, whose context 0 is frozen. -/
def resuming (kind : Nat) : State :=
  governed { job := 0, st0 := 6, st1 := 6, restored0 := true, restored1 := true, back := [(0, 0), (0, 1)], ctxRecs := [(0, 0, 0)] }
    (only { ctxOf [(0, 1)] [] with st := .frozen, frozenKind := kind })

theorem witness_SwitchEvents_resume : ∀ kind ∈ [1, 2], ((resuming kind).jobCtl 0).step.toNat ≤ (resuming kind).step64.toNat ∧
    (∀ e ∈ (resuming kind).members 0, ∀ x < 2, (e, x) ∈ ((resuming kind).jobCtl 0).back) ∧ ((resuming kind).ctxAt 0).st = .frozen := by decide +kernel

/-! Witnesses: the platform and the host, the invariant. -/

/-- Sequencer 0 or context 0 is Halted or in Double Fault. -/
def resettable (n : Nat) (st : CtxSt) : State := bootedUp.setCtx n { ctxOf [(0, 1)] [(3, 9)] with st := st, frames := 1 }

theorem witness_PlatformEvents_boot : plain.plat.booted = false ∧ plain.plat.bootstat = 0 ∧ { plain with plat := { plain.plat with quoting := true } }.plat.quoting = true ∧
    bootedUp.plat.booted = true ∧ ((resettable 1152 .halted).ctxAt 1152).st = .halted ∧
    ∀ n ∈ [0, 1153], ∀ st ∈ [CtxSt.halted, .doubleFault], ((resettable n st).ctxAt n).st = st ∧ (resettable n st).plat.booted = true := by decide +kernel

/-- A route entry that is malformed, valid, not valid. -/
def entryBad (v : BitVec 32) : Bool := (v &&& 0x8FFFFF0F#32).getLsbD 31 && ((v &&& 0x8FFFFF0F#32).bits 24 4 == 0 || !(v &&& 0x8FFFFF0F#32).getLsbD 0)

theorem witness_PlatformEvents_fabric : entryBad 0x80300001 = true ∧ entryBad 0x81300000 = true ∧ entryBad 0x81300001 = false ∧ entryBad 0x01300000 = false ∧
    (bootedUp.fab.port 15).st = .down ∧ bootedUp.resident 0 = false ∧ { bootedUp with mem := memWriteN [] 0 8 1 }.resident 0 = true := by decide +kernel

theorem witness_PlatformEvents_memory : installed 0x1000 8 = true ∧ installed (2 ^ 46) 8 = false ∧ 2 ^ 47 ≤ (2 ^ 47 + 5) / 8 * 8 := by decide +kernel

theorem witness_StepKeepsMemorySound : ∀ s ∈ [plain, pushing 0 false, toSave, scheduled [0x820C4150]], s.mem.wf = true ∧
    (match Machine.step s with | .next _ => true | _ => false) = true := by decide +kernel

end Sys2Proof.Tests
end

section
/-! Every word that decodes is the word of its slot (R41, R77, R85 to R89). The stop bit is cleared first, which decoding does not look at:
a word with the stop bit clear is what its format makes of its fields, and each arm of the decoder is read against the encoder's. -/

namespace Sys2Proof

/-! Neighbouring fields of a word make one field. -/

theorem fld_append (w : SlotWord) {hi n m lo : Nat} (h : hi = lo + n) : fld w hi m ++ fld w lo n = fld w lo (m + n) :=
  BitVec.extractLsb'_append_extractLsb'_eq_extractLsb' h

theorem ofB_getLsbD (w : SlotWord) (n : Nat) : ofB (w.getLsbD n) = fld w n 1 := by
  apply BitVec.eq_of_getLsbD_eq
  intro i hi
  obtain rfl : i = 0 := by omega
  simp [ofB, -BitVec.getLsbD_eq_getElem]

theorem fld_stop {w : SlotWord} (hS : stopBit w = false) : fld w 31 1 = 0#1 := by
  rw [← ofB_getLsbD, ← stopBit, hS]
  rfl

theorem rD_eq_append (w : SlotWord) : rD w = fld w 21 3 ++ fld w 18 3 := by rw [fld_append w (rfl : 21 = 18 + 3)]; rfl
theorem rA_eq_append (w : SlotWord) : rA w = fld w 15 3 ++ fld w 12 3 := by rw [fld_append w (rfl : 15 = 12 + 3)]; rfl
theorem rA_eq_append_level (w : SlotWord) : rA w = fld w 14 4 ++ fld w 12 2 := by rw [fld_append w (rfl : 14 = 12 + 2)]; rfl
theorem rB_eq_append (w : SlotWord) : rB w = fld w 9 3 ++ fld w 6 3 := by rw [fld_append w (rfl : 9 = 6 + 3)]; rfl
theorem rB_eq_append_width (w : SlotWord) : rB w = fld w 8 4 ++ fld w 6 2 := by rw [fld_append w (rfl : 8 = 6 + 2)]; rfl
theorem fFN_eq_append (w : SlotWord) : fFN w = fld w 2 2 ++ fld w 0 2 := by rw [fld_append w (rfl : 2 = 0 + 2)]; rfl
theorem fI11_eq_append (w : SlotWord) : fI11 w = fld w 6 5 ++ fld w 0 6 := by rw [fld_append w (rfl : 6 = 0 + 6)]; rfl
theorem fI12_eq_append (w : SlotWord) : fI12 w = fld w 5 7 ++ ofB (w.getLsbD 4) ++ fld w 2 2 ++ fld w 0 2 := by
  rw [ofB_getLsbD, fld_append w (rfl : 5 = 4 + 1), fld_append w (rfl : 4 = 2 + 2), fld_append w (rfl : 2 = 0 + 2)]
  rfl

/-! A word with the stop bit clear is the word that its format makes of its fields. -/

section
variable {w : SlotWord} {op : BitVec 7} (hS : stopBit w = false)
include hS

theorem encR_eq_iff {d a b : Reg} {wa wb : Bool} {fn : BitVec 4} : encR op d a b wa wb fn = w ↔
    opField w = op.toNat ∧ rD w = d ∧ rA w = a ∧ rB w = b ∧ fWA w = wa ∧ fWB w = wb ∧ fFN w = fn := by
  constructor
  · rintro rfl
    simp
  · rintro ⟨hop, rfl, rfl, rfl, rfl, rfl, rfl⟩
    rw [← BitVec.eq_of_toNat_eq hop]
    unfold encR rD rA rB fWA fWB fFN
    rw [ofB_getLsbD, ofB_getLsbD, ← fld_stop hS, fld_append w (rfl : 31 = 24 + 7), fld_append w (rfl : 24 = 18 + 6),
      fld_append w (rfl : 18 = 12 + 6), fld_append w (rfl : 12 = 6 + 6), fld_append w (rfl : 6 = 5 + 1),
      fld_append w (rfl : 5 = 4 + 1), fld_append w (rfl : 4 = 0 + 4)]
    exact BitVec.extractLsb'_eq_self

theorem encI_eq_iff {d a : Reg} {wa : Bool} {imm : BitVec 11} : encI op d a wa imm = w ↔
    opField w = op.toNat ∧ rD w = d ∧ rA w = a ∧ fWI w = wa ∧ fI11 w = imm := by
  constructor
  · rintro rfl
    simp
  · rintro ⟨hop, rfl, rfl, rfl, rfl⟩
    rw [← BitVec.eq_of_toNat_eq hop]
    unfold encI rD rA fWI fI11
    rw [ofB_getLsbD, ← fld_stop hS, fld_append w (rfl : 31 = 24 + 7), fld_append w (rfl : 24 = 18 + 6),
      fld_append w (rfl : 18 = 12 + 6), fld_append w (rfl : 12 = 11 + 1), fld_append w (rfl : 11 = 0 + 11)]
    exact BitVec.extractLsb'_eq_self

theorem encU_eq_iff {d : Reg} {imm : BitVec 18} : encU op d imm = w ↔ opField w = op.toNat ∧ rD w = d ∧ fI18 w = imm := by
  constructor
  · rintro rfl
    simp
  · rintro ⟨hop, rfl, rfl⟩
    rw [← BitVec.eq_of_toNat_eq hop]
    unfold encU rD fI18
    rw [← fld_stop hS, fld_append w (rfl : 31 = 24 + 7), fld_append w (rfl : 24 = 18 + 6), fld_append w (rfl : 18 = 0 + 18)]
    exact BitVec.extractLsb'_eq_self

theorem encZ_eq_iff {d a : Reg} {imm : BitVec 12} : encZ op d a imm = w ↔
    opField w = op.toNat ∧ rD w = d ∧ rA w = a ∧ fI12 w = imm := by
  constructor
  · rintro rfl
    simp
  · rintro ⟨hop, rfl, rfl, rfl⟩
    rw [← BitVec.eq_of_toNat_eq hop]
    unfold encZ rD rA fI12
    rw [← fld_stop hS, fld_append w (rfl : 31 = 24 + 7), fld_append w (rfl : 24 = 18 + 6), fld_append w (rfl : 18 = 12 + 6),
      fld_append w (rfl : 12 = 0 + 12)]
    exact BitVec.extractLsb'_eq_self

theorem encJ_eq_iff {off : BitVec 24} : encJ op off = w ↔ opField w = op.toNat ∧ fI24 w = off := by
  constructor
  · rintro rfl
    simp
  · rintro ⟨hop, rfl⟩
    rw [← BitVec.eq_of_toNat_eq hop]
    unfold encJ fI24
    rw [← fld_stop hS, fld_append w (rfl : 31 = 24 + 7), fld_append w (rfl : 24 = 0 + 24)]
    exact BitVec.extractLsb'_eq_self

theorem encV_eq_iff {d a b : BitVec 6} {m t : BitVec 3} : encV op d a b m t = w ↔
    opField w = op.toNat ∧ rD w = d ∧ rA w = a ∧ rB w = b ∧ fMK w = m ∧ fld w 0 3 = t := by
  constructor
  · rintro rfl
    exact ⟨by simp, by simp, by simp, by simp, by simp, BitVec.extractLsb'_append_eq_right⟩
  · rintro ⟨hop, rfl, rfl, rfl, rfl, rfl⟩
    rw [← BitVec.eq_of_toNat_eq hop]
    unfold encV rD rA rB fMK
    rw [← fld_stop hS, fld_append w (rfl : 31 = 24 + 7), fld_append w (rfl : 24 = 18 + 6), fld_append w (rfl : 18 = 12 + 6),
      fld_append w (rfl : 12 = 6 + 6), fld_append w (rfl : 6 = 3 + 3), fld_append w (rfl : 3 = 0 + 3)]
    exact BitVec.extractLsb'_eq_self

theorem encE_eq_iff {p : Reg} {kd ka kb kc : Tok} {fn : BitVec 2} : encE op p kd ka kb kc fn = w ↔
    opField w = op.toNat ∧ rD w = p ∧ fKD w = kd ∧ fKA w = ka ∧ fKB w = kb ∧ fKC w = kc ∧ fE2 w = fn := by
  constructor
  · rintro rfl
    simp
  · rintro ⟨hop, rfl, rfl, rfl, rfl, rfl, rfl⟩
    rw [← BitVec.eq_of_toNat_eq hop]
    unfold encE rD fKD fKA fKB fKC fE2
    rw [← fld_stop hS, fld_append w (rfl : 31 = 24 + 7), fld_append w (rfl : 24 = 18 + 6), fld_append w (rfl : 18 = 14 + 4),
      fld_append w (rfl : 14 = 10 + 4), fld_append w (rfl : 10 = 6 + 4), fld_append w (rfl : 6 = 2 + 4), fld_append w (rfl : 2 = 0 + 2)]
    exact BitVec.extractLsb'_eq_self

theorem encQ_eq_iff {c : BitVec 6} {ds as bs : BitVec 2} : encQ op c ds as bs = w ↔
    opField w = op.toNat ∧ rD w = c ∧ fld w 16 2 = ds ∧ fld w 14 2 = as ∧ fld w 12 2 = bs ∧ fI12 w = 0 := by
  constructor
  · rintro rfl
    simp
  · rintro ⟨hop, rfl, rfl, rfl, rfl, hz⟩
    rw [← BitVec.eq_of_toNat_eq hop]
    unfold encQ
    rw [show 0#12 = fld w 0 12 from hz.symm]
    unfold rD
    rw [← fld_stop hS, fld_append w (rfl : 31 = 24 + 7), fld_append w (rfl : 24 = 18 + 6), fld_append w (rfl : 18 = 16 + 2),
      fld_append w (rfl : 16 = 14 + 2), fld_append w (rfl : 14 = 12 + 2), fld_append w (rfl : 12 = 0 + 12)]
    exact BitVec.extractLsb'_eq_self

end

/-! A selector's code is the field that names it. -/

theorem ETy.code_ofCode : ∀ c, (ETy.ofCode c).code = c := by decide
theorem Scope.code_ofCode : ∀ c, (Scope.ofCode c).code = c := by decide
theorem WCond.code_ofCode : ∀ c, (WCond.ofCode c).code = c := by decide
theorem Width.code_ofCode : ∀ c, (Width.ofCode c).code = c := by decide
theorem VCond.code_ofCode : ∀ c, (VCond.ofCode c).code = c := by decide
theorem AmoOrd.code_ofCode : ∀ c, (AmoOrd.ofCode c).code = c := by decide
theorem RMode.code_of_ofCode : ∀ c x, RMode.ofCode c = some x → x.code = c := by decide
theorem SFn.code_of_ofCode : ∀ c x, SFn.ofCode c = some x → x.code = c := by decide
theorem RedOp.code_of_ofCode : ∀ c x, RedOp.ofCode c = some x → x.code = c := by decide
theorem BitOp.code_of_ofCode : ∀ c x, BitOp.ofCode c = some x → x.code = c := by decide
theorem MaskOp.code_of_ofCode : ∀ c x, MaskOp.ofCode c = some x → x.code = c := by decide
theorem AmoFn.code_of_ofCode : ∀ c x, AmoFn.ofCode c = some x → x.code = c := by decide
theorem FenceKind.code_of_ofCode : ∀ c x, FenceKind.ofCode c = some x → x.code = c := by decide

/-! What a decoder accepts has the word it reads. -/

/-- Whatever slot the outcome of decoding w accepts, w is its word. -/
def Encodes (w : SlotWord) (r : Except DecodeError Instr) : Prop := ∀ i, r = .ok i → encode i = some w

@[simp] theorem encodes_ok {w : SlotWord} {i : Instr} : Encodes w (.ok i) ↔ encode i = some w := by
  simp [Encodes]

@[simp] theorem encodes_error {w : SlotWord} {e : DecodeError} : Encodes w (.error e) := by
  intro i h
  cases h

@[simp] theorem encodes_needZero {w : SlotWord} {z : Bool} {i : Instr} : Encodes w (needZero w z i) ↔ (z = true → encode i = some w) := by
  unfold needZero
  cases z <;> simp

@[simp] theorem encodes_needSel {α : Type} {w : SlotWord} {n : Nat} {o : Option α} {f : α → Except DecodeError Instr} :
    Encodes w (needSel w n o f) ↔ ∀ a, o = some a → Encodes w (f a) := by
  unfold needSel
  cases o <;> simp

section
variable {w : SlotWord} (hS : stopBit w = false)
include hS

theorem encodes_decodeE {op : BitVec 7} {mk : Reg → Tok → Tok → Tok → Tok → Instr}
    (hmk : ∀ p kd ka kb kc, encode (mk p kd ka kb kc) = some (encE op p kd ka kb kc 0)) (hop : opField w = op.toNat) :
    Encodes w (decodeE w mk) := by
  unfold decodeE
  simp [hmk, encE_eq_iff hS, hop]

theorem encodes_decodeAmo {op : BitVec 7} {mk : Reg → Reg → Reg → AmoOrd → AmoFn → Instr}
    (hmk : ∀ d a b o fn, encode (mk d a b o fn) = some (encR op d a b (o.code.getLsbD 1) (o.code.getLsbD 0) fn.code))
    (hop : opField w = op.toNat) : Encodes w (decodeAmo w mk) := by
  have h1 : (fld w 4 2).getLsbD 1 = fWA w := by simp [fWA]
  have h0 : (fld w 4 2).getLsbD 0 = fWB w := by simp [fWB]
  unfold decodeAmo
  rw [encodes_needSel]
  intro fn hfn
  rw [encodes_ok, hmk, Option.some_inj, encR_eq_iff hS, AmoOrd.code_ofCode, h1, h0, AmoFn.code_of_ofCode _ _ hfn]
  exact ⟨hop, rfl, rfl, rfl, rfl, rfl, rfl⟩

theorem encodes_decodeAlu (hop : opField w = 0x02) : Encodes w (decodeAlu w) := by
  unfold decodeAlu
  split <;> rename_i hfn
  case h_16 =>
    have hfn : (fFN w).toNat = 15 := by
      have := (fFN w).isLt
      simp only [imp_false] at *
      omega
    simp [encode, encR_eq_iff hS, hop, (BitVec.toNat_eq_nat.1 hfn).2]
  all_goals simp [encode, encR_eq_iff hS, hop, (BitVec.toNat_eq_nat.1 hfn).2]

theorem encodes_decodeMul (hop : opField w = 0x03) : Encodes w (decodeMul w) := by
  unfold decodeMul
  split <;> rename_i hfn
  case h_16 => exact encodes_error
  all_goals simp +contextual [encode, encR_eq_iff hS, hop, rB_eq_append_width, Width.code_ofCode, (BitVec.toNat_eq_nat.1 hfn).2]

theorem encodes_decodeNSC : Encodes w (decodeNSC w) := by
  unfold decodeNSC
  split <;> rename_i hop
  case h_3 => exact encodes_decodeAlu hS hop
  case h_4 => exact encodes_decodeMul hS hop
  all_goals simp +contextual [encode, encR_eq_iff hS, encI_eq_iff hS, encU_eq_iff hS, encZ_eq_iff hS,
    encJ_eq_iff hS, encE_eq_iff hS, encQ_eq_iff hS, hop]
  -- The shifts by a constant, LOOP and WAITC have fields that are parts of a field of their format.
  case h_9 | h_10 | h_11 => simp +contextual [fI11_eq_append]
  case h_26 => simp +contextual [rA_eq_append_level]
  case h_29 => simp [fFN_eq_append, Scope.code_ofCode, WCond.code_ofCode]

theorem encodes_decodeV : Encodes w (decodeV w) := by
  unfold decodeV
  split <;> rename_i hop
  -- VRAND
  case h_33 =>
    dsimp only
    split <;> rename_i hb
    case h_3 => exact encodes_error
    all_goals simp +contextual [encode, encV_eq_iff hS, hop, (BitVec.toNat_eq_nat.1 hb).2, fT, ETy.code_ofCode]
  all_goals simp +contextual [encode, encV_eq_iff hS, hop, fT, ETy.code_ofCode]
  -- VSFN, VCMP, VCVT, VRED, VBITS, VMSK and VMCNT: selectors, and masks that stand in a register field.
  case h_13 => intro fn hfn; exact (SFn.code_of_ofCode _ _ hfn).symm
  case h_14 => rw [VCond.code_ofCode]; exact rD_eq_append w
  case h_22 => intro rm hrm; rw [RMode.code_of_ofCode _ _ hrm]; exact rB_eq_append w
  case h_24 => intro o ho; exact (RedOp.code_of_ofCode _ _ ho).symm
  case h_31 => intro o ho; exact (BitOp.code_of_ofCode _ _ ho).symm
  case h_36 =>
    intro o ho hd ha hz
    have hm : fMK w = 0 := (fld_fld w 0 6 3 3 (by decide)).symm.trans (by rw [hz]; rfl)
    have ht : fld w 0 3 = 0 := (fld_fld w 0 6 0 3 (by decide)).symm.trans (by rw [hz]; rfl)
    simp [rD_eq_append, rA_eq_append, hd, ha, hm, ht, MaskOp.code_of_ofCode _ _ ho]
  case h_37 => simp +contextual [rA_eq_append]

theorem encodes_decodeXL : Encodes w (decodeXL w) := by
  unfold decodeXL
  split <;> rename_i hop
  -- The commands of format E, then the atomics.
  case h_2 | h_3 | h_4 | h_5 | h_6 | h_7 | h_8 | h_9 | h_10 | h_30 | h_31 | h_32 | h_34 =>
    exact encodes_decodeE hS (fun _ _ _ _ _ => rfl) hop
  case h_26 | h_27 | h_28 => exact encodes_decodeAmo hS (fun _ _ _ _ _ => rfl) hop
  all_goals simp +contextual [encode, encR_eq_iff hS, encI_eq_iff hS, encZ_eq_iff hS, hop]
  -- LDA, STL and FENCE
  case h_24 | h_25 => simp [fFN_eq_append, Scope.code_ofCode, Width.code_ofCode]
  case h_29 =>
    intro k hk _ _ hz
    simp [fI12_eq_append, hz, FenceKind.code_of_ofCode _ _ hk, Scope.code_ofCode]

theorem encodes_decodeEZ : Encodes w (decodeEZ w) := by
  unfold decodeEZ
  split <;> rename_i hop
  -- The commands of format E.
  case h_1 | h_3 | h_5 | h_6 | h_7 | h_8 | h_9 | h_10 | h_11 | h_12 | h_13 =>
    exact encodes_decodeE hS (fun _ _ _ _ _ => rfl) hop
  -- CPR, SYS and RNG have a function each.
  case h_2 =>
    split <;> rename_i hfn
    case h_3 => exact encodes_error
    all_goals simp [encode, encE_eq_iff hS, hop, (BitVec.toNat_eq_nat.1 hfn).2]
  case h_17 =>
    split <;> rename_i hfn
    case h_9 => exact encodes_error
    all_goals simp +contextual [encode, encZ_eq_iff hS, hop, (BitVec.toNat_eq_nat.1 hfn).2]
  case h_18 =>
    split <;> rename_i hfn
    case h_6 => exact encodes_error
    all_goals simp +contextual [encode, encR_eq_iff hS, hop, (BitVec.toNat_eq_nat.1 hfn).2]
  all_goals simp +contextual [encode, encE_eq_iff hS, encZ_eq_iff hS, hop, Scope.code_ofCode]

end

theorem encodes_decode {w : SlotWord} (hS : stopBit w = false) : Encodes w (decode w) := by
  unfold decode
  split
  · exact encodes_decodeNSC hS
  split
  · exact encodes_decodeV hS
  split
  · exact encodes_decodeXL hS
  · exact encodes_decodeEZ hS

/-! The stop bit put back. -/

/-- The word of the same slot with the stop bit clear. -/
def unstopped (w : SlotWord) : SlotWord := 0#1 ++ fld w 0 31

theorem stopBit_unstopped (w : SlotWord) : stopBit (unstopped w) = false := by
  unfold stopBit unstopped
  rw [BitVec.getLsbD_append]
  rfl

theorem orS_unstopped (w : SlotWord) : (if stopBit w then unstopped w ||| 0x80000000#32 else unstopped w) = w := by
  have hw : ofB (stopBit w) ++ fld w 0 31 = w := by
    rw [stopBit, ofB_getLsbD, fld_append w (rfl : 31 = 0 + 31)]
    exact BitVec.extractLsb'_eq_self
  have hS : unstopped w ||| 0x80000000#32 = 1#1 ++ fld w 0 31 := by
    rw [unstopped, show 0x80000000#32 = 1#1 ++ 0#31 from rfl, BitVec.or_append, BitVec.zero_or, BitVec.or_zero]
  rw [hS]
  conv => rhs; rw [← hw]
  cases stopBit w <;> rfl

theorem decode_unstopped (w : SlotWord) : decode (unstopped w) = decode w := by
  conv => rhs; rw [← orS_unstopped w]
  split
  · exact (decode_orS _).symm
  · rfl

/-- Settles O43: clear the stop bit, which decoding does not look at (decode_orS), and read the slot's word off decode's cases. -/
theorem encodeDecode : Obligations.EncodeDecode := by
  intro i w h
  have he : encode i = some (unstopped w) := encodes_decode (stopBit_unstopped w) i (by rw [decode_unstopped, h])
  unfold encodeS
  rw [he, Option.map_some, orS_unstopped]

end Sys2Proof
end

section
/-! What a vector result leaves where it lands (R95, R139, R21, R47), and what the registers hold after a write (R15, R16, R103). -/

namespace Sys2Proof.Machine

open Sys2Proof.Safety

/-! Bits of the rows that enables make. -/

theorem bits_testBit {n : Nat} (w : BitVec n) (lo len j : Nat) : (w.bits lo len).testBit j = (decide (j < len) && w.getLsbD (lo + j)) := by
  unfold BitVec.bits
  rw [Nat.testBit_mod_two_pow, Nat.testBit_shiftRight]
  rfl

/-- Bytes of ones added at the places that p names do not overlap. -/
theorem byteSum_testBit (p : Nat → Bool) (n j : Nat) :
    ((upTo n).foldl (fun a i => if p i then a + 0xFF <<< (8 * i) else a) 0).testBit j = (decide (j < 8 * n) && p (j / 8)) := by
  induction n generalizing j with
  | zero => simp [upTo]
  | succ n ih =>
    unfold upTo at ih ⊢
    rw [List.range_succ, List.foldl_append, List.foldl_cons, List.foldl_nil]
    generalize (List.range n).foldl (fun a i => if p i then a + 0xFF <<< (8 * i) else a) 0 = a at ih ⊢
    have hlt : a < 2 ^ (8 * n) := Nat.lt_pow_two_of_testBit a fun i hi => by rw [ih, decide_eq_false (by omega), Bool.false_and]
    have hbyte : (j < 8 * (n + 1) ∧ ¬j < 8 * n) → j / 8 = n := by omega
    cases hp : p n with
    | false =>
      rw [if_neg Bool.false_ne_true, ih]
      by_cases h : j < 8 * (n + 1) ∧ ¬j < 8 * n
      · simp [hbyte h, hp]
      · congr 2
        rw [eq_iff_iff]
        omega
    | true =>
      rw [if_pos rfl, Nat.shiftLeft_eq, Nat.add_comm, Nat.mul_comm, Nat.testBit_two_pow_mul_add _ hlt, show 0xFF = 2 ^ 8 - 1 from rfl,
        Nat.testBit_two_pow_sub_one]
      split
      · next h => rw [ih, decide_eq_true h, decide_eq_true (by omega)]
      · next h =>
        by_cases h' : j < 8 * (n + 1)
        · rw [hbyte ⟨h', h⟩, hp, decide_eq_true h', decide_eq_true (by omega)]; rfl
        · rw [decide_eq_false h', decide_eq_false (by omega)]; rfl

theorem expandMask_getLsbD (m : Mask) {j : Nat} (hj : j < 16384) : (expandMask m).getLsbD j = m.getLsbD (j / 8) := by
  have hb : j / 8 < 2048 := by omega
  unfold expandMask
  split
  · next h => rw [h, BitVec.getLsbD_allOnes, BitVec.getLsbD_allOnes, decide_eq_true hj, decide_eq_true hb]
  · rw [BitVec.getLsbD_ofNat, byteSum_testBit, decide_eq_true hj, Bool.true_and, Bool.true_and]

/-- The row u with the bytes of v that the enables name. -/
def mergeRow (en : Mask) (u v : Row) : Row := (u &&& ~~~(expandMask en)) ||| (v &&& expandMask en)

theorem mergeRow_bits (en : Mask) (u v : Row) {b : Nat} (hb : b < 2048) :
    (mergeRow en u v).bits (8 * b) 8 = if en.getLsbD b then v.bits (8 * b) 8 else u.bits (8 * b) 8 := by
  apply Nat.eq_of_testBit_eq
  intro j
  rw [bits_testBit]
  by_cases hj : j < 8
  · have he : (expandMask en).getLsbD (8 * b + j) = en.getLsbD b := by
      rw [expandMask_getLsbD en (by omega), show (8 * b + j) / 8 = b by omega]
    have hr : 8 * b + j < 16384 := by omega
    unfold mergeRow
    rw [BitVec.getLsbD_or, BitVec.getLsbD_and, BitVec.getLsbD_and, BitVec.getLsbD_not, he, decide_eq_true hr]
    cases en.getLsbD b <;> simp [bits_testBit]
  · split <;> simp [bits_testBit, hj]

/-! The parts of landing. -/

/-- c with flags ORed into VFLAGS (R47). -/
def Ctx.orFlags (c : Ctx) (fl : Flags) : Ctx := if fl = 0 then c else c.setCr crVflags (c.cr[crVflags] ||| fl.setWidth 64)

@[simp] theorem orFlags_x (c : Ctx) (fl : Flags) : (c.orFlags fl).x = c.x := by unfold Ctx.orFlags; split <;> rfl
@[simp] theorem orFlags_v (c : Ctx) (fl : Flags) : (c.orFlags fl).v = c.v := by unfold Ctx.orFlags; split <;> rfl
@[simp] theorem orFlags_m (c : Ctx) (fl : Flags) : (c.orFlags fl).m = c.m := by unfold Ctx.orFlags; split <;> rfl
@[simp] theorem orFlags_k (c : Ctx) (fl : Flags) : (c.orFlags fl).k = c.k := by unfold Ctx.orFlags; split <;> rfl
@[simp] theorem orFlags_fullX (c : Ctx) (fl : Flags) : (c.orFlags fl).fullX = c.fullX := by unfold Ctx.orFlags; split <;> rfl
@[simp] theorem orFlags_fullV (c : Ctx) (fl : Flags) : (c.orFlags fl).fullV = c.fullV := by unfold Ctx.orFlags; split <;> rfl
@[simp] theorem orFlags_poisonV (c : Ctx) (fl : Flags) : (c.orFlags fl).poisonV = c.poisonV := by unfold Ctx.orFlags; split <;> rfl
@[simp] theorem orFlags_getV (c : Ctx) (fl : Flags) (r : Reg) : (c.orFlags fl).getV r = c.getV r := by simp [Ctx.getV]
@[simp] theorem orFlags_vBad (c : Ctx) (fl : Flags) (r : Reg) : (c.orFlags fl).vBad r = c.vBad r := by simp [Ctx.vBad]
theorem orFlags_vflags (c : Ctx) (fl : Flags) : (c.orFlags fl).cr[crVflags] = c.cr[crVflags] ||| fl.setWidth 64 := by
  unfold Ctx.orFlags
  split
  · next h => simp [h]
  · exact Ctx.cr_setCr_self _ _ _

theorem land_v (c : Ctx) (due : Nat) (d : Reg) (v : Row) (en : Mask) (fl : Flags) :
    c.land { due := due, res := .v d v en, flags := fl } =
      if en = BitVec.allOnes 2048 then ((c.orFlags fl).setV d v).markBad d false
      else (c.orFlags fl).setV d (mergeRow en (c.getV d) v) := by
  rw [← orFlags_getV c fl d]
  rfl

theorem markBad_vBad (c : Ctx) (d r : Reg) (b : Bool) : (c.markBad d b).vBad r = if r = d then b else c.vBad r :=
  markX_xFull.setBit64_get c.poisonV d r b

/-! A register file after a write (R15, R16, R103). -/

theorem getV_setV (c : Ctx) (d r : Reg) (v : Row) : (c.setV d v).getV r = if r = d then v else c.getV r := by
  split
  · next h => rw [h, Ctx.getV_setV_self]
  · next h => exact Ctx.getV_setV_ne c d r v h

theorem Ctx.getM_setM_ne (c : Ctx) (r q : MReg) (w : Mask) (h : q ≠ r) : (c.setM r w).getM q = c.getM q := by
  have hne : r.toNat ≠ q.toNat := fun e => h (BitVec.eq_of_toNat_eq e).symm
  unfold Ctx.getM Ctx.setM
  by_cases hr : r = 0
  · rw [if_pos hr]
  · rw [if_neg hr, Vector.getElem_set_ne _ _ hne]

theorem Ctx.getK_setK_ne (c : Ctx) (r q : Tok) (t : Token) (h : q ≠ r) : (c.setK r t).getK q = c.getK q := by
  have hne : r.toNat ≠ q.toNat := fun e => h (BitVec.eq_of_toNat_eq e).symm
  unfold Ctx.getK Ctx.setK
  by_cases hr : r = 0
  · rw [if_pos hr]
  · rw [if_neg hr, Vector.getElem_set_ne _ _ hne]

theorem getM_setM (c : Ctx) (m n : MReg) (w : Mask) :
    (c.setM m w).getM n = if n = 0 then BitVec.allOnes 2048 else if n = m then w else c.getM n := by
  split
  · next h0 => rw [h0]; rfl
  · next h0 =>
    split
    · next h => rw [h] at h0 ⊢; exact Ctx.getM_setM_self c m w h0
    · next h => exact Ctx.getM_setM_ne c m n w h

theorem getK_setK (c : Ctx) (j k : Tok) (t : Token) :
    (c.setK j t).getK k = if k = 0 then {} else if k = j then t else c.getK k := by
  split
  · next h0 => rw [h0]; rfl
  · next h0 =>
    split
    · next h => rw [h] at h0 ⊢; exact Ctx.getK_setK_self c j t h0
    · next h => exact Ctx.getK_setK_ne c j k t h

/-! The one result that a context has pending, of the bundle that is reached. -/

theorem aged_of_pend_single {c : Ctx} {p : Pending} (hp : c.pend = [p]) (hcr : c.crPend = []) (hd : p.due ≤ 1) :
    aged c = { c.land { p with due := 0 } with pend := [], acc := c.acc.map fun a => { a with due := a.due - 1 } } := by
  have hmtc : c.applyMtc = c := by
    unfold Ctx.applyMtc
    rw [hcr, List.foldl_nil, ← hcr]
  have h0 : p.due - 1 = 0 := by omega
  unfold aged
  rw [hmtc, tickPending_eq, hp]
  simp [h0]

section
variable {c : Ctx} {due : Nat} {d : Reg} {v : Row} {en : Mask} {fl : Flags}
  (hp : c.pend = [{ due := due, res := .v d v en, flags := fl }]) (hcr : c.crPend = []) (hd : due ≤ 1)
include hp hcr hd

theorem aged_v_frame : (aged c).pend = [] ∧ (aged c).x = c.x ∧ (aged c).m = c.m ∧ (aged c).k = c.k ∧ (aged c).fullX = c.fullX ∧
    (aged c).fullV = c.fullV := by
  rw [aged_of_pend_single hp hcr hd, land_v]
  split <;> simp

theorem aged_v_getV (r : Reg) : (aged c).getV r =
    if r = d then (if en = BitVec.allOnes 2048 then v else mergeRow en (c.getV d) v) else c.getV r := by
  have hv : (aged c).getV r = (c.land { due := 0, res := .v d v en, flags := fl }).getV r := by
    rw [aged_of_pend_single hp hcr hd]
    rfl
  rw [hv, land_v]
  split
  · exact (getV_setV (c.orFlags fl) d r v).trans (by rw [orFlags_getV])
  · rw [getV_setV, orFlags_getV]

theorem aged_v_vBad (r : Reg) : (aged c).vBad r = if r = d ∧ en = BitVec.allOnes 2048 then false else c.vBad r := by
  have hv : (aged c).vBad r = (c.land { due := 0, res := .v d v en, flags := fl }).vBad r := by
    rw [aged_of_pend_single hp hcr hd]
    rfl
  rw [hv, land_v]
  split
  · next h =>
    rw [markBad_vBad]
    simp only [h, and_true]
    exact if_congr Iff.rfl rfl (orFlags_vBad c fl r)
  · next h =>
    rw [if_neg fun h' => h h'.2]
    exact orFlags_vBad c fl r

theorem aged_v_vflags : (aged c).cr[crVflags] = c.cr[crVflags] ||| fl.setWidth 64 := by
  rw [← orFlags_vflags, aged_of_pend_single hp hcr hd, land_v]
  split <;> rfl

end

/-- Settles O34: the register files by what they hold after a write, the landing by the parts of `land`. -/
theorem registerFiles : Obligations.RegisterFiles := by
  intro c d v
  constructor
  · intro r m n j k x w t
    refine ⟨?_, getV_setV c d r v, getM_setM c m n w, getK_setK c j k t⟩
    rw [getX_setX]
    by_cases h : r = 0
    · rw [if_pos h, if_neg fun h' => h'.2 h, h, Ctx.getX_zero]
    · simp only [h, ne_eq, not_false_eq_true, and_true, if_false]
  · intro due en fl hp hcr hd
    obtain ⟨hpend, hx, hm, hk, hfx, hfv⟩ := aged_v_frame hp hcr hd
    refine ⟨hpend, hx, hm, hk, hfx, hfv, ?others, ?bytes, ?poison, ?flags⟩
    case others =>
      intro r hr
      rw [aged_v_getV hp hcr hd, aged_v_vBad hp hcr hd, if_neg hr, if_neg fun h => hr h.1]
      exact ⟨rfl, rfl⟩
    case bytes =>
      intro b hb
      rw [aged_v_getV hp hcr hd, if_pos rfl]
      split
      · next h => rw [h, BitVec.getLsbD_allOnes, decide_eq_true hb, if_pos rfl]
      · exact mergeRow_bits en _ _ hb
    case poison =>
      rw [aged_v_vBad hp hcr hd]
      by_cases h : en = BitVec.allOnes 2048
      · rw [if_pos ⟨rfl, h⟩, decide_eq_false (not_not_intro h), Bool.and_false]
      · rw [if_neg fun h' => h h'.2, decide_eq_true h, Bool.and_true]
    case flags =>
      intro b hb
      have h : (aged c).cr[0x0D] = c.cr[0x0D] ||| fl.setWidth 64 := aged_v_vflags hp hcr hd
      rw [h, BitVec.getLsbD_or, BitVec.getLsbD_setWidth, decide_eq_true hb, Bool.true_and]

end Sys2Proof.Machine
end

section
/-! The generator (R71, R73): the half-draw bit and the counter as control registers, what each subfunction does to its context, and
what an MTC to the generator's registers leaves (R83). -/

namespace Sys2Proof.Machine

open Sys2Proof.Safety

/-! The generator's state in the control registers (R48, R70). -/

theorem setRgh_true (c : Ctx) : c.setRgh true = { c with cr := c.cr.set 0x0E (c.cr[0x0E] ||| 256#64) } := rfl

/-- A step of the generator to the counter v ends the draw that was half delivered. -/
theorem setCounter_setRgh_false (c : Ctx) (v : BitVec 128) : (c.setCounter v).setRgh false =
    { c with cr := ((c.cr.set 0x12 (v.extractLsb' 64 64)).set 0x11 (v.extractLsb' 0 64)).set 0x0E (c.cr[0x0E] &&& ~~~256#64) } := by
  have hvrm : (c.setCounter v).cr[crVrm] = c.cr[crVrm] :=
    (Ctx.cr_setCr_ne _ crRngcl crVrm _ (by decide)).trans (Ctx.cr_setCr_ne c crRngch crVrm _ (by decide))
  unfold Ctx.setRgh
  rw [hvrm]
  rfl

theorem rget_of_rgh_clear {c : Ctx} (h : c.rgh = false) :
    c.rget = ((draw c.cr[crRngk] c.counter).extractLsb' 0 64, c.setRgh true) := by
  unfold Ctx.rget
  simp [h]

theorem rget_of_rgh_set {c : Ctx} (h : c.rgh = true) :
    c.rget = ((draw c.cr[crRngk] c.counter).extractLsb' 64 64, (c.setCounter (c.counter + 1)).setRgh false) := by
  unfold Ctx.rget
  simp [h]

theorem rget_drain (c : Ctx) : c.rget.2.drain = c.drain := by
  cases h : c.rgh with
  | false => rw [rget_of_rgh_clear h]; rfl
  | true => rw [rget_of_rgh_set h]; rfl

/-- A result on its way and the control registers are apart. -/
theorem addX_withCr (c : Ctx) (w : Vector Word 24) (lat : Nat) (d : Reg) (v : Word) :
    ({ c with cr := w } : Ctx).addX lat d v = { c.addX lat d v with cr := w } := by
  unfold Ctx.addX
  split <;> rfl

/-! The slots. -/

/-- What a slot does is decided by what becomes of the context whose turn it is. -/
theorem does_congr {o : Out} {s : State} {f g : Ctx → Ctx} (h : Does o s f) (e : f (own s) = g (own s)) : Does o s g := by
  obtain ⟨t, ho, hown, hctx⟩ := h
  exact ⟨t, ho, hown, e ▸ hctx⟩

theorem ready_drain_ne_rft {i : Instr} {s : State} {c : Ctx} (h : Ready i s) (hc : c.drain = (own s).drain) : c.drain ≠ .rft := by
  obtain ⟨-, hdrain, -⟩ := h
  rw [hc, hdrain]
  exact fun e => nomatch e

/-- RGET delivers what the generator gives, with latency 2, and leaves the generator's next state. -/
theorem does_rget {s : State} {d : Reg} (h : Ready (.rget d) s) :
    Does (exec (.rget d) s) s fun c => c.rget.2.addX 2 d c.rget.1 :=
  does_onCtx h nofun (ready_drain_ne_rft h ((addX_drain _ _ _ _).trans (rget_drain _)))

theorem does_rget_low {s : State} {d : Reg} (h : Ready (.rget d) s) (hrgh : (own s).rgh = false) :
    Does (exec (.rget d) s) s fun c =>
      { c.addX 2 d ((draw (own s).cr[crRngk] (own s).counter).extractLsb' 0 64) with cr := c.cr.set 0x0E (c.cr[0x0E] ||| 256#64) } := by
  refine does_congr (does_rget h) ?_
  dsimp only
  rw [rget_of_rgh_clear hrgh, setRgh_true, addX_withCr]

theorem does_rget_high {s : State} {d : Reg} (h : Ready (.rget d) s) (hrgh : (own s).rgh = true) {e : BitVec 128}
    (he : (own s).counter + 1 = e) : Does (exec (.rget d) s) s fun c =>
      { c.addX 2 d ((draw (own s).cr[crRngk] (own s).counter).extractLsb' 64 64) with
          cr := ((c.cr.set 0x12 (e.extractLsb' 64 64)).set 0x11 (e.extractLsb' 0 64)).set 0x0E (c.cr[0x0E] &&& ~~~256#64) } := by
  refine does_congr (does_rget h) ?_
  dsimp only
  rw [rget_of_rgh_set hrgh, setCounter_setRgh_false, addX_withCr, he]

theorem does_rskip {s : State} {a b : Reg} {wa wb : Bool} (h : Ready (.rskip a b wa wb) s) {e : BitVec 128}
    (he : (own s).counter + ((own s).getX a ++ (own s).getX b) = e) : Does (exec (.rskip a b wa wb) s) s fun c =>
      { c with cr := ((c.cr.set 0x12 (e.extractLsb' 64 64)).set 0x11 (e.extractLsb' 0 64)).set 0x0E (c.cr[0x0E] &&& ~~~256#64) } := by
  refine does_congr (does_onCtx h nofun (ready_drain_ne_rft h rfl)) ?_
  rw [setCounter_setRgh_false, he]

/-- RSEED's counter is x[B] below a zero half. -/
theorem does_rseed {s : State} {a b : Reg} {wa wb : Bool} (h : Ready (.rseed a b wa wb) s) :
    Does (exec (.rseed a b wa wb) s) s fun c =>
      { c with cr := (((c.cr.set 0x10 ((own s).getX a)).set 0x12 0).set 0x11 ((own s).getX b)).set 0x0E (c.cr[0x0E] &&& ~~~256#64) } := by
  have hb : ((own s).getX b).setWidth 128 = 0#64 ++ (own s).getX b := BitVec.setWidth_eq_append (by decide)
  have hvrm : ((own s).setCr crRngk ((own s).getX a)).cr[crVrm] = (own s).cr[crVrm] := Ctx.cr_setCr_ne _ _ _ _ (by decide)
  refine does_congr (does_onCtx h nofun (ready_drain_ne_rft h rfl)) ?_
  rw [setCounter_setRgh_false, hb, BitVec.extractLsb'_append_eq_left, BitVec.extractLsb'_append_eq_right]
  exact congrArg (fun w => { own s with
    cr := ((((own s).cr.set 0x10 ((own s).getX a)).set 0x12 0).set 0x11 ((own s).getX b)).set 0x0E (w &&& ~~~256#64) }) hvrm

/-! A control register that the bundle's one MTC names (R83, R250). -/

theorem applyMtc_of_single {c : Ctx} {i : Fin 24} {v : Word} (h : c.crPend = [(i.val, v)]) :
    c.applyMtc = ({ c with crPend := [] } : Ctx).writeCr i v := by
  unfold Ctx.applyMtc
  rw [h, List.foldl_cons, List.foldl_nil]
  exact dif_pos i.isLt

/-- Of the register that is written, the bits of its mask take the written value; a reserved mode of VRM is cleared first (R48). -/
theorem cr_writeCr_self (c : Ctx) (i : Fin 24) (v : Word) :
    (c.writeCr i v).cr[i] = mergeBits (crMask i) c.cr[i] (if i = crVrm && 6 ≤ v.bits 0 3 then v &&& ~~~7#64 else v) :=
  Ctx.cr_setCr_self _ _ _

theorem cr_writeCr_ne (c : Ctx) {i j : Fin 24} (v : Word) (h : j ≠ i) : (c.writeCr i v).cr[j] = c.cr[j] :=
  Ctx.cr_setCr_ne _ _ _ _ h

theorem mergeBits_allOnes (old new : Word) : mergeBits (BitVec.allOnes 64) old new = new := by
  rw [mergeBits, BitVec.not_allOnes, BitVec.and_zero, BitVec.zero_or, BitVec.and_allOnes]

theorem mergeBits_getLsbD_of_mask {mask : Word} (old new : Word) {b : Nat} (h : mask.getLsbD b = true) :
    (mergeBits mask old new).getLsbD b = new.getLsbD b := by
  unfold mergeBits
  rw [BitVec.getLsbD_or, BitVec.getLsbD_and, BitVec.getLsbD_and, BitVec.getLsbD_not, h]
  simp

/-- RNGK, RNGCL and RNGCH are written in full. -/
theorem cr_applyMtc_generator {c : Ctx} {i : Fin 24} {v : Word} (hi : i = crRngk ∨ i = crRngcl ∨ i = crRngch)
    (h : c.crPend = [(i.val, v)]) : c.applyMtc.cr[i] = v ∧ c.applyMtc.cr[crVrm] = c.cr[crVrm] := by
  have hmask : crMask i = BitVec.allOnes 64 := by rcases hi with rfl | rfl | rfl <;> rfl
  have hne : crVrm ≠ i := by rcases hi with rfl | rfl | rfl <;> decide
  rw [applyMtc_of_single h]
  constructor
  · rw [cr_writeCr_self, hmask, mergeBits_allOnes, if_neg (by simp [hne.symm])]
  · exact cr_writeCr_ne _ _ hne

/-- RGH is a written bit of VRM, whatever mode is written beside it. -/
theorem rgh_applyMtc_vrm {c : Ctx} {v : Word} (h : c.crPend = [(crVrm.val, v)]) : c.applyMtc.rgh = v.getLsbD 8 := by
  unfold Ctx.rgh
  rw [applyMtc_of_single h, cr_writeCr_self, mergeBits_getLsbD_of_mask _ _ (by decide)]
  split
  · rw [BitVec.getLsbD_and, show (~~~7#64).getLsbD 8 = true from rfl, Bool.and_true]
  · rfl

/-- Settles O12: each subfunction by what it makes of its own context, the MTC by the mask of the register that it names. -/
theorem generatorSlots : Obligations.GeneratorSlots := by
  rintro s d a b wa wb _ _ _ _ rfl rfl rfl rfl
  refine ⟨does_rget_low, ?high, ?skip, does_rseed, ?counterLow, ?counterHigh, fun c v => ⟨?generator, ?vrm⟩⟩
  case high => exact fun h hrgh => does_rget_high h hrgh rfl
  case skip => exact fun h _ he => does_rskip h he
  case counterLow => exact fun h => writesLater_xRes h nofun (by decide)
  case counterHigh => exact fun h => writesLater_xRes h nofun (by decide)
  case generator => exact fun i hi h => cr_applyMtc_generator hi h
  case vrm => exact rgh_applyMtc_vrm

end Sys2Proof.Machine
end

section
/-! Every slot is read back from its words (R76, R77, R85 to R89): the round trips of the single instructions, put together. -/

namespace Sys2Proof

open Laws.RoundTrip in
/-- The round trip holds of every constructor of Instr, in the order in which the type lists them; an event has no word. -/
theorem roundTrip (i : Instr) : Statement i :=
  i.casesOn
    nop rep add sub and or xor andn shl shr sra ror slt sltn seq min max sel mul mulh mulhn div divn rem remn minn maxn clz ffs popc brev
    sext zext addi andi ori xori shli shri srai slti sltni li lis addpc beq bne blt bge bltn bgen jmp jal jr loop quiet tkw waitc bar
    tend slk vadd vsub vmul vfma vfms vfnm vmin vmax vminm vmaxm vabs vneg vsfn vcmp vsel vand vor vxor vshl vshr vsra vcvt vqmx vred
    vscan vperm vbcst vext vins viota vbits vprune vrand vscl vmov vmsk vmcnt mpcw mlw mla mma mman mmab mdr mza mrb mstat ldbs ldbn ldhs
    ldhn ldws ldwn ldd stb sth stw std ldv stv lda stl amog amod amos fence rgmap rgwb rginv wlpsh wlpop wlins cpy cprWrite cprRead crd
    csg gth sct sca spl sps spa spi spd lnch mfc mtc trap sysRft sysHalt sysTlbi sysTlbia sysGsw sysCut sysCeresume sysSrgrow rget rskip
    rseed rctl rcth repRepeat hogRotation stallClear divideComplete loadComplete vextDeferredFill atomicPerform memoryFaultReport
    waitcRecheck barrierRelease tendDrainEnd taskCommit haltDrainEnd matrixCommandStart matrixCommandComplete arrayEnableGrant
    arrayDisable engineCommandStart nbHoldRelease engineCommandComplete enginePark faultRingDrain pageWalkComplete replicatedWrite
    workListOperation workListSpillComplete sparseOperation launchDistribution launchAcceptance launchRefusal phaseStart phaseBegin
    phaseReport taskPlacement tileFillComplete taskBind taskAging groupReservation write read reduce counterAdd acknowledge readData
    parkNotice resumeNotice floor heldRequestRelease requestResend requestTimeout tagQuarantineEnd packetForward packetExpiry
    creditReturn linkResendRequest trainingComplete trainingTimeout retrainingStart retrainingComplete retrainingTimeout beaconSend
    beacon echo alignmentLoss manage cutOpen cutReport cutTarget cutTimeLimit contextSave switchAcceptance switchFreeze sweepFence
    sweepTimeout localSweepComplete tagChange switchResume powerOn seqgo ctxrst quoteNonce quoteComplete routeEntryWrite fstepWrite
    portEnable portDisable counterWrite hostRegisterWrite hostMemoryAccess thermalUpdate powerMonitor saveCompleteReport
    launchAnswerTimeout

/-- Settles O42: each slot by its own round trip (Laws/PerInstr.lean). -/
theorem decodeEncode : Obligations.DecodeEncode := fun i => roundTrip i

end Sys2Proof
end

section
/-! Words written out from the tables of spec/03_encoding.md (R76, R77, R85 to R89). -/

namespace Sys2Proof

/-- Settles O41: each word is the one that its slot encodes to, with or without the stop bit, so that it decodes to the slot. -/
theorem decodeWords : Obligations.DecodeWords := by
  exact ⟨decodeEncode _ false _ rfl, decodeEncode _ true _ rfl, decodeEncode _ false _ rfl, decodeEncode _ true _ rfl,
    decodeEncode _ true _ rfl, decodeEncode _ true _ rfl, decodeEncode _ false _ rfl, decodeEncode _ true _ rfl,
    decodeEncode _ true _ rfl, decodeEncode _ true _ rfl, decodeEncode _ true _ rfl, decodeEncode _ false _ rfl,
    decodeEncode _ true _ rfl⟩

end Sys2Proof
end

section
/-! NOP and REP (R91 to R94): NOP has no effect; REP marks the next slot of its bundle, and stands in none alone. -/

namespace Sys2Proof.Machine

open Sys2Proof.Safety

section
variable (n : BitVec 6) (ds as bs : BitVec 2)

theorem opOf_rep : opOf (.rep n ds as bs) = 1 := by simp [opOf, encode]

theorem cls_rep : cls (.rep n ds as bs) = .n := by rw [cls, opOf_rep]; rfl

theorem placesOk_rep_alone : placesOk [.rep n ds as bs] = false := by
  show ((cls (.rep n ds as bs) != .c || true) && false && true) = false
  rw [Bool.and_false, Bool.false_and]

theorem limitsOk_rep : limitsOk [.rep n ds as bs] = true := by
  simp [limitsOk, countCls, cls_rep]

/-- A REP alone in its bundle is a legal instruction without a target: the rules on places reject it (R80, R92). -/
theorem staticFault_rep_alone (kernel seq : Bool) : staticFault kernel seq none [some (.rep n ds as bs)] = some (.illegalBundle, 0) := by
  have hlegal : illegalSlot seq 0 [some (.rep n ds as bs)] = none := by
    have hwf : (Instr.rep n ds as bs).wf = true := rfl
    have hseq : seqIllegal (.rep n ds as bs) = false := by
      show (match cls (.rep n ds as bs) with | .v | .x => true | _ => false) = false
      rw [cls_rep]
    have hstep : repIllegal [some (.rep n ds as bs)] = false := rfl
    simp only [illegalSlot, hwf, hseq, hstep, Bool.not_true, Bool.and_false, Bool.or_false, Bool.false_eq_true, if_false]
  have hplace : bundleOk none [.rep n ds as bs] = false := by
    rw [bundleOk, show withoutStep none [Instr.rep n ds as bs] = [.rep n ds as bs] from rfl, placesOk_rep_alone,
      Bool.and_false, Bool.false_and, Bool.false_and]
  have hslot : bundleSlot [.rep n ds as bs] = 0 := by
    simp [bundleSlot, upTo, limitsOk_rep, List.find?_cons]
    split <;> rfl
  simp [staticFault, hlegal, hplace, hslot]

/-- In an open bundle REP has the slot after its own issue n more times. -/
theorem exec_rep (s : State) : exec (.rep n ds as bs) s = issue (.rep n ds as bs)
    (fun s => .next { s with iss := { s.iss with repLeft := some n.toNat, repAt := some (s.iss.slot + 1) } }) s := rfl

end

/-- Settles O6: NOP by its empty effect, REP by the mark that it leaves in an open bundle and by the rule on places without one. -/
theorem nopAndRep : Obligations.NopAndRep := by
  intro s n ds as bs
  refine ⟨?nop, ?inBundle, ?alone⟩
  case nop =>
    intro h
    obtain ⟨-, hdrain, -⟩ := id h
    exact does_of h nofun rfl rfl (fun _ _ => rfl) rfl rfl rfl (by rw [id, hdrain]; exact nofun)
  case inBundle => exact fun h => (exec_rep n ds as bs s).trans (issue_open _ h)
  case alone =>
    intro h
    rw [exec_rep, issue_static _ h (staticFault_rep_alone n ds as bs _ _)]
    simp [issueTrap, issueInfo, opOf_rep, own]

end Sys2Proof.Machine
end

section
/-! The order of the checks (R84, R107), where the replay queue is full: such a bundle is held back before the faults decided at issue are
looked for (R397, log entry 8), so that it takes none of them while it waits for room. -/

namespace Sys2Proof.Machine

open Sys2Proof.Safety

/-- Alone, a slot for which the replay queue has no room waits, whatever its operands. -/
theorem issue_held {i : Instr} {s : State} (eff : State → Out) (h : s.iss.isOpen = false)
    (hf : staticFault (own s).kernel (isSeq s.cur) none [some i] = none) (hs : stalls s s.cur [i] 0 = false)
    (hp : pathFull (own s) [i] = true) : issue i eff s = .next s := by
  unfold own at hf hp
  unfold issue judge
  rw [if_neg (by simp [h])]
  simp only [hf, hs, hp, if_true, Bool.false_eq_true, if_false]

/-- A trap that finds no frame to write is a Double Fault: it changes the state of its context. -/
theorem takeTrap_st_of_noFrame {s : State} {n : Nat} {t : TrapInfo} (h : s.noFrame n = true) :
    ∃ u, takeTrap s n t = .next u ∧ (u.ctxAt n).st = .doubleFault := by
  refine ⟨s.doubleFault n t, by rw [takeTrap, if_pos h], ?_⟩
  have hctxs : (s.doubleFault n t).ctxs = (s.modCtx n fun c => { c with st := .doubleFault }).ctxs := by
    unfold State.doubleFault State.addRecord State.failCtx State.failTask
    rw [State.modDie_ctxs]
    split
    · split <;> rfl
    · rfl
  unfold State.ctxAt
  rw [hctxs]
  exact congrArg Ctx.st (State.ctxAt_modCtx_self s n _)

namespace HeldFault

/-- A load from the address −8, which is not canonical. -/
def load : Instr := .ldd 1 0 false 0x7FF

/-- A context with 32 loads outstanding, as many as the replay queue holds; frames are off. -/
def state : State := { ctxs := [(0, { st := .selected, acc := List.replicate 32 { sn := 0, ins := .ldd 1 0 false 0 } })] }

theorem static_none : staticFault (own state).kernel (isSeq state.cur) none [some load] = none := by decide

theorem no_stall : stalls state state.cur [load] 0 = false := by decide

theorem path_full : pathFull (own state) [load] = true := by decide

theorem late_fault : ∃ t, lateFault state state.cur (own state).pc 1 0 [load] = some t ∧ t.cause = .nonCanonical := ⟨_, rfl, rfl⟩

theorem exec_load : exec load state = issue load (loadEff load 0 0x7FF 8) state := rfl

end HeldFault

/-- Refutes O35: with the replay queue full, a load from a non-canonical address is held back and takes no trap. The last clause of the
statement leaves out that the path has room (`issue_late` states it with that premise). -/
theorem not_checksInOrder : ¬ Obligations.ChecksInOrder := by
  intro h
  obtain ⟨-, halone⟩ := h HeldFault.state HeldFault.load rfl
  obtain ⟨-, -, hlate⟩ := halone rfl none HeldFault.static_none
  obtain ⟨t, ht, -⟩ := HeldFault.late_fault
  have htrap := hlate rfl HeldFault.no_stall nofun t ht
  have hheld : exec HeldFault.load HeldFault.state = .next HeldFault.state :=
    HeldFault.exec_load.trans (issue_held _ rfl HeldFault.static_none HeldFault.no_stall HeldFault.path_full)
  obtain ⟨u, hu, hst⟩ := takeTrap_st_of_noFrame (s := HeldFault.state) (n := 0) (t := t) (by decide)
  have hsame : HeldFault.state = u := Host.Outcome.next.inj (hheld.symm.trans (htrap.trans hu))
  rw [← hsame] at hst
  exact absurd hst (by decide)

end Sys2Proof.Machine
end

section
/-! PROOFS. spec/03_encoding.md, R76, R79, R83: what a step of the schedule runs. -/

namespace Sys2Proof.Machine

open Sys2Proof.Safety

/-! Words read from memory. -/

theorem memReadN_lt (m : Mem) : ∀ (n a : Nat), memReadN m a n < 256 ^ n
  | 0, _ => Nat.one_pos
  | n + 1, a => by
    have hb := (memGet m a).isLt
    have ih := memReadN_lt m n (a + 1)
    rw [memReadN, Nat.pow_succ]
    omega

theorem memReadN_add (m : Mem) : ∀ (k n a : Nat), memReadN m a (k + n) = memReadN m a k + 256 ^ k * memReadN m (a + k) n
  | 0, n, a => by simp [memReadN]
  | k + 1, n, a => by
    rw [Nat.succ_add, memReadN, memReadN_add m k n (a + 1), memReadN, Nat.pow_succ, Nat.add_right_comm a 1 k, Nat.add_assoc a k 1]
    ring

/-- The half of an aligned word that holds an aligned slot word is the four bytes there. -/
theorem memWord_bits_slot (m : Mem) (key : Nat) (h : key % 4 = 0) :
    (memWord m (key / 8 * 8)).bits (8 * (key % 8)) 32 = memReadN m key 4 := by
  have hlow := memReadN_lt m 4 (key / 8 * 8)
  have hhigh := memReadN_lt m 4 (key / 8 * 8 + 4)
  have hsplit : memReadN m (key / 8 * 8) 8 = _ := memReadN_add m 4 4 (key / 8 * 8)
  have hbits : (memWord m (key / 8 * 8)).bits (8 * (key % 8)) 32 =
      memReadN m (key / 8 * 8) 8 % 2 ^ 64 / 2 ^ (8 * (key % 8)) % 2 ^ 32 := by
    rw [memWord, BitVec.bits, BitVec.toNat_ofNat, Nat.shiftRight_eq_div_pow]
  obtain h0 | h4 : key % 8 = 0 ∨ key % 8 = 4 := by omega
  · have e : key = key / 8 * 8 := by omega
    rw [hbits, h0, hsplit]
    conv_rhs => rw [e]
    norm_num at hlow hhigh ⊢
    omega
  · have e : key = key / 8 * 8 + 4 := by omega
    rw [hbits, h4, hsplit]
    conv_rhs => rw [e]
    norm_num at hlow hhigh ⊢
    omega

/-! Fetching. -/

theorem ctxAt_hit (s : State) (unit job va n : Nat) : (s.hit unit job va).ctxAt n = s.ctxAt n := by
  unfold State.hit
  dsimp only
  split
  · split <;> rfl
  · rfl

theorem view_of_nothing_pending {s : State} (n key : Nat) (hpw : s.pw = []) (hrw : s.rw = []) (huo : s.uo = []) :
    s.view n key = memWord s.mem key := by
  simp [State.view, State.viewBy, hpw, hrw, huo]

theorem isPoison_of_no_poison {s : State} (n key : Nat) (h : s.poison = []) : s.isPoison n key = false := by
  simp [State.isPoison, State.isPoisonBy, h, natIn]

/-- A hit leaves every part of the state but the unit. -/
theorem hit_eq (s : State) (unit job va : Nat) : s.hit unit job va = { s with units := (s.hit unit job va).units } := by
  unfold State.hit
  dsimp only
  split
  · split <;> rfl
  · rfl

/-- A word is fetched through a held leaf: the four bytes at its place, and the leaf is the most recently used (R306). -/
theorem fetchWord_hit {s : State} {n : Nat} {va : Word} {e : Tlb} {p : Piece} {w : SlotWord}
    (hva : va.toNat < 2 ^ 57) (hf : (s.unitAt (unitOf n)).find (s.ctxAt n).job va.toNat = some e)
    (hl : checkLeaf s e.leaf e.size va.toNat 4 { kernel := (s.ctxAt n).kernel, fetch := true } = .ok p) (hk : p.key % 4 = 0)
    (hpw : s.pw = []) (hrw : s.rw = []) (huo : s.uo = []) (hpo : s.poison = []) (hw : memReadN s.mem p.key 4 = w.toNat) :
    s.fetchWord n va = (s.hit (unitOf n) (s.ctxAt n).job va.toNat, .ok w) := by
  have hc : va.bits 57 7 = 0 := by
    rw [BitVec.bits, Nat.shiftRight_eq_div_pow, Nat.div_eq_of_lt hva, Nat.zero_mod]
  have ht : s.translate (unitOf n) (s.ctxAt n).job (s.ctxAt n).root va.toNat 4 { kernel := (s.ctxAt n).kernel, fetch := true } =
      (s.hit (unitOf n) (s.ctxAt n).job va.toNat, .ok (e.leaf, p)) := by
    unfold State.translate
    simp only [hf, hl]
    rfl
  have hh := hit_eq s (unitOf n) (s.ctxAt n).job va.toNat
  unfold State.fetchWord
  simp only [hc, ht]
  generalize s.hit (unitOf n) (s.ctxAt n).job va.toNat = v at hh
  have hpo' : v.poison = [] := by rw [hh]; exact hpo
  rw [isPoison_of_no_poison n _ hpo', view_of_nothing_pending n _ (by rw [hh]; exact hpw) (by rw [hh]; exact hrw) (by rw [hh]; exact huo),
    memWord_bits_slot _ _ hk]
  have hm : v.mem = s.mem := by rw [hh]
  rw [hm, hw, BitVec.ofNat_toNat]
  simp

/-- A bundle that is one word. -/
theorem fetchBundle_one {s t : State} {n : Nat} {w : SlotWord} (h : s.fetchWord n (s.ctxAt n).pc = (t, .ok w)) (hs : stopBit w = true) :
    fetchBundle s n = (t, .ok [w]) := by
  unfold fetchBundle fetchFrom
  simp only [h, hs, if_true]
  simp [hs]

/-! The issue of what was fetched. -/

/-- A fetched bundle of one instruction word, outside a REP, is that slot's instruction. -/
theorem issueNext_one {run : Instr → State → Out} {s t : State} {n : Nat} {w : SlotWord} {i : Instr}
    (hf : fetchBundle s n = (t, .ok [w])) (hd : decode w = .ok i) (hr : (t.ctxAt n).repOn = false) (hs : (t.ctxAt n).stepover = none) :
    issueNext run s n = run i t := by
  have hw : slotsOf [w] = [some i] := by rw [slotsOf, List.map_singleton, hd]; rfl
  unfold issueNext
  simp only [hf, hr, hs, steppedWords, Bool.false_and, Bool.false_eq_true, if_false, hw]

/-- The check of the words passed, the bundle is judged. -/
theorem issueNext_many {run : Instr → State → Out} {s t t' : State} {n : Nat} {words : List SlotWord} {l : List Instr}
    (hf : fetchBundle s n = (t, .ok words)) (hl : slotsOf words = l.map some) (h2 : 2 ≤ l.length)
    (hr : (t.ctxAt n).repOn = false) (hs : (t.ctxAt n).stepover = none) (hrep : findRep 0 words = none)
    (hlast : ∀ i, i ∈ l → lastToAct i = false) (hst : staticFault (t.ctxAt n).kernel (isSeq n) none (l.map some) = none)
    (hj : judge t n (t.ctxAt n).pc words.length 0 l 0 = (t', .go)) :
    issueNext run s n = andThen (runSlots run l.zipIdx (openBundle t' (t.ctxAt n).pc words.length 0 0 none)) closeBundle := by
  have hmany : issueNext run s n = issueMany run t n words (l.map some) := by
    unfold issueNext
    simp only [hf, hr, hs, steppedWords, Bool.false_and, Bool.false_eq_true, if_false, hl]
    split
    · next h => exact absurd (congrArg List.length h) (by simp; omega)
    · rfl
  have hfirst : (l.zipIdx.filter fun p => !lastToAct p.1) = l.zipIdx :=
    List.filter_eq_self.mpr fun p hp => by simp [hlast p.1 (List.fst_mem_of_mem_zipIdx hp)]
  have hnone : (l.zipIdx.filter fun p => lastToAct p.1) = [] :=
    List.filter_eq_nil_iff.mpr fun p hp => by simp [hlast p.1 (List.fst_mem_of_mem_zipIdx hp)]
  rw [hmany]
  unfold issueMany staticTrap issueAll
  simp only [hs, hst, Option.map_none, List.filterMap_map, Function.comp_def, id, List.filterMap_some, hj, hrep, hfirst, hnone,
    List.append_nil]
  rfl

/-- A selected context that nothing claims at its boundary issues its next bundle. -/
theorem issueStep_of_mayIssue {run : Instr → State → Out} {s : State} {n : Nat}
    (hst : (s.ctxAt n).st = .ready ∨ (s.ctxAt n).st = .selected) (hb : boundary s n = none) (hm : s.mayIssue n = true)
    (hd : (s.ctxAt n).drain = .none) : issueStep run s n = issueNext run { s.select n with cur := n } n := by
  unfold issueStep
  simp only [hb, hm, hd, Bool.not_true, Bool.false_eq_true, if_false, if_true]
  rw [if_pos (by simpa [or_assoc] using Or.inl hst)]

theorem ctxAt_select (s : State) (n : Nat) : (s.select n).ctxAt n = { s.ctxAt n with st := .selected } := by
  unfold State.select
  dsimp only
  split <;> simp

/-- Selecting a context changes the contexts and the cores alone. -/
theorem select_eq (s : State) (n : Nat) : s.select n = { s with ctxs := (s.select n).ctxs, cores := (s.select n).cores } := by
  unfold State.select
  dsimp only
  split <;> rfl

theorem step_of_sched {s : State} {m : Move} {rest : List Move} (h : s.sched = m :: rest) :
    Machine.step s = doPick Machine.exec m.pick ({ s with sched := rest }.pass m.dt) := by
  unfold Machine.step
  rw [h]

/-- Settles O44: an event that is due is its own exec; an issue runs the fetched slot, or each slot of the fetched bundle in turn. -/
theorem stepRunsDecoded : Obligations.StepRunsDecoded := by
  unfold Obligations.StepRunsDecoded
  intro s u v m rest hs hu
  constructor
  · intro i hi hp
    rw [step_of_sched hs, hu, hp]
    show (if (encode i).isSome then _ else _) = _
    rw [hi]
    rfl
  intro ag n c hp hn hc hst hd hr ho hb hm hv
  have hstep : Machine.step s = issueNext Machine.exec v n := by
    rw [step_of_sched hs, hu, hp, ← hv, ← issueStep_of_mayIssue (.inr (hc ▸ hst)) hb hm (hc ▸ hd), ← hn]
    rfl
  have hvc : v.ctxAt n = c := by
    have h := ctxAt_select u n
    rw [hc, ← hst] at h
    rw [← hv]
    exact h
  have hve : v = { u with ctxs := v.ctxs, cores := v.cores, cur := n } := by
    rw [← hv]
    conv_lhs => rw [select_eq]
  rw [hstep]
  constructor
  · intro i w e p hf hva hl hk hpw hrw huo hpo hw hsb hdec
    have hfw : v.fetchWord n (v.ctxAt n).pc = (v.hit (unitOf n) c.job c.pc.toNat, .ok w) := by
      rw [← hvc] at hf hva hl ⊢
      exact fetchWord_hit (e := e) (p := p) hva (by rw [hve] at hf ⊢; exact hf) (by rw [hve] at hl ⊢; exact hl) hk (by rw [hve]; exact hpw)
        (by rw [hve]; exact hrw) (by rw [hve]; exact huo) (by rw [hve]; exact hpo) (by rw [hve]; exact hw)
    refine issueNext_one (fetchBundle_one hfw hsb) hdec ?_ ?_
    · rw [ctxAt_hit, hvc, hr]
    · rw [ctxAt_hit, hvc, ho]
  · intro words l t hf hl h2 hr' ho' hpc hrep hlast hst' t' hj
    rw [← hpc] at hj ⊢
    exact issueNext_many hf hl h2 hr' ho' hrep hlast hst' hj

end Sys2Proof.Machine
end

section
/-! PROOFS. spec/03_encoding.md R93, R94; spec/04_scalar.md, spec/05_vector.md, spec/16_scheduling.md, spec/20_traps.md: the events of one
context. -/

namespace Sys2Proof.Machine

open Sys2Proof.Safety

/-! The repeats of a REP. -/

/-- The context after a repeat of a REP: aged, REPC counted down, at the bundle until the last repeat (R93, R94). -/
theorem closedCtx_repeat {i : Iss} {c : Ctx} {left : Nat} (hl : i.repLeft = some left) (hd : c.drain = .none) :
    (closedCtx i c).repc = left % 2 ^ 64 % 2 ^ 7 ∧ (closedCtx i c).repOn = (left != 0) ∧ (left ≠ 0 → (closedCtx i c).pc = i.pc) ∧
      (closedCtx i c).drain = .none ∧ (closedCtx i c).x = (aged c).x ∧ (closedCtx i c).v = (aged c).v ∧ (closedCtx i c).m = (aged c).m ∧
      (closedCtx i c).pend = (aged c).pend := by
  have hb : ((aged c).setCr crRepc (wordOfNat left)).repc = left % 2 ^ 64 % 2 ^ 7 := by
    show ((aged c).cr.set crRepc.val (wordOfNat left) crRepc.isLt)[crRepc.val].bits 0 7 = _
    rw [Vector.getElem_set_self]
    rfl
  have hbd : ((aged c).setCr crRepc (wordOfNat left)).drain = .none := (aged_drain c).trans hd
  have hf := goOn_frame i left ((aged c).setCr crRepc (wordOfNat left))
  have hpc : left ≠ 0 → (goOn i left ((aged c).setCr crRepc (wordOfNat left))).2 = i.pc := by
    intro h
    unfold goOn
    rw [if_pos (by simpa using h)]
  unfold closedCtx
  simp only [hl, Option.isSome_some, if_true, Option.getD_some]
  rw [← aged]
  generalize goOn i left ((aged c).setCr crRepc (wordOfNat left)) = r at hf hpc ⊢
  obtain ⟨u, p⟩ := r
  dsimp only at hf hpc ⊢
  have hd : u.drain = .none := by rw [hf]; exact hbd
  refine ⟨(congrArg Ctx.repc hf).trans hb, trivial, fun h => ?_, hd, ?_, ?_, ?_, ?_⟩
  · rw [hd, hpc h]
    rfl
  all_goals
    rw [hf]
    rfl

/-- A repeat whose checks pass issues its target alone, in an open bundle, and ends it. -/
theorem issueRepeat_of_judge {run : Instr → State → Out} {s s' : State} {n len k cnt j : Nat} {w : SlotWord} {i : Instr}
    (hd : decode w = .ok i) (hst : staticFault (s.ctxAt n).kernel (isSeq n) none [some i] = none)
    (hj : judge s n (s.ctxAt n).pc 1 0 [i] j = (s', .go)) :
    issueRepeat run s n len k cnt j w =
      andThen (runSlots run [(i, k + 1)] { s' with iss := { (openBundle s' (s.ctxAt n).pc len (k + 1) j (some (cnt - j))).iss with
        repAt := some (k + 1) } }) closeBundle := by
  have hw : slotsOf [w] = [some i] := by rw [slotsOf, List.map_singleton, hd]; rfl
  unfold issueRepeat staticTrap
  simp only [hw, hst, Option.map_none, List.filterMap_cons, List.filterMap_nil, id, hj]
  rfl

theorem stepped_none (words : List SlotWord) : steppedWords none words = words := rfl

/-- In the middle of a REP, the next bundle is the next repeat. -/
theorem issueNext_repeat {run : Instr → State → Out} {s t : State} {n k cnt ds as bs : Nat} {words : List SlotWord} {w : SlotWord}
    (hf : fetchBundle s n = (t, .ok words)) (hr : (t.ctxAt n).repOn = true) (hc : (t.ctxAt n).repc ≠ 0) (hs : (t.ctxAt n).stepover = none)
    (hrep : findRep 0 words = some (k, cnt, ds, as, bs, w)) :
    issueNext run s n = issueRepeat run t n words.length k cnt (cnt + 1 - (t.ctxAt n).repc) (stepWord w (cnt + 1 - (t.ctxAt n).repc) ds as bs) := by
  unfold issueNext
  simp only [hf, hr, hs, stepped_none, Bool.true_and, bne_iff_ne, ne_eq, hc, not_false_eq_true, if_true, hrep]

/-- A repeat whose target changes nothing but its context, as f says, ends with that context closed. -/
theorem closeBundle_modCtx {s : State} {i : Iss} {f : Ctx → Ctx} {left : Nat} (hl : i.repLeft = some left) (hp : i.post = none)
    (hd : (f (s.ctxAt s.cur)).drain = .none) :
    ∃ t, closeBundle ({ s with iss := i }.modCtx s.cur f) = .next t ∧ OnlyOwn s t ∧ t.ctxAt s.cur = closedCtx i (f (s.ctxAt s.cur)) := by
  have hc : (closed ({ s with iss := i }.modCtx s.cur f)).ctxAt s.cur = closedCtx i (f (s.ctxAt s.cur)) := by
    have h := closed_ctxAt ({ s with iss := i }.modCtx s.cur f)
    exact h.trans (congrArg (closedCtx i) (State.ctxAt_modCtx_self _ _ _))
  have hdr : ((closed ({ s with iss := i }.modCtx s.cur f)).ctxAt s.cur).drain = .none := by
    rw [hc]
    obtain ⟨-, -, -, h, -⟩ := closedCtx_repeat hl hd
    exact h
  refine ⟨closed ({ s with iss := i }.modCtx s.cur f), ?_, ?_, hc⟩
  · refine (closeBundle_next hp fun h => ?_).trans (congrArg Host.Outcome.next (if_pos hdr))
    exact absurd (hdr.symm.trans h) (by decide)
  · exact closed_onlyOwn rfl fun k hk => State.ctxAt_modCtx_ne { s with iss := i } s.cur k f hk

/-- A repeat of a REP, chosen and checked, leaves the context that its target makes, closed (R93, R94). -/
theorem repRepeat_of_judge {s u : State} {n k cnt ds as bs : Nat} {words : List SlotWord} {w : SlotWord} {i : Instr} {f : Ctx → Ctx}
    (hr : (s.ctxAt n).repOn = true) (hs : (s.ctxAt n).stepover = none) (h0 : (s.ctxAt n).repc ≠ 0)
    (hst : (s.ctxAt n).st = .ready ∨ (s.ctxAt n).st = .selected) (hb : boundary s n = none) (hm : s.mayIssue n = true)
    (hu : { s.select n with cur := n } = u) (hf : fetchBundle u n = (u, .ok words)) (hrep : findRep 0 words = some (k, cnt, ds, as, bs, w))
    (hdec : decode (stepWord w (cnt + 1 - (s.ctxAt n).repc) ds as bs) = .ok i)
    (hstat : staticFault (s.ctxAt n).kernel (isSeq n) none [some i] = none)
    (hj : judge u n (s.ctxAt n).pc 1 0 [i] (cnt + 1 - (s.ctxAt n).repc) = (u, .go))
    (hrun : ∀ v, v.iss.isOpen = true → execSlot i v = .next (v.modCtx v.cur f)) (hfd : ∀ d, (f d).drain = d.drain)
    (hd : (s.ctxAt n).drain = .none) :
    ∃ t iss, repRepeat execSlot s n = .next t ∧ OnlyOwn u t ∧ t.ctxAt n = closedCtx iss (f { s.ctxAt n with st := .selected }) ∧
      iss.repLeft = some (cnt - (cnt + 1 - (s.ctxAt n).repc)) ∧ iss.pc = (s.ctxAt n).pc := by
  have huc : u.ctxAt n = { s.ctxAt n with st := .selected } := by rw [← hu]; exact ctxAt_select s n
  have hcur : u.cur = n := by rw [← hu]
  have hnext : repRepeat execSlot s n = issueNext execSlot u n := by
    unfold repRepeat
    rw [if_pos (by simp [hr, h0]), issueStep_of_mayIssue hst hb hm hd, hu]
  have hrepc : (u.ctxAt n).repc = (s.ctxAt n).repc := by rw [huc]; rfl
  have hpc : (u.ctxAt n).pc = (s.ctxAt n).pc := by rw [huc]
  rw [hnext, issueNext_repeat hf (by rw [huc]; exact hr) (by rw [hrepc]; exact h0) (by rw [huc]; exact hs) hrep, hrepc,
    issueRepeat_of_judge hdec (by rw [huc]; exact hstat) (by rw [hpc]; exact hj), hpc]
  generalize hi : ({ (openBundle u (s.ctxAt n).pc words.length (k + 1) (cnt + 1 - (s.ctxAt n).repc)
    (some (cnt - (cnt + 1 - (s.ctxAt n).repc)))).iss with repAt := some (k + 1) } : Iss) = iss
  have hopen : iss.isOpen = true := by rw [← hi]; rfl
  have hslot : ({ iss with slot := k + 1 } : Iss) = iss := by rw [← hi]; rfl
  have hrunSlots : runSlots execSlot [(i, k + 1)] { u with iss := iss } = .next ({ u with iss := iss }.modCtx u.cur f) := by
    show andThen (execSlot i { u with iss := { iss with slot := k + 1 } }) _ = _
    rw [hslot, hrun _ hopen]
    rfl
  obtain ⟨t, ht, hown, htc⟩ := closeBundle_modCtx (s := u) (i := iss) (f := f) (left := cnt - (cnt + 1 - (s.ctxAt n).repc))
    (by rw [← hi]; rfl) (by rw [← hi]; rfl) (by rw [hcur, hfd, huc]; exact hd)
  rw [hcur, huc] at htc
  refine ⟨t, iss, ?_, hown, htc, by rw [← hi]; rfl, by rw [← hi]; rfl⟩
  rw [hrunSlots]
  exact ht

/-! Rotation (R14, R361). -/

theorem nextReady_isSome {s : State} {core j : Nat} (hj : j < 4) (h : (s.ctxAt (4 * core + j)).st = .ready) :
    (s.nextReady core).isSome = true := by
  have hk : ∃ k, k ∈ [1, 2, 3, 4] ∧ ((s.coreAt core).last + k) % 4 = j := by
    have : j = ((s.coreAt core).last + 1) % 4 ∨ j = ((s.coreAt core).last + 2) % 4 ∨ j = ((s.coreAt core).last + 3) % 4 ∨
        j = ((s.coreAt core).last + 4) % 4 := by omega
    obtain h | h | h | h := this
    · exact ⟨1, by decide, h.symm⟩
    · exact ⟨2, by decide, h.symm⟩
    · exact ⟨3, by decide, h.symm⟩
    · exact ⟨4, by decide, h.symm⟩
  obtain ⟨k, hk, hkj⟩ := hk
  unfold State.nextReady
  rw [List.find?_isSome]
  exact ⟨j, List.mem_map.mpr ⟨k, hk, hkj⟩, by rw [ctxOfCore]; simpa using h⟩

/-- The quantum of the selected context is over: it is Ready, and its core selects anew. -/
theorem rotate_of_due {s : State} {core i : Nat} (hs : (s.coreAt core).sel = some i) (hst : (s.ctxAt (4 * core + i)).st = .selected)
    (hc : 1024 ≤ (s.coreAt core).count) (hh : (s.ctxAt (4 * core + i)).hog = false) (hr : (s.nextReady core).isSome = true) :
    s.rotate core = (s.modCtx (4 * core + i) fun c => { c with st := .ready }).modCore core fun k =>
      { k with sel := none, last := i, count := 0 } := by
  have hsel : s.selected core = some i := by
    unfold State.selected
    rw [hs]
    simp [ctxOfCore, hst]
  have hdue : s.rotationDue core = true := by
    unfold State.rotationDue
    simp [hsel, ctxOfCore, hc, hh, hr]
  unfold State.rotate
  rw [if_pos hdue, hsel]
  rfl

/-! The divider and VEXT (R116, R102). -/

theorem whenGoing_of_goes {s : State} {n : Nat} (f : State → State) (h : (s.ctxAt n).st ≠ .frozen) : s.whenGoing n f = f s := by
  unfold State.whenGoing State.goes
  rw [if_pos (by simpa using h)]

/-- The divider's result fills its register. -/
theorem divideDone_of_waiting {s : State} {n sn : Nat} {a : Access} {d : Reg} (hf : (s.ctxAt n).findAcc sn = some a)
    (hi : isDivide a.ins = true) (ht : a.since + 6 ≤ s.now) (hv : accDestV a.ins = none) (hx : accDestX a.ins = some d) :
    divideDone s n sn = s.modCtx n fun c => ((c.setX d (divResult a.ins a.va a.vb)).markX d true).dropAcc sn := by
  unfold divideDone
  rw [hf]
  simp only [hi, ht, decide_true, Bool.and_self, if_true]
  unfold Ctx.fillAccess
  simp only [hv, hx]

/-- A VEXT that may fill its register fills it with the lane it took. -/
theorem vextDone_of_due {s : State} {n sn : Nat} {a : Access} {d src : Reg} {i : Reg} {t : ETy} {v : Word}
    (hf : (s.ctxAt n).findAcc sn = some a) (hi : a.ins = .vext d src i t) (hg : a.st = .got v) (hd : vextDue s n a d = true) :
    vextDone s n sn = s.modCtx n fun c => ((c.setX d v).markX d true).dropAcc sn := by
  unfold vextDone
  rw [hf]
  simp only [hi, hg, hd, if_true]

/-! Stalled contexts (R137, R128). -/

/-- A stalled context that nothing holds is Ready again. -/
theorem stallClear_of_free {s : State} {n rep : Nat} {l : List Instr} (hst : (s.ctxAt n).st = .stalled) (hd : (s.ctxAt n).drain = .none)
    (hp : peekSlots s n = (s, some (l, rep))) (hs : stalls s n l rep = false) (hw : waitsOnWord s n l = false) :
    stallClear s n = .next (s.modCtx n fun c => { c with st := .ready }) := by
  unfold stallClear
  simp [hst, hd, hp, hs, hw]

theorem mapSet_mapSet {α : Type} (n : Nat) (x y : α) : ∀ l : List (Nat × α), mapSet (mapSet l n x) n y = mapSet l n y
  | [] => by simp [mapSet]
  | (k, v) :: t => by
    by_cases h1 : n < k
    · simp [mapSet, h1]
    · by_cases h2 : n = k
      · simp [mapSet, h2]
      · simp [mapSet, h1, h2, mapSet_mapSet n x y t]

theorem modCtx_modCtx (s : State) (n : Nat) (f g : Ctx → Ctx) : (s.modCtx n f).modCtx n g = s.modCtx n fun c => g (f c) := by
  show (s.modCtx n f).setCtx n (g ((s.modCtx n f).ctxAt n)) = _
  rw [State.ctxAt_modCtx_self]
  show ({ s with ctxs := mapSet (mapSet s.ctxs n (f (s.ctxAt n))) n (g (f (s.ctxAt n))) } : State) = _
  rw [mapSet_mapSet]
  rfl

theorem pathFull_waitc (c : Ctx) (a b : Reg) (wa wb : Bool) (sc : Scope) (k : WCond) : pathFull c [.waitc a b wa wb sc k] = false := by
  have h1 : replays (.waitc a b wa wb sc k) = false := rfl
  have h2 : isStvIns (.waitc a b wa wb sc k) = false := rfl
  simp [pathFull, h1, h2]

/-- What a WAITC alone is judged by: its read of the word, then the later checks (R84, R128, R129). -/
theorem judge_waitc {s : State} {n : Nat} {pc : Word} {a b : Reg} {wa wb : Bool} {sc : Scope} {k : WCond}
    (hs : stalls s n [.waitc a b wa wb sc k] 0 = false) (hsat : (s.ctxAt n).satisfied = false)
    (h6 : step6 (s.ctxAt n) (.waitc a b wa wb sc k) = none) :
    (waitRead s n ((s.ctxAt n).getX a) ((s.ctxAt n).getX b) k = (s, .no) → judge s n pc 1 0 [.waitc a b wa wb sc k] 0 = (s, .stall)) ∧
    (waitRead s n ((s.ctxAt n).getX a) ((s.ctxAt n).getX b) k = (s, .yes) → ∃ v, v ≠ .stall ∧
      judge s n pc 1 0 [.waitc a b wa wb sc k] 0 = ((s.acquire n (scopeCode sc)).modCtx n fun c => { c with satisfied := true }, v)) := by
  constructor <;> intro hr
  · unfold judge
    rw [if_neg (by simp [hs]), if_neg (by simp [pathFull_waitc])]
    simp only [List.getLast?_singleton, hsat, h6, hr, Bool.false_eq_true, if_false]
  · unfold judge
    rw [if_neg (by simp [hs]), if_neg (by simp [pathFull_waitc])]
    simp only [List.getLast?_singleton, hsat, h6, hr, Bool.false_eq_true, if_false]
    split
    · exact ⟨_, Verdict.noConfusion, rfl⟩
    · exact ⟨_, Verdict.noConfusion, rfl⟩

/-- A stalled context that waits on its WAITC alone reads the word again. -/
theorem waitRecheck_of_judge {s : State} {n : Nat} {a b : Reg} {wa wb : Bool} {sc : Scope} {k : WCond} {t : State} {v : Verdict}
    (hst : (s.ctxAt n).st = .stalled) (hd : (s.ctxAt n).drain = .none) (hsat : (s.ctxAt n).satisfied = false)
    (hp : peekSlots s n = (s, some ([.waitc a b wa wb sc k], 0))) (hs : stalls s n [.waitc a b wa wb sc k] 0 = false)
    (hj : judge s n (s.ctxAt n).pc 1 0 [.waitc a b wa wb sc k] 0 = (t, v)) :
    waitRecheck s n = if v = .stall then .next t else .next (t.modCtx n fun c => { c with st := .ready }) := by
  have hw : waitsOnWord s n [.waitc a b wa wb sc k] = true := by
    unfold waitsOnWord
    simp only [List.getLast?_singleton, hsat, hs]
    rfl
  unfold waitRecheck
  simp only [hst, hd, hp, hw, List.length_singleton, hj]
  cases v <;> rfl

/-! Faults reported by the memory path (R193, R394). -/

/-- At a boundary that no freeze and no stop point claims, the earliest reported fault traps. -/
theorem faultReport_of_faulted {s : State} {n : Nat} {e : Access} {l : List Access} {cause : Cause} {addr : Word} {part : Bool}
    (hst : (s.ctxAt n).st = .ready ∨ (s.ctxAt n).st = .selected ∨ (s.ctxAt n).st = .stalled) (hfr : s.freezeDue n = false)
    (hsp : (s.ctxAt n).stopPoint = false) (ha : (s.ctxAt n).acc = e :: l) (he : e.st = .faulted cause addr part) :
    faultReport s n = takeTrap s n (faultTrap (s.ctxAt n) e) := by
  have hff : firstFaulted (s.ctxAt n).acc = some e := by
    rw [ha]
    unfold firstFaulted
    rw [he]
  have hb : boundary s n = some (takeTrap s n (faultTrap (s.ctxAt n) e)) := by
    unfold boundary
    simp only [hfr, hsp, hff, Bool.false_eq_true, Bool.false_and, if_false]
  unfold faultReport
  rw [hb]
  simp [hst, or_assoc]

theorem takeTrap_next (s : State) (n : Nat) (t : TrapInfo) : ∃ u, takeTrap s n t = .next u := by
  unfold takeTrap
  split
  · exact ⟨_, rfl⟩
  · exact ⟨_, rfl⟩

theorem opOf_lt (i : Instr) : opOf i < 128 := by
  unfold opOf
  cases encode i with
  | none => decide
  | some w => exact Nat.mod_lt _ (by decide)

/-- TINFO of a fault reported by the memory path (R255). -/
theorem reportedInfo_fields (i : Instr) (part : Bool) :
    (wordOfNat (ofBoolNat part <<< 13 + opOf i <<< 6)).bits 0 6 = 0 ∧ (wordOfNat (ofBoolNat part <<< 13 + opOf i <<< 6)).bits 6 7 = opOf i ∧
      (wordOfNat (ofBoolNat part <<< 13 + opOf i <<< 6)).getLsbD 13 = part := by
  have h := opOf_lt i
  generalize opOf i = op at h
  cases part <;>
  · simp only [BitVec.bits, wordOfNat, BitVec.toNat_ofNat, BitVec.getLsbD_ofNat, Nat.testBit_eq_decide_div_mod_eq, ofBoolNat,
      Nat.shiftLeft_eq, Nat.shiftRight_eq_div_pow]
    norm_num
    omega

/-- Settles O45: each event of a context, by the lemma about it. -/
theorem contextEvents : Obligations.ContextEvents := by
  unfold Obligations.ContextEvents
  intro s ag n c hn hc
  subst hc hn
  refine ⟨?_, ?_, ?_, ?_, ?_, ?_, ?_⟩
  · intro words k cnt ds as bs w i f u hr hs h0 hle hst hb hm hu hf hrep hdec hstat hj hrun hfd hd
    obtain ⟨t, iss, ht, hown, hctx, hleft, hpc⟩ := repRepeat_of_judge hr hs h0 hst hb hm hu hf hrep hdec hstat hj hrun hfd hd
    obtain ⟨h1, h2, h3, -, hx, hv, hmm, hp⟩ := closedCtx_repeat (c := f { s.ctxAt (agentNum ag) with st := .selected }) hleft
      ((hfd _).trans hd)
    have hlt : (s.ctxAt (agentNum ag)).repc < 2 ^ 7 := Nat.mod_lt _ (by decide)
    refine ⟨t, _, ht, hown, hctx, ?_, fun h => ⟨(h3 (by omega)).trans hpc, ?_⟩, fun h => ?_, hx, hv, hmm, hp⟩
    · rw [h1]
      omega
    · rw [h2]
      simp only [bne_iff_ne]
      omega
    · rw [h2]
      simp only [bne_eq_false_iff_eq]
      omega
  · intro core i _ hi hs hst hc hh ⟨j, hj, hjr⟩
    rw [hi] at hst hh ⊢
    exact congrArg Host.Outcome.next (rotate_of_due hs hst hc hh (nextReady_isSome hj hjr))
  · intro sn a d v hg hf ht ⟨x, y, p, q, hv⟩
    have ⟨h1, h2, h3, h4⟩ : isDivide a.ins = true ∧ accDestV a.ins = none ∧ accDestX a.ins = some d ∧ divResult a.ins a.va a.vb = v := by
      obtain ⟨hi, rfl⟩ | ⟨hi, rfl⟩ | ⟨hi, rfl⟩ | ⟨hi, rfl⟩ := hv <;> (rw [hi]; exact ⟨rfl, rfl, rfl, rfl⟩)
    rw [← h4]
    exact congrArg Host.Outcome.next
      ((whenGoing_of_goes (fun s => divideDone s (agentNum ag) sn) hg).trans (divideDone_of_waiting hf h1 ht h2 h3))
  · intro sn a d src i t v hg hf hi hst hdue
    have hd : vextDue s (agentNum ag) a d = true := by
      unfold vextDue
      obtain h | h := hdue <;> simp [h]
    exact congrArg Host.Outcome.next
      ((whenGoing_of_goes (fun s => vextDone s (agentNum ag) sn) hg).trans (vextDone_of_due hf hi hst hd))
  · intro l rep hst hd hp hs hw
    exact stallClear_of_free hst hd hp hs hw
  · intro a b wa wb sc k hst hd hsat hp hs h6
    obtain ⟨hno, hyes⟩ := judge_waitc (pc := (s.ctxAt (agentNum ag)).pc) hs hsat h6
    constructor <;> intro hr
    · obtain ⟨v, hv, hj⟩ := hyes hr
      refine (waitRecheck_of_judge hst hd hsat hp hs hj).trans ?_
      rw [if_neg hv, modCtx_modCtx]
    · exact (waitRecheck_of_judge hst hd hsat hp hs (hno hr)).trans (if_pos rfl)
  · intro e l cause addr part hst hfr hsp ha he _ _ _ _
    obtain ⟨t, ht⟩ := takeTrap_next s (agentNum ag) (faultTrap (s.ctxAt (agentNum ag)) e)
    have hrep := faultReport_of_faulted hst hfr hsp ha he
    refine ⟨t, wordOfNat (ofBoolNat part <<< 13 + opOf e.ins <<< 6), hrep.trans ht, ?_, reportedInfo_fields _ _⟩
    rw [← ht]
    unfold faultTrap
    rw [he]

end Sys2Proof.Machine
end

section
/-! PROOFS. What the memory path and the engines leave unchanged as they read and write memory and scratch (spec/13_memory.md,
spec/14_ordering.md): everything but memory, what is on its way there, the region tables and the guard reports of tasks. -/

namespace Sys2Proof.Machine

open Sys2Proof.Safety

/-- t is s but for memory, the writes on their way there, the cores' region tables and the tasks' guard reports. -/
def OnlyMemory (s t : State) : Prop :=
  t = { s with mem := t.mem, poison := t.poison, pw := t.pw, rw := t.rw, uo := t.uo, early := t.early, cores := t.cores, tasks := t.tasks }

namespace OnlyMemory

theorem refl (s : State) : OnlyMemory s s := rfl

theorem trans {s t u : State} (h : OnlyMemory s t) (k : OnlyMemory t u) : OnlyMemory s u := by
  unfold OnlyMemory at *
  rw [k, h]

theorem ctxs {s t : State} (h : OnlyMemory s t) : t.ctxs = s.ctxs := by rw [h]
theorem cmds {s t : State} (h : OnlyMemory s t) : t.cmds = s.cmds := by rw [h]
theorem now {s t : State} (h : OnlyMemory s t) : t.now = s.now := by rw [h]
theorem findCmd {s t : State} (h : OnlyMemory s t) (id : Nat) : t.findCmd id = s.findCmd id := by rw [State.findCmd, h.cmds]; rfl

theorem withPw {s t : State} {l : List PWrite} (h : OnlyMemory s t) : OnlyMemory s { t with pw := l } := h.trans rfl
theorem withRw {s t : State} {l : List RWrite} (h : OnlyMemory s t) : OnlyMemory s { t with rw := l } := h.trans rfl

theorem foldl {α : Type} {f : State → α → State} (h : ∀ s a, OnlyMemory s (f s a)) : ∀ (l : List α) (s : State), OnlyMemory s (l.foldl f s)
  | [], s => refl s
  | a :: l, s => (h s a).trans (foldl h l (f s a))

/-- A fold that carries more than the state. -/
theorem foldl_fst {α β : Type} {f : State × β → α → State × β} (h : ∀ p a, OnlyMemory p.1 (f p a).1) :
    ∀ (l : List α) (p : State × β), OnlyMemory p.1 (l.foldl f p).1
  | [], p => refl p.1
  | a :: l, p => (h p a).trans (foldl_fst h l (f p a))

end OnlyMemory

theorem onlyMemory_markDirty (s : State) (key : Nat) : OnlyMemory s (s.markDirty key) := by
  unfold State.markDirty
  split <;> exact rfl

theorem onlyMemory_commitOne (s : State) (p : PWrite) (rest : List PWrite) : OnlyMemory s (s.commitOne p rest) :=
  .trans (t := s.homeWrite p.owner p.key p.en p.val) rfl
    ((onlyMemory_markDirty _ p.key).trans rfl)

theorem onlyMemory_commitFrom (f : PWrite → List PWrite → Bool) : ∀ (l : List PWrite) (s : State), OnlyMemory s (State.commitFrom f l s)
  | [], s => .refl s
  | p :: rest, s => by
    unfold State.commitFrom
    split
    · exact (onlyMemory_commitOne s p _).trans (onlyMemory_commitFrom f rest _)
    · exact onlyMemory_commitFrom f rest s

theorem onlyMemory_commitWhere (s : State) (f : PWrite → Bool) : OnlyMemory s (s.commitWhere f) := onlyMemory_commitFrom _ _ _

theorem onlyMemory_commitCovered (s : State) (n : Nat) (f : PWrite → Bool) : OnlyMemory s (s.commitCovered n f) :=
  onlyMemory_commitFrom _ _ _

theorem onlyMemory_flushKey (s : State) (n key : Nat) : OnlyMemory s (s.flushKey n key) := onlyMemory_commitCovered _ _ _

theorem onlyMemory_applyFrom (f : RWrite → Bool) : ∀ (l : List RWrite) (s : State), OnlyMemory s (State.applyFrom f l s)
  | [], s => .refl s
  | r :: rest, s => by
    unfold State.applyFrom
    split
    · exact .trans (t := { s.homeWrite r.owner r.key r.en r.val with rw := s.rw.erase r }) rfl (onlyMemory_applyFrom f rest _)
    · exact onlyMemory_applyFrom f rest s

theorem onlyMemory_applyWhere (s : State) (f : RWrite → Bool) : OnlyMemory s (s.applyWhere f) := onlyMemory_applyFrom _ _ _

theorem onlyMemory_beginSo (s : State) (n : Nat) (pc : Piece) : OnlyMemory s (s.beginSo n pc) := by
  unfold State.beginSo
  split
  · exact onlyMemory_applyWhere _ _
  · exact .refl s

theorem onlyMemory_writeHome (s : State) (n who : Nat) (pc : Piece) (key : Nat) (en : BitVec 8) (val : Word) :
    OnlyMemory s (s.writeHome n who pc key en val) := by
  have h := onlyMemory_beginSo s n pc
  unfold State.writeHome
  dsimp only
  split
  · exact h.trans rfl
  · exact h.trans ((onlyMemory_flushKey _ n key).trans rfl)

theorem onlyMemory_writeEng (s : State) (n : Nat) (pc : Piece) (key : Nat) (en : BitVec 8) (val : Word) :
    OnlyMemory s (s.writeEng n pc key en val) := by
  unfold State.writeEng
  split
  · exact rfl
  · exact onlyMemory_writeHome _ _ _ _ _ _ _

theorem onlyMemory_engWrite (s : State) (n : Nat) (pc : Piece) (key len v : Nat) : OnlyMemory s (s.engWrite n pc key len v) :=
  .foldl (fun _ _ => onlyMemory_writeEng _ _ _ _ _ _) _ _

/-! Scratch as an engine sees it. -/

theorem onlyMemory_touch (s : State) (key len : Nat) (isWrite : Bool) (agent : Nat) : OnlyMemory s (s.touch key len isWrite agent) := by
  unfold State.touch
  split
  · dsimp only
    split <;> split <;> split <;> exact rfl
  · exact .refl s

theorem onlyMemory_raceCheck {s t : State} {task : Option Nat} {hold : Bool} {key len : Nat} {isWrite : Bool}
    (h : s.raceCheck task hold key len isWrite = some t) : OnlyMemory s t := by
  unfold State.raceCheck at h
  split at h
  · cases h; exact .refl s
  · split at h
    · cases h; exact .refl s
    · split at h
      · cases h; exact .refl s
      · split at h
        · cases h; exact .refl s
        · dsimp only at h
          split at h
          · cases h
          · cases h; exact rfl

theorem onlyMemory_engWord (s : State) (n key : Nat) : OnlyMemory s (s.engWord n key).1 := by
  unfold State.engWord
  dsimp only
  split
  · exact .refl s
  · exact (onlyMemory_flushKey s n key).trans (onlyMemory_applyWhere _ _)

theorem onlyMemory_engBytes (s : State) (n key len : Nat) : OnlyMemory s (s.engBytes n key len).1 := by
  unfold State.engBytes
  dsimp only
  refine OnlyMemory.foldl_fst (fun p k => ?_) (wordKeys key len) (s, 0, false)
  exact onlyMemory_engWord p.1 n k

theorem onlyMemory_scrRead (s : State) (c : Cmd) (who sa len : Nat) : OnlyMemory s (s.scrRead c who sa len).1 := by
  unfold State.scrRead
  split
  · exact .refl s
  · split
    · exact .refl s
    · split
      · exact .refl s
      · next h => exact (onlyMemory_raceCheck h).trans ((onlyMemory_touch _ _ _ _ _).trans (onlyMemory_engBytes _ _ _ _))

theorem onlyMemory_scrWrite {s t : State} {c : Cmd} {who sa len v : Nat} (h : s.scrWrite c who sa len v = some t) : OnlyMemory s t := by
  unfold State.scrWrite at h
  split at h
  · cases h; exact .refl s
  · split at h
    · cases h
    · obtain ⟨u, hu, rfl⟩ := Option.map_eq_some_iff.mp h
      exact (onlyMemory_raceCheck hu).trans ((onlyMemory_touch _ _ _ _ _).trans (onlyMemory_engWrite _ _ _ _ _ _))

/-! Releases. -/

theorem onlyMemory_observe (s : State) (i a : Nat) : OnlyMemory s (s.observe i a) := by
  unfold State.observe
  split
  · exact .refl s
  · dsimp only
    split
    · exact .refl s
    · exact rfl

theorem onlyMemory_passOn (s : State) (n sc : Nat) : OnlyMemory s (s.passOn n sc) := by
  unfold State.passOn
  split <;> exact rfl

theorem onlyMemory_acquire (s : State) (n sc : Nat) : OnlyMemory s (s.acquire n sc) := by
  unfold State.acquire
  split <;> exact rfl

theorem onlyMemory_showGroup (s : State) (n : Nat) : OnlyMemory s (s.showGroup n) := by
  unfold State.showGroup
  dsimp only
  refine .trans (.withPw (.trans (.withRw (.refl s)) (.trans (onlyMemory_commitWhere _ _) (.foldl (fun t i => ?_) _ _))))
    (.foldl (fun t p => ?_) _ _)
  · split
    · split
      · exact .foldl (fun t a => onlyMemory_observe t i a) _ _
      · exact .refl t
    · exact .refl t
  · split <;> exact rfl

theorem onlyMemory_flushTo (s : State) (n : Nat) (sc : Scope) : OnlyMemory s (s.flushTo n sc) := by
  have h : ∀ k, OnlyMemory s ((((s.commitCovered n fun _ => true).applyRepl)).passOn n k) := fun k =>
    (onlyMemory_commitCovered _ _ _).trans ((onlyMemory_applyWhere _ _).trans (onlyMemory_passOn _ _ _))
  cases sc with
  | ctx => exact .refl s
  | grp => exact (onlyMemory_showGroup s n).trans (onlyMemory_passOn _ _ _)
  | dev => exact h 2
  | sys => exact h 3

end Sys2Proof.Machine
end

section
/-! PROOFS. Commands and tokens (spec/03_encoding.md R93, R103 to R106): finding a command in a changed list, and what the end of a command
does to its token. -/

namespace Sys2Proof.Machine

open Sys2Proof.Safety

theorem findCmd_id {s : State} {id : Nat} {c : Cmd} (h : s.findCmd id = some c) : c.id = id := by
  simpa using List.find?_some h

/-- The command that is put in place of one of its number is found there. -/
theorem findCmd_putCmd {s : State} {id : Nat} {c c' : Cmd} (h : s.findCmd id = some c) (hid : c'.id = id) :
    (s.putCmd c').findCmd id = some c' := by
  have hp : ((fun d : Cmd => decide (d.id = id)) ∘ fun d : Cmd => if d.id = id then c' else d) = fun d : Cmd => decide (d.id = id) := by
    funext d
    by_cases hd : d.id = id <;> simp [hd, hid]
  show (s.cmds.map fun d => if d.id = c'.id then c' else d).find? (fun d => decide (d.id = id)) = _
  rw [hid, List.find?_map, hp]
  have h' : s.cmds.find? (fun d => decide (d.id = id)) = some c := h
  rw [h', Option.map_some, if_pos (findCmd_id h)]

theorem coreAt_putCmd (s : State) (c : Cmd) (n : Nat) : (s.putCmd c).coreAt n = s.coreAt n := rfl

theorem mem_dropCmd {s : State} {id : Nat} {d : Cmd} (h : d ∈ (s.dropCmd id).cmds) : d ∈ s.cmds ∧ d.id ≠ id := by
  simpa [State.dropCmd] using h

theorem notify_id (agent : Nat) (k : Tok) (st : BitVec 8) (va : Word) (c : Cmd) : (notify agent k st va c).id = c.id := by
  unfold notify
  split
  · rfl
  · dsimp only
    split <;> split <;> split <;> rfl

/-- Ending a token leaves the numbers of the commands. -/
theorem endToken_ids (s : State) (agent : Nat) (k : Tok) (rep : Nat) (st : BitVec 8) (va : Word) :
    (s.endToken agent k rep st va).cmds.map (·.id) = s.cmds.map (·.id) := by
  unfold State.endToken
  dsimp only
  split
  · rfl
  · split
    · rfl
    · simp [notify_id]

theorem endToken_mem (s : State) (agent : Nat) (k : Tok) (rep : Nat) (st : BitVec 8) (va : Word) :
    (s.endToken agent k rep st va).mem = s.mem := by
  unfold State.endToken
  dsimp only
  split
  · rfl
  · split <;> rfl

theorem endToken_ctxAt (s : State) (agent n : Nat) (k : Tok) (rep : Nat) (st : BitVec 8) (va : Word) :
    (s.endToken agent k rep st va).ctxAt n =
      if k = 0 then s.ctxAt n else (s.modCtx agent fun c => c.setK k (((s.ctxAt agent).getK k).ended rep st va)).ctxAt n := by
  unfold State.endToken
  split
  · rfl
  · dsimp only
    split <;> rfl

/-- Ending a token changes that token alone of its context. -/
theorem endToken_ctxAt_self (s : State) (agent : Nat) (k : Tok) (rep : Nat) (st : BitVec 8) (va : Word) :
    (s.endToken agent k rep st va).ctxAt agent = (s.ctxAt agent).setK k (((s.ctxAt agent).getK k).ended rep st va) := by
  rw [endToken_ctxAt, State.ctxAt_modCtx_self]
  split
  · next h => rw [Ctx.setK, if_pos h]
  · rfl

theorem endToken_ctxAt_ne {s : State} {agent n : Nat} (k : Tok) (rep : Nat) (st : BitVec 8) (va : Word) (h : n ≠ agent) :
    (s.endToken agent k rep st va).ctxAt n = s.ctxAt n := by
  rw [endToken_ctxAt, State.ctxAt_modCtx_ne _ _ _ _ h]
  split <;> rfl

/-- A token whose last command ends is free, with the command's status if that is an error (R103). -/
theorem ended_of_last {k : Token} (rep : Nat) (st : BitVec 8) (va : Word) (hl : k.left = 1) (hm : k.more = false) (he : k.errRep = 0) :
    k.ended rep st va = { k with busy := false, left := 0, status := if st = 0 then k.status else st
                                 errRep := if st = 0 then 0 else rep + 1, addr := if st = 0 then k.addr else va } := by
  by_cases h : st = 0 <;> simp [Token.ended, hl, hm, he, h]

theorem ended_busy_of_last {k : Token} (rep : Nat) (st : BitVec 8) (va : Word) (hl : k.left = 1) (hm : k.more = false) :
    (k.ended rep st va).busy = false := by
  simp [Token.ended, hl, hm]

/-- What the end of a command does to its token, where the tokens stood as they did in s. -/
theorem tokenEnds_endToken {s t : State} {c : Cmd} (st : BitVec 8) (va : Word) (hk : (t.ctxAt c.agent).k = (s.ctxAt c.agent).k) :
    TokenEnds s (t.endToken c.agent c.kd c.rep st va) c st va := by
  intro h0 k hs hl hm he
  have hg : (t.ctxAt c.agent).getK c.kd = k := by rw [← hs, Ctx.getK, Ctx.getK, hk]
  rw [endToken_ctxAt_self, hg, ended_of_last _ _ _ hl hm he, getK_setK, if_neg h0, if_pos rfl]

end Sys2Proof.Machine
end

section
/-! PROOFS. The matrix engine's units of work (spec/06_matrix.md): what one of them leaves unchanged. -/

namespace Sys2Proof.Machine

open Sys2Proof.Safety

/-! What a command does to its context. -/

/-- y is x but for the rows that a list names, the results and the parts of a context that no slot names: its scalar registers, masks and
tokens are those of x, and every other row. -/
def OutsideRows (rows : List Nat) (x y : Ctx) : Prop :=
  y.x = x.x ∧ y.m = x.m ∧ y.k = x.k ∧
    ∀ r : Reg, (∀ j, j ∈ rows → BitVec.ofNat 6 j ≠ r) → y.getV r = x.getV r ∧ y.vBad r = x.vBad r ∧ y.vFull r = x.vFull r

namespace OutsideRows

variable {rows : List Nat} {x y z : Ctx}

/-- A change of none of the fields that registers, masks, tokens and rows stand in. -/
theorem of_fields (hx : y.x = x.x) (hm : y.m = x.m) (hk : y.k = x.k) (hv : y.v = x.v) (hp : y.poisonV = x.poisonV)
    (hf : y.fullV = x.fullV) : OutsideRows rows x y := by
  refine ⟨hx, hm, hk, fun r _ => ⟨?_, ?_, ?_⟩⟩
  · rw [Ctx.getV, Ctx.getV, hv]
  · rw [Ctx.vBad, Ctx.vBad, hp]
  · rw [Ctx.vFull, Ctx.vFull, hf]

theorem refl (rows : List Nat) (x : Ctx) : OutsideRows rows x x := of_fields rfl rfl rfl rfl rfl rfl

theorem trans (h : OutsideRows rows x y) (k : OutsideRows rows y z) : OutsideRows rows x z := by
  obtain ⟨hx, hm, hk, hr⟩ := h
  obtain ⟨kx, km, kk, kr⟩ := k
  refine ⟨kx.trans hx, km.trans hm, kk.trans hk, fun r hout => ?_⟩
  obtain ⟨h1, h2, h3⟩ := hr r hout
  obtain ⟨k1, k2, k3⟩ := kr r hout
  exact ⟨k1.trans h1, k2.trans h2, k3.trans h3⟩

theorem setV {j : Nat} (hj : j ∈ rows) (x : Ctx) (w : Row) : OutsideRows rows x (x.setV (BitVec.ofNat 6 j) w) :=
  ⟨rfl, rfl, rfl, fun r hr => ⟨by rw [getV_setV, if_neg (hr j hj).symm], rfl, rfl⟩⟩

theorem markBad {j : Nat} (hj : j ∈ rows) (x : Ctx) (b : Bool) : OutsideRows rows x (x.markBad (BitVec.ofNat 6 j) b) :=
  ⟨rfl, rfl, rfl, fun r hr => ⟨rfl, by rw [markBad_vBad, if_neg (hr j hj).symm], rfl⟩⟩

theorem markV {j : Nat} (hj : j ∈ rows) (x : Ctx) (b : Bool) : OutsideRows rows x (x.markV (BitVec.ofNat 6 j) b) :=
  ⟨rfl, rfl, rfl, fun r hr => ⟨rfl, rfl, by rw [markV_vFull, if_neg (hr j hj).symm]⟩⟩

theorem foldl {α : Type} {f : Ctx → α → Ctx} : ∀ (l : List α) (x : Ctx), (∀ x a, a ∈ l → OutsideRows rows x (f x a)) →
    OutsideRows rows x (l.foldl f x)
  | [], x, _ => refl rows x
  | a :: l, x, h => (h x a List.mem_cons_self).trans (foldl l (f x a) fun x b hb => h x b (List.mem_cons_of_mem a hb))

end OutsideRows

/-- t is s but for the context of a command, and there but for the rows that the command writes. -/
def OnlyRowsOf (c : Cmd) (s t : State) : Prop :=
  (∀ n, n ≠ c.agent → t.ctxAt n = s.ctxAt n) ∧ OutsideRows (rowsWritten c) (s.ctxAt c.agent) (t.ctxAt c.agent)

theorem OnlyRowsOf.refl (c : Cmd) (s : State) : OnlyRowsOf c s s := ⟨fun _ _ => rfl, .refl _ _⟩

theorem OnlyRowsOf.trans {c : Cmd} {s t u : State} (h : OnlyRowsOf c s t) (k : OnlyRowsOf c t u) : OnlyRowsOf c s u :=
  ⟨fun n hn => (k.1 n hn).trans (h.1 n hn), h.2.trans k.2⟩

theorem OnlyRowsOf.tokens {c : Cmd} {s t : State} (h : OnlyRowsOf c s t) : (t.ctxAt c.agent).k = (s.ctxAt c.agent).k := by
  obtain ⟨-, -, -, hk, -⟩ := h
  exact hk

/-- A change of no context. -/
theorem OnlyRowsOf.of_ctxs {s t : State} (c : Cmd) (h : t.ctxs = s.ctxs) : OnlyRowsOf c s t := by
  have hc : ∀ n, t.ctxAt n = s.ctxAt n := fun n => by rw [State.ctxAt, h]; rfl
  exact ⟨fun n _ => hc n, by rw [hc]; exact .refl _ _⟩

theorem OnlyMemory.onlyRows {s t : State} (c : Cmd) (h : OnlyMemory s t) : OnlyRowsOf c s t := .of_ctxs c h.ctxs

theorem OnlyRowsOf.setCtx {s : State} {c : Cmd} {x : Ctx} (h : OutsideRows (rowsWritten c) (s.ctxAt c.agent) x) :
    OnlyRowsOf c s (s.setCtx c.agent x) :=
  ⟨fun _ hn => State.ctxAt_setCtx_ne _ _ _ _ hn, by rw [State.ctxAt_setCtx_self]; exact h⟩

theorem OnlyRowsOf.modCtx {s : State} {c : Cmd} {f : Ctx → Ctx} (h : ∀ x, OutsideRows (rowsWritten c) x (f x)) :
    OnlyRowsOf c s (s.modCtx c.agent f) := .setCtx (h _)

/-! What a command's unit does to the command. -/

/-- The command with its progress, its status and the address of its race, and nothing else, as in c'. -/
def Progressed (c c' : Cmd) : Prop := c' = { c with done := c'.done, aux := c'.aux, status := c'.status, raceVa := c'.raceVa }

theorem Progressed.refl (c : Cmd) : Progressed c c := rfl

theorem Progressed.trans {c d e : Cmd} (h : Progressed c d) (k : Progressed d e) : Progressed c e := by
  unfold Progressed at *
  rw [k, h]

theorem progressed_fail (c : Cmd) (st : BitVec 8) : Progressed c (c.fail st) := by
  unfold Cmd.fail
  split <;> exact rfl

theorem Progressed.rowsWritten {c c' : Cmd} (h : Progressed c c') : rowsWritten c' = rowsWritten c := by rw [h]; rfl

/-- A unit of a command is done: the command has progressed, and only its rows have changed. -/
def UnitDone (c : Cmd) (s t : State) : Prop := (∃ c', t.findCmd c.id = some c' ∧ Progressed c c') ∧ OnlyRowsOf c s t

theorem unitDone_putCmd {s t : State} {c c' : Cmd} (hf : s.findCmd c.id = some c) (hc : t.cmds = s.cmds) (hr : OnlyRowsOf c s t)
    (hp : Progressed c c') : UnitDone c s (t.putCmd c') := by
  have ht : t.findCmd c.id = some c := by rw [State.findCmd, hc]; exact hf
  exact ⟨⟨c', findCmd_putCmd ht (by rw [hp]), hp⟩, hr.trans (.of_ctxs c rfl)⟩

theorem unitDone_raced {s t : State} {c : Cmd} (sa : Nat) (hf : s.findCmd c.id = some c) (h : OnlyMemory s t) : UnitDone c s (raced t c sa) :=
  unitDone_putCmd hf h.cmds (h.onlyRows c) rfl

end Sys2Proof.Machine
end

section
/-! PROOFS. The units of work of the matrix engine (spec/06_matrix.md), one by one: each changes the rows of its command alone. -/

namespace Sys2Proof.Machine

open Sys2Proof.Safety

theorem progressed_ite {c d : Cmd} (b : Bool) (h : Progressed c d) : Progressed c (if b then d else c) := by
  split
  · exact h
  · exact .refl c

theorem progressed_ite_fail (b : Bool) (c : Cmd) (st : BitVec 8) : Progressed c (if b then c.fail st else c) :=
  progressed_ite b (progressed_fail c st)

theorem onlyMemory_mlwBlock {c : Cmd} {budget : List Byte} {entries : List (BitVec 32)} {n b : Nat} {r r' : ColRead}
    (h : mlwBlock c budget entries n r b = some r') : OnlyMemory r.s r'.s := by
  unfold mlwBlock at h
  dsimp only at h
  split at h
  · have hs := onlyMemory_scrRead r.s c 6 (mlwSrc c n + b * blockWords c.pcw * 4) (4 * blockWords c.pcw)
    split at h
    · cases h
    · next heq =>
      rw [heq] at hs
      cases h
      exact hs
  · cases h
    exact .refl _

/-- A fold of steps that may fail keeps what every step keeps. -/
theorem onlyMemory_foldl_bind {f : ColRead → Nat → Option ColRead} (hf : ∀ r b r', f r b = some r' → OnlyMemory r.s r'.s) :
    ∀ (l : List Nat) (r r' : ColRead), l.foldl (fun r b => r.bind fun q => f q b) (some r) = some r' → OnlyMemory r.s r'.s
  | [], r, r', h => by cases h; exact .refl _
  | b :: l, r, r', h => by
    rw [List.foldl_cons, Option.bind_some] at h
    cases hb : f r b with
    | none =>
      rw [hb] at h
      have hnone : ∀ l : List Nat, l.foldl (fun (r : Option ColRead) b => r.bind fun q => f q b) none = none := by
        intro l
        induction l with
        | nil => rfl
        | cons a l ih => rw [List.foldl_cons, Option.bind_none, ih]
      rw [hnone] at h
      cases h
    | some q =>
      rw [hb] at h
      exact (hf r b q hb).trans (onlyMemory_foldl_bind hf l q r' h)

theorem onlyMemory_mlwColumn {s t : State} {c : Cmd} {slot : Nat} {p b : Bool} (h : mlwColumn s c slot = some (t, p, b)) :
    OnlyMemory s t := by
  unfold mlwColumn at h
  dsimp only at h
  split at h
  · generalize hr : s.scrRead c 6 _ _ = q at h
    have hs := hr ▸ onlyMemory_scrRead s c 6 _ _
    obtain ⟨u, o⟩ := q
    cases o with
    | none => cases h
    | some v =>
      dsimp only at h hs
      split at h
      · cases h
      · next heq =>
        cases h
        exact hs.trans ((onlyMemory_foldl_bind (fun _ _ _ => onlyMemory_mlwBlock) _ _ _ heq).trans rfl)
  · cases h
    exact rfl

theorem unitDone_mlw {s : State} {c : Cmd} (hf : s.findCmd c.id = some c) : UnitDone c s (mlwUnit s c) := by
  unfold mlwUnit
  split
  · exact unitDone_raced _ hf (.refl s)
  · next h =>
    have hm := onlyMemory_mlwColumn h
    dsimp only
    refine unitDone_putCmd hf hm.cmds (hm.onlyRows c) ?_
    split
    · exact rfl
    · split
      · exact (progressed_fail c _).trans rfl
      · exact rfl

theorem unitDone_mrb {s : State} {c : Cmd} (hf : s.findCmd c.id = some c) : UnitDone c s (mrbUnit s c) := by
  have hm := onlyMemory_scrRead s c 6 (c.par0.bits 0 31) (pcwNact c.pcw)
  unfold mrbUnit
  dsimp only
  split
  · exact unitDone_raced _ hf (.refl s)
  · next t r h =>
    rw [h] at hm
    have hc := progressed_ite_fail r.bad c 0x21
    dsimp only at hm
    generalize (if r.bad then c.fail 0x21 else c) = c1 at hc ⊢
    generalize (if pcwSparse c.pcw = 2 then pcwM c.pcw else 32) = limit
    have hag : c1.agent = c.agent := by rw [hc]
    split
    · exact unitDone_putCmd hf hm.cmds (hm.onlyRows c) (hc.trans ((progressed_fail _ _).trans rfl))
    · refine unitDone_putCmd hf hm.cmds ((hm.onlyRows c).trans ?_) (hc.trans rfl)
      rw [hag]
      exact .modCtx fun x => .of_fields rfl rfl rfl rfl rfl rfl

theorem unitDone_mstat {s : State} {c : Cmd} (hf : s.findCmd c.id = some c) : UnitDone c s (mstatUnit s c) := by
  unfold mstatUnit
  dsimp only
  split
  · exact unitDone_raced _ hf (.refl s)
  · next h =>
    have hm := onlyMemory_scrWrite h
    split
    · exact unitDone_putCmd hf hm.cmds ((hm.onlyRows c).trans (.modCtx fun x => .of_fields rfl rfl rfl rfl rfl rfl)) rfl
    · exact unitDone_putCmd hf hm.cmds (hm.onlyRows c) rfl

theorem unitDone_mla {s : State} {c : Cmd} (hf : s.findCmd c.id = some c) : UnitDone c s (mlaUnit s c) := by
  unfold mlaUnit
  dsimp only
  generalize hr : s.scrRead c 6 _ _ = q
  have hm := hr ▸ onlyMemory_scrRead s c 6 _ _
  obtain ⟨s1, o1⟩ := q
  cases o1 with
  | none => exact unitDone_raced _ hf (.refl s)
  | some r1 =>
    dsimp only at hm ⊢
    generalize hr : s1.scrRead c 6 _ _ = q
    have hm2 := hm.trans (hr ▸ onlyMemory_scrRead s1 c 6 _ _)
    obtain ⟨s2, o2⟩ := q
    cases o2 with
    | none => exact unitDone_raced _ hf hm
    | some r2 =>
      dsimp only at hm2 ⊢
      generalize hr : s2.scrRead c 6 _ _ = q
      have hm3 := hm2.trans (hr ▸ onlyMemory_scrRead s2 c 6 _ _)
      obtain ⟨s3, o3⟩ := q
      cases o3 with
      | none => exact unitDone_raced _ hf hm2
      | some r3 =>
        dsimp only at hm3 ⊢
        refine unitDone_putCmd hf hm3.cmds ((hm3.onlyRows c).trans (.modCtx fun x => .of_fields rfl rfl rfl rfl rfl rfl)) ?_
        split
        · exact (progressed_fail c _).trans rfl
        · exact rfl

theorem mzaUnit_onlyRows (s : State) (c : Cmd) : OnlyRowsOf c s (mzaUnit s c) :=
  .trans (.modCtx fun x => .foldl _ x fun x _ hj => (OutsideRows.setV hj x 0).trans (.markBad hj _ false)) (.of_ctxs c rfl)

theorem unitDone_mza {s : State} {c : Cmd} (hf : s.findCmd c.id = some c) : UnitDone c s (mzaUnit s c) :=
  ⟨⟨{ c with done := 1 }, findCmd_putCmd (c := c) hf rfl, rfl⟩, mzaUnit_onlyRows s c⟩

theorem mem_range_map {a n i : Nat} (h : i < n) : a + i ∈ (upTo n).map (a + ·) :=
  List.mem_map.mpr ⟨i, List.mem_range.mpr h, rfl⟩

/-- The context after a row of a multiply: its accumulator row, its poison, and with a marked weight plane that of the rows before. -/
def mulWritten (x : Ctx) (c : Cmd) (row : Row) (bad weightBad : Bool) : Ctx :=
  let y := (x.setV (BitVec.ofNat 6 (mulD0 c + c.done)) row).markBad (BitVec.ofNat 6 (mulD0 c + c.done)) bad
  if weightBad then (upTo c.done).foldl (fun x i => x.markBad (BitVec.ofNat 6 (mulD0 c + i)) true) y else y

/-- A row of a multiply writes its context so, the counters apart. -/
theorem mulUnit_eq (s : State) (c : Cmd) : ∃ (row : Row) (bad weightBad : Bool) (mst : List (BitVec 32)), mulUnit s c =
    (s.setCtx c.agent { mulWritten (s.ctxAt c.agent) c row bad weightBad with mstat := mst }).putCmd
      { (if bad then c.fail 0x21 else c) with done := (if bad then c.fail 0x21 else c).done + 1, aux := ofBoolNat weightBad } :=
  ⟨_, _, _, _, rfl⟩

theorem mulWritten_outsideRows {c : Cmd} (x : Ctx) (row : Row) (bad weightBad : Bool)
    (hr : rowsWritten c = (upTo (mulM c)).map (mulD0 c + ·)) (hd : c.done < mulM c) :
    OutsideRows (rowsWritten c) x (mulWritten x c row bad weightBad) := by
  have hj : ∀ i, i ≤ c.done → mulD0 c + i ∈ rowsWritten c := fun i hi => by rw [hr]; exact mem_range_map (by omega)
  have hx := (OutsideRows.setV (hj _ (Nat.le_refl _)) x row).trans (.markBad (hj _ (Nat.le_refl _)) _ bad)
  unfold mulWritten
  dsimp only
  split
  · exact hx.trans (.foldl _ _ fun x i hi => .markBad (hj i (Nat.le_of_lt (List.mem_range.mp hi))) x true)
  · exact hx

theorem unitDone_mul {s : State} {c : Cmd} (hf : s.findCmd c.id = some c) (hr : rowsWritten c = (upTo (mulM c)).map (mulD0 c + ·))
    (hd : c.done < mulM c) : UnitDone c s (mulUnit s c) := by
  obtain ⟨row, bad, weightBad, mst, he⟩ := mulUnit_eq s c
  rw [he]
  exact unitDone_putCmd hf rfl (.setCtx ((mulWritten_outsideRows _ row bad weightBad hr hd).trans (.of_fields rfl rfl rfl rfl rfl rfl)))
    ((progressed_ite_fail bad c 0x21).trans rfl)

theorem onlyMemory_drainWrite {s t : State} {c : Cmd} {dst n v side : Nat} {bytes : List Nat}
    (h : s.drainWrite c dst n v side bytes = .ok t) : OnlyMemory s t := by
  unfold State.drainWrite at h
  dsimp only at h
  split at h
  · cases h
  · next h1 =>
    split at h
    · cases h
    · next h2 =>
      cases h
      exact (onlyMemory_scrWrite h1).trans (onlyMemory_scrWrite h2)

theorem unitDone_mdr {s : State} {c : Cmd} (hf : s.findCmd c.id = some c)
    (hr : mdrClr c = true → rowsWritten c = (upTo (mdrM c)).map (mdrD0 c + ·)) (hd : c.done < mdrM c) : UnitDone c s (mdrUnit s c) := by
  unfold mdrUnit
  dsimp only
  split
  · exact unitDone_putCmd hf rfl (.refl c s) ((progressed_fail c _).trans rfl)
  · generalize drainRow _ _ _ _ _ = q
    obtain ⟨v, n, side, sat, ev⟩ := q
    dsimp only
    split
    · exact unitDone_raced _ hf (.refl s)
    · next h =>
      have hm := onlyMemory_drainWrite h
      refine unitDone_putCmd hf hm.cmds ((hm.onlyRows c).trans (.modCtx fun x => ?_)) ((progressed_ite_fail _ c 0x21).trans rfl)
      split
      · next hclr =>
        have hj : mdrD0 c + c.done ∈ rowsWritten c := by rw [hr hclr]; exact mem_range_map hd
        exact .trans (y := { x with mstat := _ }) (.of_fields rfl rfl rfl rfl rfl rfl) (.setV hj _ 0)
      · exact .of_fields rfl rfl rfl rfl rfl rfl

/-- One unit of a command that has units left. -/
theorem unitDone_matrixUnit {s : State} {c : Cmd} (hf : s.findCmd c.id = some c) (hd : c.done < matrixUnits c) :
    UnitDone c s (matrixUnit s c) := by
  unfold matrixUnits at hd
  unfold matrixUnit
  split
  · exact unitDone_mlw hf
  · exact unitDone_mla hf
  · next h => rw [h] at hd; exact unitDone_mul hf (by rw [rowsWritten, h]) hd
  · next h => rw [h] at hd; exact unitDone_mul hf (by rw [rowsWritten, h]) hd
  · next h => rw [h] at hd; exact unitDone_mul hf (by rw [rowsWritten, h]) hd
  · next h => rw [h] at hd; exact unitDone_mdr hf (fun hc => by rw [rowsWritten, h]; exact if_pos hc) hd
  · exact unitDone_mza hf
  · exact unitDone_mrb hf
  · exact unitDone_mstat hf
  · exact ⟨⟨c, hf, .refl c⟩, .refl c s⟩

theorem UnitDone.trans {c c' : Cmd} {s t u : State} (hp : Progressed c c') (h : OnlyRowsOf c s t) (k : UnitDone c' t u) : UnitDone c s u := by
  obtain ⟨⟨d, hd, hpd⟩, hn, hr⟩ := k
  have hid : c'.id = c.id := by rw [hp]
  have hag : c'.agent = c.agent := by rw [hp]
  rw [hp.rowsWritten, hag] at hr
  rw [hag] at hn
  exact ⟨⟨d, hid ▸ hd, hp.trans hpd⟩, h.trans ⟨hn, hr⟩⟩

/-- Any number of units of a command change its rows and its progress alone. -/
theorem unitDone_matrixAdvance : ∀ (n : Nat) {s : State} {c : Cmd}, s.findCmd c.id = some c → UnitDone c s (matrixAdvance c.id n s)
  | 0, s, c, hf => ⟨⟨c, hf, .refl c⟩, .refl c s⟩
  | n + 1, s, c, hf => by
    unfold matrixAdvance
    rw [hf]
    dsimp only
    split
    · next h =>
      obtain ⟨⟨c', hc', hp⟩, hr⟩ := unitDone_matrixUnit hf (by simp only [Bool.and_eq_true, decide_eq_true_eq] at h; exact h.2)
      have hid : c'.id = c.id := by rw [hp]
      have ih := unitDone_matrixAdvance n (s := matrixUnit s c) (c := c') (by rw [hid]; exact hc')
      rw [hid] at ih
      exact .trans hp hr ih
    · exact ⟨⟨c, hf, .refl c⟩, .refl c s⟩

end Sys2Proof.Machine
end

section
/-! PROOFS. spec/06_matrix.md, spec/16_scheduling.md R355: the events of the matrix engine. -/

namespace Sys2Proof.Machine

open Sys2Proof.Safety

/-! The end of a command (R171). -/

theorem settleVext_outsideRows (rows : List Nat) (x : Ctx) : OutsideRows rows x x.settleVext := .of_fields rfl rfl rfl rfl rfl rfl

theorem refill_onlyRows (s : State) (c : Cmd) : OnlyRowsOf c s (s.refill c.agent (rowsWritten c)) :=
  .modCtx fun x => .trans (.foldl _ x fun y _ hj => .markV (List.mem_of_mem_filter hj) y true) (settleVext_outsideRows _ _)

theorem foldl_markV_fields (b : Bool) : ∀ (l : List Nat) (x : Ctx), (l.foldl (fun c r => c.markV (BitVec.ofNat 6 r) b) x).v = x.v ∧
    (l.foldl (fun c r => c.markV (BitVec.ofNat 6 r) b) x).poisonV = x.poisonV
  | [], _ => ⟨rfl, rfl⟩
  | r :: l, x => foldl_markV_fields b l (x.markV (BitVec.ofNat 6 r) b)

/-- Rows become full with what they hold. -/
theorem refill_getV (s : State) (n : Nat) (rows : List Nat) (r : Reg) :
    ((s.refill n rows).ctxAt n).getV r = (s.ctxAt n).getV r ∧ ((s.refill n rows).ctxAt n).vBad r = (s.ctxAt n).vBad r := by
  have hc : (s.refill n rows).ctxAt n = _ := State.ctxAt_modCtx_self s n _
  obtain ⟨hv, hp⟩ := foldl_markV_fields true (rows.filter fun r => !(s.rowsOwed n).contains r) (s.ctxAt n)
  rw [hc]
  constructor
  · rw [Ctx.getV, Ctx.getV, ← hv]
    rfl
  · rw [Ctx.vBad, Ctx.vBad, ← hp]
    rfl

theorem foldl_markV_vFull (r : Reg) : ∀ (l : List Nat) (x : Ctx), x.vFull r = true ∨ r.toNat ∈ l →
    (l.foldl (fun c r => c.markV (BitVec.ofNat 6 r) true) x).vFull r = true
  | [], x, h => by simpa using h
  | j :: l, x, h => by
    refine foldl_markV_vFull r l (x.markV (BitVec.ofNat 6 j) true) ?_
    rw [markV_vFull]
    by_cases hj : r = BitVec.ofNat 6 j
    · exact .inl (if_pos hj)
    · rw [if_neg hj]
      refine h.imp_right fun hm => (List.mem_cons.mp hm).resolve_left fun e => hj ?_
      rw [← e, BitVec.ofNat_toNat, BitVec.setWidth_eq]

/-- A row that no other command owes is full. -/
theorem refill_vFull {s : State} {n : Nat} {rows : List Nat} {r : Reg} (hr : r.toNat ∈ rows) (ho : r.toNat ∉ s.rowsOwed n) :
    ((s.refill n rows).ctxAt n).vFull r = true := by
  have hc : (s.refill n rows).ctxAt n = _ := State.ctxAt_modCtx_self s n _
  rw [hc]
  exact foldl_markV_vFull r _ _ (.inr (List.mem_filter.mpr ⟨hr, by simpa using ho⟩))

theorem countMul_onlyRows (s : State) (c d : Cmd) (h : d.agent = c.agent) : OnlyRowsOf c s (s.countMul d) := by
  unfold State.countMul
  split
  · rw [h]
    exact .modCtx fun x => .of_fields rfl rfl rfl rfl rfl rfl
  · exact .refl c s

theorem countMul_getV (s : State) (c : Cmd) (r : Reg) : ((s.countMul c).ctxAt c.agent).getV r = (s.ctxAt c.agent).getV r := by
  unfold State.countMul
  split
  · rw [State.ctxAt_modCtx_self]
    rfl
  · rfl

theorem countMul_mem (s : State) (c : Cmd) : (s.countMul c).mem = s.mem := by
  unfold State.countMul
  split <;> rfl

theorem matrixEnd_mem (s : State) (c : Cmd) : (matrixEnd s c).mem = s.mem := (endToken_mem _ _ _ _ _ _).trans rfl

/-- A command that has ended is gone. -/
theorem matrixEnd_gone {s : State} {c d : Cmd} (h : d ∈ (matrixEnd s c).cmds) : d.id ≠ c.id := by
  have hid : d.id ∈ (matrixEnd s c).cmds.map (·.id) := List.mem_map_of_mem h
  unfold matrixEnd at hid
  rw [endToken_ids] at hid
  obtain ⟨e, he, hed⟩ := List.mem_map.mp hid
  rw [← hed]
  exact (mem_dropCmd (s := s) he).2

/-- Before its token ends, a command that leaves has changed its rows alone. -/
theorem matrixEnd_refill_onlyRows (s : State) (c : Cmd) : OnlyRowsOf c s ((s.dropCmd c.id).refill c.agent (rowsWritten c)) :=
  .trans (t := s.dropCmd c.id) (.of_ctxs c rfl) (refill_onlyRows _ c)

theorem setK_fields (x : Ctx) (k : Tok) (t : Token) : (x.setK k t).x = x.x ∧ (x.setK k t).m = x.m ∧ (x.setK k t).v = x.v ∧
    (x.setK k t).poisonV = x.poisonV ∧ (x.setK k t).fullV = x.fullV := by
  unfold Ctx.setK
  split <;> exact ⟨rfl, rfl, rfl, rfl, rfl⟩

theorem setK_row (x : Ctx) (k : Tok) (t : Token) (r : Reg) :
    (x.setK k t).getV r = x.getV r ∧ (x.setK k t).vBad r = x.vBad r ∧ (x.setK k t).vFull r = x.vFull r := by
  obtain ⟨-, -, hv, hp, hf⟩ := setK_fields x k t
  exact ⟨by rw [Ctx.getV, Ctx.getV, hv], by rw [Ctx.vBad, Ctx.vBad, hp], by rw [Ctx.vFull, Ctx.vFull, hf]⟩

theorem matrixEnd_ctxAt_self (s : State) (c : Cmd) : (matrixEnd s c).ctxAt c.agent =
    (((s.dropCmd c.id).refill c.agent (rowsWritten c)).ctxAt c.agent).setK c.kd
      (((((s.dropCmd c.id).refill c.agent (rowsWritten c)).ctxAt c.agent).getK c.kd).ended c.rep c.status c.raceVa) :=
  endToken_ctxAt_self _ _ _ _ _ _

/-- No context but the command's own changes. -/
theorem matrixEnd_ctxAt_ne {s : State} {c : Cmd} {n : Nat} (h : n ≠ c.agent) : (matrixEnd s c).ctxAt n = s.ctxAt n :=
  (endToken_ctxAt_ne _ _ _ _ h).trans ((matrixEnd_refill_onlyRows s c).1 n h)

/-- The row of a context once a command has ended: as it was when the command left, full or not. -/
theorem matrixEnd_row (s : State) (c : Cmd) (r : Reg) :
    ((matrixEnd s c).ctxAt c.agent).getV r = (s.ctxAt c.agent).getV r ∧ ((matrixEnd s c).ctxAt c.agent).vBad r = (s.ctxAt c.agent).vBad r := by
  obtain ⟨h1, h2, -⟩ := setK_row (((s.dropCmd c.id).refill c.agent (rowsWritten c)).ctxAt c.agent) c.kd
    (((((s.dropCmd c.id).refill c.agent (rowsWritten c)).ctxAt c.agent).getK c.kd).ended c.rep c.status c.raceVa) r
  obtain ⟨k1, k2⟩ := refill_getV (s.dropCmd c.id) c.agent (rowsWritten c) r
  rw [matrixEnd_ctxAt_self]
  exact ⟨h1.trans k1, h2.trans k2⟩

theorem matrixEnd_vFull {s : State} {c : Cmd} {r : Reg} (hr : r.toNat ∈ rowsWritten c) (ho : r.toNat ∉ (s.dropCmd c.id).rowsOwed c.agent) :
    ((matrixEnd s c).ctxAt c.agent).vFull r = true := by
  rw [matrixEnd_ctxAt_self, (setK_row _ _ _ r).2.2]
  exact refill_vFull hr ho

/-- The token of a command that has ended, where the tokens stood as they did in s. -/
theorem tokenEnds_matrixEnd {s t : State} {c : Cmd} (hk : (t.ctxAt c.agent).k = (s.ctxAt c.agent).k) :
    TokenEnds s (matrixEnd t c) c c.status c.raceVa :=
  tokenEnds_endToken _ _ ((matrixEnd_refill_onlyRows t c).tokens.trans hk)

/-! The start of a command (R106, R173). -/

theorem stopped_of_no_jobs {s : State} (c : Cmd) (h : s.jobs = []) : s.stopped c = false := by simp [State.stopped, h]

theorem exec_matrixCommandStart {s : State} {id : Nat} {c : Cmd} (hf : s.findCmd id = some c) (hj : s.jobs = []) :
    Machine.exec (.matrixCommandStart id) s = .next (matrixStart s id) := by
  show Host.Outcome.next (if (s.findCmd id).any s.stopped then s else matrixStart s id) = _
  rw [hf, Option.any_some, stopped_of_no_jobs c hj, if_neg Bool.false_ne_true]

theorem matrixStart_inherited {s : State} {id : Nat} {c : Cmd} (hf : s.findCmd id = some c) (hr : matrixReady s c = true)
    (hi : c.inherited ≠ 0) : matrixStart s id = matrixEnd (s.countMul c) { c with status := c.inherited, raceVa := c.inheritedAt } := by
  unfold matrixStart
  simp only [hf, hr, hi, Bool.not_true, Bool.false_eq_true, if_false, bne_iff_ne, ne_eq, not_false_eq_true, if_true]

/-- What a multiply that starts is: it runs from now on, or its operands do not match (R183). -/
def mulStarted (c : Cmd) (fits : Bool) (now : Nat) : Cmd :=
  let d := if fits then c else { c with status := 0x20, done := matrixUnits c }
  { d with st := .running, startAt := now }

theorem mulStarted_fields (c : Cmd) (fits : Bool) (now : Nat) :
    (mulStarted c fits now).id = c.id ∧ (mulStarted c fits now).par = c.par ∧ (mulStarted c fits now).pcw = c.pcw := by
  cases fits <;> exact ⟨rfl, rfl, rfl⟩

theorem matrixUnits_of_isMul {c : Cmd} (h : isMul c.ins = true) : matrixUnits c = mulM c := by
  unfold isMul at h
  unfold matrixUnits
  split at h
  · next e => rw [e]
  · next e => rw [e]
  · next e => rw [e]
  · cases h

/-- Which slot the array served last does not change what the operands are. -/
theorem mulFits_modCore_rr (s : State) (c : Cmd) (n : Nat) :
    mulFits (s.modCore (coreOf c.agent) fun k => { k with rr := n }) c = mulFits s c := by
  unfold mulFits
  rw [State.coreAt_modCore_self]
  rfl

theorem matrixStart_mul {s : State} {id : Nat} {c : Cmd} (hf : s.findCmd id = some c) (hr : matrixReady s c = true)
    (hi : c.inherited = 0) (hm : isMul c.ins = true) (hfree : arrayFree s (coreOf c.agent) = true)
    (hnext : arrayNext s (coreOf c.agent) = some c) :
    matrixStart s id = if (s.clusterAt (clusterOf (coreOf c.agent))).arraysOn then
        (s.modCore (coreOf c.agent) fun k => { k with rr := c.agent % 4 }).putCmd (mulStarted c (mulFits s c) s.now)
      else s.askEnable (clusterOf (coreOf c.agent)) := by
  unfold matrixStart
  simp only [hf, hr, hi, hm, hfree, hnext, Bool.not_true, Bool.false_eq_true, if_false, bne_self_eq_false, if_true, Bool.or_self,
    mulFits_modCore_rr]
  cases (s.clusterAt (clusterOf (coreOf c.agent))).arraysOn <;> rfl

theorem askEnable_of_off {s : State} {cl : Nat} (h1 : (s.clusterAt cl).arraysOn = false) (h2 : (s.clusterAt cl).asked = none) :
    s.askEnable cl = s.setCluster cl { s.clusterAt cl with asked := some s.now } := by
  unfold State.askEnable
  simp only [h1, h2, Option.isSome_none, Bool.or_self, Bool.false_eq_true, if_false]

/-- Any other command starts at once, on cores in which MLW may have claimed its granules. -/
theorem matrixStart_other {s : State} {id : Nat} {c : Cmd} (hf : s.findCmd id = some c) (hr : matrixReady s c = true)
    (hi : c.inherited = 0) (hm : isMul c.ins = false) : ∃ t c', matrixStart s id = t.putCmd { c' with st := .running, startAt := s.now } ∧
      OnlyMemory s t ∧ t.mem = s.mem ∧ Progressed c c' := by
  unfold matrixStart
  simp only [hf, hr, hi, hm, Bool.not_true, Bool.false_eq_true, if_false, bne_self_eq_false]
  split
  · refine ⟨mlwStart s c, _, rfl, rfl, rfl, ?_⟩
    split
    · exact progressed_ite _ rfl
    · exact progressed_ite _ rfl
  · refine ⟨s, _, rfl, .refl s, rfl, ?_⟩
    split
    · exact progressed_ite _ rfl
    · exact progressed_ite _ rfl

/-! The end of a command as an event. -/

/-- The core and the cluster of a command that ends: MLW leaves its descriptor, a multiply that ran marks its beat. -/
theorem matrixComplete_eq {s : State} {id : Nat} {c : Cmd} (hf : s.findCmd id = some c) (hst : c.st = .running) (hk : c.kind = .slot)
    (hm : isMatrix c.ins = true) : ∃ (c' : Cmd) (t : State), Progressed c c' ∧ OnlyRowsOf c s (t.countMul c') ∧
      matrixComplete s id = matrixEnd (t.countMul c') c' := by
  have hid := findCmd_id hf
  have hadv := unitDone_matrixAdvance (matrixUnits c) (hid.symm ▸ hf)
  rw [hid] at hadv
  obtain ⟨⟨c', hc', hp⟩, hr⟩ := hadv
  rw [hid] at hc'
  have hag : c'.agent = c.agent := by rw [hp]
  unfold matrixComplete
  simp only [hf, hst, hk, hm, decide_true, Bool.and_self, Bool.not_true, Bool.false_eq_true, if_false, hc']
  refine ⟨c', _, hp, ?_, rfl⟩
  refine hr.trans (.trans ?_ (countMul_onlyRows _ c c' hag))
  split <;> split <;> exact .of_ctxs c rfl

/-- A command that completes is gone; its token has ended; of its context only its rows have changed. -/
theorem matrixComplete_spec {s : State} {id : Nat} {c : Cmd} (hf : s.findCmd id = some c) (hst : c.st = .running) (hk : c.kind = .slot)
    (hm : isMatrix c.ins = true) :
    (∀ d, d ∈ (matrixComplete s id).cmds → d.id ≠ id) ∧ ((matrixComplete s id).ctxAt c.agent).x = (s.ctxAt c.agent).x ∧
      ((matrixComplete s id).ctxAt c.agent).m = (s.ctxAt c.agent).m ∧
      (∀ n, n ≠ c.agent → (matrixComplete s id).ctxAt n = s.ctxAt n) ∧
      (c.kd ≠ 0 → ((s.ctxAt c.agent).getK c.kd).left = 1 → ((s.ctxAt c.agent).getK c.kd).more = false →
        (((matrixComplete s id).ctxAt c.agent).getK c.kd).busy = false) ∧
      ∀ r : Reg, (∀ j, j ∈ rowsWritten c → BitVec.ofNat 6 j ≠ r) →
        ((matrixComplete s id).ctxAt c.agent).getV r = (s.ctxAt c.agent).getV r ∧
        ((matrixComplete s id).ctxAt c.agent).vBad r = (s.ctxAt c.agent).vBad r ∧
        ((matrixComplete s id).ctxAt c.agent).vFull r = (s.ctxAt c.agent).vFull r := by
  obtain ⟨c', t, hp, hr, he⟩ := matrixComplete_eq hf hst hk hm
  have hid : c'.id = id := (show c'.id = c.id by rw [hp]).trans (findCmd_id hf)
  have hag : c'.agent = c.agent := by rw [hp]
  have hkd : c'.kd = c.kd := by rw [hp]
  have hend := matrixEnd_refill_onlyRows (t.countMul c') c'
  have hself := matrixEnd_ctxAt_self (t.countMul c') c'
  have hother := fun n hn => matrixEnd_ctxAt_ne (s := t.countMul c') (c := c') (n := n) hn
  rw [OnlyRowsOf, hp.rowsWritten, hag] at hend
  rw [hp.rowsWritten, hag, hkd] at hself
  rw [hag] at hother
  obtain ⟨hx, hmm, hkk, hrows⟩ := hr.2.trans hend.2
  rw [he]
  generalize ((t.countMul c').dropCmd c'.id).refill c.agent (rowsWritten c) = u at hend hself hother hx hmm hkk hrows
  obtain ⟨kx, km, -, -, -⟩ := setK_fields (u.ctxAt c.agent) c.kd (((u.ctxAt c.agent).getK c.kd).ended c'.rep c'.status c'.raceVa)
  rw [hself]
  refine ⟨fun d hd => hid ▸ matrixEnd_gone hd, kx.trans hx, km.trans hmm, fun n hn => ?_, fun h0 hl hmo => ?_, fun r hout => ?_⟩
  · exact (hother n hn).trans (hr.1 n hn)
  · have hg : (u.ctxAt c.agent).getK c.kd = (s.ctxAt c.agent).getK c.kd := by rw [Ctx.getK, Ctx.getK, hkk]
    rw [getK_setK, if_neg h0, if_pos rfl, hg]
    exact ended_busy_of_last _ _ _ hl hmo
  · obtain ⟨h1, h2, h3⟩ := hrows r hout
    obtain ⟨k1, k2, k3⟩ := setK_row (u.ctxAt c.agent) c.kd (((u.ctxAt c.agent).getK c.kd).ended c'.rep c'.status c'.raceVa) r
    exact ⟨k1.trans h1, k2.trans h2, k3.trans h3⟩

/-! MZA (R187). -/

theorem isMatrix_mza (p : Reg) (kd ka kb kc : Tok) : isMatrix (.mza p kd ka kb kc) = true := by
  simp [isMatrix, opOf, encode]

/-- MZA has one unit, its rows. -/
theorem matrixComplete_mza {s : State} {id : Nat} {c : Cmd} {p : Reg} {kd ka kb kc : Tok} (hf : s.findCmd id = some c) (hst : c.st = .running)
    (hk : c.kind = .slot) (hi : c.ins = .mza p kd ka kb kc) (hd : c.done = 0) :
    matrixComplete s id = matrixEnd (mzaUnit s c) { c with done := 1 } := by
  have hid := findCmd_id hf
  have hm : isMatrix c.ins = true := by rw [hi]; exact isMatrix_mza p kd ka kb kc
  have hu : matrixUnits c = 1 := by rw [matrixUnits, hi]
  have hunit : matrixUnit s c = mzaUnit s c := by rw [matrixUnit, hi]
  have hadv : matrixAdvance id 1 s = mzaUnit s c := by
    simp only [matrixAdvance, hf, hst, hm, hk, hu, hd, hunit, decide_true, Bool.and_self, Nat.zero_lt_one, if_true]
  have hc : (mzaUnit s c).findCmd id = some { c with done := 1 } := findCmd_putCmd (c := c) hf hid
  unfold matrixComplete
  simp only [hf, hst, hk, hm, hu, hadv, hc, decide_true, Bool.and_self, Bool.not_true, Bool.false_eq_true, if_false]
  rw [hi]
  rfl

theorem foldl_clearRow (r : Reg) : ∀ (l : List Nat) (x : Ctx), (x.getV r = 0 ∧ x.vBad r = false) ∨ r.toNat ∈ l →
    (l.foldl (fun x r => (x.setV (BitVec.ofNat 6 r) 0).markBad (BitVec.ofNat 6 r) false) x).getV r = 0 ∧
      (l.foldl (fun x r => (x.setV (BitVec.ofNat 6 r) 0).markBad (BitVec.ofNat 6 r) false) x).vBad r = false
  | [], x, h => by simpa using h
  | j :: l, x, h => by
    refine foldl_clearRow r l _ ?_
    have hg : ((x.setV (BitVec.ofNat 6 j) 0).markBad (BitVec.ofNat 6 j) false).getV r = _ := getV_setV x (BitVec.ofNat 6 j) r 0
    have hb : ((x.setV (BitVec.ofNat 6 j) 0).markBad (BitVec.ofNat 6 j) false).vBad r = if r = BitVec.ofNat 6 j then false else x.vBad r :=
      markBad_vBad _ _ _ _
    rw [hg, hb]
    by_cases hj : r = BitVec.ofNat 6 j
    · exact .inl ⟨if_pos hj, if_pos hj⟩
    · rw [if_neg hj, if_neg hj]
      refine h.imp_right fun hm => (List.mem_cons.mp hm).resolve_left fun e => hj ?_
      rw [← e, BitVec.ofNat_toNat, BitVec.setWidth_eq]

/-- The rows of MZA are zero, without poison. -/
theorem mzaUnit_row {s : State} {c : Cmd} {r : Reg} (hr : r.toNat ∈ rowsWritten c) :
    ((mzaUnit s c).ctxAt c.agent).getV r = 0 ∧ ((mzaUnit s c).ctxAt c.agent).vBad r = false := by
  unfold mzaUnit
  rw [State.ctxAt_putCmd, State.ctxAt_modCtx_self]
  exact foldl_clearRow r _ _ (.inr hr)

/-- A row that no other command of the agent writes is not owed once the command has left. -/
theorem not_mem_rowsOwed {s : State} {c : Cmd} {n : Nat} {r : Reg} (h : ∀ d, d ∈ s.cmds → d.id ≠ c.id → d.agent = n → d.kind = .slot →
    ∀ j, j ∈ rowsWritten d → BitVec.ofNat 6 j ≠ r) : r.toNat ∉ ((s.putCmd c).dropCmd c.id).rowsOwed n := by
  intro hm
  obtain ⟨d, hd, hj⟩ := List.mem_flatMap.mp hm
  obtain ⟨hd, hown⟩ := List.mem_filter.mp hd
  obtain ⟨hd, hid⟩ := mem_dropCmd hd
  obtain ⟨e, he, hed⟩ := List.mem_map.mp (show d ∈ s.cmds.map fun x => if x.id = c.id then c else x from hd)
  simp only [Bool.and_eq_true, decide_eq_true_eq] at hown
  have hde : d = e := by
    by_cases heq : e.id = c.id
    · rw [if_pos heq] at hed
      exact absurd (by rw [← hed]) hid
    · rw [if_neg heq] at hed
      exact hed.symm
  refine h d (hde ▸ he) hid hown.1 hown.2 _ hj ?_
  rw [BitVec.ofNat_toNat, BitVec.setWidth_eq]

/-! The enable slots of the arrays (R355). -/

theorem clusterAt_setCluster_ne {n k : Nat} (s : State) (x : ClusterSt) (h : k ≠ n) : (s.setCluster n x).clusterAt k = s.clusterAt k :=
  mapGet_mapSet_ne _ _ _ _ _ h

/-- The ask that came first, of the one kept so far and the next. -/
def firstAsk (best : Option (Nat × Nat)) (a : Nat × Nat) : Option (Nat × Nat) :=
  match best with
  | none => some a
  | some b => if a.1 < b.1 then some a else some b

theorem foldl_firstAsk {q : Nat × Nat} : ∀ (l : List (Nat × Nat)) (best : Option (Nat × Nat)), (∀ a, a ∈ l → a = q ∨ q.1 < a.1) →
    best = some q ∨ (q ∈ l ∧ ∀ b, best = some b → q.1 < b.1) → l.foldl firstAsk best = some q
  | [], best, _, h => by simpa using h
  | a :: l, best, hl, h => by
    rw [List.foldl_cons]
    refine foldl_firstAsk l _ (fun x hx => hl x (List.mem_cons_of_mem a hx)) ?_
    have ha := hl a List.mem_cons_self
    obtain h | ⟨hq, hb⟩ := h
    · left
      rw [h]
      show (if a.1 < q.1 then some a else some q) = some q
      obtain rfl | ha := ha
      · rw [if_neg (Nat.lt_irrefl _)]
      · rw [if_neg (by omega)]
    · obtain rfl | ha := ha
      · left
        cases best with
        | none => rfl
        | some b => exact if_pos (hb b rfl)
      · right
        refine ⟨(List.mem_cons.mp hq).resolve_left fun e => absurd ha (by rw [e]; exact Nat.lt_irrefl _), fun b he => ?_⟩
        cases best with
        | none => cases he; exact ha
        | some b' =>
          have he : (if a.1 < b'.1 then some a else some b') = some b := he
          split at he
          · cases he; exact ha
          · cases he; exact hb _ rfl

/-- Every cluster has a place in the order of stagger positions. -/
theorem exists_stagger {cl : Nat} (h : cl < 72) : ∃ i, i < 72 ∧ 36 * (i / 36) + 7 * (i % 36) % 36 = cl := by
  have hq : 7 * (31 * (cl % 36) % 36) % 36 = cl % 36 := by omega
  refine ⟨36 * (cl / 36) + 31 * (cl % 36) % 36, by omega, ?_⟩
  rw [show (36 * (cl / 36) + 31 * (cl % 36) % 36) / 36 = cl / 36 by omega,
    show (36 * (cl / 36) + 31 * (cl % 36) % 36) % 36 = 31 * (cl % 36) % 36 by omega, hq]
  omega

theorem enableFirst_of_first {s : State} {cl t : Nat} (hcl : cl < 72) (ha : (s.clusterAt cl).asked = some t)
    (hfirst : ∀ k w, k < 72 → k ≠ cl → (s.clusterAt k).asked = some w → t < w) : enableFirst s = some cl := by
  have he : enableFirst s = ((((upTo 72).map fun i => 36 * (i / 36) + 7 * (i % 36) % 36).filterMap fun k =>
      (s.clusterAt k).asked.map fun t => (t, k)).foldl firstAsk none).map (·.2) := rfl
  rw [he, foldl_firstAsk (q := (t, cl))]
  · rfl
  · intro a ham
    obtain ⟨k, hk, hka⟩ := List.mem_filterMap.mp ham
    obtain ⟨w, hw, rfl⟩ := Option.map_eq_some_iff.mp hka
    obtain ⟨i, hi, rfl⟩ := List.mem_map.mp hk
    have hi := List.mem_range.mp hi
    by_cases hkc : 36 * (i / 36) + 7 * (i % 36) % 36 = cl
    · left
      rw [hkc] at hw ⊢
      rw [ha] at hw
      cases hw
      rfl
    · exact .inr (hfirst _ w (by omega) hkc hw)
  · obtain ⟨i, hi, hic⟩ := exists_stagger hcl
    refine .inr ⟨List.mem_filterMap.mpr ⟨cl, List.mem_map.mpr ⟨i, List.mem_range.mpr hi, hic⟩, by rw [ha]; rfl⟩, fun b hb => by cases hb⟩

theorem enableGrant_of_first {s : State} {cl : Nat} (h : enableFirst s = some cl) (ho : ∀ g, s.lastGrant = some g → g + 115 ≤ s.now) :
    enableGrant s cl = { s.setCluster cl { s.clusterAt cl with arraysOn := true, asked := none, lastBeat := s.now } with
      lastGrant := some s.now } := by
  unfold enableGrant
  dsimp only
  cases hg : s.lastGrant with
  | none => exact if_pos (by simp [h])
  | some g => exact if_pos (by simp [h, ho g hg])

theorem arrayDisable_of_idle {s : State} {cl : Nat} (hon : (s.clusterAt cl).arraysOn = true) (ht : (s.clusterAt cl).lastBeat + 65536 ≤ s.now)
    (hc : ∀ d, d ∈ s.cmds → d.kind = .slot → isMul d.ins = true → isSeq d.agent = false → clusterOf (coreOf d.agent) ≠ cl) :
    arrayDisable s cl = s.setCluster cl { s.clusterAt cl with arraysOn := false } := by
  have hall : s.cmds.all (fun c => !(c.kind = .slot && isMul c.ins && !isSeq c.agent && clusterOf (coreOf c.agent) = cl)) = true := by
    rw [List.all_eq_true]
    intro d hd
    rw [Bool.not_eq_true', ← Bool.not_eq_true]
    intro hb
    simp only [Bool.and_eq_true, decide_eq_true_eq, Bool.not_eq_true'] at hb
    obtain ⟨⟨⟨hk, hm⟩, hq⟩, hcl⟩ := hb
    exact hc d hd hk hm hq hcl
  unfold arrayDisable
  simp only [hon, ht, hall, decide_true, Bool.and_self, if_true]

/-- Settles O48: each event of the matrix engine, by the lemma about it. -/
theorem matrixEvents : Obligations.MatrixEvents := by
  unfold Obligations.MatrixEvents
  intro s id c
  refine ⟨fun hf hj hr => ⟨fun hi => ?_, fun hi hm hfree hnext => ?_, fun hi hm => ?_⟩, fun hf hst hk hm => ?_,
    fun p kd ka kb kc hf hst hk hi hd hfit => ?_, fun cl t hcl ha hfirst ho => ?_, fun cl hon ht hc => ?_⟩
  · refine ⟨_, (exec_matrixCommandStart hf hj).trans (congrArg _ (matrixStart_inherited hf hr hi)), ?_, fun d hd => ?_, ?_, fun r => ?_⟩
    · rw [matrixEnd_mem, countMul_mem]
    · have h := matrixEnd_gone hd
      exact findCmd_id hf ▸ h
    · exact tokenEnds_matrixEnd (c := { c with status := c.inherited, raceVa := c.inheritedAt }) (countMul_onlyRows s c c rfl).tokens
    · exact (matrixEnd_row _ { c with status := c.inherited, raceVa := c.inheritedAt } r).1.trans (countMul_getV s c r)
  · have hs := matrixStart_mul hf hr hi hm hfree hnext
    constructor
    · intro hon
      rw [if_pos hon] at hs
      refine ⟨_, (exec_matrixCommandStart hf hj).trans (congrArg _ hs), ⟨rfl, rfl⟩, ?_, mulStarted c (mulFits s c) s.now, ?_, ?_⟩
      · exact congrArg CoreSt.rr (State.coreAt_modCore_self s (coreOf c.agent) fun k => { k with rr := c.agent % 4 })
      · exact findCmd_putCmd (c := c) hf ((mulStarted_fields c _ _).1.trans (findCmd_id hf))
      · exact ⟨rfl, rfl, (mulStarted_fields c _ _).2.1, (mulStarted_fields c _ _).2.2, fun h => by rw [h]; exact ⟨rfl, rfl⟩,
          fun h => by rw [h]; exact ⟨rfl, matrixUnits_of_isMul hm⟩⟩
    · intro hoff hask
      rw [if_neg (by simp [hoff]), askEnable_of_off hoff hask] at hs
      exact ⟨_, (exec_matrixCommandStart hf hj).trans (congrArg _ hs), ⟨rfl, rfl⟩, rfl, by rw [State.clusterAt_setCluster_self]⟩
  · obtain ⟨t, c', hs, ht, hmem, hp⟩ := matrixStart_other hf hr hi hm
    have hid : c'.id = id := (show c'.id = c.id by rw [hp]).trans (findCmd_id hf)
    refine ⟨_, (exec_matrixCommandStart hf hj).trans (congrArg _ hs), ⟨hmem, ht.ctxs⟩, _, findCmd_putCmd (c := c) ?_ hid, rfl, rfl, ?_, ?_⟩
    · rw [ht.findCmd]; exact hf
    · show c'.ins = c.ins
      rw [hp]
    · show c'.par = c.par
      rw [hp]
  · exact ⟨_, rfl, matrixComplete_spec hf hst hk hm⟩
  · have hid := findCmd_id hf
    have he := matrixComplete_mza hf hst hk hi hd
    have hrows : rowsWritten c = (upTo (mzaM c)).map (mzaD0 c + ·) := by rw [rowsWritten, hi]
    refine ⟨_, congrArg Host.Outcome.next he, (matrixEnd_mem _ _).trans rfl, ?_, fun r h1 h2 => ?_⟩
    · exact tokenEnds_matrixEnd (c := { c with done := 1 }) (mzaUnit_onlyRows s c).tokens
    · have hmem : r.toNat ∈ rowsWritten c := by
        rw [hrows]
        exact List.mem_map.mpr ⟨r.toNat - mzaD0 c, List.mem_range.mpr (by omega), by omega⟩
      obtain ⟨hg, hb⟩ := mzaUnit_row (s := s) hmem
      obtain ⟨kg, kb⟩ := matrixEnd_row (mzaUnit s c) { c with done := 1 } r
      refine ⟨kg.trans hg, kb.trans hb, fun hall => ?_⟩
      refine matrixEnd_vFull (c := { c with done := 1 }) hmem ?_
      exact not_mem_rowsOwed (c := { c with done := 1 }) fun d hd hne => hall d hd (hid ▸ hne)
  · have hg := enableGrant_of_first (enableFirst_of_first hcl ha hfirst) ho
    exact ⟨_, congrArg Host.Outcome.next hg, ⟨rfl, rfl⟩, State.clusterAt_setCluster_self _ _ _, rfl,
      fun k hk => clusterAt_setCluster_ne _ _ hk⟩
  · have hg := arrayDisable_of_idle hon ht hc
    exact ⟨_, congrArg Host.Outcome.next hg, ⟨rfl, rfl⟩, by rw [State.clusterAt_setCluster_self], fun k hk => clusterAt_setCluster_ne _ _ hk⟩

end Sys2Proof.Machine
end

section
/-! PROOFS. spec/08_engines.md, spec/13_memory.md R206, spec/03_encoding.md R103 to R106: the events of the engines. -/

namespace Sys2Proof.Machine

open Sys2Proof.Safety

/-! The end of a command (R103, R220). -/

theorem commitFrom_of_owner {n : Nat} : ∀ (l : List PWrite) (s : State), (∀ w, w ∈ l → w.owner ≠ n) →
    State.commitFrom (fun p _ => decide (p.owner = n)) l s = s
  | [], _, _ => rfl
  | p :: rest, s, h => by
    unfold State.commitFrom
    rw [if_neg (by simpa using h p List.mem_cons_self)]
    exact commitFrom_of_owner rest s fun w hw => h w (List.mem_cons_of_mem p hw)

/-- Where an agent's engines have no write on its way, there is none to settle. -/
theorem settleEng_of_settled {s : State} {n : Nat} (h : EnginesSettled s n) : s.settleEng n = s := by
  obtain ⟨hrw, hpw⟩ := h
  have hc : s.commitWhere (fun p => decide (p.owner = engOf n)) = s := commitFrom_of_owner s.pw s hpw
  unfold State.settleEng State.applyWhere
  rw [hc, hrw]
  rfl

/-- A slot's command that ends with its engines settled leaves, and its token ends. -/
theorem endCmd_of_settled {s : State} {c : Cmd} (st : BitVec 8) (hk : c.kind = .slot) (h : EnginesSettled s c.agent) :
    s.endCmd c st = (s.dropCmd c.id).endToken c.agent c.kd c.rep st c.raceVa := by
  have hs : (s.dropCmd c.id).settleEng c.agent = s.dropCmd c.id := settleEng_of_settled h
  unfold State.endCmd
  rw [hs, hk]

theorem endCmd_mem {s : State} {c : Cmd} (st : BitVec 8) (hk : c.kind = .slot) (h : EnginesSettled s c.agent) : (s.endCmd c st).mem = s.mem := by
  rw [endCmd_of_settled st hk h, endToken_mem]
  rfl

theorem endCmd_gone {s : State} {c d : Cmd} (st : BitVec 8) (hk : c.kind = .slot) (h : EnginesSettled s c.agent)
    (hd : d ∈ (s.endCmd c st).cmds) : d.id ≠ c.id := by
  rw [endCmd_of_settled st hk h] at hd
  have hid := List.mem_map_of_mem (f := (·.id)) hd
  rw [endToken_ids] at hid
  obtain ⟨e, he, hed⟩ := List.mem_map.mp hid
  rw [← hed]
  exact (mem_dropCmd he).2

theorem endCmd_ctxAt_ne {s : State} {c : Cmd} {n : Nat} (st : BitVec 8) (hk : c.kind = .slot) (h : EnginesSettled s c.agent)
    (hn : n ≠ c.agent) : (s.endCmd c st).ctxAt n = s.ctxAt n := by
  rw [endCmd_of_settled st hk h, endToken_ctxAt_ne _ _ _ _ hn]
  rfl

theorem tokenEnds_endCmd {s t : State} {c : Cmd} (st : BitVec 8) (hk : c.kind = .slot) (h : EnginesSettled t c.agent)
    (hc : t.ctxs = s.ctxs) : TokenEnds s (t.endCmd c st) c st c.raceVa := by
  rw [endCmd_of_settled st hk h]
  exact tokenEnds_endToken st c.raceVa (congrArg Ctx.k (show mapGet {} t.ctxs c.agent = mapGet {} s.ctxs c.agent by rw [hc]))

/-! The start of a command (R105, R106, R222). -/

theorem acquire_eq (s : State) (n sc : Nat) : s.acquire n sc = { s with early := (s.acquire n sc).early } := by
  unfold State.acquire
  split <;> rfl

theorem nbReady_congr {s t : State} (c : Cmd) (h : t.step64 = s.step64) : nbReady t c = nbReady s c := by
  unfold nbReady
  rw [h]

/-- A command of a slot that nothing holds ends with the error of a token, waits for its step, or runs. -/
theorem engineStart_of_ready {s : State} {id : Nat} {c : Cmd} (hf : s.findCmd id = some c) (hj : s.jobs = []) (hk : c.kind = .slot)
    (hm : isMatrix c.ins = false) (hr : releaseReady s c = true) (hst : c.st = .queued) (ht : c.tokensFree = true)
    (hfb : fenceBlocks s c = false) (hsw : sparseWaits s c = false) :
    engineStart s id = if c.inherited ≠ 0 then (s.acquire c.agent 0).endCmd { c with raceVa := c.inheritedAt } c.inherited
      else if nbReady s c = false then (s.acquire c.agent 0).putCmd { c with st := .held } else engineBegin (s.acquire c.agent 0) c := by
  have hs : (s.acquire c.agent 0).step64 = s.step64 := by rw [acquire_eq]; rfl
  unfold engineStart
  simp only [hf, hk, hm, hr, hst, ht, hfb, hsw, stopped_of_no_jobs c hj, decide_true, Bool.and_false, Bool.not_true, Bool.or_self,
    bne_self_eq_false, Bool.false_eq_true, if_false, nbReady_congr c hs, bne_iff_ne, Bool.not_eq_true']

/-- The release that a command carries is done (R221). -/
def released (s : State) (c : Cmd) : State :=
  match c.relScope with
  | some sc => (s.flushTo c.agent (scopeOfNat sc)).showEng c.agent
  | none => s

theorem onlyMemory_released (s : State) (c : Cmd) : OnlyMemory s (released s c) := by
  unfold released
  split
  · next sc _ => exact .trans (t := s.flushTo c.agent (scopeOfNat sc)) (onlyMemory_flushTo _ _ _) rfl
  · exact .refl s

/-- An engine command that no first step of its own begins runs from now on. -/
theorem engineBegin_of_plain {s : State} {c : Cmd} (h : ∀ p a b d e, c.ins ≠ .rgmap p a b d e ∧ c.ins ≠ .rgwb p a b d e ∧
    c.ins ≠ .rginv p a b d e ∧ c.ins ≠ .lnch p a b d e) :
    engineBegin s c = (released s c).putCmd { c with st := .running, startAt := (released s c).now } := by
  unfold engineBegin
  dsimp only
  split
  · next p a b d e hi => exact absurd hi (h p a b d e).1
  · next p a b d e hi => exact absurd hi (h p a b d e).2.1
  · next p a b d e hi => exact absurd hi (h p a b d e).2.2.1
  · next p a b d e hi => exact absurd hi (h p a b d e).2.2.2
  · rfl

/-- A command that starts so leaves every context, and is found running. -/
theorem engineBegin_plain_spec {s : State} {id : Nat} {c : Cmd} (hf : s.findCmd id = some c) (h : ∀ p a b d e, c.ins ≠ .rgmap p a b d e ∧
    c.ins ≠ .rgwb p a b d e ∧ c.ins ≠ .rginv p a b d e ∧ c.ins ≠ .lnch p a b d e) :
    (engineBegin s c).ctxs = s.ctxs ∧ (engineBegin s c).findCmd id = some { c with st := .running, startAt := s.now } := by
  have hm := onlyMemory_released s c
  rw [engineBegin_of_plain h, hm.now]
  exact ⟨hm.ctxs, findCmd_putCmd ((hm.findCmd id).trans hf) (show c.id = id from findCmd_id hf)⟩

/-- RGMAP adds its entry where neither the region nor a guard of it overlaps one that is there (R206). -/
theorem engineBegin_rgmap {s : State} {c : Cmd} {p : Reg} {a b d e : Tok} {sa size : Nat} (hi : c.ins = .rgmap p a b d e)
    (hsa : (c.parAt 0).bits 0 31 = sa) (hsize : (c.parAt 2).bits 0 22 = size) (hlen : (s.coreAt (sa / 2 ^ 22)).regions.length < 64)
    (hno : ∀ r, r ∈ (s.coreAt (sa / 2 ^ 22)).regions → overlaps (sa % 2 ^ 22 - 64) (size + 128) (r.base - 64) (r.size + 128) = false) :
    (engineBegin s c).mem = s.mem ∧ (engineBegin s c).ctxs = s.ctxs ∧ ((engineBegin s c).coreAt (sa / 2 ^ 22)).regions =
      (s.coreAt (sa / 2 ^ 22)).regions ++
        [{ base := sa % 2 ^ 22, size := size, back := c.parAt 1, wb := (c.parAt 2).getLsbD 24, owner := c.task.getD 0 }] := by
  have hrel : c.relScope = none := by rw [Cmd.relScope, hi]
  have hclash : (s.coreAt (sa / 2 ^ 22)).regions.any (regionClash (sa % 2 ^ 22) size) = false := by
    rw [List.any_eq_false]
    intro r hr
    rw [regionClash, hno r hr]
    exact Bool.false_ne_true
  have hb : engineBegin s c = rgmapStart s { c with startAt := s.now } := by
    unfold engineBegin
    rw [hrel]
    dsimp only
    rw [hi]
  have hpar : ∀ i, ({ c with startAt := s.now } : Cmd).parAt i = c.parAt i := fun i => rfl
  rw [hb]
  unfold rgmapStart
  simp only [hpar, hsa, hsize, hclash, Bool.false_eq_true, if_false, Nat.not_le.mpr hlen]
  split
  · exact ⟨rfl, rfl, by rw [State.over, coreAt_putCmd, State.coreAt_modCore_self]⟩
  · exact ⟨rfl, rfl, by rw [coreAt_putCmd, State.coreAt_modCore_self]⟩

/-- A copy command is none of those that begin with a step of their own. -/
theorem plain_of_isCopy {i : Instr} (h : isCopy i = true) (p : Reg) (a b d e : Tok) :
    i ≠ .rgmap p a b d e ∧ i ≠ .rgwb p a b d e ∧ i ≠ .rginv p a b d e ∧ i ≠ .lnch p a b d e := by
  refine ⟨?_, ?_, ?_, ?_⟩ <;> (rintro rfl; simp [isCopy, opOf, encode] at h)

theorem nbRelease_of_ready {s : State} {id : Nat} {c : Cmd} (hf : s.findCmd id = some c) (hj : s.jobs = []) (hk : c.kind = .slot)
    (hr : releaseReady s c = true) (hst : c.st = .held) (hc : isCopy c.ins = true) (hn : nbReady s c = true) :
    nbRelease s id = engineBegin s c := by
  unfold nbRelease
  simp only [hf, hst, hk, hc, hn, hr, stopped_of_no_jobs c hj, decide_true, Bool.not_false, Bool.and_self, if_true]

/-! The end of a command as an event (R220). -/

theorem runUnits_of_done {unit : State → Cmd → State} {s : State} {id : Nat} {c : Cmd} (hf : s.findCmd id = some c) (hst : c.st = .done) :
    ∀ n, runUnits unit id n s = s
  | 0 => rfl
  | n + 1 => by
    unfold runUnits
    simp only [hf, hst]
    rfl

theorem engineLast_of_done {s : State} {c : Cmd} (hst : c.st = .done) : engineLast s c = s := by
  unfold engineLast
  split
  · rw [hst]
    rfl
  · rfl

/-- A command of a slot that is over and answered ends. -/
theorem engineComplete_of_done {s : State} {id : Nat} {c : Cmd} (hf : s.findCmd id = some c) (hk : c.kind = .slot)
    (hm : isMatrix c.ins = false) (hst : c.st = .done) (hq : ∀ r, r ∈ s.fab.reqs → r.cmd ≠ id) :
    engineComplete s id = s.endCmd c c.status := by
  have hreq : s.fab.reqs.any (fun r => decide (r.cmd = c.id)) = false := by
    rw [List.any_eq_false]
    intro r hr
    simpa [findCmd_id hf] using hq r hr
  have hfin : cmdFinished s c = true := by
    unfold cmdFinished
    rw [hst, hreq]
    rfl
  unfold engineComplete
  have hrun : decide (c.st = .running) = false := by rw [hst]; rfl
  simp only [hf, hk, hm, hrun, Bool.false_and, runUnits_of_done hf hst, Bool.false_eq_true, if_false]
  rw [if_neg (t := launchCheck s c) (e := s) ?_, hf]
  · dsimp only
    rw [if_pos hfin, engineLast_of_done hst]
  · split <;> exact Bool.false_ne_true

/-! Parks and records (R224, R309). -/

theorem die_modDie_self (s : State) (d : Nat) (f : DieSt → DieSt) : (s.modDie d f).die d = f (s.die d) := by
  unfold State.modDie
  by_cases h : d = 0
  · subst h
    exact State.die_setDie_zero _ _
  · exact State.die_setDie_one _ _ _ h

/-- The record of a command's park. -/
def parkRecord (s : State) (c : Cmd) (va : Word) (cause kind h : Nat) : FaultRecord :=
  mkRecord va cause kind c.recordCtx.2.2 c.recordCtx.1 c.recordCtx.2.1 (wordOfNat h) s.ownDev

theorem mkRecord_cause (va : Word) {cause : Nat} (kind op ctx token : Nat) (handle : Word) (dev : Nat) (h : cause < 2 ^ 16) :
    (mkRecord va cause kind op ctx token handle dev).lo.bits 0 16 = cause := by
  unfold mkRecord
  simp only [BitVec.bits, wordOfNat, BitVec.toNat_ofNat, Nat.shiftRight_zero]
  omega

/-- The state in which the command stands parked, before its record. -/
def parkedAt (s : State) (c : Cmd) (va : Word) (cause kind h : Nat) : State :=
  ({ s with handle := if c.handle = none then s.handle + 1 else s.handle }).putCmd
    { c with st := .parked { va := va, cause := cause, kind := kind, handle := h }, handle := some h }

theorem parkCmd_of_faulting {s : State} {id : Nat} {c : Cmd} {va : Word} {cause kind h : Nat} (hf : s.findCmd id = some c)
    (hst : c.st = .faulting va cause kind) (hh : c.handle.getD s.handle = h) :
    s.parkCmd id = (parkedAt s c va cause kind h).addRecord c.die (parkRecord s c va cause kind h) := by
  unfold State.parkCmd
  rw [hf]
  dsimp only
  rw [hst]
  dsimp only
  rw [hh]
  cases hc : c.handle with
  | none =>
    unfold parkedAt parkRecord
    rw [hc]
    rfl
  | some k =>
    unfold parkedAt parkRecord
    rw [hc]
    rfl

/-! The fault ring (R308, R309). -/

/-- A part of a range of bytes is that part of the range's number. -/
theorem memReadN_part (m : Mem) {a k n size : Nat} (h : k + n ≤ size) : memReadN m (a + k) n = memReadN m a size / 256 ^ k % 256 ^ n := by
  obtain ⟨rest, rfl⟩ := Nat.exists_eq_add_of_le h
  have hk := memReadN_lt m k a
  have hn := memReadN_lt m n (a + k)
  rw [memReadN_add m (k + n) rest a, memReadN_add m k n a, Nat.pow_add, Nat.mul_assoc, Nat.add_assoc, ← Nat.mul_add,
    Nat.add_mul_div_left _ _ (Nat.pow_pos (by decide)), Nat.div_eq_of_lt hk, Nat.zero_add, Nat.add_mul_mod_self_left, Nat.mod_eq_of_lt hn]

theorem memReadN_congr {m m' : Mem} : ∀ {n a : Nat}, (∀ k, a ≤ k → k < a + n → memGet m k = memGet m' k) →
    memReadN m a n = memReadN m' a n
  | 0, _, _ => rfl
  | n + 1, a, h => by
    rw [memReadN, memReadN, h a (Nat.le_refl a) (by omega), memReadN_congr fun k h1 h2 => h k (by omega) (by omega)]

/-- A word outside what was written is as it was. -/
theorem memWord_memWriteN_outside {m : Mem} {a n v b : Nat} (hw : m.wf = true) (h : b + 8 ≤ a ∨ a + n ≤ b) :
    memWord (memWriteN m a n v) b = memWord m b := by
  rw [memWord, memWord, memReadN_congr fun k h1 h2 => memGet_memWriteN_outside n a v k hw (by omega)]

/-- The word in place i of the bytes just written. -/
theorem memWord_memWriteN_inside {m : Mem} {a n v k : Nat} (hw : m.wf = true) (h : k + 8 ≤ n) :
    memWord (memWriteN m a n v) (a + k) = BitVec.ofNat 64 (v % 256 ^ n / 256 ^ k) := by
  rw [memWord, memReadN_part _ h, memReadN_memWriteN n a v hw]
  apply BitVec.eq_of_toNat_eq
  rw [BitVec.toNat_ofNat, BitVec.toNat_ofNat]
  exact Nat.mod_mod _ _

/-- Four words side by side, word by word. -/
theorem words_of_sum {a b c d : Nat} (ha : a < 2 ^ 64) (hb : b < 2 ^ 64) (hc : c < 2 ^ 64) (hd : d < 2 ^ 64) :
    (a + b <<< 64 + c <<< 128 + d <<< 192) % 256 ^ 32 / 256 ^ 0 % 2 ^ 64 = a ∧
    (a + b <<< 64 + c <<< 128 + d <<< 192) % 256 ^ 32 / 256 ^ 8 % 2 ^ 64 = b ∧
    (a + b <<< 64 + c <<< 128 + d <<< 192) % 256 ^ 32 / 256 ^ 16 % 2 ^ 64 = c ∧
    (a + b <<< 64 + c <<< 128 + d <<< 192) % 256 ^ 32 / 256 ^ 24 % 2 ^ 64 = d := by
  have h8 : (256 : Nat) ^ 8 = 2 ^ 64 := by norm_num
  have h16 : (256 : Nat) ^ 16 = 2 ^ 128 := by norm_num
  have h24 : (256 : Nat) ^ 24 = 2 ^ 192 := by norm_num
  have h32 : (256 : Nat) ^ 32 = 2 ^ 256 := by norm_num
  rw [h8, h16, h24, h32, Nat.shiftLeft_eq, Nat.shiftLeft_eq, Nat.shiftLeft_eq, pow_zero]
  refine ⟨?_, ?_, ?_, ?_⟩ <;> omega

/-- The 32 bytes of a record in the ring. -/
def recordBytes (r : FaultRecord) : Nat := r.va.toNat + r.lo.toNat <<< 64 + r.handle.toNat <<< 128 + r.hi.toNat <<< 192

theorem recordBytes_words (r : FaultRecord) : BitVec.ofNat 64 (recordBytes r % 256 ^ 32 / 256 ^ 0) = r.va ∧
    BitVec.ofNat 64 (recordBytes r % 256 ^ 32 / 256 ^ 8) = r.lo ∧ BitVec.ofNat 64 (recordBytes r % 256 ^ 32 / 256 ^ 16) = r.handle ∧
    BitVec.ofNat 64 (recordBytes r % 256 ^ 32 / 256 ^ 24) = r.hi := by
  obtain ⟨h0, h1, h2, h3⟩ := words_of_sum r.va.isLt r.lo.isLt r.handle.isLt r.hi.isLt
  refine ⟨?_, ?_, ?_, ?_⟩ <;>
  · apply BitVec.eq_of_toNat_eq
    rw [BitVec.toNat_ofNat]
    assumption

/-- The oldest record has left the holding area, and the next that waited for room has its place (R309). -/
def recordTaken (rest : List FaultRecord) (x : DieSt) : DieSt := { x with records := rest ++ x.owed.take 1, owed := x.owed.drop 1 }

theorem drainRing_of_room {s : State} {d base size : Nat} {r : FaultRecord} {rest : List FaultRecord} {prod : Word}
    (hr : (s.die d).records = r :: rest) (hon : (s.die d).efring.getLsbD 0 = true) (hb : (s.die d).efring.bits 6 42 * 64 = base)
    (hs : 2 ^ ((s.die d).efring.bits 60 4 + 4) = size) (hp : memWord s.mem base = prod)
    (hroom : (prod - memWord s.mem (base + 8)).toNat < size) :
    s.drainRing d = ((s.putBytes (base + 64 + 32 * (prod.toNat % size)) 32 (recordBytes r)).putBytes base 8 (prod + 1).toNat).modDie d
      (recordTaken rest) := by
  unfold State.drainRing
  simp only [hr, hb, hs, hon, State.peek, hp, Nat.not_le.mpr hroom, Bool.not_true, decide_false, Bool.or_self, Bool.false_eq_true, if_false]
  rfl

/-- What the ring holds once a record is in it: the record in its place, PRODUCED one more, every other byte as it was (R308). -/
theorem ring_words {m : Mem} {base a : Nat} {r : FaultRecord} {prod : Word} (hw : m.wf = true) (ha : base + 64 ≤ a) :
    memWord (memWriteN (memWriteN m a 32 (recordBytes r)) base 8 prod.toNat) base = prod ∧
      memWord (memWriteN (memWriteN m a 32 (recordBytes r)) base 8 prod.toNat) a = r.va ∧
      memWord (memWriteN (memWriteN m a 32 (recordBytes r)) base 8 prod.toNat) (a + 8) = r.lo ∧
      memWord (memWriteN (memWriteN m a 32 (recordBytes r)) base 8 prod.toNat) (a + 16) = r.handle ∧
      memWord (memWriteN (memWriteN m a 32 (recordBytes r)) base 8 prod.toNat) (a + 24) = r.hi ∧
      ∀ q, q < base ∨ (base + 8 ≤ q ∧ q < a) ∨ a + 32 ≤ q →
        memGet (memWriteN (memWriteN m a 32 (recordBytes r)) base 8 prod.toNat) q = memGet m q := by
  have hw' := wf_memWriteN 32 a (recordBytes r) hw
  obtain ⟨h0, h1, h2, h3⟩ := recordBytes_words r
  have hin : ∀ k, k + 8 ≤ 32 → memWord (memWriteN (memWriteN m a 32 (recordBytes r)) base 8 prod.toNat) (a + k) =
      BitVec.ofNat 64 (recordBytes r % 256 ^ 32 / 256 ^ k) := fun k hk => by
    rw [memWord_memWriteN_outside hw' (.inr (by omega)), memWord_memWriteN_inside hw hk]
  refine ⟨?_, (hin 0 (by decide)).trans h0, (hin 8 (by decide)).trans h1, (hin 16 (by decide)).trans h2, (hin 24 (by decide)).trans h3,
    fun q hq => ?_⟩
  · rw [memWord, memReadN_memWriteN 8 base _ hw', Nat.mod_eq_of_lt (by have := prod.isLt; omega), BitVec.ofNat_toNat, BitVec.setWidth_eq]
  · rw [memGet_memWriteN_outside 8 base _ q hw' (by omega), memGet_memWriteN_outside 32 a _ q hw (by omega)]

theorem putBytes_putBytes_modDie_mem (s : State) (a n v b k w d : Nat) (f : DieSt → DieSt) :
    (((s.putBytes a n v).putBytes b k w).modDie d f).mem = memWriteN (memWriteN s.mem a n v) b k w := rfl

theorem putBytes_putBytes_modDie_ctxs (s : State) (a n v b k w d : Nat) (f : DieSt → DieSt) :
    (((s.putBytes a n v).putBytes b k w).modDie d f).ctxs = s.ctxs := rfl

theorem putBytes_putBytes_modDie_die (s : State) (a n v b k w d : Nat) (f : DieSt → DieSt) :
    (((s.putBytes a n v).putBytes b k w).modDie d f).die d = f (s.die d) := die_modDie_self _ d f

/-- Settles O49: each event of the engines, by the lemma about it. -/
theorem engineEvents : Obligations.EngineEvents := by
  unfold Obligations.EngineEvents
  intro s id c
  refine ⟨fun hf hj hk hm hr => ⟨fun hst ht hfb hsw => ?_, fun hst hc hn => ?_⟩, fun hf hk hm hst hset hq => ?_,
    fun va cause kind h hf hst hcause hh => ?_, fun d r rest base size prod a hd hw hrec hon hb hs hp hroom ha => ?_⟩
  · have hid := findCmd_id hf
    have hstart := engineStart_of_ready hf hj hk hm hr hst ht hfb hsw
    have hacq := acquire_eq s c.agent 0
    have hfacq : (s.acquire c.agent 0).findCmd id = some c := (onlyMemory_acquire s c.agent 0).findCmd id ▸ hf
    have hnow : (s.acquire c.agent 0).now = s.now := (onlyMemory_acquire s c.agent 0).now
    have hctxs : (s.acquire c.agent 0).ctxs = s.ctxs := (onlyMemory_acquire s c.agent 0).ctxs
    have hmem : (s.acquire c.agent 0).mem = s.mem := by rw [hacq]
    have hcore : ∀ k, (s.acquire c.agent 0).coreAt k = s.coreAt k := fun k => by rw [hacq]; rfl
    have hset : EnginesSettled s c.agent → EnginesSettled (s.acquire c.agent 0) c.agent := fun h => by rw [hacq]; exact h
    generalize s.acquire c.agent 0 = t at hstart hfacq hnow hctxs hmem hcore hset
    refine ⟨fun hi hsettled => ?_, fun hi hn => ?_, fun hi hn hplain => ?_,
      fun p a b d e sa size core base hi hins hsa hsize hcore' hbase hlen hno => ?_⟩
    · rw [if_pos hi] at hstart
      refine ⟨_, congrArg Host.Outcome.next hstart, ?_, fun d hd => ?_, ?_⟩
      · exact (endCmd_mem (c := { c with raceVa := c.inheritedAt }) _ hk (hset hsettled)).trans hmem
      · have h := endCmd_gone (c := { c with raceVa := c.inheritedAt }) _ hk (hset hsettled) hd
        exact hid ▸ h
      · exact tokenEnds_endCmd (c := { c with raceVa := c.inheritedAt }) _ hk (hset hsettled) hctxs
    · rw [if_neg (by simp [hi]), if_pos hn] at hstart
      exact ⟨_, congrArg Host.Outcome.next hstart, ⟨hmem, hctxs⟩, findCmd_putCmd hfacq hid⟩
    · rw [if_neg (by simp [hi]), if_neg (by simp [hn])] at hstart
      obtain ⟨h1, h2⟩ := engineBegin_plain_spec hfacq hplain
      exact ⟨_, congrArg Host.Outcome.next hstart, h1.trans hctxs, hnow ▸ h2⟩
    · have hn : nbReady s c = true := by rw [nbReady, hins]
      rw [if_neg (by simp [hi]), if_neg (by simp [hn])] at hstart
      rw [← hcore', ← hbase] at *
      obtain ⟨h1, h2, h3⟩ := engineBegin_rgmap (s := t) hins hsa hsize (by rw [hcore]; exact hlen) (by rw [hcore]; exact hno)
      exact ⟨_, congrArg Host.Outcome.next hstart, ⟨h1.trans hmem, h2.trans hctxs⟩, h3.trans (by rw [hcore])⟩
  · obtain ⟨h1, h2⟩ := engineBegin_plain_spec hf (plain_of_isCopy hc)
    exact ⟨_, congrArg Host.Outcome.next (nbRelease_of_ready hf hj hk hr hst hc hn), h1, h2⟩
  · refine ⟨_, congrArg Host.Outcome.next (engineComplete_of_done hf hk hm hst hq), endCmd_mem _ hk hset, fun d hd => ?_,
      tokenEnds_endCmd _ hk hset rfl, fun n hn => endCmd_ctxAt_ne _ hk hset hn⟩
    exact findCmd_id hf ▸ endCmd_gone _ hk hset hd
  · have hid := findCmd_id hf
    refine ⟨_, congrArg Host.Outcome.next (parkCmd_of_faulting hf hst hh), ⟨rfl, rfl⟩, ?_, rfl, parkRecord s c va cause kind h, ?_, rfl, rfl,
      mkRecord_cause va kind _ _ _ _ _ hcause⟩
    · exact findCmd_putCmd (c := c) hf hid
    · exact die_modDie_self _ _ _
  · have hdrain := drainRing_of_room hrec hon hb hs hp hroom
    rw [ha] at hdrain
    have hdie := putBytes_putBytes_modDie_die s a 32 (recordBytes r) base 8 (prod + 1).toNat d (recordTaken rest)
    have hring := ring_words (r := r) (prod := prod + 1) hw (show base + 64 ≤ a from ha ▸ Nat.le_add_right _ _)
    rw [← putBytes_putBytes_modDie_mem s a 32 (recordBytes r) base 8 (prod + 1).toNat d (recordTaken rest)] at hring
    have hctxs := putBytes_putBytes_modDie_ctxs s a 32 (recordBytes r) base 8 (prod + 1).toNat d (recordTaken rest)
    exact ⟨_, congrArg Host.Outcome.next hdrain, hctxs, congrArg DieSt.records hdie, congrArg DieSt.owed hdie, hring⟩

end Sys2Proof.Machine
end

section
/-! PROOFS. spec/04_scalar.md R114 to R119: the functions of the scalar slots, and what the slots write. -/

namespace Sys2Proof.Machine

open Sys2Proof.Safety

/-! The ALU functions by the values of their operands (R114). -/

theorem shiftCount_eq (y : Word) : y.bits 0 6 = y.toNat % 64 := by simp [BitVec.bits]

theorem aluShl_eq (x y : Word) : aluShl x y = x <<< (y.toNat % 64) := by rw [aluShl, shiftCount_eq]

theorem aluShr_eq (x y : Word) : aluShr x y = x >>> (y.toNat % 64) := by rw [aluShr, shiftCount_eq]

theorem aluSra_eq (x y : Word) : aluSra x y = BitVec.ofInt 64 (x.toInt >>> (y.toNat % 64)) := by
  rw [aluSra, BitVec.sshiftRight, shiftCount_eq]

theorem aluRor_eq (x y : Word) : aluRor x y = (x >>> (y.toNat % 64)) ||| (x <<< (64 - y.toNat % 64)) := by
  rw [aluRor, shiftCount_eq, BitVec.rotateRight_eq_rotateRightAux_of_lt (Nat.mod_lt _ (by decide)), BitVec.rotateRightAux]

theorem aluSlt_eq (x y : Word) : aluSlt x y = if x.toInt < y.toInt then 1 else 0 := by
  rw [aluSlt, boolWord, BitVec.slt]
  simp only [decide_eq_true_eq]

theorem aluSltn_eq (x y : Word) : aluSltn x y = if x.toNat < y.toNat then 1 else 0 := by
  rw [aluSltn, boolWord, BitVec.ult]
  simp only [decide_eq_true_eq]

theorem aluSeq_eq (x y : Word) : aluSeq x y = if x = y then 1 else 0 := by
  rw [aluSeq, boolWord]
  simp only [decide_eq_true_eq]

theorem aluMin_eq (x y : Word) : aluMin x y = if x.toInt ≤ y.toInt then x else y := by
  rw [aluMin, BitVec.slt]
  simp only [decide_eq_true_eq, ← Int.not_le, ite_not]

/-- Where the operands are equal, either is the greater one. -/
theorem aluMax_eq (x y : Word) : aluMax x y = if x.toInt ≤ y.toInt then y else x := by
  rw [aluMax, BitVec.slt]
  simp only [decide_eq_true_eq]
  rcases Int.lt_trichotomy x.toInt y.toInt with h | h | h
  · rw [if_pos h, if_pos (Int.le_of_lt h)]
  · rw [BitVec.eq_of_toInt_eq h, ite_self, ite_self]
  · rw [if_neg (by omega), if_neg (by omega)]

/-! SEL waits for its old destination (R114). -/

theorem stalls_sel_of_empty {s : State} {d : Reg} (a b : Reg) (wa wb : Bool) (h : (own s).xFull d = false) :
    stalls s s.cur [.sel d a b wa wb] 0 = true := by
  have hsource : sourceStall (own s) (.sel d a b wa wb) = true := by simp [sourceStall, uses, h]
  unfold stalls resourceStall
  rw [List.any_cons, show s.ctxAt s.cur = own s from rfl, hsource]
  rfl

/-- A context whose bundle has no BAR arrives at no barrier. -/
theorem arrive_of_not_bar {s : State} {n : Nat} {i : Instr} (h : ∀ id, i ≠ .bar id) : s.arrive n [i] = s := by
  unfold State.arrive
  dsimp only
  split
  · next hi _ => exact absurd (Option.some.inj hi) (h _)
  · rfl

theorem exec_sel_of_empty {s : State} {d a b : Reg} {wa wb : Bool} (hopen : s.iss.isOpen = false) (hfull : (own s).xFull d = false)
    (hstatic : staticFault (own s).kernel (isSeq s.cur) none [some (.sel d a b wa wb)] = none) :
    exec (.sel d a b wa wb) s = .next (stallCtx s s.cur) := by
  have h := issue_stalls (xRes 1 d fun c => if c.getX d != 0 then c.getX a else c.getX b) hopen hstatic
    (stalls_sel_of_empty a b wa wb hfull)
  rwa [arrive_of_not_bar (i := .sel d a b wa wb) nofun] at h

/-- Settles O1: every slot writes its function of the operands, and that function is the rule's. -/
theorem aluResults : Obligations.AluResults := by
  rintro s d a b wa wb _ _ rfl rfl
  refine ⟨?add, ?sub, ?and, ?or, ?xor, ?andn, ?shl, ?shr, ?sra, ?ror, ?slt, ?sltn, ?seq, ?min, ?max, ?sel, ?selWaits⟩
  case add => exact fun h => writesNow_xRes h nofun
  case sub => exact fun h => writesNow_xRes h nofun
  case and => exact fun h => writesNow_xRes h nofun
  case or => exact fun h => writesNow_xRes h nofun
  case xor => exact fun h => writesNow_xRes h nofun
  case andn => exact fun h => writesNow_xRes h nofun
  case shl => exact fun h => writesNow_congr (writesNow_xRes h nofun) (aluShl_eq _ _)
  case shr => exact fun h => writesNow_congr (writesNow_xRes h nofun) (aluShr_eq _ _)
  case sra => exact fun h => writesNow_congr (writesNow_xRes h nofun) (aluSra_eq _ _)
  case ror => exact fun h => writesNow_congr (writesNow_xRes h nofun) (aluRor_eq _ _)
  case slt => exact fun h => writesNow_congr (writesNow_xRes h nofun) (aluSlt_eq _ _)
  case sltn => exact fun h => writesNow_congr (writesNow_xRes h nofun) (aluSltn_eq _ _)
  case seq => exact fun h => writesNow_congr (writesNow_xRes h nofun) (aluSeq_eq _ _)
  case min => exact fun h => writesNow_congr (writesNow_xRes h nofun) (aluMin_eq _ _)
  case max => exact fun h => writesNow_congr (writesNow_xRes h nofun) (aluMax_eq _ _)
  case sel => exact fun h => writesNow_congr (writesNow_xRes h nofun) (by simp only [bne_iff_ne])
  case selWaits => exact exec_sel_of_empty

/-! The products and the unsigned comparisons (R115). -/

/-- The high half of a 128-bit two's complement number. -/
theorem extractLsb'_ofInt_high (z : Int) : (BitVec.ofInt 128 z).extractLsb' 64 64 = BitVec.ofInt 64 (z >>> (64 : Int)) := by
  have hshift : z >>> (64 : Int) = z >>> (64 : Nat) := Int.shiftRight_natCast_right z 64
  apply BitVec.eq_of_toNat_eq
  rw [hshift]
  simp only [BitVec.extractLsb'_toNat, BitVec.toNat_ofInt, Nat.shiftRight_eq_div_pow, Int.shiftRight_eq_div_pow]
  omega

theorem aluMulh_eq (x y : Word) : aluMulh x y = (x.signExtend 128 * y.signExtend 128).extractLsb' 64 64 := by
  rw [aluMulh, wordOfInt, BitVec.signExtend, BitVec.signExtend, ← BitVec.ofInt_mul, extractLsb'_ofInt_high]

theorem aluMulhn_eq (x y : Word) : aluMulhn x y = (x.setWidth 128 * y.setWidth 128).extractLsb' 64 64 := by
  have hlt : x.toNat * y.toNat < 2 ^ 128 := (Nat.mul_lt_mul'' x.isLt y.isLt).trans_eq (by decide)
  apply BitVec.eq_of_toNat_eq
  rw [BitVec.extractLsb'_toNat, BitVec.toNat_mul, BitVec.toNat_setWidth_of_le (by decide), BitVec.toNat_setWidth_of_le (by decide),
    Nat.mod_eq_of_lt hlt]
  rfl

theorem aluMinn_eq (x y : Word) : aluMinn x y = if x.toNat ≤ y.toNat then x else y := by
  rw [aluMinn, BitVec.ult]
  simp only [decide_eq_true_eq, ← Nat.not_le, ite_not]

theorem aluMaxn_eq (x y : Word) : aluMaxn x y = if x.toNat ≤ y.toNat then y else x := by
  rw [aluMaxn, BitVec.ult]
  simp only [decide_eq_true_eq]
  rcases Nat.lt_trichotomy x.toNat y.toNat with h | h | h
  · rw [if_pos h, if_pos (Nat.le_of_lt h)]
  · rw [BitVec.eq_of_toNat_eq h, ite_self, ite_self]
  · rw [if_neg (by omega), if_neg (by omega)]

/-- Settles O2: a product is on its way with the half that the rule names; a division starts as an access with its operands. -/
theorem mulResults : Obligations.MulResults := by
  rintro s d a b wa wb _ _ rfl rfl
  refine ⟨?mul, ?mulh, ?mulhn, ?minn, ?maxn, ?div, ?divn, ?rem, ?remn⟩
  case mul => exact fun h => writesLater_xRes h nofun (by decide)
  case mulh => exact fun h => writesLater_congr (writesLater_xRes h nofun (by decide)) (aluMulh_eq _ _)
  case mulhn => exact fun h => writesLater_congr (writesLater_xRes h nofun (by decide)) (aluMulhn_eq _ _)
  case minn => exact fun h => writesNow_congr (writesNow_xRes h nofun) (aluMinn_eq _ _)
  case maxn => exact fun h => writesNow_congr (writesNow_xRes h nofun) (aluMaxn_eq _ _)
  case div => exact fun h => starts_queue h nofun rfl rfl rfl rfl
  case divn => exact fun h => starts_queue h nofun rfl rfl rfl rfl
  case rem => exact fun h => starts_queue h nofun rfl rfl rfl rfl
  case remn => exact fun h => starts_queue h nofun rfl rfl rfl rfl

/-! The immediate forms (R118, R119). -/

theorem shiftCount_setWidth (k : BitVec 6) : (k.setWidth 64).toNat % 64 = k.toNat := by
  simp only [BitVec.toNat_setWidth]
  omega

/-- Settles O4: each form is the ALU slot's function of x[A] and the extended immediate. -/
theorem immediateForms : Obligations.ImmediateForms := by
  rintro s d a wa n k _ _ rfl rfl
  refine ⟨?addi, ?andi, ?ori, ?xori, ?shli, ?shri, ?srai, ?slti, ?sltni⟩
  case addi => exact fun h => writesNow_xRes h nofun
  case andi => exact fun h => writesNow_xRes h nofun
  case ori => exact fun h => writesNow_xRes h nofun
  case xori => exact fun h => writesNow_xRes h nofun
  case shli => exact fun h => writesNow_congr (writesNow_xRes h nofun) (by rw [aluShl_eq, shiftCount_setWidth])
  case shri => exact fun h => writesNow_congr (writesNow_xRes h nofun) (by rw [aluShr_eq, shiftCount_setWidth])
  case srai => exact fun h => writesNow_congr (writesNow_xRes h nofun) (by rw [aluSra_eq, shiftCount_setWidth])
  case slti => exact fun h => writesNow_congr (writesNow_xRes h nofun) (aluSlt_eq _ _)
  case sltni => exact fun h => writesNow_congr (writesNow_xRes h nofun) (aluSltn_eq _ _)

theorem shiftLeft_two_eq_mul_four (x : Word) : x <<< 2 = x * 4 := by
  apply BitVec.eq_of_toNat_eq
  simp [Nat.shiftLeft_eq]

/-- The ADDPC effect reads the bundle's address where the bundle is open. -/
theorem writesNow_addpc {s : State} {d : Reg} {n : BitVec 18} (h : Ready (.addpc d n) s) :
    WritesNow (exec (.addpc d n) s) s d ((own s).pc + (n.signExtend 64 <<< 2)) := by
  refine writesNow_of_does (does_of (eff := fun u => xRes 1 d (fun _ => u.iss.pc + (n.signExtend 64 <<< 2)) u)
    (f := fun c => c.addX 1 d ((own s).pc + (n.signExtend 64 <<< 2))) h nofun rfl rfl
    (fun _ hk => State.ctxAt_modCtx_ne _ _ _ _ hk) (State.ctxAt_modCtx_self _ _ _) rfl rfl ?_)
  exact ready_drain_ne_rft h (addX_drain _ _ _ _)

/-- Settles O5: LI and LIS by their values, ADDPC by the address of the bundle that it opens. -/
theorem longImmediates : Obligations.LongImmediates := by
  intro s d n
  refine ⟨?li, ?lis, ?addpc⟩
  case li => exact fun h => writesNow_xRes h nofun
  case lis => exact fun h => writesNow_xRes h nofun
  case addpc => exact fun h => writesNow_congr (writesNow_addpc h) (by rw [shiftLeft_two_eq_mul_four])

end Sys2Proof.Machine
end

section
/-! PROOFS. What the end of a bundle makes of its context's loop levels and of its program counter (spec/04_scalar.md R125, R126). -/

namespace Sys2Proof.Machine

open Sys2Proof.Safety

/-! The bundle of one slot, and the context that it leaves. -/

/-- A closed bundle that left u, which is s' but for the context whose turn it is, c in u. -/
theorem closed_spec {s' u : State} {c : Ctx} (hs : u = { s' with ctxs := u.ctxs, iss := u.iss }) (hk : ∀ k, k ≠ s'.cur → u.ctxAt k = s'.ctxAt k)
    (hc : u.ctxAt s'.cur = c) : OnlyOwn s' (closed u) ∧ (closed u).ctxAt s'.cur = closedCtx u.iss c := by
  have hcu : u.cur = s'.cur := by rw [hs]
  have h := closed_ctxAt u
  rw [hcu, hc] at h
  exact ⟨closed_onlyOwn hs hk, h⟩

theorem closedCtx_drain {i : Iss} (c : Ctx) (hr : i.repLeft = none) : (closedCtx i c).drain = c.drain := by
  rw [(closedCtx_frame (c := c) hr).1]
  exact aged_drain c

/-- A bundle with nothing to follow it closes. -/
theorem closeBundle_closes {s' u : State} {c : Ctx} (hs : u = { s' with ctxs := u.ctxs, iss := u.iss })
    (hk : ∀ k, k ≠ s'.cur → u.ctxAt k = s'.ctxAt k) (hc : u.ctxAt s'.cur = c) (hp : u.iss.post = none) (hr : u.iss.repLeft = none)
    (hd : c.drain ≠ .rft) : ∃ t, closeBundle u = .next t ∧ OnlyOwn s' t ∧ t.ctxAt s'.cur = closedCtx u.iss c := by
  have hcu : u.cur = s'.cur := by rw [hs]
  obtain ⟨hown, hctx⟩ := closed_spec hs hk hc
  have hdr : ((closed u).ctxAt u.cur).drain ≠ .rft := by rwa [hcu, hctx, closedCtx_drain _ hr]
  refine ⟨_, closeBundle_next hp hdr, ?_⟩
  split
  · exact ⟨hown, hctx⟩
  · exact ⟨passOver_onlyOwn _ hown, (passOver_ctxAt _ _ _).trans hctx⟩

/-- A bundle that a trap follows is closed first, and the trap is taken at the bundle after it (R127, R130). -/
theorem closeBundle_traps {u : State} {cause : Cause} {addr info : Word} {imp : Bool} (hp : u.iss.post = some (cause, addr, info, imp)) :
    closeBundle u = takeTrap (closed u) u.cur
      { cause := cause, tpc := ((closed u).ctxAt u.cur).pc, taddr := addr, tinfo := info, imprecise := imp } := by
  unfold closeBundle
  simp only [hp]

/-- A bundle of one slot whose effect leaves u ends with its context closed. -/
theorem issue_closes {i : Instr} {eff : State → Out} {s s' u : State} {c : Ctx} (h : Ready i s)
    (hw : ∀ a b wa wb sc k, i ≠ .waitc a b wa wb sc k) (he : eff (opened s) = .next u)
    (hs : u = { s' with ctxs := u.ctxs, iss := u.iss }) (hk : ∀ k, k ≠ s'.cur → u.ctxAt k = s'.ctxAt k)
    (hc : u.ctxAt s'.cur = c) (hp : u.iss.post = none) (hr : u.iss.repLeft = none) (hd : c.drain ≠ .rft) :
    ∃ t, issue i eff s = .next t ∧ OnlyOwn s' t ∧ t.ctxAt s'.cur = closedCtx u.iss c := by
  obtain ⟨t, ht, hown, hctx⟩ := closeBundle_closes hs hk hc hp hr hd
  exact ⟨t, by rw [issue_ready _ h hw, he]; exact ht, hown, hctx⟩

/-! Ageing and the loop levels are apart. -/

theorem aged_loops (c : Ctx) : (aged c).loops = c.loops := by rw [aged_side]

theorem aged_withLoops (c : Ctx) (l : Vector Loop 4) : aged { c with loops := l } = { aged c with loops := l } := by
  have h := aged_withSide c { c with loops := l }
  rw [show c.withSide { c with loops := l } = { c with loops := l } from rfl] at h
  rw [h, aged_side c]
  dsimp only [Ctx.withSide]
  rw [aged_acc]

/-! The check of loop ends (R125). -/

/-- Of the levels in l, checked from the highest down, the first that ends in the bundle with a pass to come gives the next address and
loses a pass; those above it, or all with no such level, are inactive where they end. -/
def LoopsChecked (pc : Word) (len : Nat) (l : List Nat) (c : Ctx) (r : Ctx × Option Word) : Prop :=
  (∃ j : Fin 4, j.val ∈ l ∧ EndsAt pc len c j ∧ 1 < c.loops[j].remaining.toNat ∧
    (∀ k : Fin 4, k.val ∈ l → j < k → EndsAt pc len c k → c.loops[k].remaining.toNat ≤ 1 ∧ r.1.loops[k] = { c.loops[k] with active := false }) ∧
    r.2 = some c.loops[j].start ∧ r.1.loops[j] = { c.loops[j] with remaining := c.loops[j].remaining - 1 } ∧
    ∀ k : Fin 4, k < j ∨ (j < k ∧ (k.val ∉ l ∨ ¬EndsAt pc len c k)) → r.1.loops[k] = c.loops[k]) ∨
  (r.2 = none ∧
    (∀ k : Fin 4, k.val ∈ l → EndsAt pc len c k → c.loops[k].remaining.toNat ≤ 1 ∧ r.1.loops[k] = { c.loops[k] with active := false }) ∧
    ∀ k : Fin 4, k.val ∉ l ∨ ¬EndsAt pc len c k → r.1.loops[k] = c.loops[k])

theorem getLoop_set (c : Ctx) (k j : Fin 4) (x : Loop) : (c.loops.set! k.val x)[j] = if j = k then x else c.loops[j] := by
  show (c.loops.set! k.val x)[j.val] = _
  rw [Vector.set!_eq_setIfInBounds, Vector.getElem_setIfInBounds]
  simp only [Fin.ext_iff, eq_comm]
  rfl

/-- The check of level k, which ends in the bundle or does not. -/
theorem loopEnd_cons (pc : Word) (len : Nat) (k : Fin 4) (t : List Nat) (c : Ctx) :
    (EndsAt pc len c k → 1 < c.loops[k].remaining.toNat → loopEnd pc len (k.val :: t) c =
      ({ c with loops := c.loops.set! k.val { c.loops[k] with remaining := c.loops[k].remaining - 1 } }, some c.loops[k].start)) ∧
    (EndsAt pc len c k → ¬1 < c.loops[k].remaining.toNat → loopEnd pc len (k.val :: t) c =
      loopEnd pc len t { c with loops := c.loops.set! k.val { c.loops[k] with active := false } }) ∧
    (¬EndsAt pc len c k → loopEnd pc len (k.val :: t) c = loopEnd pc len t c) := by
  have hg : c.loops[k.val]? = some c.loops[k] := Vector.getElem?_eq_getElem k.isLt
  have hends : (c.loops[k].active && pc.toNat ≤ c.loops[k].stop.toNat && c.loops[k].stop.toNat < pc.toNat + 4 * len) = true ↔ EndsAt pc len c k := by
    simp [EndsAt, and_assoc]
  refine ⟨fun h h1 => ?_, fun h h1 => ?_, fun h => ?_⟩ <;> rw [loopEnd] <;> simp only [hg]
  · rw [if_pos (hends.mpr h), if_pos h1]
  · rw [if_pos (hends.mpr h), if_neg h1]
  · rw [if_neg (mt hends.mp h)]

/-- A level above those that are checked next, and that ends in the bundle with no pass to come, is inactive from then on. -/
theorem loopsChecked_cons {pc : Word} {len : Nat} {k : Fin 4} {t : List Nat} {c c' : Ctx} {r : Ctx × Option Word} (ht : ∀ m ∈ t, m < k.val)
    (hsame : ∀ j, j ≠ k → c'.loops[j] = c.loops[j])
    (hk : EndsAt pc len c k → c.loops[k].remaining.toNat ≤ 1 ∧ c'.loops[k] = { c.loops[k] with active := false })
    (hk' : ¬EndsAt pc len c k → c'.loops[k] = c.loops[k]) (h : LoopsChecked pc len t c' r) : LoopsChecked pc len (k.val :: t) c r := by
  have hkt : k.val ∉ t := fun hm => absurd (ht _ hm) (Nat.lt_irrefl _)
  have hne : ∀ m : Fin 4, m.val ∈ t → m ≠ k := fun m hm e => hkt (e ▸ hm)
  have hends : ∀ m : Fin 4, m ≠ k → (EndsAt pc len c' m ↔ EndsAt pc len c m) := fun m hm => by rw [EndsAt, EndsAt, hsame m hm]
  have hrest : ∀ m : Fin 4, m ≠ k → (m.val ∉ k.val :: t ↔ m.val ∉ t) := fun m hm => by simp [Fin.val_inj, hm]
  rcases h with ⟨j, hj, he, h1, habove, hnext, hset, hothers⟩ | ⟨hnone, hall, hothers⟩
  · have hjk := hne j hj
    have hlt : j < k := ht _ hj
    rw [hsame j hjk] at h1 hnext hset
    refine .inl ⟨j, List.mem_cons_of_mem _ hj, (hends j hjk).mp he, h1, fun m hm hjm hme => ?_, hnext, hset, fun m hm => ?_⟩
    · by_cases hmk : m = k
      · subst hmk
        obtain ⟨hle, hoff⟩ := hk hme
        exact ⟨hle, (hothers m (.inr ⟨hlt, .inl hkt⟩)).trans hoff⟩
      · have hmt : m.val ∈ t := by simpa [Fin.val_inj, hmk] using hm
        have h := habove m hmt hjm ((hends m hmk).mpr hme)
        rwa [hsame m hmk] at h
    · by_cases hmk : m = k
      · subst hmk
        obtain hm | ⟨-, hm | hm⟩ := hm
        · exact absurd (Fin.lt_trans hm hlt) (Fin.lt_irrefl _)
        · exact absurd List.mem_cons_self hm
        · exact (hothers m (.inr ⟨hlt, .inl hkt⟩)).trans (hk' hm)
      · rw [hrest m hmk, ← hends m hmk] at hm
        exact (hothers m hm).trans (hsame m hmk)
  · refine .inr ⟨hnone, fun m hm hme => ?_, fun m hm => ?_⟩
    · by_cases hmk : m = k
      · subst hmk
        obtain ⟨hle, hoff⟩ := hk hme
        exact ⟨hle, (hothers m (.inl hkt)).trans hoff⟩
      · have hmt : m.val ∈ t := by simpa [Fin.val_inj, hmk] using hm
        have h := hall m hmt ((hends m hmk).mpr hme)
        rwa [hsame m hmk] at h
    · by_cases hmk : m = k
      · subst hmk
        obtain hm | hm := hm
        · exact absurd List.mem_cons_self hm
        · exact (hothers m (.inl hkt)).trans (hk' hm)
      · rw [hrest m hmk, ← hends m hmk] at hm
        exact (hothers m hm).trans (hsame m hmk)

theorem loopsChecked_loopEnd (pc : Word) (len : Nat) : ∀ (l : List Nat) (c : Ctx), (∀ k ∈ l, k < 4) → l.Pairwise (· > ·) →
    LoopsChecked pc len l c (loopEnd pc len l c)
  | [], c, _, _ => .inr ⟨rfl, nofun, fun _ _ => rfl⟩
  | n :: t, c, h4, hp => by
    obtain ⟨ht, hp⟩ := List.pairwise_cons.mp hp
    have ih := fun c' => loopsChecked_loopEnd pc len t c' (fun k hk => h4 k (List.mem_cons_of_mem _ hk)) hp
    obtain ⟨k, rfl⟩ : ∃ k : Fin 4, k.val = n := ⟨⟨n, h4 n List.mem_cons_self⟩, rfl⟩
    obtain ⟨hpass, hlast, hskip⟩ := loopEnd_cons pc len k t c
    by_cases he : EndsAt pc len c k
    · by_cases h1 : 1 < c.loops[k].remaining.toNat
      · rw [hpass he h1]
        refine .inl ⟨k, List.mem_cons_self, he, h1, fun m hm hkm _ => ?_, rfl, (getLoop_set c k k _).trans (if_pos rfl),
          fun m hm => (getLoop_set c k m _).trans (if_neg ?_)⟩
        · obtain hm | hm := List.mem_cons.mp hm
          · exact absurd (Fin.val_inj.mp hm ▸ hkm) (Fin.lt_irrefl _)
          · exact absurd (Fin.lt_trans hkm (ht _ hm)) (Fin.lt_irrefl _)
        · rintro rfl
          obtain hm | ⟨hm, -⟩ := hm <;> exact absurd hm (Fin.lt_irrefl _)
      · rw [hlast he h1]
        exact loopsChecked_cons ht (fun j hj => (getLoop_set c k j _).trans (if_neg hj))
          (fun _ => ⟨Nat.le_of_not_lt h1, (getLoop_set c k k _).trans (if_pos rfl)⟩) (fun h => absurd he h) (ih _)
    · rw [hskip he]
      exact loopsChecked_cons ht (fun _ _ => rfl) (fun h => absurd h he) (fun _ => rfl) (ih _)

/-- The four levels, checked from the highest down, go on as R125 says. -/
theorem loopsOn_of_checked {pc : Word} {len : Nat} {c u : Ctx} {r : Ctx × Option Word} (h : LoopsChecked pc len [3, 2, 1, 0] c r)
    (hl : u.loops = r.1.loops) (hpc : u.pc = r.2.getD (pc + wordOfNat (4 * len))) : LoopsOn pc len c u := by
  have hmem : ∀ k : Fin 4, k.val ∈ [3, 2, 1, 0] := by decide
  unfold LoopsOn
  rw [hl, hpc]
  rcases h with ⟨j, -, he, h1, habove, hnext, hset, hothers⟩ | ⟨hnone, hall, hothers⟩
  · refine .inl ⟨j, he, h1, fun k hk hke => (habove k (hmem k) hk hke).1, by rw [hnext]; rfl, hset,
      fun k hk hke => (habove k (hmem k) hk hke).2, fun k hk => hothers k (hk.imp_right fun h => ⟨h.1, .inr h.2⟩)⟩
  · exact .inr ⟨fun k hk => (hall k (hmem k) hk).1, by rw [hnone]; rfl, fun k hk => (hall k (hmem k) hk).2, fun k hk => hothers k (.inr hk)⟩

/-! What landing and ageing leave alone (R83, R95). -/

/-- u is c but for the registers and what is on its way to them. -/
def OnlyRegs (c u : Ctx) : Prop :=
  u = { c with x := u.x, v := u.v, m := u.m, cr := u.cr, poisonV := u.poisonV, crPend := u.crPend, pend := u.pend, acc := u.acc }

namespace OnlyRegs

theorem trans {c d u : Ctx} (h : OnlyRegs c d) (k : OnlyRegs d u) : OnlyRegs c u := by
  unfold OnlyRegs at *
  rw [k, h]

theorem foldl {α : Type} {f : Ctx → α → Ctx} (h : ∀ c a, OnlyRegs c (f c a)) : ∀ (l : List α) (c : Ctx), OnlyRegs c (l.foldl f c)
  | [], _ => rfl
  | a :: l, c => (h c a).trans (foldl h l (f c a))

theorem repNext {c u : Ctx} (h : OnlyRegs c u) : u.repNext = c.repNext := by rw [h]
theorem k {c u : Ctx} (h : OnlyRegs c u) : u.k = c.k := by rw [h]
theorem drain {c u : Ctx} (h : OnlyRegs c u) : u.drain = c.drain := by rw [h]
theorem loops {c u : Ctx} (h : OnlyRegs c u) : u.loops = c.loops := by rw [h]

end OnlyRegs

theorem onlyRegs_setX (c : Ctx) (r : Reg) (v : Word) : OnlyRegs c (c.setX r v) := by unfold Ctx.setX; split <;> rfl

theorem onlyRegs_setM (c : Ctx) (r : MReg) (v : Mask) : OnlyRegs c (c.setM r v) := by unfold Ctx.setM; split <;> rfl

theorem onlyRegs_orFlags (c : Ctx) (fl : Flags) : OnlyRegs c (c.orFlags fl) := by unfold Ctx.orFlags; split <;> rfl

theorem onlyRegs_land (c : Ctx) (p : Pending) : OnlyRegs c (c.land p) := by
  obtain ⟨due, res, fl⟩ := p
  refine (onlyRegs_orFlags c fl).trans ?_
  cases res with
  | x r v => exact onlyRegs_setX _ r v
  | v r v en =>
    rw [land_v, ← orFlags_getV c fl r]
    split <;> rfl
  | m r v en => exact onlyRegs_setM _ r _
  | flags => rfl

theorem onlyRegs_tickPending (c : Ctx) : OnlyRegs c c.tickPending :=
  (OnlyRegs.trans (d := { c with pend := (c.pend.map fun p => { p with due := p.due - 1 }).filter (·.due != 0) }) rfl
    (OnlyRegs.foldl onlyRegs_land _ _)).trans rfl

theorem onlyRegs_landAll (c : Ctx) : OnlyRegs c c.landAll :=
  .trans (d := { c with pend := [] }) rfl (.foldl onlyRegs_land _ _)

theorem onlyRegs_applyMtc (c : Ctx) : OnlyRegs c c.applyMtc :=
  .trans (d := { c with crPend := [] }) rfl (.foldl (fun _ _ => by split <;> rfl) _ _)

theorem onlyRegs_aged (c : Ctx) : OnlyRegs c (aged c) := (onlyRegs_applyMtc c).trans (onlyRegs_tickPending _)

/-! The context of a closed bundle. -/

/-- The aged context as the choice of the next address finds it: REPC counts the repeats of a REP. -/
def closing (i : Iss) (c : Ctx) : Ctx := if i.repLeft.isSome then (aged c).setCr crRepc (wordOfNat (i.repLeft.getD 0)) else aged c

theorem onlyRegs_closing (i : Iss) (c : Ctx) : OnlyRegs c (closing i c) := by
  unfold closing
  split
  · exact (onlyRegs_aged c).trans rfl
  · exact onlyRegs_aged c

theorem closedCtx_loops (i : Iss) (c : Ctx) : (closedCtx i c).loops = (goOn i (i.repLeft.getD 0) (closing i c)).1.loops := rfl

theorem closedCtx_pc {c : Ctx} (i : Iss) (h : c.drain ≠ .rft) : (closedCtx i c).pc = (goOn i (i.repLeft.getD 0) (closing i c)).2 := by
  have hd : (goOn i (i.repLeft.getD 0) (closing i c)).1.drain ≠ .rft := by
    rw [goOn_frame]
    exact (onlyRegs_closing i c).drain ▸ h
  exact if_neg hd

theorem goOn_of_repeat {i : Iss} {left : Nat} {c : Ctx} (h : left ≠ 0) :
    goOn i left c = ({ c with repNext := if i.taken then some i.next else c.repNext }, i.pc) := by
  unfold goOn
  rw [if_pos (by simpa using h)]

theorem goOn_of_taken {i : Iss} {c : Ctx} (h : i.taken = true) : goOn i 0 c = (c, i.next) := by
  unfold goOn
  rw [if_neg (by simp), if_pos h]

theorem goOn_of_notTaken {i : Iss} {c : Ctx} (ht : i.taken = false) (hn : c.repNext = none) : goOn i 0 c =
    ((loopEnd i.pc i.len [3, 2, 1, 0] c).1, (loopEnd i.pc i.len [3, 2, 1, 0] c).2.getD (i.pc + wordOfNat (4 * i.len))) := by
  unfold goOn
  rw [if_neg (by simp), if_neg (by simp [ht]), if_neg (by simp [hn])]

/-- With a repeat to come or a transfer taken, no level is checked (R125). -/
theorem closedCtx_loops_of_repeat_or_taken {i : Iss} {c : Ctx} (h : i.repLeft.getD 0 ≠ 0 ∨ i.taken = true) :
    (closedCtx i c).loops = c.loops := by
  rw [closedCtx_loops, ← (onlyRegs_closing i c).loops]
  by_cases hl : i.repLeft.getD 0 = 0
  · rw [hl, goOn_of_taken (h.resolve_left (fun h => h hl))]
  · rw [goOn_of_repeat hl]

theorem closedCtx_pc_of_taken {i : Iss} {c : Ctx} (hl : i.repLeft = none) (ht : i.taken = true) (hd : c.drain ≠ .rft) :
    (closedCtx i c).pc = i.next := by
  rw [closedCtx_pc i hd, hl, Option.getD_none, goOn_of_taken ht]

/-- With no repeat to come and no transfer, the levels that end in the bundle are checked (R125). -/
theorem closedCtx_loopsOn {i : Iss} {c : Ctx} (ht : i.taken = false) (hl : i.repLeft.getD 0 = 0) (hn : c.repNext = none)
    (hd : c.drain ≠ .rft) : LoopsOn i.pc i.len c (closedCtx i c) := by
  have hgo := goOn_of_notTaken (c := closing i c) ht ((onlyRegs_closing i c).repNext.trans hn)
  have hchecked := loopsChecked_loopEnd i.pc i.len [3, 2, 1, 0] (closing i c) (by decide) (by decide)
  have hon := loopsOn_of_checked hchecked (u := closedCtx i c) (by rw [closedCtx_loops, hl, hgo]) (by rw [closedCtx_pc i hd, hl, hgo])
  unfold LoopsOn EndsAt at hon ⊢
  rwa [(onlyRegs_closing i c).loops] at hon

/-! A taken transfer (R126). -/

theorem leaveLoops_frame (target : Word) (c : Ctx) : leaveLoops target c = { c with loops := (leaveLoops target c).loops } := by
  unfold leaveLoops
  dsimp only
  split <;> rfl

/-- Level k is active, and the transfer leaves its body. -/
def leaves (target : Word) (c : Ctx) (k : Nat) : Bool :=
  c.loops[k]?.any fun l => l.active && !(l.start.toNat ≤ target.toNat && target.toNat ≤ l.stop.toNat)

theorem leaveLoops_eq (target : Word) (c : Ctx) : leaveLoops target c = ((upTo 4).find? (leaves target c)).elim c fun k =>
    { c with loops := Vector.ofFn fun i => if k ≤ i.val then { c.loops[i] with active := false } else c.loops[i] } := by
  unfold leaveLoops
  dsimp only
  split
  · next h => rw [show (upTo 4).find? (leaves target c) = none from h]; rfl
  · next k h => rw [show (upTo 4).find? (leaves target c) = some k from h]; rfl

theorem loops_leaveLoops_of_find {target : Word} {c : Ctx} {n : Nat} (h : (upTo 4).find? (leaves target c) = some n) (k : Fin 4) :
    (leaveLoops target c).loops[k] = if n ≤ k.val then { c.loops[k] with active := false } else c.loops[k] := by
  rw [leaveLoops_eq, h]
  exact Vector.getElem_ofFn _

theorem leaves_iff (target : Word) (c : Ctx) (k : Fin 4) : leaves target c k.val = true ↔
    ¬(c.loops[k].active = true → c.loops[k].start.toNat ≤ target.toNat ∧ target.toNat ≤ c.loops[k].stop.toNat) := by
  rw [leaves, Vector.getElem?_eq_getElem k.isLt, Option.any_some, Bool.and_eq_true, Bool.not_eq_true', Bool.and_eq_false_iff,
    decide_eq_false_iff_not, decide_eq_false_iff_not, ← not_and_or, Classical.not_imp]
  rfl

/-- The levels from the first that the transfer leaves on are inactive. -/
theorem leaveLoops_loopsLeft (target : Word) (c : Ctx) : LoopsLeft target c (leaveLoops target c) := by
  have hinside : ∀ k : Fin 4, ¬leaves target c k.val = true ↔
      (c.loops[k].active = true → c.loops[k].start.toNat ≤ target.toNat ∧ target.toNat ≤ c.loops[k].stop.toNat) :=
    fun k => (not_congr (leaves_iff target c k)).trans not_not
  intro k
  cases hit : (upTo 4).find? (leaves target c) with
  | none =>
    have hnone : ∀ j : Fin 4, ¬leaves target c j.val = true := fun j => List.find?_eq_none.mp hit j.val (List.mem_range.mpr j.isLt)
    rw [leaveLoops_eq, hit, decide_eq_true fun j _ => (hinside j).mp (hnone j), Bool.and_true]
    rfl
  | some n =>
    obtain ⟨hn, i, hi, hget, hbefore⟩ := List.find?_eq_some_iff_getElem.mp hit
    have hin : i = n := by simpa [upTo] using hget
    have hin4 : i < 4 := by simpa [upTo] using hi
    subst hin
    simp only [upTo, List.getElem_range] at hbefore
    rw [loops_leaveLoops_of_find hit]
    split
    · next h => rw [decide_eq_false fun hall => (hinside ⟨i, hin4⟩).mpr (hall ⟨i, hin4⟩ h) hn, Bool.and_false]
    · next h =>
      have hlt : ∀ j : Fin 4, j ≤ k → j.val < i := fun j (hj : j.val ≤ k.val) => by omega
      rw [decide_eq_true fun j hj => (hinside j).mp (by simpa using hbefore j.val (hlt j hj)), Bool.and_true]

/-- The bundle of a slot that takes a transfer from v, in which the context whose turn it is has become what f makes of it. -/
theorem goesTo_of {i : Instr} {eff : State → Out} {s v : State} {f : Ctx → Ctx} {target : Word} (h : Ready i s)
    (hw : ∀ a b wa wb sc k, i ≠ .waitc a b wa wb sc k) (he : eff (opened s) = .next (takeTo target v))
    (hv : v = { opened s with ctxs := v.ctxs }) (hvk : ∀ k, k ≠ s.cur → v.ctxAt k = s.ctxAt k) (hvc : v.ctxAt s.cur = f (own s))
    (hl : (f (own s)).loops = (own s).loops) (hd : (f (own s)).drain = (own s).drain) : GoesTo (issue i eff s) s f target := by
  have hcur : v.cur = s.cur := by rw [hv]; rfl
  have hiss : (takeTo target v).iss = { (opened s).iss with next := target, taken := true } := by rw [hv]; rfl
  have heq : takeTo target v = { s with ctxs := (takeTo target v).ctxs, iss := (takeTo target v).iss } := by
    conv_lhs => rw [hv]
    conv_rhs => rw [hv]
    rfl
  have hdrain : (leaveLoops target (f (own s))).drain ≠ .rft := by
    rw [leaveLoops_frame]
    exact ready_drain_ne_rft h hd
  have hctx : (takeTo target v).ctxAt s.cur = leaveLoops target (f (own s)) := by
    rw [← hvc, ← hcur]
    exact State.ctxAt_modCtx_self _ _ _
  have hother : ∀ k, k ≠ s.cur → (takeTo target v).ctxAt k = s.ctxAt k := fun k hk =>
    (State.ctxAt_modCtx_ne _ _ _ _ (hcur ▸ hk)).trans (hvk k hk)
  obtain ⟨t, ho, hown, ht⟩ := issue_closes (s' := s) h hw he heq hother hctx (by rw [hiss]; rfl) (by rw [hiss]; rfl) hdrain
  rw [hiss] at ht
  generalize hi : ({ (opened s).iss with next := target, taken := true } : Iss) = iss at ht
  have hrep : iss.repLeft = none := by rw [← hi]; rfl
  have htaken : iss.taken = true := by rw [← hi]
  have hleft : LoopsLeft target (own s) (t.ctxAt s.cur) := by
    have h := leaveLoops_loopsLeft target (f (own s))
    unfold LoopsLeft at h ⊢
    rw [ht, closedCtx_loops_of_repeat_or_taken (.inr htaken), ← hl]
    exact h
  refine ⟨t, ho, hown, ⟨?frame, fun k => ?levels⟩, ?pc, hleft⟩
  case pc => rw [ht, closedCtx_pc_of_taken hrep htaken hdrain, ← hi]
  case frame =>
    have hframe := (closedCtx_frame (i := iss) (c := leaveLoops target (f (own s))) hrep).1
    rw [← ht, leaveLoops_frame, aged_withLoops] at hframe
    exact hframe
  case levels =>
    rw [aged_loops, hl, hleft k]
    cases hd : decide (∀ j, j ≤ k → (own s).loops[j].active = true →
      (own s).loops[j].start.toNat ≤ target.toNat ∧ target.toNat ≤ (own s).loops[j].stop.toNat) with
    | false => exact .inr (.inl (by rw [Bool.and_false]))
    | true => exact .inl (by rw [Bool.and_true])

/-- The bundle of a slot that leaves the open bundle's state but for its context, which becomes what f makes of it, goes on. -/
theorem goesOn_of {i : Instr} {eff : State → Out} {s : State} (h : Ready i s)
    (hw : ∀ a b wa wb sc k, i ≠ .waitc a b wa wb sc k) (he : eff (opened s) = .next (opened s)) (hn : (own s).repNext = none) :
    GoesOn (issue i eff s) s id := by
  have hdrain : (own s).drain ≠ .rft := ready_drain_ne_rft h rfl
  obtain ⟨t, ho, hown, ht⟩ := issue_closes (s' := s) h hw he rfl (fun _ _ => rfl) (rfl : _ = own s) rfl rfl hdrain
  refine ⟨t, ho, hown, ?_, ?_⟩
  · rw [ht]
    exact closedCtx_frame rfl
  · rw [ht]
    exact closedCtx_loopsOn (i := (opened s).iss) rfl rfl hn hdrain

end Sys2Proof.Machine
end

section
/-! PROOFS. spec/04_scalar.md R120 to R122: branches and jumps. -/

namespace Sys2Proof.Machine

open Sys2Proof.Safety

theorem slotAddr_opened (s : State) : (opened s).iss.slotAddr = (own s).pc := BitVec.add_zero _

/-- The target of a transfer from the one slot of an open bundle. -/
theorem wordsFrom_slot (s : State) {n : Nat} (off : BitVec n) :
    wordsFrom (opened s).iss.slotAddr off.toInt = (own s).pc + off.signExtend 64 * 4 := by
  have hfour : BitVec.ofInt 64 4 = 4 := rfl
  rw [slotAddr_opened, wordsFrom, wordOfInt, BitVec.ofInt_mul, hfour, BitVec.mul_comm, BitVec.signExtend]

/-! Branches (R120). -/

theorem goesTo_branch {i : Instr} {s : State} {a b : Reg} {off : BitVec 12} {cond : Word → Word → Bool} (h : Ready i s)
    (hw : ∀ a b wa wb sc k, i ≠ .waitc a b wa wb sc k) (hc : cond ((own s).getX a) ((own s).getX b) = true) :
    GoesTo (issue i (branch a b off cond) s) s id ((own s).pc + off.signExtend 64 * 4) := by
  have heff : branch a b off cond (opened s) = .next (takeTo ((own s).pc + off.signExtend 64 * 4) (opened s)) := by
    rw [← wordsFrom_slot]
    exact if_pos hc
  exact goesTo_of h hw heff rfl (fun _ _ => rfl) rfl rfl rfl

theorem goesOn_branch {i : Instr} {s : State} {a b : Reg} {off : BitVec 12} {cond : Word → Word → Bool} (h : Ready i s)
    (hw : ∀ a b wa wb sc k, i ≠ .waitc a b wa wb sc k) (hn : (own s).repNext = none)
    (hc : cond ((own s).getX a) ((own s).getX b) = false) : GoesOn (issue i (branch a b off cond) s) s id :=
  goesOn_of h hw (if_neg (Bool.eq_false_iff.mp hc)) hn

/-- Settles O7: each branch by its comparison. -/
theorem branches : Obligations.Branches := by
  rintro s a b off _ _ _ rfl rfl rfl hn
  refine ⟨?beq, ?bne, ?blt, ?bge, ?bltn, ?bgen⟩
  case beq => exact fun h => ⟨fun hc => goesTo_branch h nofun (by simpa using hc), fun hc => goesOn_branch h nofun hn (by simpa using hc)⟩
  case bne => exact fun h => ⟨fun hc => goesTo_branch h nofun (by simpa using hc), fun hc => goesOn_branch h nofun hn (by simpa using hc)⟩
  case blt =>
    exact fun h => ⟨fun hc => goesTo_branch h nofun (by simpa [BitVec.slt] using hc),
      fun hc => goesOn_branch h nofun hn (by simpa [BitVec.slt] using hc)⟩
  case bge =>
    exact fun h => ⟨fun hc => goesTo_branch h nofun (by simpa [BitVec.sle] using hc),
      fun hc => goesOn_branch h nofun hn (by simpa [BitVec.sle] using hc)⟩
  case bltn =>
    exact fun h => ⟨fun hc => goesTo_branch h nofun (by simpa [BitVec.ult] using hc),
      fun hc => goesOn_branch h nofun hn (by simpa [BitVec.ult] using hc)⟩
  case bgen =>
    exact fun h => ⟨fun hc => goesTo_branch h nofun (by simpa [BitVec.ule] using hc),
      fun hc => goesOn_branch h nofun hn (by simpa [BitVec.ule] using hc)⟩

/-! Jumps (R121, R122). -/

theorem writesNow_of_goesTo {o : Out} {s : State} {d : Reg} {v target : Word} (h : GoesTo o s (fun c => c.addX 1 d v) target) :
    WritesNow o s d v := by
  obtain ⟨t, ho, hown, hctx, -⟩ := h
  exact writesNow_of_does ⟨t, ho, hown, hctx⟩

theorem goesTo_jmp {s : State} {off : BitVec 24} (h : Ready (.jmp off) s) :
    GoesTo (exec (.jmp off) s) s id ((own s).pc + off.signExtend 64 * 4) :=
  goesTo_of (eff := fun u => .next (takeTo (wordsFrom u.iss.slotAddr off.toInt) u)) (v := opened s) h nofun
    (by rw [wordsFrom_slot]) rfl (fun _ _ => rfl) rfl rfl rfl

/-- A jump that links in x[d]. -/
theorem goesTo_link {i : Instr} {s : State} {d : Reg} {target : Word} {eff : State → Out} (h : Ready i s)
    (hw : ∀ a b wa wb sc k, i ≠ .waitc a b wa wb sc k)
    (he : eff (opened s) = .next (takeTo target ((opened s).modCtx s.cur fun c => c.addX 1 d ((own s).pc + 4)))) :
    GoesTo (issue i eff s) s (fun c => c.addX 1 d ((own s).pc + 4)) target :=
  goesTo_of h hw he rfl (fun _ hk => State.ctxAt_modCtx_ne _ _ _ _ hk) (State.ctxAt_modCtx_self _ _ _) (Ctx.addX_loops _ _ _ _)
    (addX_drain _ _ _ _)

theorem goesTo_jal {s : State} {off : BitVec 24} (h : Ready (.jal off) s) :
    GoesTo (exec (.jal off) s) s (fun c => c.addX 1 63 ((own s).pc + 4)) ((own s).pc + off.signExtend 64 * 4) :=
  goesTo_link (eff := fun u => .next (takeTo (wordsFrom u.iss.slotAddr off.toInt) (u.modCtx u.cur fun c => c.addX 1 63 (u.iss.slotAddr + 4))))
    h nofun (by rw [wordsFrom_slot, slotAddr_opened]; rfl)

theorem goesTo_jr {s : State} {d a : Reg} {wa : Bool} (h : Ready (.jr d a wa) s) :
    GoesTo (exec (.jr d a wa) s) s (fun c => c.addX 1 d ((own s).pc + 4)) ((own s).getX a) :=
  goesTo_link (eff := fun u => .next (takeTo ((u.ctxAt u.cur).getX a) (u.modCtx u.cur fun c => c.addX 1 d (u.iss.slotAddr + 4))))
    h nofun (by rw [slotAddr_opened]; rfl)

/-- A slot that starts no access finds room in the memory path. -/
theorem pathFull_of_not_replays {c : Ctx} {i : Instr} (h : replays i = false) (hv : isStvIns i = false) : pathFull c [i] = false := by
  rw [pathFull, List.any_cons, List.any_cons, h, hv]
  rfl

theorem issueTrap_of_ne_trap (pc : Word) (i : Instr) {cause : Cause} (addr : Word) (hc : cause ≠ .trap) :
    issueTrap pc 1 0 (some i) cause addr 0 = { cause := cause, tpc := pc, taddr := addr, tinfo := issueInfo 0 1 (opOf i) 0 } := by
  unfold issueTrap
  rw [decide_eq_false hc]
  simp only [hc, if_false]
  split <;> rfl

/-- A fault of step 7 other than a TRAP's, in the one slot of a bundle, is taken with its address. -/
theorem issue_slotFault {i : Instr} {s : State} {cause : Cause} {addr : Word} (eff : State → Out) (hopen : s.iss.isOpen = false)
    (hstatic : staticFault (own s).kernel (isSeq s.cur) none [some i] = none) (hst : stalls s s.cur [i] 0 = false)
    (hpath : pathFull (own s) [i] = false) (h6 : step6 (own s) i = none) (hf : slotFault s s.cur i = some (cause, addr)) (hc : cause ≠ .trap)
    (hw : ∀ a b wa wb sc k, i ≠ .waitc a b wa wb sc k) :
    ∃ info, issue i eff s = takeTrap s s.cur { cause := cause, tpc := (own s).pc, taddr := addr, tinfo := info } := by
  have htrap : lateFault s s.cur (own s).pc 1 0 [i] = some (issueTrap (own s).pc 1 0 (some i) cause addr 0) := by
    unfold own at h6
    simp [lateFault, h6, hf]
  rw [issue_late eff hopen hstatic hst hpath htrap hw, issueTrap_of_ne_trap _ _ _ hc]
  exact ⟨_, rfl⟩

theorem firstFault_aligned_canon (a b : Word) (n : Nat) (ok : Bool) : firstFault [.aligned a n, .canon ok b] =
    if a.toNat % n ≠ 0 then some (.misaligned, a) else if ok = false then some (.nonCanonical, b) else none := by
  have hsix : upTo 6 = [0, 1, 2, 3, 4, 5] := rfl
  rw [firstFault, hsix]
  simp only [List.findSome?_cons, List.findSome?_nil]
  by_cases ha : a.toNat % n = 0 <;> cases ok <;> simp [Chk.rank, Chk.fault, ha]

/-- JR's target is checked for its low bits, then for its canonical form. -/
theorem slotFault_jr (s : State) (n : Nat) (d a : Reg) (wa : Bool) : slotFault s n (.jr d a wa) =
    if ((s.ctxAt n).getX a).toNat % 4 ≠ 0 then some (.misaligned, (s.ctxAt n).getX a)
    else if 2 ^ 57 ≤ ((s.ctxAt n).getX a).toNat then some (.nonCanonical, (s.ctxAt n).getX a) else none := by
  have hcanon : (decide (((s.ctxAt n).getX a).bits 57 7 = 0) = false) = (2 ^ 57 ≤ ((s.ctxAt n).getX a).toNat) := by
    have := ((s.ctxAt n).getX a).isLt
    rw [decide_eq_false_iff_not, BitVec.bits, Nat.shiftRight_eq_div_pow, eq_iff_iff]
    omega
  have hcheck : slotFault s n (.jr d a wa) = firstFault [.aligned ((s.ctxAt n).getX a) 4,
      .canon (((s.ctxAt n).getX a).bits 57 7 = 0) ((s.ctxAt n).getX a)] := rfl
  rw [hcheck, firstFault_aligned_canon]
  simp only [hcanon]

theorem exec_jr (d a : Reg) (wa : Bool) (s : State) : ∃ eff, exec (.jr d a wa) s = issue (.jr d a wa) eff s := by
  show ∃ eff, execJr d a wa s = issue (.jr d a wa) eff s
  exact ⟨_, rfl⟩

/-- Settles O8: JMP, JAL and JR as transfers that link, JR's faults by the checks of its target. -/
theorem jumps : Obligations.Jumps := by
  rintro s d a wa off _ _ _ rfl rfl rfl
  refine ⟨goesTo_jmp, fun h => ⟨goesTo_jal h, writesNow_of_goesTo (goesTo_jal h)⟩, fun h => ⟨goesTo_jr h, writesNow_of_goesTo (goesTo_jr h)⟩,
    fun hopen hstatic hst h6 => ?faults⟩
  obtain ⟨eff, hexec⟩ := exec_jr d a wa s
  rw [hexec]
  refine ⟨fun hmis => ?misaligned, fun hal hcanon => ?nonCanonical⟩
  case misaligned =>
    exact issue_slotFault _ hopen hstatic hst (pathFull_of_not_replays rfl rfl) h6 ((slotFault_jr s s.cur d a wa).trans (if_pos hmis)) nofun nofun
  case nonCanonical =>
    exact issue_slotFault _ hopen hstatic hst (pathFull_of_not_replays rfl rfl) h6
      ((slotFault_jr s s.cur d a wa).trans ((if_neg (not_not_intro hal)).trans (if_pos hcanon))) nofun nofun

end Sys2Proof.Machine
end

section
/-! PROOFS. spec/04_scalar.md R124, R125: LOOP. -/

namespace Sys2Proof.Machine

open Sys2Proof.Safety

/-! A count other than zero. -/

/-- c with level l loaded, as LOOP at the program counter does it. -/
def loopLoaded (c : Ctx) (a : Reg) (l : BitVec 2) (off : BitVec 12) : Ctx :=
  { c with loops := Vector.ofFn fun i =>
      if i.val = l.toNat then { start := c.pc + 4, stop := c.pc + off.signExtend 64 * 4, remaining := c.getX a, active := true }
      else c.loops[i] }

theorem setLoop_eq (c : Ctx) (k : Nat) (x : Loop) :
    c.setLoop k x = { c with loops := Vector.ofFn fun i => if i.val = k then x else c.loops[i] } := by
  have h : c.loops.set! k x = Vector.ofFn fun i => if i.val = k then x else c.loops[i] := by
    ext i hi : 1
    rw [Vector.set!_eq_setIfInBounds, Vector.getElem_setIfInBounds, Vector.getElem_ofFn]
    simp only [eq_comm]
    rfl
  rw [Ctx.setLoop, h]

/-- The effect of LOOP in an open bundle. -/
def loopEff (a : Reg) (l : BitVec 2) (off : BitVec 12) (u : State) : Out :=
  let n := (u.ctxAt u.cur).getX a
  let start := u.iss.slotAddr + 4
  let stop := wordsFrom u.iss.slotAddr off.toInt
  if n = 0 then
    let (v, t) := afterBundle u.cur 8 stop u
    .next { v with iss := { v.iss with next := t, taken := true } }
  else .next (u.modCtx u.cur fun c => c.setLoop l.toNat { start := start, stop := stop, remaining := n, active := true })

theorem exec_loop (a : Reg) (l : BitVec 2) (off : BitVec 12) (s : State) : exec (.loop a l off) s = issue (.loop a l off) (loopEff a l off) s :=
  rfl

theorem loop_loads {s : State} {a : Reg} {l : BitVec 2} {off : BitVec 12} (h : Ready (.loop a l off) s) (hx : (own s).getX a ≠ 0)
    (hn : (own s).repNext = none) : ∃ t, exec (.loop a l off) s = .next t ∧ OnlyOwn s t ∧
      SameButIssue (aged (loopLoaded (own s) a l off)) (t.ctxAt s.cur) ∧ LoopsOn (own s).pc 1 (loopLoaded (own s) a l off) (t.ctxAt s.cur) := by
  have heff : loopEff a l off (opened s) = .next ((opened s).modCtx s.cur fun c => c.setLoop l.toNat
      { start := (own s).pc + 4, stop := (own s).pc + off.signExtend 64 * 4, remaining := (own s).getX a, active := true }) := by
    rw [loopEff, wordsFrom_slot, slotAddr_opened]
    exact if_neg hx
  have hdrain : (loopLoaded (own s) a l off).drain ≠ .rft := ready_drain_ne_rft h rfl
  obtain ⟨t, ho, hown, ht⟩ := issue_closes (s' := s) h nofun heff rfl (fun _ hk => State.ctxAt_modCtx_ne _ _ _ _ hk)
    ((State.ctxAt_modCtx_self _ _ _).trans (setLoop_eq _ _ _) : _ = loopLoaded (own s) a l off) rfl rfl hdrain
  refine ⟨t, (exec_loop a l off s).trans ho, hown, ?_, ?_⟩
  · rw [ht]
    exact closedCtx_frame rfl
  · rw [ht]
    exact closedCtx_loopsOn (i := (opened s).iss) rfl rfl hn hdrain

/-! A count of zero. -/

theorem walkFrom_withIss (s : State) (i : Iss) (va : Nat) : ∀ fuel t, walkFrom { s with iss := i } va fuel t = walkFrom s va fuel t
  | 0, _ => rfl
  | fuel + 1, t => by
    have ih := walkFrom_withIss s i va fuel
    unfold walkFrom
    simp only [ih]
    rfl

theorem walk_withIss (s : State) (i : Iss) (root : Word) (va : Nat) : ({ s with iss := i } : State).walk root va = s.walk root va :=
  walkFrom_withIss s i va 6 _

theorem hit_withIss (s : State) (i : Iss) (unit job va : Nat) : ({ s with iss := i } : State).hit unit job va = { s.hit unit job va with iss := i } := by
  unfold State.hit
  rw [show ({ s with iss := i } : State).unitAt unit = s.unitAt unit from rfl]
  dsimp only
  split
  · split <;> rfl
  · rfl

theorem translate_withIss (s : State) (i : Iss) (unit job : Nat) (root : Word) (va len : Nat) (q : Ask) :
    ({ s with iss := i } : State).translate unit job root va len q =
      ({ (s.translate unit job root va len q).1 with iss := i }, (s.translate unit job root va len q).2) := by
  unfold State.translate
  rw [show ({ s with iss := i } : State).unitAt unit = s.unitAt unit from rfl, walk_withIss, hit_withIss]
  dsimp only
  split
  · rfl
  · split
    · split <;> rfl
    · split <;> rfl

/-- Fetching does not look at the bundle being issued. -/
theorem fetchWord_withIss (s : State) (i : Iss) (n : Nat) (va : Word) :
    ({ s with iss := i } : State).fetchWord n va = ({ (s.fetchWord n va).1 with iss := i }, (s.fetchWord n va).2) := by
  unfold State.fetchWord
  rw [show ({ s with iss := i } : State).ctxAt n = s.ctxAt n from rfl]
  dsimp only
  rw [translate_withIss]
  split
  · rfl
  · generalize s.translate (unitOf n) (s.ctxAt n).job (s.ctxAt n).root va.toNat 4 { kernel := (s.ctxAt n).kernel, fetch := true } = r
    obtain ⟨u, e | ⟨leaf, p⟩⟩ := r
    · rfl
    · dsimp only
      rw [show ({ u with iss := i } : State).isPoison n (p.key / 8 * 8) = u.isPoison n (p.key / 8 * 8) from rfl]
      split <;> rfl

theorem loop_skips {s : State} {a : Reg} {l : BitVec 2} {off : BitVec 12} {w : SlotWord} (h : Ready (.loop a l off) s) (hx : (own s).getX a = 0)
    (hw : s.fetchWord s.cur ((own s).pc + off.signExtend 64 * 4) = (s, .ok w)) (hs : stopBit w = true) :
    ∃ t, exec (.loop a l off) s = .next t ∧ OnlyOwn s t ∧ SameButIssue (aged (own s)) (t.ctxAt s.cur) ∧
      (t.ctxAt s.cur).loops = (own s).loops ∧ (t.ctxAt s.cur).pc = (own s).pc + off.signExtend 64 * 4 + 4 := by
  have hfetch : (opened s).fetchWord s.cur ((own s).pc + off.signExtend 64 * 4) = (opened s, .ok w) := by
    have := fetchWord_withIss s (opened s).iss s.cur ((own s).pc + off.signExtend 64 * 4)
    rw [hw] at this
    exact this
  have hafter : afterBundle s.cur 8 ((own s).pc + off.signExtend 64 * 4) (opened s) =
      (opened s, (own s).pc + off.signExtend 64 * 4 + 4) := by
    rw [afterBundle, hfetch]
    exact if_pos hs
  generalize hi : ({ (opened s).iss with next := (own s).pc + off.signExtend 64 * 4 + 4, taken := true } : Iss) = iss
  have hrep : iss.repLeft = none := by rw [← hi]; rfl
  have htaken : iss.taken = true := by rw [← hi]
  have heff : loopEff a l off (opened s) = .next { opened s with iss := iss } := by
    rw [loopEff, wordsFrom_slot, slotAddr_opened]
    refine (if_pos hx).trans ?_
    rw [show (opened s).cur = s.cur from rfl, hafter, ← hi]
  have hdrain : (own s).drain ≠ .rft := ready_drain_ne_rft h rfl
  obtain ⟨t, ho, hown, ht⟩ := issue_closes (s' := s) h nofun heff rfl (fun _ _ => rfl) (rfl : _ = own s) (by rw [← hi]; rfl) hrep hdrain
  refine ⟨t, (exec_loop a l off s).trans ho, hown, ?_, ?_, ?_⟩
  · rw [ht]
    exact closedCtx_frame hrep
  · rw [ht]
    exact closedCtx_loops_of_repeat_or_taken (.inr htaken)
  · rw [ht]
    exact (closedCtx_pc_of_taken hrep htaken hdrain).trans (by rw [← hi])

/-- Settles O9: LOOP by its count, the ends of levels by the check of every closed bundle. -/
theorem loops : Obligations.Loops := by
  refine ⟨fun s a l off h => ⟨fun hx hn c hc => ?_, fun hx w hw hs => loop_skips h hx hw hs⟩,
    fun i c => ⟨closedCtx_loops_of_repeat_or_taken, fun ht hl hn hd => closedCtx_loopsOn ht hl hn (by rw [hd]; nofun)⟩⟩
  subst hc
  exact loop_loads h hx hn

end Sys2Proof.Machine
end

section
/-! PROOFS. spec/04_scalar.md R132 to R134: QUIET, and the moves of control registers (R83, R250). -/

namespace Sys2Proof.Machine

open Sys2Proof.Safety

/-! QUIET (R132, R133). -/

/-- CUTREQ after QUIET n: PENDING and TARGET as they were, PASSED, and n as the last cut. -/
def cutReqOf (old : Word) (n : BitVec 12) : Word := (old &&& 0x1FFF) ||| wordOfNat (2 ^ 28 + n.toNat * 2 ^ 16)

theorem toNat_cutReqOf (old : Word) (n : BitVec 12) : (cutReqOf old n).toNat = 2 ^ 13 * (2 ^ 15 + n.toNat * 8) + old.toNat % 2 ^ 13 := by
  have hn := n.isLt
  have hlow : (old &&& 0x1FFF).toNat = old.toNat % 2 ^ 13 := by
    rw [BitVec.toNat_and]
    exact Nat.and_two_pow_sub_one_eq_mod _ 13
  have hhigh : (wordOfNat (2 ^ 28 + n.toNat * 2 ^ 16)).toNat = 2 ^ 13 * (2 ^ 15 + n.toNat * 8) := by
    rw [wordOfNat, BitVec.toNat_ofNat, Nat.mod_eq_of_lt (by omega)]
    omega
  rw [cutReqOf, BitVec.toNat_or, hlow, hhigh, Nat.or_comm, Nat.two_pow_add_eq_or_of_lt (Nat.mod_lt _ (by decide))]

theorem cutReqOf_bits (old : Word) (n : BitVec 12) : (cutReqOf old n).bits 28 1 = 1 ∧ (cutReqOf old n).bits 16 12 = n.toNat ∧
    (cutReqOf old n).bits 0 13 = old.bits 0 13 := by
  have hn := n.isLt
  simp only [BitVec.bits, toNat_cutReqOf, Nat.shiftRight_eq_div_pow]
  refine ⟨?_, ?_, ?_⟩ <;> omega

/-- A ready slot whose effect, in the open bundle, is f on its own context. -/
theorem does_modCtx {i : Instr} {s : State} {eff : State → Out} {f g : Ctx → Ctx} (h : Ready i s)
    (hw : ∀ a b wa wb sc k, i ≠ .waitc a b wa wb sc k) (he : eff (opened s) = .next ((opened s).modCtx s.cur f))
    (hd : (f (own s)).drain = (own s).drain) (hg : f (own s) = g (own s)) : Does (issue i eff s) s g :=
  does_congr (does_of h hw he rfl (fun _ hk => State.ctxAt_modCtx_ne _ _ _ _ hk) (State.ctxAt_modCtx_self _ _ _) rfl rfl
    (ready_drain_ne_rft h hd)) hg

theorem exec_quiet (a : Reg) (n : BitVec 12) (s : State) : exec (.quiet a n) s = issue (.quiet a n) (fun s =>
    .next (s.modCtx s.cur fun c => { c.setCr crCutreq (cutReqOf c.cr[crCutreq] n) with
      live := if a = 0 then 0 else c.getX a
      stopPoint := c.stopPoint || (c.cutPending && c.cutTarget ≤ n.toNat && c.frames = 0 && !isSeq s.cur) })) s := rfl

/-- Settles O10: what QUIET makes of its context, and the fields of CUTREQ that it writes. -/
theorem quietPoint : Obligations.QuietPoint := by
  rintro s a n _ h rfl
  refine ⟨cutReqOf (own s).cr[crCutreq] n, ?_, cutReqOf_bits _ n⟩
  rw [exec_quiet]
  refine does_modCtx h nofun rfl rfl ?_
  have hstop : ((own s).cutPending && decide ((own s).cutTarget ≤ n.toNat) && decide ((own s).frames = 0) && !isSeq s.cur) =
      decide (((own s).cr[0x16]).getLsbD 12 = true ∧ ((own s).cr[0x16]).bits 0 12 ≤ n.toNat ∧ (own s).frames = 0 ∧ isSeq s.cur = false) := by
    rw [Bool.eq_iff_iff]
    simp only [Bool.and_eq_true, decide_eq_true_eq, Bool.not_eq_true', and_assoc]
    rfl
  dsimp only [opened, openBundle]
  rw [hstop]
  rfl

/-! SLK, MTC, MPCW and MFC (R134, R250). -/

theorem mergeBits_getLsbD (mask old new : Word) {b : Nat} (hb : b < 64) :
    (mergeBits mask old new).getLsbD b = if mask.getLsbD b then new.getLsbD b else old.getLsbD b := by
  unfold mergeBits
  rw [BitVec.getLsbD_or, BitVec.getLsbD_and, BitVec.getLsbD_and, BitVec.getLsbD_not, decide_eq_true hb]
  cases mask.getLsbD b <;> simp

/-- The bundle's one MTC governs from the next bundle on, but for a reserved mode of VRM (R48). -/
theorem applyMtc_single {c : Ctx} {k : Fin 24} {v : Word} (h : c.crPend = [(k.val, v)]) (hv : k.val = 0x0E → v.bits 0 3 < 6) :
    (∀ b, b < 64 → (c.applyMtc.cr[k]).getLsbD b = if (crMask k).getLsbD b then v.getLsbD b else (c.cr[k]).getLsbD b) ∧
    (∀ j : Fin 24, j ≠ k → c.applyMtc.cr[j] = c.cr[j]) ∧ c.applyMtc.crPend = [] := by
  have hmode : (if k = crVrm && 6 ≤ v.bits 0 3 then v &&& ~~~7#64 else v) = v := by
    refine if_neg fun hk => ?_
    obtain ⟨hk, h6⟩ : k = crVrm ∧ 6 ≤ v.bits 0 3 := by simpa using hk
    have := hv (congrArg Fin.val hk)
    omega
  rw [applyMtc_of_single h]
  refine ⟨fun b hb => ?_, fun j hj => cr_writeCr_ne _ v hj, rfl⟩
  rw [cr_writeCr_self, hmode]
  exact mergeBits_getLsbD _ _ _ hb

/-- MFC reads the register as it stands at issue. -/
theorem writesLater_mfc {s : State} {d : Reg} {n : BitVec 12} {k : Fin 24} (hk : n.toNat = k.val) (h : Ready (.mfc d n) s) :
    WritesLater (exec (.mfc d n) s) s 1 d (s.readCr s.cur k) := by
  have hread : (if h : n.toNat < 24 then (opened s).readCr s.cur ⟨n.toNat, h⟩ else 0) = s.readCr s.cur k := by
    rw [dif_pos (hk ▸ k.isLt)]
    exact congrArg (s.readCr s.cur) (Fin.ext hk)
  refine writesLater_of_does (by decide) (does_modCtx (eff := fun u => .next (u.modCtx u.cur fun c =>
    c.addX 2 d (if h : n.toNat < 24 then u.readCr u.cur ⟨n.toNat, h⟩ else 0))) h nofun rfl (addX_drain _ _ _ _) ?_)
  exact congrArg ((own s).addX 2 d) hread

/-- Settles O11: the moves by what they make of their context, the written register by the mask. -/
theorem controlRegisterMoves : Obligations.ControlRegisterMoves := by
  refine ⟨fun s a d n k hk => ⟨?slk, ?mtc, writesLater_mfc hk, ?mpcw⟩, fun c k v h hv => applyMtc_single h hv⟩
  case slk => exact fun m h => does_onCtx h nofun (ready_drain_ne_rft h rfl)
  case mtc => exact fun h => does_congr (does_onCtx h nofun (ready_drain_ne_rft h rfl)) rfl
  case mpcw => exact fun wa h => does_congr (does_onCtx h nofun (ready_drain_ne_rft h rfl)) rfl

end Sys2Proof.Machine
end

section
/-! PROOFS. spec/02_numbers.md R69, spec/04_scalar.md R117: the bit operations, element by element. -/

namespace Sys2Proof.Machine

open Sys2Proof.Safety

/-! The functions of one element. -/

theorem clzNat_spec {w e : Nat} (he : e < 2 ^ w) : (e = 0 → clzNat w e = w) ∧
    (e ≠ 0 → clzNat w e < w ∧ e.testBit (w - 1 - clzNat w e) ∧ ∀ j, w - 1 - clzNat w e < j → ¬e.testBit j) := by
  refine ⟨fun h => if_pos h, fun h => ?_⟩
  have hlog : Nat.log2 e < w := (Nat.log2_lt h).mpr he
  have hclz : clzNat w e = w - 1 - Nat.log2 e := if_neg h
  have hback : w - 1 - clzNat w e = Nat.log2 e := by omega
  rw [hback]
  refine ⟨by omega, Nat.testBit_log2 h, fun j hj => ?_⟩
  simp [Nat.testBit_lt_two_pow ((Nat.log2_lt h).mp hj)]

theorem ffsNat_spec {w e : Nat} (he : e < 2 ^ w) : (e = 0 → ffsNat w e = 0) ∧
    (e ≠ 0 → 1 ≤ ffsNat w e ∧ e.testBit (ffsNat w e - 1) ∧ ∀ j, j < ffsNat w e - 1 → ¬e.testBit j) := by
  unfold ffsNat
  cases hf : (upTo w).find? fun i => e.testBit i with
  | none =>
    have hzero : e = 0 := Nat.zero_of_testBit_eq_false fun i => by
      by_cases hi : i < w
      · simpa using List.find?_eq_none.mp hf i (List.mem_range.mpr hi)
      · exact Nat.testBit_lt_two_pow (he.trans_le (Nat.pow_le_pow_right (by decide) (by omega)))
    exact ⟨fun _ => rfl, fun h => absurd hzero h⟩
  | some n =>
    obtain ⟨hn, i, hi, hget, hbefore⟩ := List.find?_eq_some_iff_getElem.mp hf
    have hin : i = n := by simpa [upTo] using hget
    subst hin
    simp only [upTo, List.getElem_range] at hbefore
    refine ⟨fun h => absurd hn (by simp [h]), fun _ => ⟨Nat.le_add_left _ _, hn, fun j hj => ?_⟩⟩
    simpa using hbefore j hj

theorem popcNat_eq (w e : Nat) : popcNat w e = ((List.range w).filter fun j => e.testBit j).length := List.countP_eq_length_filter

/-- The lowest n bits of v, in reverse order, stand in the highest places of w bits. -/
theorem brev_fold (w v : Nat) : ∀ n, n ≤ w → ∃ q, (upTo n).foldl (fun a i => if v.testBit i then a + 2 ^ (w - 1 - i) else a) 0 = 2 ^ (w - n) * q ∧
    ∀ j, q.testBit j = (decide (j < n) && v.testBit (n - 1 - j))
  | 0, _ => ⟨0, rfl, fun j => by simp⟩
  | n + 1, h => by
    obtain ⟨q, hq, hbits⟩ := brev_fold w v n (by omega)
    refine ⟨2 * q + (v.testBit n).toNat, ?_, fun j => ?_⟩
    · have hpow : 2 ^ (w - n) = 2 ^ (w - (n + 1)) * 2 := by rw [← Nat.pow_succ]; congr 1; omega
      have hplace : w - 1 - n = w - (n + 1) := by omega
      unfold upTo at hq ⊢
      rw [List.range_succ, List.foldl_append, hq, hpow, List.foldl_cons, List.foldl_nil, hplace]
      cases v.testBit n <;> simp [Nat.mul_add, Nat.mul_assoc]
    · cases j with
      | zero => cases hv : v.testBit n <;> simp [Nat.testBit_zero, hv]
      | succ j =>
        have hhalf : (2 * q + (v.testBit n).toNat) / 2 = q := by cases v.testBit n <;> simp; omega
        rw [Nat.testBit_succ, hhalf, hbits, show n + 1 - 1 - (j + 1) = n - 1 - j by omega]
        simp

theorem testBit_brevNat (w v j : Nat) : (brevNat w v).testBit j = (decide (j < w) && v.testBit (w - 1 - j)) := by
  obtain ⟨q, hq, hbits⟩ := brev_fold w v w (Nat.le_refl w)
  rw [brevNat, hq, Nat.sub_self, Nat.pow_zero, Nat.one_mul, hbits]

/-! Each result is an element. -/

theorem clzNat_lt (w e : Nat) : clzNat w e < 2 ^ w := by
  have := Nat.lt_two_pow_self (n := w)
  unfold clzNat
  split <;> omega

theorem ffsNat_lt (w e : Nat) : ffsNat w e < 2 ^ w := by
  have hw := Nat.lt_two_pow_self (n := w)
  unfold ffsNat
  cases hf : (upTo w).find? fun i => e.testBit i with
  | none => exact Nat.pos_of_ne_zero (by simp)
  | some n =>
    have hn : n < w := List.mem_range.mp (List.mem_of_find?_eq_some hf)
    exact Nat.lt_of_le_of_lt hn hw

theorem popcNat_lt (w e : Nat) : popcNat w e < 2 ^ w :=
  (List.countP_le_length.trans_eq List.length_range).trans_lt Nat.lt_two_pow_self

theorem brevNat_lt (w e : Nat) : brevNat w e < 2 ^ w :=
  Nat.lt_pow_two_of_testBit _ fun j hj => by rw [testBit_brevNat, decide_eq_false (by omega), Bool.false_and]

/-! The elements of a word. -/

/-- Numbers below 2^w side by side. -/
theorem elementSum (w : Nat) (g : Nat → Nat) (hg : ∀ i, g i < 2 ^ w) : ∀ n,
    (upTo n).foldl (fun a i => a + g i <<< (w * i)) 0 < 2 ^ (w * n) ∧
    ∀ i, i < n → (upTo n).foldl (fun a i => a + g i <<< (w * i)) 0 >>> (w * i) % 2 ^ w = g i
  | 0 => ⟨by simp [upTo], nofun⟩
  | n + 1 => by
    obtain ⟨hlt, hget⟩ := elementSum w g hg n
    unfold upTo at hlt hget ⊢
    rw [List.range_succ, List.foldl_append, List.foldl_cons, List.foldl_nil, Nat.shiftLeft_eq]
    generalize (List.range n).foldl (fun a i => a + g i <<< (w * i)) 0 = a at hlt hget ⊢
    refine ⟨?_, fun i hi => ?_⟩
    · calc a + g n * 2 ^ (w * n) < (1 + g n) * 2 ^ (w * n) := by rw [Nat.add_mul, Nat.one_mul]; omega
        _ ≤ 2 ^ w * 2 ^ (w * n) := Nat.mul_le_mul_right _ (by have := hg n; omega)
        _ = 2 ^ (w * (n + 1)) := by rw [← Nat.pow_add, Nat.mul_succ, Nat.add_comm]
    · rw [Nat.shiftRight_eq_div_pow]
      rcases Nat.lt_succ_iff_lt_or_eq.mp hi with hi | rfl
      · obtain ⟨k, rfl⟩ : ∃ k, n = i + 1 + k := ⟨n - i - 1, by omega⟩
        have hplace : g (i + 1 + k) * 2 ^ (w * (i + 1 + k)) = g (i + 1 + k) * 2 ^ (w * k) * 2 ^ w * 2 ^ (w * i) := by
          rw [Nat.mul_assoc, Nat.mul_assoc, ← Nat.pow_add, ← Nat.pow_add]
          congr 2
          rw [Nat.mul_add, Nat.mul_add]
          omega
        rw [hplace, Nat.add_mul_div_right _ _ (Nat.two_pow_pos _), Nat.add_mul_mod_self_right, ← hget i hi, Nat.shiftRight_eq_div_pow]
      · rw [Nat.add_mul_div_right _ _ (Nat.two_pow_pos _), Nat.div_eq_of_lt hlt, Nat.zero_add, Nat.mod_eq_of_lt (hg _)]

theorem eachElem_bits {f : Nat → Nat → Nat} {w : Nat} (hw : w ∣ 64) (hf : ∀ e, f w e < 2 ^ w) (v : Word) {i : Nat} (hi : i < 64 / w) :
    (eachElem f w v).bits (w * i) w = f w (v.bits (w * i) w) := by
  obtain ⟨hlt, hget⟩ := elementSum w (fun i => f w (v.bits (w * i) w)) (fun i => hf _) (64 / w)
  rw [Nat.mul_div_cancel' hw] at hlt
  rw [eachElem, wordOfNat, BitVec.bits, BitVec.toNat_ofNat, Nat.mod_eq_of_lt hlt]
  exact hget i hi

theorem dvd_64_of_width (z : Width) : 8 * widthBytes z ∣ 64 := by cases z <;> decide

theorem bits_lt {n : Nat} (v : BitVec n) (lo len : Nat) : v.bits lo len < 2 ^ len := Nat.mod_lt _ (Nat.two_pow_pos _)

/-! Extensions. -/

theorem wordOfInt_sextNat (x : Word) (w : Nat) : wordOfInt (sextNat x.toNat w) = (x.setWidth w).signExtend 64 := by
  have hmod := Nat.mod_lt x.toNat (Nat.two_pow_pos w)
  have hint : sextNat x.toNat w = (x.setWidth w).toInt := by
    rw [BitVec.toInt_eq_toNat_cond, BitVec.toNat_setWidth, sextNat]
    cases w with
    | zero => simp [Nat.mod_one]
    | succ w =>
      rw [Nat.add_sub_cancel, Nat.pow_succ] at *
      by_cases h : 2 ^ w ≤ x.toNat % (2 ^ w * 2)
      · rw [if_pos ⟨by omega, h⟩, if_neg (by omega)]
      · rw [if_neg fun hc => h hc.2, if_pos (by omega)]
  rw [wordOfInt, hint, BitVec.signExtend]

theorem wordOfNat_lowBits (x : Word) (w : Nat) : wordOfNat (x.bits 0 w) = (x.setWidth w).setWidth 64 := by
  apply BitVec.eq_of_toNat_eq
  simp [wordOfNat, BitVec.bits]

/-- Settles O3: each slot's element function, put together for the elements of a word. -/
theorem bitElements : Obligations.BitElements := by
  rintro s d a z wa _ _ rfl rfl
  have hdvd := dvd_64_of_width z
  refine ⟨fun h => ⟨_, writesNow_xRes h nofun, ?clz⟩, fun h => ⟨_, writesNow_xRes h nofun, ?ffs⟩, fun h => ⟨_, writesNow_xRes h nofun, ?popc⟩,
    fun h => ⟨_, writesNow_xRes h nofun, ?brev⟩, fun h => ?sext, fun h => ?zext⟩
  case clz =>
    rintro i _ _ hi rfl rfl
    rw [eachElem_bits hdvd (clzNat_lt _) _ hi]
    exact clzNat_spec (bits_lt _ _ _)
  case ffs =>
    rintro i _ _ hi rfl rfl
    rw [eachElem_bits hdvd (ffsNat_lt _) _ hi]
    exact ffsNat_spec (bits_lt _ _ _)
  case popc =>
    rintro i _ _ hi rfl rfl
    rw [eachElem_bits hdvd (popcNat_lt _) _ hi]
    exact popcNat_eq _ _
  case brev =>
    rintro i _ _ hi rfl rfl j hj
    rw [eachElem_bits hdvd (brevNat_lt _) _ hi, testBit_brevNat, decide_eq_true (by omega), Bool.true_and]
    congr 1
    omega
  case sext => exact writesNow_congr (writesNow_xRes h nofun) (wordOfInt_sextNat _ _)
  case zext => exact writesNow_congr (writesNow_xRes h nofun) (wordOfNat_lowBits _ _)

end Sys2Proof.Machine
end

section
/-! PROOFS. spec/04_scalar.md R127: TKW. -/

namespace Sys2Proof.Machine

open Sys2Proof.Safety

/-! The tokens of a TKW. -/

theorem setK_getK (c : Ctx) (k : Tok) : c.setK k (c.getK k) = c := by
  unfold Ctx.setK Ctx.getK
  split
  · rfl
  · rw [Vector.set_getElem_self]

theorem getElem_k {c : Ctx} {k : Tok} (h : k ≠ 0) : c.k[k.toNat]?.getD {} = c.getK k := by
  rw [Ctx.getK, if_neg h, Vector.getElem?_eq_getElem (by have := k.isLt; omega), Option.getD_some]

theorem clearStatus_of_idle {c : Ctx} {k : Tok} (h : (c.getK k).busy = false) :
    c.clearStatus k = c.setK k { c.getK k with status := 0 } := by
  unfold Ctx.clearStatus
  exact if_neg (by rw [h]; exact Bool.false_ne_true)

theorem clearStatus_of_ok {c : Ctx} {k : Tok} (h : (c.getK k).status = 0) : c.clearStatus k = c := by
  have hsame : ({ c.getK k with status := 0 } : Token) = c.getK k := by rw [← h]
  unfold Ctx.clearStatus
  dsimp only
  rw [hsame, setK_getK, ite_self]

theorem getK_clearStatus {c : Ctx} {j : Tok} (h : (c.getK j).busy = false) (k : Tok) :
    (c.clearStatus j).getK k = if k = j then { c.getK k with status := 0 } else c.getK k := by
  rw [clearStatus_of_idle h, getK_setK]
  by_cases h0 : k = 0
  · subst h0
    rw [if_pos rfl]
    split <;> rfl
  · rw [if_neg h0]
    split
    · next hk => rw [hk]
    · rfl

/-- The context of a TKW once its tokens are free and ok. -/
def waited (c : Ctx) (ka kb kc : Tok) : Ctx := ((c.clearStatus ka).clearStatus kb).clearStatus kc

theorem clearStatus_frame (c : Ctx) (k : Tok) : c.clearStatus k = { c with k := (c.clearStatus k).k } := by
  unfold Ctx.clearStatus Ctx.setK
  dsimp only
  split
  · rfl
  · split <;> rfl

theorem waited_frame (c : Ctx) (ka kb kc : Tok) : waited c ka kb kc = { c with k := (waited c ka kb kc).k } := by
  unfold waited
  rw [clearStatus_frame (Ctx.clearStatus _ kb), clearStatus_frame (Ctx.clearStatus _ ka), clearStatus_frame c]

theorem waited_of_ok {c : Ctx} {ka kb kc : Tok} (h : ∀ k, k = ka ∨ k = kb ∨ k = kc → (c.getK k).status = 0) : waited c ka kb kc = c := by
  rw [waited, clearStatus_of_ok (h ka (.inl rfl)), clearStatus_of_ok (h kb (.inr (.inl rfl))), clearStatus_of_ok (h kc (.inr (.inr rfl)))]

theorem getK_waited {c : Ctx} {ka kb kc : Tok} (ha : (c.getK ka).busy = false) (hb : (c.getK kb).busy = false) (hc : (c.getK kc).busy = false)
    (k : Tok) : (waited c ka kb kc).getK k = if k = ka ∨ k = kb ∨ k = kc then { c.getK k with status := 0 } else c.getK k := by
  have hbusy : ∀ {d : Ctx} {j : Tok} (q : Tok), (d.getK j).busy = false → ((d.clearStatus j).getK q).busy = (d.getK q).busy := by
    intro d j q h
    rw [getK_clearStatus h]
    split <;> rfl
  have hb' := (hbusy kb ha).trans hb
  have hc' := (hbusy kc hb').trans ((hbusy kc ha).trans hc)
  rw [waited, getK_clearStatus hc', getK_clearStatus hb', getK_clearStatus ha]
  split_ifs <;> simp_all

/-! Its errors. -/

/-- The error of field j, a token with the status that it has at issue. -/
def tokError (c : Ctx) (j : Nat) (k : Tok) : List (Nat × Tok × Nat) :=
  if (c.getK k).status != 0 then [(j, k, (c.getK k).status.toNat)] else []

theorem tokError_eq (c : Ctx) (j : Nat) (k : Tok) :
    (if k != 0 && (c.k[k.toNat]?.getD {}).status.toNat != 0 then some (j, k, (c.k[k.toNat]?.getD {}).status.toNat) else none).toList =
      tokError c j k := by
  by_cases h0 : k = 0
  · subst h0
    rfl
  · have hzero : ((c.getK k).status.toNat != 0) = ((c.getK k).status != 0) := by
      rw [Bool.eq_iff_iff, bne_iff_ne, bne_iff_ne, ne_eq, ne_eq, BitVec.toNat_eq (y := (0 : BitVec 8))]
      rfl
    rw [getElem_k h0, hzero, bne_iff_ne.mpr h0, Bool.true_and, tokError]
    split <;> rfl

theorem filterMap_cons_toList {α β : Type} (f : α → Option β) (a : α) (l : List α) : (a :: l).filterMap f = (f a).toList ++ l.filterMap f := by
  rw [List.filterMap_cons]
  cases f a <;> rfl

theorem tokErrors_eq (c : Ctx) (ka kb kc : Tok) :
    tokErrors c.k [ka, kb, kc] = tokError c 0 ka ++ (tokError c 1 kb ++ tokError c 2 kc) := by
  rw [← tokError_eq, ← tokError_eq, ← tokError_eq]
  show List.filterMap _ [(0, ka), (1, kb), (2, kc)] = _
  rw [filterMap_cons_toList, filterMap_cons_toList, filterMap_cons_toList, List.filterMap_nil, List.append_nil]

/-- TINFO of a TKW with an error in the fields marked. -/
def waitInfo (a b c : Bool) (k : Tok) (st : BitVec 8) : Word :=
  wordOfNat ((4 * a.toNat + 2 * b.toNat + c.toNat) <<< 26 + st.toNat <<< 18 + k.toNat <<< 14 + 0x1B <<< 6)

theorem tokErrors_of_error {c : Ctx} {ka kb kc e : Tok}
    (he : (if (c.getK ka).status != 0 then ka else if (c.getK kb).status != 0 then kb else kc) = e) (h0 : (c.getK e).status ≠ 0) :
    (∃ j rest, tokErrors c.k [ka, kb, kc] = (j, e, (c.getK e).status.toNat) :: rest) ∧ tokInfo 0x1B (tokErrors c.k [ka, kb, kc]) =
      waitInfo ((c.getK ka).status != 0) ((c.getK kb).status != 0) ((c.getK kc).status != 0) e (c.getK e).status := by
  rw [tokErrors_eq]
  unfold tokError
  cases ha : (c.getK ka).status != 0 with
  | true =>
    rw [if_pos ha] at he
    subst he
    refine ⟨⟨_, _, rfl⟩, ?_⟩
    cases (c.getK kb).status != 0 <;> cases (c.getK kc).status != 0 <;> rfl
  | false =>
    rw [if_neg (Bool.eq_false_iff.mp ha)] at he
    cases hb : (c.getK kb).status != 0 with
    | true =>
      rw [if_pos hb] at he
      subst he
      refine ⟨⟨_, _, rfl⟩, ?_⟩
      cases (c.getK kc).status != 0 <;> rfl
    | false =>
      rw [if_neg (Bool.eq_false_iff.mp hb)] at he
      subst he
      rw [bne_iff_ne.mpr h0]
      exact ⟨⟨_, _, rfl⟩, rfl⟩

theorem waitInfo_bits (a b c : Bool) (k : Tok) (st : BitVec 8) : (waitInfo a b c k st).bits 14 4 = k.toNat ∧
    (waitInfo a b c k st).bits 18 8 = st.toNat ∧ ((waitInfo a b c k st).getLsbD 28 = true ↔ a = true) ∧
    ((waitInfo a b c k st).getLsbD 27 = true ↔ b = true) ∧ ((waitInfo a b c k st).getLsbD 26 = true ↔ c = true) := by
  have hk := k.isLt
  have hst := st.isLt
  have ha := a.toNat_le
  have hb := b.toNat_le
  have hc := c.toNat_le
  have hnat : (waitInfo a b c k st).toNat =
      (4 * a.toNat + 2 * b.toNat + c.toNat) * 2 ^ 26 + st.toNat * 2 ^ 18 + k.toNat * 2 ^ 14 + 0x1B * 2 ^ 6 := by
    rw [waitInfo, wordOfNat, BitVec.toNat_ofNat]
    simp only [Nat.shiftLeft_eq]
    exact Nat.mod_eq_of_lt (by omega)
  have hone : ∀ d : Bool, d = true ↔ d.toNat = 1 := by decide
  simp only [BitVec.bits, BitVec.getLsbD, Nat.testBit_eq_decide_div_mod_eq, decide_eq_true_eq, hone a, hone b, hone c, hnat,
    Nat.shiftRight_eq_div_pow]
  refine ⟨?_, ?_, ?_, ?_, ?_⟩ <;> omega

/-! The slot. -/

theorem acquire_withIss (s : State) (i : Iss) (n sc : Nat) : ({ s with iss := i } : State).acquire n sc = { s.acquire n sc with iss := i } := by
  unfold State.acquire
  dsimp only
  split <;> rfl

theorem ctxAt_acquire (s : State) (n sc k : Nat) : (s.acquire n sc).ctxAt k = s.ctxAt k := by rw [acquire_eq]; rfl

theorem cur_acquire (s : State) (n sc : Nat) : (s.acquire n sc).cur = s.cur := by rw [acquire_eq]

/-- The state that a slot of one bundle leaves which acquires at a scope and makes f of its context. -/
def acquired (s : State) (sc : Nat) (f : Ctx → Ctx) : State := ((opened s).acquire s.cur sc).modCtx s.cur f

theorem acquired_eq (s : State) (sc : Nat) (f : Ctx → Ctx) :
    acquired s sc f = { s.acquire s.cur sc with ctxs := (acquired s sc f).ctxs, iss := (opened s).iss } := by
  rw [acquired, show opened s = { s with iss := (opened s).iss } from rfl, acquire_withIss]
  rfl

theorem ctxAt_acquired_ne (s : State) (sc : Nat) (f : Ctx → Ctx) :
    ∀ k, k ≠ (s.acquire s.cur sc).cur → (acquired s sc f).ctxAt k = (s.acquire s.cur sc).ctxAt k := by
  intro k hk
  rw [cur_acquire] at hk
  rw [acquired, State.ctxAt_modCtx_ne _ _ _ _ hk, ctxAt_acquire, ctxAt_acquire]
  rfl

theorem ctxAt_acquired_self (s : State) (sc : Nat) (f : Ctx → Ctx) : (acquired s sc f).ctxAt (s.acquire s.cur sc).cur = f (own s) := by
  rw [cur_acquire, acquired, State.ctxAt_modCtx_self, ctxAt_acquire]
  rfl

theorem own_acquire (s : State) (n sc : Nat) : own (s.acquire n sc) = own s := by rw [own, ctxAt_acquire, cur_acquire]; rfl

theorem iss_acquired (s : State) (sc : Nat) (f : Ctx → Ctx) : (acquired s sc f).iss = (opened s).iss := by rw [acquired_eq]

/-- A ready slot that acquires at a scope, and else makes f of its context. -/
theorem does_acquired {i : Instr} {eff : State → Out} {s : State} {sc : Nat} {f g : Ctx → Ctx} (h : Ready i s)
    (hw : ∀ a b wa wb sc k, i ≠ .waitc a b wa wb sc k) (he : eff (opened s) = .next (acquired s sc f))
    (hd : (f (own s)).drain = (own s).drain) (hg : f (own s) = g (own s)) : Does (issue i eff s) (s.acquire s.cur sc) g := by
  have hiss := iss_acquired s sc f
  have heq : acquired s sc f = { s.acquire s.cur sc with ctxs := (acquired s sc f).ctxs, iss := (acquired s sc f).iss } := by
    rw [hiss]
    exact acquired_eq s sc f
  have hown := own_acquire s s.cur sc
  exact does_congr (does_of h hw he heq (ctxAt_acquired_ne s sc f) (by rw [hown]; exact ctxAt_acquired_self s sc f) (by rw [hiss]; rfl)
    (by rw [hiss]; rfl) (by rw [hown]; exact ready_drain_ne_rft h hd)) (by rw [hown]; exact hg)

/-- A ready slot whose effect leaves u, as `does_of` has it, and has a trap follow its bundle. -/
theorem traps_of {i : Instr} {eff : State → Out} {s s' u : State} {c : Ctx} {cause : Cause} {addr info : Word} {imp : Bool} (h : Ready i s)
    (hw : ∀ a b wa wb sc k, i ≠ .waitc a b wa wb sc k) (he : eff (opened s) = .next u)
    (hs : u = { s' with ctxs := u.ctxs, iss := u.iss }) (hk : ∀ k, k ≠ s'.cur → u.ctxAt k = s'.ctxAt k)
    (hc : u.ctxAt s'.cur = c) (hp : u.iss.post = some (cause, addr, info, imp)) (hr : u.iss.repLeft = none) :
    ∃ w, issue i eff s =
      takeTrap w s'.cur { cause := cause, tpc := (w.ctxAt s'.cur).pc, taddr := addr, tinfo := info, imprecise := imp } ∧
      OnlyOwn s' w ∧ SameButIssue (aged c) (w.ctxAt s'.cur) := by
  have hcu : u.cur = s'.cur := by rw [hs]
  obtain ⟨hown, hctx⟩ := closed_spec hs hk hc
  refine ⟨closed u, ?_, hown, ?_⟩
  · rw [issue_ready _ h hw, he, ← hcu]
    exact closeBundle_traps hp
  · rw [hctx]
    exact closedCtx_frame hr

/-- TKW acquires and sets its tokens' status to ok; an error among them is left to be trapped. -/
theorem exec_tkw (ka kb kc : Tok) (s : State) : ∃ eff, exec (.tkw ka kb kc) s = issue (.tkw ka kb kc) eff s ∧
    (tokErrors (own s).k [ka, kb, kc] = [] → eff (opened s) = .next (acquired s 0 fun c => waited c ka kb kc)) ∧
    ∀ j k st l, tokErrors (own s).k [ka, kb, kc] = (j, k, st) :: l → eff (opened s) =
      .next { acquired s 0 (fun c => waited c ka kb kc) with iss := { (opened s).iss with
        post := some (statusCause st, statusAddr st ((own s).k[k.toNat]?.getD {}).addr, tokInfo 0x1B ((j, k, st) :: l), false) } } := by
  have hcur : ((opened s).acquire s.cur 0).cur = s.cur := cur_acquire (opened s) s.cur 0
  have hiss : ((opened s).acquire s.cur 0).iss = (opened s).iss := by rw [acquire_eq]
  show ∃ eff, execTkw ka kb kc s = issue (.tkw ka kb kc) eff s ∧ _
  refine ⟨_, rfl, fun h => ?_, fun j k st l h => ?_⟩
  · rw [show (own s).k = (opened s).iss.toks from rfl] at h
    dsimp only
    rw [show (opened s).cur = s.cur from rfl, hcur, h]
    rfl
  · rw [show (own s).k = (opened s).iss.toks from rfl] at h
    dsimp only
    rw [show (opened s).cur = s.cur from rfl, hcur, h, State.modCtx_iss, hiss]
    rfl

theorem tokErrors_of_ok {c : Ctx} {ka kb kc : Tok} (h : ∀ k, k = ka ∨ k = kb ∨ k = kc → (c.getK k).status = 0) :
    tokErrors c.k [ka, kb, kc] = [] := by
  have hnone : ∀ j k, (c.getK k).status = 0 → tokError c j k = [] := fun j k hk => if_neg (by rw [hk]; decide)
  rw [tokErrors_eq, hnone 0 ka (h ka (.inl rfl)), hnone 1 kb (h kb (.inr (.inl rfl))), hnone 2 kc (h kc (.inr (.inr rfl)))]
  rfl

/-- With no error a TKW only acquires. -/
theorem tkw_passes {s : State} {ka kb kc : Tok} (h : Ready (.tkw ka kb kc) s)
    (hok : ∀ k, k = ka ∨ k = kb ∨ k = kc → ((own s).getK k).status = 0) : Does (exec (.tkw ka kb kc) s) (s.acquire s.cur 0) id := by
  obtain ⟨eff, hexec, heff, -⟩ := exec_tkw ka kb kc s
  have hsame : waited (own s) ka kb kc = own s := waited_of_ok hok
  rw [hexec]
  exact does_acquired h nofun (heff (tokErrors_of_ok hok)) (by rw [hsame]) hsame

/-- A ready slot that acquires at a scope, makes f of its context, and has a trap follow its bundle. -/
theorem traps_acquired {i : Instr} {eff : State → Out} {s : State} {sc : Nat} {f : Ctx → Ctx} {cause : Cause} {addr info : Word} {imp : Bool}
    (h : Ready i s) (hw : ∀ a b wa wb sc k, i ≠ .waitc a b wa wb sc k)
    (he : eff (opened s) = .next { acquired s sc f with iss := { (opened s).iss with post := some (cause, addr, info, imp) } }) :
    ∃ u, issue i eff s =
      takeTrap u s.cur { cause := cause, tpc := (u.ctxAt s.cur).pc, taddr := addr, tinfo := info, imprecise := imp } ∧
      OnlyOwn (s.acquire s.cur sc) u ∧ SameButIssue (aged (f (own s))) (u.ctxAt s.cur) := by
  have h := traps_of (s' := s.acquire s.cur sc) h hw he (by rw [acquired_eq]) (ctxAt_acquired_ne s sc f) (ctxAt_acquired_self s sc f) rfl rfl
  rwa [cur_acquire] at h

/-- What an erroneous token's status has in TADDR. -/
theorem statusAddr_toNat (st : BitVec 8) (va : Word) : statusAddr st.toNat va = if st = 0x24 then va else 0 := by
  have h : st.toNat = 0x24 ↔ st = 0x24 := by rw [BitVec.toNat_eq (y := (0x24 : BitVec 8))]; rfl
  rw [statusAddr]
  simp only [h]

theorem tkw_idle {s : State} {ka kb kc : Tok} (h : Ready (.tkw ka kb kc) s) :
    ((own s).getK ka).busy = false ∧ ((own s).getK kb).busy = false ∧ ((own s).getK kc).busy = false := by
  obtain ⟨-, -, -, hst, -⟩ := h
  rw [stalls, Bool.or_eq_false_iff, List.any_cons, List.any_nil, Bool.or_false] at hst
  obtain ⟨-, hst⟩ := hst
  rw [show s.ctxAt s.cur = own s from rfl] at hst
  simpa [ownStall, and_assoc] using hst

/-- With an error a TKW traps after its bundle. -/
theorem tkw_traps {s : State} {ka kb kc e : Tok} (h : Ready (.tkw ka kb kc) s)
    (he : (if ((own s).getK ka).status ≠ 0 then ka else if ((own s).getK kb).status ≠ 0 then kb else kc) = e)
    (h0 : ((own s).getK e).status ≠ 0) : ∃ u, exec (.tkw ka kb kc) s =
      takeTrap u s.cur { cause := statusCause ((own s).getK e).status.toNat, tpc := (u.ctxAt s.cur).pc
                         taddr := if ((own s).getK e).status = 0x24 then ((own s).getK e).addr else 0
                         tinfo := waitInfo (((own s).getK ka).status != 0) (((own s).getK kb).status != 0) (((own s).getK kc).status != 0) e
                           ((own s).getK e).status } ∧
      Does (.next u) (s.acquire s.cur 0) (fun c => { c with k := (u.ctxAt s.cur).k }) ∧
      (u.ctxAt s.cur).k = (waited (own s) ka kb kc).k := by
  simp only [← bne_iff_ne] at he
  obtain ⟨⟨j, rest, herr⟩, hinfo⟩ := tokErrors_of_error he h0
  obtain ⟨eff, hexec, -, heff⟩ := exec_tkw ka kb kc s
  have hv := heff _ _ _ _ herr
  have hne : e ≠ 0 := by rintro rfl; exact h0 rfl
  rw [← herr, hinfo, statusAddr_toNat, getElem_k hne] at hv
  obtain ⟨u, htrap, hown, hctx⟩ := traps_acquired h nofun hv
  have hk : (u.ctxAt s.cur).k = (waited (own s) ka kb kc).k :=
    (congrArg Ctx.k hctx.1).trans (onlyRegs_aged _).k
  refine ⟨u, hexec.trans htrap, ⟨u, rfl, hown, ?_⟩, hk⟩
  rw [waited_frame] at hctx
  rw [own_acquire, cur_acquire, hk]
  exact hctx

/-- Settles O13: TKW by the errors among its tokens. -/
theorem tokenWait : Obligations.TokenWait := by
  intro s ka kb kc h
  refine ⟨tkw_passes h, ?_⟩
  rintro e k _ he rfl h0
  obtain ⟨u, hexec, hdoes, hk⟩ := tkw_traps h he h0
  obtain ⟨ha, hb, hc⟩ := tkw_idle h
  obtain ⟨htok, hstatus, hma, hmb, hmc⟩ := waitInfo_bits (((own s).getK ka).status != 0) (((own s).getK kb).status != 0)
    (((own s).getK kc).status != 0) e ((own s).getK e).status
  rw [bne_iff_ne] at hma hmb hmc
  refine ⟨u, _, hexec, hdoes, ?_, htok, hstatus, hma, hmb, hmc⟩
  have hget : (u.ctxAt s.cur).getK k = (waited (own s) ka kb kc).getK k := by unfold Ctx.getK; rw [hk]
  rw [hget, getK_waited ha hb hc]

end Sys2Proof.Machine
end

section
/-! PROOFS. spec/04_scalar.md R128: WAITC, whose read is a check of its issue. -/

namespace Sys2Proof.Machine

open Sys2Proof.Safety

/-! The four conditions. -/

theorem waitCond_spec (w y : Word) : (waitCond .ge w y = true ↔ y.toInt ≤ w.toInt) ∧ (waitCond .eq w y = true ↔ w = y) ∧
    (waitCond .ne w y = true ↔ w ≠ y) ∧ (waitCond .geu w y = true ↔ y.toNat ≤ w.toNat) :=
  ⟨decide_eq_true_iff, decide_eq_true_iff, bne_iff_ne, decide_eq_true_iff⟩

/-! Issue by what the checks decide. -/

theorem issue_of_go {i : Instr} {s s' : State} (eff : State → Out) (hopen : s.iss.isOpen = false)
    (hstatic : staticFault (own s).kernel (isSeq s.cur) none [some i] = none) (hj : judge s s.cur (own s).pc 1 0 [i] 0 = (s', .go)) :
    issue i eff s = andThen (eff (openBundle s' (own s).pc 1 0 0 none)) closeBundle := by
  unfold own at hstatic hj
  unfold issue
  rw [if_neg (by simp [hopen])]
  simp only [hstatic, hj]
  rfl

theorem issue_of_stall {i : Instr} {s s' : State} (eff : State → Out) (hopen : s.iss.isOpen = false)
    (hstatic : staticFault (own s).kernel (isSeq s.cur) none [some i] = none) (hj : judge s s.cur (own s).pc 1 0 [i] 0 = (s', .stall)) :
    issue i eff s = .next (stallCtx s' s.cur) := by
  unfold own at hstatic hj
  unfold issue
  rw [if_neg (by simp [hopen])]
  simp only [hstatic, hj]

/-! A satisfied wait is a mark of issue: ageing does not look at it. -/

theorem setX_withSatisfied (c : Ctx) (b : Bool) (r : Reg) (v : Word) :
    ({ c with satisfied := b } : Ctx).setX r v = { c.setX r v with satisfied := b } := by
  unfold Ctx.setX
  by_cases hr : r = 0
  · rw [if_pos hr, if_pos hr]
  · rw [if_neg hr, if_neg hr]

theorem setM_withSatisfied (c : Ctx) (b : Bool) (r : MReg) (v : Mask) :
    ({ c with satisfied := b } : Ctx).setM r v = { c.setM r v with satisfied := b } := by
  unfold Ctx.setM
  by_cases hr : r = 0
  · rw [if_pos hr, if_pos hr]
  · rw [if_neg hr, if_neg hr]

theorem orFlags_withSatisfied (c : Ctx) (b : Bool) (fl : Flags) :
    ({ c with satisfied := b } : Ctx).orFlags fl = { c.orFlags fl with satisfied := b } := by
  unfold Ctx.orFlags
  by_cases hf : fl = 0
  · rw [if_pos hf, if_pos hf]
  · rw [if_neg hf, if_neg hf]
    rfl

theorem land_withSatisfied (c : Ctx) (b : Bool) (p : Pending) : ({ c with satisfied := b } : Ctx).land p = { c.land p with satisfied := b } := by
  obtain ⟨due, res, fl⟩ := p
  have hflags := orFlags_withSatisfied c b fl
  cases res with
  | x r v => exact (congrArg (·.setX r v) hflags).trans (setX_withSatisfied _ b r v)
  | v r v en =>
    rw [land_v, land_v, hflags]
    by_cases he : en = BitVec.allOnes 2048
    · rw [if_pos he, if_pos he]
      rfl
    · rw [if_neg he, if_neg he]
      rfl
  | m r v en => exact (congrArg (fun d : Ctx => d.setM r ((d.getM r &&& ~~~en) ||| (v &&& en))) hflags).trans (setM_withSatisfied _ b r _)
  | flags => exact hflags

/-- A step that commutes with the mark does so along a list. -/
theorem foldl_withSatisfied {α : Type} {f : Ctx → α → Ctx} {b : Bool}
    (h : ∀ c a, f { c with satisfied := b } a = { f c a with satisfied := b }) : ∀ (l : List α) (c : Ctx),
      l.foldl f { c with satisfied := b } = { l.foldl f c with satisfied := b }
  | [], _ => rfl
  | a :: l, c => by rw [List.foldl_cons, h, foldl_withSatisfied h l, List.foldl_cons]

theorem aged_withSatisfied (c : Ctx) (b : Bool) : aged { c with satisfied := b } = { aged c with satisfied := b } := by
  have hmtc : ({ c with satisfied := b } : Ctx).applyMtc = { c.applyMtc with satisfied := b } :=
    foldl_withSatisfied (fun _ _ => by split <;> rfl) c.crPend { c with crPend := [] }
  unfold aged
  rw [hmtc, tickPending_eq, tickPending_eq, foldl_withSatisfied fun c a => land_withSatisfied c b a]

/-! The checks of a WAITC. -/

section
variable {s : State} {a b : Reg} {wa wb : Bool} {sc : Scope} {k : WCond} (h : Ready (.waitc a b wa wb sc k) s)

theorem lateFault_waitc (s : State) (n : Nat) (pc : Word) (a b : Reg) (wa wb : Bool) (sc : Scope) (k : WCond) :
    lateFault s n pc 1 0 [.waitc a b wa wb sc k] = none ↔ step6 (s.ctxAt n) (.waitc a b wa wb sc k) = none := by
  have hslot : slotFault s n (.waitc a b wa wb sc k) = none := rfl
  cases h6 : step6 (s.ctxAt n) (.waitc a b wa wb sc k) <;> simp [lateFault, h6, hslot]

include h

theorem step6_of_ready_waitc : step6 (own s) (.waitc a b wa wb sc k) = none := by
  obtain ⟨-, -, -, -, -, hlate⟩ := h
  exact (lateFault_waitc _ _ _ _ _ _ _ _ _).mp hlate

theorem judge_waitc_satisfied (hs : (own s).satisfied = true) :
    judge s s.cur (own s).pc 1 0 [.waitc a b wa wb sc k] 0 = (s, .go) := by
  obtain ⟨-, -, -, hst, hpath, hlate⟩ := h
  unfold own at *
  simp [judge, hst, hpath, hs, hlate]

theorem judge_waitc_yes (hs : (own s).satisfied = false) (hr : waitRead s s.cur ((own s).getX a) ((own s).getX b) k = (s, .yes)) :
    judge s s.cur (own s).pc 1 0 [.waitc a b wa wb sc k] 0 =
      ((s.acquire s.cur (scopeCode sc)).modCtx s.cur fun c => { c with satisfied := true }, .go) := by
  have h6 := step6_of_ready_waitc h
  have hlate : lateFault ((s.acquire s.cur (scopeCode sc)).modCtx s.cur fun c => { c with satisfied := true }) s.cur (own s).pc 1 0
      [.waitc a b wa wb sc k] = none := by
    rw [lateFault_waitc, State.ctxAt_modCtx_self, ctxAt_acquire]
    exact h6
  obtain ⟨-, -, -, hst, hpath, -⟩ := h
  unfold own at *
  simp [judge, hst, hpath, hs, h6, hr, hlate]

theorem judge_waitc_no (hs : (own s).satisfied = false) (hr : waitRead s s.cur ((own s).getX a) ((own s).getX b) k = (s, .no)) :
    judge s s.cur (own s).pc 1 0 [.waitc a b wa wb sc k] 0 = (s, .stall) := by
  have h6 := step6_of_ready_waitc h
  obtain ⟨-, -, -, hst, hpath, -⟩ := h
  unfold own at *
  simp [judge, hst, hpath, hs, h6, hr]

end

/-! The slot. -/

/-- WAITC as the first access of a handler closes the entry window (R406). -/
def windowClosed (c : Ctx) : Ctx := if c.window.first.isNone then { c with window := {} } else c

theorem exec_waitc (a b : Reg) (wa wb : Bool) (sc : Scope) (k : WCond) (s : State) :
    exec (.waitc a b wa wb sc k) s = issue (.waitc a b wa wb sc k) (onCtx windowClosed) s := rfl

theorem windowClosed_eq (c : Ctx) : windowClosed c = if c.window.first = none then { c with window := {} } else c := by
  simp only [windowClosed, Option.isNone_iff_eq_none]

/-- A wait that is over, marked or not, leaves its context with the entry window closed. -/
theorem does_waited {s s' : State} {a b : Reg} {wa wb : Bool} {sc : Scope} {k : WCond} (h : Ready (.waitc a b wa wb sc k) s) {v : State} {m : Bool}
    (hj : judge s s.cur (own s).pc 1 0 [.waitc a b wa wb sc k] 0 = (v, .go)) (hv : v = { s' with ctxs := v.ctxs }) (hcur : s'.cur = s.cur)
    (hk : ∀ k, k ≠ s.cur → v.ctxAt k = s'.ctxAt k) (hown : own s' = own s) (hc : v.ctxAt s.cur = { own s with satisfied := m }) :
    Does (exec (.waitc a b wa wb sc k) s) s' windowClosed := by
  obtain ⟨hopen, hdrain, hstatic, -⟩ := h
  have hgo := issue_of_go (onCtx windowClosed) hopen hstatic hj
  have hvcur : v.cur = s.cur := by rw [hv]; exact hcur
  have hmark : windowClosed { own s with satisfied := m } = { windowClosed (own s) with satisfied := m } := by
    unfold windowClosed
    cases (own s).window.first <;> rfl
  have hclosed : (windowClosed (own s)).drain = (own s).drain := by unfold windowClosed; split <;> rfl
  generalize hu : ((openBundle v (own s).pc 1 0 0 none).modCtx v.cur windowClosed) = u
  have heq : u = { s' with ctxs := u.ctxs, iss := u.iss } := by
    rw [← hu]
    conv_lhs => rw [hv]
    conv_rhs => rw [hv]
    rfl
  have hctx : u.ctxAt s'.cur = { windowClosed (own s) with satisfied := m } := by
    rw [← hu, hcur, hvcur, State.ctxAt_modCtx_self, ← hmark, ← hc]
    rfl
  have hother : ∀ k, k ≠ s'.cur → u.ctxAt k = s'.ctxAt k := fun k hks => by
    rw [hcur] at hks
    rw [← hu, hvcur, State.ctxAt_modCtx_ne _ _ _ _ hks, ← hk k hks]
    rfl
  have hpost : u.iss.post = none := by rw [← hu]; rfl
  have hrep : u.iss.repLeft = none := by rw [← hu]; rfl
  obtain ⟨t, ht, hto, htc⟩ := closeBundle_closes heq hother hctx hpost hrep (by rw [hclosed, hdrain]; nofun)
  have hsame := closedCtx_frame (i := u.iss) (c := { windowClosed (own s) with satisfied := m }) hrep
  rw [← htc, aged_withSatisfied] at hsame
  refine ⟨t, ?_, hto, ?_⟩
  · rw [exec_waitc, hgo, ← ht, ← hu]
    rfl
  · rw [hown]
    exact hsame

/-- Settles O14: the conditions, and WAITC by what its check decides. -/
theorem waitOnWord : Obligations.WaitOnWord := by
  intro s a b wa wb sc k w y
  obtain ⟨hge, heq, hne, hgeu⟩ := waitCond_spec w y
  refine ⟨hge, heq, hne, hgeu, fun h => ⟨fun hs => ?satisfied, fun hs hr => ?yes, fun hs hr => ?no⟩⟩
  case satisfied =>
    exact does_congr (does_waited (v := s) (s' := s) h (judge_waitc_satisfied h hs) rfl rfl (fun _ _ => rfl) rfl rfl) (windowClosed_eq _)
  case yes =>
    refine does_congr (does_waited (m := true) h (judge_waitc_yes h hs hr) rfl (cur_acquire _ _ _)
      (fun _ hk => State.ctxAt_modCtx_ne _ _ _ _ hk) (own_acquire _ _ _) ?_) (windowClosed_eq _)
    rw [State.ctxAt_modCtx_self, ctxAt_acquire]
    rfl
  case no =>
    obtain ⟨hopen, -, hstatic, -⟩ := id h
    rw [exec_waitc]
    exact issue_of_stall _ hopen hstatic (judge_waitc_no h hs hr)

end Sys2Proof.Machine
end

section
/-! PROOFS. spec/04_scalar.md R130: BAR. -/

namespace Sys2Proof.Machine

open Sys2Proof.Safety

/-! A task by its number. -/

theorem findTask_id {s : State} {n : Nat} {t : Task} (h : s.findTask n = some t) : t.id = n := by
  have := List.find?_some h
  exact of_decide_eq_true this

theorem findTask_modTask {s : State} {n : Nat} {f : Task → Task} {t : Task} (hid : ∀ k, (f k).id = k.id) (h : s.findTask n = some t) :
    (s.modTask n f).findTask n = some (f t) := by
  have hpred : ((fun k : Task => decide (k.id = n)) ∘ fun k => if k.id = n then f k else k) = fun k => decide (k.id = n) := by
    funext k
    show decide ((if k.id = n then f k else k).id = n) = _
    split
    · rw [hid]
    · rfl
  rw [State.findTask] at h
  rw [State.findTask, State.modTask, List.find?_map, hpred, h, Option.map_some, if_pos (findTask_id h)]

theorem modTask_modTask {s : State} {n : Nat} {f : Task → Task} (g : Task → Task) (hid : ∀ k, (f k).id = k.id) :
    (s.modTask n f).modTask n g = s.modTask n fun k => g (f k) := by
  unfold State.modTask
  dsimp only
  rw [List.map_map]
  congr 1
  refine List.map_congr_left fun k _ => ?_
  show (if (if k.id = n then f k else k).id = n then g (if k.id = n then f k else k) else (if k.id = n then f k else k)) = _
  split
  · rw [hid, if_pos ‹_›]
  · rfl

theorem modTask_self (s : State) (n : Nat) : (s.modTask n fun k => k) = s := by
  have hmap : (s.tasks.map fun k => if k.id = n then k else k) = s.tasks := by simp
  rw [State.modTask, hmap]

theorem modTask_modCtx (s : State) (n m : Nat) (f : Task → Task) (g : Ctx → Ctx) :
    (s.modCtx m g).modTask n f = (s.modTask n f).modCtx m g := rfl

/-! The slot. -/

theorem lonelyBar_of_none {s : State} {n : Nat} (h : (s.ctxAt n).task = none) : s.lonelyBar n = s := by
  unfold State.lonelyBar
  rw [h]
  split
  · contradiction
  · rfl

theorem lonelyBar_of_task {s : State} {n m : Nat} (h : (s.ctxAt n).task = some m) :
    s.lonelyBar n = s.modTask m fun k => { k with bars := if (s.ctxAt n).grp = none then k.bars + 1 else k.bars } := by
  unfold State.lonelyBar
  rw [h]
  cases (s.ctxAt n).grp with
  | none => rfl
  | some g => exact (modTask_self s m).symm

/-- What a BAR makes of the task of its context (R130, R294, R313). -/
def taskPastBar (c : Ctx) (k : Task) : Task := { k with guard := none, bars := if c.grp = none then k.bars + 1 else k.bars }

/-- What a BAR makes of its context. -/
def pastBar (c : Ctx) : Ctx := { c with passed := none }

/-- The state that a BAR leaves in a bundle whose task is n. -/
def pastBarState (s : State) (n : Nat) : State := (acquired s 1 pastBar).modTask n (taskPastBar (own s))

theorem pastBarState_eq (s : State) (n : Nat) : pastBarState s n = { (s.acquire s.cur 1).modTask n (taskPastBar (own s)) with
    ctxs := (pastBarState s n).ctxs, iss := (opened s).iss } := by
  rw [pastBarState, acquired_eq]
  rfl

/-- BAR acquires at grp scope and clears its mark; a guard report pending for its task is left to be trapped. -/
theorem exec_bar (id : BitVec 12) (s : State) : ∃ eff, exec (.bar id) s = issue (.bar id) eff s ∧
    ((own s).task = none → eff (opened s) = .next (acquired s 1 pastBar)) ∧
    ∀ n t, (own s).task = some n → s.findTask n = some t → (t.guard = none → eff (opened s) = .next (pastBarState s n)) ∧
      ∀ g, t.guard = some g → eff (opened s) = .next { pastBarState s n with
        iss := { (opened s).iss with post := some (.guardTouch, BitVec.ofNat 64 g.addr, guardInfo 0x1D g, true) } } := by
  have hcur : (opened s).cur = s.cur := rfl
  have hcur' : ((opened s).acquire s.cur 1).cur = s.cur := cur_acquire (opened s) s.cur 1
  have hctx : ((opened s).acquire s.cur 1).ctxAt s.cur = own s := ctxAt_acquire _ _ _ _
  have hiss : ((opened s).acquire s.cur 1).iss = (opened s).iss := by rw [acquire_eq]
  show ∃ eff, execBar id s = issue (.bar id) eff s ∧ _
  refine ⟨_, rfl, fun h => ?_, fun n t h ht => ?_⟩
  · dsimp only
    rw [hcur, lonelyBar_of_none (by rw [hctx]; exact h), State.modCtx_cur, hcur', State.ctxAt_modCtx_self, hctx, h]
    rfl
  · have hfind : ((opened s).acquire s.cur 1).findTask n = some t := by
      rw [acquire_eq]
      exact ht
    have hid := findTask_id ht
    dsimp only
    have hpast := findTask_modTask (f := fun k => { k with bars := if (own s).grp = none then k.bars + 1 else k.bars }) (fun _ => rfl) hfind
    replace hpast : (State.modCtx (State.modTask _ n _) s.cur fun c => { c with passed := none }).findTask n = some _ := hpast
    rw [hcur, lonelyBar_of_task (by rw [hctx]; exact h), hctx, State.modCtx_cur, State.modTask_cur, hcur', State.ctxAt_modCtx_self,
      State.ctxAt_modTask, hctx, h, Option.bind_some, hpast]
    dsimp only
    rw [hid, modTask_modCtx, modTask_modTask _ (by intro k; rfl)]
    refine ⟨fun hg => by rw [hg]; rfl, fun g hg => ?_⟩
    rw [hg, State.modCtx_iss, State.modTask_iss, hiss]
    rfl

section
variable {s : State} {id : BitVec 12} {n : Nat} {t : Task} (h : Ready (.bar id) s)
include h

/-- A BAR of a context with no task only acquires and clears its mark. -/
theorem bar_without_task (hn : (own s).task = none) : Does (exec (.bar id) s) (s.acquire s.cur 1) pastBar := by
  obtain ⟨eff, hexec, heff, -⟩ := exec_bar id s
  rw [hexec]
  exact does_acquired h nofun (heff hn) rfl rfl

/-- A BAR of a task with no report pending. -/
theorem bar_passes (hn : (own s).task = some n) (ht : s.findTask n = some t) (hg : t.guard = none) :
    Does (exec (.bar id) s) ((s.acquire s.cur 1).modTask n (taskPastBar (own s))) pastBar := by
  obtain ⟨eff, hexec, -, heff⟩ := exec_bar id s
  obtain ⟨heff, -⟩ := heff n t hn ht
  have hiss : (pastBarState s n).iss = (opened s).iss := iss_acquired s 1 pastBar
  have hown : own ((s.acquire s.cur 1).modTask n (taskPastBar (own s))) = own s := own_acquire s s.cur 1
  rw [hexec]
  exact does_of h nofun (heff hg) (by rw [pastBarState_eq]) (ctxAt_acquired_ne s 1 pastBar) (by rw [hown]; exact ctxAt_acquired_self s 1 pastBar)
    (by rw [hiss]; rfl) (by rw [hiss]; rfl) (by rw [hown]; exact ready_drain_ne_rft h rfl)

/-- A BAR of a task with a report pending, which is taken at the bundle after it. -/
theorem bar_reports {g : Guard} (hn : (own s).task = some n) (ht : s.findTask n = some t) (hg : t.guard = some g) :
    ∃ u info, Does (.next u) ((s.acquire s.cur 1).modTask n (taskPastBar (own s))) pastBar ∧ exec (.bar id) s = takeTrap u s.cur
      { cause := .guardTouch, tpc := (u.ctxAt s.cur).pc, taddr := BitVec.ofNat 64 g.addr, tinfo := info, imprecise := true } := by
  obtain ⟨eff, hexec, -, heff⟩ := exec_bar id s
  obtain ⟨-, heff⟩ := heff n t hn ht
  have hown : own ((s.acquire s.cur 1).modTask n (taskPastBar (own s))) = own s := own_acquire s s.cur 1
  have hcur : ((s.acquire s.cur 1).modTask n (taskPastBar (own s))).cur = s.cur := cur_acquire s s.cur 1
  obtain ⟨u, htrap, honly, hctx⟩ :=
    traps_of (s' := (s.acquire s.cur 1).modTask n (taskPastBar (own s))) h nofun (heff g hg) (by rw [pastBarState_eq])
      (ctxAt_acquired_ne s 1 pastBar) (ctxAt_acquired_self s 1 pastBar) rfl rfl
  rw [hcur] at htrap
  exact ⟨u, _, ⟨u, rfl, honly, by rw [hown]; exact hctx⟩, hexec.trans htrap⟩

end

/-- Settles O15: BAR by the task of its context and the guard report of that task. -/
theorem barrier : Obligations.Barrier := by
  intro s id h
  exact ⟨bar_without_task h, fun n t hn ht => ⟨bar_passes h hn ht, fun g hg => bar_reports h hn ht hg⟩⟩

end Sys2Proof.Machine
end

section
/-! PROOFS. spec/04_scalar.md R135, spec/09_system.md R260: TEND and HALT, which end the issue of their context. -/

namespace Sys2Proof.Machine

open Sys2Proof.Safety

/-! A drain and the loop levels that it leaves. -/

/-- The context c with a drain of its bundle's slot begun, and loop levels l. -/
def draining (d : Drain) (slot len : Nat) (l : Vector Loop 4) (c : Ctx) : Ctx :=
  { c with drain := d, drainSlot := slot, drainLen := len, loops := l }

theorem aged_draining (d : Drain) (slot len : Nat) (l : Vector Loop 4) (c : Ctx) :
    aged (draining d slot len l c) = draining d slot len l (aged c) := by
  have h := aged_withSide c (draining d slot len l c)
  rw [show c.withSide (draining d slot len l c) = draining d slot len l c from rfl] at h
  rw [h, aged_side c]
  dsimp only [Ctx.withSide, draining]
  rw [aged_acc]

theorem loopEnd_of_inactive {pc : Word} {len : Nat} {c : Ctx} (h : ∀ k : Fin 4, c.loops[k].active = false) :
    ∀ l : List Nat, loopEnd pc len l c = (c, none)
  | [] => rfl
  | k :: t => by
    unfold loopEnd
    by_cases hk : k < 4
    · have hinactive : c.loops[k].active = false := h ⟨k, hk⟩
      rw [Vector.getElem?_eq_getElem hk]
      simp only [hinactive, Bool.false_and, Bool.false_eq_true, if_false]
      exact loopEnd_of_inactive h t
    · rw [Vector.getElem?_eq_none (Nat.le_of_not_lt hk)]

theorem goOn_loops_of_inactive {i : Iss} {left : Nat} {c : Ctx} (h : ∀ k : Fin 4, c.loops[k].active = false) : (goOn i left c).1.loops = c.loops := by
  unfold goOn
  split
  · rfl
  · split
    · rfl
    · split
      · rfl
      · rw [loopEnd_of_inactive h]

theorem closedCtx_loops_of_inactive {i : Iss} {c : Ctx} (h : ∀ k : Fin 4, c.loops[k].active = false) : (closedCtx i c).loops = c.loops := by
  have hl := (onlyRegs_closing i c).loops
  rw [closedCtx_loops, goOn_loops_of_inactive (by rw [hl]; exact h), hl]

theorem closedCtx_st {i : Iss} {c : Ctx} (hr : i.repLeft = none) :
    (closedCtx i c).st = if c.drain = .none ∨ c.drain = .halt then .selected else .stalled := by
  have hd : (goOn i 0 (aged c)).1.drain = c.drain := by
    rw [goOn_frame]
    exact aged_drain c
  unfold aged at hd
  unfold closedCtx
  simp only [hr, Option.isSome_none, Bool.false_eq_true, if_false, Option.getD_none, hd]
  simp

/-- The end of a bundle keeps levels that are all left. -/
theorem levelsKept_of_left {c u : Ctx} (h : u.loops = c.loops.map fun l => { l with active := false }) : LevelsKept c u := by
  intro k
  refine .inr (.inl ?_)
  rw [h]
  exact Vector.getElem_map _ k.isLt

/-- A ready slot that has its context drain, with the loop levels as they are or left. -/
theorem drains_of {i : Instr} {eff : State → Out} {s : State} {f : Ctx → Ctx} {d : Drain} {slot len : Nat} {l : Vector Loop 4} (h : Ready i s)
    (hw : ∀ a b wa wb sc k, i ≠ .waitc a b wa wb sc k) (he : eff (opened s) = .next ((opened s).modCtx s.cur f))
    (hf : f (own s) = draining d slot len l (own s))
    (hd : d = .tend ∧ l = (own s).loops.map (fun l => { l with active := false }) ∨ d = .halt ∧ l = (own s).loops) :
    Drains (issue i eff s) s d := by
  have hc : ((opened s).modCtx s.cur f).ctxAt s.cur = draining d slot len l (own s) := by
    rw [State.ctxAt_modCtx_self, ← hf]
    rfl
  have hdrain : d ≠ .rft := by rintro rfl; simp at hd
  obtain ⟨t, ht, hown, hctx⟩ := issue_closes h hw he rfl (fun k hk => State.ctxAt_modCtx_ne _ _ _ _ hk) hc rfl rfl hdrain
  change t.ctxAt s.cur = _ at hctx
  obtain ⟨hframe, hlevels⟩ : SameButIssue (aged (draining d slot len l (own s))) (t.ctxAt s.cur) := hctx ▸ closedCtx_frame rfl
  rw [aged_draining] at hframe hlevels
  have hslot : (t.ctxAt s.cur).drainSlot = slot := congrArg Ctx.drainSlot hframe
  have hlen : (t.ctxAt s.cur).drainLen = len := congrArg Ctx.drainLen hframe
  have hdr : (t.ctxAt s.cur).drain = d := congrArg Ctx.drain hframe
  have hst : (t.ctxAt s.cur).st = if d = .none ∨ d = .halt then .selected else .stalled := hctx ▸ closedCtx_st rfl
  have hsame : t.ctxAt s.cur = { draining d slot len (t.ctxAt s.cur).loops (aged (own s)) with
      pc := (t.ctxAt s.cur).pc, st := (t.ctxAt s.cur).st, repOn := (t.ctxAt s.cur).repOn, repNext := (t.ctxAt s.cur).repNext
      satisfied := (t.ctxAt s.cur).satisfied, arrived := (t.ctxAt s.cur).arrived, stepover := (t.ctxAt s.cur).stepover } := hframe
  have hleft : d = .tend → (t.ctxAt s.cur).loops = (own s).loops.map fun l => { l with active := false } := by
    rintro rfl
    obtain ⟨-, rfl⟩ : _ ∧ l = _ := hd.resolve_right nofun
    rw [hctx, closedCtx_loops_of_inactive fun k => congrArg Loop.active (Vector.getElem_map _ k.isLt)]
    rfl
  refine ⟨t, ht, hown, ?_, hdr, ?_, ?_⟩
  · rw [hst]
    rcases hd with ⟨rfl, -⟩ | ⟨rfl, -⟩ <;> rfl
  · intro htend k
    rw [hleft htend]
    exact congrArg Loop.active (Vector.getElem_map _ k.isLt)
  · rw [hslot, hlen]
    refine ⟨hsame, ?_⟩
    rcases hd with ⟨htend, -⟩ | ⟨-, rfl⟩
    · exact levelsKept_of_left ((hleft htend).trans (congrArg (Vector.map _) (aged_loops (own s)).symm))
    · rw [← aged_loops] at hlevels
      exact hlevels

/-- TEND has its context drain, with every loop level left. -/
theorem exec_tend (s : State) : ∃ eff, exec .tend s = issue .tend eff s ∧
    eff (opened s) = .next ((opened s).modCtx s.cur fun c => draining .tend 0 1 (c.loops.map fun l => { l with active := false }) c) := by
  show ∃ eff, execTend s = issue .tend eff s ∧ _
  exact ⟨_, rfl, rfl⟩

theorem tend_drains {s : State} (h : Ready .tend s) : Drains (exec .tend s) s .tend := by
  obtain ⟨eff, hexec, heff⟩ := exec_tend s
  rw [hexec]
  exact drains_of h nofun heff rfl (.inl ⟨rfl, rfl⟩)

theorem halt_drains {s : State} (h : Ready .sysHalt s) : Drains (exec .sysHalt s) s .halt :=
  drains_of (eff := onCtx fun c => { c with drain := .halt }) h nofun rfl rfl (.inr ⟨rfl, rfl⟩)

end Sys2Proof.Machine
end

section
/-! PROOFS. spec/20_traps.md R402: what trap entry keeps of the context; spec/09_system.md R257: TRAP. -/

namespace Sys2Proof.Machine

open Sys2Proof.Safety

/-! What a plain write and the end of an STV leave alone. -/

theorem onlyMemory_forgetAt (s : State) (n key : Nat) : OnlyMemory s (s.forgetAt n key) := by
  unfold State.forgetAt
  split <;> exact rfl

theorem onlyMemory_write (s : State) (n : Nat) (pc : Piece) (key : Nat) (en : BitVec 8) (val : Word) : OnlyMemory s (s.write n pc key en val) := by
  have h := (onlyMemory_beginSo s n pc).trans (onlyMemory_forgetAt _ n key)
  unfold State.write
  dsimp only
  split
  · exact h.trans rfl
  · split
    · exact h.trans ((onlyMemory_flushKey _ n key).trans rfl)
    · exact h.trans rfl
    · exact h.trans rfl

/-- u is c but for the registers that accesses fill, their marks, and the accesses. -/
def OnlyFilled (c u : Ctx) : Prop :=
  u = { c with x := u.x, v := u.v, fullX := u.fullX, fullV := u.fullV, poisonV := u.poisonV, acc := u.acc }

namespace OnlyFilled

theorem trans {c d u : Ctx} (h : OnlyFilled c d) (k : OnlyFilled d u) : OnlyFilled c u := by
  unfold OnlyFilled at *
  rw [k, h]

theorem foldl {α : Type} {f : Ctx → α → Ctx} (h : ∀ c a, OnlyFilled c (f c a)) : ∀ (l : List α) (c : Ctx), OnlyFilled c (l.foldl f c)
  | [], _ => rfl
  | a :: l, c => (h c a).trans (foldl h l (f c a))

theorem cr {c u : Ctx} (h : OnlyFilled c u) : u.cr = c.cr := by rw [h]
theorem pc {c u : Ctx} (h : OnlyFilled c u) : u.pc = c.pc := by rw [h]
theorem frames {c u : Ctx} (h : OnlyFilled c u) : u.frames = c.frames := by rw [h]

end OnlyFilled

theorem onlyFilled_withAcc {s t : State} {n : Nat} (l : List Access) (h : OnlyMemory s t) : OnlyFilled (s.ctxAt n) { t.ctxAt n with acc := l } := by
  have hctx : t.ctxAt n = s.ctxAt n := by rw [State.ctxAt, h.ctxs]; rfl
  rw [hctx]
  rfl

theorem onlyFilled_finishStv (s : State) (n : Nat) (a : Access) : OnlyFilled (s.ctxAt n) ((s.finishStv n a).ctxAt n) := by
  unfold State.finishStv
  split
  · split
    · rfl
    · dsimp only
      rw [State.ctxAt_modCtx_self]
      refine onlyFilled_withAcc _ (OnlyMemory.foldl_fst (fun p i => ?_) (upTo 256) (s, a.todo))
      split
      · exact onlyMemory_write _ _ _ _ _ _
      · exact .refl _
  · rfl

theorem onlyFilled_finishStvs (n : Nat) : ∀ (l : List Access) (s : State), OnlyFilled (s.ctxAt n) ((s.finishStvs n l).ctxAt n)
  | [], _ => rfl
  | a :: l, s => (onlyFilled_finishStv s n a).trans (onlyFilled_finishStvs n l (s.finishStv n a))

theorem onlyFilled_markX (c : Ctx) (r : Reg) (b : Bool) : OnlyFilled c (c.markX r b) := by
  unfold Ctx.markX
  split <;> rfl

theorem onlyFilled_setX (c : Ctx) (r : Reg) (v : Word) : OnlyFilled c (c.setX r v) := by
  unfold Ctx.setX
  split <;> rfl

theorem onlyFilled_fillAccess (c : Ctx) (a : Access) (v : Word) : OnlyFilled c (c.fillAccess a v) := by
  unfold Ctx.fillAccess
  split
  · rfl
  · split
    · exact (onlyFilled_setX _ _ _).trans (onlyFilled_markX _ _ _)
    · rfl

theorem onlyFilled_fillAll (c : Ctx) : OnlyFilled c c.fillAll := by
  refine .foldl (fun c a => ?_) _ _
  unfold Ctx.fillGot
  split
  · exact onlyFilled_fillAccess _ _ _
  · rfl

theorem onlyFilled_emptyRows (c : Ctx) (rows : List Nat) : OnlyFilled c (c.emptyRows rows) :=
  .foldl (fun c r => show OnlyFilled c (c.markV (BitVec.ofNat 6 r) false) from rfl) rows c

/-! Trap entry (R402). -/

theorem ctxAt_forget (s : State) (n k : Nat) : (s.forget n).ctxAt k = s.ctxAt k := by
  unfold State.forget
  split <;> rfl

theorem regs_tpc (t : TrapInfo) (replay : Bool) (cr : Vector Word 24) : (t.regs replay cr)[5] = t.tpc := by
  unfold TrapInfo.regs
  simp only [Vector.getElem_set]
  simp

/-- A trap with a frame to write goes on at TVEC, with its bundle's address in TPC, one frame further. -/
theorem takeTrap_enters {s : State} {n : Nat} (t : TrapInfo) (h : s.noFrame n = false) : ∃ u, takeTrap s n t = .next u ∧
    (u.ctxAt n).pc = (s.ctxAt n).cr[1] &&& 0x01FFFFFFFFFFFFFC#64 ∧ (u.ctxAt n).cr[5] = t.tpc ∧ (u.ctxAt n).frames = (s.ctxAt n).frames + 1 := by
  generalize hw : ((s.finishStvs n (s.ctxAt n).acc).forget n).withdraw n = w
  have hctx : w.ctxAt n = (s.finishStvs n (s.ctxAt n).acc).ctxAt n := by
    rw [← hw]
    exact ctxAt_forget _ _ _
  have hfill : OnlyFilled (s.ctxAt n) (w.ctxAt n).fillAll := by
    rw [hctx]
    exact (onlyFilled_finishStvs n (s.ctxAt n).acc s).trans (onlyFilled_fillAll _)
  have henter := onlyFilled_emptyRows ((w.ctxAt n).fillAll.enterHandler t) (w.rowsOwed n)
  refine ⟨_, by rw [takeTrap, if_neg (Bool.eq_false_iff.mp h)], ?_⟩
  rw [hw, State.ctxAt_setCtx_self, henter.pc, henter.cr, henter.frames]
  refine ⟨?_, regs_tpc t _ _, ?_⟩
  · rw [← hfill.cr]
    rfl
  · rw [← hfill.frames]
    rfl

/-! TRAP. -/

theorem lateFault_trap (s : State) (n : BitVec 12) : lateFault s s.cur (own s).pc 1 0 [.trap n] =
    some { cause := .trap, tpc := (own s).pc, tinfo := issueInfo 0 1 (opOf (.trap n)) 0, code := n.toNat, stepover := true } := by
  have hstep : step6 (s.ctxAt s.cur) (.trap n) = none := by simp [step6, uses]
  have hslot : slotFault s s.cur (.trap n) = some (.trap, 0) := rfl
  simp [lateFault, hstep, hslot, issueTrap]

theorem issueInfo_first_bits (op : Nat) (h : op < 128) : (issueInfo 0 1 op 0).bits 0 3 = 0 ∧ (issueInfo 0 1 op 0).bits 3 3 = 0 := by
  have hnat : (issueInfo 0 1 op 0).toNat = op * 64 := by
    rw [issueInfo, wordOfNat, BitVec.toNat_ofNat, Nat.shiftLeft_eq, Nat.shiftLeft_eq, Nat.shiftLeft_eq]
    omega
  simp only [BitVec.bits, hnat, Nat.shiftRight_eq_div_pow]
  omega

/-- A TRAP that nothing comes before is taken at its bundle. -/
theorem trap_taken {s : State} {n : BitVec 12} (hopen : s.iss.isOpen = false)
    (hstatic : staticFault (own s).kernel (isSeq s.cur) none [some (.trap n)] = none) (hst : stalls s s.cur [.trap n] 0 = false) :
    exec (.trap n) s = takeTrap s s.cur
      { cause := .trap, tpc := (own s).pc, tinfo := issueInfo 0 1 (opOf (.trap n)) 0, code := n.toNat, stepover := true } :=
  issue_late (pureEff fun s => s) hopen hstatic hst (pathFull_of_not_replays rfl rfl) (lateFault_trap s n) nofun

/-- Settles O16: TEND and HALT drain, TRAP is taken. -/
theorem taskEndsAndTraps : Obligations.TaskEndsAndTraps := by
  intro s
  refine ⟨tend_drains, halt_drains, fun n hopen hstatic hst => ?_⟩
  have htaken := trap_taken hopen hstatic hst
  obtain ⟨hslot, hlen⟩ := issueInfo_first_bits _ (opOf_lt (.trap n))
  refine ⟨_, hslot, hlen, htaken, fun hframes hwindow hon hinst => ?_⟩
  have hframe : s.noFrame s.cur = false := by
    unfold State.noFrame
    unfold own at hframes hwindow hinst
    simp [hframes, hwindow, hon, hinst]
  obtain ⟨u, hu, hpc, htpc, hf⟩ := takeTrap_enters _ hframe
  exact ⟨u, htaken.trans hu, hpc, htpc, hf⟩

end Sys2Proof.Machine
end

section
/-! PROOFS. spec/16_scheduling.md R343 to R350: what the front ends leave alone as they report on their shares;
spec/09_system.md R260: the drain of HALT. -/

namespace Sys2Proof.Machine

open Sys2Proof.Safety

/-! Tables by core. -/

/-- What holds of each entry of a table and of the entry it is changed to holds of what is read there. -/
theorem mapGet_map_rel {α : Type} {R : α → α → Prop} {d : α} {g : Nat × α → Nat × α} (hd : R d d) (hkey : ∀ p, (g p).1 = p.1)
    (hval : ∀ p, R p.2 (g p).2) : ∀ (l : List (Nat × α)) (k : Nat), R (mapGet d l k) (mapGet d (l.map g) k)
  | [], _ => hd
  | p :: t, k => by
    obtain ⟨n, v⟩ := p
    have hn : (g (n, v)).1 = n := hkey (n, v)
    have hv : R v (g (n, v)).2 := hval (n, v)
    have hrest := mapGet_map_rel hd hkey hval t k
    rw [List.map_cons, show g (n, v) = (n, (g (n, v)).2) from Prod.ext hn rfl]
    unfold mapGet
    split_ifs
    · exact hv
    · exact hd
    · exact hrest

/-- What is read of a table is one of its entries, or the default. -/
theorem mapGet_mem {α : Type} (d : α) : ∀ (l : List (Nat × α)) (k : Nat), (k, mapGet d l k) ∈ l ∨ mapGet d l k = d
  | [], _ => .inr rfl
  | (n, v) :: t, k => by
    unfold mapGet
    split_ifs with hk
    · exact .inl (hk ▸ List.mem_cons_self)
    · exact .inr rfl
    · exact (mapGet_mem d t k).imp_left (List.mem_cons_of_mem _)

/-- The region table of every core is as it was. -/
def SameRegions (s t : State) : Prop := ∀ k, (t.coreAt k).regions = (s.coreAt k).regions

theorem SameRegions.of_cores {s t : State} (h : t.cores = s.cores) : SameRegions s t := fun k => by rw [State.coreAt, h]; rfl

theorem SameRegions.trans {s t u : State} (h : SameRegions s t) (k : SameRegions t u) : SameRegions s u := fun i => (k i).trans (h i)

theorem sameRegions_modCore {s : State} {n : Nat} {f : CoreSt → CoreSt} (h : (f (s.coreAt n)).regions = (s.coreAt n).regions) :
    SameRegions s (s.modCore n f) := by
  intro k
  by_cases hk : k = n
  · rw [hk, State.coreAt_modCore_self]
    exact h
  · rw [State.modCore, State.coreAt_setCore_ne _ _ _ _ hk]

/-! The front end. -/

/-- t is s but for packets, shares, tasks and cores. -/
def OnlyFront (s t : State) : Prop := t = { s with fab := t.fab, shares := t.shares, tasks := t.tasks, cores := t.cores }

theorem OnlyFront.trans {s t u : State} (h : OnlyFront s t) (k : OnlyFront t u) : OnlyFront s u := by
  unfold OnlyFront at *
  rw [k, h]

theorem OnlyFront.ctxs {s t : State} (h : OnlyFront s t) : t.ctxs = s.ctxs := by rw [h]
theorem OnlyFront.jobs {s t : State} (h : OnlyFront s t) : t.jobs = s.jobs := by rw [h]
theorem OnlyFront.mem {s t : State} (h : OnlyFront s t) : t.mem = s.mem := by rw [h]

/-- A front end's work changes packets and shares, gives up kept tiles, and drops tasks. -/
def FrontWork (s t : State) : Prop := OnlyFront s t ∧ t.tasks ⊆ s.tasks ∧ SameRegions s t

theorem FrontWork.refl (s : State) : FrontWork s s := ⟨rfl, fun _ h => h, fun _ => rfl⟩

theorem FrontWork.trans {s t u : State} (h : FrontWork s t) (k : FrontWork t u) : FrontWork s u := by
  obtain ⟨h1, h2, h3⟩ := h
  obtain ⟨k1, k2, k3⟩ := k
  exact ⟨h1.trans k1, fun _ m => h2 (k2 m), h3.trans k3⟩

theorem frontWork_putShare (s : State) (h : Share) : FrontWork s (s.putShare h) := ⟨rfl, fun _ h => h, fun _ => rfl⟩

theorem frontWork_tellOrigin (s : State) (die : Nat) (k : LaunchKey) (c : Ctl) : FrontWork s (s.tellOrigin die k c) :=
  ⟨rfl, fun _ h => h, fun _ => rfl⟩

theorem frontWork_endKept (s : State) (k : LaunchKey) : FrontWork s (s.endKept k) := by
  unfold State.endKept
  split
  · exact .refl s
  · refine ⟨rfl, fun _ h => h, fun i => ?_⟩
    refine Eq.symm (mapGet_map_rel (R := fun x y : CoreSt => x.regions = y.regions) rfl (fun p => ?_) (fun p => ?_) s.cores i)
    · split <;> rfl
    · split <;> rfl

/-- A share whose phase is over goes, with its last phase, or waits for the next one. -/
theorem frontWork_shareEnd (s : State) (h : Share) (b : Bool) : FrontWork s (bif b then
      { (s.dropShares fun g => g.id = h.id).endKept h.key with tasks := s.tasks.filter (·.share != h.id) }
    else s.putShare { h with st := .idle }) := by
  cases b with
  | false => exact frontWork_putShare _ _
  | true =>
    obtain ⟨hframe, -, hregions⟩ := frontWork_endKept (s.dropShares fun g => g.id = h.id) h.key
    exact ⟨OnlyFront.trans (t := s.dropShares fun g => g.id = h.id) rfl (hframe.trans rfl), List.filter_subset_self _, hregions⟩

/-- A front end's work on one share: the first failure is told, and the end of the phase. -/
theorem frontWork_frontEndShare (s : State) (h : Share) : FrontWork s (s.frontEndShare h) := by
  have hover : ∀ (u : State) (g : Share), FrontWork s u → FrontWork s (if !u.shareOver g then u else
      let v := u.tellOrigin g.die g.key (.report g.key g.jd g.die g.phase g.failed)
      if g.failed.isSome || g.hdr.nphase ≤ g.phase + 1 then
        { (v.dropShares fun q => q.id = g.id).endKept g.key with tasks := v.tasks.filter (·.share != g.id) }
      else v.putShare { g with st := .idle }) := by
    intro u g hu
    split
    · exact hu
    · have hend := frontWork_shareEnd (u.tellOrigin g.die g.key (.report g.key g.jd g.die g.phase g.failed)) g
        (g.failed.isSome || g.hdr.nphase ≤ g.phase + 1)
      rw [Bool.cond_eq_ite] at hend
      exact (hu.trans (frontWork_tellOrigin u _ _ _)).trans hend
  unfold State.frontEndShare
  split
  next u g hr =>
    refine hover u g ?_
    split at hr
    · split at hr
      · cases hr
        exact .refl s
      · cases hr
        exact (frontWork_putShare s _).trans (frontWork_tellOrigin _ _ _ _)
    · cases hr
      exact .refl s

theorem frontWork_frontEnd (s : State) : FrontWork s s.frontEnd := by
  unfold State.frontEnd
  generalize s.shares = l
  induction l generalizing s with
  | nil => exact .refl s
  | cons h l ih =>
    rw [List.foldl_cons]
    refine .trans ?_ (ih _)
    split
    · exact frontWork_frontEndShare _ _
    · exact .refl s

theorem onlyFront_failTask (s : State) (id : Nat) (ts : TaskSt) (st : BitVec 8) : OnlyFront s (s.failTask id ts st) := by
  unfold State.failTask
  split <;> rfl

theorem onlyFront_failCtx (s : State) (n : Nat) (ts : TaskSt) : OnlyFront s (s.failCtx n ts) := by
  unfold State.failCtx
  split
  · exact onlyFront_failTask _ _ _ _
  · rfl

theorem onlyFront_deselect (s : State) (n : Nat) : OnlyFront s (s.deselect n) := by
  unfold State.deselect
  split <;> rfl

/-- Without job control no cut or switch of the job is under way. -/
theorem gangTidy_of_no_jobs {s : State} (h : s.jobs = []) (j : Nat) : s.gangTidy j = s := by
  have hst : ∀ d, (s.jobCtl j).stOf d = 0 := by
    intro d
    rw [State.jobCtl, h, JobCtl.stOf]
    split <;> rfl
  have hagain : ∀ d, s.saveAgain j d = s := fun d => by
    unfold State.saveAgain
    rw [hst]
    rfl
  unfold State.gangTidy
  simp [hagain, hst]

theorem drained_of {s : State} {n : Nat} {d : Drain} (h : DrainedAt s n d) : s.drained n = true := by
  obtain ⟨-, -, hacc, hx, hv, hcmds⟩ := h
  have hnone : s.cmds.any (fun m => m.agent = n && m.kind = .slot) = false := by
    rw [List.any_eq_false]
    intro m hm
    simpa using hcmds m hm
  unfold State.drained
  simp [hacc, hx, hv, hnone]

/-! HALT. -/

/-- A drained HALT leaves its context halted; its core, its task and its launch hear of it. -/
theorem haltDrained_spec {s : State} {n : Nat} (h : DrainedAt s n .halt) :
    OnlyFront (s.modCtx n fun c => { c.landAll with st := .halted, drain := .none }) (s.haltDrained n) := by
  have hdrained := drained_of h
  obtain ⟨hst, hdrain, -⟩ := h
  unfold State.haltDrained
  simp only [hdrain, hdrained, if_true] at hst ⊢
  rw [hst]
  exact (onlyFront_deselect _ n).trans ((onlyFront_failCtx _ n .halted).trans (frontWork_frontEnd _).1)

theorem ctxAt_of_onlyFront {s t : State} (h : OnlyFront s t) (k : Nat) : t.ctxAt k = s.ctxAt k := by rw [State.ctxAt, h.ctxs]; rfl

/-- A halted context keeps what has landed, and no other context and no memory changes (R260). -/
theorem haltDrainEnd_gives {s : State} {ag : Agent} {n : Nat} {c : Ctx} (hn : agentNum ag = n) (hc : s.ctxAt n = c) (h : DrainedAt s n .halt)
    (hj : s.jobs = []) : Gives (exec (.haltDrainEnd ag) s) fun u =>
      u.ctxAt n = { c.landAll with st := .halted, drain := .none } ∧ (∀ k, k ≠ n → u.ctxAt k = s.ctxAt k) ∧ u.mem = s.mem := by
  have hspec := haltDrained_spec h
  refine ⟨s.haltDrained n, ?_, ?_, fun k hk => ?_, hspec.mem⟩
  · show Host.Outcome.next ((s.haltDrained (agentNum ag)).gangTidy _) = _
    rw [hn, gangTidy_of_no_jobs (hspec.jobs.trans hj)]
  · rw [ctxAt_of_onlyFront hspec, State.ctxAt_modCtx_self, hc]
  · rw [ctxAt_of_onlyFront hspec, State.ctxAt_modCtx_ne _ _ _ _ hk]

end Sys2Proof.Machine
end

section
/-! PROOFS. spec/01_machine.md R12, spec/04_scalar.md R135, spec/07_memory_instr.md R208: the commit of a task. -/

namespace Sys2Proof.Machine

open Sys2Proof.Safety

/-! What a task leaves in its slice. -/

theorem onlyMemory_keepTiles (s : State) (t : Task) : OnlyMemory s (s.keepTiles t) := by
  unfold State.keepTiles
  split
  · exact .refl s
  · split
    · exact .refl s
    · refine .foldl (fun u x => ?_) _ s
      exact rfl

/-- The regions of a task leave the table of every core. -/
theorem regions_dropRegions (s : State) (id k : Nat) :
    ((s.dropRegions id).coreAt k).regions = (s.coreAt k).regions.filter (·.owner != id) := by
  refine mapGet_map_rel (R := fun x y : CoreSt => y.regions = x.regions.filter (·.owner != id)) rfl (fun p => ?_) (fun p => ?_) s.cores k
  · split <;> rfl
  · split
    · rfl
    · next h =>
      refine (List.filter_eq_self.mpr fun r hr => ?_).symm
      rw [bne_iff_ne]
      intro howner
      exact h (List.any_eq_true.mpr ⟨r, hr, decide_eq_true howner⟩)

theorem leaveVerify_spec (s : State) (core : Nat) : OnlyMemory s (s.leaveVerify core) ∧ (s.leaveVerify core).tasks = s.tasks ∧
    SameRegions s (s.leaveVerify core) := by
  unfold State.leaveVerify
  split
  · exact ⟨.refl s, rfl, fun _ => rfl⟩
  · split
    · exact ⟨rfl, rfl, sameRegions_modCore rfl⟩
    · exact ⟨.refl s, rfl, fun _ => rfl⟩

/-- A context that is freed is Free with no task; no other context, no task and no region changes. -/
theorem freeCtx_spec (s : State) (n : Nat) : (s.freeCtx n).ctxAt n = (s.ctxAt n).freed ∧ (∀ k, k ≠ n → (s.freeCtx n).ctxAt k = s.ctxAt k) ∧
    (s.freeCtx n).tasks = s.tasks ∧ (s.freeCtx n).jobs = s.jobs ∧ SameRegions s (s.freeCtx n) := by
  have hctx : ∀ (u : State) k, (u.deselect n).ctxAt k = u.ctxAt k := fun u k => by
    unfold State.deselect
    split <;> rfl
  have hrest : ∀ u : State, (u.deselect n).tasks = u.tasks ∧ (u.deselect n).jobs = u.jobs ∧ SameRegions u (u.deselect n) := fun u => by
    unfold State.deselect
    split
    · exact ⟨rfl, rfl, fun _ => rfl⟩
    · refine ⟨rfl, rfl, sameRegions_modCore ?_⟩
      split <;> rfl
  have hforget : (s.forget n).tasks = s.tasks ∧ (s.forget n).jobs = s.jobs ∧ SameRegions s (s.forget n) := by
    unfold State.forget
    split <;> exact ⟨rfl, rfl, fun _ => rfl⟩
  obtain ⟨htasks, hjobs, hregions⟩ := hrest ((s.forget n).modCtx n Ctx.freed)
  obtain ⟨ftasks, fjobs, fregions⟩ := hforget
  unfold State.freeCtx
  refine ⟨?_, fun k hk => ?_, htasks.trans ftasks, hjobs.trans fjobs, fregions.trans hregions⟩
  · rw [hctx, State.ctxAt_modCtx_self, ctxAt_forget]
  · rw [hctx, State.ctxAt_modCtx_ne _ _ _ _ hk, ctxAt_forget]

/-! The commit. -/

/-- The state as a committed task's writes are released, its regions dropped and its end noted, before its context is freed. -/
def State.committed (s : State) (n : Nat) (t : Task) : State :=
  { ((s.flushTo n .sys).keepTiles t).dropRegions t.id with
    tasks := (((s.flushTo n .sys).keepTiles t).dropRegions t.id).tasks.filter (·.id != t.id)
    shares := (((s.flushTo n .sys).keepTiles t).dropRegions t.id).shares.map fun (h : Share) =>
      if h.id = t.share then { h with done := h.done ++ [t.index] } else h }

theorem commitTask_eq (s : State) (n : Nat) (t : Task) :
    s.commitTask n t = (((s.committed n t).freeCtx n).leaveVerify (coreOf n)).frontEnd := rfl

theorem committed_spec (s : State) (n : Nat) (t : Task) : (s.committed n t).ctxs = s.ctxs ∧ (s.committed n t).jobs = s.jobs ∧
    (∀ q, q ∈ (s.committed n t).tasks → q.id ≠ t.id) ∧ ∀ k r, r ∈ ((s.committed n t).coreAt k).regions → r.owner ≠ t.id := by
  have h : OnlyMemory s (((s.flushTo n .sys).keepTiles t).dropRegions t.id) :=
    (onlyMemory_flushTo s n .sys).trans ((onlyMemory_keepTiles _ t).trans rfl)
  refine ⟨h.ctxs, ?_, fun q hq => ?_, fun k r hr => ?_⟩
  · show (((s.flushTo n .sys).keepTiles t).dropRegions t.id).jobs = s.jobs
    rw [h]
  · obtain ⟨-, hne⟩ := List.mem_filter.mp hq
    exact bne_iff_ne.mp hne
  · have hr : r ∈ ((((s.flushTo n .sys).keepTiles t).dropRegions t.id).coreAt k).regions := hr
    rw [regions_dropRegions] at hr
    obtain ⟨-, hne⟩ := List.mem_filter.mp hr
    exact bne_iff_ne.mp hne

/-- A committed task leaves its context, which is Free, and its regions; no other context changes. -/
theorem commitTask_spec (s : State) (n : Nat) (t : Task) : (s.commitTask n t).ctxAt n = (s.ctxAt n).freed ∧
    (∀ k, k ≠ n → (s.commitTask n t).ctxAt k = s.ctxAt k) ∧ (s.commitTask n t).jobs = s.jobs ∧
    (∀ q, q ∈ (s.commitTask n t).tasks → q.id ≠ t.id) ∧ ∀ k r, r ∈ ((s.commitTask n t).coreAt k).regions → r.owner ≠ t.id := by
  obtain ⟨cctxs, cjobs, ctasks, cregions⟩ := committed_spec s n t
  obtain ⟨fctx, fother, ftasks, fjobs, fregions⟩ := freeCtx_spec (s.committed n t) n
  obtain ⟨vonly, vtasks, vregions⟩ := leaveVerify_spec ((s.committed n t).freeCtx n) (coreOf n)
  obtain ⟨wonly, wtasks, wregions⟩ := frontWork_frontEnd (((s.committed n t).freeCtx n).leaveVerify (coreOf n))
  have hcommitted : ∀ k, (s.committed n t).ctxAt k = s.ctxAt k := fun k => by rw [State.ctxAt, cctxs]; rfl
  have hctx : ∀ k, (s.commitTask n t).ctxAt k = ((s.committed n t).freeCtx n).ctxAt k := fun k => by
    rw [commitTask_eq, ctxAt_of_onlyFront wonly, State.ctxAt, vonly.ctxs]
    rfl
  refine ⟨?_, fun k hk => ?_, ?_, fun q hq => ?_, fun k r hr => ?_⟩
  · rw [hctx, fctx, hcommitted]
  · rw [hctx, fother k hk, hcommitted]
  · rw [commitTask_eq, wonly.jobs, vonly]
    exact fjobs.trans cjobs
  · have := wtasks hq
    rw [vtasks, ftasks] at this
    exact ctasks q this
  · have hsame := fregions.trans (vregions.trans wregions) k
    rw [commitTask_eq, hsame] at hr
    exact cregions k r hr

/-- With no writeback of its task on its way a context whose TEND has drained commits. -/
theorem commit_of_no_writebacks {s : State} {n id : Nat} {t : Task} (hst : (s.ctxAt n).st = .stalled) (hdrain : (s.ctxAt n).drain = .tend)
    (hsat : (s.ctxAt n).satisfied = true) (htask : (s.ctxAt n).task = some id) (ht : s.findTask id = some t)
    (hcmds : ∀ e k b, e ∈ s.cmds → e.kind ≠ .writeback t.id k b) : s.commit n = s.commitTask n t := by
  have hnone : s.writebacksOf t.id = [] := by
    unfold State.writebacksOf
    refine List.filter_eq_nil_iff.mpr fun e he => ?_
    split
    · next task k b hk =>
      rw [decide_eq_true_eq]
      rintro rfl
      exact hcmds e k b he hk
    · nofun
  unfold State.commit
  simp [hst, hdrain, hsat, htask, ht, hnone]

theorem taskCommit_gives {s : State} {ag : Agent} {n : Nat} {c : Ctx} {id : Nat} {t : Task} (hn : agentNum ag = n) (hc : s.ctxAt n = c)
    (hst : c.st = .stalled) (hdrain : c.drain = .tend) (hsat : c.satisfied = true) (htask : c.task = some id)
    (ht : s.findTask id = some t) (hj : s.jobs = []) (hcmds : ∀ e k b, e ∈ s.cmds → e.kind ≠ .writeback t.id k b) :
    Gives (exec (.taskCommit ag) s) fun u => (u.ctxAt n).st = .free ∧ (u.ctxAt n).task = none ∧ (∀ k, k ≠ n → u.ctxAt k = s.ctxAt k) ∧
      (∀ q, q ∈ u.tasks → q.id ≠ t.id) ∧ ∀ k r, r ∈ (u.coreAt k).regions → r.owner ≠ t.id := by
  subst hc
  obtain ⟨hctx, hother, hjobs, htasks, hregions⟩ := commitTask_spec s n t
  refine ⟨s.commitTask n t, ?_, by rw [hctx]; rfl, by rw [hctx]; rfl, hother, htasks, hregions⟩
  show Host.Outcome.next ((s.commit (agentNum ag)).gangTidy _) = _
  rw [hn, commit_of_no_writebacks hst hdrain hsat htask ht hcmds, gangTidy_of_no_jobs (hjobs.trans hj)]

end Sys2Proof.Machine
end

section
/-! PROOFS. spec/04_scalar.md R130, R131, spec/14_ordering.md R316, R324: the release of a barrier. -/

namespace Sys2Proof.Machine

open Sys2Proof.Safety

/-! Writes shown to a group. -/

/-- Every write pending in t was pending in s, and its group has seen it if it had; no task changes. -/
def Shown (s t : State) : Prop :=
  t.tasks = s.tasks ∧ ∀ w ∈ t.pw, ∃ p ∈ s.pw, p.owner = w.owner ∧ (p.grpSeen = true → w.grpSeen = true)

namespace Shown

theorem of_pw {s t : State} (ht : t.tasks = s.tasks) (hp : t.pw ⊆ s.pw) : Shown s t := ⟨ht, fun w hw => ⟨w, hp hw, rfl, id⟩⟩

theorem refl (s : State) : Shown s s := of_pw rfl fun _ h => h

theorem trans {s t u : State} (h : Shown s t) (k : Shown t u) : Shown s u := by
  obtain ⟨ht, hp⟩ := h
  obtain ⟨kt, kp⟩ := k
  refine ⟨kt.trans ht, fun w hw => ?_⟩
  obtain ⟨p, hpm, hpo, hps⟩ := kp w hw
  obtain ⟨q, hqm, hqo, hqs⟩ := hp p hpm
  exact ⟨q, hqm, hqo.trans hpo, fun h => hps (hqs h)⟩

theorem foldl {α : Type} {f : State → α → State} (h : ∀ s a, Shown s (f s a)) : ∀ (l : List α) (s : State), Shown s (l.foldl f s)
  | [], s => refl s
  | a :: l, s => (h s a).trans (foldl h l (f s a))

end Shown

theorem tasks_commitOne (s : State) (p : PWrite) (rest : List PWrite) : (s.commitOne p rest).tasks = s.tasks := by
  unfold State.commitOne State.markDirty
  dsimp only
  split <;> rfl

theorem shown_commitFrom (f : PWrite → List PWrite → Bool) : ∀ (l : List PWrite) (s : State), Shown s (State.commitFrom f l s)
  | [], s => .refl s
  | p :: rest, s => by
    unfold State.commitFrom
    split
    · exact (Shown.of_pw (tasks_commitOne s p _) List.erase_subset).trans (shown_commitFrom f rest _)
    · exact shown_commitFrom f rest s

theorem shown_observe (s : State) (i a : Nat) : Shown s (s.observe i a) := by
  unfold State.observe
  split
  · exact .refl s
  · next p hp =>
    dsimp only
    split
    · exact .refl s
    · refine ⟨rfl, fun w hw => ?_⟩
      rcases List.mem_or_eq_of_mem_set hw with hw | rfl
      · exact ⟨w, hw, rfl, id⟩
      · exact ⟨p, List.mem_of_getElem? hp, rfl, id⟩

/-- The writes of an agent are marked as seen by its group, and what others have read ahead of them is noted. -/
theorem shown_mark {s u t : State} (n : Nat) (l : List PWrite) (h : Shown s u)
    (ht : l.foldl (fun s p => if p.owner = n && !p.grpSeen then { s with early := s.noteFor n p.key fun a => s.grpOf a = s.grpOf n } else s)
      { u with pw := u.pw.map fun p => if p.owner = n then { p with grpSeen := true } else p } = t) :
    Shown s t ∧ ∀ w ∈ t.pw, w.owner = n → w.grpSeen = true := by
  have hmark : t.pw = (u.pw.map fun p => if p.owner = n then { p with grpSeen := true } else p) ∧ t.tasks = u.tasks := by
    rw [← ht]
    refine List.foldlRecOn l _ (motive := fun v : State =>
      v.pw = (u.pw.map fun p => if p.owner = n then { p with grpSeen := true } else p) ∧ v.tasks = u.tasks) ⟨rfl, rfl⟩ fun v hv p _ => ?_
    split <;> exact hv
  obtain ⟨hpw, htasks⟩ := hmark
  refine ⟨h.trans ⟨htasks, fun w hw => ?_⟩, fun w hw howner => ?_⟩
  · obtain ⟨p, hp, rfl⟩ := List.mem_map.mp (hpw ▸ hw)
    refine ⟨p, hp, ?_⟩
    split
    · exact ⟨rfl, fun _ => rfl⟩
    · exact ⟨rfl, id⟩
  · obtain ⟨p, -, rfl⟩ := List.mem_map.mp (hpw ▸ hw)
    by_cases hp : p.owner = n
    · rw [if_pos hp]
    · rw [if_neg hp] at howner
      contradiction

/-- What an agent has made known to its group: its pending writes are seen there. -/
theorem showGroup_spec (s : State) (n : Nat) : Shown s (s.showGroup n) ∧ ∀ w ∈ (s.showGroup n).pw, w.owner = n → w.grpSeen = true := by
  refine shown_mark n _ ?_ rfl
  refine .trans (t := { s with rw := replicaShown (dieOf n) (fun r => r.owner = n) s.rw }) (.of_pw rfl fun _ h => h)
    ((shown_commitFrom _ _ _).trans (.foldl (fun u i => ?_) _ _))
  split
  · split
    · exact .foldl (fun v a => shown_observe v i a) _ _
    · exact .refl u
  · exact .refl u

theorem passOn_early (s : State) (n sc : Nat) : (s.passOn n sc).pw = s.pw ∧ (s.passOn n sc).tasks = s.tasks := by
  unfold State.passOn
  split <;> exact ⟨rfl, rfl⟩

theorem flushTo_grp_spec (s : State) (n : Nat) : Shown s (s.flushTo n .grp) ∧ ∀ w ∈ (s.flushTo n .grp).pw, w.owner = n → w.grpSeen = true := by
  obtain ⟨hshown, hseen⟩ := showGroup_spec s n
  obtain ⟨hpw, htasks⟩ := passOn_early (s.showGroup n) n 1
  refine ⟨hshown.trans (.of_pw htasks (hpw ▸ fun _ h => h)), fun w hw => hseen w (hpw ▸ hw)⟩

/-! The contexts that a barrier lets go on. -/

/-- A context that a barrier lets go on. -/
def letGo (c : Ctx) : Ctx := { c with passed := some c.pc, arrived := false, st := if c.st = .stalled then .ready else c.st }

theorem letGo_letGo (c : Ctx) : letGo (letGo c) = letGo c := by
  have hst : ∀ x : CtxSt, (if (if x = .stalled then .ready else x) = CtxSt.stalled then CtxSt.ready else (if x = .stalled then .ready else x)) =
      if x = .stalled then .ready else x := by
    intro x
    cases x <;> rfl
  unfold letGo
  rw [hst]

/-- The release of the contexts in l. -/
def State.letGoAll (s : State) (l : List Nat) : State := l.foldl (fun s n => (s.flushTo n .grp).modCtx n letGo) s

theorem letGo_step (s : State) (n : Nat) : OnlyMemory s (s.flushTo n .grp) ∧
    (∀ k, ((s.flushTo n .grp).modCtx n letGo).ctxAt k = if k = n then letGo (s.ctxAt k) else s.ctxAt k) := by
  have h := onlyMemory_flushTo s n .grp
  have hctx : ∀ k, (s.flushTo n .grp).ctxAt k = s.ctxAt k := fun k => by rw [State.ctxAt, h.ctxs]; rfl
  refine ⟨h, fun k => ?_⟩
  split
  · next hk => rw [hk, State.ctxAt_modCtx_self, hctx]
  · next hk => rw [State.ctxAt_modCtx_ne _ _ _ _ hk, hctx]

theorem letGoAll_bars : ∀ (l : List Nat) (s : State), (s.letGoAll l).bars = s.bars
  | [], _ => rfl
  | n :: l, s => by
    obtain ⟨h, -⟩ := letGo_step s n
    refine (letGoAll_bars l ((s.flushTo n .grp).modCtx n letGo)).trans ?_
    rw [State.modCtx_bars, h]

theorem letGoAll_ctxAt : ∀ (l : List Nat) (s : State) (k : Nat),
    (s.letGoAll l).ctxAt k = if k ∈ l then letGo (s.ctxAt k) else s.ctxAt k
  | [], _, _ => rfl
  | n :: l, s, k => by
    obtain ⟨-, hctx⟩ := letGo_step s n
    refine (letGoAll_ctxAt l ((s.flushTo n .grp).modCtx n letGo) k).trans ?_
    rw [hctx]
    by_cases hk : k = n
    · rw [if_pos hk, letGo_letGo, ite_self, hk, if_pos List.mem_cons_self]
    · rw [if_neg hk]
      simp only [List.mem_cons, hk, false_or]

theorem letGoAll_shown : ∀ (l : List Nat) (s : State), Shown s (s.letGoAll l) ∧ ∀ w ∈ (s.letGoAll l).pw, w.owner ∈ l → w.grpSeen = true
  | [], s => ⟨.refl s, fun _ _ h => nomatch h⟩
  | n :: l, s => by
    obtain ⟨hfirst, hseen⟩ := flushTo_grp_spec s n
    obtain ⟨hrest, hothers⟩ := letGoAll_shown l ((s.flushTo n .grp).modCtx n letGo)
    refine ⟨(hfirst.trans (.of_pw rfl fun _ h => h)).trans hrest, fun w hw howner => ?_⟩
    rcases List.mem_cons.mp howner with hn | hl
    · obtain ⟨-, hpw⟩ := hrest
      obtain ⟨p, hp, hpo, hps⟩ := hpw w hw
      exact hps (hseen p hp (hpo.trans hn))
    · exact hothers w hw hl

/-! The episodes of its tasks. -/

/-- A task that has completed one episode more (R313). -/
def onceMore (t : Task) : Task := { t with bars := t.bars + 1 }

/-- The tasks of l have completed one episode more. -/
def State.onceMoreAll (s : State) (l : List Task) : State := l.foldl (fun s q => s.modTask q.id onceMore) s

theorem onceMoreAll_cons (s : State) (t : Task) (l : List Task) : s.onceMoreAll (t :: l) = (s.modTask t.id onceMore).onceMoreAll l := rfl

theorem onceMoreAll_frame : ∀ (l : List Task) (s : State), s.onceMoreAll l = { s with tasks := (s.onceMoreAll l).tasks }
  | [], _ => rfl
  | t :: l, s => by
    rw [onceMoreAll_cons, onceMoreAll_frame l]
    rfl

theorem onceMoreAll_tasks : ∀ (l : List Task) (s : State), (l.map (·.id)).Nodup →
    (s.onceMoreAll l).tasks = s.tasks.map fun q => if q.id ∈ l.map (·.id) then onceMore q else q
  | [], s, _ => by simp [State.onceMoreAll]
  | t :: l, s, hn => by
    obtain ⟨ht, hl⟩ := List.nodup_cons.mp hn
    rw [onceMoreAll_cons, onceMoreAll_tasks l _ hl, State.modTask, List.map_map]
    refine List.map_congr_left fun q _ => ?_
    rw [Function.comp_apply]
    by_cases hq : q.id = t.id
    · rw [if_pos hq, show (onceMore q).id = t.id from hq, if_neg ht, hq, List.map_cons, if_pos List.mem_cons_self]
    · rw [if_neg hq]
      simp only [List.map_cons, List.mem_cons, hq, false_or]

/-- Of tasks with different numbers a number among those of a group names a task of it. -/
theorem mem_ids_filter {l : List Task} (hn : (l.map (·.id)).Nodup) (p : Task → Bool) {q : Task} (hq : q ∈ l) :
    q.id ∈ (l.filter p).map (·.id) ↔ p q = true := by
  constructor
  · intro h
    obtain ⟨r, hr, hid⟩ := List.mem_map.mp h
    obtain ⟨hrl, hrp⟩ := List.mem_filter.mp hr
    rwa [List.inj_on_of_nodup_map hn hrl hq hid] at hrp
  · exact fun h => List.mem_map_of_mem (List.mem_filter.mpr ⟨hq, h⟩)

/-! The release. -/

/-- A member that keeps a barrier waiting no longer (R130). -/
theorem memberThere_of {s : State} {b : Barrier} {share i : Nat} (h : (∃ h, s.findShare share = some h ∧ i ∈ h.done) ∨
    ∃ q, q ∈ s.tasks ∧ q.share = share ∧ q.index = i ∧ q.st = .bound ∧ (q.ctx ∈ b.arrived ∨ (s.ctxAt q.ctx).drain = .tend)) :
    s.memberThere b share i = true := by
  unfold State.memberThere
  rw [Bool.or_eq_true]
  rcases h with ⟨h, hf, hd⟩ | ⟨q, hq, hs, hi, hb, ha⟩
  · left
    rw [hf, Option.any_some]
    exact List.contains_iff_mem.mpr hd
  · right
    refine List.any_eq_true.mpr ⟨q, hq, ?_⟩
    unfold State.atBarrier
    rcases ha with ha | ha
    · simp [hs, hi, hb, ha]
    · simp [hs, hi, hb, ha]

/-- The state as a barrier of group g opens. -/
theorem releaseBarrier_eq {s : State} {g : Nat} {id : BitVec 12} {b : Barrier} {t : Task}
    (hb : s.bars.find? (fun q => q.grp = g && q.id = id) = some b) (ht : s.tasks.find? (fun q => q.group = some g) = some t)
    (hfull : ∀ k, k < t.gsize → s.memberThere b t.share (t.first + k) = true)
    (hacc : ∀ k a, k ∈ b.arrived → a ∈ (s.ctxAt k).acc → a.performed = true) :
    s.releaseBarrier g id = { (s.letGoAll b.arrived).onceMoreAll (s.tasks.filter fun q => q.group = some g) with
      bars := s.bars.filter fun q => !(q.grp = g && q.id = id) } := by
  have hgrp : b.grp = g := by
    have := List.find?_some hb
    simp only [Bool.and_eq_true, decide_eq_true_eq] at this
    obtain ⟨hgrp, -⟩ := this
    exact hgrp
  have hbar : s.barrierFull b = true := by
    unfold State.barrierFull
    rw [hgrp, ht]
    refine List.all_eq_true.mpr fun k hk => hfull k ?_
    simpa [upTo] using hk
  have hperf : b.arrived.all (fun n => (s.ctxAt n).acc.all Access.performed) = true :=
    List.all_eq_true.mpr fun k hk => List.all_eq_true.mpr fun a ha => hacc k a hk ha
  have hbars : ((s.letGoAll b.arrived).onceMoreAll (s.tasks.filter fun q => q.group = some g)).bars = s.bars := by
    rw [onceMoreAll_frame]
    exact letGoAll_bars _ _
  unfold State.releaseBarrier
  simp only [hb, hbar, hperf]
  rw [← hbars]
  rfl

/-- A barrier that nothing keeps waiting lets its contexts go on, with what they wrote seen by the group (R130, R131, R313). -/
theorem barrierRelease_gives {s : State} {g : Nat} {id : BitVec 12} {b : Barrier} {t : Task}
    (hb : s.bars.find? (fun q => q.grp = g && q.id = id) = some b) (ht : s.tasks.find? (fun q => q.group = some g) = some t)
    (hfull : ∀ k, k < t.gsize → s.memberThere b t.share (t.first + k) = true)
    (hacc : ∀ k a, k ∈ b.arrived → a ∈ (s.ctxAt k).acc → a.performed = true) :
    Gives (exec (.barrierRelease g id) s) fun u => (∀ k, k ∈ b.arrived → u.ctxAt k = letGo (s.ctxAt k)) ∧
      (∀ k, k ∉ b.arrived → u.ctxAt k = s.ctxAt k) ∧ (∀ w, w ∈ u.pw → w.owner ∈ b.arrived → w.grpSeen = true) ∧
      ((s.tasks.map (·.id)).Nodup → u.tasks = s.tasks.map fun q => if q.group = some g then onceMore q else q) ∧
      u.bars = s.bars.filter fun q => !(q.grp = g && q.id = id) := by
  obtain ⟨⟨htasks, -⟩, hseen⟩ := letGoAll_shown b.arrived s
  have hctx := letGoAll_ctxAt b.arrived s
  refine ⟨s.releaseBarrier g id, rfl, ?_⟩
  rw [releaseBarrier_eq hb ht hfull hacc, onceMoreAll_frame]
  refine ⟨fun k hk => (hctx k).trans (if_pos hk), fun k hk => (hctx k).trans (if_neg hk), hseen, fun hn => ?_, rfl⟩
  have hids : ((s.tasks.filter fun q => q.group = some g).map (·.id)).Nodup := hn.sublist (List.filter_sublist.map _)
  refine (onceMoreAll_tasks _ (s.letGoAll b.arrived) hids).trans ?_
  rw [htasks]
  refine List.map_congr_left fun q hq => ?_
  simp only [mem_ids_filter hn _ hq, decide_eq_true_eq]

end Sys2Proof.Machine
end

section
/-! PROOFS. spec/04_scalar.md R135, spec/07_memory_instr.md R208, spec/13_memory.md R297: the writebacks that a drained TEND starts. -/

namespace Sys2Proof.Machine

open Sys2Proof.Safety

/-- t is s but for region tables, numbers, and commands that have joined. -/
def CmdsJoin (s t : State) : Prop := t = { s with cores := t.cores, cmds := t.cmds, nextId := t.nextId } ∧ s.cmds ⊆ t.cmds

namespace CmdsJoin

theorem refl (s : State) : CmdsJoin s s := ⟨rfl, fun _ h => h⟩

theorem trans {s t u : State} (h : CmdsJoin s t) (k : CmdsJoin t u) : CmdsJoin s u := by
  obtain ⟨h, hc⟩ := h
  obtain ⟨k, kc⟩ := k
  refine ⟨?_, fun _ m => kc (hc m)⟩
  rw [k, h]

theorem foldl {α : Type} {f : State → α → State} (h : ∀ s a, CmdsJoin s (f s a)) : ∀ (l : List α) (s : State), CmdsJoin s (l.foldl f s)
  | [], s => refl s
  | a :: l, s => (h s a).trans (foldl h l (f s a))

theorem ctxs {s t : State} (h : CmdsJoin s t) : t.ctxs = s.ctxs := by rw [h.1]
theorem mem {s t : State} (h : CmdsJoin s t) : t.mem = s.mem := by rw [h.1]

end CmdsJoin

/-- The writeback of a region of a task is running for its agent. -/
def BackRuns (s : State) (n : Nat) (t : Task) (core : Nat) (r : Region) : Prop :=
  ∃ e, e ∈ s.cmds ∧ e.kind = .writeback t.id core r.base ∧ e.st = .running ∧ e.agent = n

theorem BackRuns.joined {s u : State} {n : Nat} {t : Task} {core : Nat} {r : Region} (h : BackRuns s n t core r) (k : CmdsJoin s u) :
    BackRuns u n t core r := by
  obtain ⟨e, he, hkind⟩ := h
  exact ⟨e, k.2 he, hkind⟩

theorem startWriteback_spec (s : State) (n : Nat) (t : Task) (core : Nat) (r : Region) (whole : Bool) :
    CmdsJoin s (s.startWriteback n t core r whole) ∧ BackRuns (s.startWriteback n t core r whole) n t core r :=
  ⟨⟨rfl, List.subset_append_left _ _⟩, _, List.mem_append_right _ List.mem_cons_self, rfl, rfl, rfl⟩

/-- TEND writes a region back: a declared output of the task, or one that it mapped with WB (R135, R208). -/
def writesBack (t : Task) (core : Nat) (r : Region) : Bool :=
  r.owner = t.id && (if r.tile.isSome then t.tiles.any fun x => x.core = core && x.off = r.base && x.dir != 0 else r.wb)

theorem writesBack_of {t : Task} {core : Nat} {r : Region} (ho : r.owner = t.id)
    (h : (r.tile ≠ none ∧ ∃ x, x ∈ t.tiles ∧ x.core = core ∧ x.off = r.base ∧ x.dir ≠ 0) ∨ (r.tile = none ∧ r.wb = true)) :
    writesBack t core r = true := by
  unfold writesBack
  rcases h with ⟨htile, x, hx, hcore, hoff, hdir⟩ | ⟨htile, hwb⟩
  · rw [if_pos (Option.isSome_iff_ne_none.mpr htile), List.any_eq_true.mpr ⟨x, hx, by simp [hcore, hoff, hdir]⟩]
    simp [ho]
  · simp [ho, htile, hwb]

theorem startSlice_cons (n : Nat) (t : Task) (dsplit : Bool) (core : Nat) (r : Region) (rest : List Region) (s : State) :
    State.startSlice n t dsplit core (r :: rest) s = State.startSlice n t dsplit core rest
      (if writesBack t core r then s.startWriteback n t core r (r.tile.isSome && dsplit) else s) := rfl

theorem cmdsJoin_startSlice (n : Nat) (t : Task) (dsplit : Bool) (core : Nat) : ∀ (l : List Region) (s : State),
    CmdsJoin s (State.startSlice n t dsplit core l s)
  | [], s => .refl s
  | r :: rest, s => by
    rw [startSlice_cons]
    refine .trans ?_ (cmdsJoin_startSlice n t dsplit core rest _)
    split
    · exact (startWriteback_spec _ _ _ _ _ _).1
    · exact .refl s

theorem startSlice_of_none {n : Nat} {t : Task} {dsplit : Bool} {core : Nat} : ∀ {l : List Region} (s : State),
    (∀ r ∈ l, writesBack t core r = false) → State.startSlice n t dsplit core l s = s
  | [], _, _ => rfl
  | r :: rest, s, h => by
    rw [startSlice_cons, h r List.mem_cons_self]
    exact startSlice_of_none s fun q hq => h q (List.mem_cons_of_mem _ hq)

theorem startSlice_runs {n : Nat} {t : Task} {dsplit : Bool} {core : Nat} {r : Region} (hw : writesBack t core r = true) {l : List Region}
    (s : State) (h : r ∈ l) : BackRuns (State.startSlice n t dsplit core l s) n t core r := by
  induction l generalizing s with
  | nil => exact absurd h List.not_mem_nil
  | cons q rest ih =>
    rw [startSlice_cons]
    rcases List.mem_cons.mp h with rfl | h
    · obtain ⟨-, hruns⟩ := startWriteback_spec s n t core r (r.tile.isSome && dsplit)
      rw [hw]
      exact hruns.joined (cmdsJoin_startSlice _ _ _ _ _ _)
    · exact ih _ h

/-! All slices. -/

/-- The writebacks of a task over a table of slices. -/
def State.startSlices (s : State) (n : Nat) (t : Task) (l : List (Nat × CoreSt)) : State :=
  l.foldl (fun s k => State.startSlice n t (s.dsplitOf t) k.1 k.2.regions s) s

theorem startSlices_cons (s : State) (n : Nat) (t : Task) (k : Nat × CoreSt) (l : List (Nat × CoreSt)) :
    s.startSlices n t (k :: l) = (State.startSlice n t (s.dsplitOf t) k.1 k.2.regions s).startSlices n t l := rfl

theorem cmdsJoin_startSlices (s : State) (n : Nat) (t : Task) (l : List (Nat × CoreSt)) : CmdsJoin s (s.startSlices n t l) :=
  .foldl (fun _ _ => cmdsJoin_startSlice _ _ _ _ _ _) l s

theorem startSlices_of_none {n : Nat} {t : Task} {l : List (Nat × CoreSt)} (s : State)
    (h : ∀ k ∈ l, ∀ r ∈ k.2.regions, writesBack t k.1 r = false) : s.startSlices n t l = s := by
  induction l with
  | nil => rfl
  | cons k l ih =>
    rw [startSlices_cons, startSlice_of_none s (h k List.mem_cons_self)]
    exact ih fun q hq => h q (List.mem_cons_of_mem _ hq)

theorem startSlices_runs {n : Nat} {t : Task} {core : Nat} {r : Region} {cs : CoreSt} (hw : writesBack t core r = true)
    (hr : r ∈ cs.regions) {l : List (Nat × CoreSt)} (s : State) (h : (core, cs) ∈ l) : BackRuns (s.startSlices n t l) n t core r := by
  induction l generalizing s with
  | nil => exact absurd h List.not_mem_nil
  | cons k l ih =>
    rw [startSlices_cons]
    rcases List.mem_cons.mp h with rfl | h
    · exact (startSlice_runs hw s hr).joined (cmdsJoin_startSlices _ n t l)
    · exact ih _ h

theorem startWritebacks_eq (s : State) (n : Nat) (t : Task) : s.startWritebacks n t =
    (s.startSlices n t s.cores).modTask t.id fun t =>
      { t with tiles := t.tiles.map fun x => if x.dir = 0 then x else { x with st := .writing } } := rfl

/-! The end of the drain. -/

theorem tokens_ok {c : Ctx} (h : ∀ k, k ≠ 0 → (c.getK k).status = 0) {k : Nat} (hk : k ∈ upTo 16) (h0 : k ≠ 0) :
    (c.k[k]?.getD {}).status.toNat = 0 := by
  have hlt : k < 16 := by simpa [upTo] using hk
  have hne : BitVec.ofNat 4 k ≠ 0 := by
    intro he
    have := congrArg BitVec.toNat he
    simp [Nat.mod_eq_of_lt hlt] at this
    exact h0 this
  have hget := getElem_k (c := c) hne
  rw [BitVec.toNat_ofNat, Nat.mod_eq_of_lt hlt] at hget
  rw [hget, h _ hne]
  rfl

/-- A drained TEND with no token in error and no guard report starts the writebacks of its task. -/
theorem tendDrained_eq {s : State} {n id : Nat} {t : Task} (h : DrainedAt s n .tend) (hsat : (s.ctxAt n).satisfied = false)
    (hk : ∀ k, k ≠ 0 → ((s.ctxAt n).getK k).status = 0) (htask : (s.ctxAt n).task = some id) (ht : s.findTask id = some t)
    (hg : t.guard = none) : s.tendDrained n =
      .next ((((s.modCtx n Ctx.landAll)).startWritebacks n t).modCtx n fun c => { c with satisfied := true }) := by
  have hdrained := drained_of h
  obtain ⟨hst, hdrain, -⟩ := h
  rw [if_neg nofun] at hst
  have hfind : (s.modCtx n Ctx.landAll).findTask id = some t := ht
  have herrs : ((upTo 16).filterMap fun k =>
      let st := ((s.ctxAt n).k[k]?.getD {}).status.toNat; if k != 0 && st != 0 then some (k, st) else none) = [] := by
    refine List.filterMap_eq_nil_iff.mpr fun k hmem => ?_
    by_cases h0 : k = 0
    · subst h0
      rfl
    · simp only [tokens_ok hk hmem h0, bne_self_eq_false, Bool.and_false, Bool.false_eq_true, if_false]
  unfold State.tendDrained
  simp only [hst, hdrain, hsat, hdrained, decide_true, Bool.not_false, Bool.and_self, Bool.not_true, Bool.false_eq_true, if_false, herrs, htask,
    Option.bind_some, hfind, hg]

/-- The tasks of a drained TEND: its context keeps what has landed, and the writebacks of its task run (R135, R208). -/
theorem tendDrainEnd_gives {s : State} {ag : Agent} {n id : Nat} {c : Ctx} {t : Task} (hn : agentNum ag = n) (hc : s.ctxAt n = c)
    (h : DrainedAt s n .tend) (hsat : c.satisfied = false) (hk : ∀ k, k ≠ 0 → (c.getK k).status = 0) (htask : c.task = some id)
    (ht : s.findTask id = some t) (hg : t.guard = none) : Gives (exec (.tendDrainEnd ag) s) fun u =>
      u.ctxAt n = { c.landAll with satisfied := true } ∧ (∀ k, k ≠ n → u.ctxAt k = s.ctxAt k) ∧ u.mem = s.mem ∧
      ((∀ k r, k ∈ s.cores → r ∈ k.2.regions → r.owner = t.id → r.wb = false ∧ r.tile = none) → u.cmds = s.cmds) ∧
      ∀ core r, r ∈ (s.coreAt core).regions → writesBack t core r = true → BackRuns u n t core r := by
  subst hc
  have hjoin := cmdsJoin_startSlices (s.modCtx n Ctx.landAll) n t s.cores
  have hctx : ∀ k, ((s.modCtx n Ctx.landAll).startSlices n t s.cores).ctxAt k = (s.modCtx n Ctx.landAll).ctxAt k := fun k => by
    rw [State.ctxAt, hjoin.ctxs]
    rfl
  refine ⟨_, (congrArg s.tendDrained hn).trans (tendDrained_eq h hsat hk htask ht hg), ?_⟩
  rw [startWritebacks_eq]
  refine ⟨?_, fun k hne => ?_, hjoin.mem, fun hnone => ?_, fun core r hr hw => ?_⟩
  · rw [State.ctxAt_modCtx_self, State.ctxAt_modTask]
    exact congrArg (fun c : Ctx => { c with satisfied := true }) ((hctx n).trans (State.ctxAt_modCtx_self _ _ _))
  · rw [State.ctxAt_modCtx_ne _ _ _ _ hne, State.ctxAt_modTask]
    exact (hctx k).trans (State.ctxAt_modCtx_ne _ _ _ _ hne)
  · have hsame : (s.modCtx n Ctx.landAll).startSlices n t s.cores = s.modCtx n Ctx.landAll := by
      refine startSlices_of_none _ fun k hk r hr => ?_
      unfold writesBack
      by_cases ho : r.owner = t.id
      · obtain ⟨hwb, htile⟩ := hnone k r hk hr ho
        simp [hwb, htile]
      · simp [ho]
    have hcmds := congrArg State.cmds hsame
    exact hcmds
  · have hcore : (core, s.coreAt core) ∈ s.cores := by
      refine (mapGet_mem _ s.cores core).resolve_right fun hd => ?_
      rw [show s.coreAt core = _ from hd] at hr
      exact absurd hr List.not_mem_nil
    exact startSlices_runs hw hr _ hcore

end Sys2Proof.Machine
end

section
/-! PROOFS. spec/16_scheduling.md R22, R253, R347, R355: the binding of a task; the events of tasks together. -/

namespace Sys2Proof.Machine

open Sys2Proof.Safety

/-! The registers of a task at its start. -/

/-- The scratch address of a tile (R27). -/
def tileWord (x : Tile) : Word := wordOfNat (0x7F * 2 ^ 57 + x.core * 2 ^ 22 + x.off)

theorem taskRegs_getElem (h : LaunchHdr) (t : Task) (i : Nat) (hi : i < 64) : (taskRegs h t)[i] =
    (([0, h.param, wordOfNat h.plen, wordOfNat (h.index t.index).1, wordOfNat (h.index t.index).2.1, wordOfNat (h.index t.index).2.2,
      wordOfNat t.index, wordOfNat t.tiles.length] ++ t.tiles.map tileWord)[i]?).getD 0 := by
  unfold taskRegs
  simp only [Vector.getElem_ofFn, List.length_map]
  rfl

theorem taskRegs_tile {h : LaunchHdr} {t : Task} {j : Nat} {x : Tile} (hj : j < 56) (hx : t.tiles[j]? = some x) :
    (taskRegs h t)[8 + j]'(by omega) = tileWord x := by
  rw [taskRegs_getElem, List.getElem?_append_right (by simp)]
  simp [hx]

/-! The bound context. -/

/-- The context of a task at its start. -/
def boundCtx (s : State) (h : LaunchHdr) (t : Task) (id : Nat) : Ctx :=
  { st := .ready, x := taskRegs h t, cr := taskCr s h t, pc := h.entries[t.phase]?.getD 0, sn := (s.ctxAt t.ctx).sn, task := some id
    grp := t.group }

theorem boundCtx_getX (s : State) (h : LaunchHdr) (t : Task) (id : Nat) {r : Reg} (hr : r ≠ 0) :
    (boundCtx s h t id).getX r = (taskRegs h t)[r.toNat]'(by have := r.isLt; omega) := if_neg hr

theorem boundCtx_tile (s : State) {h : LaunchHdr} {t : Task} (id : Nat) {j : Nat} {x : Tile} (hj : j < 56) (hx : t.tiles[j]? = some x) :
    (boundCtx s h t id).getX (BitVec.ofNat 6 (8 + j)) = tileWord x := by
  have hnat : (BitVec.ofNat 6 (8 + j)).toNat = 8 + j := by
    rw [BitVec.toNat_ofNat]
    omega
  have hne : BitVec.ofNat 6 (8 + j) ≠ 0 := by
    intro h0
    rw [h0] at hnat
    have : 0 = 8 + j := hnat
    omega
  rw [boundCtx_getX _ _ _ _ hne]
  simp only [hnat]
  exact taskRegs_tile hj hx

theorem boundCtx_params (s : State) (h : LaunchHdr) (t : Task) (id : Nat) : (boundCtx s h t id).getX 1 = h.param ∧
    (boundCtx s h t id).getX 2 = wordOfNat h.plen ∧ (boundCtx s h t id).getX 6 = wordOfNat t.index ∧
    (boundCtx s h t id).getX 7 = wordOfNat t.tiles.length := by
  refine ⟨?_, ?_, ?_, ?_⟩
  all_goals
    rw [boundCtx_getX _ _ _ _ (by decide), taskRegs_getElem]
    rfl

theorem boundCtx_cr (s : State) (h : LaunchHdr) (t : Task) (id : Nat) : (boundCtx s h t id).cr[0] = wordOfNat (0x20 + ofBoolNat h.verify <<< 4) ∧
    (boundCtx s h t id).cr[6] = wordOfNat t.job ∧ (boundCtx s h t id).cr[8] = wordOfNat t.index ∧
    (boundCtx s h t id).cr[9] = wordOfNat t.phase ∧ (boundCtx s h t id).cr[0x10] = h.seed ∧ (boundCtx s h t id).cr[0x11] = 0 ∧
    (boundCtx s h t id).cr[0x12] = wordOfNat t.index := by
  have hcr : (boundCtx s h t id).cr = taskCr s h t := rfl
  rw [hcr]
  unfold taskCr
  simp only [Vector.getElem_set]
  simp

theorem boundCtx_kernel (s : State) (h : LaunchHdr) (t : Task) (id : Nat) : (boundCtx s h t id).kernel = false := by
  obtain ⟨hpsw, -⟩ := boundCtx_cr s h t id
  rw [Ctx.kernel, hpsw]
  cases h.verify <;> rfl

theorem boundCtx_fresh (s : State) (h : LaunchHdr) (t : Task) (id : Nat) :
    (∀ r, (boundCtx s h t id).getV r = 0 ∧ (boundCtx s h t id).vBad r = false ∧ (boundCtx s h t id).vFull r = true ∧
      (boundCtx s h t id).xFull r = true) ∧ (∀ k, (boundCtx s h t id).getK k = {}) ∧
    ∀ k : Fin 4, (boundCtx s h t id).loops[k].active = false := by
  refine ⟨fun r => ⟨?_, ?_, ?_, ?_⟩, fun k => ?_, fun k => ?_⟩
  · exact Vector.getElem_replicate _
  · exact BitVec.getLsbD_zero
  · unfold Ctx.vFull
    exact (BitVec.getLsbD_allOnes).trans (decide_eq_true r.isLt)
  · unfold Ctx.xFull
    rw [show (boundCtx s h t id).fullX = BitVec.allOnes 64 from rfl, BitVec.getLsbD_allOnes, decide_eq_true r.isLt, Bool.or_true]
  · unfold Ctx.getK
    split
    · rfl
    · exact Vector.getElem_replicate _
  · exact congrArg Loop.active (Vector.getElem_replicate _)

/-! The binding. -/

theorem jobOpen_of_no_jobs {s : State} (h : s.jobs = []) (die job : Nat) : s.jobOpen die job = true := by
  unfold State.jobOpen State.jobCtl JobCtl.stOf
  rw [h]
  simp

theorem ctxAt_enterVerify (s : State) (core k : Nat) : (s.enterVerify core).ctxAt k = s.ctxAt k := by
  unfold State.enterVerify
  split <;> rfl

section
variable {s : State} {id n : Nat} {t : Task} {h : Share} (ht : s.findTask id = some t) (hh : s.findShare t.share = some h)
  (hst : t.st = .resident) (hctx : t.ctx = n) (hfree : (s.ctxAt n).st = .free) (hj : s.jobs = [])
include ht hh hst hctx hfree hj

/-- With its cluster's arrays off a Resident task waits, and the cluster asks for them (R355). -/
theorem bind_arrays_off (hoff : (s.clusterAt (n / 16)).arraysOn = false) : s.bind id = s.askEnable (n / 16) := by
  subst hctx
  unfold State.bind
  simp [ht, hh, hst, hfree, jobOpen_of_no_jobs hj, hoff]

/-- With them on it is bound, its context as at a start (R347). -/
theorem bind_arrays_on (hon : (s.clusterAt (n / 16)).arraysOn = true) : s.bind id =
    ((if t.ltag.isSome then s.enterVerify (coreOf n) else s).setCtx n (boundCtx s h.hdr t id)).modTask id fun t =>
      { t with st := .bound, tiles := t.tiles.map fun x => { x with st := .bound } } := by
  subst hctx
  unfold State.bind
  simp only [ht, hh, hst, hfree, jobOpen_of_no_jobs hj, hon]
  rfl

/-- What binding leaves in its context, in the others, in memory and of the task. -/
theorem bind_spec (hon : (s.clusterAt (n / 16)).arraysOn = true) : (s.bind id).ctxAt n = boundCtx s h.hdr t id ∧
    (∀ k, k ≠ n → (s.bind id).ctxAt k = s.ctxAt k) ∧ (t.ltag = none → (s.bind id).mem = s.mem) ∧
    ∀ q, (s.bind id).findTask id = some q → q.st = .bound := by
  rw [bind_arrays_on ht hh hst hctx hfree hj hon]
  refine ⟨?_, fun k hk => ?_, fun hl => ?_, fun q hq => ?_⟩
  · rw [State.ctxAt_modTask, State.ctxAt_setCtx_self]
  · rw [State.ctxAt_modTask, State.ctxAt_setCtx_ne _ _ _ _ hk]
    split
    · exact ctxAt_enterVerify _ _ _
    · rfl
  · rw [hl]
    rfl
  · obtain ⟨p, -, rfl⟩ := List.mem_map.mp (List.mem_of_find?_eq_some hq)
    have hid := findTask_id hq
    by_cases hp : p.id = id
    · rw [if_pos hp]
    · rw [if_neg hp] at hid
      contradiction

end

/-- Settles O46: barriers, the drain of TEND, commit, the drain of HALT, and binding. -/
theorem taskEvents : Obligations.TaskEvents := by
  intro s ag n c hn hc
  refine ⟨?barrier, ?tend, ?commit, fun hd hj => haltDrainEnd_gives hn hc hd hj, ?bind⟩
  case barrier =>
    intro g id b t hb ht hfull hacc
    exact barrierRelease_gives hb ht (fun k hk => memberThere_of (hfull k hk)) hacc
  case tend =>
    intro id t hd hsat hk htask ht hg
    obtain ⟨u, hu, hctx, hother, hmem, hcmds, hback⟩ := tendDrainEnd_gives hn hc hd hsat hk htask ht hg
    refine ⟨u, hu, hctx, hother, hmem, hcmds, fun core r hr ho hw => hback core r hr (writesBack_of ho hw)⟩
  case commit =>
    intro id t hst hdrain hsat htask ht hj hcmds
    exact taskCommit_gives hn hc hst hdrain hsat htask ht hj hcmds
  case bind =>
    intro t h id ht hh hst hctx hfree hj
    subst hc
    refine ⟨fun hoff hask => ?_, fun hon => ?_⟩
    · refine ⟨s.bind id, rfl, ?_⟩
      rw [bind_arrays_off ht hh hst hctx hfree hj hoff, askEnable_of_off hoff hask]
      exact ⟨⟨rfl, rfl⟩, by rw [State.clusterAt_setCluster_self], rfl⟩
    · obtain ⟨hbound, hother, hmem, hfind⟩ := bind_spec ht hh hst hctx hfree hj hon
      obtain ⟨hparam, hplen, hindex, htiles⟩ := boundCtx_params s h.hdr t id
      obtain ⟨-, hjob, hidx, hphase, hseed, hzero, hsub⟩ := boundCtx_cr s h.hdr t id
      obtain ⟨hrows, htoks, hloops⟩ := boundCtx_fresh s h.hdr t id
      refine ⟨s.bind id, rfl, _, hbound, rfl, rfl, rfl, hparam, ?_, ?_, ?_, fun j x hjlt hx => boundCtx_tile s id hjlt hx, hrows, htoks, rfl, rfl,
        rfl, hloops, boundCtx_kernel s h.hdr t id, ?_, ?_, ?_, hseed, hzero, ?_, hother, hmem, hfind⟩
      · rw [hplen, wordOfNat, BitVec.toNat_ofNat]
      · rw [hindex, wordOfNat, BitVec.toNat_ofNat]
      · rw [htiles, wordOfNat, BitVec.toNat_ofNat]
      · rw [hjob, wordOfNat, BitVec.toNat_ofNat]
      · rw [hidx, wordOfNat, BitVec.toNat_ofNat]
      · rw [hphase, wordOfNat, BitVec.toNat_ofNat]
      · rw [hsub, wordOfNat, BitVec.toNat_ofNat]

end Sys2Proof.Machine
end

section
/-! PROOFS. spec/05_vector.md R138, R139, R47: the lanes of a row, what a mask governs, and vector results on their way. -/

namespace Sys2Proof.Machine

open Sys2Proof.Safety

/-! Lanes side by side (R18). -/

theorem packLanes_testBit {w : Nat} (hw : 0 < w) : ∀ (l : List Nat) (j : Nat),
    (l.foldr (fun v a => a * 2 ^ w + v % 2 ^ w) 0).testBit j = ((l[j / w]?).getD 0).testBit (j % w)
  | [], j => by simp
  | v :: l, j => by
    have hlt : v % 2 ^ w < 2 ^ w := Nat.mod_lt _ (Nat.two_pow_pos w)
    rw [List.foldr_cons, Nat.mul_comm, Nat.testBit_two_pow_mul_add _ hlt]
    split
    · next h => simp [Nat.testBit_mod_two_pow, h, Nat.div_eq_of_lt h, Nat.mod_eq_of_lt h]
    · next h =>
      have hdiv : j / w = (j - w) / w + 1 := by rw [← Nat.add_div_right _ hw, Nat.sub_add_cancel (Nat.le_of_not_lt h)]
      rw [packLanes_testBit hw l, hdiv, List.getElem?_cons_succ, ← Nat.mod_eq_sub_mod (Nat.le_of_not_lt h)]

theorem bytes_pos (t : ETy) : 0 < t.bytes := by cases t <;> decide

theorem bytes_mul_lanes (t : ETy) : t.bytes * lanes t = 2048 := by cases t <;> rfl

theorem byte_div_lt_lanes {t : ETy} {q : Nat} (hq : q < 2048) : q / t.bytes < lanes t :=
  Nat.div_lt_of_lt_mul (by rwa [bytes_mul_lanes])

theorem governingBit_lt {t : ETy} {i : Nat} (hi : i < lanes t) : t.bytes * i < 2048 :=
  (Nat.mul_lt_mul_of_pos_left hi (bytes_pos t)).trans_eq (bytes_mul_lanes t)

/-- A lane's bits stand in the row. -/
theorem laneBit_lt {t : ETy} {i j : Nat} (hi : i < lanes t) (hj : j < 8 * t.bytes) : 8 * t.bytes * i + j < 16384 := by
  have hnext : t.bytes * (i + 1) ≤ 2048 := (Nat.mul_le_mul_left _ hi).trans_eq (bytes_mul_lanes t)
  rw [Nat.mul_assoc]
  rw [Nat.mul_add, Nat.mul_one] at hnext
  omega

theorem lane_lt (t : ETy) (r : Row) (i : Nat) : lane t r i < 2 ^ (8 * t.bytes) := bits_lt _ _ _

theorem lane_testBit (t : ETy) (r : Row) (i j : Nat) :
    (lane t r i).testBit j = (decide (j < 8 * t.bytes) && r.getLsbD (8 * t.bytes * i + j)) := bits_testBit _ _ _ _

theorem lanesOf_eq (t : ETy) (r : Row) : lanesOf t r = (List.range (lanes t)).map (lane t r) := rfl

theorem activeLanes_eq (t : ETy) (m : Mask) : activeLanes t m = (List.range (lanes t)).map fun i => m.getLsbD (t.bytes * i) := rfl

theorem lane_rowOf {t : ETy} {i : Nat} (hi : i < lanes t) (l : List Nat) : lane t (rowOf t l) i = (l[i]?).getD 0 % 2 ^ (8 * t.bytes) := by
  have hw : 0 < 8 * t.bytes := Nat.mul_pos (by decide) (bytes_pos t)
  apply Nat.eq_of_testBit_eq
  intro j
  rw [lane_testBit, Nat.testBit_mod_two_pow]
  by_cases hj : j < 8 * t.bytes
  · rw [rowOf, BitVec.getLsbD_ofNat, packLanes_testBit hw, decide_eq_true (laneBit_lt hi hj), Bool.true_and, Nat.mul_add_div hw,
      Nat.div_eq_of_lt hj, Nat.add_zero, Nat.mul_add_mod, Nat.mod_eq_of_lt hj]
  · rw [decide_eq_false hj, Bool.false_and, Bool.false_and]

theorem lane_rowOf_map {t : ETy} {i : Nat} (hi : i < lanes t) (g : Nat → Nat) :
    lane t (rowOf t ((List.range (lanes t)).map g)) i = g i % 2 ^ (8 * t.bytes) := by
  rw [lane_rowOf hi, List.getElem?_map, List.getElem?_range hi]
  rfl

/-! What a mask governs (R139). -/

theorem laneMask_getLsbD (t : ETy) (l : List Bool) {q : Nat} (hq : q < 2048) : (laneMask t l).getLsbD q = (l[q / t.bytes]?).getD false := by
  have hpack : l.foldr (fun b a => a * 2 ^ t.bytes + (if b then 2 ^ t.bytes - 1 else 0)) 0 =
      (l.map fun b => if b then 2 ^ t.bytes - 1 else 0).foldr (fun v a => a * 2 ^ t.bytes + v % 2 ^ t.bytes) 0 := by
    have hones : 2 ^ t.bytes - 1 < 2 ^ t.bytes := Nat.sub_lt (Nat.two_pow_pos _) (by decide)
    rw [List.foldr_map]
    congr
    funext b a
    cases b
    · simp
    · simp [Nat.mod_eq_of_lt hones]
  rw [laneMask, BitVec.getLsbD_ofNat, decide_eq_true hq, Bool.true_and, hpack, packLanes_testBit (bytes_pos t), List.getElem?_map]
  cases l[q / t.bytes]? with
  | none => simp
  | some b => cases b <;> simp [Nat.mod_lt _ (bytes_pos t), Nat.testBit_two_pow_sub_one]

/-- A bit of the mask that p makes is that of its lane. -/
theorem laneMask_range {t : ETy} (p : Nat → Bool) {q : Nat} (hq : q < 2048) :
    (laneMask t ((List.range (lanes t)).map p)).getLsbD q = p (q / t.bytes) := by
  rw [laneMask_getLsbD t _ hq, List.getElem?_map, List.getElem?_range (byte_div_lt_lanes hq)]
  rfl

/-- A byte is governed by the bit of its lane's lowest byte. -/
theorem governed_getLsbD (t : ETy) (m : Mask) {q : Nat} (hq : q < 2048) : (governed t m).getLsbD q = m.getLsbD (q / t.bytes * t.bytes) := by
  have hlow : q / t.bytes * t.bytes < 2048 := (Nat.div_mul_le_self _ _).trans_lt hq
  unfold governed
  split
  · next h => rw [h, BitVec.getLsbD_allOnes, BitVec.getLsbD_allOnes, decide_eq_true hq, decide_eq_true hlow]
  · rw [laneMask_getLsbD t _ hq, activeLanes_eq, List.getElem?_map, List.getElem?_range (byte_div_lt_lanes hq), Nat.mul_comm]
    rfl

/-- A flag is gathered when an active lane raises it (R47). -/
theorem gatherFlags_getLsbD (l : List (Bool × Flags)) (k : Nat) :
    (gatherFlags l).getLsbD k = true ↔ ∃ p ∈ l, p.1 = true ∧ p.2.getLsbD k = true := by
  have hfold : ∀ (l : List (Bool × Flags)) (a : Flags), (l.foldl (fun a p => if p.1 then a ||| p.2 else a) a).getLsbD k = true ↔
      a.getLsbD k = true ∨ ∃ p ∈ l, p.1 = true ∧ p.2.getLsbD k = true := by
    intro l
    induction l with
    | nil => simp
    | cons p l ih =>
      intro a
      obtain ⟨active, fl⟩ := p
      rw [List.foldl_cons, ih]
      cases active <;> simp [or_assoc]
  unfold gatherFlags
  rw [hfold]
  simp

/-- The flags that the lanes of n places raise, of those that act says. -/
theorem gatherFlags_range (n : Nat) (act : Nat → Bool) (fl : Nat → Flags) (k : Nat) :
    (gatherFlags (((List.range n).map act).zip ((List.range n).map fl))).getLsbD k = true ↔
      ∃ i, i < n ∧ act i = true ∧ (fl i).getLsbD k = true := by
  rw [gatherFlags_getLsbD, List.zip_map']
  simp

/-! Pairs of lanes, and their random bits (R63, R72). -/

theorem lanePairs_map {α : Type} (t : ETy) (r r' : Row) (f : Nat × Nat → α) : ((lanesOf t r).zip (lanesOf t r')).map f =
    (List.range (lanes t)).map fun i => f (lane t r i, lane t r' i) := by
  rw [lanesOf_eq, lanesOf_eq, List.zip_map', List.map_map]
  rfl

/-- The random bits of n lanes under a rounding mode, and the context after them (R63, R72). -/
theorem roundBits_eq {c : Ctx} {rm : RMode} {n : Nat} {u : Nat → Nat} {after : Ctx → Ctx}
    (hu : ∀ i, u i = if rm = .sr then (draw c.cr[0x10] (c.counter + BitVec.ofNat 128 i)).toNat % 2 ^ 24 else 0)
    (ha : ∀ c, after c = if rm = .sr then (c.setCounter (c.counter + BitVec.ofNat 128 n)).setRgh false else c) :
    c.roundBits rm n = ((List.range n).map u, after c) := by
  rw [ha, funext hu]
  unfold Ctx.roundBits
  split
  · rfl
  · rw [List.map_const', List.length_range]

/-- Taking counters changes control registers only. -/
theorem after_keeps {rm : RMode} {n : Nat} {after : Ctx → Ctx}
    (ha : ∀ c, after c = if rm = .sr then (c.setCounter (c.counter + BitVec.ofNat 128 n)).setRgh false else c) (c : Ctx) :
    after c = { c with cr := (after c).cr } := by
  rw [ha]
  split <;> rfl

/-! Results on their way (R95). -/

/-- A lane's result counts modulo its width, and only the lanes that the row has count. -/
theorem lanesLater_congr {o : Out} {s : State} {f : Ctx → Ctx} {left : Nat} {d : Reg} {mk : MReg} {t : ETy} {g g' : Nat → Nat × Flags}
    (h : LanesLater o s f left d mk t g)
    (e : ∀ i, i < lanes t → (g i).1 % 2 ^ (8 * t.bytes) = (g' i).1 % 2 ^ (8 * t.bytes) ∧ (g i).2 = (g' i).2) :
    LanesLater o s f left d mk t g' := by
  obtain ⟨row, en, fl, ho, hrow, hen, hfl⟩ := h
  refine ⟨row, en, fl, ho, fun i hi => (hrow i hi).trans (e i hi).1, hen, fun k => (hfl k).trans ?_⟩
  constructor
  · rintro ⟨i, hi, hm, hk⟩
    exact ⟨i, hi, hm, (e i hi).2 ▸ hk⟩
  · rintro ⟨i, hi, hm, hk⟩
    exact ⟨i, hi, hm, (e i hi).2.symm ▸ hk⟩

theorem lanesLater_eq {o : Out} {s : State} {f : Ctx → Ctx} {left : Nat} {d : Reg} {mk : MReg} {t : ETy} {g g' : Nat → Nat × Flags}
    (h : LanesLater o s f left d mk t g) (e : ∀ i, g i = g' i) : LanesLater o s f left d mk t g' := funext e ▸ h

theorem resultLater_of_does {o : Out} {s : State} {f g : Ctx → Ctx} {left : Nat} {r : Result} {fl : Flags} (hl : left ≠ 0)
    (hg : g (own s) = (f (own s)).addPend (left + 1) r fl) (h : Does o s g) : ResultLater o s f left r fl := by
  obtain ⟨t, ho, hown, hctx⟩ := h
  rw [hg, aged_addPend, if_neg (by omega)] at hctx
  exact ⟨t, ho, hown, hctx⟩

section
variable {i : Instr} {s : State} {left : Nat} {d : Reg} {mk : MReg} {t : ETy} (h : Ready i s)
  (hw : ∀ a b wa wb sc k, i ≠ .waitc a b wa wb sc k) (hl : left ≠ 0)
include h hw hl

/-- A ready slot that makes f of its context, and has the result r on its way beside. -/
theorem resultLater_addPend {f g : Ctx → Ctx} {r : Result} {fl : Flags} (hd : (f (own s)).drain = (own s).drain)
    (hg : g (own s) = (f (own s)).addPend (left + 1) r fl) : ResultLater (issue i (onCtx g) s) s f left r fl :=
  resultLater_of_does hl hg (does_onCtx h hw (ready_drain_ne_rft h (by rw [hg, addPend_drain, hd])))

/-- A ready slot that makes f of its context, and has the lanes that g gives on their way beside. -/
theorem lanesLater_addLanes {f e : Ctx → Ctx} {g : Nat → Nat × Flags} (hd : (f (own s)).drain = (own s).drain)
    (hm : (f (own s)).getM mk = (own s).getM mk)
    (he : e (own s) = (f (own s)).addLanes (left + 1) d mk t ((List.range (lanes t)).map g)) :
    LanesLater (issue i (onCtx e) s) s f left d mk t g := by
  rw [Ctx.addLanes, hm, List.map_map, List.map_map] at he
  refine ⟨_, _, _, resultLater_addPend h hw hl hd he, fun i hi => lane_rowOf_map hi _, fun b hb => governed_getLsbD t _ hb, fun k => ?_⟩
  exact gatherFlags_range _ _ _ k

/-! The shapes that vector slots share (R138, R141). -/

theorem lanesLater_vUn {a : Reg} {f : Nat → Nat × Flags} :
    LanesLater (issue i (vUn (left + 1) d a mk t f) s) s id left d mk t fun i => f (lane t ((own s).getV a) i) :=
  lanesLater_addLanes h hw hl rfl rfl (by rw [lanesOf_eq, List.map_map]; rfl)

theorem lanesLater_vBin {a b : Reg} {f : Nat → Nat → Nat × Flags} : LanesLater (issue i (vBin (left + 1) d a b mk t f) s) s id left d mk t
    fun i => f (lane t ((own s).getV a) i) (lane t ((own s).getV b) i) :=
  lanesLater_addLanes h hw hl rfl rfl (by rw [lanePairs_map]; rfl)

theorem lanesLater_vRound {f : Ctx → List (RMode → Nat → Nat × Flags)} {g : Nat → RMode → Nat → Nat × Flags} {u : Nat → Nat}
    {after : Ctx → Ctx} (hf : f (own s) = (List.range (lanes t)).map g) (hc : after (own s) = { own s with cr := (after (own s)).cr })
    (hr : (if t.isFloat then (own s).roundBits (own s).vrm (laneCount t) else (List.replicate (laneCount t) 0, own s)) =
      ((List.range (lanes t)).map u, after (own s))) :
    LanesLater (issue i (vRound (left + 1) d mk t f) s) s after left d mk t fun i => g i (own s).vrm (u i) := by
  refine lanesLater_addLanes h hw hl (by rw [hc]) (by rw [hc]; rfl) ?_
  dsimp only
  rw [hr, hf, List.zip_map', List.map_map]
  rfl

/-- Integer lanes take no counters. -/
theorem lanesLater_vRound_int {f : Ctx → List (RMode → Nat → Nat × Flags)} {g : Nat → RMode → Nat → Nat × Flags} (ht : t.isFloat = false)
    (hf : f (own s) = (List.range (lanes t)).map g) :
    LanesLater (issue i (vRound (left + 1) d mk t f) s) s id left d mk t fun i => g i (own s).vrm 0 := by
  refine lanesLater_vRound (u := fun _ => 0) h hw hl hf rfl ?_
  rw [if_neg (by simp [ht]), List.map_const', List.length_range]
  rfl

end

end Sys2Proof.Machine
end

section
/-! PROOFS. spec/05_vector.md R141, R142, R144, R145, R151, R161: lanes of an integer type. -/

namespace Sys2Proof.Machine

open Sys2Proof.Safety

/-! Numbers modulo the width. -/

theorem truncInt_natCast (n w : Nat) : truncInt n w = n % 2 ^ w := by
  rw [truncInt, ← Int.natCast_emod, Int.toNat_natCast]

/-- What an integer counts for modulo 2^w. -/
theorem truncInt_of_add_mul {v : Int} {n w : Nat} (z : Int) (h : (n : Int) = v + (2 ^ w : Nat) * z) : truncInt v w = n % 2 ^ w := by
  rw [← truncInt_natCast, h, truncInt, truncInt, Int.add_mul_emod_self_left]

/-- A pattern of w bits as a signed number. -/
theorem sextNat_of_lt {x w : Nat} (hw : w ≠ 0) (hx : x < 2 ^ w) : sextNat x w = if x < 2 ^ (w - 1) then (x : Int) else x - (2 ^ w : Nat) := by
  unfold sextNat
  dsimp only
  rw [Nat.mod_eq_of_lt hx]
  by_cases h : x < 2 ^ (w - 1)
  · rw [if_neg (by omega), if_pos h]
  · rw [if_pos ⟨hw, by omega⟩, if_neg h]

theorem width_ne_zero (t : ETy) : 8 * t.bytes ≠ 0 := by cases t <;> decide

theorem intOf_inj {t : ETy} {x y : Nat} (hx : x < 2 ^ (8 * t.bytes)) (hy : y < 2 ^ (8 * t.bytes)) (h : intOf t x = intOf t y) : x = y := by
  have hw := width_ne_zero t
  unfold intOf at h
  split at h
  · rw [sextNat_of_lt hw hx, sextNat_of_lt hw hy] at h
    split at h <;> split at h <;> omega
  · exact Int.ofNat_inj.mp h

/-! The functions of one lane. -/

section
variable {t : ETy} (ht : t.isFloat = false) {x y : Nat}
include ht

theorem laneAdd_int (rm : RMode) (x y u : Nat) : laneAdd t rm x y u = ((x + y) % 2 ^ (8 * t.bytes), 0) := by
  rw [laneAdd, laneArith, if_neg (by simp [ht]), ← Int.natCast_add, truncInt_natCast]

theorem laneSub_int (rm : RMode) (u : Nat) (hy : y < 2 ^ (8 * t.bytes)) :
    laneSub t rm x y u = ((x + (2 ^ (8 * t.bytes) - y)) % 2 ^ (8 * t.bytes), 0) := by
  rw [laneSub, laneArith, if_neg (by simp [ht]), truncInt_of_add_mul (n := x + (2 ^ (8 * t.bytes) - y)) 1 (by omega)]

theorem laneMul_int (rm : RMode) (x y u : Nat) : laneMul t rm x y u = ((x * y) % 2 ^ (8 * t.bytes), 0) := by
  rw [laneMul, laneArith, if_neg (by simp [ht]), ← Int.natCast_mul, truncInt_natCast]

theorem laneMin_int (num : Bool) (x y : Nat) : laneMinmax t false num x y = (if intOf t x ≤ intOf t y then x else y, 0) := by
  rw [laneMinmax, if_neg (by simp [ht]), if_neg Bool.false_ne_true]
  simp only [← Int.not_le, ite_not]

/-- Lanes that compare equal are the same pattern. -/
theorem laneMax_int (num : Bool) (hx : x < 2 ^ (8 * t.bytes)) (hy : y < 2 ^ (8 * t.bytes)) :
    laneMinmax t true num x y = (if intOf t x ≤ intOf t y then y else x, 0) := by
  rw [laneMinmax, if_neg (by simp [ht]), if_pos rfl]
  rcases Int.lt_trichotomy (intOf t x) (intOf t y) with h | h | h
  · rw [if_pos h, if_pos (Int.le_of_lt h)]
  · rw [intOf_inj hx hy h, ite_self, ite_self]
  · rw [if_neg (by omega), if_neg (by omega)]

theorem laneAbs_int (hs : t.hasSign = true) (hx : x < 2 ^ (8 * t.bytes)) : laneAbs t x =
    ((if x < 2 ^ (8 * t.bytes - 1) then x else 2 ^ (8 * t.bytes) - x) % 2 ^ (8 * t.bytes), 0) := by
  rw [laneAbs, if_neg (by simp [ht]), truncInt_natCast, intOf, if_pos hs, sextNat_of_lt (width_ne_zero t) hx]
  congr 2
  split <;> omega

theorem laneNeg_int (hx : x < 2 ^ (8 * t.bytes)) : laneNeg t x = ((2 ^ (8 * t.bytes) - x) % 2 ^ (8 * t.bytes), 0) := by
  rw [laneNeg, if_neg (by simp [ht]), intOf]
  congr 1
  by_cases hs : t.hasSign = true
  · rw [if_pos hs, sextNat_of_lt (width_ne_zero t) hx]
    split
    · exact truncInt_of_add_mul 1 (by omega)
    · exact truncInt_of_add_mul 0 (by omega)
  · rw [if_neg hs]
    exact truncInt_of_add_mul 1 (by omega)

end

theorem laneShl_mod (t : ETy) (x y : Nat) :
    (laneShl t x y).1 % 2 ^ (8 * t.bytes) = (if y < 8 * t.bytes then x * 2 ^ y else 0) % 2 ^ (8 * t.bytes) := by
  unfold laneShl
  dsimp only
  split
  · rw [Nat.mod_mod, Nat.shiftLeft_eq]
  · rfl

theorem laneShr_eq (t : ETy) (x y : Nat) : laneShr t x y = (if y < 8 * t.bytes then x / 2 ^ y else 0, 0) := by
  unfold laneShr
  rw [Nat.shiftRight_eq_div_pow]

/-- The negative number x − 2^w shifted right by at most w places: the top places fill with ones. -/
theorem truncInt_sra_neg {x w k : Nat} (hk : k ≤ w) :
    truncInt (((x : Int) - (2 ^ w : Nat)) >>> k) w = (x + (2 ^ k - 1) * 2 ^ w) / 2 ^ k % 2 ^ w := by
  obtain ⟨j, rfl⟩ : ∃ j, w = k + j := ⟨w - k, by omega⟩
  have hpos : 0 < 2 ^ k := Nat.two_pow_pos k
  refine truncInt_of_add_mul 1 ?_
  have hsum : ((x + (2 ^ k - 1) * 2 ^ (k + j) : Nat) : Int) = ((x : Int) - (2 ^ (k + j) : Nat)) + (2 ^ k : Nat) * (2 ^ (k + j) : Nat) := by
    rw [Nat.sub_mul, Nat.one_mul, ← Nat.cast_mul]
    have hle : 2 ^ (k + j) ≤ 2 ^ k * 2 ^ (k + j) := Nat.le_mul_of_pos_left _ hpos
    omega
  rw [Int.natCast_ediv, hsum, Int.add_mul_ediv_left _ _ (by omega), Int.shiftRight_eq_div_pow, Int.mul_one]

theorem laneSra_mod {t : ETy} {x : Nat} (y : Nat) (hx : x < 2 ^ (8 * t.bytes)) : (laneSra t x y).1 % 2 ^ (8 * t.bytes) =
    (if x < 2 ^ (8 * t.bytes - 1) then if y < 8 * t.bytes then x / 2 ^ y else 0
      else if y < 8 * t.bytes then (x + (2 ^ y - 1) * 2 ^ (8 * t.bytes)) / 2 ^ y else 2 ^ (8 * t.bytes) - 1) % 2 ^ (8 * t.bytes) := by
  unfold laneSra
  dsimp only
  rw [sextNat_of_lt (width_ne_zero t) hx]
  generalize 8 * t.bytes = w at *
  have hpos : 0 < 2 ^ w := Nat.two_pow_pos w
  split
  · rw [Int.shiftRight_eq_div_pow, ← Int.natCast_ediv, truncInt_natCast, Nat.mod_mod]
    split
    · next hy => rw [Nat.min_eq_left (Nat.le_of_lt hy)]
    · next hy => rw [Nat.min_eq_right (Nat.le_of_not_lt hy), Nat.div_eq_of_lt hx]
  · rw [truncInt_sra_neg (Nat.min_le_right y w), Nat.mod_mod]
    split
    · next hy => rw [Nat.min_eq_left (Nat.le_of_lt hy)]
    · next hy =>
      rw [Nat.min_eq_right (Nat.le_of_not_lt hy), Nat.add_mul_div_right _ _ hpos, Nat.div_eq_of_lt hx, Nat.zero_add]

/-- Settles O18: the shape of each slot, and the value of its function of one lane. -/
theorem integerLanes : Obligations.IntegerLanes := by
  intro s d a b mk t w x y hint hw hx hy
  obtain rfl : x = lane t ((own s).getV a) := funext fun i => (hx i).symm
  obtain rfl : y = lane t ((own s).getV b) := funext fun i => (hy i).symm
  subst hw
  have ht : t.isFloat = false := by simpa [ETy.isInt] using hint
  have hlt := lane_lt t
  refine ⟨?add, ?sub, ?mul, ?min, ?max, ?abs, ?neg, ?shl, ?shr, ?sra, ?bits⟩
  case add =>
    exact fun h => lanesLater_eq (lanesLater_vRound_int h nofun (by decide) ht (lanePairs_map _ _ _ _)) fun i => laneAdd_int ht _ _ _ _
  case sub =>
    exact fun h => lanesLater_eq (lanesLater_vRound_int h nofun (by decide) ht (lanePairs_map _ _ _ _)) fun i => laneSub_int ht _ _ (hlt _ _)
  case mul =>
    exact fun h => lanesLater_eq (lanesLater_vRound_int h nofun (by decide) ht (lanePairs_map _ _ _ _)) fun i => laneMul_int ht _ _ _ _
  case min => exact fun h => lanesLater_eq (lanesLater_vBin h nofun (by decide)) fun i => laneMin_int ht _ _ _
  case max => exact fun h => lanesLater_eq (lanesLater_vBin h nofun (by decide)) fun i => laneMax_int ht _ (hlt _ _) (hlt _ _)
  case abs =>
    refine fun h hs => lanesLater_congr (lanesLater_vUn h nofun (by decide)) fun i _ => ?_
    rw [laneAbs_int ht hs (hlt _ _)]
    exact ⟨Nat.mod_mod _ _, rfl⟩
  case neg =>
    refine fun h => lanesLater_congr (lanesLater_vUn h nofun (by decide)) fun i _ => ?_
    rw [laneNeg_int ht (hlt _ _)]
    exact ⟨Nat.mod_mod _ _, rfl⟩
  case shl => exact fun h => lanesLater_congr (lanesLater_vBin h nofun (by decide)) fun i _ => ⟨laneShl_mod _ _ _, rfl⟩
  case shr => exact fun h => lanesLater_eq (lanesLater_vBin h nofun (by decide)) fun i => laneShr_eq _ _ _
  case sra =>
    refine fun h => lanesLater_congr (lanesLater_vBin h nofun (by decide)) fun i _ => ?_
    rw [← apply_ite fun n => (n, (0 : Flags))]
    exact ⟨laneSra_mod _ (hlt _ _), rfl⟩
  case bits => exact fun op h => lanesLater_vUn h nofun (by decide)

end Sys2Proof.Machine
end

section
/-! PROOFS. spec/05_vector.md R141 to R147, R164, spec/02_numbers.md R63, R72: lanes of a floating type. -/

namespace Sys2Proof.Machine

open Sys2Proof.Safety

theorem laneTriples_map {α : Type} (t : ETy) (r r' r'' : Row) (f : Nat × Nat × Nat → α) :
    ((lanesOf t r).zip ((lanesOf t r').zip (lanesOf t r''))).map f =
      (List.range (lanes t)).map fun i => f (lane t r i, lane t r' i, lane t r'' i) := by
  rw [lanesOf_eq, lanesOf_eq, lanesOf_eq, List.zip_map', List.zip_map', List.map_map]
  rfl

section
variable {i : Instr} {s : State} {d : Reg} {mk : MReg} {t : ETy} {u : Nat → Nat} {after : Ctx → Ctx} (h : Ready i s)
  (hw : ∀ a b wa wb sc k, i ≠ .waitc a b wa wb sc k) (ht : t.isFloat = true)
  (hu : ∀ i, u i = if (own s).vrm = .sr then (draw (own s).cr[0x10] ((own s).counter + BitVec.ofNat 128 i)).toNat % 2 ^ 24 else 0)
  (ha : ∀ c, after c = if (own s).vrm = .sr then (c.setCounter (c.counter + BitVec.ofNat 128 (lanes t))).setRgh false else c)
include h hw ht hu ha

/-- Floating lanes round by VRM.RM, and take counters under SR (R63, R72). -/
theorem lanesLater_vRound_float {left : Nat} {f : Ctx → List (RMode → Nat → Nat × Flags)} {g : Nat → RMode → Nat → Nat × Flags}
    (hl : left ≠ 0) (hf : f (own s) = (List.range (lanes t)).map g) :
    LanesLater (issue i (vRound (left + 1) d mk t f) s) s after left d mk t fun i => g i (own s).vrm (u i) :=
  lanesLater_vRound h hw hl hf (after_keeps ha _) (by rw [if_pos ht]; exact roundBits_eq hu ha)

/-- The FMA family, with the signs of the product and of the addend (R143). -/
theorem lanesLater_vFma {a b : Reg} (na nd : Bool) : LanesLater (issue i (vFma d a b mk t na nd) s) s after 4 d mk t fun i =>
    let x := (fmtOf t).unpack (lane t ((own s).getV a) i)
    let y := (fmtOf t).unpack (lane t ((own s).getV b) i)
    let z := (fmtOf t).unpack (lane t ((own s).getV d) i)
    (fmtOf t).fmaV (own s).vrm (if na then x.negate else x) y (if nd then z.negate else z) (u i) :=
  lanesLater_eq (lanesLater_vRound_float h hw ht hu ha (by decide) (laneTriples_map _ _ _ _ _)) fun _ => rfl

end

/-! The functions of one lane. -/

section
variable {t : ETy} (ht : t.isFloat = true)
include ht

theorem laneArith_float (ff : Fmt → RMode → FVal → FVal → Nat → Nat × Flags) (fi : Int → Int → Int) (rm : RMode) (x y u : Nat) :
    laneArith t ff fi rm x y u = ff (fmtOf t) rm ((fmtOf t).unpack x) ((fmtOf t).unpack y) u := if_pos ht

theorem laneMinmax_float (isMax num : Bool) (x y : Nat) : laneMinmax t isMax num x y = (fmtOf t).minmax isMax num x y := if_pos ht

theorem laneAbs_float (x : Nat) : laneAbs t x = (x % 2 ^ (8 * t.bytes - 1), 0) := if_pos ht

theorem laneNeg_float (x : Nat) : laneNeg t x = (x ^^^ 2 ^ (8 * t.bytes - 1), 0) := if_pos ht

end

/-- Settles O19: the shape of each slot, with its function of one lane at a floating type. -/
theorem floatLanes : Obligations.FloatLanes := by
  rintro s d a b mk t _ _ x y z u after ht rfl rfl hx hy hz hu ha
  obtain rfl : x = lane t ((own s).getV a) := funext fun i => (hx i).symm
  obtain rfl : y = lane t ((own s).getV b) := funext fun i => (hy i).symm
  obtain rfl : z = lane t ((own s).getV d) := funext fun i => (hz i).symm
  refine ⟨?add, ?sub, ?mul, ?fma, ?fms, ?fnm, ?scl, ?min, ?max, ?minm, ?maxm, ?abs, ?neg, ?sfn⟩
  case add =>
    exact fun h => lanesLater_eq (lanesLater_vRound_float h nofun ht hu ha (by decide) (lanePairs_map _ _ _ _))
      fun i => laneArith_float ht _ _ _ _ _ _
  case sub =>
    exact fun h => lanesLater_eq (lanesLater_vRound_float h nofun ht hu ha (by decide) (lanePairs_map _ _ _ _))
      fun i => laneArith_float ht _ _ _ _ _ _
  case mul =>
    exact fun h => lanesLater_eq (lanesLater_vRound_float h nofun ht hu ha (by decide) (lanePairs_map _ _ _ _))
      fun i => laneArith_float ht _ _ _ _ _ _
  case fma => exact fun h => lanesLater_vFma h nofun ht hu ha false false
  case fms => exact fun h => lanesLater_vFma h nofun ht hu ha false true
  case fnm => exact fun h => lanesLater_vFma h nofun ht hu ha true false
  case scl =>
    refine fun h => lanesLater_vRound_float (g := fun i rm v => laneScl t ((own s).getX b).toInt rm (lane t ((own s).getV a) i) v)
      h nofun ht hu ha (by decide) ?_
    dsimp only
    rw [lanesOf_eq, List.map_map]
    rfl
  case min => exact fun h => lanesLater_eq (lanesLater_vBin h nofun (by decide)) fun i => laneMinmax_float ht _ _ _ _
  case max => exact fun h => lanesLater_eq (lanesLater_vBin h nofun (by decide)) fun i => laneMinmax_float ht _ _ _ _
  case minm => exact fun h => lanesLater_eq (lanesLater_vBin h nofun (by decide)) fun i => laneMinmax_float ht _ _ _ _
  case maxm => exact fun h => lanesLater_eq (lanesLater_vBin h nofun (by decide)) fun i => laneMinmax_float ht _ _ _ _
  case abs => exact fun h => lanesLater_eq (lanesLater_vUn h nofun (by decide)) fun i => laneAbs_float ht _
  case neg => exact fun h => lanesLater_eq (lanesLater_vUn h nofun (by decide)) fun i => laneNeg_float ht _
  case sfn => exact fun fn h => lanesLater_vUn h nofun (by decide)

end Sys2Proof.Machine
end

section
/-! PROOFS. spec/05_vector.md R148, R165: comparisons, masks and counts. -/

namespace Sys2Proof.Machine

open Sys2Proof.Safety

theorem countActive_eq (t : ETy) (m : Mask) : (activeLanes t m).countP id = ((List.range (lanes t)).filter fun i => m.getLsbD (t.bytes * i)).length := by
  rw [activeLanes_eq, List.countP_map, List.countP_eq_length_filter]
  rfl

/-- A comparison's bits and flags are on their way (R148). -/
theorem resultLater_vcmp {s : State} {e : MReg} {k : VCond} {a b : Reg} {mk : MReg} {t : ETy} (h : Ready (.vcmp e k a b mk t) s)
    {c : Nat → Bool × Flags} (hc : ∀ i, laneCmp t k (lane t ((own s).getV a) i) (lane t ((own s).getV b) i) = c i) :
    ResultLater (exec (.vcmp e k a b mk t) s) s id 3
      (.m e (laneMask t ((List.range (lanes t)).map fun i => (c i).1)) (governed t ((own s).getM mk)))
      (gatherFlags ((activeLanes t ((own s).getM mk)).zip ((List.range (lanes t)).map fun i => (c i).2))) := by
  obtain rfl := funext hc
  refine resultLater_addPend h nofun (by decide) rfl ?_
  dsimp only
  rw [lanePairs_map, List.map_map, List.map_map]
  rfl

/-- Settles O20: the mask that VCMP's lanes make, VMSK's function of its masks, and VMCNT's count. -/
theorem maskResults : Obligations.MaskResults := by
  rintro s e f a b d mk t k x y _ _ hx hy rfl rfl
  obtain rfl : x = lane t ((own s).getV a) := funext fun i => (hx i).symm
  obtain rfl : y = lane t ((own s).getV b) := funext fun i => (hy i).symm
  refine ⟨fun h => ?cmp, fun op h => ?msk, fun h => ?cnt⟩
  case cmp =>
    refine ⟨_, _, _, resultLater_vcmp h fun i => rfl, fun q hq => governed_getLsbD t _ hq, fun q hq => laneMask_range _ hq, fun j => ?_⟩
    exact gatherFlags_range _ _ _ j
  case msk => exact resultLater_addPend h nofun (by decide) rfl rfl
  case cnt => exact writesLater_congr (writesLater_xRes h nofun (by decide)) (congrArg wordOfNat (countActive_eq _ _))

end Sys2Proof.Machine
end

section
/-! PROOFS. spec/05_vector.md R149, R150, R160: logic, selection, permutes and moves. -/

namespace Sys2Proof.Machine

open Sys2Proof.Safety

/-! Lanes of rows put together by bits. -/

theorem lane_and (t : ETy) (r r' : Row) (i : Nat) : lane t (r &&& r') i = lane t r i &&& lane t r' i := by
  simp only [lane, BitVec.bits, BitVec.toNat_and, Nat.shiftRight_and_distrib, Nat.and_mod_two_pow]

theorem lane_or (t : ETy) (r r' : Row) (i : Nat) : lane t (r ||| r') i = lane t r i ||| lane t r' i := by
  simp only [lane, BitVec.bits, BitVec.toNat_or, Nat.shiftRight_or_distrib, Nat.or_mod_two_pow]

theorem lane_xor (t : ETy) (r r' : Row) (i : Nat) : lane t (r ^^^ r') i = lane t r i ^^^ lane t r' i := by
  simp only [lane, BitVec.bits, BitVec.toNat_xor, Nat.shiftRight_xor_distrib, Nat.xor_mod_two_pow]

/-- The bytes of a lane are governed together (R139). -/
theorem expandGoverned_getLsbD {t : ETy} (m : Mask) {i j : Nat} (hi : i < lanes t) (hj : j < 8 * t.bytes) :
    (expandMask (governed t m)).getLsbD (8 * t.bytes * i + j) = m.getLsbD (t.bytes * i) := by
  have hbit := laneBit_lt hi hj
  have hbyte : (8 * t.bytes * i + j) / 8 = t.bytes * i + j / 8 := by rw [Nat.mul_assoc, Nat.mul_add_div (by decide)]
  have hlane : (t.bytes * i + j / 8) / t.bytes = i := by
    rw [Nat.mul_add_div (bytes_pos t), Nat.div_eq_of_lt (by omega), Nat.add_zero]
  rw [expandMask_getLsbD _ hbit, governed_getLsbD t m (by omega), hbyte, hlane, Nat.mul_comm]

/-- Of two rows, the lanes of the one where a mask governs, and of the other where it does not (R149). -/
theorem lane_select {t : ETy} (m : Mask) (r r' : Row) {i : Nat} (hi : i < lanes t) :
    lane t ((r &&& expandMask (governed t m)) ||| (r' &&& ~~~expandMask (governed t m))) i =
      if m.getLsbD (t.bytes * i) then lane t r i else lane t r' i := by
  apply Nat.eq_of_testBit_eq
  intro j
  rw [lane_testBit]
  by_cases hj : j < 8 * t.bytes
  · have hbit := laneBit_lt hi hj
    rw [BitVec.getLsbD_or, BitVec.getLsbD_and, BitVec.getLsbD_and, BitVec.getLsbD_not, expandGoverned_getLsbD m hi hj, decide_eq_true hbit]
    cases m.getLsbD (t.bytes * i) <;> simp [lane_testBit]
  · split <;> simp [lane_testBit, hj]

/-- A number shifted to the place of a lane is that lane (R160). -/
theorem lane_shiftLeft {t : ETy} {j v : Nat} (hj : j < lanes t) (hv : v < 2 ^ (8 * t.bytes)) :
    lane t (BitVec.ofNat 16384 (v <<< (8 * t.bytes * j))) j = v := by
  apply Nat.eq_of_testBit_eq
  intro k
  rw [lane_testBit]
  by_cases hk : k < 8 * t.bytes
  · rw [BitVec.getLsbD_ofNat, decide_eq_true hk, decide_eq_true (laneBit_lt hj hk), Nat.testBit_shiftLeft]
    simp
  · rw [decide_eq_false hk, Bool.false_and, Nat.testBit_lt_two_pow (hv.trans_le (Nat.pow_le_pow_right (by decide) (Nat.le_of_not_lt hk)))]

/-! The slots. -/

/-- A row whose governed bytes are on their way, with no flag (R150). -/
theorem lanesLater_vBits {i : Instr} {s : State} {left : Nat} {d : Reg} {mk : MReg} {t : ETy} {f : Ctx → Row} {g : Nat → Nat} (h : Ready i s)
    (hw : ∀ a b wa wb sc k, i ≠ .waitc a b wa wb sc k) (hl : left ≠ 0) (hg : ∀ i, lane t (f (own s)) i = g i) :
    LanesLater (issue i (vBits (left + 1) d mk t f) s) s id left d mk t fun i => (g i, 0) := by
  refine ⟨_, _, _, resultLater_addPend h hw hl rfl rfl, fun i _ => ?_, fun q hq => governed_getLsbD t _ hq, fun k => ?_⟩
  · dsimp only
    rw [← hg, Nat.mod_eq_of_lt (lane_lt _ _ _)]
  · simp

theorem extLane_eq (t : ETy) (r : Row) (i : Word) : extLane t r i =
    if t.isInt && t.hasSign then BitVec.ofInt 64 (sextNat (lane t r (i.toNat % lanes t)) (8 * t.bytes))
    else BitVec.ofNat 64 (lane t r (i.toNat % lanes t)) := by
  rw [Bool.and_comm]
  rfl

/-- VEXT's effect: from a full row a result, from an empty one an access (R102, R160). -/
def vextEffect (d a b : Reg) (t : ETy) (s : State) : Out :=
  if s.iss.fullV.getLsbD a.toNat then .next (s.modCtx s.cur fun c => c.addX 2 d (extLane t (c.getV a) (c.getX b)))
  else .next (s.addAccess s.cur (.vext d a b t) fun c e => { e with vb := c.getX b })

theorem exec_vext (d a b : Reg) (t : ETy) (s : State) : exec (.vext d a b t) s = issue (.vext d a b t) (vextEffect d a b t) s := rfl

theorem writesLater_vext {s : State} {d a b : Reg} {t : ETy} (h : Ready (.vext d a b t) s) (hfull : (own s).vFull a = true) :
    WritesLater (exec (.vext d a b t) s) s 1 d (extLane t ((own s).getV a) ((own s).getX b)) := by
  have heff : vextEffect d a b t (opened s) =
      .next ((opened s).modCtx s.cur fun c => c.addX 2 d (extLane t (c.getV a) (c.getX b))) := if_pos hfull
  have hdoes := does_of (s' := s) (f := fun c => c.addX 2 d (extLane t (c.getV a) (c.getX b))) h nofun heff
    rfl (fun _ hk => State.ctxAt_modCtx_ne _ _ _ _ hk) (State.ctxAt_modCtx_self _ _ _) rfl rfl (ready_drain_ne_rft h (addX_drain _ _ _ _))
  rw [exec_vext]
  exact writesLater_of_does (by decide) (does_congr hdoes rfl)

theorem starts_vext {s : State} {d a b : Reg} {t : ETy} (h : Ready (.vext d a b t) s) (hempty : (own s).vFull a = false) :
    Starts (exec (.vext d a b t) s) s { access s (.vext d a b t) with vb := (own s).getX b } := by
  have heff : vextEffect d a b t (opened s) =
      .next ((opened s).addAccess s.cur (.vext d a b t) fun c e => { e with vb := c.getX b }) :=
    if_neg (Bool.eq_false_iff.mp hempty)
  rw [exec_vext]
  exact starts_of h nofun heff rfl rfl rfl rfl

/-- VINS has one lane on its way, governed by its bit (R160). -/
theorem resultLater_vins {s : State} {d a b : Reg} {mk : MReg} {t : ETy} (h : Ready (.vins d a b mk t) s) {j : Nat}
    (hj : ((own s).getX b).toNat % lanes t = j) : ResultLater (exec (.vins d a b mk t) s) s id 1
      (.v d (BitVec.ofNat 16384 (((own s).getX a).bits 0 (8 * t.bytes) <<< (8 * t.bytes * j)))
        (laneMask t ((List.range (lanes t)).map fun i => i = j && ((own s).getM mk).getLsbD (t.bytes * j)))) 0 := by
  subst hj
  exact resultLater_addPend h nofun (by decide) rfl rfl

/-- Settles O21: the lanes of the row that each slot has on its way. -/
theorem laneMoves : Obligations.LaneMoves := by
  intro s d a b mk t x y hx hy
  obtain rfl : x = lane t ((own s).getV a) := funext fun i => (hx i).symm
  obtain rfl : y = lane t ((own s).getV b) := funext fun i => (hy i).symm
  have hlanes : 0 < lanes t := by cases t <;> decide
  refine ⟨?and, ?or, ?xor, ?mov, ?sel, ?perm, ?bcst, ?iota, ?ins, ?extFull, ?extEmpty⟩
  case and => exact fun h => lanesLater_vBits h nofun (by decide) fun i => lane_and _ _ _ _
  case or => exact fun h => lanesLater_vBits h nofun (by decide) fun i => lane_or _ _ _ _
  case xor => exact fun h => lanesLater_vBits h nofun (by decide) fun i => lane_xor _ _ _ _
  case mov => exact fun h => lanesLater_vBits h nofun (by decide) fun i => rfl
  case sel =>
    refine fun h => ⟨_, resultLater_addPend h nofun (by decide) rfl rfl, fun i hi => ?_⟩
    dsimp only
    rw [lane_select _ _ _ hi, Nat.mod_eq_of_lt (by split <;> exact lane_lt _ _ _)]
  case perm =>
    refine fun h => lanesLater_addLanes h nofun (by decide) rfl rfl ?_
    dsimp only
    rw [lanesOf_eq, List.map_map]
    rfl
  case bcst =>
    refine fun h => lanesLater_congr (lanesLater_addLanes (g := fun _ => (((own s).getX a).bits 0 (8 * t.bytes), 0)) h nofun (by decide) rfl rfl ?_)
      fun i _ => ⟨Nat.mod_mod _ _, rfl⟩
    rw [List.map_const', List.length_range]
    rfl
  case iota =>
    refine fun h => lanesLater_congr (lanesLater_addLanes h nofun (by decide) rfl rfl rfl) fun i _ => ⟨?_, rfl⟩
    dsimp only
    split
    · rfl
    · exact Nat.mod_mod _ _
  case ins =>
    refine fun h => ⟨_, _, resultLater_vins h rfl, ?_⟩
    rintro j rfl
    have hj := Nat.mod_lt ((own s).getX b).toNat hlanes
    exact ⟨lane_shiftLeft hj (bits_lt _ _ _), fun q hq => laneMask_range _ hq⟩
  case extFull => exact fun h hfull => writesLater_congr (writesLater_vext h hfull) (extLane_eq _ _ _)
  case extEmpty => exact starts_vext

end Sys2Proof.Machine
end

section
/-! PROOFS. spec/05_vector.md R158, R159: reductions and scans. -/

namespace Sys2Proof.Machine

open Sys2Proof.Safety

/-- The lanes of a row with z for the inactive ones (R158, R159). -/
theorem maskedLanes_eq (t : ETy) (m : Mask) (r : Row) (z : Nat) : ((activeLanes t m).zip (lanesOf t r)).map (fun p => if p.1 then p.2 else z) =
    (List.range (lanes t)).map fun i => if m.getLsbD (t.bytes * i) then lane t r i else z := by
  rw [activeLanes_eq, lanesOf_eq, List.zip_map', List.map_map]
  rfl

/-- A number in a row's lowest place is lane 0, and every other lane is zero. -/
theorem lane_lowest {t : ETy} (r : Nat) {i : Nat} (hi : i < lanes t) :
    lane t (BitVec.ofNat 16384 (r % 2 ^ (8 * t.bytes))) i = (if i = 0 then r else 0) % 2 ^ (8 * t.bytes) := by
  have hrow : BitVec.ofNat 16384 (r % 2 ^ (8 * t.bytes)) = rowOf t [r] := by simp [rowOf]
  rw [hrow, lane_rowOf hi]
  cases i <;> rfl

/-- The running sums from a on (R159). -/
theorem scanFrom_range (t : ETy) (n : Nat) (a : Nat) (x : Nat → Nat) (p : Nat → Nat × Flags)
    (hp : ∀ i, p i = laneAdd t .rne (if i = 0 then a else (p (i - 1)).1) (x i) 0) :
    scanFrom t a ((List.range n).map x) = (List.range n).map p := by
  induction n generalizing a x p with
  | zero => rfl
  | succ n ih =>
    have h0 : laneAdd t .rne a (x 0) 0 = p 0 := (hp 0).symm
    have hrest : ∀ i, p (i + 1) = laneAdd t .rne (if i = 0 then (p 0).1 else (p (i - 1 + 1)).1) (x (i + 1)) 0 := by
      intro i
      rw [hp (i + 1)]
      cases i <;> rfl
    rw [List.range_succ_eq_map, List.map_cons, List.map_cons, List.map_map, List.map_map, scanFrom, h0]
    exact congrArg (p 0 :: ·) (ih _ _ _ hrest)

/-- Settles O22: the tree over the masked lanes, and the running sums of them. -/
theorem reductions : Obligations.Reductions := by
  intro s d a mk t x hx
  obtain rfl : x = lane t ((own s).getV a) := funext fun i => (hx i).symm
  refine ⟨fun op r fl h htree => ?red, fun p h hp => ?scan, fun hint i j => ?sum⟩
  case red =>
    refine ⟨_, resultLater_addPend h nofun (by decide) rfl ?_, fun i hi => lane_lowest r hi⟩
    dsimp only
    rw [maskedLanes_eq, htree]
    rfl
  case scan =>
    refine lanesLater_addLanes h nofun (by decide) rfl rfl ?_
    dsimp only
    rw [maskedLanes_eq, scanFrom_range t _ _ _ p hp]
    rfl
  case sum => exact laneAdd_int (by simpa [ETy.isInt] using hint) _ _ _ _

end Sys2Proof.Machine
end

section
/-! PROOFS. spec/05_vector.md R162, R163, spec/02_numbers.md R72: slots that take a draw for each lane. -/

namespace Sys2Proof.Machine

open Sys2Proof.Safety

/-- A ready slot that takes a draw for each lane, and has the lanes that g gives on their way. -/
theorem lanesLater_draws {i : Instr} {s : State} {e after : Ctx → Ctx} {left : Nat} {d : Reg} {mk : MReg} {t : ETy} {g : Nat → Nat × Flags}
    (h : Ready i s) (hw : ∀ a b wa wb sc k, i ≠ .waitc a b wa wb sc k) (hl : left ≠ 0)
    (ha : ∀ c, after c = (c.setCounter (c.counter + BitVec.ofNat 128 (lanes t))).setRgh false)
    (he : e (own s) = ((own s).takeDraws (lanes t)).addLanes (left + 1) d mk t ((List.range (lanes t)).map g)) :
    LanesLater (issue i (onCtx e) s) s after left d mk t g := by
  have htake : (own s).takeDraws (lanes t) = after (own s) := (ha _).symm
  rw [htake] at he
  exact lanesLater_addLanes h hw hl (by rw [ha]; rfl) (by rw [ha]; rfl) he

/-- VRAND's lane i: its draw's low bits, or 24 of them as a fraction (R163). -/
def randomLane (c : Ctx) (uniform : Bool) (t : ETy) (i : Nat) : Nat × Flags :=
  let r := (draw c.cr[0x10] (c.counter + BitVec.ofNat 128 i)).toNat
  (if uniform then uniformF32 (r % 2 ^ 24) else r % 2 ^ (8 * t.bytes), 0)

theorem exec_vrand (d : Reg) (uniform : Bool) (mk : MReg) (t : ETy) (s : State) :
    exec (.vrand d uniform mk t) s = issue (.vrand d uniform mk t) (onCtx fun c =>
      (c.takeDraws (lanes t)).addLanes 4 d mk t ((List.range (lanes t)).map (randomLane c uniform t))) s := rfl

theorem lanesLater_vrand {s : State} {d : Reg} {uniform : Bool} {mk : MReg} {t : ETy} {after : Ctx → Ctx} (h : Ready (.vrand d uniform mk t) s)
    (ha : ∀ c, after c = (c.setCounter (c.counter + BitVec.ofNat 128 (lanes t))).setRgh false) :
    LanesLater (exec (.vrand d uniform mk t) s) s after 3 d mk t (randomLane (own s) uniform t) := by
  rw [exec_vrand]
  exact lanesLater_draws h nofun (by decide) ha rfl

/-- Settles O23: each slot by its function of a lane's draw. -/
theorem randomLanes : Obligations.RandomLanes := by
  intro s d a b mk t x r after hx hr ha
  obtain rfl : x = lane t ((own s).getV a) := funext fun i => (hx i).symm
  refine ⟨fun h => ?raw, fun h => ?uniform, fun h => ?prune⟩
  case raw =>
    refine lanesLater_congr (lanesLater_vrand h ha) fun i _ => ?_
    rw [randomLane, hr, if_neg Bool.false_ne_true]
    exact ⟨Nat.mod_mod _ _, rfl⟩
  case uniform =>
    refine lanesLater_eq (lanesLater_vrand h ha) fun i => ?_
    rw [randomLane, hr, if_pos rfl, uniformF32]
  case prune =>
    have hdraws : (own s).draws (laneCount t) = (List.range (lanes t)).map fun i => r i % 2 ^ 24 :=
      List.map_congr_left fun i _ => congrArg (· % 2 ^ 24) (hr i)
    refine lanesLater_draws h nofun (by decide) ha ?_
    dsimp only
    rw [lanesOf_eq, hdraws, List.zip_map', List.map_map]
    rfl

end Sys2Proof.Machine
end

section
/-! PROOFS. spec/05_vector.md R152 to R154: conversions across register groups. -/

namespace Sys2Proof.Machine

open Sys2Proof.Safety

/-! The two sides of a conversion (R152): facts of the eight types' widths. -/

theorem lanes_pos (t : ETy) : 0 < lanes t := by cases t <;> decide

theorem lanes_dvd_max (t t' : ETy) : lanes t ∣ max (lanes t) (lanes t') := by cases t <;> cases t' <;> decide

theorem lanes_mul_group (t t' : ETy) : lanes t * (max (lanes t) (lanes t') / lanes t) = max (lanes t) (lanes t') :=
  Nat.mul_div_cancel' (lanes_dvd_max t t')

theorem group_size (t t' : ETy) : max (lanes t) (lanes t') / lanes t = if t.bytes > t'.bytes then t.bytes / t'.bytes else 1 := by
  cases t <;> cases t' <;> decide

theorem lanes_narrow (t t' : ETy) : lanes (if t.bytes ≤ t'.bytes then t else t') = max (lanes t) (lanes t') := by
  cases t <;> cases t' <;> decide

theorem bytes_eq_div_lanes (t : ETy) : t.bytes = 2048 / lanes t := by cases t <;> decide

/-- The registers of a group, in order. -/
theorem cvtRegs_eq (r : Reg) (t t' : ETy) : cvtRegs r t t' = (List.range (max (lanes t) (lanes t') / lanes t)).map fun j => r + BitVec.ofNat 6 j := by
  rw [cvtRegs, group_size]
  split
  · refine List.map_congr_left fun j _ => BitVec.eq_of_toNat_eq ?_
    simp
  · simp [List.range_succ]

/-- The lanes of a group are its elements. -/
theorem groupLanes_eq (c : Ctx) (t : ETy) (r : Nat → Reg) (q : Nat) : groupLanes c t ((List.range q).map r) =
    (List.range (lanes t * q)).map fun e => lane t (c.getV (r (e / lanes t))) (e % lanes t) := by
  have hpos := lanes_pos t
  induction q with
  | zero => rfl
  | succ q ih =>
    unfold groupLanes at ih ⊢
    rw [List.range_succ, List.map_append, List.flatMap_append, ih, Nat.mul_succ, List.range_add, List.map_append, List.map_map]
    congr 1
    rw [List.map_singleton, List.flatMap_singleton, lanesOf_eq]
    refine List.map_congr_left fun i hi => ?_
    have hi := List.mem_range.mp hi
    simp only [Function.comp_apply, Nat.mul_add_div hpos, Nat.div_eq_of_lt hi, Nat.mul_add_mod, Nat.mod_eq_of_lt hi, Nat.add_zero]

/-- The j-th k of a range's images. -/
theorem take_drop_range {α : Type} (g : Nat → α) {k q j : Nat} (hj : j < q) :
    (((List.range (k * q)).map g).drop (k * j)).take k = (List.range k).map fun i => g (k * j + i) := by
  obtain ⟨p, rfl⟩ : ∃ p, q = j + (1 + p) := ⟨q - j - 1, by omega⟩
  rw [Nat.mul_add, Nat.mul_add, Nat.mul_one, List.range_add, List.range_add, List.map_append, List.map_append, List.drop_left' (by simp),
    List.map_append, List.take_left' (by simp), List.map_map]
  rfl

/-! The results of a group. -/

/-- The j-th result of a group: its own lanes of the elements l, enabled and with flags as their governing bits act say. -/
def groupResult (left : Nat) (m : Mask) (dt : ETy) (l : List (Nat × Flags)) (act : List Bool) (j : Nat) (r : Reg) : Pending :=
  let here := (l.drop (lanes dt * j)).take (lanes dt)
  let a := (act.drop (lanes dt * j)).take (lanes dt)
  { due := left, res := .v r (rowOf dt (here.map (·.1))) (if m = BitVec.allOnes 2048 then m else laneMask dt a)
    flags := gatherFlags (a.zip (here.map (·.2))) }

/-- The results of a group are added one by one, and a bundle later each is due one bundle sooner. -/
theorem aged_addGroup {left : Nat} (hl : left ≠ 0) (m : Mask) (narrow dt : ETy) : ∀ (rs : List Reg) (l : List (Nat × Flags)) (act : List Bool) (c : Ctx),
    aged (addGroup (left + 1) m narrow dt rs l act c) =
      { aged c with pend := (aged c).pend ++ rs.mapIdx (groupResult left m dt l act) }
  | [], _, _, c => by
    rw [List.mapIdx_nil, List.append_nil]
    rfl
  | r :: rs, l, act, c => by
    have hshift : ∀ j, groupResult left m dt (l.drop (lanes dt)) (act.drop (lanes dt)) j = groupResult left m dt l act (j + 1) := by
      intro j
      funext r
      simp only [groupResult, List.drop_drop, Nat.mul_succ, Nat.add_comm]
    rw [addGroup]
    dsimp only
    rw [aged_addGroup hl m narrow dt rs, aged_addPend, if_neg (by omega), List.mapIdx_cons, show laneCount dt = lanes dt from rfl, funext hshift]
    simp only [List.append_assoc, List.singleton_append]
    rfl

theorem addGroup_drain (lat : Nat) (m : Mask) (narrow dt : ETy) : ∀ (rs : List Reg) (l : List (Nat × Flags)) (act : List Bool) (c : Ctx),
    (addGroup lat m narrow dt rs l act c).drain = c.drain
  | [], _, _, _ => rfl
  | r :: rs, l, act, c => by
    rw [addGroup]
    exact addGroup_drain lat m narrow dt rs _ _ _

/-- One result of a group whose elements are g, governed as act says: its lanes, its enables and its flags. -/
theorem groupResult_spec {left : Nat} {m : Mask} {dt narrow : ETy} {g : Nat → Nat × Flags} {q j : Nat} (r : Reg) (hj : j < q)
    (hn : lanes dt * q = lanes narrow) {p : Pending}
    (hp : groupResult left m dt ((List.range (lanes dt * q)).map g) ((List.range (lanes dt * q)).map fun e => m.getLsbD (narrow.bytes * e)) j r = p) :
    ∃ row en, p.due = left ∧ p.res = .v r row en ∧
      (∀ i, i < lanes dt → lane dt row i = (g (j * lanes dt + i)).1 % 2 ^ (8 * dt.bytes)) ∧
      (∀ b, b < 2048 → en.getLsbD b = m.getLsbD (narrow.bytes * (j * lanes dt + b / dt.bytes))) ∧
      ∀ k, p.flags.getLsbD k = true ↔ ∃ i, i < lanes dt ∧ m.getLsbD (narrow.bytes * (j * lanes dt + i)) = true ∧
        (g (j * lanes dt + i)).2.getLsbD k = true := by
  subst hp
  unfold groupResult
  dsimp only
  rw [take_drop_range _ hj, take_drop_range _ hj, List.map_map, List.map_map, Nat.mul_comm (lanes dt) j]
  refine ⟨_, _, rfl, rfl, fun i hi => lane_rowOf_map hi _, fun b hb => ?_, fun k => gatherFlags_range _ _ _ k⟩
  split
  · next hm =>
    have hlane := byte_div_lt_lanes (t := dt) hb
    have helem : j * lanes dt + b / dt.bytes < lanes narrow := by
      calc j * lanes dt + b / dt.bytes < (j + 1) * lanes dt := by rw [Nat.add_mul, Nat.one_mul]; omega
        _ ≤ q * lanes dt := Nat.mul_le_mul_right _ hj
        _ = lanes narrow := by rw [Nat.mul_comm, hn]
    rw [hm, BitVec.getLsbD_allOnes, BitVec.getLsbD_allOnes, decide_eq_true hb, decide_eq_true (governingBit_lt helem)]
  · exact laneMask_range _ hb

/-! The slot. -/

/-- What VCVT makes of its context. -/
def converted (c : Ctx) (d a : Reg) (dt : ETy) (rm : RMode) (mk : MReg) (t : ETy) : Ctx :=
  let narrow := if t.bytes ≤ dt.bytes then t else dt
  let r := c.roundBits rm (laneCount narrow)
  addGroup 4 (c.getM mk) narrow dt (cvtRegs d dt t) (((groupLanes c t (cvtRegs a t dt)).zip r.1).map fun p => cvtElem t dt rm p.1 p.2)
    (activeLanes narrow (c.getM mk)) r.2

theorem exec_vcvt (d a : Reg) (dt : ETy) (rm : RMode) (mk : MReg) (t : ETy) (s : State) :
    exec (.vcvt d a dt rm mk t) s = issue (.vcvt d a dt rm mk t) (onCtx fun c => converted c d a dt rm mk t) s := rfl

/-- The elements of the one side, converted with their random bits, go to the registers of the other (R152 to R154). -/
theorem converted_eq {c : Ctx} {d a : Reg} {dt : ETy} {rm : RMode} {mk : MReg} {t narrow : ETy} {n : Nat} {x u : Nat → Nat} {after : Ctx → Ctx}
    (hn : n = max (lanes t) (lanes dt)) (hnarrow : (if t.bytes ≤ dt.bytes then t else dt) = narrow)
    (hx : ∀ e, e < n → lane t (c.getV (a + BitVec.ofNat 6 (e / lanes t))) (e % lanes t) = x e)
    (hu : ∀ e, u e = if rm = .sr then (draw c.cr[0x10] (c.counter + BitVec.ofNat 128 e)).toNat % 2 ^ 24 else 0)
    (ha : ∀ c, after c = if rm = .sr then (c.setCounter (c.counter + BitVec.ofNat 128 n)).setRgh false else c) :
    converted c d a dt rm mk t = addGroup 4 (c.getM mk) narrow dt ((List.range (n / lanes dt)).map fun j => d + BitVec.ofNat 6 j)
      ((List.range n).map fun e => cvtElem t dt rm (x e) (u e)) ((List.range n).map fun e => (c.getM mk).getLsbD (narrow.bytes * e)) (after c) := by
  have hlanes : lanes narrow = n := by rw [← hnarrow, lanes_narrow, hn]
  have hround : c.roundBits rm (laneCount narrow) = ((List.range n).map u, after c) := by
    rw [show laneCount narrow = n from hlanes]
    exact roundBits_eq hu ha
  have hsource : groupLanes c t (cvtRegs a t dt) = (List.range n).map x := by
    rw [cvtRegs_eq, groupLanes_eq, lanes_mul_group, ← hn]
    exact List.map_congr_left fun e he => hx e (List.mem_range.mp he)
  have hdest : cvtRegs d dt t = (List.range (n / lanes dt)).map fun j => d + BitVec.ofNat 6 j := by rw [cvtRegs_eq, Nat.max_comm, ← hn]
  unfold converted
  dsimp only
  rw [hnarrow, hround, hsource, hdest, activeLanes_eq, hlanes, List.zip_map', List.map_map]
  rfl

/-- Settles O24: the results of the destination's group, each from its own elements. -/
theorem conversions : Obligations.Conversions := by
  intro s d a t dt rm mk n x u after h hn hx hu ha
  obtain ⟨narrow, hnarrow⟩ : ∃ narrow, (if t.bytes ≤ dt.bytes then t else dt) = narrow := ⟨_, rfl⟩
  have hlanes : lanes narrow = n := by rw [← hnarrow, lanes_narrow, hn]
  have hgroup : lanes dt * (n / lanes dt) = n := by rw [hn, Nat.max_comm, lanes_mul_group]
  have hbytes : 2048 / n = narrow.bytes := by rw [← hlanes, ← bytes_eq_div_lanes]
  have hconv := converted_eq (d := d) (mk := mk) hn hnarrow hx hu ha
  have hdrain : (converted (own s) d a dt rm mk t).drain = (own s).drain := by rw [hconv, addGroup_drain, after_keeps ha]
  obtain ⟨w, ho, hown, hctx⟩ := does_onCtx (f := fun c => converted c d a dt rm mk t) h nofun (ready_drain_ne_rft h hdrain)
  dsimp only at hctx
  rw [hconv, aged_addGroup (by decide)] at hctx
  refine ⟨w, _, ho, hown, by rw [List.length_mapIdx, List.length_map, List.length_range], hctx, fun j p hp => ?_⟩
  rw [List.getElem?_mapIdx, List.getElem?_map, Option.map_map] at hp
  obtain ⟨i, hi, hp⟩ := Option.map_eq_some_iff.mp hp
  obtain ⟨hj, hi⟩ := List.getElem?_eq_some_iff.mp hi
  rw [List.length_range] at hj
  rw [List.getElem_range] at hi
  subst hi
  rw [hbytes]
  rw [← hgroup] at hp
  exact groupResult_spec _ hj (by rw [hgroup, hlanes]) hp

end Sys2Proof.Machine
end

section
/-! PROOFS. spec/05_vector.md R155 to R157: VQMX. -/

namespace Sys2Proof.Machine

open Sys2Proof.Safety

/-- The store that a VQMX with the writes w is while they are outstanding. -/
def qmxStore (v : Word) (w : List (Nat × Nat × Nat)) (e : Access) : Access :=
  { e with vb := v, wr := w, st := .ready { key := scrKey (v.bits 0 31) } none }

/-- VQMX's effect. -/
def vqmxEffect (a b : Reg) (mk : MReg) (t : ETy) (s : State) : Out :=
  let c := s.ctxAt s.cur
  let x := c.getX b
  let rm := (RMode.ofCode (x.extractLsb' 35 3)).getD .rne
  let r := c.roundBits rm (laneCount t)
  let q := qmxAll t (x.bits 31 4) rm (x.bits 0 31) (x.bits 38 22) (activeLanes t (c.getM mk)) (lanesOf t (c.getV a)) r.1
  let s := s.setCtx s.cur (r.2.addPend 4 .flags q.2)
  .next (if q.1.isEmpty then s else s.addAccess s.cur (.vqmx a b mk t) fun _ => qmxStore x q.1)

theorem exec_vqmx (a b : Reg) (mk : MReg) (t : ETy) (s : State) :
    exec (.vqmx a b mk t) s = issue (.vqmx a b mk t) (vqmxEffect a b mk t) s := rfl

/-- The quantisation of the governed blocks, with the random bits of the lanes, decides the flags and the writes. -/
theorem vqmxEffect_opened {s : State} {a b : Reg} {mk : MReg} {t : ETy} {rm : RMode} {u : Nat → Nat} {after : Ctx → Ctx}
    {w : List (Nat × Nat × Nat)} {fl : Flags} (hrm : RMode.ofCode (((own s).getX b).extractLsb' 35 3) = some rm)
    (hr : (own s).roundBits rm (lanes t) = ((List.range (lanes t)).map u, after (own s)))
    (hq : qmxAll t (((own s).getX b).bits 31 4) rm (((own s).getX b).bits 0 31) (((own s).getX b).bits 38 22)
      ((List.range (lanes t)).map fun i => ((own s).getM mk).getLsbD (t.bytes * i)) ((List.range (lanes t)).map (lane t ((own s).getV a)))
      ((List.range (lanes t)).map u) = (w, fl)) :
    vqmxEffect a b mk t (opened s) = .next (if w.isEmpty then (opened s).setCtx s.cur ((after (own s)).addPend 4 .flags fl)
      else ((opened s).setCtx s.cur ((after (own s)).addPend 4 .flags fl)).addAccess s.cur (.vqmx a b mk t) fun _ =>
        qmxStore ((own s).getX b) w) := by
  unfold vqmxEffect
  dsimp only
  rw [show (opened s).ctxAt (opened s).cur = own s from rfl, hrm, Option.getD_some, show laneCount t = lanes t from rfl, hr,
    activeLanes_eq, lanesOf_eq, hq]
  rfl

/-- A context with flags on their way and one access more, aged. -/
theorem aged_flags_access (c : Ctx) (fl : Flags) (e : Access) (n : Nat) (w : Window) (he : e.due = 0) :
    aged { c.addPend 4 .flags fl with acc := c.acc ++ [e], sn := n, window := w } =
      { aged c with pend := (aged c).pend ++ [{ due := 3, res := .flags, flags := fl }], acc := (aged c).acc ++ [e], sn := n, window := w } := by
  have hdue : ({ e with due := e.due - 1 } : Access) = e := by
    rw [show e.due - 1 = e.due by rw [he]]
  have hage := aged_access (c.addPend 4 .flags fl) (c.acc ++ [e]) n c.fullX c.fullV w
  rw [aged_addPend, if_neg (by decide), List.map_append, List.map_singleton, hdue, ← aged_acc] at hage
  refine Eq.trans rfl (hage.trans ?_)
  rw [onlyRegs_aged c]

/-- A VQMX writes no register: its context has its flags on their way and its store outstanding. -/
theorem aged_queue_vqmx (c : Ctx) (now : Nat) (a b : Reg) (mk : MReg) (t : ETy) (fl : Flags) (v : Word) (w : List (Nat × Nat × Nat)) :
    ∃ e wn, e.ins = .vqmx a b mk t ∧ e.wr = w ∧ e.sn = c.sn ∧
      aged ((c.addPend 4 .flags fl).queue now (.vqmx a b mk t) fun _ => qmxStore v w) =
        { aged c with pend := (aged c).pend ++ [{ due := 3, res := .flags, flags := fl }], acc := (aged c).acc ++ [e], sn := c.sn + 1
                      window := wn } := by
  have hage := aged_flags_access c fl (qmxStore v w { sn := c.sn, ins := .vqmx a b mk t, word := (encode (.vqmx a b mk t)).getD 0
                                                      kernel := c.kernel, hold := c.hold, since := now }) (c.sn + 1)
    ((c.addPend 4 .flags fl).queue now (.vqmx a b mk t) fun _ => qmxStore v w).window rfl
  exact ⟨_, _, rfl, rfl, rfl, hage⟩

/-- Settles O25: with nothing to write VQMX has only its flags on their way, else its store is outstanding too. -/
theorem quantisation : Obligations.Quantisation := by
  rintro s a b mk t _ _ _ _ rm after w fl h rfl rfl rfl hrm rfl ha hq
  have hkeep := after_keeps ha (own s)
  have heff := vqmxEffect_opened hrm (roundBits_eq (fun i => rfl) ha) hq
  have hdrain : (after (own s)).drain = (own s).drain := by rw [hkeep]
  refine ⟨fun hempty => ?flags, fun hwrites => ?store⟩
  case flags =>
    rw [if_pos (by simp [hempty])] at heff
    exact resultLater_of_does (g := fun c => (after c).addPend 4 .flags fl) (by decide) rfl
      (does_of h nofun heff rfl (fun _ hk => State.ctxAt_setCtx_ne _ _ _ _ hk) (State.ctxAt_setCtx_self _ _ _) rfl rfl (ready_drain_ne_rft h hdrain))
  case store =>
    rw [if_neg (by simpa using hwrites)] at heff
    obtain ⟨z, ho, hown, hctx⟩ := does_of (s' := s)
      (f := fun c => ((after c).addPend 4 .flags fl).queue s.now (.vqmx a b mk t) fun _ => qmxStore ((own s).getX b) w) h nofun heff rfl
      (fun _ hk => (State.ctxAt_modCtx_ne _ _ _ _ hk).trans (State.ctxAt_setCtx_ne _ _ _ _ hk))
      ((State.ctxAt_modCtx_self _ _ _).trans (by rw [State.ctxAt_setCtx_self]; rfl)) rfl rfl (ready_drain_ne_rft h hdrain)
    obtain ⟨e, wn, hins, hwr, hsn, hage⟩ := aged_queue_vqmx (after (own s)) s.now a b mk t fl ((own s).getX b) w
    have hacc : (aged (after (own s))).acc = (aged (own s)).acc := by rw [aged_acc, aged_acc, hkeep]
    have hnum : (after (own s)).sn = (own s).sn := by rw [hkeep]
    dsimp only at hctx
    rw [hage, hacc, hnum] at hctx
    obtain ⟨hframe, hlevels⟩ := hctx
    refine ⟨z, ho, hown, ⟨e, congrArg Ctx.acc hframe, hins, hwr, hsn.trans hnum⟩, ?_, hlevels⟩
    rw [hframe]

end Sys2Proof.Machine
end

section
/-! PROOFS. spec/06_matrix.md R19, R169, R186, R279, spec/03_encoding.md R103 to R106: what a command captures at issue, its acceptance,
and the acceptance of the matrix commands. -/

namespace Sys2Proof.Machine

open Sys2Proof.Safety

/-! What a command captures in a bundle of one slot. -/

theorem consumed_opened (s : State) (kd k : Tok) : consumed (opened s).iss kd k =
    (if ((own s).getK k).busy then k else 0, if ((own s).getK k).busy then 0 else ((own s).getK k).status) := by
  have htoks : (opened s).iss.toks = (own s).k := rfl
  have hrep : (opened s).iss.myRep = 0 := rfl
  unfold consumed
  by_cases hk : k = 0
  · subst hk
    rfl
  · simp only [hrep, htoks, getElem_k hk, hk, bne_self_eq_false, Bool.false_and, Bool.or_false, decide_false, Bool.false_eq_true, if_false]
    split <;> rfl

theorem consumedAt_opened (s : State) (k : Tok) : consumedAt (opened s).iss k = ((own s).getK k).addr := by
  unfold consumedAt
  split
  · next hk =>
    rw [hk]
    rfl
  · next hk => exact congrArg Token.addr (getElem_k (c := own s) hk)

theorem regRun_eq (p : Reg) (n : Nat) : regRun p n = (List.range n).map fun j => p + BitVec.ofNat 6 j :=
  List.map_congr_left fun _ _ => BitVec.eq_of_toNat_eq (by simp)

theorem mkCmd_opened (s : State) (i : Instr) (p : Reg) (n : Nat) (kd ka kb kc : Tok) (est : Nat) :
    mkCmd (opened s) i p n kd ka kb kc est = { captured s i p n kd ka kb kc with est := est } := by
  unfold mkCmd captured
  simp only [consumed_opened, consumedAt_opened, regRun_eq, List.map_map]
  rfl

theorem captured_par0 (s : State) (i : Instr) (p : Reg) {n : Nat} (kd ka kb kc : Tok) (hn : 0 < n) :
    (captured s i p n kd ka kb kc).par0 = (own s).getX p := by
  simp [captured, Cmd.par0, hn]

/-! Acceptance outside of a repeat (R103, R406). -/

/-- The context c once a command with the token kd is accepted. -/
def accepting (kd : Tok) (c : Ctx) : Ctx :=
  { c.setK kd { busy := true, left := 1 } with sn := c.sn + 1, window := if c.window.first.isNone then {} else c.window }

theorem setK_frame (c : Ctx) (k : Tok) (t : Token) : c.setK k t = { c with k := (c.setK k t).k } := by
  unfold Ctx.setK
  split <;> rfl

theorem accepting_frame (kd : Tok) (c : Ctx) :
    accepting kd c = { c with k := (accepting kd c).k, sn := c.sn + 1, window := (accepting kd c).window } := by
  unfold accepting
  rw [setK_frame]

theorem getK_accepting (kd k : Tok) (c : Ctx) :
    (accepting kd c).getK k = if k = kd ∧ k ≠ 0 then { busy := true, left := 1 } else c.getK k := by
  refine (getK_setK c kd k { busy := true, left := 1 }).trans ?_
  by_cases h0 : k = 0
  · rw [if_pos h0, if_neg fun h => h.2 h0, h0]
    rfl
  · simp only [h0, ne_eq, not_false_eq_true, and_true, if_false]

/-- Ageing carries along what acceptance changes. -/
theorem aged_accepting (kd : Tok) (c : Ctx) : aged (accepting kd c) =
    { aged c with k := (accepting kd c).k, sn := c.sn + 1, window := (accepting kd c).window } := by
  have h := aged_withSide c (accepting kd c)
  rw [show c.withSide (accepting kd c) = accepting kd c by rw [accepting_frame]; rfl] at h
  rw [h, aged_side c, accepting_frame]
  dsimp only [Ctx.withSide]
  rw [aged_acc]

/-- The state s with a command more in its engines. -/
def queued (s : State) (cmd : Cmd) : State := { s with cmds := s.cmds ++ [cmd], nextId := s.nextId + 1 }

theorem accept_eq {s : State} (cmd : Cmd) (hrep : s.iss.myRep = 0) (hleft : s.iss.myLeft = 0) :
    s.accept cmd = queued (s.modCtx s.cur (accepting cmd.kd)) cmd := by
  unfold State.accept Ctx.produce
  rw [hrep, hleft]
  rfl

/-- A bundle that has the command in its engines, and its context as acceptance leaves it, has the command accepted. -/
theorem accepts_of_does {o : Out} {s : State} {f : Ctx → Ctx} {cmd : Cmd}
    (h : Does o (queued s cmd) fun c => accepting cmd.kd (f c)) (hk : (f (own s)).k = (own s).k) (hsn : (f (own s)).sn = cmd.sn) :
    Accepts o s f cmd := by
  obtain ⟨t, ho, hown, hsame⟩ := h
  have hsame : SameButIssue (aged (accepting cmd.kd (f (own s)))) (t.ctxAt s.cur) := hsame
  rw [aged_accepting, hsn] at hsame
  obtain ⟨hframe, hlevels⟩ := hsame
  have htok : (t.ctxAt s.cur).k = (accepting cmd.kd (f (own s))).k := by rw [hframe]
  refine ⟨t, ho, hown, fun k => ?token, ?frame, hlevels⟩
  case token =>
    calc (t.ctxAt s.cur).getK k = (accepting cmd.kd (f (own s))).getK k := by unfold Ctx.getK; rw [htok]
      _ = if k = cmd.kd ∧ k ≠ 0 then { busy := true, left := 1 } else (f (own s)).getK k := getK_accepting _ _ _
      _ = if k = cmd.kd ∧ k ≠ 0 then { busy := true, left := 1 } else (own s).getK k := by unfold Ctx.getK; rw [hk]
  case frame => rw [hframe]

/-- A ready slot that leaves the open bundle's state but for its context, which becomes what f makes of it, and then has a command
accepted. -/
theorem accepts_of {i : Instr} {eff : State → Out} {s v : State} {f : Ctx → Ctx} {cmd : Cmd} (h : Ready i s)
    (hw : ∀ a b wa wb sc k, i ≠ .waitc a b wa wb sc k) (he : eff (opened s) = .next (v.accept cmd))
    (hv : v = { opened s with ctxs := v.ctxs }) (hother : ∀ k, k ≠ s.cur → v.ctxAt k = s.ctxAt k) (hctx : v.ctxAt s.cur = f (own s))
    (hk : (f (own s)).k = (own s).k) (hd : (f (own s)).drain = (own s).drain) (hsn : (f (own s)).sn = cmd.sn) :
    Accepts (issue i eff s) s f cmd := by
  have hcur : v.cur = s.cur := by rw [hv]; rfl
  have hiss : v.iss = (opened s).iss := by rw [hv]
  have haccept := accept_eq (s := v) cmd (by rw [hiss]; rfl) (by rw [hiss]; rfl)
  have hself : (v.accept cmd).ctxAt s.cur = accepting cmd.kd (f (own s)) := by
    rw [haccept, ← hctx, ← hcur]
    exact State.ctxAt_modCtx_self v v.cur (accepting cmd.kd)
  have hothers : ∀ k, k ≠ s.cur → (v.accept cmd).ctxAt k = s.ctxAt k := fun k hks => by
    rw [haccept, ← hother k hks]
    exact State.ctxAt_modCtx_ne v v.cur k (accepting cmd.kd) (hcur ▸ hks)
  have hstate : v.accept cmd = { queued s cmd with ctxs := (v.accept cmd).ctxs, iss := (v.accept cmd).iss } := by
    conv_lhs => rw [haccept, hv]
    conv_rhs => rw [haccept, hv]
    rfl
  have hpost : (v.accept cmd).iss.post = none := (congrArg Iss.post hiss).trans rfl
  have hleft : (v.accept cmd).iss.repLeft = none := (congrArg Iss.repLeft hiss).trans rfl
  have hdrain : (accepting cmd.kd (f (own s))).drain ≠ .rft := by
    rw [accepting_frame]
    exact ready_drain_ne_rft h hd
  exact accepts_of_does (does_of h hw he hstate hothers hself hpost hleft hdrain) hk hsn

theorem accepts_congr {o : Out} {s : State} {f g : Ctx → Ctx} {cmd : Cmd} (h : Accepts o s f cmd) (e : f (own s) = g (own s)) :
    Accepts o s g cmd := by
  unfold Accepts at *
  rwa [← e]

/-! What a matrix command makes of its context (R19, R186, R279). -/

theorem emptyRows_frame : ∀ (rows : List Nat) (c : Ctx), c.emptyRows rows = { c with fullV := (c.emptyRows rows).fullV }
  | [], _ => rfl
  | j :: rows, c => emptyRows_frame rows (c.markV (BitVec.ofNat 6 j) false)

/-- The rows of the list are empty, and every other is as full as before. -/
theorem emptyRows_vFull (r : Reg) : ∀ (rows : List Nat) (c : Ctx),
    (c.emptyRows rows).vFull r = (c.vFull r && !decide (∃ j, j ∈ rows ∧ BitVec.ofNat 6 j = r))
  | [], c => by simp [Ctx.emptyRows]
  | j :: rows, c => by
    refine (emptyRows_vFull r rows (c.markV (BitVec.ofNat 6 j) false)).trans ?_
    rw [markV_vFull]
    by_cases h : r = BitVec.ofNat 6 j
    · simp [h]
    · simp [h, Ne.symm h]

/-- Row numbers count modulo 64. -/
theorem emptyRows_run {d m r : Nat} (c : Ctx) (hr : r < 64) : (c.emptyRows ((upTo m).map (d + ·))).fullV.getLsbD r =
    (c.fullV.getLsbD r && !decide (∃ j, j < m ∧ r = (d + j) % 64)) := by
  have hnat : (BitVec.ofNat 6 r).toNat = r := by simpa using hr
  have hrow : ∀ j, BitVec.ofNat 6 j = BitVec.ofNat 6 r ↔ r = j % 64 := by
    intro j
    rw [← BitVec.toNat_inj, hnat, BitVec.toNat_ofNat, eq_comm]
  have h := emptyRows_vFull (BitVec.ofNat 6 r) ((upTo m).map (d + ·)) c
  unfold Ctx.vFull at h
  rw [hnat] at h
  simpa [hrow, upTo] using h

/-- The context c once the matrix command cmd has issued: the rows that it is to write are empty, its counters are taken. -/
def matrixTaken (cmd : Cmd) (c : Ctx) : Ctx :=
  let x := c.emptyRows (rowsWritten cmd)
  if matrixDraws cmd = 0 then x else x.takeDraws (matrixDraws cmd)

theorem matrixTaken_frame (cmd : Cmd) (c : Ctx) :
    matrixTaken cmd c = { c with fullV := (c.emptyRows (rowsWritten cmd)).fullV, cr := (matrixTaken cmd c).cr } := by
  unfold matrixTaken
  rw [emptyRows_frame]
  dsimp only
  split <;> rfl

theorem matrixTaken_of_no_draws {cmd : Cmd} (hdraws : matrixDraws cmd = 0) (c : Ctx) : matrixTaken cmd c = c.emptyRows (rowsWritten cmd) := by
  unfold matrixTaken
  rw [hdraws]
  rfl

/-- A command takes 512 counters for each of its rows, or none. -/
theorem matrixTaken_of_draws {cmd : Cmd} {SR : Prop} [Decidable SR] {m : Nat} {after : Ctx → Ctx} (hm : m ≠ 0)
    (hdraws : matrixDraws cmd = if SR then 512 * m else 0)
    (ha : ∀ c, after c = if SR then (c.setCounter (c.counter + BitVec.ofNat 128 (512 * m))).setRgh false else c) (c : Ctx) :
    matrixTaken cmd c = { after c with fullV := (c.emptyRows (rowsWritten cmd)).fullV } := by
  unfold matrixTaken
  rw [ha, hdraws, emptyRows_frame]
  by_cases h : SR
  · rw [if_pos h, if_pos h]
    dsimp only
    rw [if_neg (by omega)]
    rfl
  · rw [if_neg h, if_neg h]
    rfl

/-! Acceptance of the matrix commands. -/

section
variable {i : Instr} {s : State} {p : Reg} {n : Nat} {kd ka kb kc : Tok} (h : Ready i s)
  (hw : ∀ a b wa wb sc k, i ≠ .waitc a b wa wb sc k)
include h hw

theorem accepts_matrix : ∃ est, Accepts (issue i (matrixEff i p n kd ka kb kc) s) s (matrixTaken (captured s i p n kd ka kb kc))
    { captured s i p n kd ka kb kc with est := est } := by
  have heff : ∃ est, matrixEff i p n kd ka kb kc (opened s) =
      .next (((opened s).modCtx s.cur (matrixTaken (captured s i p n kd ka kb kc))).accept { captured s i p n kd ka kb kc with est := est }) := by
    unfold matrixEff
    rw [mkCmd_opened]
    exact ⟨_, rfl⟩
  obtain ⟨est, heff⟩ := heff
  have hframe := matrixTaken_frame (captured s i p n kd ka kb kc) (own s)
  exact ⟨est, accepts_of h hw heff rfl (fun _ hk => State.ctxAt_modCtx_ne _ _ _ _ hk) (State.ctxAt_modCtx_self _ _ _)
    (by rw [hframe]) (by rw [hframe]) (by rw [hframe]; rfl)⟩

/-- A command that is to write the rows of a list, and takes no counter. -/
theorem accepts_matrix_undrawn {rows : List Nat} (hrows : rowsWritten (captured s i p n kd ka kb kc) = rows)
    (hdraws : matrixDraws (captured s i p n kd ka kb kc) = 0) : ∃ est, Accepts (issue i (matrixEff i p n kd ka kb kc) s) s
      (fun c => c.emptyRows rows) { captured s i p n kd ka kb kc with est := est } := by
  obtain ⟨est, hacc⟩ := accepts_matrix h hw
  rw [← hrows]
  exact ⟨est, accepts_congr hacc (matrixTaken_of_no_draws hdraws _)⟩

/-- A command that is to write the rows of a list, and for m rows takes counters under SR. -/
theorem accepts_matrix_drawn {SR : Prop} [Decidable SR] {rows : List Nat} {m : Nat} {after : Ctx → Ctx} (hm : m ≠ 0)
    (hrows : rowsWritten (captured s i p n kd ka kb kc) = rows)
    (hdraws : matrixDraws (captured s i p n kd ka kb kc) = if SR then 512 * m else 0)
    (ha : ∀ c, after c = if SR then (c.setCounter (c.counter + BitVec.ofNat 128 (512 * m))).setRgh false else c) :
    ∃ est, Accepts (issue i (matrixEff i p n kd ka kb kc) s) s (fun c => { after c with fullV := ((own s).emptyRows rows).fullV })
      { captured s i p n kd ka kb kc with est := est } := by
  obtain ⟨est, hacc⟩ := accepts_matrix h hw
  rw [← hrows]
  exact ⟨est, accepts_congr hacc (matrixTaken_of_draws hm hdraws ha _)⟩

end

/-- What the three multiplies have in common. -/
theorem mul_captured {i : Instr} {s : State} {p : Reg} {kd ka kb kc : Tok} {x : Word}
    (hi : i = .mma p kd ka kb kc ∨ i = .mman p kd ka kb kc ∨ i = .mmab p kd ka kb kc) (hx : (own s).getX p = x) :
    exec i s = issue i (matrixEff i p 3 kd ka kb kc) s ∧ (∀ a b wa wb sc k, i ≠ .waitc a b wa wb sc k) ∧
      rowsWritten (captured s i p 3 kd ka kb kc) = (upTo (x.bits 24 6 + 1)).map (x.bits 32 6 + ·) ∧
      matrixDraws (captured s i p 3 kd ka kb kc) =
        if ((own s).cr[0x0B]).getLsbD 16 = true then 512 * (x.bits 24 6 + 1) else 0 := by
  subst hx
  rw [← captured_par0 s i p kd ka kb kc (n := 3) (by decide)]
  rcases hi with rfl | rfl | rfl <;> exact ⟨rfl, nofun, rfl, rfl⟩

theorem rmode_getD_eq_sr (c : Option RMode) : c.getD .rne = .sr ↔ c = some .sr := by
  cases c <;> simp

theorem mdr_captured {s : State} {p : Reg} {kd ka kb kc : Tok} {x : Word} (hx : (own s).getX p = x) :
    rowsWritten (captured s (.mdr p kd ka kb kc) p 3 kd ka kb kc) =
        (if x.getLsbD 56 then (upTo (x.bits 40 6 + 1)).map (x.bits 32 6 + ·) else []) ∧
      matrixDraws (captured s (.mdr p kd ka kb kc) p 3 kd ka kb kc) =
        if RMode.ofCode (x.extractLsb' 52 3) = some .sr then 512 * (x.bits 40 6 + 1) else 0 := by
  subst hx
  rw [← captured_par0 s (.mdr p kd ka kb kc) p kd ka kb kc (n := 3) (by decide)]
  exact ⟨rfl, if_congr (rmode_getD_eq_sr _) rfl rfl⟩

theorem rowsWritten_mza {s : State} {p : Reg} {kd ka kb kc : Tok} {x : Word} (hx : (own s).getX p = x) :
    rowsWritten (captured s (.mza p kd ka kb kc) p 1 kd ka kb kc) = (upTo (x.bits 8 6 + 1)).map (x.bits 0 6 + ·) := by
  subst hx
  rw [← captured_par0 s (.mza p kd ka kb kc) p kd ka kb kc (n := 1) (by decide)]
  rfl

/-- Settles O31: each command by the rows that it is to write and the counters that it takes. -/
theorem matrixCommandsAccepted : Obligations.MatrixCommandsAccepted := by
  intro s p kd ka kb kc x m after hx
  refine ⟨?rowless, ?mul, ?mdr, ?mza⟩
  case rowless =>
    rintro i n (⟨rfl, rfl⟩ | ⟨rfl, rfl⟩ | ⟨rfl, rfl⟩ | ⟨rfl, rfl⟩) h <;> exact accepts_matrix_undrawn h nofun (rows := []) rfl rfl
  case mul =>
    rintro i hi h rfl ha
    obtain ⟨hexec, hw, hrows, hdraws⟩ := mul_captured hi hx
    obtain ⟨est, hacc⟩ := accepts_matrix_drawn h hw (by omega) hrows hdraws ha
    rw [hexec]
    exact ⟨est, _, hacc, fun r hr => emptyRows_run _ hr⟩
  case mdr =>
    rintro h rfl ha
    obtain ⟨hrows, hdraws⟩ := mdr_captured hx
    obtain ⟨est, hacc⟩ := accepts_matrix_drawn h nofun (by omega) hrows hdraws ha
    refine ⟨est, _, hacc, fun r hr => ?_⟩
    cases x.getLsbD 56 with
    | false => simp [Ctx.emptyRows]
    | true => exact emptyRows_run _ hr
  case mza =>
    rintro h rfl
    obtain ⟨est, hacc⟩ := accepts_matrix_undrawn h nofun (rowsWritten_mza hx) rfl
    exact ⟨est, _, accepts_congr hacc (emptyRows_frame _ _), fun r hr => emptyRows_run _ hr⟩

end Sys2Proof.Machine
end

section
/-! PROOFS. spec/07_memory_instr.md R197 to R204, R213: loads, stores, atomics and work-list slots start. -/

namespace Sys2Proof.Machine

open Sys2Proof.Safety

/-! The address of a load or store (R197). -/

theorem effAddr_eq (x : Word) (disp : BitVec 11) (z : Nat) : effAddr x disp z = x + disp.signExtend 64 * BitVec.ofNat 64 z := by
  have hofNat : BitVec.ofInt 64 (z : Int) = BitVec.ofNat 64 z := BitVec.ofInt_natCast 64 z
  rw [effAddr, wordOfInt, BitVec.ofInt_mul, hofNat, BitVec.signExtend]

/-- A ready load is outstanding with its address. -/
theorem starts_load {i : Instr} {s : State} {a : Reg} {disp : BitVec 11} {z : Nat} {ea : Word} (h : Ready i s)
    (hw : ∀ a b wa wb sc k, i ≠ .waitc a b wa wb sc k) (hea : ea = (own s).getX a + disp.signExtend 64 * BitVec.ofNat 64 z) :
    Starts (issue i (loadEff i a disp z) s) s { access s i with ea := ea, va := (own s).getX a, todo := allWords } := by
  rw [hea, ← effAddr_eq]
  exact starts_queue h hw rfl rfl rfl rfl

/-- A ready scalar store is outstanding with its address and its data. -/
theorem starts_store {i : Instr} {s : State} {t a : Reg} {disp : BitVec 11} {z : Nat} {ea : Word} (h : Ready i s)
    (hw : ∀ a b wa wb sc k, i ≠ .waitc a b wa wb sc k) (hea : ea = (own s).getX a + disp.signExtend 64 * BitVec.ofNat 64 z) :
    Starts (issue i (storeEff i t a disp z) s) s { access s i with ea := ea, va := (own s).getX a, vt := (own s).getX t } := by
  rw [hea, ← effAddr_eq]
  exact starts_queue h hw rfl rfl rfl rfl

/-- Settles O26: each slot is a load or a store of its size. -/
theorem loadsAndStoresStart : Obligations.LoadsAndStoresStart := by
  rintro s t a wa disp _ ea rfl hea
  refine ⟨?loads, ?stores, ?row⟩
  case loads =>
    rintro i z (⟨rfl, rfl⟩ | ⟨rfl, rfl⟩ | ⟨rfl, rfl⟩ | ⟨rfl, rfl⟩ | ⟨rfl, rfl⟩ | ⟨rfl, rfl⟩ | ⟨rfl, rfl⟩ | ⟨rfl, rfl⟩) h <;>
      exact starts_load h nofun (hea _)
  case stores =>
    rintro i z (⟨rfl, rfl⟩ | ⟨rfl, rfl⟩ | ⟨rfl, rfl⟩ | ⟨rfl, rfl⟩) h <;> exact starts_store h nofun (hea _)
  case row =>
    intro h
    rw [hea, ← effAddr_eq]
    exact starts_queue h nofun rfl rfl rfl rfl

end Sys2Proof.Machine
end

section
/-! PROOFS. spec/07_memory_instr.md R204, spec/14_ordering.md R316, R323, R324: what a fence does looks at the contexts for their groups
alone. -/

namespace Sys2Proof.Machine

open Sys2Proof.Safety

/-- s with other contexts, and with another bundle being issued. -/
def State.withCtxs (s : State) (l : List (Nat × Ctx)) (i : Iss) : State := { s with ctxs := l, iss := i }

/-- The contexts of l belong to the groups that those of s belong to. -/
def SameGroups (s : State) (l : List (Nat × Ctx)) : Prop := ∀ k, (mapGet {} l k).grp = (s.ctxAt k).grp

theorem SameGroups.of_ctxs {s t : State} {l : List (Nat × Ctx)} (h : SameGroups s l) (e : t.ctxs = s.ctxs) : SameGroups t l := by
  intro k
  rw [h k, State.ctxAt, State.ctxAt, e]

theorem OnlyMemory.sameGroups {s t : State} {l : List (Nat × Ctx)} (e : OnlyMemory s t) (h : SameGroups s l) : SameGroups t l := h.of_ctxs e.ctxs

section
variable {s : State} {l : List (Nat × Ctx)} {i : Iss}

/-! Operations that look at no context. -/

theorem ite_withCtxs {p : Prop} [Decidable p] {u v : State} :
    (if p then u else v).withCtxs l i = if p then u.withCtxs l i else v.withCtxs l i := apply_ite (fun u : State => u.withCtxs l i) p u v

theorem markDirty_withCtxs (key : Nat) : (s.withCtxs l i).markDirty key = (s.markDirty key).withCtxs l i := by
  unfold State.markDirty
  rw [ite_withCtxs]
  rfl

theorem observe_withCtxs (j a : Nat) : (s.withCtxs l i).observe j a = (s.observe j a).withCtxs l i := by
  have hpw : (s.withCtxs l i).pw = s.pw := rfl
  unfold State.observe
  rw [hpw]
  cases s.pw[j]? with
  | none => rfl
  | some p =>
    dsimp only
    rw [ite_withCtxs]
    rfl

theorem acquire_withCtxs (n sc : Nat) : (s.withCtxs l i).acquire n sc = (s.acquire n sc).withCtxs l i := by
  unfold State.acquire
  rw [ite_withCtxs]
  rfl

/-- Where one step looks at groups alone, and leaves them, so does a fold. -/
theorem foldl_withCtxs {α : Type} {f : State → α → State} (hf : ∀ s a, OnlyMemory s (f s a))
    (h : ∀ s a, SameGroups s l → f (s.withCtxs l i) a = (f s a).withCtxs l i) :
    ∀ (as : List α) {s : State}, SameGroups s l → as.foldl f (s.withCtxs l i) = (as.foldl f s).withCtxs l i
  | [], _, _ => rfl
  | a :: as, s, hs => by rw [List.foldl_cons, h s a hs, foldl_withCtxs hf h as ((hf s a).sameGroups hs), List.foldl_cons]

/-! Operations that look at groups. -/

section
variable (h : SameGroups s l)
include h

theorem grpOf_withCtxs (k : Nat) : (s.withCtxs l i).grpOf k = s.grpOf k := by
  have hgrp : ((s.withCtxs l i).ctxAt k).grp = (s.ctxAt k).grp := h k
  unfold State.grpOf
  rw [hgrp]

theorem covers_withCtxs (n : Nat) : (s.withCtxs l i).covers n = s.covers n := by
  funext p
  rw [State.covers, State.covers, grpOf_withCtxs h]

theorem distance_withCtxs (n w : Nat) : (s.withCtxs l i).distance n w = s.distance n w := by
  simp only [State.distance, grpOf_withCtxs h]

theorem noteFor_withCtxs (who key : Nat) (f : Nat → Bool) : (s.withCtxs l i).noteFor who key f = s.noteFor who key f := by
  simp only [State.noteFor, distance_withCtxs h]
  rfl

theorem homeWrite_withCtxs (who key : Nat) (en : BitVec 8) (val : Word) :
    (s.withCtxs l i).homeWrite who key en val = (s.homeWrite who key en val).withCtxs l i := by
  unfold State.homeWrite
  rw [noteFor_withCtxs h]
  rfl

theorem passOn_withCtxs (n sc : Nat) : (s.withCtxs l i).passOn n sc = (s.passOn n sc).withCtxs l i := by
  unfold State.passOn
  simp only [distance_withCtxs h, ite_withCtxs]
  rfl

theorem commitOne_withCtxs (p : PWrite) (rest : List PWrite) : (s.withCtxs l i).commitOne p rest = (s.commitOne p rest).withCtxs l i := by
  unfold State.commitOne
  rw [homeWrite_withCtxs h, markDirty_withCtxs]
  rfl

end

theorem commitFrom_withCtxs (f : PWrite → List PWrite → Bool) : ∀ (ws : List PWrite) {s : State}, SameGroups s l →
    State.commitFrom f ws (s.withCtxs l i) = (State.commitFrom f ws s).withCtxs l i
  | [], _, _ => rfl
  | p :: rest, s, h => by
    unfold State.commitFrom
    cases f p rest with
    | false => exact commitFrom_withCtxs f rest h
    | true =>
      have hone : (s.withCtxs l i).commitOne p ((s.withCtxs l i).pw.erase p) = (s.commitOne p (s.pw.erase p)).withCtxs l i := commitOne_withCtxs h p _
      rw [if_pos rfl, if_pos rfl, hone]
      exact commitFrom_withCtxs f rest ((onlyMemory_commitOne s p _).sameGroups h)

theorem applyFrom_withCtxs (f : RWrite → Bool) : ∀ (ws : List RWrite) {s : State}, SameGroups s l →
    State.applyFrom f ws (s.withCtxs l i) = (State.applyFrom f ws s).withCtxs l i
  | [], _, _ => rfl
  | r :: rest, s, h => by
    unfold State.applyFrom
    cases f r || rest.any fun q => f q && r.leads q with
    | false => exact applyFrom_withCtxs f rest h
    | true =>
      rw [if_pos rfl, if_pos rfl, homeWrite_withCtxs h]
      exact applyFrom_withCtxs f rest (s := { s.homeWrite r.owner r.key r.en r.val with rw := s.rw.erase r }) (h.of_ctxs rfl)

section
variable (h : SameGroups s l)
include h

theorem commitWhere_withCtxs (f : PWrite → Bool) : (s.withCtxs l i).commitWhere f = (s.commitWhere f).withCtxs l i := commitFrom_withCtxs _ _ h

theorem applyRepl_withCtxs : (s.withCtxs l i).applyRepl = s.applyRepl.withCtxs l i := applyFrom_withCtxs _ _ h

theorem commitCovered_withCtxs (n : Nat) (f : PWrite → Bool) : (s.withCtxs l i).commitCovered n f = (s.commitCovered n f).withCtxs l i := by
  unfold State.commitCovered
  rw [covers_withCtxs h]
  exact commitFrom_withCtxs _ _ h

end

/-! The observers of a write to a UO location: its writer has observed it already. -/

theorem observe_own {j : Nat} {p : PWrite} (hp : s.pw[j]? = some p) : s.observe j p.owner = s := by
  unfold State.observe
  rw [hp]
  dsimp only
  refine if_pos ?_
  by_cases hen : p.en = 0xFF#8 <;> simp [PWrite.seenAt, hen]

theorem observe_owner (s : State) (j a : Nat) : (s.observe j a).pw[j]?.map PWrite.owner = s.pw[j]?.map PWrite.owner := by
  unfold State.observe
  cases hp : s.pw[j]? with
  | none => simp [hp]
  | some p =>
    have hlt : j < s.pw.length := (List.getElem?_eq_some_iff.mp hp).1
    dsimp only
    split
    · rw [hp]
    · simp [List.getElem?_set_self hlt]

theorem foldl_observe_others {n j : Nat} : ∀ (as : List Nat) {s : State}, s.pw[j]?.map PWrite.owner = some n →
    as.foldl (fun s a => s.observe j a) s = (as.filter (· != n)).foldl (fun s a => s.observe j a) s
  | [], _, _ => rfl
  | a :: as, s, h => by
    have ih := foldl_observe_others as ((observe_owner s j a).trans h)
    by_cases ha : a = n
    · obtain ⟨p, hp, hown⟩ := Option.map_eq_some_iff.mp h
      have hself : s.observe j a = s := by rw [ha, ← hown]; exact observe_own hp
      rw [List.foldl_cons, List.filter_cons_of_neg (by simpa using ha), ih, hself]
    · rw [List.foldl_cons, List.filter_cons_of_pos (by simpa using ha), List.foldl_cons, ih]

/-- The agents of a list observe write j, where agent n has made it, to a UO location. -/
def observeOne (n : Nat) (mates : List Nat) (s : State) (j : Nat) : State :=
  match s.pw[j]? with
  | some p => if p.owner = n && p.uo then mates.foldl (fun s a => s.observe j a) s else s
  | none => s

theorem observeOne_others (n : Nat) (mates : List Nat) : observeOne n mates = observeOne n (mates.filter (· != n)) := by
  funext s j
  unfold observeOne
  cases hp : s.pw[j]? with
  | none => rfl
  | some p =>
    dsimp only
    by_cases hown : p.owner = n
    · rw [foldl_observe_others (n := n) mates (by rw [hp, ← hown]; rfl)]
    · simp [hown]

theorem onlyMemory_observeOne (n : Nat) (mates : List Nat) (s : State) (j : Nat) : OnlyMemory s (observeOne n mates s j) := by
  unfold observeOne
  split
  · split
    · exact .foldl (fun s a => onlyMemory_observe s j a) _ _
    · exact .refl s
  · exact .refl s

theorem observeOne_withCtxs (n : Nat) (mates : List Nat) (s : State) (j : Nat) (h : SameGroups s l) :
    observeOne n mates (s.withCtxs l i) j = (observeOne n mates s j).withCtxs l i := by
  have hpw : (s.withCtxs l i).pw = s.pw := rfl
  unfold observeOne
  rw [hpw]
  cases s.pw[j]? with
  | none => rfl
  | some p =>
    dsimp only
    rw [foldl_withCtxs (fun s a => onlyMemory_observe s j a) (fun _ a _ => observe_withCtxs j a) mates h, ite_withCtxs]

/-! The writes of an agent are shown to its group. -/

/-- The agents that have contexts, and the group of n. -/
def State.mates (s : State) (n : Nat) : List Nat := (s.ctxs.map (·.1)).filter fun a => s.grpOf a = s.grpOf n

/-- What the group of n has read ahead is told of a write of n that it sees now. -/
def noteShown (n : Nat) (s : State) (p : PWrite) : State :=
  if p.owner = n && !p.grpSeen then { s with early := s.noteFor n p.key fun a => s.grpOf a = s.grpOf n } else s

/-- The writes of n are marked as seen by its group, which is told of them. -/
def State.showMarked (s : State) (n : Nat) : State :=
  s.pw.foldl (noteShown n)
    { s with pw := s.pw.map fun p => if p.owner = n then { p with grpSeen := true } else p }

/-- The partial writes of n to UO locations are merged, with those before them. -/
def State.showMerged (s : State) (n : Nat) : State :=
  ({ s with rw := replicaShown (dieOf n) (fun r => r.owner = n) s.rw }).commitWhere fun p =>
    p.owner = n && p.uo && s.pw.any fun q => q.owner = n && q.uo && q.key = p.key && q.en != 0xFF#8

theorem showGroup_eq (s : State) (n : Nat) : s.showGroup n =
    ((upTo (s.showMerged n).pw.length).foldl (observeOne n ((s.showMerged n).mates n)) (s.showMerged n)).showMarked n := rfl

/-- Two lists of contexts name the same agents, but perhaps for n. -/
def SameOthers (n : Nat) (s : State) (l : List (Nat × Ctx)) : Prop := (l.map (·.1)).filter (· != n) = (s.ctxs.map (·.1)).filter (· != n)

theorem mates_withCtxs {n : Nat} (h : SameGroups s l) (ho : SameOthers n s l) :
    ((s.withCtxs l i).mates n).filter (· != n) = (s.mates n).filter (· != n) := by
  have hgrp : (fun a => decide ((s.withCtxs l i).grpOf a = (s.withCtxs l i).grpOf n)) = fun a => decide (s.grpOf a = s.grpOf n) := by
    simp only [grpOf_withCtxs h]
  unfold State.mates
  rw [hgrp, List.filter_comm, List.filter_comm (p := (· != n)) (l := s.ctxs.map _), ← ho]
  rfl

theorem onlyMemory_showMerged (s : State) (n : Nat) : OnlyMemory s (s.showMerged n) :=
  .trans (.withRw (.refl s)) (onlyMemory_commitWhere _ _)

theorem showMerged_withCtxs (n : Nat) (h : SameGroups s l) : (s.withCtxs l i).showMerged n = (s.showMerged n).withCtxs l i :=
  commitWhere_withCtxs (s := { s with rw := replicaShown (dieOf n) (fun r => r.owner = n) s.rw }) (h.of_ctxs rfl) _

theorem onlyMemory_noteShown (n : Nat) (s : State) (p : PWrite) : OnlyMemory s (noteShown n s p) := by
  unfold noteShown
  split <;> exact rfl

theorem noteShown_withCtxs (n : Nat) (s : State) (p : PWrite) (h : SameGroups s l) :
    noteShown n (s.withCtxs l i) p = (noteShown n s p).withCtxs l i := by
  unfold noteShown
  simp only [noteFor_withCtxs h, grpOf_withCtxs h, ite_withCtxs]
  rfl

theorem showMarked_withCtxs (n : Nat) (h : SameGroups s l) : (s.withCtxs l i).showMarked n = (s.showMarked n).withCtxs l i :=
  foldl_withCtxs (onlyMemory_noteShown n) (noteShown_withCtxs n) s.pw
    (s := { s with pw := s.pw.map fun p => if p.owner = n then { p with grpSeen := true } else p }) (h.of_ctxs rfl)

theorem showGroup_withCtxs {n : Nat} (h : SameGroups s l) (ho : SameOthers n s l) :
    (s.withCtxs l i).showGroup n = (s.showGroup n).withCtxs l i := by
  have hmerged := onlyMemory_showMerged s n
  have hmates : observeOne n (((s.showMerged n).withCtxs l i).mates n) = observeOne n ((s.showMerged n).mates n) := by
    have hothers : SameOthers n (s.showMerged n) l := by rw [SameOthers, hmerged.ctxs]; exact ho
    rw [observeOne_others n (State.mates _ n), mates_withCtxs (hmerged.sameGroups h) hothers, ← observeOne_others]
  rw [showGroup_eq, showGroup_eq, showMerged_withCtxs n h, hmates,
    foldl_withCtxs (onlyMemory_observeOne n _) (observeOne_withCtxs n _) _ (hmerged.sameGroups h)]
  exact showMarked_withCtxs n ((OnlyMemory.foldl (onlyMemory_observeOne n _) _ _).sameGroups (hmerged.sameGroups h))

/-! Fences. -/

theorem flushTo_withCtxs {n : Nat} (h : SameGroups s l) (ho : SameOthers n s l) (sc : Scope) :
    (s.withCtxs l i).flushTo n sc = (s.flushTo n sc).withCtxs l i := by
  have hall : ∀ k, ((((s.withCtxs l i).commitCovered n fun _ => true).applyRepl).passOn n k) =
      (((s.commitCovered n fun _ => true).applyRepl).passOn n k).withCtxs l i := by
    intro k
    have hcommit := (onlyMemory_commitCovered s n fun _ => true).sameGroups h
    have happly : SameGroups ((s.commitCovered n fun _ => true).applyRepl) l := (onlyMemory_applyWhere _ _).sameGroups hcommit
    rw [commitCovered_withCtxs h, applyRepl_withCtxs hcommit, passOn_withCtxs happly]
  cases sc with
  | ctx => rfl
  | grp =>
    unfold State.flushTo
    rw [showGroup_withCtxs h ho, passOn_withCtxs ((onlyMemory_showGroup s n).sameGroups h)]
  | dev => exact hall 2
  | sys => exact hall 3

theorem fenceDone_withCtxs {n : Nat} (h : SameGroups s l) (ho : SameOthers n s l) (eng : Bool) (k : FenceKind) (sc : Scope) :
    (s.withCtxs l i).fenceDone n eng k sc = (s.fenceDone n eng k sc).withCtxs l i := by
  have hshow : ∀ t : State, (if eng then (t.withCtxs l i).showEng n else t.withCtxs l i) = (if eng then t.showEng n else t).withCtxs l i := by
    intro t
    rw [ite_withCtxs]
    rfl
  unfold State.fenceDone
  cases k <;> dsimp only
  all_goals simp only [flushTo_withCtxs h ho, acquire_withCtxs, hshow]

theorem onlyMemory_fenceDone (s : State) (n : Nat) (eng : Bool) (k : FenceKind) (sc : Scope) : OnlyMemory s (s.fenceDone n eng k sc) := by
  have hshow : ∀ t, OnlyMemory s t → OnlyMemory s (if eng then t.showEng n else t) := by
    intro t h
    split
    · exact h.withPw
    · exact h
  unfold State.fenceDone
  refine hshow _ ?_
  cases k with
  | full => exact (onlyMemory_flushTo s n sc).trans (onlyMemory_acquire _ n _)
  | acq => exact onlyMemory_acquire s n _
  | rel => exact onlyMemory_flushTo s n sc

end

/-- Setting the context of n changes the agents named by n alone. -/
theorem mapSet_keys_others {α : Type} (n : Nat) (x : α) : ∀ l : List (Nat × α),
    ((mapSet l n x).map (·.1)).filter (· != n) = (l.map (·.1)).filter (· != n)
  | [] => by simp [mapSet]
  | (k, v) :: t => by
    unfold mapSet
    split
    · simp
    · split
      · next hk => simp [hk]
      · rw [List.map_cons, List.filter_cons, mapSet_keys_others n x t, List.map_cons, List.filter_cons]

end Sys2Proof.Machine
end

section
/-! PROOFS. spec/07_memory_instr.md R200 to R204, R213: LDA, STL, atomics, work-list slots and fences start. -/

namespace Sys2Proof.Machine

open Sys2Proof.Safety

/-! Fences leave the memory path (R204). -/

/-- An access that is not performed, and no fence, keeps what stands behind it in the path. -/
theorem tidyFences_held {a : Access} (n : Nat) (l : List Access) (s : State) (hf : isFence a.ins = false) (hp : a.performed = false) :
    tidyFences n (a :: l) s = (s, a :: l) := by
  unfold tidyFences
  split
  · next h => rw [h] at hf; contradiction
  · rw [if_neg (by rw [hp]; exact Bool.false_ne_true)]

/-- A fence at the head of the path leaves it. -/
theorem tidyFences_fence {a : Access} {n : Nat} {eng : Bool} {k : FenceKind} {sc : Scope} (l : List Access) (s : State)
    (h : a.ins = .fence eng k sc) : tidyFences n (a :: l) s = tidyFences n l (s.fenceDone n eng k sc) := by
  conv_lhs => unfold tidyFences
  rw [h]

theorem tidy_of_same {s : State} {n : Nat} (h : (tidyFences n (s.ctxAt n).acc s).2 = (s.ctxAt n).acc) : s.tidy n = s := by
  unfold State.tidy
  exact if_pos h

theorem tidy_of_changed {s : State} {n : Nat} (h : (tidyFences n (s.ctxAt n).acc s).2 ≠ (s.ctxAt n).acc) :
    s.tidy n = (tidyFences n (s.ctxAt n).acc s).1.modCtx n fun c => { c with acc := (tidyFences n (s.ctxAt n).acc s).2 } := by
  unfold State.tidy
  exact if_neg h

/-! A fence issues. -/

theorem isFence_of_isMem {i : Instr} (h : isMem i = true) : isFence i = false := by
  unfold isFence
  split
  · simp [isMem, isLoad, isStore, isAmo, isListOp] at h
  · rfl

/-- The open bundle's state with a fence added to the path. -/
def fenced (s : State) (eng : Bool) (k : FenceKind) (sc : Scope) : State :=
  (opened s).addAccess s.cur (.fence eng k sc) fun _ e => e

theorem exec_fence (eng : Bool) (k : FenceKind) (sc : Scope) (s : State) : exec (.fence eng k sc) s =
    issue (.fence eng k sc) (fun u => .next ((u.addAccess u.cur (.fence eng k sc) fun _ e => e).tidy u.cur)) s := rfl

theorem ctxAt_fenced (s : State) (eng : Bool) (k : FenceKind) (sc : Scope) :
    (fenced s eng k sc).ctxAt s.cur = { own s with acc := (own s).acc ++ [access s (.fence eng k sc)], sn := (own s).sn + 1 } := by
  have hctx : (fenced s eng k sc).ctxAt s.cur = (own s).queue s.now (.fence eng k sc) fun _ e => e := State.ctxAt_modCtx_self _ _ _
  have hmem : isMem (.fence eng k sc) = false := rfl
  rw [hctx, Ctx.queue, hmem, Bool.and_false, if_neg Bool.false_ne_true]
  rfl

/-- Behind an access that is not performed yet a fence is outstanding. -/
theorem starts_fence {s : State} {eng : Bool} {k : FenceKind} {sc : Scope} {e : Access} {l : List Access} (h : Ready (.fence eng k sc) s)
    (ha : (own s).acc = e :: l) (hm : isMem e.ins = true) (hp : e.performed = false) :
    Starts (exec (.fence eng k sc) s) s (access s (.fence eng k sc)) := by
  have hacc : ((fenced s eng k sc).ctxAt s.cur).acc = e :: (l ++ [access s (.fence eng k sc)]) := by
    rw [ctxAt_fenced, ha]
    rfl
  have htidy : (fenced s eng k sc).tidy s.cur = fenced s eng k sc := by
    refine tidy_of_same ?_
    rw [hacc, tidyFences_held _ _ _ (isFence_of_isMem hm) hp]
  rw [exec_fence]
  exact starts_of h nofun (congrArg Host.Outcome.next htidy) rfl rfl rfl rfl

/-- The state in which a fence with nothing before it is over. -/
def fencePassed (s : State) (eng : Bool) (k : FenceKind) (sc : Scope) : State :=
  ((fenced s eng k sc).fenceDone s.cur eng k sc).modCtx s.cur fun c => { c with acc := [] }

theorem tidy_fenced {s : State} {eng : Bool} {k : FenceKind} {sc : Scope} (ha : (own s).acc = []) :
    (fenced s eng k sc).tidy s.cur = fencePassed s eng k sc := by
  have hacc : ((fenced s eng k sc).ctxAt s.cur).acc = [access s (.fence eng k sc)] := by
    rw [ctxAt_fenced, ha]
    rfl
  have hfence : tidyFences s.cur [access s (.fence eng k sc)] (fenced s eng k sc) = ((fenced s eng k sc).fenceDone s.cur eng k sc, []) :=
    tidyFences_fence [] _ rfl
  rw [tidy_of_changed (by rw [hacc, hfence]; exact nofun), hacc, hfence]
  rfl

/-- What the fence does it does to the state before it: of its own access, no group is told. -/
theorem fenceDone_fenced (s : State) (eng : Bool) (k : FenceKind) (sc : Scope) : (fenced s eng k sc).fenceDone s.cur eng k sc =
    (s.fenceDone s.cur eng k sc).withCtxs (fenced s eng k sc).ctxs (opened s).iss := by
  have hgroups : SameGroups s (fenced s eng k sc).ctxs := by
    intro j
    show ((fenced s eng k sc).ctxAt j).grp = _
    by_cases hj : j = s.cur
    · rw [hj, ctxAt_fenced]
      rfl
    · exact congrArg Ctx.grp (State.ctxAt_modCtx_ne _ _ _ _ hj)
  exact fenceDone_withCtxs (s := s) hgroups (mapSet_keys_others s.cur _ s.ctxs) eng k sc

/-- With nothing outstanding a fence is over with its bundle. -/
theorem does_fence {s : State} {eng : Bool} {k : FenceKind} {sc : Scope} (h : Ready (.fence eng k sc) s) (ha : (own s).acc = []) :
    Does (exec (.fence eng k sc) s) (s.fenceDone s.cur eng k sc) fun c => { c with sn := c.sn + 1 } := by
  have hmem := onlyMemory_fenceDone s s.cur eng k sc
  have hcur : (s.fenceDone s.cur eng k sc).cur = s.cur := by rw [hmem]
  have hctx : ∀ j, (s.fenceDone s.cur eng k sc).ctxAt j = s.ctxAt j := fun j => by rw [State.ctxAt, hmem.ctxs]; rfl
  have hown : own (s.fenceDone s.cur eng k sc) = own s := by rw [own, hcur, hctx]; rfl
  have hpassed : fencePassed s eng k sc = { s.fenceDone s.cur eng k sc with ctxs := (fencePassed s eng k sc).ctxs, iss := (opened s).iss } := by
    unfold fencePassed
    rw [fenceDone_fenced]
    rfl
  have hself : (fencePassed s eng k sc).ctxAt s.cur = { own s with sn := (own s).sn + 1 } := by
    have hfenced : ((fenced s eng k sc).fenceDone s.cur eng k sc).ctxAt s.cur = (fenced s eng k sc).ctxAt s.cur := by rw [fenceDone_fenced]; rfl
    rw [fencePassed, State.ctxAt_modCtx_self, hfenced, ctxAt_fenced, ← ha]
  have hothers : ∀ j, j ≠ s.cur → (fencePassed s eng k sc).ctxAt j = s.ctxAt j := by
    intro j hj
    have hfenced : ((fenced s eng k sc).fenceDone s.cur eng k sc).ctxAt j = (fenced s eng k sc).ctxAt j := by rw [fenceDone_fenced]; rfl
    rw [fencePassed, State.ctxAt_modCtx_ne _ _ _ _ hj, hfenced]
    exact State.ctxAt_modCtx_ne _ _ _ _ hj
  have hiss : (fencePassed s eng k sc).iss = (opened s).iss := by rw [hpassed]
  rw [exec_fence]
  exact does_of h nofun (congrArg Host.Outcome.next (tidy_fenced ha)) (by rw [hiss]; exact hpassed)
    (by rw [hcur]; intro j hj; rw [hctx, hothers j hj]) (by rw [hcur, hown]; exact hself) (by rw [hiss]; rfl) (by rw [hiss]; rfl)
    (ready_drain_ne_rft h (by rw [hown]))

/-- Settles O27: the slots that go to memory by what they capture, a fence by what stands before it. -/
theorem synchronisingStart : Obligations.SynchronisingStart := by
  rintro s d a b wa wb _ _ rfl rfl
  refine ⟨?lda, ?stl, ?atomics, ?lists, ?fences⟩
  case lda => exact fun z sc h => starts_queue h nofun rfl rfl rfl rfl
  case stl => exact fun z sc h => starts_queue h nofun rfl rfl rfl rfl
  case atomics => rintro i o fn (rfl | rfl | rfl) h <;> exact starts_queue h nofun rfl rfl rfl rfl
  case lists => rintro i (rfl | rfl) h <;> exact starts_queue h nofun rfl rfl rfl rfl
  case fences => exact fun eng k sc h => ⟨fun e l ha hm hp => starts_fence h ha hm hp, fun ha => does_fence h ha⟩

end Sys2Proof.Machine
end

section
/-! PROOFS. spec/08_engines.md R206, R214, R217 to R243, R465: the acceptance of the commands of the copy, sparse, region and work-list
engines. -/

namespace Sys2Proof.Machine

open Sys2Proof.Safety

/-! What a command captures of SEALK (R465). -/

theorem captureSeal_of_cpy {s : State} {c : Cmd} {p : Reg} {kd ka kb kc : Tok} (h : c.ins = .cpy p kd ka kb kc) :
    captureSeal s c = { c with sealing := if cpyMode (cFlags c) = 3 then s.plat.sealk else c.sealing } := by
  unfold captureSeal
  rw [h]
  dsimp only
  split <;> (rw [← h])

theorem captureSeal_of_not_cpy {s : State} {c : Cmd} (h : ∀ p kd ka kb kc, c.ins ≠ .cpy p kd ka kb kc) : captureSeal s c = c := by
  unfold captureSeal
  split
  · next p kd ka kb kc hi => exact absurd hi (h p kd ka kb kc)
  · rfl

/-! Acceptance. -/

/-- A ready slot of an engine command has it accepted, with what it captures. -/
theorem accepts_engine {i : Instr} {s : State} {p : Reg} {n : Nat} {kd ka kb kc : Tok} {sk : Word} (h : Ready i s)
    (hw : ∀ a b wa wb sc k, i ≠ .waitc a b wa wb sc k)
    (hseal : captureSeal (opened s) { captured s i p n kd ka kb kc with est := 0 } = { captured s i p n kd ka kb kc with est := 0, sealing := sk }) :
    ∃ est, Accepts (issue i (engineEff i p n kd ka kb kc) s) s id { captured s i p n kd ka kb kc with est := est, sealing := sk } := by
  have heff : ∃ est, engineEff i p n kd ka kb kc (opened s) =
      .next ((opened s).accept { captured s i p n kd ka kb kc with est := est, sealing := sk }) := by
    unfold engineEff pureEff
    dsimp only
    rw [mkCmd_opened, hseal]
    exact ⟨_, rfl⟩
  obtain ⟨est, heff⟩ := heff
  exact ⟨est, accepts_of h hw heff rfl (fun _ _ => rfl) rfl rfl rfl rfl⟩

/-- A command that is no CPY captures no sealing key. -/
theorem accepts_unsealed {i : Instr} {s : State} {p : Reg} {n : Nat} {kd ka kb kc : Tok} (h : Ready i s)
    (hw : ∀ a b wa wb sc k, i ≠ .waitc a b wa wb sc k) (hcpy : ∀ p kd ka kb kc, i ≠ .cpy p kd ka kb kc) (hn : n ≠ 9) :
    ∃ est sk, Accepts (issue i (engineEff i p n kd ka kb kc) s) s id { captured s i p n kd ka kb kc with est := est, sealing := sk } ∧
      sk = if n = 9 ∧ ((own s).getX (p + 6)).bits 0 4 = 3 then s.plat.sealk else 0 := by
  obtain ⟨est, hacc⟩ := accepts_engine (sk := 0) h hw (captureSeal_of_not_cpy (s := opened s) hcpy)
  exact ⟨est, 0, hacc, (if_neg fun hseal => hn hseal.1).symm⟩

/-- A CPY captures SEALK in mode 3, which marks. -/
theorem accepts_cpy {s : State} {p : Reg} {kd ka kb kc : Tok} (h : Ready (.cpy p kd ka kb kc) s) :
    ∃ est sk, Accepts (exec (.cpy p kd ka kb kc) s) s id { captured s (.cpy p kd ka kb kc) p 9 kd ka kb kc with est := est, sealing := sk } ∧
      sk = if ((own s).getX (p + 6)).bits 0 4 = 3 then s.plat.sealk else 0 := by
  obtain ⟨est, hacc⟩ := accepts_engine h nofun (captureSeal_of_cpy (s := opened s) rfl)
  exact ⟨est, _, hacc, rfl⟩

/-- Settles O32: a CPY by what it captures of SEALK, every other command as one that captures none. -/
theorem engineCommandsAccepted : Obligations.EngineCommandsAccepted := by
  rintro s p kd ka kb kc i n (⟨rfl, rfl⟩ | hothers) h
  case inl =>
    obtain ⟨est, sk, hacc, hsk⟩ := accepts_cpy h
    exact ⟨est, sk, hacc, by simpa using hsk⟩
  case inr =>
    rcases hothers with ⟨rfl, rfl⟩ | ⟨rfl, rfl⟩ | ⟨rfl, rfl⟩ | ⟨sc, rfl, rfl⟩ | ⟨rfl, rfl⟩ | ⟨rfl, rfl⟩ | ⟨rfl, rfl⟩ | ⟨rfl, rfl⟩ | ⟨rfl, rfl⟩ |
      ⟨rfl, rfl⟩ | ⟨rfl, rfl⟩ | ⟨rfl, rfl⟩ | ⟨rfl, rfl⟩ | ⟨rfl, rfl⟩ | ⟨rfl, rfl⟩ | ⟨rfl, rfl⟩ | ⟨rfl, rfl⟩ <;>
      exact accepts_unsealed h nofun nofun (by decide)

end Sys2Proof.Machine
end

section
/-! PROOFS. spec/07_memory_instr.md R194 to R204: what the memory path changes as it performs an access, and the accesses that are
outstanding after it. -/

namespace Sys2Proof.Machine

open Sys2Proof.Safety

/-! Changes of memory and of one context's path. -/

/-- t is s but for memory and what is on its way there, and but for the accesses and the entry window of context n. -/
def OnlyPath (n : Nat) (s t : State) : Prop :=
  t.cmds = s.cmds ∧ (∀ k, k ≠ n → t.ctxAt k = s.ctxAt k) ∧
    t.ctxAt n = { s.ctxAt n with acc := (t.ctxAt n).acc, window := (t.ctxAt n).window }

theorem OnlyMemory.ctxAt {s t : State} (h : OnlyMemory s t) (k : Nat) : t.ctxAt k = s.ctxAt k := by
  rw [State.ctxAt, h.ctxs]
  rfl

theorem OnlyMemory.onlyPath {s t : State} (n : Nat) (h : OnlyMemory s t) : OnlyPath n s t :=
  ⟨h.cmds, fun k _ => h.ctxAt k, by rw [h.ctxAt]⟩

namespace OnlyPath

variable {n : Nat} {s t u : State}

theorem trans (h : OnlyPath n s t) (k : OnlyPath n t u) : OnlyPath n s u := by
  obtain ⟨hcmds, hothers, hself⟩ := h
  obtain ⟨kcmds, kothers, kself⟩ := k
  exact ⟨kcmds.trans hcmds, fun j hj => (kothers j hj).trans (hothers j hj), by rw [kself, hself]⟩

/-- A part of a context that is neither its accesses nor its window is as it was, in every context. -/
theorem part {α : Type} (h : OnlyPath n s t) {f : Ctx → α} (hf : ∀ c al w, f { c with acc := al, window := w } = f c) (k : Nat) :
    f (t.ctxAt k) = f (s.ctxAt k) := by
  obtain ⟨-, hothers, hself⟩ := h
  by_cases hk : k = n
  · rw [hk, hself, hf]
  · rw [hothers k hk]

theorem grpOf (h : OnlyPath n s t) (k : Nat) : t.grpOf k = s.grpOf k := by
  rw [State.grpOf, State.grpOf, h.part (f := Ctx.grp) (fun _ _ _ => rfl)]

end OnlyPath

theorem onlyPath_modCtx {n : Nat} {s : State} {f : Ctx → Ctx} (h : ∀ c, ∃ al w, f c = { c with acc := al, window := w }) :
    OnlyPath n s (s.modCtx n f) := by
  obtain ⟨al, w, hf⟩ := h (s.ctxAt n)
  exact ⟨rfl, fun k hk => State.ctxAt_modCtx_ne _ _ _ _ hk, by rw [State.ctxAt_modCtx_self, hf]⟩

theorem onlyPath_putAcc (s : State) (n : Nat) (a : Access) : OnlyPath n s (s.putAcc n a) := onlyPath_modCtx fun _ => ⟨_, _, rfl⟩

theorem onlyPath_dropAcc (s : State) (n sn : Nat) : OnlyPath n s (s.dropAcc n sn) := onlyPath_modCtx fun _ => ⟨_, _, rfl⟩

theorem onlyPath_closeWindow (s : State) (n sn : Nat) : OnlyPath n s (s.closeWindow n sn) := by
  unfold State.closeWindow
  split
  · exact onlyPath_modCtx fun _ => ⟨_, _, rfl⟩
  · exact (OnlyMemory.refl s).onlyPath n

theorem acc_closeWindow (s : State) (n sn : Nat) : ((s.closeWindow n sn).ctxAt n).acc = (s.ctxAt n).acc := by
  unfold State.closeWindow
  split
  · rw [State.ctxAt_modCtx_self]
  · rfl

/-! Finding an access. -/

theorem findAcc_mem {c : Ctx} {sn : Nat} {a : Access} (h : c.findAcc sn = some a) : a ∈ c.acc ∧ a.sn = sn :=
  ⟨List.mem_of_find?_eq_some h, by simpa using List.find?_some h⟩

theorem findAcc_dropAcc (c : Ctx) (sn : Nat) : (c.dropAcc sn).findAcc sn = none := by
  unfold Ctx.findAcc Ctx.dropAcc
  rw [List.find?_eq_none]
  intro a ha
  simpa using (List.mem_filter.mp ha).2

/-- Every access with the number of one that was put is that one. -/
theorem mem_putAcc_sn {c : Ctx} {a b : Access} (hb : b ∈ (c.putAcc a).acc) (hsn : b.sn = a.sn) : b = a := by
  obtain ⟨d, -, rfl⟩ := List.mem_map.mp hb
  split
  · rfl
  · next hd => rw [if_neg hd] at hsn; contradiction

theorem findAcc_putAcc {c : Ctx} {a : Access} (h : (c.findAcc a.sn).isSome) : (c.putAcc a).findAcc a.sn = some a := by
  obtain ⟨b, hb⟩ := Option.isSome_iff_exists.mp h
  obtain ⟨hmem, hsn⟩ := findAcc_mem hb
  have hput : a ∈ (c.putAcc a).acc := List.mem_map.mpr ⟨b, hmem, if_pos hsn⟩
  cases hfind : (c.putAcc a).findAcc a.sn with
  | none =>
    have hno := List.find?_eq_none.mp hfind a hput
    simp at hno
  | some e =>
    obtain ⟨he, hesn⟩ := findAcc_mem hfind
    rw [mem_putAcc_sn he hesn]

/-! Fences that leave the path. -/

theorem onlyMemory_tidyFences (n : Nat) : ∀ (l : List Access) (s : State), OnlyMemory s (tidyFences n l s).1
  | [], s => .refl s
  | a :: l, s => by
    unfold tidyFences
    split
    · exact (onlyMemory_fenceDone s n _ _ _).trans (onlyMemory_tidyFences n l _)
    · split
      · exact onlyMemory_tidyFences n l s
      · exact .refl s

/-- Fences alone leave. -/
theorem find_tidyFences {n sn : Nat} : ∀ (l : List Access) (s : State), (∀ a, a ∈ l → a.sn = sn → isFence a.ins = false) →
    (tidyFences n l s).2.find? (·.sn = sn) = l.find? (·.sn = sn)
  | [], _, _ => rfl
  | a :: l, s, h => by
    have ih := fun s => find_tidyFences (n := n) l s fun b hb => h b (List.mem_cons_of_mem a hb)
    unfold tidyFences
    split
    · next heq =>
      have hsn : ¬a.sn = sn := fun e => by
        have hno := h a List.mem_cons_self e
        rw [heq] at hno
        contradiction
      rw [ih, List.find?_cons_of_neg (by simpa using hsn)]
    · split
      · dsimp only
        rw [List.find?_cons, List.find?_cons, ih]
      · rfl

theorem tidyFences_of_none {n : Nat} : ∀ (l : List Access) (s : State), (∀ a, a ∈ l → isFence a.ins = false) → tidyFences n l s = (s, l)
  | [], _, _ => rfl
  | a :: l, s, h => by
    have ih := tidyFences_of_none (n := n) l s fun b hb => h b (List.mem_cons_of_mem a hb)
    unfold tidyFences
    split
    · next heq =>
      have hno := h a List.mem_cons_self
      rw [heq] at hno
      contradiction
    · rw [ih]
      split <;> rfl

theorem onlyPath_tidy (s : State) (n : Nat) : OnlyPath n s (s.tidy n) := by
  unfold State.tidy
  dsimp only
  split
  · exact (OnlyMemory.refl s).onlyPath n
  · exact ((onlyMemory_tidyFences n _ s).onlyPath n).trans (onlyPath_modCtx fun _ => ⟨_, _, rfl⟩)

theorem acc_tidy (s : State) (n : Nat) : ((s.tidy n).ctxAt n).acc = (tidyFences n (s.ctxAt n).acc s).2 := by
  by_cases h : (tidyFences n (s.ctxAt n).acc s).2 = (s.ctxAt n).acc
  · rw [tidy_of_same h, h]
  · rw [tidy_of_changed h, State.ctxAt_modCtx_self]

theorem findAcc_tidy {s : State} {n sn : Nat} (h : ∀ a, a ∈ (s.ctxAt n).acc → a.sn = sn → isFence a.ins = false) :
    ((s.tidy n).ctxAt n).findAcc sn = (s.ctxAt n).findAcc sn := by
  rw [Ctx.findAcc, acc_tidy, find_tidyFences _ _ h]
  rfl

theorem tidy_of_no_fence {s : State} {n : Nat} (h : ∀ a, a ∈ (s.ctxAt n).acc → isFence a.ins = false) : s.tidy n = s :=
  tidy_of_same (by rw [tidyFences_of_none _ _ h])

/-- An access that has left the path stays away. -/
theorem findAcc_tidy_none {s : State} {n sn : Nat} (h : (s.ctxAt n).findAcc sn = none) : ((s.tidy n).ctxAt n).findAcc sn = none := by
  have hno : ∀ a, a ∈ (s.ctxAt n).acc → ¬a.sn = sn := fun a ha => by simpa using List.find?_eq_none.mp h a ha
  rw [findAcc_tidy fun a ha hsn => absurd hsn (hno a ha), h]

/-! Memory at rest: with no write on its way, only a write changes it. -/

/-- With no write on its way in s there is none in t, whose memory is that of s. -/
def AtRest (s t : State) : Prop := s.pw = [] → s.rw = [] → t.mem = s.mem ∧ t.pw = [] ∧ t.rw = []

namespace AtRest

theorem of_eq {s t : State} (hm : t.mem = s.mem) (hp : t.pw = s.pw) (hr : t.rw = s.rw) : AtRest s t :=
  fun p r => ⟨hm, hp.trans p, hr.trans r⟩

theorem refl (s : State) : AtRest s s := of_eq rfl rfl rfl

theorem trans {s t u : State} (h : AtRest s t) (k : AtRest t u) : AtRest s u := fun p r => by
  obtain ⟨hm, hp, hr⟩ := h p r
  obtain ⟨km, kp, kr⟩ := k hp hr
  exact ⟨km.trans hm, kp, kr⟩

end AtRest

theorem atRest_modCtx (s : State) (n : Nat) (f : Ctx → Ctx) : AtRest s (s.modCtx n f) := .of_eq rfl rfl rfl

theorem atRest_closeWindow (s : State) (n sn : Nat) : AtRest s (s.closeWindow n sn) := by
  unfold State.closeWindow
  split
  · exact atRest_modCtx _ _ _
  · exact .refl s

theorem atRest_passOn (s : State) (n sc : Nat) : AtRest s (s.passOn n sc) := by
  unfold State.passOn
  split <;> exact .of_eq rfl rfl rfl

theorem atRest_acquire (s : State) (n sc : Nat) : AtRest s (s.acquire n sc) := by
  unfold State.acquire
  split <;> exact .of_eq rfl rfl rfl

theorem atRest_forgetAt (s : State) (n key : Nat) : AtRest s (s.forgetAt n key) := by
  unfold State.forgetAt
  split <;> exact .of_eq rfl rfl rfl

theorem commitCovered_of_nothing {s : State} (n : Nat) (f : PWrite → Bool) (h : s.pw = []) : s.commitCovered n f = s := by
  unfold State.commitCovered
  rw [h]
  rfl

theorem flushKey_of_nothing {s : State} (n key : Nat) (h : s.pw = []) : s.flushKey n key = s := commitCovered_of_nothing n _ h

theorem applyWhere_of_nothing {s : State} (f : RWrite → Bool) (h : s.rw = []) : s.applyWhere f = s := by
  unfold State.applyWhere
  rw [h]
  rfl

theorem beginSo_of_nothing {s : State} (n : Nat) (p : Piece) (h : s.rw = []) : s.beginSo n p = s := by
  unfold State.beginSo
  rw [applyWhere_of_nothing _ h, ite_self]

theorem atRest_showGroup (s : State) (n : Nat) : AtRest s (s.showGroup n) := by
  intro hp hr
  have hmerged : s.showMerged n = { s with rw := [] } := by
    unfold State.showMerged State.commitWhere
    rw [hr, hp]
    rfl
  rw [showGroup_eq, hmerged]
  unfold State.showMarked
  rw [hp]
  exact ⟨rfl, rfl, rfl⟩

theorem atRest_flushTo (s : State) (n : Nat) (sc : Scope) : AtRest s (s.flushTo n sc) := by
  have hall : ∀ k, AtRest s (((s.commitCovered n fun _ => true).applyRepl).passOn n k) := by
    intro k hp hr
    rw [commitCovered_of_nothing n _ hp, State.applyRepl, applyWhere_of_nothing _ hr]
    exact atRest_passOn s n k hp hr
  cases sc with
  | ctx => exact .refl s
  | grp => exact (atRest_showGroup s n).trans (atRest_passOn _ _ _)
  | dev => exact hall 2
  | sys => exact hall 3

theorem atRest_fenceDone (s : State) (n : Nat) (eng : Bool) (k : FenceKind) (sc : Scope) : AtRest s (s.fenceDone n eng k sc) := by
  have hshow : ∀ t, AtRest s t → AtRest s (if eng then t.showEng n else t) := by
    intro t h
    split
    · refine h.trans fun hp hr => ⟨rfl, ?_, hr⟩
      rw [State.showEng, hp]
      rfl
    · exact h
  unfold State.fenceDone
  refine hshow _ ?_
  cases k with
  | full => exact (atRest_flushTo s n sc).trans (atRest_acquire _ n _)
  | acq => exact atRest_acquire s n _
  | rel => exact atRest_flushTo s n sc

theorem atRest_tidyFences (n : Nat) : ∀ (l : List Access) (s : State), AtRest s (tidyFences n l s).1
  | [], s => .refl s
  | a :: l, s => by
    unfold tidyFences
    split
    · exact (atRest_fenceDone s n _ _ _).trans (atRest_tidyFences n l _)
    · split
      · exact atRest_tidyFences n l s
      · exact .refl s

theorem atRest_tidy (s : State) (n : Nat) : AtRest s (s.tidy n) := by
  unfold State.tidy
  dsimp only
  split
  · exact .refl s
  · exact (atRest_tidyFences n _ s).trans (atRest_modCtx _ _ _)

/-! The checks of scratch (R205, R294, R314). -/

/-- A touch changes region tables, kept tiles and guard reports alone. -/
theorem touch_eq (s : State) (key len : Nat) (isWrite : Bool) (agent : Nat) : s.touch key len isWrite agent =
    { s with cores := (s.touch key len isWrite agent).cores, tasks := (s.touch key len isWrite agent).tasks } := by
  unfold State.touch
  split
  · dsimp only
    split <;> split <;> split <;> rfl
  · rfl

theorem atRest_touch (s : State) (key len : Nat) (isWrite : Bool) (agent : Nat) : AtRest s (s.touch key len isWrite agent) := by
  rw [touch_eq]
  exact .of_eq rfl rfl rfl

/-- An access outside of scratch, or of a task that holds, meets no race. -/
theorem raceCheck_free {s : State} {task : Option Nat} {hold : Bool} {key : Nat} (len : Nat) (isWrite : Bool) (h : hold = true ∨ key < scrBase) :
    s.raceCheck task hold key len isWrite = some s := by
  unfold State.raceCheck isScr
  refine if_pos ?_
  obtain rfl | h := h
  · exact Bool.or_true _
  · simp [Nat.not_le.mpr h]

/-! An access whose value is on its way. -/

/-- Access a of context n has taken v. -/
def State.take (s : State) (n : Nat) (a : Access) (v : Word) : State := ((s.closeWindow n a.sn).putAcc n { a with st := .got v }).tidy n

theorem findAcc_take {s : State} {n sn : Nat} {a : Access} (v : Word) (h : (s.ctxAt n).findAcc sn = some a) (hm : isMem a.ins = true) :
    ((s.take n a v).ctxAt n).findAcc sn = some { a with st := .got v } := by
  obtain ⟨-, rfl⟩ := findAcc_mem h
  have hput : ((s.closeWindow n a.sn).putAcc n { a with st := .got v }).ctxAt n = ((s.closeWindow n a.sn).ctxAt n).putAcc { a with st := .got v } :=
    State.ctxAt_modCtx_self _ _ _
  have hfound : ((s.closeWindow n a.sn).ctxAt n).findAcc a.sn = some a := by rw [Ctx.findAcc, acc_closeWindow]; exact h
  unfold State.take
  rw [findAcc_tidy, hput]
  · exact findAcc_putAcc (a := { a with st := .got v }) (by rw [hfound]; rfl)
  · rw [hput]
    intro b hb hsn
    rw [mem_putAcc_sn hb hsn]
    exact isFence_of_isMem hm

theorem onlyPath_take (s : State) (n : Nat) (a : Access) (v : Word) : OnlyPath n s (s.take n a v) :=
  ((onlyPath_closeWindow s n a.sn).trans (onlyPath_putAcc _ n _)).trans (onlyPath_tidy _ n)

theorem atRest_take (s : State) (n : Nat) (a : Access) (v : Word) : AtRest s (s.take n a v) :=
  ((atRest_closeWindow s n a.sn).trans (atRest_modCtx _ n _)).trans (atRest_tidy _ n)

end Sys2Proof.Machine
end

section
/-! PROOFS. spec/13_memory.md R315, R317, spec/07_memory_instr.md R195: the bytes of an aligned access in its word. -/

namespace Sys2Proof.Machine

open Sys2Proof.Safety

/-! Sizes. -/

theorem accBytes_mem (i : Instr) : accBytes i ∈ [0, 1, 2, 4, 8, 64, 2048] := by
  have hwidth : ∀ z, widthBytes z ∈ [0, 1, 2, 4, 8, 64, 2048] := by
    intro z
    cases z <;> decide
  have hamo : ∀ fn : AmoFn, (if fn = .fadd then 4 else 8) ∈ [0, 1, 2, 4, 8, 64, 2048] := by
    intro fn
    split <;> decide
  unfold accBytes
  split
  any_goals exact hwidth _
  any_goals exact hamo _
  all_goals decide

/-- A scalar access is of 1, 2, 4 or 8 bytes. -/
theorem accBytes_scalar {i : Instr} {len : Nat} (h : accBytes i = len) (h0 : 0 < len) (h8 : len ≤ 8) : len = 1 ∨ len = 2 ∨ len = 4 ∨ len = 8 := by
  have hmem := accBytes_mem i
  rw [h] at hmem
  simp only [List.mem_cons, List.not_mem_nil, or_false] at hmem
  omega

/-- An access that is aligned to its size lies in one aligned word. -/
theorem aligned_fits {key len : Nat} (hlen : len = 1 ∨ len = 2 ∨ len = 4 ∨ len = 8) (hk : key % len = 0) : key % 8 + len ≤ 8 := by
  rcases hlen with rfl | rfl | rfl | rfl <;> omega

/-! What a merge leaves in a byte. -/

theorem memGet_memMerge : ∀ (bs : List Bool) {m : Mem} (a v k : Nat), m.wf = true → memGet (memMerge m a v bs) k =
    if a ≤ k ∧ bs[k - a]? = some true then BitVec.ofNat 8 (v / 256 ^ (k - a)) else memGet m k
  | [], _, _, _, _, _ => by simp [memMerge]
  | b :: bs, m, a, v, k, h => by
    have hset : ∃ m' : Mem, (if b then memSet m a (BitVec.ofNat 8 v) else m) = m' ∧ m'.wf = true ∧
        memGet m' a = (if b then BitVec.ofNat 8 v else memGet m a) ∧ ∀ j, j ≠ a → memGet m' j = memGet m j := by
      cases b with
      | true => exact ⟨_, rfl, wf_memSet a _ h, memGet_memSet_self a _ h, fun j hj => memGet_memSet_ne a j _ h hj⟩
      | false => exact ⟨_, rfl, h, rfl, fun _ _ => rfl⟩
    obtain ⟨m', hm, hw, hself, hother⟩ := hset
    rw [memMerge, hm, memGet_memMerge bs (a + 1) (v / 256) k hw]
    obtain hlt | rfl | hgt := Nat.lt_trichotomy k a
    · rw [if_neg fun hle => absurd hle.1 (by omega), if_neg fun hle => absurd hle.1 (by omega), hother k (by omega)]
    · rw [if_neg fun hle => absurd hle.1 (by omega), hself]
      simp
    · obtain ⟨j, rfl⟩ : ∃ j, k = a + 1 + j := ⟨k - a - 1, by omega⟩
      have hsub : a + 1 + j - a = j + 1 := by omega
      rw [hother _ (by omega), hsub, Nat.add_sub_cancel_left, List.getElem?_cons_succ, Nat.div_div_eq_div_mul, ← Nat.pow_succ']
      exact if_congr (and_congr_left' (iff_of_true (by omega) (by omega))) rfl rfl

theorem enList_enOf {off len j : Nat} (h : off + len ≤ 8) : (enList (enOf off len))[j]? = some true ↔ off ≤ j ∧ j < off + len := by
  by_cases hj : j < 8
  · have hbit : (enOf off len).getLsbD j = decide (off ≤ j ∧ j < off + len) := by
      rw [enOf, BitVec.getLsbD_ofNat, Nat.testBit_shiftLeft, Nat.testBit_two_pow_sub_one]
      simp only [hj, decide_true, Bool.true_and, ← Bool.decide_and]
      exact decide_eq_decide.mpr (by omega)
    have hget : (enList (enOf off len))[j]? = some ((enOf off len).getLsbD j) := by
      unfold enList upTo
      rw [List.getElem?_map, List.getElem?_range hj]
      rfl
    rw [hget, hbit]
    simp
  · have hlen : (enList (enOf off len)).length ≤ j := by
      have : (enList (enOf off len)).length = 8 := by simp [enList, upTo]
      omega
    rw [List.getElem?_eq_none hlen]
    constructor
    · exact nofun
    · omega

/-- Byte off + i of a word shifted up by off bytes is byte i of the word. -/
theorem byte_of_shifted (v : Word) {off i : Nat} (h : off + i < 8) :
    BitVec.ofNat 8 ((v <<< (8 * off)).toNat / 256 ^ (off + i)) = v.extractLsb' (8 * i) 8 := by
  have hpow : 256 ^ (off + i) = 2 ^ (8 * (off + i)) := by rw [show (256 : Nat) = 2 ^ 8 from rfl, ← Nat.pow_mul]
  apply BitVec.eq_of_getLsbD_eq
  intro b hb
  rw [hpow, BitVec.getLsbD_ofNat, ← Nat.shiftRight_eq_div_pow, Nat.testBit_shiftRight, BitVec.getLsbD_extractLsb',
    show (v <<< (8 * off)).toNat.testBit (8 * (off + i) + b) = (v <<< (8 * off)).getLsbD (8 * (off + i) + b) from rfl,
    BitVec.getLsbD_shiftLeft, show 8 * (off + i) + b - 8 * off = 8 * i + b from by omega,
    decide_eq_false (show ¬8 * (off + i) + b < 8 * off from by omega), decide_eq_true (show 8 * (off + i) + b < 64 from by omega)]
  rfl

/-- The bytes of an access are merged into its aligned word: they are there, lowest first, and no other byte changes. -/
theorem memGet_memMerge_access {m : Mem} {key len : Nat} (v : Word) (q : Nat) (hw : m.wf = true) (hfit : key % 8 + len ≤ 8) :
    memGet (memMerge m (key / 8 * 8) (v <<< (8 * (key % 8))).toNat (enList (enOf (key % 8) len))) q =
      if key ≤ q ∧ q < key + len then v.extractLsb' (8 * (q - key)) 8 else memGet m q := by
  have hbyte := enList_enOf (j := q - key / 8 * 8) hfit
  rw [memGet_memMerge _ _ _ _ hw]
  by_cases hq : key ≤ q ∧ q < key + len
  · rw [if_pos hq, if_pos ⟨by omega, hbyte.mpr (by omega)⟩, show q - key / 8 * 8 = key % 8 + (q - key) from by omega]
    exact byte_of_shifted v (by omega)
  · rw [if_neg hq, if_neg fun h => hq (by have hlane := hbyte.mp h.2; omega)]

/-! What is read from a word. -/

theorem memWord_toNat (m : Mem) (a : Nat) : (memWord m a).toNat = memReadN m a 8 := by
  rw [memWord, BitVec.toNat_ofNat]
  exact Nat.mod_eq_of_lt (memReadN_lt m 8 a)

/-- The bytes of an access are those of its aligned word that it covers. -/
theorem memWord_bits_access (m : Mem) {key len : Nat} (hfit : key % 8 + len ≤ 8) :
    bitsOf (memWord m (key / 8 * 8)).toNat (8 * (key % 8)) (8 * len) = memReadN m key len := by
  have hkey : key / 8 * 8 + key % 8 = key := by omega
  have hpow : ∀ k, 2 ^ (8 * k) = 256 ^ k := fun k => by rw [show (256 : Nat) = 2 ^ 8 from rfl, ← Nat.pow_mul]
  have hpart := memReadN_part m (a := key / 8 * 8) hfit
  rw [hkey] at hpart
  rw [bitsOf, memWord_toNat, Nat.shiftRight_eq_div_pow, hpow, hpow, hpart]

/-- A byte of what has been read. -/
theorem byte_of_memReadN (m : Mem) {key len i : Nat} (h8 : len ≤ 8) (hi : i < len) :
    (BitVec.ofNat 64 (memReadN m key len)).extractLsb' (8 * i) 8 = memGet m (key + i) := by
  have hlt : memReadN m key len < 2 ^ 64 := (memReadN_lt m len key).trans_le (by
    calc 256 ^ len ≤ 256 ^ 8 := Nat.pow_le_pow_right (by decide) h8
      _ = 2 ^ 64 := by decide)
  have hone : memReadN m (key + i) 1 = (memGet m (key + i)).toNat := by simp [memReadN]
  have hpart := memReadN_part m (a := key) (k := i) (n := 1) (size := len) hi
  have hpow : 2 ^ (8 * i) = 256 ^ i := by rw [show (256 : Nat) = 2 ^ 8 from rfl, ← Nat.pow_mul]
  apply BitVec.eq_of_toNat_eq
  rw [BitVec.extractLsb'_toNat, BitVec.toNat_ofNat, Nat.mod_eq_of_lt hlt, Nat.shiftRight_eq_div_pow, hpow, ← hone, hpart]
  rfl

end Sys2Proof.Machine
end

section
/-! PROOFS. spec/07_memory_instr.md R195, R199, spec/14_ordering.md R316, R317: a scalar store is performed. -/

namespace Sys2Proof.Machine

open Sys2Proof.Safety

theorem accBytes_ldv (t a : Reg) (wa : Bool) (disp : BitVec 11) : accBytes (.ldv t a wa disp) = 2048 := rfl

theorem accBytes_stv (t a : Reg) (wa : Bool) (disp : BitVec 11) : accBytes (.stv t a wa disp) = 2048 := rfl

theorem isMem_of_isStore {i : Instr} (h : isStore i = true) : isMem i = true := by rw [isMem, h, Bool.or_true]

theorem isMem_of_isLoad {i : Instr} (h : isLoad i = true) : isMem i = true := by rw [isMem, h, Bool.true_or]

theorem isAmo_of_not_isLoad {i : Instr} (h : isLoad i = false) : isAmo i = false := by
  unfold isLoad at h
  split at h
  any_goals contradiction
  exact (Bool.or_eq_false_iff.mp h).1

theorem isAmo_of_not_isStore {i : Instr} (h : isStore i = false) : isAmo i = false := by
  unfold isStore at h
  split at h
  any_goals contradiction
  exact (Bool.or_eq_false_iff.mp h).1

/-! What the memory path does with a scalar access that is translated and in its turn. -/

/-- Performing a scalar access is a store or a load of its one piece. -/
theorem performAccess_scalar {s : State} {n sn : Nat} {a : Access} {p : Piece} (words : BitVec 512) (hf : (s.ctxAt n).findAcc sn = some a)
    (hm : isMem a.ins = true) (hamo : isAmo a.ins = false) (hwr : a.wr = []) (hlen : accBytes a.ins ≤ 8) (hst : a.st = .ready p none)
    (hmay : mayPerform s n a = true) (hso : soFree (s.ctxAt n) a p = true) : performAccess s n sn words =
      (if isStore a.ins then performStore (s.beginSo n p |>.beginSo n p) n a p else performLoad (s.beginSo n p |>.beginSo n p) n a p).tidy n := by
  unfold performAccess
  simp only [hf, hm, hwr, hst, hamo, hmay, hso, Bool.not_true, Bool.false_eq_true, if_false, List.isEmpty_nil, Bool.or_false, Bool.and_false,
    Option.getD_none]
  congr 1
  split
  · next hi => rw [hi, accBytes_ldv] at hlen; omega
  · next hi => rw [hi, accBytes_stv] at hlen; omega
  · rfl

/-- The state in which a store writes: its release has been performed, its touch noted, and a handler's window closed. -/
def State.storing (s : State) (n : Nat) (a : Access) (p : Piece) : State :=
  ((match relScope a.ins with | some sc => s.flushTo n sc | none => s).touch p.key (accBytes a.ins) true (agentCode n)).closeWindow n a.sn

/-- The write of a store to the word that its bytes lie in. -/
def State.writeStore (s : State) (n : Nat) (a : Access) (p : Piece) : State :=
  s.write n p (p.key / 8 * 8) (enOf (p.key % 8) (accBytes a.ins)) (a.vt <<< (8 * (p.key % 8)))

theorem performStore_eq {s : State} {n : Nat} {a : Access} {p : Piece} (h : a.hold = true ∨ p.key < scrBase) :
    performStore s n a p = ((s.storing n a p).writeStore n a p).dropAcc n a.sn := by
  unfold performStore
  dsimp only
  rw [raceCheck_free _ _ h]
  rfl

theorem onlyPath_storing (s : State) (n : Nat) (a : Access) (p : Piece) : OnlyPath n s (s.storing n a p) := by
  unfold State.storing
  cases relScope a.ins with
  | none => exact ((onlyMemory_touch _ _ _ _ _).onlyPath n).trans (onlyPath_closeWindow _ _ _)
  | some sc => exact (((onlyMemory_flushTo s n sc).trans (onlyMemory_touch _ _ _ _ _)).onlyPath n).trans (onlyPath_closeWindow _ _ _)

theorem atRest_storing (s : State) (n : Nat) (a : Access) (p : Piece) : AtRest s (s.storing n a p) := by
  unfold State.storing
  cases relScope a.ins with
  | none => exact (atRest_touch _ _ _ _ _).trans (atRest_closeWindow _ _ _)
  | some sc => exact ((atRest_flushTo s n sc).trans (atRest_touch _ _ _ _ _)).trans (atRest_closeWindow _ _ _)

/-- With no write on its way, a write to an SO page merges its bytes into the word at its home. -/
theorem write_so_atRest {s : State} {n : Nat} {p : Piece} (key : Nat) (en : BitVec 8) (val : Word) (hso : p.ord = .so) (hrepl : p.repl = none)
    (hp : s.pw = []) (hr : s.rw = []) : (s.write n p key en val).mem = memMerge s.mem key val.toNat (enList en) ∧
      (s.write n p key en val).pw = [] ∧ (s.write n p key en val).rw = [] := by
  obtain ⟨hm, hp', hr'⟩ := atRest_forgetAt s n key hp hr
  have hwrite : s.write n p key en val = ((s.forgetAt n key).homeWrite n key en val).showUo key fun _ => false := by
    unfold State.write
    rw [beginSo_of_nothing n p hr]
    simp only [hrepl, hso]
    rw [flushKey_of_nothing n key hp']
  rw [hwrite, ← hm]
  exact ⟨rfl, hp', hr'⟩

/-- A write to an RC page is made known to the writer alone. -/
theorem write_rc {s : State} {n : Nat} {p : Piece} (key : Nat) (en : BitVec 8) (val : Word) (hrc : p.ord = .rc) (hrepl : p.repl = none) :
    s.write n p key en val = { s.forgetAt n key with
      pw := (s.forgetAt n key).pw ++ [{ key := key, en := en, val := val, owner := n, grp := (s.forgetAt n key).grpOf n }] } := by
  have hbegin : s.beginSo n p = s := by
    unfold State.beginSo
    rw [hrc]
    rfl
  unfold State.write
  rw [hbegin]
  simp only [hrepl, hrc]

theorem forgetAt_eq (s : State) (n key : Nat) : s.forgetAt n key = { s with early := (s.forgetAt n key).early } := by
  unfold State.forgetAt
  split <;> rfl

/-! What each agent sees of a write that waits. -/

theorem touch_memory (s : State) (key len : Nat) (isWrite : Bool) (agent : Nat) : (s.touch key len isWrite agent).mem = s.mem ∧
    (s.touch key len isWrite agent).rw = s.rw ∧ (s.touch key len isWrite agent).uo = s.uo ∧ (s.touch key len isWrite agent).pw = s.pw := by
  rw [touch_eq]
  exact ⟨rfl, rfl, rfl, rfl⟩

theorem sees_congr {s t : State} (h : ∀ k, t.grpOf k = s.grpOf k) (m : Nat) : t.sees m = s.sees m := by
  funext w
  rw [State.sees, State.sees, h]

/-- A write of agent n that its group has not seen is read by n, above what it read before, and by no one else. -/
theorem view_of_write_added {s t : State} {n key : Nat} {en : BitVec 8} {val : Word} {grp : Nat} (hm : t.mem = s.mem) (hr : t.rw = s.rw)
    (hu : t.uo = s.uo) (hp : t.pw = s.pw ++ [{ key := key, en := en, val := val, owner := n, grp := grp }]) (hg : ∀ k, t.grpOf k = s.grpOf k)
    (m w : Nat) : t.view m w = if m = n ∧ w = key then applyEn (s.view n w) en val else s.view m w := by
  have hbefore : t.view m w = (fun x => if key = w ∧ n = m then applyEn x en val else x) (s.view m w) := by
    unfold State.view State.viewBy
    rw [sees_congr hg, hm, hr, hu, hp, List.foldl_append]
    simp [State.sees]
  rw [hbefore]
  by_cases hmw : m = n ∧ w = key
  · obtain ⟨rfl, rfl⟩ := hmw
    simp
  · rw [if_neg hmw]
    exact if_neg fun h => hmw ⟨h.2.symm, h.1.symm⟩

/-! The store as a move. -/

section
variable {s : State} {ag : Agent} {n sn len : Nat} {words : BitVec 512} {a : Access} {p : Piece}

/-- The state after a scalar store is performed. -/
def State.stored (s : State) (n : Nat) (a : Access) (p : Piece) : State :=
  (((((s.beginSo n p).beginSo n p).storing n a p).writeStore n a p).dropAcc n a.sn).tidy n

theorem perform_store (hn : agentNum ag = n) (hgo : (s.ctxAt n).st ≠ .frozen) (hf : (s.ctxAt n).findAcc sn = some a)
    (hstore : isStore a.ins = true) (hload : isLoad a.ins = false) (hwr : a.wr = []) (hlen : accBytes a.ins ≤ 8) (hst : a.st = .ready p none)
    (hmay : mayPerform s n a = true) (hso : soFree (s.ctxAt n) a p = true) (hrace : a.hold = true ∨ p.key < scrBase) :
    doPick exec (.perform ag sn words) s = .next (s.stored n a p) := by
  have hdo : doPick exec (.perform ag sn words) s = .next (s.whenGoing n fun s => performAccess s n sn words) := by rw [← hn]; rfl
  rw [hdo, whenGoing_of_goes _ hgo, performAccess_scalar words hf (isMem_of_isStore hstore) (isAmo_of_not_isLoad hload) hwr hlen hst hmay hso,
    if_pos hstore, performStore_eq hrace]
  rfl

theorem onlyPath_stored (s : State) (n : Nat) (a : Access) (p : Piece) : OnlyPath n s (s.stored n a p) :=
  have hbegin := ((onlyMemory_beginSo s n p).trans (onlyMemory_beginSo _ n p)).onlyPath n
  have hwrite := (hbegin.trans (onlyPath_storing _ n a p)).trans ((onlyMemory_write _ _ _ _ _ _).onlyPath n)
  (hwrite.trans (onlyPath_dropAcc _ _ _)).trans (onlyPath_tidy _ _)

theorem findAcc_stored (s : State) (n : Nat) (a : Access) (p : Piece) : ((s.stored n a p).ctxAt n).findAcc a.sn = none := by
  refine findAcc_tidy_none ?_
  unfold State.dropAcc
  rw [State.ctxAt_modCtx_self]
  exact findAcc_dropAcc _ _

/-- On an SO page the bytes are in memory. -/
theorem mem_stored_so (hso : p.ord = .so) (hrepl : p.repl = none) (hp : s.pw = []) (hr : s.rw = []) (hw : MemSound s)
    (hfit : p.key % 8 + accBytes a.ins ≤ 8) (q : Nat) : memGet (s.stored n a p).mem q =
      if p.key ≤ q ∧ q < p.key + accBytes a.ins then a.vt.extractLsb' (8 * (q - p.key)) 8 else memGet s.mem q := by
  obtain ⟨hm1, hp1, hr1⟩ := atRest_storing s n a p hp hr
  obtain ⟨hm2, hp2, hr2⟩ := write_so_atRest (n := n) (p.key / 8 * 8) (enOf (p.key % 8) (accBytes a.ins)) (a.vt <<< (8 * (p.key % 8)))
    hso hrepl hp1 hr1
  obtain ⟨hm3, -, -⟩ := ((atRest_modCtx _ n fun c => c.dropAcc a.sn).trans (atRest_tidy _ n)) hp2 hr2
  have hmem : (s.stored n a p).mem = memMerge s.mem (p.key / 8 * 8) (a.vt <<< (8 * (p.key % 8))).toNat (enList (enOf (p.key % 8) (accBytes a.ins))) := by
    rw [← hm1, ← hm2, ← hm3]
    unfold State.stored
    rw [beginSo_of_nothing n p hr, beginSo_of_nothing n p hr]
    rfl
  rw [hmem]
  exact memGet_memMerge_access _ q hw hfit

/-- On an RC page, with no release and no fence about, the store is one write more on its way. -/
theorem stored_rc (hrc : p.ord = .rc) (hrepl : p.repl = none) (hrel : relScope a.ins = none)
    (hfence : ∀ e, e ∈ (s.ctxAt n).acc → isFence e.ins = false) : (s.stored n a p).mem = s.mem ∧ (s.stored n a p).rw = s.rw ∧
      (s.stored n a p).uo = s.uo ∧ ∃ grp, (s.stored n a p).pw = s.pw ++
        [{ key := p.key / 8 * 8, en := enOf (p.key % 8) (accBytes a.ins), val := a.vt <<< (8 * (p.key % 8)), owner := n, grp := grp }] := by
  have hbegin : s.beginSo n p = s := by
    unfold State.beginSo
    rw [hrc]
    rfl
  have hstoring : s.storing n a p = (s.touch p.key (accBytes a.ins) true (agentCode n)).closeWindow n a.sn := by rw [State.storing, hrel]
  have hclose : ∀ u : State, (u.closeWindow n a.sn).mem = u.mem ∧ (u.closeWindow n a.sn).rw = u.rw ∧ (u.closeWindow n a.sn).uo = u.uo ∧
      (u.closeWindow n a.sn).pw = u.pw := by
    intro u
    unfold State.closeWindow
    split <;> exact ⟨rfl, rfl, rfl, rfl⟩
  obtain ⟨hm, hr, hu, hp⟩ := hclose (s.touch p.key (accBytes a.ins) true (agentCode n))
  have hdrop : ∀ e, e ∈ ((((s.storing n a p).writeStore n a p).dropAcc n a.sn).ctxAt n).acc → isFence e.ins = false := by
    intro e he
    have hwritten : ((s.storing n a p).writeStore n a p).ctxAt n = (s.storing n a p).ctxAt n := (onlyMemory_write _ _ _ _ _ _).ctxAt n
    have hacc : ((s.storing n a p).ctxAt n).acc = (s.ctxAt n).acc := by rw [hstoring, acc_closeWindow, (onlyMemory_touch _ _ _ _ _).ctxAt]
    rw [State.dropAcc, State.ctxAt_modCtx_self, hwritten] at he
    exact hfence e (hacc ▸ (List.mem_filter.mp he).1)
  have hstored : s.stored n a p = ((s.storing n a p).writeStore n a p).dropAcc n a.sn := by
    unfold State.stored
    rw [hbegin, hbegin]
    exact tidy_of_no_fence hdrop
  rw [hstored, State.writeStore, write_rc _ _ _ hrc hrepl, forgetAt_eq, hstoring]
  obtain ⟨tm, tr, tu, tp⟩ := touch_memory s p.key (accBytes a.ins) true (agentCode n)
  exact ⟨hm.trans tm, hr.trans tr, hu.trans tu, _, congrArg (· ++ _) (hp.trans tp)⟩

end

/-- Settles O28: the parts of a store that is performed, and what memory and the agents hold after it. -/
theorem storesPerform : Obligations.StoresPerform := by
  intro s ag n sn len words a p hn hgo hf hstore hload hwr hlen h0 h8 hst hmay hso hrepl hkey hrace hw
  subst hlen
  have hpath := onlyPath_stored s n a p
  have hfit := aligned_fits (accBytes_scalar rfl h0 h8) hkey
  obtain ⟨-, rfl⟩ := findAcc_mem hf
  refine ⟨s.stored n a p, perform_store hn hgo hf hstore hload hwr h8 hst hmay hso hrace, findAcc_stored s n a p, fun m => ?registers,
    fun hord hp hr q => mem_stored_so hord hrepl hp hr hw hfit q, fun hrc hrel hfence => ?rc⟩
  case registers =>
    exact ⟨hpath.part (f := Ctx.x) (fun _ _ _ => rfl) m, hpath.part (f := Ctx.v) (fun _ _ _ => rfl) m,
      hpath.part (f := Ctx.m) (fun _ _ _ => rfl) m, hpath.part (f := Ctx.cr) (fun _ _ _ => rfl) m⟩
  case rc =>
    obtain ⟨hm, hr, hu, grp, hp⟩ := stored_rc hrc hrepl hrel hfence
    exact ⟨hm, view_of_write_added hm hr hu hp hpath.grpOf⟩

end Sys2Proof.Machine
end

section
/-! PROOFS. spec/07_memory_instr.md R197 to R201: a scalar load takes its value, and a value on its way fills its register. -/

namespace Sys2Proof.Machine

open Sys2Proof.Safety

/-! A load takes its value. -/

/-- A load reads what its checks of scratch leave as it was. -/
theorem viewPlain_touch (s : State) (key len : Nat) (isWrite : Bool) (agent n w : Nat) :
    (s.touch key len isWrite agent).viewPlain n w = s.viewPlain n w := by
  rw [touch_eq]
  rfl

theorem view_touch (s : State) (key len : Nat) (isWrite : Bool) (agent n w : Nat) : (s.touch key len isWrite agent).view n w = s.view n w := by
  rw [touch_eq]
  rfl

theorem isPoison_touch (s : State) (key len : Nat) (isWrite : Bool) (agent n w : Nat) :
    (s.touch key len isWrite agent).isPoison n w = s.isPoison n w := by
  rw [touch_eq]
  rfl

/-- What a load reads of its word: an acquire nothing that it has read ahead. -/
def State.loadWord (s : State) (n : Nat) (a : Access) (p : Piece) : Word :=
  if (acqScope a.ins).isNone then s.viewPlain n (p.key / 8 * 8) else s.view n (p.key / 8 * 8)

/-- A load that can read its word takes its bytes of it. -/
theorem performLoad_take {s : State} {n : Nat} {a : Access} {p : Piece} (hread : s.readable n (p.key / 8 * 8) = true)
    (hpoison : s.isPoison n (p.key / 8 * 8) = false) (hrace : a.hold = true ∨ p.key < scrBase) : ∃ u, OnlyMemory s u ∧
      (performLoad s n a p).tidy n = u.take n a (loadValue a.ins ((s.loadWord n a p).bits (8 * (p.key % 8)) (8 * accBytes a.ins))) := by
  have htouch := onlyMemory_touch s p.key (accBytes a.ins) false (agentCode n)
  unfold performLoad State.loadWord
  simp only [hread, raceCheck_free _ _ hrace, isPoison_touch, viewPlain_touch, view_touch, hpoison, Bool.not_true, Bool.false_eq_true, if_false]
  cases acqScope a.ins with
  | none => exact ⟨_, htouch, rfl⟩
  | some sc => exact ⟨_, (htouch.trans (onlyMemory_forgetAt _ n (p.key / 8 * 8))).trans (onlyMemory_acquire _ n (scopeCode sc)), rfl⟩

theorem perform_load {s : State} {ag : Agent} {n sn : Nat} {words : BitVec 512} {a : Access} {p : Piece} (hn : agentNum ag = n)
    (hgo : (s.ctxAt n).st ≠ .frozen) (hf : (s.ctxAt n).findAcc sn = some a) (hload : isLoad a.ins = true) (hstore : isStore a.ins = false)
    (hwr : a.wr = []) (hlen : accBytes a.ins ≤ 8) (hst : a.st = .ready p none) (hmay : mayPerform s n a = true)
    (hso : soFree (s.ctxAt n) a p = true) (hr : s.rw = []) :
    doPick exec (.perform ag sn words) s = .next ((performLoad s n a p).tidy n) := by
  have hdo : doPick exec (.perform ag sn words) s = .next (s.whenGoing n fun s => performAccess s n sn words) := by rw [← hn]; rfl
  rw [hdo, whenGoing_of_goes _ hgo, performAccess_scalar words hf (isMem_of_isLoad hload) (isAmo_of_not_isStore hstore) hwr hlen hst hmay hso,
    hstore, beginSo_of_nothing n p hr, beginSo_of_nothing n p hr]
  rfl

/-- The signed loads extend the sign (R197). -/
theorem loadValue_signed {i : Instr} (w : Nat) (h : ∃ r b wa d, i = .ldbs r b wa d ∨ i = .ldhs r b wa d ∨ i = .ldws r b wa d) :
    loadValue i w = BitVec.ofInt 64 (sextNat w (8 * accBytes i)) := by
  obtain ⟨_, _, _, _, rfl | rfl | rfl⟩ := h <;> rfl

/-- The others take their bytes with zeros above them (R197, R200). -/
theorem loadValue_unsigned {i : Instr} (w : Nat)
    (h : (∃ r b wa d, i = .ldbn r b wa d ∨ i = .ldhn r b wa d ∨ i = .ldwn r b wa d ∨ i = .ldd r b wa d) ∨ (∃ r b wa z sc, i = .lda r b wa z sc)) :
    loadValue i w = BitVec.ofNat 64 w := by
  obtain ⟨_, _, _, _, rfl | rfl | rfl | rfl⟩ | ⟨_, _, _, _, _, rfl⟩ := h <;> rfl

/-! A value on its way fills its register (R198, R99). -/

theorem findAcc_emptyRows (c : Ctx) (rows : List Nat) (sn : Nat) : (c.emptyRows rows).findAcc sn = c.findAcc sn := by
  rw [emptyRows_frame]
  rfl

theorem findAcc_settleVext {c : Ctx} {sn : Nat} (h : c.findAcc sn = none) : c.settleVext.findAcc sn = none := by
  unfold Ctx.findAcc Ctx.settleVext at *
  rw [List.find?_eq_none] at h ⊢
  intro b hb
  obtain ⟨a, ha, rfl⟩ := List.mem_map.mp hb
  have hsn := h a ha
  split
  · split <;> exact hsn
  · exact hsn

/-- The context once access a has filled its register and left: rows still owed to it stay empty. -/
theorem loadDone_ctx {s : State} {n sn : Nat} {a : Access} {v : Word} {c : Ctx} (hf : (s.ctxAt n).findAcc sn = some a) (hst : a.st = .got v)
    (hext : ∀ d b i t, a.ins ≠ .vext d b i t) (hc : (loadDone s n sn).ctxAt n = c) : c.findAcc sn = none ∧
      c.x = ((s.ctxAt n).fillAccess a v).x ∧ c.v = ((s.ctxAt n).fillAccess a v).v ∧ c.fullX = ((s.ctxAt n).fillAccess a v).fullX ∧
      ∀ r, c.vFull r = (((s.ctxAt n).fillAccess a v).vFull r && !decide (∃ j, j ∈ s.rowsOwed n ∧ BitVec.ofNat 6 j = r)) := by
  obtain ⟨u, hu⟩ : ∃ u, u = s.modCtx n fun c => (c.fillAccess a v).dropAcc sn := ⟨_, rfl⟩
  have hself : u.ctxAt n = ((s.ctxAt n).fillAccess a v).dropAcc sn := by rw [hu, State.ctxAt_modCtx_self]
  have hcomplete : loadComplete s n sn = u.tidy n := by
    unfold loadComplete
    simp only [hf, hst, hu]
  have hpath := onlyPath_tidy u n
  have hgone : ((u.tidy n).ctxAt n).findAcc sn = none := findAcc_tidy_none (by rw [hself]; exact findAcc_dropAcc _ _)
  have howed : (u.tidy n).rowsOwed n = s.rowsOwed n := by
    rw [State.rowsOwed, hpath.1, hu]
    rfl
  have hdone : (((u.tidy n).ctxAt n).emptyRows (s.rowsOwed n)).settleVext = c := by
    rw [← hc, loadDone, hcomplete, State.keepOwed, State.ctxAt_modCtx_self, State.ctxAt_modCtx_self, howed]
  have hframe := emptyRows_frame (s.rowsOwed n) ((u.tidy n).ctxAt n)
  rw [← hdone]
  refine ⟨findAcc_settleVext ((findAcc_emptyRows _ _ _).trans hgone), ?_, ?_, ?_, fun r => ?_⟩
  · exact (congrArg Ctx.x hframe).trans ((hpath.part (f := Ctx.x) (fun _ _ _ => rfl) n).trans (by rw [hself]; rfl))
  · exact (congrArg Ctx.v hframe).trans ((hpath.part (f := Ctx.v) (fun _ _ _ => rfl) n).trans (by rw [hself]; rfl))
  · exact (congrArg Ctx.fullX hframe).trans ((hpath.part (f := Ctx.fullX) (fun _ _ _ => rfl) n).trans (by rw [hself]; rfl))
  · refine (emptyRows_vFull r _ _).trans (congrArg (· && _) ?_)
    exact (hpath.part (f := fun c => c.vFull r) (fun _ _ _ => rfl) n).trans (by rw [hself]; rfl)

section
variable {s : State} {n sn : Nat} {a : Access} {v : Word} {r : Reg}

theorem loadComplete_next {ag : Agent} (hn : agentNum ag = n) (hgo : (s.ctxAt n).st ≠ .frozen) :
    exec (.loadComplete ag sn) s = .next (loadDone s n sn) := by
  have hdo : exec (.loadComplete ag sn) s = .next (s.whenGoing n fun s => loadDone s n sn) := by rw [← hn]; rfl
  rw [hdo, whenGoing_of_goes _ hgo]

/-- No instruction fills a vector register and a scalar one. -/
theorem accDestV_of_accDestX {i : Instr} (h : accDestX i = some r) : accDestV i = none := by
  unfold accDestV
  split
  · exact nomatch h
  · rfl

theorem fillAccess_x (c : Ctx) (h : accDestX a.ins = some r) : c.fillAccess a v = (c.setX r v).markX r true := by
  unfold Ctx.fillAccess
  rw [accDestV_of_accDestX h, h]

theorem fillAccess_v (c : Ctx) (h : accDestV a.ins = some r) : c.fillAccess a v = ((c.setV r a.row).markV r true).markBad r a.bad := by
  unfold Ctx.fillAccess
  rw [h]

/-- The scalar register holds the value and is full; no other one changes. -/
theorem loadDone_fills_x (hf : (s.ctxAt n).findAcc sn = some a) (hst : a.st = .got v) (hd : accDestX a.ins = some r)
    (hext : ∀ d b i t, a.ins ≠ .vext d b i t) : ((loadDone s n sn).ctxAt n).findAcc sn = none ∧ ((loadDone s n sn).ctxAt n).xFull r = true ∧
      (∀ q, ((loadDone s n sn).ctxAt n).getX q = if q = r ∧ q ≠ 0 then v else (s.ctxAt n).getX q) ∧
      ((loadDone s n sn).ctxAt n).v = (s.ctxAt n).v := by
  obtain ⟨hgone, hx, hv, hfull, -⟩ := loadDone_ctx hf hst hext rfl
  have hfill := fillAccess_x (s.ctxAt n) (v := v) hd
  rw [hfill] at hx hv hfull
  refine ⟨hgone, ?full, fun q => ?value, ?rows⟩
  case full =>
    have hmark : ((loadDone s n sn).ctxAt n).xFull r = (((s.ctxAt n).setX r v).markX r true).xFull r := by rw [Ctx.xFull, hfull, Ctx.xFull]
    rw [hmark, markX_xFull]
    split
    · rfl
    · next h => simp [Ctx.xFull, show r = 0 by simpa using h]
  case value =>
    have hget : ((loadDone s n sn).ctxAt n).getX q = ((s.ctxAt n).setX r v).getX q := by simp only [Ctx.getX, hx, Ctx.markX_x]
    rw [hget, getX_setX]
  case rows =>
    rw [hv, Ctx.markX_v, Ctx.setX_v]

/-- A row that no command has yet to write holds the row and is full; no other one changes. -/
theorem loadDone_fills_v (hf : (s.ctxAt n).findAcc sn = some a) (hst : a.st = .got v) (hd : accDestV a.ins = some r)
    (howed : ∀ j, j ∈ s.rowsOwed n → BitVec.ofNat 6 j ≠ r) : ((loadDone s n sn).ctxAt n).findAcc sn = none ∧
      ((loadDone s n sn).ctxAt n).vFull r = true ∧
      (∀ q, ((loadDone s n sn).ctxAt n).getV q = if q = r then a.row else (s.ctxAt n).getV q) ∧
      ((loadDone s n sn).ctxAt n).x = (s.ctxAt n).x := by
  have hext : ∀ d b i t, a.ins ≠ .vext d b i t := by
    intro d b i t hi
    rw [hi] at hd
    contradiction
  obtain ⟨hgone, hx, hv, -, hfull⟩ := loadDone_ctx hf hst hext rfl
  rw [fillAccess_v (s.ctxAt n) (v := v) hd] at hx hv hfull
  refine ⟨hgone, ?full, fun q => ?row, hx⟩
  case full =>
    have hmark : ((((s.ctxAt n).setV r a.row).markV r true).markBad r a.bad).vFull r = true := (markV_vFull _ r r true).trans (if_pos rfl)
    rw [hfull, hmark, decide_eq_false fun ⟨j, hj, hr⟩ => howed j hj hr]
    rfl
  case row =>
    have hget : ((loadDone s n sn).ctxAt n).getV q = ((s.ctxAt n).setV r a.row).getV q := by simp only [Ctx.getV, hv, Ctx.markBad, Ctx.markV]
    rw [hget, getV_setV]

end

/-- Settles O29: a load is performed, and its value or its row fills its register. -/
theorem loadsPerform : Obligations.LoadsPerform := by
  intro s ag n sn len w words a p hn hgo hf
  refine ⟨fun hload hstore hwr hlen h8 hst hmay hso hrace hr hread hpoison hw => ?take, fun v r hst hd hext => ?scalar, fun v r hst _ hd howed => ?row⟩
  case take =>
    subst hlen
    obtain ⟨u, hu, htake⟩ := performLoad_take hread hpoison hrace
    have hpath := (hu.onlyPath n).trans (onlyPath_take u n a (loadValue a.ins w))
    have hw : (s.loadWord n a p).bits (8 * (p.key % 8)) (8 * accBytes a.ins) = w := hw
    rw [hw] at htake
    refine ⟨_, loadValue a.ins w, by rw [perform_load hn hgo hf hload hstore hwr h8 hst hmay hso hr, htake],
      findAcc_take _ (by rw [hu.ctxAt, hf]) (isMem_of_isLoad hload), loadValue_signed w, loadValue_unsigned w, fun m => ?_⟩
    exact ⟨hpath.part (f := Ctx.x) (fun _ _ _ => rfl) m, hpath.part (f := Ctx.v) (fun _ _ _ => rfl) m,
      hpath.part (f := Ctx.cr) (fun _ _ _ => rfl) m⟩
  case scalar => exact ⟨_, loadComplete_next hn hgo, loadDone_fills_x hf hst hd hext⟩
  case row => exact ⟨_, loadComplete_next hn hgo, loadDone_fills_v hf hst hd howed⟩

end Sys2Proof.Machine
end

section
/-! PROOFS. spec/07_memory_instr.md R202, R203: an atomic is performed. -/

namespace Sys2Proof.Machine

open Sys2Proof.Safety

/-! What an atomic makes of the old value. -/

/-- The value that an atomic writes, if it writes one. -/
def amoResult (fn : AmoFn) (o b d : Word) : Option Word := if fn = .fadd then some (wordOfNat (fadd32 o.toNat (b.bits 0 32))) else amoNew fn o b d

/-- The greater of two words, by an order of their numbers: of equal ones either. -/
theorem max_word {f : Word → Int} (hf : Function.Injective f) (o b : Word) : (if f b < f o then o else b) = if f o < f b then b else o := by
  obtain h | h | h := lt_trichotomy (f b) (f o)
  · rw [if_pos h, if_neg h.not_gt]
  · rw [hf h]
  · rw [if_neg h.not_gt, if_pos h]

/-- The table of R203; a CAS that fails leaves the old value. -/
theorem amoResult_getD (fn : AmoFn) (o b d : Word) : (amoResult fn o b d).getD o = match fn with
    | .add => o + b | .and => o &&& b | .or => o ||| b | .xor => o ^^^ b | .swp => b
    | .min => if o.toInt < b.toInt then o else b | .max => if o.toInt < b.toInt then b else o
    | .minn => if o.toNat < b.toNat then o else b | .maxn => if o.toNat < b.toNat then b else o
    | .cas => if o = d then b else o
    | .fadd => BitVec.ofNat 64 (fmtF32.addV .rne (fmtF32.unpack o.toNat) (fmtF32.unpack (b.toNat % 2 ^ 32)) 0).1 := by
  have hnat : Function.Injective fun w : Word => (w.toNat : Int) := fun x y h => BitVec.eq_of_toNat_eq (Int.ofNat.inj h)
  cases fn with
  | min => simp [amoResult, amoNew, BitVec.slt]
  | minn => simp [amoResult, amoNew, BitVec.ult]
  | max => simpa [amoResult, amoNew, BitVec.slt] using max_word (fun _ _ h => BitVec.eq_of_toInt_eq h) o b
  | maxn => simpa [amoResult, amoNew, BitVec.ult] using max_word hnat o b
  | cas =>
    rw [amoResult, if_neg (by decide), amoNew]
    split <;> rfl
  | _ => rfl

/-! What an atomic leaves in memory. -/

section
variable {s : State} {n : Nat} {a : Access} {p : Piece}

/-- A write that goes home directly, with none on its way, merges its bytes into the word there. -/
theorem writeHome_atRest (who key : Nat) (en : BitVec 8) (val : Word) (hrepl : p.repl = none) (hp : s.pw = []) (hr : s.rw = []) :
    (s.writeHome n who p key en val).mem = memMerge s.mem key val.toNat (enList en) ∧ (s.writeHome n who p key en val).pw = [] ∧
      (s.writeHome n who p key en val).rw = [] := by
  have hwrite : s.writeHome n who p key en val = (s.homeWrite who key en val).showUo key fun _ => false := by
    unfold State.writeHome
    rw [beginSo_of_nothing n p hr]
    simp only [hrepl]
    rw [flushKey_of_nothing n key hp]
  rw [hwrite]
  exact ⟨rfl, hp, hr⟩

/-- The write of an atomic, behind its release; one that writes nothing orders nothing (R203). -/
def State.amoWrite (s : State) (n : Nat) (a : Access) (p : Piece) : Option Word → State
  | some v => (match relScope a.ins with | some sc => s.flushTo n sc | none => s).writeHome n n p (p.key / 8 * 8)
      (enOf (p.key % 8) (accBytes a.ins)) (v <<< (8 * (p.key % 8)))
  | none => s

theorem onlyMemory_amoWrite (s : State) (n : Nat) (a : Access) (p : Piece) (new : Option Word) : OnlyMemory s (s.amoWrite n a p new) := by
  cases new with
  | none => exact .refl s
  | some v =>
    unfold State.amoWrite
    cases relScope a.ins with
    | none => exact onlyMemory_writeHome _ _ _ _ _ _ _
    | some sc => exact (onlyMemory_flushTo s n sc).trans (onlyMemory_writeHome _ _ _ _ _ _ _)

/-- The location holds the new value, or the old one if none is written. -/
theorem amoWrite_bytes {new : Option Word} {o : Word} (hrepl : p.repl = none) (hp : s.pw = []) (hr : s.rw = []) (hw : s.mem.wf = true)
    (hfit : p.key % 8 + accBytes a.ins ≤ 8) (ho : BitVec.ofNat 64 (memReadN s.mem p.key (accBytes a.ins)) = o) :
    (s.amoWrite n a p new).pw = [] ∧ (s.amoWrite n a p new).rw = [] ∧ ∀ k, memGet (s.amoWrite n a p new).mem k =
      if p.key ≤ k ∧ k < p.key + accBytes a.ins then (new.getD o).extractLsb' (8 * (k - p.key)) 8 else memGet s.mem k := by
  cases new with
  | none =>
    refine ⟨hp, hr, fun k => ?_⟩
    split
    · next hk =>
      rw [Option.getD_none, ← ho, byte_of_memReadN _ (by omega) (by omega), show p.key + (k - p.key) = k from by omega]
      rfl
    · rfl
  | some v =>
    have hrel : AtRest s (match relScope a.ins with | some sc => s.flushTo n sc | none => s) := by
      cases relScope a.ins with
      | none => exact .refl s
      | some sc => exact atRest_flushTo s n sc
    obtain ⟨hm1, hp1, hr1⟩ := hrel hp hr
    obtain ⟨hm2, hp2, hr2⟩ := writeHome_atRest (n := n) n (p.key / 8 * 8) (enOf (p.key % 8) (accBytes a.ins)) (v <<< (8 * (p.key % 8))) hrepl hp1 hr1
    refine ⟨hp2, hr2, fun k => ?_⟩
    rw [State.amoWrite, hm2, hm1]
    exact memGet_memMerge_access v k hw hfit

/-! The atomic as a move. -/

/-- The state in which an atomic has read and written its location. -/
def State.amoDone (s : State) (n : Nat) (a : Access) (p : Piece) (o : Word) : State :=
  let new := amoResult (amoFnOf a.ins) o a.vb a.vd
  (((s.touch p.key (accBytes a.ins) new.isSome (agentCode n)).amoWrite n a p new).forgetAt n (p.key / 8 * 8)).acquire n
    (match acqScope a.ins with | some sc => scopeCode sc | none => 0)

theorem onlyMemory_amoDone (s : State) (n : Nat) (a : Access) (p : Piece) (o : Word) : OnlyMemory s (s.amoDone n a p o) :=
  (((onlyMemory_touch _ _ _ _ _).trans (onlyMemory_amoWrite _ n a p _)).trans (onlyMemory_forgetAt _ _ _)).trans (onlyMemory_acquire _ _ _)

theorem amoDone_bytes {o : Word} (hrepl : p.repl = none) (hp : s.pw = []) (hr : s.rw = []) (hw : s.mem.wf = true)
    (hfit : p.key % 8 + accBytes a.ins ≤ 8) (ho : BitVec.ofNat 64 (memReadN s.mem p.key (accBytes a.ins)) = o) :
    (s.amoDone n a p o).pw = [] ∧ (s.amoDone n a p o).rw = [] ∧ ∀ k, memGet (s.amoDone n a p o).mem k =
      if p.key ≤ k ∧ k < p.key + accBytes a.ins then ((amoResult (amoFnOf a.ins) o a.vb a.vd).getD o).extractLsb' (8 * (k - p.key)) 8
      else memGet s.mem k := by
  obtain ⟨new, hnew⟩ : ∃ new, new = amoResult (amoFnOf a.ins) o a.vb a.vd := ⟨_, rfl⟩
  obtain ⟨hm1, hp1, hr1⟩ := atRest_touch s p.key (accBytes a.ins) new.isSome (agentCode n) hp hr
  obtain ⟨hp2, hr2, hbytes⟩ := amoWrite_bytes (n := n) (new := new) hrepl hp1 hr1 (hm1 ▸ hw) hfit (hm1 ▸ ho)
  obtain ⟨hm3, hp3, hr3⟩ := ((atRest_forgetAt _ n (p.key / 8 * 8)).trans
    (atRest_acquire _ n (match acqScope a.ins with | some sc => scopeCode sc | none => 0))) hp2 hr2
  rw [← hnew, ← hm1]
  unfold State.amoDone
  rw [← hnew]
  exact ⟨hp3, hr3, fun k => (congrArg (memGet · k) hm3).trans (hbytes k)⟩

theorem performAtomic_take {o : Word} (hrepl : p.repl = none) (hp : s.pw = []) (hrace : a.hold = true ∨ p.key < scrBase)
    (hpoison : s.isPoison n (p.key / 8 * 8) = false) (ho : amoOld s a p = o) : (performAtomic s n a p).tidy n = (s.amoDone n a p o).take n a o := by
  subst ho
  unfold performAtomic
  simp only [raceCheck_free _ _ hrace, hrepl, Option.isSome_none, Bool.false_eq_true, if_false, flushKey_of_nothing n _ hp, isPoison_touch, hpoison]
  rfl

end

theorem atomicPerform_next {s : State} {ag : Agent} {n sn : Nat} {a : Access} {p : Piece} {q : Option Piece} (hn : agentNum ag = n)
    (hgo : (s.ctxAt n).st ≠ .frozen) (hf : (s.ctxAt n).findAcc sn = some a) (hamo : isAmo a.ins = true) (hst : a.st = .ready p q)
    (hmay : mayPerform s n a = true) (hso : soFree (s.ctxAt n) a p = true) (hr : s.rw = []) :
    exec (.atomicPerform ag sn) s = .next ((performAtomic s n a p).tidy n) := by
  have hdo : exec (.atomicPerform ag sn) s = .next (s.whenGoing n fun s => atomicStep s n sn) := by rw [← hn]; rfl
  have hready : amoReady s n a p = true := by rw [amoReady, hso, hmay]; rfl
  have hstep : atomicStep s n sn = (performAtomic s n a p).tidy n := by
    unfold atomicStep
    simp only [hf, hst, hamo, hready, beginSo_of_nothing n p hr, Bool.and_self, if_true]
  rw [hdo, whenGoing_of_goes _ hgo, hstep]

theorem amo_parts {i : Instr} {fn : AmoFn} (h : ∃ d x y k, i = .amog d x y k fn ∨ i = .amod d x y k fn ∨ i = .amos d x y k fn) :
    isAmo i = true ∧ amoFnOf i = fn ∧ accBytes i = if fn = .fadd then 4 else 8 := by
  obtain ⟨_, _, _, _, rfl | rfl | rfl⟩ := h <;> exact ⟨rfl, rfl, rfl⟩

theorem isMem_of_isAmo {i : Instr} (h : isAmo i = true) : isMem i = true := by
  unfold isAmo at h
  split at h
  any_goals rfl
  contradiction

/-- Settles O30: the old value is on its way, and the location holds the new one. -/
theorem atomicsPerform : Obligations.AtomicsPerform := by
  intro s ag n sn len a p q fn o b hn hgo hf hins hlen hst hmay hso hrepl hkey hrace hp hr hpoison hw ho hb
  obtain ⟨hamo, hfn, hbytes⟩ := amo_parts hins
  rw [hlen] at hbytes
  have hsize : len = 1 ∨ len = 2 ∨ len = 4 ∨ len = 8 := by
    rw [← hlen]
    split <;> decide
  have hfit : p.key % 8 + accBytes a.ins ≤ 8 := hbytes.symm ▸ aligned_fits hsize hkey
  have hold : amoOld s a p = o := by rw [amoOld, memWord_bits_access _ hfit, hbytes]; exact ho
  have hdone := onlyMemory_amoDone s n a p o
  obtain ⟨hp', hr', hmem⟩ := amoDone_bytes (n := n) hrepl hp hr hw hfit (hbytes.symm ▸ ho)
  obtain ⟨htake, -, -⟩ := atRest_take (s.amoDone n a p o) n a o hp' hr'
  subst hb
  refine ⟨_, (amoResult fn o a.vb a.vd).getD o, ?next, findAcc_take o (by rw [hdone.ctxAt, hf]) (isMem_of_isAmo hamo), fun k => ?bytes,
    (amoResult_getD fn o a.vb a.vd).trans ?table⟩
  case next => rw [atomicPerform_next hn hgo hf hamo hst hmay hso hr, performAtomic_take hrepl hp hrace hpoison hold]
  case bytes => rw [htake, hmem, hbytes, hfn]
  case table => cases fn <;> rfl

end Sys2Proof.Machine
end
section
/-! PROOFS. spec/09_system.md R261: TLBI and TLBIA, which drop held translations. -/

namespace Sys2Proof.Machine

open Sys2Proof.Safety

theorem held_dropTlb (s : State) (f : Tlb → Bool) (u : Nat) : ((s.dropTlb f).unitAt u).held = (s.unitAt u).held.filter fun t => !f t :=
  mapGet_map_rel (R := fun x y : TransUnit => y.held = x.held.filter fun t => !f t)
    (g := fun p => (p.1, { p.2 with held := p.2.held.filter fun t => !f t })) rfl (fun _ => rfl) (fun _ => rfl) s.units u

/-- A ready slot that drops the translations that f names changes no other one, and nothing else. -/
theorem drops_of {i : Instr} {eff : State → Out} {s : State} {f : Tlb → Bool} (h : Ready i s)
    (hw : ∀ a b wa wb sc k, i ≠ .waitc a b wa wb sc k) (he : eff (opened s) = .next ((opened s).dropTlb f)) :
    ∃ t, issue i eff s = .next t ∧ OnlyOwn { s with units := t.units } t ∧ SameButIssue (aged (own s)) (t.ctxAt s.cur) ∧
      ∀ u e, e ∈ (t.unitAt u).held ↔ e ∈ (s.unitAt u).held ∧ f e = false := by
  obtain ⟨t, ho, hown, hctx⟩ := does_of (s' := s.dropTlb f) (f := id) h hw he rfl (fun _ _ => rfl) rfl rfl rfl (ready_drain_ne_rft h rfl)
  have hunits : t.units = (s.dropTlb f).units := by rw [hown.1]
  refine ⟨t, ho, ?_, hctx, fun u e => ?_⟩
  · rw [hunits]
    exact hown
  · rw [State.unitAt, hunits]
    change e ∈ ((s.dropTlb f).unitAt u).held ↔ _
    rw [held_dropTlb, List.mem_filter, Bool.not_eq_true']

theorem covers_eq_false_iff (e : Tlb) (job va : Nat) : e.covers job va = false ↔ ¬(e.job = job ∧ e.page ≤ va ∧ va < e.page + e.size) := by
  rw [← Bool.not_eq_true]
  simp [Tlb.covers, and_assoc]

/-- Settles O17: TLBI drops the translations that cover its address, TLBIA every one of the job. -/
theorem translationsInvalidated : Obligations.TranslationsInvalidated := by
  intro s a
  refine ⟨fun h => ?tlbi, fun h => ?tlbia⟩
  case tlbi =>
    obtain ⟨t, ho, hown, hctx, hheld⟩ := drops_of
      (eff := pureEff fun s => s.dropTlb fun t => t.covers (s.ctxAt s.cur).job ((s.ctxAt s.cur).getX a).toNat) h nofun rfl
    exact ⟨t, ho, hown, hctx, fun u e => (hheld u e).trans (and_congr_right fun _ => covers_eq_false_iff e _ _)⟩
  case tlbia =>
    obtain ⟨t, ho, hown, hctx, hheld⟩ := drops_of (eff := pureEff fun s => s.dropTlb fun t => t.job = (s.ctxAt s.cur).job) h nofun rfl
    exact ⟨t, ho, hown, hctx, fun u e => (hheld u e).trans (and_congr_right fun _ => decide_eq_false_iff_not)⟩

end Sys2Proof.Machine
end

section
/-! PROOFS. spec/09_system.md R249, R252: the slots that task mode may not issue. -/

namespace Sys2Proof.Machine

open Sys2Proof.Safety

/-- A slot of class Z keeps the rules of R80 to R82 alone in its bundle when its destinations are distinct. -/
theorem bundleOk_of_z {i : Instr} (hz : cls i = .z) (hd : destsDistinct [uses i] = true) : bundleOk none [i] = true := by
  have hrep : ∀ n ds as bs, i ≠ .rep n ds as bs := by
    rintro n ds as bs rfl
    rw [cls_rep] at hz
    contradiction
  have hlimits : limitsOk [i] = true := by
    unfold limitsOk countCls
    simp [hz]
  have hplaces : placesOk [i] = true := by
    unfold placesOk
    split
    · next h => exact absurd rfl (hrep _ _ _ _)
    · simp [hz, placesOk]
  have hpartners : zPartnersOk [i] = true := by simp [zPartnersOk, hz]
  rw [bundleOk, show withoutStep none [i] = [i] from rfl, hlimits, hplaces, hpartners]
  exact hd

/-- A slot of class Z that its word alone makes privileged. -/
def KernelSlot (i : Instr) : Prop :=
  (∃ eff, ∀ s, exec i s = issue i eff s) ∧ i.wf = true ∧ privSlot i = true ∧ cls i = .z ∧ destsDistinct [uses i] = true

theorem repIllegal_alone (i : Instr) : repIllegal [some i] = false := by
  unfold repIllegal
  split
  · next h => simp at h
  · rfl

theorem staticFault_kernelSlot {i : Instr} (h : KernelSlot i) : staticFault false false none [some i] = some (.privileged, 0) := by
  obtain ⟨-, hwf, hp, hz, hd⟩ := h
  have hlegal : illegalSlot false 0 [some i] = none := by simp [illegalSlot, hwf, repIllegal_alone]
  unfold staticFault
  rw [hlegal]
  simp [bundleOk_of_z hz hd, hp]

/-- TINFO of a fault at issue in a bundle of one slot: the slot, the length less one and the opcode (R255). -/
theorem issueInfo_first (op : Nat) (h : op < 128) : (issueInfo 0 1 op 0).bits 0 6 = 0 ∧ (issueInfo 0 1 op 0).bits 6 7 = op := by
  have hnat : (issueInfo 0 1 op 0).toNat = op * 64 := by
    rw [issueInfo, wordOfNat, BitVec.toNat_ofNat, Nat.shiftLeft_eq, Nat.shiftLeft_eq, Nat.shiftLeft_eq]
    omega
  simp only [BitVec.bits, hnat, Nat.shiftRight_eq_div_pow]
  omega

/-- Alone in its bundle, a context in task mode that issues such a slot takes Privileged Instruction. -/
theorem kernelSlot_traps {s : State} {i : Instr} (h : KernelSlot i) (hopen : s.iss.isOpen = false) (hseq : isSeq s.cur = false)
    (hk : (own s).kernel = false) : ∃ info, exec i s = takeTrap s s.cur { cause := .privileged, tpc := (own s).pc, tinfo := info } ∧
      info.bits 0 6 = 0 ∧ info.bits 6 7 = opOf i := by
  have hstatic : staticFault (own s).kernel (isSeq s.cur) none [some i] = some (.privileged, 0) := by
    rw [hk, hseq, staticFault_kernelSlot h]
  obtain ⟨⟨eff, hexec⟩, -⟩ := h
  refine ⟨issueInfo 0 1 (opOf i) 0, ?_, issueInfo_first _ (opOf_lt i)⟩
  rw [hexec, issue_static eff hopen hstatic, issueTrap_of_ne_trap _ _ _ (by decide)]

/-! The slots. -/

theorem cls_z_of_opOf {i : Instr} {op : Nat} (h : opOf i = op) (hop : clsOfOp op = .z) : cls i = .z := by
  rw [cls, h, hop]

section
variable (a d : Reg) (n : BitVec 12)

/-- RFT has its context drain. -/
theorem exec_sysRft (s : State) : exec .sysRft s = issue .sysRft
    (fun s => .next (s.modCtx s.cur fun c => { c with drain := .rft, drainSlot := s.iss.slot, drainLen := s.iss.len })) s := rfl

theorem exec_mfc (s : State) : exec (.mfc d n) s = issue (.mfc d n)
    (fun s => .next (s.modCtx s.cur fun c => c.addX 2 d (if h : n.toNat < 24 then s.readCr s.cur ⟨n.toNat, h⟩ else 0))) s := rfl

theorem kernelSlot_rft : KernelSlot .sysRft := ⟨⟨_, exec_sysRft⟩, rfl, rfl, rfl, rfl⟩

theorem kernelSlot_mfc (hn : n.toNat ∈ [1, 2, 3, 4, 5, 0x14, 0x17]) : KernelSlot (.mfc d n) := by
  have hwf : (Instr.mfc d n).wf = true := by
    simp only [List.mem_cons, List.not_mem_nil, or_false] at hn
    simp only [Instr.wf, illFormed?, if_pos (show n.toNat < 0x18 by omega), Option.isNone_none]
  have hd : destsDistinct [uses (.mfc d n)] = true := by
    show (noDup ([d].filter (· != 0)) && true && true && true && true) = true
    rw [List.filter_cons]
    split <;> rfl
  exact ⟨⟨_, exec_mfc d n⟩, hwf, decide_eq_true hn, cls_z_of_opOf (op := 0x7A) (by simp [opOf, encode]) rfl, hd⟩

theorem kernelSlot_mtc (hn : n.toNat ∈ [1, 2, 3, 4, 5, 0x13, 0x14, 0x15, 0x17]) : KernelSlot (.mtc a n) := by
  have hwf : (Instr.mtc a n).wf = true := by
    simp only [List.mem_cons, List.not_mem_nil, or_false] at hn
    simp only [Instr.wf, illFormed?, if_neg (show ¬n.toNat ≥ 0x18 by omega), List.mem_cons, List.not_mem_nil, or_false]
    rw [if_neg (by omega)]
    rfl
  exact ⟨⟨_, fun _ => rfl⟩, hwf, decide_eq_true hn, cls_z_of_opOf (op := 0x7B) (by simp [opOf, encode]) rfl, rfl⟩

end

/-- Settles O36: each of these slots is privileged by its word. -/
theorem privilegedSlots : Obligations.PrivilegedSlots := by
  intro s i a d n hopen hseq hk hi
  refine kernelSlot_traps ?_ hopen hseq hk
  have hsys : ∀ {i : Instr}, opOf i = 0x7D → cls i = .z := fun h => cls_z_of_opOf h rfl
  rcases hi with rfl | rfl | rfl | rfl | rfl | rfl | rfl | rfl | ⟨rfl, hn⟩ | ⟨rfl, hn⟩
  · exact kernelSlot_rft
  iterate 7 exact ⟨⟨_, fun _ => rfl⟩, rfl, rfl, hsys (by simp [opOf, encode]), rfl⟩
  · exact kernelSlot_mfc d n hn
  · exact kernelSlot_mtc a n hn

end Sys2Proof.Machine
end

section
/-! PROOFS. spec/20_traps.md R403, R404, spec/09_system.md R259: RFT. -/

namespace Sys2Proof.Machine

open Sys2Proof.Safety

/-! Landing and the registers (R95). -/

/-- c with the registers of u and what is on its way to them. -/
def Ctx.withRegs (c u : Ctx) : Ctx :=
  { c with x := u.x, v := u.v, m := u.m, cr := u.cr, poisonV := u.poisonV, crPend := u.crPend, pend := u.pend, acc := u.acc }

/-- Landing looks at the registers alone. -/
theorem land_withRegs (c u : Ctx) (p : Pending) : (c.withRegs u).land p = c.withRegs (u.land p) := by
  unfold Ctx.land Ctx.withRegs
  split <;> (cases p.res <;> (dsimp only; try split)) <;> first | rfl | (simp only [Ctx.setX, Ctx.setM]; split <;> rfl)

theorem foldl_land_withRegs (c : Ctx) : ∀ (l : List Pending) (u : Ctx), l.foldl Ctx.land (c.withRegs u) = c.withRegs (l.foldl Ctx.land u)
  | [], _ => rfl
  | p :: l, u => by rw [List.foldl_cons, land_withRegs, foldl_land_withRegs c l, List.foldl_cons]

theorem landAll_withRegs (c u : Ctx) : (c.withRegs u).landAll = c.withRegs u.landAll :=
  foldl_land_withRegs c u.pend { u with pend := [] }

theorem cr_orFlags (c : Ctx) (fl : Flags) {i : Fin 24} (h : i ≠ crVflags) : (c.orFlags fl).cr[i] = c.cr[i] := by
  unfold Ctx.orFlags
  split
  · rfl
  · exact Ctx.cr_setCr_ne _ _ _ _ h

/-- A result that lands changes no control register but VFLAGS (R47). -/
theorem cr_land (c : Ctx) (p : Pending) {i : Fin 24} (h : i ≠ crVflags) : (c.land p).cr[i] = c.cr[i] := by
  obtain ⟨due, res, fl⟩ := p
  have hres : (c.land { due := due, res := res, flags := fl }).cr = (c.orFlags fl).cr := by
    cases res with
    | x r v => exact (show ((c.orFlags fl).setX r v).cr = _ by unfold Ctx.setX; split <;> rfl)
    | v r v en =>
      rw [land_v]
      split <;> rfl
    | m r v en => exact (show ((c.orFlags fl).setM r _).cr = _ by unfold Ctx.setM; split <;> rfl)
    | flags => rfl
  show (c.land _).cr[i.val] = _
  simp only [hres]
  exact cr_orFlags c fl h

theorem cr_foldl_land {i : Fin 24} (h : i ≠ crVflags) : ∀ (l : List Pending) (c : Ctx), (l.foldl Ctx.land c).cr[i] = c.cr[i]
  | [], _ => rfl
  | p :: l, c => by rw [List.foldl_cons, cr_foldl_land h l, cr_land c p h]

theorem cr_landAll (c : Ctx) {i : Fin 24} (h : i ≠ crVflags) : c.landAll.cr[i] = c.cr[i] := cr_foldl_land h c.pend _

theorem cr_aged {c : Ctx} (hc : c.crPend = []) {i : Fin 24} (h : i ≠ crVflags) : (aged c).cr[i] = c.cr[i] := by
  have hmtc : c.applyMtc = c := by
    unfold Ctx.applyMtc
    rw [hc, List.foldl_nil, ← hc]
  unfold aged
  rw [hmtc]
  exact cr_foldl_land h _ _

/-! What the return leaves alone. -/

theorem onlyOwn_setCtx {s t : State} (c : Ctx) (h : OnlyOwn s t) : OnlyOwn s (t.setCtx s.cur c) := by
  obtain ⟨hstate, hothers, hmem, hcores⟩ := h
  refine ⟨?_, fun k hk => (State.ctxAt_setCtx_ne _ _ _ _ hk).trans (hothers k hk), hmem, hcores⟩
  conv_lhs => rw [hstate]
  rfl

theorem onlyOwn_leaveCore {s t : State} (n : Nat) (h : OnlyOwn s t) : OnlyOwn s (t.leaveCore n) := by
  obtain ⟨hstate, hothers, hmem, hcores⟩ := h
  unfold State.leaveCore
  split
  · exact ⟨hstate, hothers, hmem, hcores⟩
  · refine ⟨?_, hothers, hmem, fun k => ?_⟩
    · conv_lhs => rw [hstate]
      rfl
    · by_cases hk : k = coreOf n
      · rw [hk, State.coreAt_modCore_self]
        split <;> exact hcores (coreOf n)
      · rw [State.modCore, State.coreAt_setCore_ne _ _ _ _ hk]
        exact hcores k

theorem onlyOwn_withEarly {s t : State} (l : List Early) (h : OnlyOwn s t) : OnlyOwn { s with early := l } { t with early := l } := by
  obtain ⟨hstate, hothers, hmem, hcores⟩ := h
  refine ⟨?_, hothers, hmem, hcores⟩
  conv_lhs => rw [hstate]

theorem ctxAt_leaveCore (s : State) (n k : Nat) : (s.leaveCore n).ctxAt k = s.ctxAt k := by
  unfold State.leaveCore
  split <;> rfl

/-! The return (R403, R404). -/

theorem passOn_eq (s : State) (n sc : Nat) : s.passOn n sc = { s with early := (s.passOn n sc).early } := by
  unfold State.passOn
  split <;> rfl

theorem forget_eq (s : State) (n : Nat) : s.forget n = { s with early := (s.forget n).early } := by
  unfold State.forget
  split <;> rfl

/-- With no write on its way, what a return performs first changes nothing but what was read ahead. -/
theorem flushTo_dev_forget {s : State} (n : Nat) (hp : s.pw = []) (hr : s.rw = []) :
    ∃ l, (s.flushTo n .dev).forget n = { s with early := l } := by
  have hflush : s.flushTo n .dev = s.passOn n 2 := by
    show ((s.commitCovered n fun _ => true).applyRepl).passOn n 2 = _
    rw [commitCovered_of_nothing n _ hp, State.applyRepl, applyWhere_of_nothing _ hr]
  rw [hflush, forget_eq, passOn_eq]
  exact ⟨_, rfl⟩

/-- A frame at f with no latch and no replay entry. -/
def PlainFrame (m : Mem) (f : Nat) : Prop :=
  memReadN m (f + 49) 1 = 0 ∧ memReadN m (f + 50) 1 = 0 ∧ memReadN m (f + 51) 1 = 0 ∧ memReadN m (f + 52) 1 = 0

theorem frameSane_of_plain {m : Mem} {f : Nat} (h : PlainFrame m f) : frameSane m f = true := by
  obtain ⟨hs, hm, hv, hr⟩ := h
  simp [frameSane, hs, hm, hv, hr, upTo]

theorem getLatches_of_plain {m : Mem} {f : Nat} (h : PlainFrame m f) : getLatches m f = [] := by
  obtain ⟨hs, hm, hv, -⟩ := h
  simp [getLatches, hs, hm, hv, upTo]

/-- From such a frame the context leaves its handler at once. -/
theorem returnFromTrap_plain {s : State} {n f : Nat} (pc : Word) (slot len : Nat) (hp : s.pw = []) (hr : s.rw = []) (hf : s.topFrame n = f)
    (hinst : installed f 0x20000 = true) (h : PlainFrame s.mem f) : ∃ l, returnFromTrap s n pc slot len =
      .next (({ s with early := l }.setCtx n ((s.ctxAt n).leaveHandler s.mem f s.now (isSeq n) [])).leaveCore n) := by
  obtain ⟨l, hl⟩ := flushTo_dev_forget n hp hr
  have hsane := frameSane_of_plain h
  obtain ⟨-, -, -, hreplay⟩ := h
  refine ⟨l, ?_⟩
  unfold returnFromTrap
  simp only [hl, hf, hinst, hreplay, hsane, Bool.not_true, Bool.false_eq_true, if_false]
  rfl

/-- A context with nothing held, from such a frame. -/
theorem leaveHandler_plain {c : Ctx} {m : Mem} {f : Nat} (now : Nat) (seq : Bool) (h : PlainFrame m f) (ha : c.acc = []) (hh : c.held = []) :
    c.leaveHandler m f now seq [] = { c with
      held := [], pulled := c.pulled.filter (·.lvl != c.frames - 1), halts := c.halts.filter (· != c.frames - 1)
      steps := c.steps.filter (·.1 != c.frames - 1), loops := Vector.ofFn fun i => getLoop m f i.val, cr := frameRegs m f seq c.cr
      pend := [], acc := [], frames := c.frames - 1, window := {}, pc := c.cr[5] &&& ~~~3#64, repOn := memReadN m (f + 48) 1 % 128 != 0
      drain := if (c.cr[2]).getLsbD 10 then .tend else if c.halts.contains (c.frames - 1) then .halt else .none
      st := if (c.cr[2]).getLsbD 10 then .stalled else .selected
      stepover := if (c.cr[2]).getLsbD 11 then some ((c.cr[4]).bits 0 3)
        else (c.steps.find? fun p => p.1 = c.frames - 1 && p.2.1 = c.cr[5] &&& ~~~3#64).map (·.2.2) } := by
  unfold Ctx.leaveHandler reissue putBackHeld
  simp only [ha, hh, getLatches_of_plain h, List.filter_nil, List.map_nil, List.append_nil]
  rfl

/-! RFT. -/

/-- The bundle of an RFT whose waits are over closes, every result lands, and the context returns (R403). -/
theorem closeBundle_returns {s : State} (hpost : s.iss.post = none) (hd : ((closed s).ctxAt s.cur).drain = .rft)
    (hq : ((closed s).ctxAt s.cur).quietForRft = true) : closeBundle s = returnFromTrap ((closed s).modCtx s.cur Ctx.landAll) s.cur s.iss.pc
      ((closed s).ctxAt s.cur).drainSlot ((closed s).ctxAt s.cur).drainLen := by
  unfold closeBundle rftReady
  simp only [hpost, hd, hq, decide_true, Bool.and_true, if_true]

theorem quietForRft_iff (c : Ctx) : c.quietForRft = true ↔ c.acc = [] ∧ c.fullX = BitVec.allOnes 64 := by
  simp [Ctx.quietForRft]

/-- With an access outstanding or a register empty, an RFT of a handler stalls (R107, R403). -/
theorem rft_stalls {s : State} (hframes : (own s).frames ≠ 0) (hq : (own s).acc ≠ [] ∨ (own s).fullX ≠ BitVec.allOnes 64) :
    stalls s s.cur [.sysRft] 0 = true := by
  have hwait : (own s).quietForRft = false := by
    rw [← Bool.not_eq_true, quietForRft_iff, not_and_or]
    exact hq
  have hown : ownStall (s.ctxAt s.cur) .sysRft = true := by
    unfold own at hframes hwait
    simp [ownStall, hframes, hwait]
  simp [stalls, hown]

/-- The context c with the bundle of its RFT closed and every result landed: aged and landed, but for what issue and the drain keep. -/
def Handled (c e : Ctx) : Prop := e = { (aged c).landAll with
  pc := e.pc, st := e.st, loops := e.loops, drain := e.drain, drainSlot := e.drainSlot, drainLen := e.drainLen, repOn := e.repOn
  repNext := e.repNext, satisfied := e.satisfied, arrived := e.arrived, stepover := e.stepover }

theorem handled_of_closed {i : Iss} {d : Drain} {slot len : Nat} {l : Vector Loop 4} {c : Ctx} (hr : i.repLeft = none) :
    Handled c (closedCtx i (draining d slot len l c)).landAll := by
  have hframe := (closedCtx_frame (i := i) (c := draining d slot len l c) hr).1
  rw [aged_draining] at hframe
  generalize closedCtx i (draining d slot len l c) = u at hframe
  have hregs : u = u.withRegs (aged c) := by
    rw [hframe]
    rfl
  have hland : u.landAll = u.withRegs (aged c).landAll := by
    conv_lhs => rw [hregs]
    exact landAll_withRegs u (aged c)
  unfold Handled
  rw [hland, hframe, onlyRegs_landAll (aged c)]
  rfl

namespace Handled

section
variable {c e : Ctx} (h : Handled c e)
include h

theorem kept : e.frames = c.frames ∧ e.held = c.held ∧ e.steps = c.steps ∧ e.halts = c.halts ∧ e.k = c.k ∧ e.fullX = c.fullX ∧
    e.fullV = c.fullV := by
  have hland := (onlyRegs_aged c).trans (onlyRegs_landAll _)
  unfold Handled at h
  unfold OnlyRegs at hland
  rw [h, hland]
  exact ⟨rfl, rfl, rfl, rfl, rfl, rfl, rfl⟩

theorem files : e.x = (aged c).landAll.x ∧ e.v = (aged c).landAll.v ∧ e.m = (aged c).landAll.m ∧ e.cr = (aged c).landAll.cr ∧
    e.acc = (aged c).landAll.acc := by
  unfold Handled at h
  rw [h]
  exact ⟨rfl, rfl, rfl, rfl, rfl⟩

theorem acc (ha : c.acc = []) : e.acc = [] := by
  obtain ⟨-, -, -, -, hacc⟩ := h.files
  rw [hacc, Ctx.landAll, foldl_land_acc, aged_acc, ha]
  rfl

/-- With no control register written, only VFLAGS may differ. -/
theorem cr (hc : c.crPend = []) {i : Fin 24} (hi : i ≠ crVflags) : e.cr[i] = c.cr[i] := by
  obtain ⟨-, -, -, hcr, -⟩ := h.files
  rw [← cr_aged hc hi, ← cr_landAll (aged c) hi]
  exact congrArg (·[i]) hcr

end

end Handled

section
variable {s : State} {c : Ctx} {f : Nat}

/-- An RFT that nothing holds back ends its bundle, and then the return is made. -/
theorem rft_drains (h : Ready .sysRft s) (hc : own s = c) (ha : c.acc = []) (hx : c.fullX = BitVec.allOnes 64) :
    ∃ w pc slot len, exec .sysRft s = returnFromTrap w s.cur pc slot len ∧ OnlyOwn s w ∧ Handled c (w.ctxAt s.cur) := by
  generalize hu : (opened s).modCtx s.cur (fun c => draining .rft 0 1 c.loops c) = u
  have hcur : u.cur = s.cur := by rw [← hu]; rfl
  have hpost : u.iss.post = none := by rw [← hu]; rfl
  have hrep : u.iss.repLeft = none := by rw [← hu]; rfl
  have hctx : u.ctxAt s.cur = draining .rft 0 1 c.loops c := by
    rw [← hu, State.ctxAt_modCtx_self, ← hc]
    rfl
  have hexec : exec .sysRft s = closeBundle u := by
    rw [exec_sysRft, issue_ready _ h nofun, ← hu]
    rfl
  obtain ⟨hown, hclosed⟩ := closed_spec (s' := s) (u := u) (by rw [← hu]; rfl)
    (fun k hk => by rw [← hu]; exact State.ctxAt_modCtx_ne _ _ _ _ hk) hctx
  have hdrain : ((closed u).ctxAt u.cur).drain = .rft := by
    rw [hcur, hclosed, closedCtx_drain _ hrep]
    rfl
  have hquiet : ((closed u).ctxAt u.cur).quietForRft = true := by
    have hframe := (closedCtx_frame (i := u.iss) (c := draining .rft 0 1 c.loops c) hrep).1
    rw [aged_draining] at hframe
    rw [quietForRft_iff, hcur, hclosed, hframe]
    exact ⟨(aged_acc c).trans (by rw [ha]; rfl), (congrArg Ctx.fullX (onlyRegs_aged c)).trans hx⟩
  rw [hexec, closeBundle_returns hpost hdrain hquiet, hcur]
  refine ⟨_, _, _, _, rfl, onlyOwn_setCtx _ hown, ?_⟩
  rw [State.ctxAt_modCtx_self, hclosed]
  exact handled_of_closed hrep

/-- From a frame with no latch and no replay entry the return is made at once. -/
theorem rft_returns (h : Ready .sysRft s) (hc : own s = c) (ha : c.acc = []) (hx : c.fullX = BitVec.allOnes 64) (hp : s.pw = [])
    (hr : s.rw = []) (hf : s.frameBase s.cur (c.frames - 1) = f) (hinst : installed f 0x20000 = true) (hplain : PlainFrame s.mem f) :
    ∃ (t : State) (e : Ctx), exec .sysRft s = .next t ∧ OnlyOwn { s with early := t.early } t ∧
      t.ctxAt s.cur = e.leaveHandler s.mem f s.now (isSeq s.cur) [] ∧ Handled c e := by
  obtain ⟨w, pc, slot, len, hexec, hown, hhandled⟩ := rft_drains h hc ha hx
  obtain ⟨hframes, -⟩ := hhandled.kept
  have hstate := hown.1
  have htop : w.topFrame s.cur = f := by
    rw [State.topFrame, hframes, ← hf, hstate]
    rfl
  obtain ⟨l, hl⟩ := returnFromTrap_plain (s := w) (n := s.cur) pc slot len (by rw [hstate]; exact hp) (by rw [hstate]; exact hr) htop hinst
    (by rw [hstate]; exact hplain)
  have hmem : w.mem = s.mem := by rw [hstate]
  have hnow : w.now = s.now := by rw [hstate]
  generalize ht : ({ w with early := l }.setCtx s.cur ((w.ctxAt s.cur).leaveHandler w.mem f w.now (isSeq s.cur) [])).leaveCore s.cur = t at hl
  have htown : OnlyOwn { s with early := l } t := ht ▸ onlyOwn_leaveCore _ (onlyOwn_setCtx _ (onlyOwn_withEarly l hown))
  have hearly : t.early = l := by rw [htown.1]
  refine ⟨t, w.ctxAt s.cur, hexec.trans hl, hearly ▸ htown, ?_, hhandled⟩
  rw [← ht, ctxAt_leaveCore, State.ctxAt_setCtx_self, hmem, hnow]

end

/-! What the frame restores (R403). -/

theorem frameRegs_psw (m : Mem) (f : Nat) (seq : Bool) (cr : Vector Word 24) {b : Nat} (hb : b < 64) :
    ((frameRegs m f seq cr)[0]).getLsbD b = ((b < 6 && (memWord m f).getLsbD b) || (b == 0 && seq)) := by
  have h0 : (frameRegs m f seq cr)[0] = memWord m f &&& 0x3F#64 ||| wordOfNat (ofBoolNat seq) := by
    unfold frameRegs
    simp only [Vector.getElem_set]
    simp
  have hmask : (0x3F#64).getLsbD b = decide (b < 6) := by
    rw [BitVec.getLsbD_ofNat, show 0x3F = 2 ^ 6 - 1 from rfl, Nat.testBit_two_pow_sub_one, decide_eq_true hb, Bool.true_and]
  have hseq : (wordOfNat (ofBoolNat seq)).getLsbD b = (b == 0 && seq) := by
    cases seq <;> simp [ofBoolNat, wordOfNat, hb, beq_eq_decide]
  rw [h0, BitVec.getLsbD_or, BitVec.getLsbD_and, hmask, hseq, Bool.and_comm]

theorem frameRegs_plain (m : Mem) (f : Nat) (seq : Bool) (cr : Vector Word 24) :
    (frameRegs m f seq cr)[5] = memWord m (f + 8) ∧ (frameRegs m f seq cr)[2] = memWord m (f + 16) &&& crMask 2 ∧
    (frameRegs m f seq cr)[3] = memWord m (f + 24) ∧ (frameRegs m f seq cr)[4] = memWord m (f + 32) &&& crMask 4 ∧
    (frameRegs m f seq cr)[0x13] = wordOfNat (memReadN m (f + 48) 1 % 128) ∧
    (frameRegs m f seq cr)[0x15] = mergeBits 2 cr[0x15] (memWord m (f + 40)) := by
  unfold frameRegs
  simp only [Vector.getElem_set]
  simp
  exact ⟨rfl, rfl⟩

end Sys2Proof.Machine

namespace Sys2Proof

open Machine Safety

/-- Settles O40: an RFT that must wait stalls, another leaves its handler as its frame says. -/
theorem returnFromTrap : Obligations.ReturnFromTrap := by
  intro s c f hc
  refine ⟨?waits, ?returns⟩
  case waits =>
    intro hopen hstatic hframes hq
    subst hc
    rw [exec_sysRft, issue_stalls _ hopen hstatic (rft_stalls hframes hq)]
    rfl
  case returns =>
    intro h ha hx hh hcp hp hr hf hinst hs hm hv hreplay
    have hplain : PlainFrame s.mem f := ⟨hs, hm, hv, hreplay⟩
    obtain ⟨t, e, hexec, hown, hctx, hhandled⟩ := rft_returns h hc ha hx hp hr hf hinst hplain
    obtain ⟨hframes, hheld, hsteps, hhalts, hk, hfx, hfv⟩ := hhandled.kept
    obtain ⟨hex, hev, hem, -, -⟩ := hhandled.files
    have hcause : e.cr[2] = c.cr[2] := hhandled.cr hcp (i := 2) (by decide)
    have hinfo : e.cr[4] = c.cr[4] := hhandled.cr hcp (i := 4) (by decide)
    have htpc : e.cr[5] = c.cr[5] := hhandled.cr hcp (i := 5) (by decide)
    rw [leaveHandler_plain s.now (isSeq s.cur) hplain (hhandled.acc ha) (hheld.trans hh), hframes, hhalts, hsteps, hcause, hinfo, htpc] at hctx
    obtain ⟨h5, h2, h3, h4, h13, h15⟩ := frameRegs_plain s.mem f (isSeq s.cur) e.cr
    refine ⟨t, _, hexec, hown, hctx, rfl, rfl, rfl, rfl, rfl, hex, hev, hem, hk, hfx, hfv, fun b hb => frameRegs_psw _ _ _ _ hb, h5, h2, h3, h4,
      ?hold, ?repc, fun k => ?loop, rfl, rfl, rfl⟩
    case hold => exact (congrArg (·.getLsbD 1) h15).trans (mergeBits_getLsbD_of_mask _ _ (by decide))
    case repc =>
      refine (congrArg BitVec.toNat h13).trans ?_
      rw [wordOfNat, BitVec.toNat_ofNat]
      omega
    case loop =>
      have hloop : (Vector.ofFn fun i : Fin 4 => getLoop s.mem f i.val)[k] = getLoop s.mem f k.val := Vector.getElem_ofFn k.isLt
      rw [hloop]
      exact ⟨rfl, rfl, rfl, decide_eq_true_iff⟩

end Sys2Proof
end

section
/-! PROOFS. spec/09_system.md R262, R263, spec/20_traps.md R412: GSW, SRGROW and CUT. -/

namespace Sys2Proof.Machine

open Sys2Proof.Safety

/-! GSW and SRGROW (R262, R263). -/

/-- A ready slot that hands a request on has it accepted as a command of its kind, without a token. -/
theorem accepts_request {i : Instr} {s : State} {a : Reg} {k : CmdKind} (h : Ready i s) (hw : ∀ a b wa wb sc k, i ≠ .waitc a b wa wb sc k) :
    Accepts (issue i (requestEff i k a) s) s id { captured s i a 1 0 0 0 0 with kind := k } := by
  have heff : requestEff i k a (opened s) = .next ((opened s).accept { captured s i a 1 0 0 0 0 with kind := k }) := by
    unfold requestEff pureEff
    dsimp only
    rw [mkCmd_opened]
    rfl
  exact accepts_of h hw heff rfl (fun _ _ => rfl) rfl rfl rfl rfl

/-- A ready slot whose effect leaves s', with the contexts of s, in the open bundle. -/
theorem does_beside {i : Instr} {eff : State → Out} {s s' : State} (h : Ready i s) (hw : ∀ a b wa wb sc k, i ≠ .waitc a b wa wb sc k)
    (he : eff (opened s) = .next { s' with iss := (opened s).iss }) (hown : own s' = own s) : Does (issue i eff s) s' id :=
  does_of h hw he rfl (fun _ _ => rfl) rfl rfl rfl (ready_drain_ne_rft h (congrArg Ctx.drain hown))

/-! Packets that this device sends. -/

/-- s with packets more in the device, numbered on. -/
def State.joined (s : State) (l : List Flight) : State :=
  { s with fab := { s.fab with flights := s.fab.flights ++ l, nextId := s.fab.nextId + l.length } }

theorem joined_joined (s : State) (l m : List Flight) : (s.joined l).joined m = s.joined (l ++ m) := by
  simp [State.joined, Nat.add_assoc]

/-- The packet as it stands in the injection queue of a die (R373, R376). -/
def State.injected (s : State) (die : Nat) (p : Packet) : Flight :=
  { id := s.fab.nextId, loc := .localq die, pkt := { p with hop := 0, birth := s.step64 } }

theorem send_eq (s : State) (die : Nat) (p : Packet) : s.send die p = s.joined [s.injected die p] := rfl

/-- A message that says c to the control unit of a device stands in the injection queue of a die. -/
def SaysFrom (die dev : Nat) (c : Ctl) (g : Flight) : Prop := g.loc = .localq die ∧ g.pkt.dest = dev ∧ g.pkt.op = 0x22 ∧ g.pkt.ctl = c

theorem sendCtl_joined (s : State) (die dev job : Nat) (c : Ctl) : ∃ g, s.sendCtl die dev 0x22 job c = s.joined [g] ∧ SaysFrom die dev c g :=
  ⟨_, send_eq _ _ _, rfl, rfl, rfl, rfl⟩

/-- Both dies of every device are sent their message. -/
theorem toDies_joined (die job : Nat) (c : Nat → Ctl) : ∀ (devs : List Nat) (s : State), ∃ l, s.toDies die job devs c = s.joined l ∧
    ∀ dev x, dev ∈ devs → x < 2 → ∃ g, g ∈ l ∧ SaysFrom die dev (c x) g
  | [], s => ⟨[], by simp [State.toDies, State.joined], by simp⟩
  | d :: devs, s => by
    obtain ⟨g0, hg0, hsays0⟩ := sendCtl_joined s die d job (c 0)
    obtain ⟨g1, hg1, hsays1⟩ := sendCtl_joined (s.joined [g0]) die d job (c 1)
    obtain ⟨l, hl, hsays⟩ := toDies_joined die job c devs ((s.joined [g0]).joined [g1])
    refine ⟨g0 :: g1 :: l, ?_, fun dev x hdev hx => ?_⟩
    · rw [joined_joined, joined_joined] at hl
      rw [joined_joined] at hg1
      show ((s.sendCtl die d 0x22 job (c 0)).sendCtl die d 0x22 job (c 1)).toDies die job devs c = _
      rw [hg0, hg1]
      exact hl
    · rcases List.mem_cons.mp hdev with rfl | hdev
      · obtain rfl | rfl : x = 0 ∨ x = 1 := by omega
        · exact ⟨g0, by simp, hsays0⟩
        · exact ⟨g1, by simp, hsays1⟩
      · obtain ⟨g, hg, hgsays⟩ := hsays dev x hdev hx
        exact ⟨g, by simp [hg], hgsays⟩

/-! The control of a job. -/

theorem jobCtl_job (s : State) (j : Nat) : (s.jobCtl j).job = j := by
  unfold State.jobCtl
  cases h : s.jobs.find? (·.job = j) with
  | none => rfl
  | some k => simpa using List.find?_some h

/-- The control of the job of k is k from then on, that of every other job as before. -/
theorem jobCtl_setJobCtl (s : State) (k : JobCtl) (i : Nat) : (s.setJobCtl k).jobCtl i = if i = k.job then k else s.jobCtl i := by
  unfold State.setJobCtl State.jobCtl
  dsimp only
  by_cases hany : s.jobs.any (·.job = k.job) = true
  · have hsame : ((fun q : JobCtl => decide (q.job = i)) ∘ fun q => if q.job = k.job then k else q) = fun q => decide (q.job = i) := by
      funext q
      dsimp only [Function.comp]
      split
      · next h => rw [h]
      · rfl
    rw [if_pos hany, List.find?_map, hsame]
    cases hfind : s.jobs.find? (·.job = i) with
    | none =>
      have hi : i ≠ k.job := by
        rintro rfl
        obtain ⟨q, hq, hjob⟩ := List.any_eq_true.mp hany
        exact List.find?_eq_none.mp hfind q hq hjob
      rw [if_neg hi]
      rfl
    | some q =>
      have hjob : q.job = i := by simpa using List.find?_some hfind
      show (if q.job = k.job then k else q) = if i = k.job then k else q
      rw [hjob]
  · have hnone : s.jobs.find? (·.job = k.job) = none := List.find?_eq_none.mpr fun q hq h => hany (List.any_eq_true.mpr ⟨q, hq, h⟩)
    rw [if_neg hany, List.find?_append]
    by_cases hi : i = k.job
    · rw [if_pos hi, hi, hnone]
      simp
    · rw [if_neg hi]
      simp [Ne.symm hi]

/-! CUT (R412). -/

theorem cutJob_nothing {s : State} {j : Nat} (die : Nat) (h : s.savesOn = false ∨ (s.jobCtl j).busy = true) : s.cutJob die j = s := by
  unfold State.cutJob
  rw [if_pos (by simpa using h)]

/-- The job's control once a cut is open whose origin is the die. -/
def State.cutCtl (s : State) (die j : Nat) : JobCtl :=
  { s.jobCtl j with origin := some die, odev := s.ownDev, odie := die, members := s.members j
                    reports := [], saved := [], isCut := true, since := s.now }

theorem cutJob_opens {s : State} {j : Nat} (die : Nat) (hon : s.savesOn = true) (hbusy : (s.jobCtl j).busy = false) : ∃ l,
    s.cutJob die j = (({ s with mem := memWriteN s.mem (s.saveEntry j + 58) 1 1 }).setJobCtl (s.cutCtl die j)).joined l ∧
    ∀ dev x, dev ∈ s.members j → x < 2 → ∃ g, g ∈ l ∧ SaysFrom die dev (.cutOpen j x s.ownDev die) g := by
  have hput : s.putJstate j 1 = { s with mem := memWriteN s.mem (s.saveEntry j + 58) 1 1 } := if_pos hon
  obtain ⟨l, hl, hsent⟩ := toDies_joined die j (fun d => .cutOpen j d s.ownDev die) (s.members j)
    (({ s with mem := memWriteN s.mem (s.saveEntry j + 58) 1 1 }).setJobCtl (s.cutCtl die j))
  refine ⟨l, ?_, hsent⟩
  unfold State.cutJob
  rw [if_neg (by simp [hon, hbusy]), hput]
  exact hl

theorem exec_sysCut (a : Reg) (s : State) : exec (.sysCut a) s =
    issue (.sysCut a) (pureEff fun s => s.cutJob (dieOf s.cur) (((s.ctxAt s.cur).getX a).bits 0 12)) s := rfl

/-- The state s with a cut of the job open, its messages l sent. -/
def State.withCut (s : State) (die j : Nat) (l : List Flight) : State :=
  (({ s with mem := memWriteN s.mem (s.saveEntry j + 58) 1 1 }).setJobCtl (s.cutCtl die j)).joined l

/-- With no cut to open, SYS CUT does nothing. -/
theorem cut_nothing {s : State} {a : Reg} {j : Nat} (h : Ready (.sysCut a) s) (hj : ((own s).getX a).bits 0 12 = j)
    (hoff : s.savesOn = false ∨ (s.jobCtl j).busy = true) : Does (exec (.sysCut a) s) s id := by
  subst hj
  have heff : (opened s).cutJob (dieOf s.cur) (((own s).getX a).bits 0 12) = opened s := cutJob_nothing _ hoff
  rw [exec_sysCut]
  exact does_beside h nofun (congrArg Host.Outcome.next heff) rfl

/-- Else it opens the cut. -/
theorem cut_opens {s : State} {a : Reg} {j : Nat} (h : Ready (.sysCut a) s) (hj : ((own s).getX a).bits 0 12 = j)
    (hon : s.savesOn = true) (hbusy : (s.jobCtl j).busy = false) : ∃ l, Does (exec (.sysCut a) s) (s.withCut (dieOf s.cur) j l) id ∧
      ∀ dev x, dev ∈ s.members j → x < 2 → ∃ g, g ∈ l ∧ SaysFrom (dieOf s.cur) dev (.cutOpen j x s.ownDev (dieOf s.cur)) g := by
  subst hj
  obtain ⟨l, heff, hsent⟩ := cutJob_opens (s := opened s) (dieOf s.cur) hon hbusy
  rw [exec_sysCut]
  exact ⟨l, does_beside h nofun (congrArg Host.Outcome.next heff) rfl, hsent⟩

theorem memGet_write_byte {m : Mem} (a v q : Nat) (hw : m.wf = true) :
    memGet (memWriteN m a 1 v) q = if q = a then BitVec.ofNat 8 v else memGet m q := by
  show memGet (memSet m a (BitVec.ofNat 8 v)) q = _
  split
  · next h => rw [h, memGet_memSet_self a _ hw]
  · next h => exact memGet_memSet_ne a q _ hw h

end Sys2Proof.Machine
end

section
/-! PROOFS. spec/09_system.md R264: CERESUME. -/

namespace Sys2Proof.Machine

open Sys2Proof.Safety

/-! What a handle names (R264, R307). -/

/-- The issuer may name a command or a request of the job: it is a command sequencer, or a context of the job. -/
def MayName (s : State) (n j : Nat) : Prop := isSeq n = true ∨ j = (s.ctxAt n).job

theorem parkedFlight_none {s : State} {n : Nat} {v : Word}
    (h : ∀ g d, g ∈ s.fab.flights → g.loc = .parked d (v.bits 0 63) → ¬MayName s n g.pkt.jid) : s.parkedFlight n v = none := by
  refine List.findSome?_eq_none_iff.mpr fun g hg => ?_
  split
  · next d k hloc =>
    by_cases hk : k = v.bits 0 63
    · have hno := h g d hg (hk ▸ hloc)
      unfold MayName at hno
      simpa [hk] using hno
    · simp [hk]
  · rfl

theorem parkedFlight_some {s : State} {n d : Nat} {v : Word} {g : Flight} (hg : g ∈ s.fab.flights) (hloc : g.loc = .parked d (v.bits 0 63))
    (hmay : MayName s n g.pkt.jid) (honly : ∀ e x, e ∈ s.fab.flights → e.loc = .parked x (v.bits 0 63) → e = g) :
    s.parkedFlight n v = some (g, d) := by
  cases h : s.parkedFlight n v with
  | none =>
    have hno := List.findSome?_eq_none_iff.mp h g hg
    rw [hloc] at hno
    unfold MayName at hmay
    simp [hmay] at hno
  | some r =>
    obtain ⟨e, he, hr⟩ := List.exists_of_findSome?_eq_some h
    split at hr
    · next x k hx =>
      obtain ⟨⟨rfl, -⟩, rfl⟩ : (k = v.bits 0 63 ∧ _) ∧ (e, x) = r := by simpa using hr
      obtain rfl := honly e x he hx
      obtain ⟨rfl, -⟩ := Loc.parked.inj (hx.symm.trans hloc)
      rfl
    · contradiction

/-- The command of s that is parked under handle h, when the issuer may name it. -/
def namedBy (s : State) (n h : Nat) (c : Cmd) : Bool :=
  match c.st with
  | .parked p => p.handle = h && (isSeq n || c.job = (s.ctxAt n).job)
  | _ => false

theorem namedBy_iff (s : State) (n h : Nat) (c : Cmd) :
    namedBy s n h c = true ↔ ∃ p, c.st = .parked p ∧ p.handle = h ∧ MayName s n c.job := by
  unfold namedBy MayName
  split
  · next p hp => simp [hp]
  · next hno => exact ⟨nofun, fun ⟨p, hp, _⟩ => absurd hp (hno p)⟩

theorem resumeHandle_eq (s : State) (n : Nat) (v : Word) (abort : State → Cmd → State) : s.resumeHandle n v abort =
    (s.cmds.find? (namedBy s n (v.bits 0 63))).elim s fun c => if v.getLsbD 63 then abort (s.disown c.die (v.bits 0 63)) c
      else (s.disown c.die (v.bits 0 63)).putCmd { c with st := .running } := by
  unfold State.resumeHandle
  cases h : s.cmds.find? (namedBy s n (v.bits 0 63)) with
  | none =>
    dsimp only
    split
    · rfl
    · next c hc => exact absurd (h.symm.trans hc) nofun
  | some c =>
    dsimp only
    split
    · next hn => exact absurd (hn.symm.trans h) nofun
    · next d hd =>
      cases Option.some.inj (h.symm.trans hd)
      rfl

/-- A list whose only entry with p is c. -/
theorem find?_eq_some_of_only {α : Type} {p : α → Bool} {l : List α} {c : α} (hc : c ∈ l) (hp : p c = true)
    (honly : ∀ e ∈ l, p e = true → e = c) :
    l.find? p = some c := by
  cases h : l.find? p with
  | none => exact absurd hp (List.find?_eq_none.mp h c hc)
  | some e => rw [honly e (List.mem_of_find?_eq_some h) (List.find?_some h)]

/-! The slot. -/

/-- What CERESUME makes of the state: the request, or else the command, that agent n names by v goes on or ends. -/
def State.resumedBy (s : State) (n : Nat) (v : Word) : State :=
  (s.parkedFlight n v).elim (s.resumeHandle n v abortCmd) fun p => s.resumeParked p.1 p.2 (v.getLsbD 63)

theorem exec_sysCeresume (a : Reg) (s : State) : exec (.sysCeresume a) s =
    issue (.sysCeresume a) (pureEff fun s => s.resumedBy s.cur ((s.ctxAt s.cur).getX a)) s := by
  show execSysCeresume a s = _
  unfold execSysCeresume State.resumedBy
  congr 2
  funext u
  dsimp only
  cases u.parkedFlight u.cur ((u.ctxAt u.cur).getX a) <;> rfl

theorem abortCmd_slot {s : State} {c : Cmd} (hk : c.kind = .slot) (hrec : ∀ r kd ka kb kc, c.ins = .cpy r kd ka kb kc → cRec c = 0) :
    abortCmd s c = s.putCmd { c with status := 0x44, st := .done, aux := 0 } := by
  unfold abortCmd
  rw [hk]
  dsimp only
  refine if_neg ?_
  split
  · next r kd ka kb kc hins => simp [hrec r kd ka kb kc hins]
  · nofun

section
variable {s : State} {a : Reg} {v : Word} {h : Nat} (hready : Ready (.sysCeresume a) s) (hv : (own s).getX a = v) (hh : v.bits 0 63 = h)

include hready hv in
theorem does_ceresume {s' : State} (he : (opened s).resumedBy s.cur v = { s' with iss := (opened s).iss }) (hown : own s' = own s) :
    Does (exec (.sysCeresume a) s) s' id := by
  subst hv
  rw [exec_sysCeresume]
  exact does_beside hready nofun (congrArg Host.Outcome.next he) hown

include hready hv hh

/-- A handle that names no request that the issuer may name. -/
theorem does_ceresume_command {s' : State} (hreq : ∀ g d, g ∈ s.fab.flights → g.loc = .parked d h → ¬MayName s s.cur g.pkt.jid)
    (he : (opened s).resumeHandle s.cur v abortCmd = { s' with iss := (opened s).iss }) (hown : own s' = own s) :
    Does (exec (.sysCeresume a) s) s' id := by
  subst hh
  have hnone : (opened s).parkedFlight s.cur v = none := parkedFlight_none hreq
  refine does_ceresume hready hv ?_ hown
  rw [State.resumedBy, hnone]
  exact he

/-- A handle that names nothing. -/
theorem ceresume_nothing (hcmd : ∀ c q, c ∈ s.cmds → c.st = .parked q → q.handle = h → ¬MayName s s.cur c.job)
    (hreq : ∀ g d, g ∈ s.fab.flights → g.loc = .parked d h → ¬MayName s s.cur g.pkt.jid) : Does (exec (.sysCeresume a) s) s id := by
  have hfind : (opened s).cmds.find? (namedBy (opened s) s.cur h) = none := by
    refine List.find?_eq_none.mpr fun c hc hn => ?_
    obtain ⟨q, hq, hhandle, hmay⟩ := (namedBy_iff _ _ _ _).mp hn
    exact hcmd c q hc hq hhandle hmay
  refine does_ceresume_command hready hv hh hreq ?_ rfl
  rw [resumeHandle_eq, hh, hfind]
  rfl

/-- A handle that names a command: it is taken up, and restarts or ends. -/
theorem ceresume_command {c d : Cmd} {p : Park} (hreq : ∀ g x, g ∈ s.fab.flights → g.loc ≠ .parked x h) (hc : c ∈ s.cmds)
    (hst : c.st = .parked p) (hp : p.handle = h) (hmay : MayName s s.cur c.job)
    (honly : ∀ e q, e ∈ s.cmds → e.st = .parked q → q.handle = h → e = c) (hid : d.id = c.id)
    (hd : ∀ u : State, (if v.getLsbD 63 then abortCmd u c else u.putCmd { c with st := .running }) = u.putCmd d) :
    Does (exec (.sysCeresume a) s) { s.disown (dieOf c.agent) h with cmds := s.cmds.map fun e => if e.id = c.id then d else e } id := by
  have hfind : (opened s).cmds.find? (namedBy (opened s) s.cur h) = some c := by
    refine find?_eq_some_of_only hc ((namedBy_iff _ _ _ _).mpr ⟨p, hst, hp, hmay⟩) fun e he hn => ?_
    obtain ⟨q, hq, hhandle, -⟩ := (namedBy_iff _ _ _ _).mp hn
    exact honly e q he hq hhandle
  refine does_ceresume_command hready hv hh (fun g x hg hloc => absurd hloc (hreq g x hg)) ?_ rfl
  rw [resumeHandle_eq, hh, hfind, ← hid]
  exact hd _

/-- A handle that names a request: it waits again, or is answered as aborted. -/
theorem ceresume_request {g : Flight} {d : Nat} (hg : g ∈ s.fab.flights) (hloc : g.loc = .parked d h) (hmay : MayName s s.cur g.pkt.jid)
    (honly : ∀ e x, e ∈ s.fab.flights → e.loc = .parked x h → e = g) : ∃ t, exec (.sysCeresume a) s = .next t ∧
      OnlyOwn { s with fab := t.fab } t ∧ SameButIssue (aged (own s)) (t.ctxAt s.cur) ∧ t.fab = (s.resumeParked g d (v.getLsbD 63)).fab := by
  subst hh
  have hsome : (opened s).parkedFlight s.cur v = some (g, d) := parkedFlight_some hg hloc hmay honly
  have he : (opened s).resumedBy s.cur v =
      { ({ s with fab := (s.resumeParked g d (v.getLsbD 63)).fab } : State) with iss := (opened s).iss } := by
    rw [State.resumedBy, hsome]
    show (opened s).resumeParked g d (v.getLsbD 63) = _
    unfold State.resumeParked
    split <;> rfl
  obtain ⟨t, ho, hown, hctx⟩ := does_ceresume hready hv he rfl
  have hfab : t.fab = (s.resumeParked g d (v.getLsbD 63)).fab := by rw [hown.1]
  exact ⟨t, ho, hfab ▸ hown, hctx, hfab⟩

end

/-! A request taken up (R307). -/

/-- The answer that leaves a die for the requester of a packet. -/
def State.reply (s : State) (d : Nat) (p : Packet) (op status : Nat) : Flight :=
  s.injected d { dest := s.mapDev p.jid p.src, src := s.ownDev, die := d, cls := 1, jid := p.jid, tag := p.tag, gen := p.gen, op := op
                 arg := status }

theorem flights_resumeParked_abort (s : State) (g : Flight) (d : Nat) :
    (s.resumeParked g d true).fab.flights = s.fab.flights.filter (·.id != g.id) ++ [s.reply d g.pkt 0x10 3] := rfl

theorem flights_resumeParked_wait (s : State) (g : Flight) (d : Nat) : (s.resumeParked g d false).fab.flights =
    s.fab.flights.filter (·.id != g.id) ++ [{ g with loc := .held d }] ++ [s.reply d g.pkt 0x13 0] := rfl

/-- Every other packet stays. -/
theorem mem_resumeParked {s : State} {g e : Flight} (d : Nat) (b : Bool) (hne : e.id ≠ g.id) (he : e ∈ s.fab.flights) :
    e ∈ (s.resumeParked g d b).fab.flights := by
  cases b
  · rw [flights_resumeParked_wait]
    simp [he, hne]
  · rw [flights_resumeParked_abort]
    simp [he, hne]

/-- The request that has ended is gone: its number is older than that of its answer. -/
theorem findFlight_resumeParked_abort {s : State} {g : Flight} (d : Nat) (hid : g.id < s.fab.nextId) :
    (s.resumeParked g d true).findFlight g.id = none := by
  have hnew : (s.reply d g.pkt 0x10 3).id ≠ g.id := Nat.ne_of_gt hid
  rw [State.findFlight, flights_resumeParked_abort]
  simp [hnew]

/-- The requester is told of what has become of its request. -/
theorem sent_resumeParked (s : State) (g : Flight) (d : Nat) (b : Bool) : Sent (s.resumeParked g d b) d fun q =>
    q.dest = s.mapDev g.pkt.jid g.pkt.src ∧ q.op = (if b then 0x10 else 0x13) ∧ q.cls = 1 ∧ q.tag = g.pkt.tag ∧ q.gen = g.pkt.gen ∧
      q.arg = if b then 3 else 0 := by
  cases b
  · exact ⟨s.reply d g.pkt 0x13 0, by rw [flights_resumeParked_wait]; simp, rfl, rfl, rfl, rfl, rfl, rfl, rfl⟩
  · exact ⟨s.reply d g.pkt 0x10 3, by rw [flights_resumeParked_abort]; simp, rfl, rfl, rfl, rfl, rfl, rfl, rfl⟩

theorem sent_congr {s t : State} {d : Nat} {P Q : Packet → Prop} (h : Sent s d P) (hf : t.fab = s.fab) (hpq : ∀ q, P q → Q q) : Sent t d Q := by
  obtain ⟨g, hg, hloc, hp⟩ := h
  exact ⟨g, by rw [hf]; exact hg, hloc, hpq _ hp⟩

/-- Settles O33: GSW and SRGROW as commands, CUT by the state of its job, CERESUME by what its handle names. -/
theorem requestsAccepted : Obligations.RequestsAccepted := by
  intro s a
  refine ⟨fun h => accepts_request h nofun, fun h => accepts_request h nofun, fun h j hj => ⟨cut_nothing h hj, fun hon hbusy hmem => ?cut⟩,
    fun h v n hv hn => ⟨fun hcmd hreq => ?nothing, fun c p hreq hc hst hp hmay honly => ⟨fun h63 => ?restart, fun h63 hk hrec => ?abort⟩,
      fun g d hg hloc hmay hid honly => ?request⟩⟩
  case cut =>
    obtain ⟨l, ⟨t, ho, hown, hctx⟩, hsent⟩ := cut_opens h hj hon hbusy
    obtain ⟨hstate, hothers, -, -⟩ := hown
    have hjobs : ∀ i, t.jobCtl i = if i = j then s.cutCtl (dieOf s.cur) j else s.jobCtl i := fun i => by
      rw [State.jobCtl, hstate]
      refine (jobCtl_setJobCtl _ (s.cutCtl (dieOf s.cur) j) i).trans ?_
      rw [show (s.cutCtl (dieOf s.cur) j).job = j from jobCtl_job s j]
      rfl
    refine ⟨t, l, ho, ?_, hctx, hothers, fun q => ?_, (hjobs j).trans (if_pos rfl), fun i hi => (hjobs i).trans (if_neg hi), hsent⟩
    · rw [hstate]
      rfl
    · rw [hstate]
      exact memGet_write_byte _ 1 q hmem
  case nothing =>
    refine ceresume_nothing h hv hn (fun c q hc hst hp => ?_) (fun g d hg hloc => ?_)
    · obtain ⟨hseq, hjob⟩ := hcmd c q hc hst hp
      exact not_or.mpr ⟨Bool.eq_false_iff.mp hseq, hjob⟩
    · obtain ⟨hseq, hjob⟩ := hreq g d hg hloc
      exact not_or.mpr ⟨Bool.eq_false_iff.mp hseq, hjob⟩
  case restart => exact ceresume_command h hv hn hreq hc hst hp hmay honly rfl fun u => by rw [if_neg (Bool.eq_false_iff.mp h63)]
  case abort => exact ceresume_command h hv hn hreq hc hst hp hmay honly rfl fun u => by rw [if_pos h63, abortCmd_slot hk hrec]
  case request =>
    obtain ⟨t, ho, hown, hctx, hfab⟩ := ceresume_request h hv hn hg hloc hmay honly
    have hsent := sent_resumeParked s g d (v.getLsbD 63)
    refine ⟨t, ho, hown, hctx, fun e hne he => ?others, fun h63 => ⟨?waits, ?told⟩, fun h63 => ⟨?gone, ?answered⟩⟩
    case others =>
      rw [hfab]
      exact mem_resumeParked d _ hne he
    case waits =>
      rw [hfab, h63, flights_resumeParked_wait]
      simp
    case told =>
      refine sent_congr hsent hfab fun q hq => ?_
      simp only [h63, Bool.false_eq_true, if_false] at hq
      obtain ⟨hdest, hop, hcls, htag, hgen, -⟩ := hq
      exact ⟨hdest, hop, hcls, htag, hgen⟩
    case gone =>
      rw [State.findFlight, hfab, h63]
      exact findFlight_resumeParked_abort d hid
    case answered =>
      refine sent_congr hsent hfab fun q hq => ?_
      simpa only [h63, if_true] using hq

end Sys2Proof.Machine
end

section
/-! PROOFS. spec/01_machine.md R22, R23, spec/23_platform.md R460 to R469: the machine right after reset. -/

namespace Sys2Proof.Machine

/-! The context that no table lists. -/

/-- No token is busy or has a status (R103). -/
theorem idle_token (k : Tok) : (({} : Ctx).getK k).busy = false ∧ (({} : Ctx).getK k).status = 0 := by
  have hk : ({} : Ctx).getK k = {} := by
    unfold Ctx.getK
    split
    · rfl
    · exact Vector.getElem_replicate _
  rw [hk]
  exact ⟨rfl, rfl⟩

/-- Every register is full and reads as zero. -/
theorem idle_registers (r : Reg) : ({} : Ctx).xFull r = true ∧ ({} : Ctx).vFull r = true ∧ ({} : Ctx).getX r = 0 ∧ ({} : Ctx).getV r = 0 := by
  have hfull : (BitVec.allOnes 64).getLsbD r.toNat = true := by
    rw [BitVec.getLsbD_allOnes]
    exact decide_eq_true r.isLt
  refine ⟨?_, hfull, ?_, Vector.getElem_replicate _⟩
  · exact Bool.or_eq_true_iff.mpr (.inr hfull)
  · unfold Ctx.getX
    split
    · rfl
    · exact Vector.getElem_replicate _

/-- PSW has ASYNC alone (R254), PCW what R167 gives it, every other control register nothing. -/
theorem idle_controls : ({} : Ctx).cr[0] = 0x20 ∧ ({} : Ctx).cr[0xB] = 0x0000FFFF00000033 ∧
    ∀ k : Fin 24, k.val ≠ 0 → k.val ≠ 0xB → ({} : Ctx).cr[k] = 0 := by decide

/-! The platform. -/

theorem reset_die {d : Nat} (hd : d < 2) : State.reset.die d = {} := by
  obtain rfl | rfl : d = 0 ∨ d = 1 := by omega
  all_goals rfl

theorem reset_port {i : Nat} (hi : i < 16) : State.reset.fab.port i = {} := by
  have hget : (Vector.replicate 16 ({} : Port))[i]? = some {} := by simp [hi]
  exact congrArg (·.getD {}) hget

/-- Settles O59: each table of the reset state is empty or holds the same default everywhere. -/
theorem resetState : Obligations.ResetState := by
  unfold Obligations.ResetState
  refine ⟨rfl, rfl, rfl, rfl, rfl, rfl, rfl, rfl, rfl, rfl, rfl, fun i => ?counters, fun i hi => ?ports, fun d x hd hx => ?dies, fun r hr => ?therm,
    fun n c hc => ?contexts, fun _ => rfl, fun _ => ⟨rfl, rfl⟩, fun _ => rfl⟩
  case counters => exact Vector.getElem_replicate i.isLt
  case ports =>
    rw [reset_port hi]
    exact ⟨rfl, rfl⟩
  case dies =>
    rw [reset_die hd] at hx
    subst hx
    exact ⟨rfl, rfl, rfl, rfl, rfl, rfl, rfl, rfl, fun i => Vector.getElem_replicate i.isLt⟩
  case therm =>
    show (Vector.replicate 6 (0 : Word))[r]? = some 0
    simp [hr]
  case contexts =>
    obtain rfl : {} = c := hc
    exact ⟨rfl, rfl, idle_token, idle_registers, fun k => congrArg Loop.active (Vector.getElem_replicate k.isLt), rfl, rfl, idle_controls⟩

end Sys2Proof.Machine
end

section
/-! PROOFS. spec/13_memory.md R303, R305, spec/07_memory_instr.md R193: a page walk ends. -/

namespace Sys2Proof.Machine

open Sys2Proof.Safety

/-! The leaf of a walk (R300, R303). -/

theorem page_dvd_levelSize (level : Nat) : 4096 ∣ 2 ^ levelShift level := by
  have hshift : 12 ≤ levelShift level := by
    unfold levelShift
    split <;> decide
  exact pow_dvd_pow 2 hshift

/-- A leaf spans whole pages of 4 KiB. -/
theorem page_dvd_walk {s : State} {root : Word} {va size : Nat} {leaf : Word} (h : s.walk root va = .ok (leaf, size)) : 4096 ∣ size ∧ 0 < size := by
  have hfrom : ∀ fuel t, walkFrom s va fuel t = .ok (leaf, size) → ∃ level, size = 2 ^ levelShift level := by
    intro fuel
    induction fuel with
    | zero => intro t ht; contradiction
    | succ fuel ih =>
      intro t ht
      unfold walkFrom at ht
      dsimp only at ht
      split at ht
      · contradiction
      split at ht
      · contradiction
      split at ht
      · split at ht
        · contradiction
        · exact ih _ ht
      split at ht
      · contradiction
      · exact ⟨_, (Prod.mk.inj (Except.ok.inj ht)).2.symm⟩
  obtain ⟨level, rfl⟩ := hfrom 6 _ h
  exact ⟨page_dvd_levelSize level, Nat.two_pow_pos _⟩

/-- The entry that holds the leaf of walk w. -/
def IsLeaf (w : Walk) (leaf : Word) (size : Nat) (e : Tlb) : Prop :=
  e.job = w.job ∧ e.leaf = leaf ∧ e.size = size ∧ e.page = w.page * 4096 / size * size

/-- It covers every byte of the page, and what lies in the page ends before it does. -/
theorem IsLeaf.covers {w : Walk} {leaf : Word} {size : Nat} {e : Tlb} (h : IsLeaf w leaf size e) (hsize : 4096 ∣ size ∧ 0 < size) {va : Nat}
    (hva : va / 4096 = w.page) : e.covers w.job va = true ∧ ∀ len, va % 4096 + len ≤ 4096 → va + len ≤ e.page + e.size := by
  obtain ⟨hjob, -, hesize, hpage⟩ := h
  obtain ⟨⟨m, rfl⟩, hpos⟩ := hsize
  have hm : 0 < m := Nat.pos_of_mul_pos_left hpos
  have hbase : e.page = w.page / m * m * 4096 := by
    rw [hpage, Nat.mul_comm w.page, Nat.mul_div_mul_left _ _ (by decide), Nat.mul_comm 4096 m, Nat.mul_assoc]
  have hlow : w.page / m * m ≤ w.page := Nat.div_mul_le_self _ _
  have hhigh : w.page < w.page / m * m + m := Nat.lt_div_mul_add hm
  constructor
  · simp only [Tlb.covers, hjob, hbase, hesize, decide_true, Bool.true_and, Bool.and_eq_true, decide_eq_true_eq]
    omega
  · intro len hlen
    rw [hbase, hesize]
    omega

/-! What waited on a walk. -/

theorem mapGet_map {α : Type} {d : α} {g : Nat × α → Nat × α} {k : Nat} (hkey : ∀ p, (g p).1 = p.1) (hd : (g (k, d)).2 = d) :
    ∀ l : List (Nat × α), mapGet d (l.map g) k = (g (k, mapGet d l k)).2
  | [] => hd.symm
  | p :: t => by
    obtain ⟨n, v⟩ := p
    have hcons : g (n, v) = (n, (g (n, v)).2) := Prod.ext (hkey _) rfl
    rw [List.map_cons, hcons]
    unfold mapGet
    split
    · next hk => rw [hk]
    · split
      · exact hd.symm
      · exact mapGet_map hkey hd t

theorem ctxAt_serveWalk (s : State) (unit job page : Nat) (r : Except Cause (Word × Nat)) (q : Nat) : (s.serveWalk unit job page r).ctxAt q =
    if unitOf q = unit ∧ (s.ctxAt q).job = job then { s.ctxAt q with acc := (s.ctxAt q).acc.map (walkServed page r) } else s.ctxAt q := by
  have hmap := mapGet_map (d := ({} : Ctx)) (k := q) (g := fun q => if unitOf q.1 = unit && q.2.job = job then
    (q.1, { q.2 with acc := q.2.acc.map (walkServed page r) }) else q) (fun p => by dsimp only; split <;> rfl)
    (by dsimp only; split <;> rfl) s.ctxs
  refine hmap.trans ?_
  by_cases h : unitOf q = unit ∧ (s.ctxAt q).job = job
  · rw [if_pos h]
    exact congrArg Prod.snd (if_pos (Bool.and_eq_true_iff.mpr ⟨decide_eq_true h.1, decide_eq_true h.2⟩))
  · rw [if_neg h]
    exact congrArg Prod.snd (if_neg fun hboth => h ((Bool.and_eq_true_iff.mp hboth).imp of_decide_eq_true of_decide_eq_true))

/-- No walk of w's page is under way at the unit any more. -/
def TransUnit.without (u : TransUnit) (w : Walk) : TransUnit := { u with walks := u.walks.filter fun x => !(x.job = w.job && x.page = w.page) }

theorem endWalk_error (s : State) (unit : Nat) (w : Walk) (e : Cause) : s.endWalk unit w.job (w.page * 4096) (.error e) =
    (s.setUnit unit ((s.unitAt unit).without w)).serveWalk unit w.job w.page (.error e) := by
  unfold State.endWalk
  rw [Nat.mul_div_cancel _ (by decide)]
  rfl

theorem endWalk_ok (s : State) (unit : Nat) (w : Walk) (leaf : Word) (size : Nat) : s.endWalk unit w.job (w.page * 4096) (.ok (leaf, size)) =
    (s.setUnit unit (((s.unitAt unit).without w).insert w.job (w.page * 4096) leaf size)).serveWalk unit w.job w.page (.ok (leaf, size)) := by
  unfold State.endWalk
  rw [Nat.mul_div_cancel _ (by decide)]
  rfl

/-- With room in a unit, a walked leaf joins those held. -/
theorem insert_of_room {u : TransUnit} (job va : Nat) (leaf : Word) {size : Nat} (hroom : u.held.length < 4096) :
    ∃ e : Tlb, e.job = job ∧ e.leaf = leaf ∧ e.size = size ∧ e.page = va / size * size ∧ e ∈ (u.insert job va leaf size).held ∧
      (∀ x, x ∈ (u.insert job va leaf size).held → x = e ∨ x ∈ u.held) ∧ (u.insert job va leaf size).walks = u.walks := by
  have hlen : ∀ (e : Tlb) (f : Tlb → Bool), (e :: u.held.filter f).length ≤ 4096 := fun e f => by
    have := List.length_filter_le f u.held
    simp only [List.length_cons]
    omega
  refine ⟨{ job := job, page := va / size * size, size := size, leaf := leaf, pin := ptePin leaf && decide (u.held.countP (·.pin) < 1024) },
    rfl, rfl, rfl, rfl, ?_⟩
  unfold TransUnit.insert
  simp only [hlen, if_true]
  exact ⟨List.mem_cons_self, fun x hx => (List.mem_cons.mp hx).imp_right fun h => (List.mem_filter.mp h).1, trivial⟩

/-! A walk that faults. -/

theorem walkDone_error {s : State} {unit n : Nat} {w : Walk} {e : Cause} (hw : (s.unitAt unit).walks[n]? = some w) (hn : n < 32)
    (hwalk : s.walk (wordOfNat w.root) (w.page * 4096) = .error e) : walkDone s unit n = s.endWalk unit w.job (w.page * 4096) (.error e) := by
  unfold walkDone
  simp only [hw, hwalk, Nat.not_le.mpr hn, if_false]

/-! A walk whose leaf is held, while what waited on it is taken up. -/

/-- After walk w of a unit has ended, its leaf held in e: nothing but units and accesses has changed, and no walk of its page is under way. -/
structure Walked (s : State) (unit : Nat) (w : Walk) (e : Tlb) (t : State) : Prop where
  only : t = { s with ctxs := t.ctxs, units := t.units }
  ctx : ∀ q, t.ctxAt q = { s.ctxAt q with acc := (t.ctxAt q).acc }
  leaf : e ∈ (t.unitAt unit).held
  held : ∀ x, x ∈ (t.unitAt unit).held → x = e ∨ x ∈ (s.unitAt unit).held
  walks : ∀ x, x ∈ (t.unitAt unit).walks → ¬(x.job = w.job ∧ x.page = w.page)

theorem Walked.mem {s t : State} {unit : Nat} {w : Walk} {e : Tlb} (h : Walked s unit w e t) : t.mem = s.mem := by rw [h.only]

theorem Walked.cmds {s t : State} {unit : Nat} {w : Walk} {e : Tlb} (h : Walked s unit w e t) : t.cmds = s.cmds := by rw [h.only]

/-- The access a of context n, which waited on walk w, has come to st: the leaf decides for one that lies in the page. -/
def Decided (s : State) (unit : Nat) (w : Walk) (leaf : Word) (size n : Nat) (a : Access) (st : AccSt) : Prop :=
  (s.ctxAt n).job = w.job → st ≠ .walking w.page ∧ ∀ va r, coreTarget a.ea = .virt va →
    va / 4096 = w.page → va % 4096 + accBytes a.ins ≤ 4096 → (s.unitAt unit).find w.job va = none →
    checkLeaf s leaf size va (accBytes a.ins) { kernel := a.kernel, isWrite := isStore a.ins, sync := isSync a.ins } = r →
    (∀ p, r = .ok p → st = .ready p none) ∧ ∀ x, r = .error x → st = .faulted x a.ea false

section
variable {s t : State} {unit n : Nat} {w : Walk} {e : Tlb} {leaf : Word} {size : Nat} {a : Access}

theorem walked_endWalk (hroom : (s.unitAt unit).held.length < 4096) :
    ∃ e, IsLeaf w leaf size e ∧ Walked s unit w e (s.endWalk unit w.job (w.page * 4096) (.ok (leaf, size))) := by
  obtain ⟨e, hjob, hleaf, hsize, hpage, hmem, hheld, hwalks⟩ := insert_of_room (size := size) (u := (s.unitAt unit).without w) w.job
    (w.page * 4096) leaf hroom
  have hunit : (s.endWalk unit w.job (w.page * 4096) (.ok (leaf, size))).unitAt unit =
      ((s.unitAt unit).without w).insert w.job (w.page * 4096) leaf size := by
    rw [endWalk_ok]
    exact State.unitAt_setUnit_self _ _ _
  refine ⟨e, ⟨hjob, hleaf, hsize, hpage⟩, ?only, fun q => ?ctx, ?mem, ?held, ?walks⟩
  case only =>
    rw [endWalk_ok]
    rfl
  case ctx =>
    rw [endWalk_ok, ctxAt_serveWalk]
    split <;> rfl
  case mem => rwa [hunit]
  case held => rwa [hunit]
  case walks =>
    rw [hunit, hwalks]
    rintro x hx ⟨hj, hp⟩
    simpa [hj, hp] using (List.mem_filter.mp hx).2

/-- The page is held. -/
theorem Walked.find_page (h : Walked s unit w e t) (he : IsLeaf w leaf size e) (hsize : 4096 ∣ size ∧ 0 < size) {va : Nat}
    (hva : va / 4096 = w.page) : (t.unitAt unit).find w.job va ≠ none := by
  intro hnone
  exact List.find?_eq_none.mp hnone e h.leaf (he.covers hsize hva).1

/-- Where nothing was held for an address of the page, its leaf is found. -/
theorem Walked.find_leaf (h : Walked s unit w e t) (he : IsLeaf w leaf size e) (hsize : 4096 ∣ size ∧ 0 < size) {va : Nat}
    (hva : va / 4096 = w.page) (hnew : (s.unitAt unit).find w.job va = none) : (t.unitAt unit).find w.job va = some e := by
  obtain ⟨x, hx⟩ := Option.ne_none_iff_exists'.mp (h.find_page he hsize hva)
  obtain rfl | hold := h.held x (List.mem_of_find?_eq_some hx)
  · exact hx
  · exact absurd (List.find?_some hx) (List.find?_eq_none.mp hnew x hold)

theorem Walked.putAcc (h : Walked s unit w e t) (n : Nat) (b : Access) : Walked s unit w e (t.putAcc n b) where
  only := by
    conv_lhs => rw [h.only]
    rfl
  ctx q := by
    by_cases hq : q = n
    · rw [hq, State.putAcc, State.ctxAt_modCtx_self, Ctx.putAcc, h.ctx n]
    · rw [State.putAcc, State.ctxAt_modCtx_ne _ _ _ _ hq]
      exact h.ctx q
  leaf := h.leaf
  held := h.held
  walks := h.walks

theorem Walked.hit (h : Walked s unit w e t) (job va : Nat) : Walked s unit w e (t.hit unit job va) := by
  unfold State.hit
  dsimp only
  split
  · next x hx =>
    split
    · exact h
    · have hmem : ∀ y, y ∈ x :: (t.unitAt unit).held.erase x ↔ y ∈ (t.unitAt unit).held := fun y =>
        (List.perm_cons_erase (List.mem_of_find?_eq_some hx)).symm.mem_iff
      refine ⟨?_, h.ctx, ?_, ?_, ?_⟩
      · conv_lhs => rw [h.only]
        rfl
      · rw [State.unitAt_setUnit_self]
        exact (hmem e).mpr h.leaf
      · rw [State.unitAt_setUnit_self]
        exact fun y hy => h.held y ((hmem y).mp hy)
      · rw [State.unitAt_setUnit_self]
        exact h.walks
  · exact h

/-- An access that asks for a walk of an address that is not held waits, and not for the page just walked. -/
theorem Walked.askWalk (h : Walked s unit w e t) (he : IsLeaf w leaf size e) (hsize : 4096 ∣ size ∧ 0 < size) (hu : unitOf n = unit) {va : Nat}
    (hmiss : (t.unitAt unit).find (t.ctxAt n).job va = none) : ∃ st, Walked s unit w e (t.askWalk n a va) ∧
      (∀ q, (t.askWalk n a va).ctxAt q = (t.putAcc n { a with st := st }).ctxAt q) ∧
      ((s.ctxAt n).job = w.job → st ≠ .walking w.page) := by
  have hjob : (t.ctxAt n).job = (s.ctxAt n).job := by rw [h.ctx n]; rfl
  have hpage : (s.ctxAt n).job = w.job → va / 4096 ≠ w.page := fun hj hva => by
    rw [hjob, hj] at hmiss
    exact h.find_page he hsize hva hmiss
  unfold State.askWalk
  dsimp only
  split
  · exact ⟨.waiting, h.putAcc n _, fun _ => rfl, fun _ => nofun⟩
  · refine ⟨.walking (va / 4096), ?_, ?_, fun hj hst => hpage hj (AccSt.walking.inj hst)⟩
    · refine Walked.putAcc ?_ n _
      split
      · exact h
      · rw [hu]
        refine ⟨?_, h.ctx, ?_, ?_, ?_⟩
        · conv_lhs => rw [h.only]
          rfl
        · rw [State.unitAt_setUnit_self]
          exact h.leaf
        · rw [State.unitAt_setUnit_self]
          exact h.held
        · rw [State.unitAt_setUnit_self]
          intro x hx
          obtain hx | hx := List.mem_append.mp hx
          · exact h.walks x hx
          · obtain rfl := List.mem_singleton.mp hx
            rintro ⟨hj, hp⟩
            exact hpage (hjob.symm.trans hj) hp
    · intro q
      split <;> rfl

theorem checkLeaf_congr (h : t.fdev = s.fdev) (leaf : Word) (size va len : Nat) (q : Ask) :
    checkLeaf t leaf size va len q = checkLeaf s leaf size va len q := by
  unfold checkLeaf
  rw [h]

theorem find_of_lookup_none {va len : Nat} (h : lookup t n a va len = none) : (t.unitAt (unitOf n)).find (t.ctxAt n).job va = none := by
  unfold lookup at h
  dsimp only at h
  split at h
  · contradiction
  · assumption

/-- What is held for an access that lies in the page just walked. -/
theorem Walked.lookup_page (h : Walked s unit w e t) (he : IsLeaf w leaf size e) (hsize : 4096 ∣ size ∧ 0 < size) (hu : unitOf n = unit) {va : Nat}
    (hj : (s.ctxAt n).job = w.job) (hva : va / 4096 = w.page) (hfit : va % 4096 + accBytes a.ins ≤ 4096)
    (hnew : (s.unitAt unit).find w.job va = none) : lookup t n a va (accBytes a.ins) =
      some ((checkLeaf s leaf size va (accBytes a.ins) { kernel := a.kernel, isWrite := isStore a.ins, sync := isSync a.ins }).map
        (·, accBytes a.ins)) := by
  have hjob : (t.ctxAt n).job = w.job := by rw [h.ctx n]; exact hj
  have hfind := h.find_leaf he hsize hva hnew
  have hfirst : min (accBytes a.ins) (e.page + e.size - va) = accBytes a.ins := by
    have := (he.covers hsize hva).2 _ hfit
    omega
  have hfdev : t.fdev = s.fdev := by rw [h.only]
  obtain ⟨-, rfl, rfl, -⟩ := he
  unfold lookup
  simp only [hu, hjob, hfind, hfirst, checkLeaf_congr hfdev]

/-- What the held leaves give for an access decides what it comes to. -/
theorem Walked.decided_of_lookup (h : Walked s unit w e t) (he : IsLeaf w leaf size e) (hsize : 4096 ∣ size ∧ 0 < size) (hu : unitOf n = unit)
    {va : Nat} {st : AccSt} (hva : coreTarget a.ea = .virt va) (hst : (s.ctxAt n).job = w.job → st ≠ .walking w.page)
    (hdec : ∀ r : Except Cause Piece, lookup t n a va (accBytes a.ins) = some (r.map (·, accBytes a.ins)) →
      (∀ p, r = .ok p → st = .ready p none) ∧ ∀ x, r = .error x → st = .faulted x a.ea false) : Decided s unit w leaf size n a st := by
  refine fun hj => ⟨hst hj, fun va' r hva' hp hfit hnew hr => ?_⟩
  obtain rfl := Target.virt.inj (hva.symm.trans hva')
  refine hdec r ?_
  rw [← hr]
  exact h.lookup_page he hsize hu hj hp hfit hnew

/-- An address that is not virtual lies in no page. -/
theorem decided_of_not_virt {st : AccSt} (hva : ∀ va, coreTarget a.ea ≠ .virt va) (hst : st ≠ .walking w.page) :
    Decided s unit w leaf size n a st := fun _ => ⟨hst, fun va _ h => absurd h (hva va)⟩

theorem ctxAt_hit_putAcc (s : State) (unit job va n : Nat) (b : Access) (q : Nat) :
    ((s.hit unit job va).putAcc n b).ctxAt q = (s.putAcc n b).ctxAt q := by
  rw [hit_eq]
  rfl

/-- An access that waited on the walk is taken up. -/
theorem Walked.translateAcc (h : Walked s unit w e t) (he : IsLeaf w leaf size e) (hsize : 4096 ∣ size ∧ 0 < size) (hu : unitOf n = unit) :
    ∃ st cut, Decided s unit w leaf size n a st ∧ Walked s unit w e (t.translateAcc n a) ∧
      ∀ q, (t.translateAcc n a).ctxAt q = (t.putAcc n { a with st := st, cut := cut }).ctxAt q := by
  subst hu
  unfold State.translateAcc
  dsimp only
  split
  · next sa hsa =>
    exact ⟨.ready { key := scrKey sa } none, a.cut, decided_of_not_virt (fun va => by rw [hsa]; exact nofun) nofun, h.putAcc n _, fun _ => rfl⟩
  · next hnc =>
    exact ⟨.faulted .nonCanonical a.ea false, a.cut, decided_of_not_virt (fun va => by rw [hnc]; exact nofun) nofun, h.putAcc n _, fun _ => rfl⟩
  · next va hva =>
    have hdecided := fun st => h.decided_of_lookup (st := st) he hsize rfl hva
    cases hl : lookup t n a va (accBytes a.ins) with
    | none =>
      obtain ⟨st, hwalked, hctx, hst⟩ := h.askWalk (a := a) he hsize rfl (find_of_lookup_none hl)
      exact ⟨st, a.cut, hdecided st hst fun r hr => absurd (hl.symm.trans hr) nofun, hwalked, hctx⟩
    | some o =>
      have hinj : ∀ r : Except Cause Piece, lookup t n a va (accBytes a.ins) = some (r.map (·, accBytes a.ins)) → o = r.map (·, accBytes a.ins) :=
        fun r hr => Option.some.inj (hl.symm.trans hr)
      cases o with
      | error x =>
        refine ⟨.faulted x a.ea false, a.cut, hdecided _ (fun _ => nofun) fun r hr => ?_, h.putAcc n _, fun _ => rfl⟩
        cases r with
        | error y =>
          obtain rfl := Except.error.inj (hinj _ hr)
          exact ⟨fun _ => nofun, fun z hz => by rw [Except.error.inj hz]⟩
        | ok p => exact absurd (hinj _ hr) nofun
      | ok f =>
        obtain ⟨p0, first⟩ := f
        have hhere := h.hit (t.ctxAt n).job va
        have hone : ∀ r : Except Cause Piece, lookup t n a va (accBytes a.ins) = some (r.map (·, accBytes a.ins)) →
            r = .ok p0 ∧ first = accBytes a.ins := fun r hr => by
          cases r with
          | error y => exact absurd (hinj _ hr) nofun
          | ok p =>
            obtain ⟨rfl, rfl⟩ := Prod.mk.inj (Except.ok.inj (hinj _ hr))
            exact ⟨rfl, rfl⟩
        dsimp only
        split
        · refine ⟨.ready p0 none, a.cut, hdecided _ (fun _ => nofun) fun r hr => ?_, hhere.putAcc n _, fun q => ctxAt_hit_putAcc _ _ _ _ _ _ _⟩
          obtain ⟨rfl, -⟩ := hone r hr
          exact ⟨fun p hp => by rw [Except.ok.inj hp], fun _ => nofun⟩
        · next hne =>
          have hsplit := fun st hst => hdecided st hst fun r hr => absurd (hone r hr).2 hne
          split
          · next hl2 =>
            obtain ⟨st, hwalked, hctx, hst⟩ := hhere.askWalk (a := a) he hsize rfl (find_of_lookup_none hl2)
            exact ⟨st, a.cut, hsplit st hst, hwalked, fun q => (hctx q).trans (ctxAt_hit_putAcc _ _ _ _ _ _ _)⟩
          · next x _ => exact ⟨.faulted x (wordOfNat (va + first)) true, a.cut, hsplit _ fun _ => nofun, hhere.putAcc n _,
              fun q => ctxAt_hit_putAcc _ _ _ _ _ _ _⟩
          · next p1 _ _ => exact ⟨.ready p0 (some p1), first, hsplit _ fun _ => nofun, (hhere.hit _ _).putAcc n _,
              fun q => (ctxAt_hit_putAcc _ _ _ _ _ _ _).trans (ctxAt_hit_putAcc _ _ _ _ _ _ _)⟩

/-! All of them. -/

/-- The accesses that wait on walk w at its unit, each with its context. -/
def waiters (s : State) (unit : Nat) (w : Walk) : List (Nat × Access) :=
  (s.ctxs.filter fun q => unitOf q.1 = unit && q.2.job = w.job && q.2.acc.any fun a => a.st = .walking w.page).flatMap fun q =>
    (q.2.acc.filter fun a => a.st = .walking w.page).map fun a => (q.1, a)

/-- One of them is taken up. -/
def takeUp (t : State) (p : Nat × Access) : State := t.translateAcc p.1 { p.2 with st := .waiting }

theorem walkDone_ok (hw : (s.unitAt unit).walks[n]? = some w) (hn : n < 32) (hwalk : s.walk (wordOfNat w.root) (w.page * 4096) = .ok (leaf, size)) :
    walkDone s unit n = (waiters s unit w).foldl takeUp (s.endWalk unit w.job (w.page * 4096) (.ok (leaf, size))) := by
  unfold walkDone waiters
  simp only [hw, hwalk, Nat.not_le.mpr hn, if_false, List.foldl_flatMap, List.foldl_map]
  rfl

theorem getElem_putAcc {q i : Nat} {b : Access} (c : Access) (hb : (t.ctxAt q).acc[i]? = some b) :
    ((t.putAcc n c).ctxAt q).acc[i]? = some (if q = n ∧ b.sn = c.sn then c else b) := by
  by_cases hq : q = n
  · rw [hq] at hb ⊢
    rw [State.putAcc, State.ctxAt_modCtx_self, Ctx.putAcc, List.getElem?_map, hb]
    simp
  · rw [State.putAcc, State.ctxAt_modCtx_ne _ _ _ _ hq, hb, if_neg fun h => hq h.1]

/-- As accesses are taken up, one whose number none of them has stays as it is, and the one that bears a number is decided. -/
theorem Walked.foldl_takeUp (he : IsLeaf w leaf size e) (hsize : 4096 ∣ size ∧ 0 < size) : ∀ (l : List (Nat × Access)) (t : State),
    Walked s unit w e t → (∀ p, p ∈ l → unitOf p.1 = unit) → Walked s unit w e (l.foldl takeUp t) ∧ ∀ (q i : Nat) (b : Access),
      (t.ctxAt q).acc[i]? = some b → ∃ b', ((l.foldl takeUp t).ctxAt q).acc[i]? = some b' ∧
        ((∀ a, (q, a) ∈ l → a.sn ≠ b.sn) → b' = b) ∧ ∀ a, (q, a) ∈ l → a.sn = b.sn → (∀ c, (q, c) ∈ l → c.sn = a.sn → c = a) →
          b' = { a with st := b'.st, cut := b'.cut } ∧ Decided s unit w leaf size q a b'.st
  | [], t, h, _ => ⟨h, fun _ _ b hb => ⟨b, hb, fun _ => rfl, fun _ ha => absurd ha List.not_mem_nil⟩⟩
  | (n, c) :: l, t, h, hunit => by
    obtain ⟨st, cut, hdec, hnext, hctx⟩ := h.translateAcc (n := n) (a := { c with st := .waiting }) he hsize (hunit _ List.mem_cons_self)
    obtain ⟨hall, hrest⟩ := Walked.foldl_takeUp he hsize l (takeUp t (n, c)) hnext fun p hp => hunit p (List.mem_cons_of_mem _ hp)
    refine ⟨hall, fun q i b hb => ?_⟩
    have hput : ((takeUp t (n, c)).ctxAt q).acc[i]? = _ := (congrArg (fun x : Ctx => x.acc[i]?) (hctx q)).trans (getElem_putAcc _ hb)
    obtain ⟨b', hb', hno, hyes⟩ := hrest q i _ hput
    refine ⟨b', hb', fun hnone => ?_, fun a ha hsn huniq => ?_⟩
    · have hother : ¬(q = n ∧ b.sn = c.sn) := fun ⟨hq, hbc⟩ => hnone c (hq ▸ List.mem_cons_self) hbc.symm
      rw [if_neg hother] at hno
      exact hno fun a ha => hnone a (List.mem_cons_of_mem _ ha)
    · by_cases hlater : (q, a) ∈ l
      · refine hyes a hlater ?_ fun d hd => huniq d (List.mem_cons_of_mem _ hd)
        split
        · next hhere => exact hsn.trans hhere.2
        · exact hsn
      · obtain ⟨rfl, rfl⟩ := Prod.mk.inj ((List.mem_cons.mp ha).resolve_right hlater)
        rw [if_pos ⟨rfl, hsn.symm⟩] at hno
        obtain rfl := hno fun d hd hdsn => hlater (huniq d (List.mem_cons_of_mem _ hd) hdsn ▸ hd)
        exact ⟨rfl, hdec⟩

/-- With a table of distinct contexts, these are the accesses of the unit's contexts of the job that wait on the page. -/
theorem mem_waiters (hnodup : (s.ctxs.map (·.1)).Nodup) {q : Nat} (hlisted : (q, s.ctxAt q) ∈ s.ctxs) : (q, a) ∈ waiters s unit w ↔
    unitOf q = unit ∧ (s.ctxAt q).job = w.job ∧ a ∈ (s.ctxAt q).acc ∧ a.st = .walking w.page := by
  unfold waiters
  simp only [List.mem_flatMap, List.mem_filter, List.mem_map, Bool.and_eq_true, decide_eq_true_eq, List.any_eq_true, Prod.mk.injEq]
  constructor
  · rintro ⟨⟨r, x⟩, ⟨hx, ⟨hunit, hjob⟩, -⟩, c, ⟨hc, hst⟩, rfl, rfl⟩
    dsimp only at *
    obtain rfl := (Prod.mk.inj (List.inj_on_of_nodup_map hnodup hx hlisted rfl)).2
    exact ⟨hunit, hjob, hc, hst⟩
  · rintro ⟨hunit, hjob, ha, hst⟩
    exact ⟨_, ⟨hlisted, ⟨hunit, hjob⟩, a, ha, hst⟩, a, ⟨ha, hst⟩, rfl, rfl⟩

/-- A context with accesses is in the table. -/
theorem listed_of_acc {q i : Nat} (h : (s.ctxAt q).acc[i]? = some a) : (q, s.ctxAt q) ∈ s.ctxs := by
  obtain hmem | hnone := mapGet_mem ({} : Ctx) s.ctxs q
  · exact hmem
  · rw [State.ctxAt, hnone] at h
    contradiction

end

/-! The event. -/

section
variable {s : State} {unit n : Nat} {w : Walk}

theorem pageWalk_faults {e : Cause} (hw : (s.unitAt unit).walks[n]? = some w) (hn : n < 32)
    (hwalk : s.walk (wordOfNat w.root) (w.page * 4096) = .error e) : Gives (exec (.pageWalkComplete unit n) s) fun u =>
      u.mem = s.mem ∧ u.cmds = s.cmds ∧ u.unitAt unit = (s.unitAt unit).without w ∧ ∀ q, u.ctxAt q =
        if unitOf q = unit ∧ (s.ctxAt q).job = w.job then { s.ctxAt q with acc := (s.ctxAt q).acc.map (walkServed w.page (.error e)) }
        else s.ctxAt q := by
  refine ⟨s.endWalk unit w.job (w.page * 4096) (.error e), congrArg Host.Outcome.next (walkDone_error hw hn hwalk), ?_⟩
  rw [endWalk_error]
  exact ⟨rfl, rfl, State.unitAt_setUnit_self _ _ _, fun q => ctxAt_serveWalk _ _ _ _ _ _⟩

theorem walkServed_error (page : Nat) (e : Cause) (a : Access) : (a.st ≠ .walking page → walkServed page (.error e) a = a) ∧
    (a.st = .walking page →
      (a.ea.toNat % 2 ^ 57 / 4096 = page → walkServed page (.error e) a = { a with st := .faulted e a.ea false }) ∧
      (a.ea.toNat % 2 ^ 57 / 4096 ≠ page → walkServed page (.error e) a = { a with st := .faulted e (wordOfNat (page * 4096)) true })) := by
  unfold walkServed
  refine ⟨fun h => if_neg h, fun h => ⟨fun hp => ?_, fun hp => ?_⟩⟩
  · simp only [h, hp, if_true, bne_self_eq_false, Bool.false_eq_true, if_false]
  · simp only [h, (bne_iff_ne (a := a.ea.toNat % 2 ^ 57 / 4096)).mpr hp, if_true]

theorem pageWalk_holds {leaf : Word} {size : Nat} (hw : (s.unitAt unit).walks[n]? = some w) (hn : n < 32)
    (hwalk : s.walk (wordOfNat w.root) (w.page * 4096) = .ok (leaf, size)) (hroom : (s.unitAt unit).held.length < 4096)
    (hctxs : (s.ctxs.map (·.1)).Nodup) (hsns : ∀ q, ((s.ctxAt q).acc.map (·.sn)).Nodup) :
    Gives (exec (.pageWalkComplete unit n) s) fun u => (∃ e, IsLeaf w leaf size e ∧ Walked s unit w e u) ∧
      ∀ (q i : Nat) (a : Access), (s.ctxAt q).acc[i]? = some a → ∃ b, (u.ctxAt q).acc[i]? = some b ∧
        (a.st ≠ .walking w.page ∨ unitOf q ≠ unit ∨ (s.ctxAt q).job ≠ w.job → b = a) ∧
        (a.st = .walking w.page → unitOf q = unit → (s.ctxAt q).job = w.job →
          b = { a with st := b.st, cut := b.cut } ∧ Decided s unit w leaf size q a b.st) := by
  obtain ⟨e, he, hended⟩ := walked_endWalk (s := s) (unit := unit) (w := w) (leaf := leaf) (size := size) hroom
  obtain ⟨hall, htaken⟩ := Walked.foldl_takeUp he (page_dvd_walk hwalk) (waiters s unit w) _ hended fun p hp => by
    obtain ⟨q, hq, hpq⟩ := List.mem_flatMap.mp hp
    obtain ⟨a, -, rfl⟩ := List.mem_map.mp hpq
    simpa using (Bool.and_eq_true_iff.mp (Bool.and_eq_true_iff.mp (List.mem_filter.mp hq).2).1).1
  refine ⟨_, congrArg Host.Outcome.next (walkDone_ok hw hn hwalk), ⟨e, he, hall⟩, fun q i a ha => ?_⟩
  have hmem := fun c => mem_waiters (a := c) (unit := unit) (w := w) hctxs (listed_of_acc ha)
  have hsame : ∀ c, c ∈ (s.ctxAt q).acc → c.sn = a.sn → c = a := fun c hc hsn =>
    List.inj_on_of_nodup_map (hsns q) hc (List.mem_of_getElem? ha) hsn
  by_cases hwait : unitOf q = unit ∧ (s.ctxAt q).job = w.job ∧ a.st = .walking w.page
  · obtain ⟨hunit, hjob, hst⟩ := hwait
    have hserved : ((s.endWalk unit w.job (w.page * 4096) (.ok (leaf, size))).ctxAt q).acc[i]? = some { a with st := .waiting } := by
      rw [endWalk_ok, ctxAt_serveWalk, State.ctxAt_setUnit, if_pos ⟨hunit, hjob⟩, List.getElem?_map, ha]
      exact congrArg some (if_pos hst)
    obtain ⟨b, hb, -, hyes⟩ := htaken q i _ hserved
    have hfinal := hyes a ((hmem a).mpr ⟨hunit, hjob, List.mem_of_getElem? ha, hst⟩) rfl fun c hc hsn => hsame c ((hmem c).mp hc).2.2.1 hsn
    refine ⟨b, hb, fun hout => ?_, fun _ _ _ => hfinal⟩
    exact absurd hout (by simp [hunit, hjob, hst])
  · have hserved : ((s.endWalk unit w.job (w.page * 4096) (.ok (leaf, size))).ctxAt q).acc[i]? = some a := by
      rw [endWalk_ok, ctxAt_serveWalk, State.ctxAt_setUnit]
      split
      · next hhere =>
        rw [List.getElem?_map, ha]
        exact congrArg some (if_neg fun hst => hwait ⟨hhere.1, hhere.2, hst⟩)
      · exact ha
    obtain ⟨b, hb, hno, -⟩ := htaken q i _ hserved
    obtain rfl := hno fun c hc hsn => by
      obtain ⟨hunit, hjob, hacc, hst⟩ := (hmem c).mp hc
      exact hwait ⟨hunit, hjob, hsame c hacc hsn ▸ hst⟩
    exact ⟨b, hb, fun _ => rfl, fun hst hunit hjob => absurd ⟨hunit, hjob, hst⟩ hwait⟩

end

end Sys2Proof.Machine
end

section
/-! PROOFS. spec/07_memory_instr.md R210, spec/13_memory.md R315 to R317: words of a slice where nothing is under way. -/

namespace Sys2Proof.Machine

open Sys2Proof.Safety

theorem ok_bind {ε α β : Type} (a : α) (f : α → Except ε β) : (Except.ok a >>= f) = f a := rfl

theorem pure_eq_ok {ε α : Type} (a : α) : (pure a : Except ε α) = .ok a := rfl

/-! Words of memory at rest. -/

/-- t is s but for memory, which is m, and the tiles kept for reuse. -/
structure Rewrites (s t : State) (m : Mem) : Prop where
  only : t = { s with mem := m, cores := t.cores }
  tables : ∀ k, (t.coreAt k).regions = (s.coreAt k).regions ∧ (t.coreAt k).verify = (s.coreAt k).verify

/-- Slice k with no region, in no verify layout, in a machine where no write waits. -/
structure QuietSlice (s : State) (k : Nat) : Prop where
  plain : Plain s
  sound : MemSound s
  regions : (s.coreAt k).regions = []
  verify : (s.coreAt k).verify = false

section
variable {s t u : State} {m m' : Mem} {k : Nat}

theorem Rewrites.refl (s : State) : Rewrites s s s.mem := ⟨rfl, fun _ => ⟨rfl, rfl⟩⟩

theorem Rewrites.trans (h : Rewrites s t m) (g : Rewrites t u m') : Rewrites s u m' :=
  ⟨by rw [g.only, h.only], fun k => ⟨(g.tables k).1.trans (h.tables k).1, (g.tables k).2.trans (h.tables k).2⟩⟩

theorem Rewrites.of_setMem (h : Rewrites { s with mem := m } t m') : Rewrites s t m' := ⟨h.only, h.tables⟩

theorem Rewrites.mem (h : Rewrites s t m) : t.mem = m := by rw [h.only]
theorem Rewrites.ctxs (h : Rewrites s t m) : t.ctxs = s.ctxs := by rw [h.only]
theorem Rewrites.cmds (h : Rewrites s t m) : t.cmds = s.cmds := by rw [h.only]
theorem Rewrites.plain (h : Rewrites s t m) (hp : Plain s) : Plain t := by rw [h.only]; exact hp

theorem Rewrites.quiet (h : Rewrites s t m) (hq : QuietSlice s k) (hm : m.wf = true) : QuietSlice t k :=
  ⟨h.plain hq.plain, by rw [MemSound, h.mem]; exact hm, (h.tables k).1.trans hq.regions, (h.tables k).2.trans hq.verify⟩

end

section
variable {s : State} {n key : Nat}

theorem wordKeys_word (h : key % 8 = 0) : wordKeys key 8 = [key] := by
  have hlast : (key + 8 - 1) / 8 - key / 8 + 1 = 1 := by omega
  have hkey : key / 8 * 8 = key := by omega
  unfold wordKeys
  rw [if_neg (by decide), hlast]
  simp [upTo, hkey]

theorem engWord_plain (hp : Plain s) : s.engWord n key = (s, memWord s.mem key) := by
  obtain ⟨hpw, hrw, huo, -, hearly⟩ := hp
  have hread : s.readableBy n key (s.engSees n) = true := by simp [State.readableBy, hpw, hrw]
  have hview : (s.earlyAt n key).getD (s.viewBy n key (s.engSees n)) = memWord s.mem key := by
    simp [State.earlyAt, State.viewBy, hpw, hrw, huo, hearly]
  unfold State.engWord
  dsimp only
  rw [if_pos hread, hview]

theorem engBytes_word (hp : Plain s) (hk : key % 8 = 0) : s.engBytes n key 8 = (s, { val := (memWord s.mem key).toNat }) := by
  have hpoison : s.isPoisonBy key (s.engSees n) = false := by
    obtain ⟨-, -, -, hpoison, -⟩ := hp
    simp [State.isPoisonBy, hpoison, natIn]
  have hkey : key - key / 8 * 8 = 0 := by omega
  have hval : bitsOf (memWord s.mem key).toNat 0 (8 * 8) = (memWord s.mem key).toNat := by
    rw [bitsOf, Nat.shiftRight_zero]
    exact Nat.mod_eq_of_lt (memWord s.mem key).isLt
  unfold State.engBytes
  simp only [wordKeys_word hk, List.foldl_cons, List.foldl_nil, engWord_plain hp, hpoison, hkey, hk, Nat.mul_zero, Nat.pow_zero, Nat.mul_one,
    Nat.zero_add, Bool.or_self, hval]

theorem memMerge_word (m : Mem) (key v : Nat) : memMerge m key v (enList (enOf 0 8)) = memWriteN m key 8 v := by
  rw [show enList (enOf 0 8) = List.replicate 8 true from by decide]
  rfl

/-- A word written to its home, where no write waits. -/
theorem engWrite_word {p : Piece} (hp : Plain s) (hk : key % 8 = 0) (hord : p.ord ≠ .uo) (hrepl : p.repl = none) (v : Word) :
    s.engWrite n p key 8 v.toNat = { s with mem := memWriteN s.mem key 8 v.toNat } := by
  have hval : wordOfNat (bitsOf v.toNat (8 * (key - key)) (8 * (key + 8 - key)) <<< (8 * (key - key))) = v := by
    rw [Nat.sub_self, Nat.add_sub_cancel_left, bitsOf, Nat.mul_zero, Nat.shiftRight_zero, Nat.shiftLeft_zero, Nat.mod_eq_of_lt v.isLt, wordOfNat,
      BitVec.ofNat_toNat, BitVec.setWidth_eq]
  have hhome : s.writeEng n p key (enOf 0 8) v = ((s.homeWrite (engOf n) key (enOf 0 8) v).showUo key fun _ => false) := by
    obtain ⟨hpw, hrw, -, -, -⟩ := hp
    unfold State.writeEng State.writeHome
    simp only [hord, decide_false, Bool.false_and, Bool.false_eq_true, if_false, beginSo_of_nothing n p hrw, hrepl,
      flushKey_of_nothing n key hpw]
  have hstate : (s.homeWrite (engOf n) key (enOf 0 8) v).showUo key (fun _ => false) = { s with mem := memWriteN s.mem key 8 v.toNat } := by
    obtain ⟨-, -, huo, hpoison, hearly⟩ := hp
    have hnote : s.noteFor (engOf n) key (fun _ => true) = s.early := by rw [State.noteFor, hearly]; rfl
    have hdel : (if enOf 0 8 = 0xFF#8 then natDel s.poison key else s.poison) = s.poison := by
      rw [hpoison]
      exact ite_self _
    unfold State.showUo State.homeWrite
    rw [hnote, hdel, memMerge_word, huo]
    rw [show s = { s with uo := [] } from by rw [← huo]]
    rfl
  unfold State.engWrite
  rw [wordKeys_word hk, List.foldl_cons, List.foldl_nil]
  dsimp only
  rw [Nat.max_self, Nat.min_self, hval, Nat.sub_self, Nat.add_sub_cancel_left, hhome, hstate]

end

/-! Words of scratch. -/

section
variable {s : State} {c : Cmd} {sa who : Nat}

theorem scrCore_scrKey (sa : Nat) : scrCore (scrKey sa) = sa / 2 ^ 22 := by
  rw [scrCore, scrKey, Nat.add_sub_cancel_left]

theorem isScr_scrKey (sa : Nat) : isScr (scrKey sa) = true := decide_eq_true (Nat.le_add_right _ _)

theorem raceCheck_untasked (s : State) (hold : Bool) (key len : Nat) (isWrite : Bool) : s.raceCheck none hold key len isWrite = some s := by
  unfold State.raceCheck
  split <;> rfl

/-- A touch of a slice without regions takes away at most tiles kept for reuse. -/
theorem touch_rewrites (h : (s.coreAt (sa / 2 ^ 22)).regions = []) (len : Nat) (isWrite : Bool) (agent : Nat) :
    Rewrites s (s.touch (scrKey sa) len isWrite agent) s.mem ∧ (isWrite = false → s.touch (scrKey sa) len isWrite agent = s) := by
  unfold State.touch
  simp only [isScr_scrKey, if_true, scrCore_scrKey, h, List.any_nil, Bool.and_false, Bool.false_eq_true, if_false, List.filterMap_nil,
    List.foldl_nil]
  split
  · next hkept =>
    refine ⟨⟨rfl, fun k => ?_⟩, fun hread => ?_⟩
    · by_cases hk : k = sa / 2 ^ 22
      · rw [hk, State.coreAt_modCore_self]
        exact ⟨rfl, rfl⟩
      · rw [State.modCore, State.coreAt_setCore_ne _ _ _ _ hk]
        exact ⟨rfl, rfl⟩
    · simp [hread] at hkept
  · exact ⟨.refl s, fun _ => rfl⟩

theorem scrRead_word (h : QuietSlice s (sa / 2 ^ 22)) (ht : c.task = none) (ha : sa % 8 = 0) :
    s.scrRead c who sa 8 = (s, some { val := (memWord s.mem (scrKey sa)).toNat }) := by
  have hkey : scrKey sa % 8 = 0 := by
    rw [scrKey, scrBase]
    omega
  unfold State.scrRead State.inShadows
  rw [if_neg (by decide), h.verify, Bool.and_false, if_neg Bool.false_ne_true, ht, raceCheck_untasked]
  dsimp only
  rw [(touch_rewrites h.regions 8 false who).2 rfl, engBytes_word h.plain hkey]

theorem scrWrite_word (h : QuietSlice s (sa / 2 ^ 22)) (ht : c.task = none) (ha : sa % 8 = 0) (v : Word) :
    ∃ t, s.scrWrite c who sa 8 v.toNat = some t ∧ Rewrites s t (memWriteN s.mem (scrKey sa) 8 v.toNat) := by
  have hkey : scrKey sa % 8 = 0 := by
    rw [scrKey, scrBase]
    omega
  have htouch := (touch_rewrites h.regions 8 true who).1
  refine ⟨(s.touch (scrKey sa) 8 true who).engWrite c.agent { key := scrKey sa } (scrKey sa) 8 v.toNat, ?_, ?_⟩
  · unfold State.scrWrite State.inShadows
    rw [if_neg (by decide), h.verify, Bool.and_false, if_neg Bool.false_ne_true, ht, raceCheck_untasked]
    rfl
  · rw [engWrite_word (htouch.plain h.plain) hkey (show Ord.rc ≠ .uo by decide) rfl, htouch.mem]
    exact ⟨by rw [htouch.only], htouch.tables⟩

/-! Words of a list (R210). -/

theorem listGet_word (h : QuietSlice s (sa / 2 ^ 22)) (ht : c.task = none) (ha : sa % 8 = 0) :
    listGet c sa s = .ok (s, memWord s.mem (scrKey sa)) := by
  unfold listGet
  rw [scrRead_word h ht ha]
  simp [wordOfNat]

theorem listPut_word (h : QuietSlice s (sa / 2 ^ 22)) (ht : c.task = none) (ha : sa % 8 = 0) (v : Word) :
    ∃ t, listPut c sa v s = .ok t ∧ Rewrites s t (memWriteN s.mem (scrKey sa) 8 v.toNat) := by
  obtain ⟨t, ht, hw⟩ := scrWrite_word (who := listWho c) h ht ha v
  refine ⟨t, ?_, hw⟩
  unfold listPut
  rw [ht]

/-- The header at scratch address h as memory holds it. -/
def hdrIn (m : Mem) (h : Nat) : ListHdr :=
  { h := h, cap := (memWord m (scrKey h)).toNat, head := memWord m (scrKey h + 8), tail := memWord m (scrKey h + 16)
    spill := memWord m (scrKey h + 24), spillcap := (memWord m (scrKey h + 32)).toNat, owner := memWord m (scrKey h + 40)
    setn := (memWord m (scrKey h + 48)).toNat, spilled := (memWord m (scrKey h + 56)).toNat }

theorem listHdr_word {h : Nat} (hq : QuietSlice s (h / 2 ^ 22)) (ht : c.task = none) (ha : h % 8 = 0) (hfit : h % 2 ^ 22 + 64 ≤ 2 ^ 22) :
    listHdr c h s = .ok (s, hdrIn s.mem h) := by
  have hget : ∀ k, k < 64 → k % 8 = 0 → listGet c (h + k) s = .ok (s, memWord s.mem (scrKey h + k)) := fun k hk h8 => by
    have hslice : (h + k) / 2 ^ 22 = h / 2 ^ 22 := by omega
    rw [listGet_word (by rw [hslice]; exact hq) ht (by omega), scrKey, scrKey, Nat.add_assoc]
  have hcap := hget 0 (by decide) rfl
  unfold listHdr
  rw [show listGet c h s = _ from hcap, ok_bind]
  dsimp only
  rw [hget 8 (by decide) rfl, ok_bind]
  dsimp only
  rw [hget 16 (by decide) rfl, ok_bind]
  dsimp only
  rw [hget 24 (by decide) rfl, ok_bind]
  dsimp only
  rw [hget 32 (by decide) rfl, ok_bind]
  dsimp only
  rw [hget 40 (by decide) rfl, ok_bind]
  dsimp only
  rw [hget 48 (by decide) rfl, ok_bind]
  dsimp only
  rw [hget 56 (by decide) rfl, ok_bind]
  rfl

/-! The append of WLPSH (R211, R213). -/

/-- A list that passes the check of its header lies in its slice, and so do the places of its ring. -/
theorem ListHdr.fits {l : ListHdr} (h : l.ok = true) : 4 ≤ l.cap ∧ l.h % 2 ^ 22 + 64 + 16 * l.cap ≤ 2 ^ 22 := by
  simp only [ListHdr.ok, Bool.and_eq_true, decide_eq_true_eq] at h
  obtain ⟨⟨⟨⟨⟨⟨⟨hlow, -⟩, -⟩, -⟩, -⟩, -⟩, -⟩, hfit⟩ := h
  exact ⟨hlow, hfit⟩

theorem ListHdr.ring_fits {l : ListHdr} (h : l.ok = true) (p : Nat) : l.ring p / 2 ^ 22 = l.h / 2 ^ 22 ∧ l.ring p % 2 ^ 22 + 8 ≤ 2 ^ 22 ∧
    l.h + 64 ≤ l.ring p ∧ (l.h % 8 = 0 → l.ring p % 8 = 0) := by
  obtain ⟨hcap, hfit⟩ := l.fits h
  have hp : p % l.cap < l.cap := Nat.mod_lt _ (by omega)
  unfold ListHdr.ring
  omega

/-- Memory once e stands at the tail of list l. -/
def appended (m : Mem) (l : ListHdr) (e : Word) : Mem :=
  memWriteN (memWriteN m (scrKey (l.ring l.tail.toNat)) 8 e.toNat) (scrKey (l.h + 16)) 8 (l.tail + 1).toNat

theorem listAppend_push {h : Nat} (hq : QuietSlice s (h / 2 ^ 22)) (ht : c.task = none) (ha : h % 8 = 0) (e : Word) {l : ListHdr}
    (hl : hdrIn s.mem h = l) (hok : l.ok = true) :
    (l.count = l.cap + l.spillcap → listAppend c h false e s = .ok (s, .result 1)) ∧
    (l.count ≠ l.cap + l.spillcap → l.count - l.spilled = l.cap → listAppend c h false e s = .ok (s, if l.canSpill then .spill else .result 1)) ∧
    (l.count ≠ l.cap + l.spillcap → l.count - l.spilled ≠ l.cap →
      ∃ t, listAppend c h false e s = .ok (t, .result 0) ∧ Rewrites s t (appended s.mem l e)) := by
  have hh : l.h = h := by rw [← hl]; rfl
  obtain ⟨hcap, hfit⟩ := l.fits hok
  rw [hh] at hfit
  have hhdr : listHdr c h s = .ok (s, l) := by rw [listHdr_word hq ht ha (by omega), hl]
  have hrace : ownerRace s c.task l = false := by rw [ht]; rfl
  have hopen : listAppend c h false e s = if l.count = l.cap + l.spillcap then pure (s, .result 1)
      else if l.count - l.spilled = l.cap then pure (s, if l.canSpill then .spill else .result 1)
      else listPut c (l.ring l.tail.toNat) e s >>= fun s => listPut c (h + 16) (l.tail + 1) s >>= fun s => pure (s, .result 0) := by
    unfold listAppend
    rw [hhdr, ok_bind]
    dsimp only
    rw [hok, hrace]
    rfl
  rw [hopen]
  refine ⟨fun hfull => if_pos hfull, fun hroom hring => ?_, fun hroom hring => ?_⟩
  · rw [if_neg hroom, if_pos hring]
    rfl
  · obtain ⟨hslice, -, -, halign⟩ := l.ring_fits hok l.tail.toNat
    rw [hh] at hslice halign
    obtain ⟨t, hput, ht1⟩ := listPut_word (c := c) (by rw [hslice]; exact hq) ht (halign ha) e
    have hq1 := ht1.quiet hq (wf_memWriteN _ _ _ hq.sound)
    obtain ⟨u, hput', hu⟩ := listPut_word (c := c) (sa := h + 16) (by rw [show (h + 16) / 2 ^ 22 = h / 2 ^ 22 from by omega]; exact hq1) ht (by omega)
      (l.tail + 1)
    refine ⟨u, ?_, ?_⟩
    · rw [if_neg hroom, if_neg hring, hput, ok_bind, hput', ok_bind]
      rfl
    · rw [ht1.mem] at hu
      rw [appended, hh]
      exact ht1.trans hu

end

theorem memWord_memWriteN_self {m : Mem} (a : Nat) (v : Word) (h : m.wf = true) : memWord (memWriteN m a 8 v.toNat) a = v := by
  rw [memWord, memReadN_memWriteN 8 a _ h, Nat.mod_eq_of_lt (by have := v.isLt; omega), BitVec.ofNat_toNat, BitVec.setWidth_eq]

theorem ListHdr.scrKey_ring (l : ListHdr) (p : Nat) : scrKey (l.ring p) = scrKey l.h + 64 + 8 * (p % l.cap) := by
  unfold scrKey ListHdr.ring
  omega

/-- After an append the entry stands at the tail, TAIL is one more, and every other byte is as it was. -/
theorem appended_words {m : Mem} (l : ListHdr) (e : Word) (hw : m.wf = true) :
    memWord (appended m l e) (scrKey l.h + 64 + 8 * (l.tail.toNat % l.cap)) = e ∧ memWord (appended m l e) (scrKey l.h + 16) = l.tail + 1 ∧
    ∀ z, z < scrKey l.h + 16 ∨ scrKey l.h + 24 ≤ z →
      z < scrKey l.h + 64 + 8 * (l.tail.toNat % l.cap) ∨ scrKey l.h + 72 + 8 * (l.tail.toNat % l.cap) ≤ z → memGet (appended m l e) z = memGet m z := by
  have hw1 := wf_memWriteN 8 (scrKey (l.ring l.tail.toNat)) e.toNat hw
  have htail : scrKey (l.h + 16) = scrKey l.h + 16 := (Nat.add_assoc _ _ _).symm
  unfold appended
  rw [htail, l.scrKey_ring] at *
  refine ⟨?_, memWord_memWriteN_self _ _ hw1, fun z hz hring => ?_⟩
  · rw [memWord_memWriteN_outside hw1 (by omega), memWord_memWriteN_self _ _ hw]
  · rw [memGet_memWriteN_outside _ _ _ _ hw1 (by omega), memGet_memWriteN_outside _ _ _ _ hw (by omega)]

theorem ListHdr.ok_of {l : ListHdr} (hcap : ∃ k, 2 ≤ k ∧ k ≤ 16 ∧ l.cap = 2 ^ k) (hfit : l.h % 2 ^ 22 + 64 + 16 * l.cap ≤ 2 ^ 22)
    (hset : l.setn ≤ l.cap) (hcount : l.count ≤ l.cap + l.spillcap) (hback : l.spilled ≤ l.spillcap) (hspilled : l.spilled ≤ l.count) :
    l.ok = true := by
  obtain ⟨k, hlow, hhigh, hk⟩ := hcap
  have h4 : 4 ≤ l.cap := hk ▸ Nat.pow_le_pow_right (n := 2) (by decide) hlow
  have h65536 : l.cap ≤ 65536 := hk ▸ Nat.pow_le_pow_right (n := 2) (by decide) hhigh
  have hlog : l.cap = 2 ^ Nat.log2 l.cap := by rw [hk, Nat.log2_two_pow]
  simp only [ListHdr.ok, h4, h65536, ← hlog, hset, hcount, hback, hspilled, hfit, decide_true, Bool.and_self]

/-! A list slot of a context (R213). -/

section
variable {s : State} {n h : Nat} {a : Access} {d x y : Reg} {p q : Bool} {l : ListHdr}

theorem performList_push (hq : QuietSlice s (h / 2 ^ 22)) (htask : (s.ctxAt n).task = none) (hins : a.ins = .wlpsh d x y p q)
    (htgt : coreTarget a.ea = .scratch h) (ha : h % 8 = 0) (hl : hdrIn s.mem h = l) (hok : l.ok = true) :
    (l.count = l.cap + l.spillcap ∨ (l.count - l.spilled = l.cap ∧ l.canSpill = false) → performList s n a = s.take n a 1) ∧
    (l.count ≠ l.cap + l.spillcap → l.count - l.spilled = l.cap → l.canSpill = true → performList s n a =
      { s with cmds := s.cmds ++ [{ listCmd s n a with kind := .spill a.sn (h / 2 ^ 22) }], nextId := s.nextId + 1 }) ∧
    (l.count ≠ l.cap + l.spillcap → l.count - l.spilled ≠ l.cap →
      ∃ t, performList s n a = t.take n a 0 ∧ Rewrites s t (appended s.mem l a.vb)) := by
  have haddr : listAddr a.ea = h := by rw [listAddr, htgt]
  have hins' : isIns a.ins = false := by rw [hins]; rfl
  obtain ⟨hfull, hring, hroom⟩ := listAppend_push (c := listCmd s n a) hq htask ha a.vb hl hok
  have hperf : ∀ o, listAppend (listCmd s n a) h false a.vb s = o → performList s n a = match (generalizing := false) o with
      | .error .race => s.putAcc n { a with st := .faulted .race (wordOfNat h) false }
      | .error .poison => s.putAcc n { a with st := .faulted .poison a.ea false }
      | .ok (s, .result v) => s.take n a (wordOfNat v)
      | .ok (t, .spill) => { t with cmds := t.cmds ++ [{ listCmd s n a with kind := .spill a.sn (h / 2 ^ 22) }], nextId := t.nextId + 1 } := by
    rintro o rfl
    unfold performList
    dsimp only
    rw [haddr, hins']
    rfl
  refine ⟨fun hno => ?_, fun hne hr hspill => ?_, fun hne hr => ?_⟩
  · by_cases hcount : l.count = l.cap + l.spillcap
    · exact hperf _ (hfull hcount)
    · obtain ⟨hr, hcan⟩ := hno.resolve_left hcount
      have hres := hring hcount hr
      rw [hcan] at hres
      exact hperf _ hres
  · have hres := hring hne hr
    rw [hspill] at hres
    exact hperf _ hres
  · obtain ⟨t, hres, ht⟩ := hroom hne hr
    exact ⟨t, hperf _ hres, ht⟩

theorem workListStep_one {core time : Nat} (hwait : waitingOps s core = [{ time := time, agent := n, sn := a.sn, pop := none }])
    (hf : (s.ctxAt n).findAcc a.sn = some a) : workListStep s core = performList s n a := by
  unfold workListStep
  simp only [hwait, List.foldl_cons, List.foldl_nil, hf]

/-- The append that is performed with room: its entry is in the list, and its result on its way. -/
theorem appended_take {t : State} (hq : QuietSlice s (h / 2 ^ 22)) (hf : (s.ctxAt n).findAcc a.sn = some a) (hins : a.ins = .wlpsh d x y p q)
    (ht : Rewrites s t (appended s.mem l a.vb)) : (t.take n a 0).mem = appended s.mem l a.vb ∧ (t.take n a 0).cmds = s.cmds ∧
      ((t.take n a 0).ctxAt n).findAcc a.sn = some { a with st := .got 0 } ∧ ∀ k, k ≠ n → (t.take n a 0).ctxAt k = s.ctxAt k := by
  have hctx : ∀ k, t.ctxAt k = s.ctxAt k := fun k => by rw [State.ctxAt, ht.ctxs]; rfl
  obtain ⟨hcmds, hothers, -⟩ := onlyPath_take t n a 0
  obtain ⟨hpw, hrw, -, -, -⟩ := ht.plain hq.plain
  obtain ⟨hmem, -, -⟩ := atRest_take t n a 0 hpw hrw
  refine ⟨hmem.trans ht.mem, hcmds.trans ht.cmds, findAcc_take 0 ?_ ?_, fun k hk => (hothers k hk).trans (hctx k)⟩
  · rw [hctx]
    exact hf
  · rw [hins]
    rfl

/-- The push that waits at a slice (R211, R213): with room, with the list full, with the ring alone full. -/
theorem workListOperation_push {time : Nat} (hq : QuietSlice s (h / 2 ^ 22))
    (hwait : waitingOps s (h / 2 ^ 22) = [{ time := time, agent := n, sn := a.sn, pop := none }]) (hf : (s.ctxAt n).findAcc a.sn = some a)
    (htask : (s.ctxAt n).task = none) (hins : a.ins = .wlpsh d x y p q) (htgt : coreTarget a.ea = .scratch h) (ha : h % 8 = 0)
    (hl : hdrIn s.mem h = l) (hok : l.ok = true) :
    (l.count ≠ l.cap + l.spillcap → l.count - l.spilled ≠ l.cap → Gives (exec (.workListOperation (h / 2 ^ 22)) s) fun u : State =>
      u.mem = appended s.mem l a.vb ∧ u.cmds = s.cmds ∧ (u.ctxAt n).findAcc a.sn = some { a with st := .got 0 } ∧
        ∀ k, k ≠ n → u.ctxAt k = s.ctxAt k) ∧
    (l.count = l.cap + l.spillcap ∨ (l.count - l.spilled = l.cap ∧ l.canSpill = false) → Gives (exec (.workListOperation (h / 2 ^ 22)) s) fun u : State =>
      u.mem = s.mem ∧ u.cmds = s.cmds ∧ (u.ctxAt n).findAcc a.sn = some { a with st := .got 1 } ∧ ∀ k, k ≠ n → u.ctxAt k = s.ctxAt k) ∧
    (l.count ≠ l.cap + l.spillcap → l.count - l.spilled = l.cap → l.canSpill = true → Gives (exec (.workListOperation (h / 2 ^ 22)) s) fun u : State =>
      Beside s u ∧ ∃ c : Cmd, u.cmds = s.cmds ++ [c] ∧ c.agent = n ∧ c.kind = .spill a.sn (h / 2 ^ 22) ∧ c.st = .running ∧ c.par = [a.ea, a.vb]) := by
  have hstep : exec (.workListOperation (h / 2 ^ 22)) s = .next (performList s n a) := congrArg Host.Outcome.next (workListStep_one hwait hf)
  obtain ⟨hfull, hspill, hroom⟩ := performList_push hq htask hins htgt ha hl hok
  rw [hstep]
  refine ⟨fun hne hr => ?_, fun hno => ?_, fun hne hr hcan => ⟨_, congrArg Host.Outcome.next (hspill hne hr hcan), ⟨rfl, rfl⟩, _, rfl, rfl, rfl,
    rfl, rfl⟩⟩
  · obtain ⟨t, ht, hw⟩ := hroom hne hr
    exact ⟨_, congrArg Host.Outcome.next ht, appended_take hq hf hins hw⟩
  · obtain ⟨hcmds, hothers, -⟩ := onlyPath_take s n a 1
    obtain ⟨hpw, hrw, -, -, -⟩ := hq.plain
    obtain ⟨hmem, -, -⟩ := atRest_take s n a 1 hpw hrw
    exact ⟨_, congrArg Host.Outcome.next (hfull hno), hmem, hcmds, findAcc_take 1 hf (by rw [hins]; rfl), hothers⟩

end

end Sys2Proof.Machine
end

section
/-! PROOFS. spec/07_memory_instr.md R214, R449: the spill of a work list. -/

namespace Sys2Proof.Machine

open Sys2Proof.Safety

/-! Where a spill reads and writes. -/

theorem coreTarget_of_lt {a : Word} (h : a.toNat < 2 ^ 57) : a.bits 57 7 = 0 ∧ coreTarget a = .virt a.toNat := by
  have hhigh : a.bits 57 7 = 0 := by
    rw [BitVec.bits, Nat.shiftRight_eq_div_pow, Nat.div_eq_of_lt h, Nat.zero_mod]
  exact ⟨hhigh, if_pos hhigh⟩

/-- The address of a byte of scratch, as a slot names it. -/
theorem coreTarget_scratch {sa : Nat} (h : sa < 2 ^ 31) : coreTarget (wordOfNat (sa + 0x7F * 2 ^ 57)) = .scratch sa := by
  have hval : (wordOfNat (sa + 0x7F * 2 ^ 57)).toNat = sa + 0x7F * 2 ^ 57 := by
    rw [wordOfNat, BitVec.toNat_ofNat]
    omega
  have hhigh : (wordOfNat (sa + 0x7F * 2 ^ 57)).bits 57 7 = 0x7F := by
    rw [BitVec.bits, hval, Nat.shiftRight_eq_div_pow]
    omega
  have hzero : (wordOfNat (sa + 0x7F * 2 ^ 57)).bits 31 26 = 0 := by
    rw [BitVec.bits, hval, Nat.shiftRight_eq_div_pow]
    omega
  have hlow : (wordOfNat (sa + 0x7F * 2 ^ 57)).bits 0 31 = sa := by
    rw [BitVec.bits, hval, Nat.shiftRight_zero]
    omega
  unfold coreTarget
  rw [hhigh, hzero, hlow]
  rfl

/-! A piece that an engine reads or writes. -/

section
variable {s : State} {c : Cmd} {a : Word} {who unit len v sa : Nat} {host : Bool}

/-- A piece of scratch read. -/
theorem engFetch_scratch {r : EngRead} (ht : coreTarget a = .scratch sa) (hin : scrInside sa len = true) (hread : s.scrRead c who sa len = (s, some r)) :
    s.engFetch c who unit a len host = (s, .ok { val := r.val, bad := r.bad }) := by
  unfold State.engFetch
  rw [ht]
  dsimp only
  rw [hin, if_neg (by decide), hread]

/-- A piece of memory written. -/
theorem engPut_virt {leaf : Word} {p : Piece} {va : Nat} (hbits : a.bits 57 7 = 0) (ht : coreTarget a = .virt va)
    (htrans : s.engTrans c unit a len { kernel := c.kernel, isWrite := true, host := host } = (s, .ok (leaf, p))) (hloop : isLoop p.key = false) :
    inVirt s a 1 (s.engPut c who unit a len v false host) = (s.engWrite c.agent p p.key len v, .ok ()) := by
  unfold inVirt State.engPut
  rw [hbits, if_neg (by decide), ht]
  dsimp only
  rw [htrans]
  dsimp only
  rw [hloop, if_neg Bool.false_ne_true]
  rfl

/-- An address that the leaf used last covers. -/
theorem engTrans_head {e : Tlb} {q : Ask} {p : Piece} (hbits : a.bits 57 7 = 0) (hheld : (s.unitAt unit).held.head? = some e)
    (hcovers : e.covers c.job a.toNat = true) (hleaf : checkLeaf s e.leaf e.size a.toNat len q = .ok p) :
    s.engTrans c unit a len q = (s, .ok (e.leaf, p)) := by
  have hfind : (s.unitAt unit).find c.job a.toNat = some e := by
    obtain ⟨rest, hrest⟩ := List.head?_eq_some_iff.mp hheld
    rw [TransUnit.find, hrest]
    exact List.find?_cons_of_pos hcovers
  have hhit : s.hit unit c.job a.toNat = s := by
    unfold State.hit
    dsimp only
    rw [hfind]
    exact if_pos hheld
  unfold State.engTrans State.translate
  rw [hbits, if_neg (by decide), hfind]
  dsimp only
  rw [hhit, hleaf]
  rfl

end

/-! The list and its backing. -/

/-- What the spill of list l by c asks of the page of its backing. -/
def spillAsk (c : Cmd) : Ask := { kernel := c.kernel, isWrite := true, host := true }

/-- The backing of l lies in the page of e, which its unit used last, and memory keeps it from key on. -/
structure Backed (s : State) (c : Cmd) (l : ListHdr) (e : Tlb) (key : Nat) : Prop where
  held : (s.unitAt (l.h / 2 ^ 24)).held.head? = some e
  job : e.job = c.job
  low : e.page ≤ l.spill.toNat
  high : l.spill.toNat + 8 * l.spillcap ≤ e.page + e.size
  virt : l.spill.toNat + 8 * l.spillcap < 2 ^ 57
  aligned : key % 8 = 0
  below : key + 8 * l.spillcap ≤ scrBase
  leaf : ∀ j, j < l.spillcap → isLoop (key + 8 * j) = false ∧ ∃ o pg, o ≠ .uo ∧
    checkLeaf s e.leaf e.size (l.spill.toNat + 8 * j) 8 (spillAsk c) = .ok { key := key + 8 * j, ord := o, page := pg }

/-- The list's header is sound, and its slice is at rest. -/
structure Spills (s : State) (c : Cmd) (l : ListHdr) : Prop where
  quiet : QuietSlice s (l.h / 2 ^ 22)
  task : c.task = none
  ok : l.ok = true
  aligned : l.h % 8 = 0
  inside : l.h < 288 * 2 ^ 22
  room : 0 < l.spillcap

section
variable {s : State} {c : Cmd} {l : ListHdr} {e : Tlb} {key : Nat}

theorem Backed.setMem (h : Backed s c l e key) (m : Mem) : Backed { s with mem := m } c l e key := { h with }

theorem Spills.setMem (h : Spills s c l) {m : Mem} (hm : m.wf = true) : Spills { s with mem := m } c l :=
  { h with quiet := { h.quiet with sound := hm } }

theorem Backed.backing_toNat (h : Backed s c l e key) (hroom : 0 < l.spillcap) (p : Nat) :
    (l.backing p).toNat = l.spill.toNat + 8 * (p % l.spillcap) := by
  have hp := Nat.mod_lt p hroom
  have hvirt := h.virt
  rw [ListHdr.backing, wordOfNat, BitVec.toNat_add, BitVec.toNat_ofNat]
  omega

/-- An entry written to its place of the backing. -/
theorem Backed.engPut (h : Backed s c l e key) (hplain : Plain s) (hroom : 0 < l.spillcap) (p : Nat) (v : Word) :
    inVirt s (l.backing p) 1 (s.engPut c 1 (l.h / 2 ^ 24) (l.backing p) 8 v.toNat false true) =
      ({ s with mem := memWriteN s.mem (key + 8 * (p % l.spillcap)) 8 v.toNat }, .ok ()) := by
  have hp := Nat.mod_lt p hroom
  have hval := h.backing_toNat hroom p
  obtain ⟨hheld, hjob, hlow, hhigh, hvirt, halign, -, hleaves⟩ := h
  obtain ⟨hloop, o, pg, ho, hleaf⟩ := hleaves _ hp
  obtain ⟨hbits, htarget⟩ := coreTarget_of_lt (a := l.backing p) (by omega)
  have hcovers : e.covers c.job (l.backing p).toNat = true := by
    rw [Tlb.covers, hjob, hval]
    simp only [decide_true, Bool.true_and, Bool.and_eq_true, decide_eq_true_eq]
    omega
  rw [← hval] at hleaf
  rw [engPut_virt hbits htarget (engTrans_head hbits hheld hcovers hleaf) hloop,
    engWrite_word (p := { key := key + 8 * (p % l.spillcap), ord := o, page := pg }) hplain
      (show (key + 8 * (p % l.spillcap)) % 8 = 0 by omega) ho rfl v]

/-- An entry read from its place of the ring. -/
theorem Spills.engFetch (h : Spills s c l) (p : Nat) : s.engFetch c 1 (l.h / 2 ^ 24) (wordOfNat (l.ring p + 0x7F * 2 ^ 57)) 8 false =
    (s, .ok { val := (memWord s.mem (scrKey (l.ring p))).toNat }) := by
  obtain ⟨hslice, hfit, -, halign⟩ := l.ring_fits h.ok p
  have hin := h.inside
  have hinside : scrInside (l.ring p) 8 = true := by
    simp only [scrInside, Bool.and_eq_true, decide_eq_true_eq]
    omega
  have htarget := coreTarget_scratch (sa := l.ring p) (by omega)
  have hread := scrRead_word (c := c) (who := 1) (sa := l.ring p) (by rw [hslice]; exact h.quiet) h.task (halign h.aligned)
  rw [engFetch_scratch htarget hinside hread]

/-! The entries. -/

/-- What a spill does with what it has read of an entry. -/
def spillEntryRead (c : Cmd) (l : ListHdr) (i : Nat) (next : State → State × Eng Nat) : State × Eng EngPiece → State × Eng Nat
  | (s, .flt va cause kind) => (s, .flt va cause kind)
  | (s, .race a) => (s, .race a)
  | (s, .ok r) =>
    match inVirt s (l.backing (l.head.toNat + l.spilled + i)) 1
        (s.engPut c 1 (l.h / 2 ^ 24) (l.backing (l.head.toNat + l.spilled + i)) 8 r.val r.bad true) with
    | (s, .flt va cause kind) => (s.putCmd { c with done := i }, .flt va cause kind)
    | (s, .race a) => (s, .race a)
    | (s, .ok _) => next s

/-- One step of a recursion on k. -/
theorem step_of_brecOn {α : Type} {f : Nat → α} {body : ∀ n, Nat.below (motive := fun _ => α) n → α} (hf : ∀ k, f k = Nat.brecOn k body)
    {step : α → α} (hstep : ∀ k (below : Nat.below (motive := fun _ => α) (k + 1)), body (k + 1) below = step below.1) (k : Nat) :
    f (k + 1) = step (f k) := by
  rw [hf, hf]
  exact hstep k _

/-! To compare two ways to write the body of a spill the kernel evaluates the address that it reads, a sum with 0x7F * 2 ^ 57, by successors. The
body is compared with the read left open, and its recursion apart from it. -/

theorem spillEntries_brecOn (c : Cmd) (l : ListHdr) (k : Nat) : spillEntries c l k = Nat.brecOn k (spillEntries._f c l) := by
  delta spillEntries
  rfl

theorem spillEntries_body (c : Cmd) (l : ListHdr) (n : Nat) (below : Nat.below (motive := fun _ => Nat → State → State × Eng Nat) n) (i : Nat)
    (s : State) : spillEntries._f c l n below i s = match n, below with
      | 0, _ => (s, .ok i)
      | _ + 1, below => spillEntryRead c l i (below.1 (i + 1))
          (s.engFetch c 1 (l.h / 2 ^ 24) (wordOfNat (l.ring (l.head.toNat + l.spilled + i) + 0x7F * 2 ^ 57)) 8 false) := by
  delta spillEntries._f
  obtain ⟨fetch, hfetch⟩ : ∃ f, f = State.engFetch := ⟨_, rfl⟩
  rw [← hfetch]
  cases n
  · rfl
  · rfl

/-- A spill's entries from one on: that one, then the others. -/
def spillEntryStep (c : Cmd) (l : ListHdr) (next : Nat → State → State × Eng Nat) (i : Nat) (s : State) : State × Eng Nat :=
  spillEntryRead c l i (next (i + 1))
    (s.engFetch c 1 (l.h / 2 ^ 24) (wordOfNat (l.ring (l.head.toNat + l.spilled + i) + 0x7F * 2 ^ 57)) 8 false)

theorem spillEntries_succ (c : Cmd) (l : ListHdr) (k : Nat) : spillEntries c l (k + 1) = spillEntryStep c l (spillEntries c l k) :=
  step_of_brecOn (spillEntries_brecOn c l) (fun k below => funext fun i => funext fun s => spillEntries_body c l (k + 1) below i s) k

theorem spillEntries_of_ok {k i : Nat} {t u : State} {r : EngPiece}
    (hread : s.engFetch c 1 (l.h / 2 ^ 24) (wordOfNat (l.ring (l.head.toNat + l.spilled + i) + 0x7F * 2 ^ 57)) 8 false = (t, .ok r))
    (hput : inVirt t (l.backing (l.head.toNat + l.spilled + i)) 1
      (t.engPut c 1 (l.h / 2 ^ 24) (l.backing (l.head.toNat + l.spilled + i)) 8 r.val r.bad true) = (u, .ok ())) :
    spillEntries c l (k + 1) i s = spillEntries c l k (i + 1) u := by
  rw [spillEntries_succ, spillEntryStep, hread, spillEntryRead, hput]

/-- Memory once the k entries of l from entry i of a spill on stand in the backing at key. -/
def backedUp (l : ListHdr) (key : Nat) : Nat → Nat → Mem → Mem
  | 0, _, m => m
  | k + 1, i, m => backedUp l key k (i + 1) (memWriteN m (key + 8 * ((l.head.toNat + l.spilled + i) % l.spillcap)) 8
      (memWord m (scrKey (l.ring (l.head.toNat + l.spilled + i)))).toNat)

theorem spillEntries_backedUp : ∀ (k i : Nat) {s : State}, Spills s c l → Backed s c l e key →
    spillEntries c l k i s = ({ s with mem := backedUp l key k i s.mem }, .ok (i + k))
  | 0, _, _, _, _ => rfl
  | k + 1, i, s, hs, hb => by
    have hput := hb.engPut hs.quiet.plain hs.room (l.head.toNat + l.spilled + i) (memWord s.mem (scrKey (l.ring (l.head.toNat + l.spilled + i))))
    rw [spillEntries_of_ok (hs.engFetch _) hput,
      spillEntries_backedUp k (i + 1) (hs.setMem (wf_memWriteN _ _ _ hs.quiet.sound)) (hb.setMem _), Nat.add_right_comm i 1 k]
    rfl

theorem wf_backedUp (l : ListHdr) (key : Nat) : ∀ (k i : Nat) {m : Mem}, m.wf = true → (backedUp l key k i m).wf = true
  | 0, _, _, h => h
  | k + 1, i, _, h => wf_backedUp l key k (i + 1) (wf_memWriteN _ _ _ h)

/-- Only the places of these entries change. -/
theorem memGet_backedUp (l : ListHdr) (key : Nat) : ∀ (k i : Nat) {m : Mem}, m.wf = true → ∀ z, (∀ j, i ≤ j → j < i + k →
    z < key + 8 * ((l.head.toNat + l.spilled + j) % l.spillcap) ∨ key + 8 * ((l.head.toNat + l.spilled + j) % l.spillcap) + 8 ≤ z) →
      memGet (backedUp l key k i m) z = memGet m z
  | 0, _, _, _, _, _ => rfl
  | k + 1, i, m, h, z, hz => by
    rw [backedUp, memGet_backedUp l key k (i + 1) (wf_memWriteN _ _ _ h) z fun j hlow hhigh => hz j (by omega) (by omega),
      memGet_memWriteN_outside _ _ _ _ h (hz i (Nat.le_refl i) (by omega))]

theorem memWord_backedUp (l : ListHdr) (key : Nat) (k i : Nat) {m : Mem} (h : m.wf = true) {a : Nat} (ha : ∀ j, i ≤ j → j < i + k →
    a + 8 ≤ key + 8 * ((l.head.toNat + l.spilled + j) % l.spillcap) ∨ key + 8 * ((l.head.toNat + l.spilled + j) % l.spillcap) + 8 ≤ a) :
    memWord (backedUp l key k i m) a = memWord m a := by
  rw [memWord, memWord, memReadN_congr fun z hlow hhigh => memGet_backedUp l key k i h z fun j hi hj => by
    have := ha j hi hj
    omega]

/-- Positions less than n apart lie in different places of n. -/
theorem mod_ne_of_near {n b i j : Nat} (hij : i < j) (hnear : j < i + n) : (b + i) % n ≠ (b + j) % n := by
  intro h
  have hmod : i ≡ j [MOD n] := Nat.ModEq.add_left_cancel' b h
  have := Nat.le_of_dvd (by omega) ((Nat.modEq_iff_dvd' (Nat.le_of_lt hij)).mp hmod)
  omega

/-- Each entry stands in its place of the backing. -/
theorem backedUp_entry (hbelow : key + 8 * l.spillcap ≤ scrBase) : ∀ (k i : Nat) {m : Mem}, m.wf = true → k ≤ l.spillcap → ∀ j, i ≤ j → j < i + k →
    memWord (backedUp l key k i m) (key + 8 * ((l.head.toNat + l.spilled + j) % l.spillcap)) =
      memWord m (scrKey (l.ring (l.head.toNat + l.spilled + j)))
  | 0, _, _, _, _, _, _, _ => by omega
  | k + 1, i, m, h, hk, j, hlow, hhigh => by
    have hplace := Nat.mod_lt (l.head.toNat + l.spilled + i) (show 0 < l.spillcap by omega)
    have hw := wf_memWriteN 8 (key + 8 * ((l.head.toNat + l.spilled + i) % l.spillcap))
      (memWord m (scrKey (l.ring (l.head.toNat + l.spilled + i)))).toNat h
    rw [backedUp]
    by_cases hj : j = i
    · rw [hj, memWord_backedUp l key k (i + 1) hw fun r hr hr' => ?_, memWord_memWriteN_self _ _ h]
      have := mod_ne_of_near (n := l.spillcap) (b := l.head.toNat + l.spilled) (i := i) (j := r) (by omega) (by omega)
      omega
    · rw [backedUp_entry hbelow k (i + 1) hw (by omega) j (by omega) (by omega), memWord_memWriteN_outside h]
      unfold scrKey
      omega

/-! The header that a spill leaves. -/

/-- The header of l once a quarter of its ring is spilled. -/
def ListHdr.spillOn (l : ListHdr) : ListHdr := { l with spilled := l.spilled + l.cap / 4 }

/-- Memory once a quarter of l's ring is spilled. -/
def spillMem (m : Mem) (l : ListHdr) (key : Nat) : Mem :=
  memWriteN (backedUp l key (l.cap / 4) 0 m) (scrKey (l.h + 56)) 8 (wordOfNat (l.spilled + l.cap / 4)).toNat

theorem wf_spillMem {m : Mem} (h : m.wf = true) (l : ListHdr) (key : Nat) : (spillMem m l key).wf = true :=
  wf_memWriteN _ _ _ (wf_backedUp l key _ _ h)

/-- Words of scratch but SPILLED are as they were. -/
theorem memWord_spillMem {m : Mem} (h : m.wf = true) (hroom : 0 < l.spillcap) (hbelow : key + 8 * l.spillcap ≤ scrBase) {a : Nat}
    (ha : scrBase ≤ a) (hout : a + 8 ≤ scrKey l.h + 56 ∨ scrKey l.h + 64 ≤ a) : memWord (spillMem m l key) a = memWord m a := by
  rw [spillMem, memWord_memWriteN_outside (wf_backedUp l key _ _ h) (by unfold scrKey at *; omega), memWord_backedUp l key _ _ h]
  intro j _ _
  have := Nat.mod_lt (l.head.toNat + l.spilled + j) hroom
  omega

theorem hdrIn_spillMem {m : Mem} {h : Nat} (hw : m.wf = true) (hl : hdrIn m h = l) (hroom : 0 < l.spillcap)
    (hbelow : key + 8 * l.spillcap ≤ scrBase) (hfit : l.spilled + l.cap / 4 ≤ l.spillcap) : hdrIn (spillMem m l key) h = l.spillOn := by
  have hh : l.h = h := by rw [← hl]; rfl
  have hcap : l.spillcap < 2 ^ 64 := by rw [← hl]; exact (memWord m (scrKey h + 32)).isLt
  have hsame : ∀ k, k + 8 ≤ 56 → memWord (spillMem m l key) (scrKey h + k) = memWord m (scrKey h + k) := fun k hk =>
    memWord_spillMem hw hroom hbelow (by unfold scrKey; omega) (by rw [hh]; omega)
  have hspilled : (memWord (spillMem m l key) (scrKey h + 56)).toNat = l.spilled + l.cap / 4 := by
    rw [spillMem, hh, show scrKey (h + 56) = scrKey h + 56 from (Nat.add_assoc _ _ _).symm,
      memWord_memWriteN_self _ _ (wf_backedUp l key _ _ hw), wordOfNat, BitVec.toNat_ofNat, Nat.mod_eq_of_lt (by omega)]
  have hzero := hsame 0 (by decide)
  rw [Nat.add_zero] at hzero
  rw [hdrIn, hzero, hsame 8 (by decide), hsame 16 (by decide), hsame 24 (by decide), hsame 32 (by decide), hsame 40 (by decide),
    hsame 48 (by decide), hspilled, ListHdr.spillOn]
  rw [← hl]
  rfl

theorem ListHdr.ok_spillOn (h : l.ok = true) (hring : l.count = l.cap + l.spilled) (hfit : l.spilled + l.cap / 4 ≤ l.spillcap) :
    l.spillOn.ok = true := by
  simp only [ListHdr.ok, Bool.and_eq_true, decide_eq_true_eq] at h ⊢
  obtain ⟨⟨⟨⟨⟨⟨⟨hlow, hhigh⟩, hpow⟩, hcount⟩, -⟩, -⟩, hset⟩, hh⟩ := h
  refine ⟨⟨⟨⟨⟨⟨⟨hlow, hhigh⟩, hpow⟩, hcount⟩, hfit⟩, ?_⟩, hset⟩, hh⟩
  show l.spilled + l.cap / 4 ≤ l.count
  omega

end

/-! The event. -/

section
variable {s : State} {n h : Nat} {c : Cmd} {a : Access} {e : Tlb} {l : ListHdr} {key : Nat} {d x y : Reg} {p q : Bool}

/-- The spill that is under way writes its entries and SPILLED, and its append goes on. -/
theorem spillStep_backed (hs : Spills s c l) (hb : Backed s c l e key) (hl : hdrIn s.mem h = l) (hspill : l.canSpill = true) (hcmds : s.cmds = [c])
    (hst : c.st = .running) (hkind : c.kind = .spill a.sn (h / 2 ^ 22)) (hpar : c.par = [a.ea, a.vb]) (hdone : c.done = 0)
    (htgt : coreTarget a.ea = .scratch h) :
    ∃ t, spillStep s (h / 2 ^ 22) = t.endSpill c a.sn false ∧ Rewrites s t (spillMem s.mem l key) := by
  have hh : l.h = h := by rw [← hl]; rfl
  have haddr : listAddr (c.parAt 0) = h := by
    rw [Cmd.parAt, hpar]
    show listAddr a.ea = h
    rw [listAddr, htgt]
  have hq := hs.quiet
  have ha := hs.aligned
  obtain ⟨-, hfit⟩ := l.fits hs.ok
  rw [hh] at hq ha hfit
  have hhdr : listHdr c h s = .ok (s, l) := by rw [listHdr_word hq hs.task ha (by omega), hl]
  have hwf : (backedUp l key (l.cap / 4) 0 s.mem).wf = true := wf_backedUp l key _ _ hs.quiet.sound
  obtain ⟨t, hput, ht⟩ := listPut_word (c := c) (s := { s with mem := backedUp l key (l.cap / 4) 0 s.mem }) (sa := l.h + 56)
    (by rw [hh, show (h + 56) / 2 ^ 22 = h / 2 ^ 22 by omega]; exact { hq with sound := hwf }) hs.task (by omega)
    (wordOfNat (l.spilled + l.cap / 4))
  refine ⟨t, ?_, ht.of_setMem⟩
  unfold spillStep
  dsimp only
  rw [hcmds, List.find?_cons_of_pos (by simp [hst, hkind])]
  dsimp only
  rw [haddr, hhdr]
  dsimp only
  rw [hs.ok, hspill, if_neg (by decide), hdone, Nat.sub_zero, spillEntries_backedUp _ _ hs hb]
  dsimp only
  rw [hput]
  dsimp only
  rw [hkind]

theorem QuietSlice.dropCmd {k : Nat} (hq : QuietSlice s k) (id : Nat) : QuietSlice (s.dropCmd id) k := { hq with }

/-- The append that waited for the spill is performed on the list that the spill leaves. -/
theorem workListSpill_backed (hs : Spills s c l) (hb : Backed s c l e key) (hl : hdrIn s.mem h = l) (hspill : l.canSpill = true)
    (hring : l.count = l.cap + l.spilled) (hcmds : s.cmds = [c]) (hst : c.st = .running) (hagent : c.agent = n)
    (hkind : c.kind = .spill a.sn (h / 2 ^ 22)) (hpar : c.par = [a.ea, a.vb]) (hdone : c.done = 0) (hacc : (s.ctxAt n).acc = [a])
    (hins : a.ins = .wlpsh d x y p q) (htask : (s.ctxAt n).task = none) (htgt : coreTarget a.ea = .scratch h) :
    Gives (exec (.workListSpillComplete (h / 2 ^ 22)) s) fun u : State =>
      u.mem = appended (spillMem s.mem l key) l.spillOn a.vb ∧ u.cmds = [] ∧ (u.ctxAt n).findAcc a.sn = some { a with st := .got 0 } ∧
        ∀ k, k ≠ n → u.ctxAt k = s.ctxAt k := by
  obtain ⟨t, hstep, ht⟩ := spillStep_backed hs hb hl hspill hcmds hst hkind hpar hdone htgt
  have hh : l.h = h := by rw [← hl]; rfl
  have hfit : l.spilled + l.cap / 4 ≤ l.spillcap := of_decide_eq_true (Bool.and_eq_true_iff.mp hspill).2
  have hwf : (spillMem s.mem l key).wf = true := wf_spillMem hs.quiet.sound l key
  have hq : QuietSlice (t.dropCmd c.id) (h / 2 ^ 22) := by
    rw [← hh]
    exact (ht.quiet hs.quiet hwf).dropCmd _
  have hctx : ∀ k, (t.dropCmd c.id).ctxAt k = s.ctxAt k := fun k => by
    show mapGet {} t.ctxs k = _
    rw [ht.ctxs]
    rfl
  have hf : ((t.dropCmd c.id).ctxAt n).findAcc a.sn = some a := by
    rw [hctx, Ctx.findAcc, hacc]
    exact List.find?_cons_of_pos (decide_eq_true rfl)
  have hnone : (t.dropCmd c.id).cmds = [] := by
    show t.cmds.filter _ = []
    rw [ht.cmds, hcmds]
    simp
  have hend : t.endSpill c a.sn false = performList (t.dropCmd c.id) n a := by
    unfold State.endSpill
    dsimp only
    rw [hagent, hf]
    rfl
  have hhdr : hdrIn (t.dropCmd c.id).mem h = l.spillOn := by
    show hdrIn t.mem h = _
    rw [ht.mem]
    exact hdrIn_spillMem hs.quiet.sound hl hs.room hb.below hfit
  obtain ⟨hcap, -⟩ := l.fits hs.ok
  have hroom : l.count ≠ l.cap + l.spillcap := by omega
  have hquarter : l.count - (l.spilled + l.cap / 4) ≠ l.cap := by omega
  obtain ⟨-, -, hpush⟩ := performList_push hq (by rw [hctx]; exact htask) hins htgt (hh ▸ hs.aligned) hhdr (l.ok_spillOn hs.ok hring hfit)
  obtain ⟨u, hu, hw⟩ := hpush hroom hquarter
  have hmem : (t.dropCmd c.id).mem = spillMem s.mem l key := ht.mem
  obtain ⟨htaken, hcmds', hfound, hothers⟩ := appended_take hq hf hins hw
  refine ⟨u.take n a 0, congrArg Host.Outcome.next (hstep.trans (hend.trans hu)), ?_, hcmds'.trans hnone, hfound, fun k hk => ?_⟩
  · rw [htaken, hmem]
  · rw [hothers k hk, hctx]

end

/-- Memory once a quarter of l's ring is spilled to key, and e appended. -/
theorem appended_spillMem_words {m : Mem} {l : ListHdr} {key : Nat} (e : Word) (hw : m.wf = true) (hroom : 0 < l.spillcap)
    (hcap : l.spillcap < 2 ^ 64) (hbelow : key + 8 * l.spillcap ≤ scrBase) (hfit : l.spilled + l.cap / 4 ≤ l.spillcap) :
    (∀ j i, j < l.cap / 4 → l.head.toNat + l.spilled + j = i → memWord (appended (spillMem m l key) l.spillOn e) (key + 8 * (i % l.spillcap)) =
      memWord m (scrKey l.h + 64 + 8 * (i % l.cap))) ∧
    (memWord (appended (spillMem m l key) l.spillOn e) (scrKey l.h + 56)).toNat = l.spilled + l.cap / 4 ∧
    ∀ z, (∀ j i, j < l.cap / 4 → l.head.toNat + l.spilled + j = i → z < key + 8 * (i % l.spillcap) ∨ key + 8 * (i % l.spillcap) + 8 ≤ z) →
      (z < scrKey l.h + 16 ∨ scrKey l.h + 24 ≤ z) → (z < scrKey l.h + 56 ∨ scrKey l.h + 64 ≤ z) →
      (z < scrKey l.h + 64 + 8 * (l.tail.toNat % l.cap) ∨ scrKey l.h + 72 + 8 * (l.tail.toNat % l.cap) ≤ z) →
        memGet (appended (spillMem m l key) l.spillOn e) z = memGet m z := by
  have hback : ∀ i, key + 8 * (i % l.spillcap) + 8 ≤ scrBase := fun i => by
    have := Nat.mod_lt i hroom
    omega
  have hbase : scrBase ≤ scrKey l.h := Nat.le_add_right _ _
  have hwb : (backedUp l key (l.cap / 4) 0 m).wf = true := wf_backedUp l key _ _ hw
  have hws : (spillMem m l key).wf = true := wf_spillMem hw l key
  have hspilledAt : scrKey (l.h + 56) = scrKey l.h + 56 := (Nat.add_assoc _ _ _).symm
  obtain ⟨-, -, hframe⟩ := appended_words l.spillOn e hws
  have hword : ∀ b, b + 8 ≤ scrKey l.h + 16 ∨ (scrKey l.h + 24 ≤ b ∧ b + 8 ≤ scrKey l.h + 64) →
      memWord (appended (spillMem m l key) l.spillOn e) b = memWord (spillMem m l key) b := fun b hb => by
    rw [memWord, memWord, memReadN_congr fun z hlow hhigh => hframe z (by show z < scrKey l.h + 16 ∨ scrKey l.h + 24 ≤ z; omega)
      (by show z < scrKey l.h + 64 + _ ∨ scrKey l.h + 72 + _ ≤ z; omega)]
  refine ⟨fun j i hj hi => ?_, ?_, fun z hback htail hspilled hring => ?_⟩
  · have hi' := hback i
    rw [hword _ (by omega), spillMem, memWord_memWriteN_outside hwb (by omega), ← l.scrKey_ring, ← hi]
    exact backedUp_entry hbelow _ _ hw (by omega) j (Nat.zero_le j) (by omega)
  · rw [hword _ (by omega), spillMem, hspilledAt, memWord_memWriteN_self _ _ hwb, wordOfNat, BitVec.toNat_ofNat, Nat.mod_eq_of_lt (by omega)]
  · rw [hframe z htail hring, spillMem, hspilledAt, memGet_memWriteN_outside _ _ _ _ hwb (by omega),
      memGet_backedUp l key _ _ hw z fun j _ hj => hback j _ (by omega) rfl]

end Sys2Proof.Machine
end

section
/-! PROOFS. spec/13_memory.md R328: writes to replicated pages; spec/08_engines.md R239: a key of SPL. -/

namespace Sys2Proof.Machine

open Sys2Proof.Safety

/-! Replicated pages (R328). -/

/-- Write r as it stands once it has reached the replica of die d. -/
def RWrite.reach (r : RWrite) (d : Nat) : RWrite := if d = 0 then { r with die0 := true } else { r with die1 := true }

theorem RWrite.reach_done (r : RWrite) (d : Nat) : ((r.reach d).die0 && (r.reach d).die1) = if d = 0 then r.die1 else r.die0 := by
  unfold RWrite.reach
  split
  · exact Bool.true_and _
  · exact Bool.and_true _

theorem replicaStep_of_turn {s : State} {n : Nat} {r : RWrite} (hr : s.rw[n / 2]? = some r)
    (hturn : ∀ q, q ∈ s.rw.take (n / 2) → q.page = r.page ∨ q.key = r.key → (if n % 2 = 0 then q.die0 else q.die1) = true) :
    replicaStep s n = if (r.reach (n % 2)).die0 && (r.reach (n % 2)).die1 then
        { s.homeWrite (r.reach (n % 2)).owner (r.reach (n % 2)).key (r.reach (n % 2)).en (r.reach (n % 2)).val with rw := s.rw.eraseIdx (n / 2) }
      else { s with rw := s.rw.set (n / 2) (r.reach (n % 2)) } := by
  have hnone : ((s.rw.take (n / 2)).any fun q => q.leads r && !q.at (n % 2)) = false := by
    rw [List.any_eq_false]
    intro q hq hboth
    obtain ⟨hlead, hat⟩ := Bool.and_eq_true_iff.mp hboth
    have hreached : q.at (n % 2) = true := hturn q hq (by simpa [RWrite.leads] using hlead)
    rw [hreached] at hat
    contradiction
  unfold replicaStep
  simp only [hr, hnone, Bool.false_eq_true, if_false]
  rfl

/-- Bytes of a word written at its home. -/
theorem memGet_homeWrite {s : State} (who key : Nat) (en : BitVec 8) (val : Word) (hw : MemSound s) (q : Nat) :
    memGet (s.homeWrite who key en val).mem q =
      if key ≤ q ∧ q < key + 8 ∧ en.getLsbD (q - key) = true then val.extractLsb' (8 * (q - key)) 8 else memGet s.mem q := by
  have hget : (enList en)[q - key]? = some true ↔ q - key < 8 ∧ en.getLsbD (q - key) = true := by
    unfold enList upTo
    rw [List.getElem?_map, Option.map_eq_some_iff]
    constructor
    · rintro ⟨j, hj, hen⟩
      obtain ⟨hlt, rfl⟩ := List.getElem?_eq_some_iff.mp hj
      rw [List.getElem_range] at hen
      exact ⟨by simpa using hlt, hen⟩
    · rintro ⟨hlt, hen⟩
      exact ⟨q - key, List.getElem?_range hlt, hen⟩
  rw [State.homeWrite_mem, memGet_memMerge _ _ _ _ hw]
  refine if_ctx_congr ?_ (fun hcond => ?_) (fun _ => rfl)
  · rw [hget]
    exact ⟨fun ⟨hle, hlt, hen⟩ => ⟨hle, by omega, hen⟩, fun ⟨hle, hlt, hen⟩ => ⟨hle, by omega, hen⟩⟩
  · apply BitVec.eq_of_toNat_eq
    rw [BitVec.extractLsb'_toNat, Nat.shiftRight_eq_div_pow, Nat.pow_mul, BitVec.toNat_ofNat]

/-! A key of SPL (R239). -/

theorem spKeyOp_spl {c : Cmd} {p : Reg} {kd ka kb kc : Tok} {i k hi : Nat} {h : SpHdr} {cs : List Nat} {path : List Step}
    {s s1 s2 s3 s4 t : State} (hins : c.ins = .spl p kd ka kb kc) (hhdr : readSpHdr c (c.parAt 0) s = .ok (s1, h))
    (hcs : spCoordsAt c i s1 = .ok (s2, cs)) (hkey : spKey h.widths cs = some k) (hpath : findPath c h k s2 = .ok (s3, path, hi))
    (hset : h.psize = 0 → s4 = s3)
    (hpay : h.psize ≠ 0 → spWrite c (c.parAt 2 + wordOfNat (h.psz8 * i)) h.psz8 ((pathPayload path k).getD 0) s3 = .ok s4)
    (hres : spWrite c (scrAddr (spRes c + i)) 1 (if (pathPayload path k).isSome then 0 else 1) s4 = .ok t) : spKeyOp c i s = .ok t := by
  have hspl : isSpl c.ins = true := by rw [hins]; rfl
  have hmiss : ofBoolNat (pathPayload path k).isNone = if (pathPayload path k).isSome then 0 else 1 := by
    cases pathPayload path k <;> rfl
  have heffect : keyEffect c h path k (pathPayload path k) 0 s3 = .ok (s3, if (pathPayload path k).isSome then 0 else 1) := by
    unfold keyEffect
    simp only [hspl, if_true, hmiss, pure_eq_ok]
  unfold spKeyOp
  rw [hhdr, ok_bind]
  dsimp only
  rw [hcs, ok_bind]
  dsimp only
  rw [hkey]
  dsimp only
  rw [hspl, Bool.not_true, Bool.and_false, if_neg Bool.false_ne_true, pure_eq_ok, ok_bind]
  dsimp only
  rw [hpath, ok_bind]
  dsimp only
  rw [heffect, ok_bind, Bool.and_true]
  by_cases hz : h.psize = 0
  · rw [if_neg (by simpa using hz), pure_eq_ok, ok_bind, ← hset hz]
    exact hres
  · rw [if_pos (by simpa using hz), hpay hz, ok_bind]
    exact hres

/-- A command that has passed its check performs its next key. -/
theorem sparseStep_spl {s t : State} {id : Nat} {c : Cmd} {p : Reg} {kd ka kb kc : Tok} (hf : s.findCmd id = some c) (hst : c.st = .running)
    (hkind : c.kind = .slot) (hins : c.ins = .spl p kd ka kb kc) (haux : c.aux ≠ 0) (hop : spKeyOp c c.done s = .ok t) :
    sparseStep s id = if c.done + 1 = spCount c then t.over { c with done := c.done + 1 } c.status else t.putCmd { c with done := c.done + 1 } := by
  have hstep : sparseStep s id = spKeyStep s c := by
    unfold sparseStep
    simp only [hf, hst, hkind, hins, bne_self_eq_false, Bool.false_eq_true, if_false]
  rw [hstep]
  unfold spKeyStep
  simp only [bne_iff_ne, ne_eq, haux, not_false_eq_true, if_true, hop]

end Sys2Proof.Machine
end

section
/-! PROOFS. spec/13_memory.md: the events of memory together. -/

namespace Sys2Proof.Machine

open Sys2Proof.Safety

theorem exec_sparseOperation {s : State} {id : Nat} {c : Cmd} (hf : s.findCmd id = some c) (hj : s.jobs = []) :
    exec (.sparseOperation id) s = .next (sparseStep s id) := by
  show Host.Outcome.next (if (s.findCmd id).any s.stopped then s else sparseStep s id) = _
  rw [hf, Option.any_some, stopped_of_no_jobs c hj, if_neg Bool.false_ne_true]

/-- Memory and the command after a key of SPL. -/
theorem sparseStep_spl_done {s t : State} {id : Nat} {c : Cmd} {p : Reg} {kd ka kb kc : Tok} (hf : s.findCmd id = some c) (hst : c.st = .running)
    (hkind : c.kind = .slot) (hins : c.ins = .spl p kd ka kb kc) (haux : c.aux ≠ 0) (hop : spKeyOp c c.done s = .ok t) (hft : t.findCmd id = some c) :
    (sparseStep s id).mem = t.mem ∧ (sparseStep s id).findCmd id =
      some { c with done := c.done + 1, st := if c.done + 1 = spCount c then .done else .running } := by
  have hput : ∀ d : Cmd, d.id = c.id → (t.putCmd d).findCmd id = some d := fun d hd => findCmd_putCmd hft (hd.trans (findCmd_id hft))
  rw [sparseStep_spl hf hst hkind hins haux hop]
  by_cases hlast : c.done + 1 = spCount c
  · rw [if_pos hlast, if_pos hlast]
    exact ⟨rfl, hput _ rfl⟩
  · rw [if_neg hlast, if_neg hlast, ← hst]
    exact ⟨rfl, hput _ rfl⟩

/-- A replicated write that reaches its second replica reaches memory. -/
theorem replicatedWrite_both {s : State} {n : Nat} {r : RWrite} (hr : s.rw[n / 2]? = some r) (hw : MemSound s)
    (hturn : ∀ q, q ∈ s.rw.take (n / 2) → q.page = r.page ∨ q.key = r.key → (if n % 2 = 0 then q.die0 else q.die1) = true)
    (hother : (if n % 2 = 0 then r.die1 else r.die0) = true) : Gives (exec (.replicatedWrite n) s) fun u : State => u.ctxs = s.ctxs ∧
      u.rw = s.rw.eraseIdx (n / 2) ∧ (∀ k, k < 8 → memGet u.mem (r.key + k) =
        if r.en.getLsbD k then r.val.extractLsb' (8 * k) 8 else memGet s.mem (r.key + k)) ∧
      ∀ q, q < r.key ∨ r.key + 8 ≤ q → memGet u.mem q = memGet s.mem q := by
  have hstep := replicaStep_of_turn hr hturn
  have hwrite : (r.reach (n % 2)).key = r.key ∧ (r.reach (n % 2)).en = r.en ∧ (r.reach (n % 2)).val = r.val := by
    unfold RWrite.reach
    split <;> exact ⟨rfl, rfl, rfl⟩
  obtain ⟨hkey, hen, hval⟩ := hwrite
  rw [if_pos ((r.reach_done _).trans hother), hkey, hen, hval] at hstep
  refine ⟨_, congrArg Host.Outcome.next hstep, rfl, rfl, fun k hk => ?_, fun q hq => ?_⟩
  · refine (memGet_homeWrite (r.reach (n % 2)).owner _ _ _ hw _).trans ?_
    have hin : r.key ≤ r.key + k ∧ r.key + k < r.key + 8 := by omega
    simp only [Nat.add_sub_cancel_left, hin, true_and]
  · exact (memGet_homeWrite (r.reach (n % 2)).owner _ _ _ hw _).trans (if_neg (by omega))

theorem ListHdr.canSpill_iff (l : ListHdr) : l.canSpill = true ↔ l.spill ≠ 0 ∧ l.spilled + l.cap / 4 ≤ l.spillcap := by
  rw [ListHdr.canSpill, Bool.and_eq_true, bne_iff_ne, decide_eq_true_eq]

/-- Settles O50: one lemma for each event. -/
theorem memoryEvents : Obligations.MemoryEvents := by
  intro s
  refine ⟨?walks, ?replicated, ?push, ?spill, ?sparse⟩
  case walks =>
    intro unit n w hw hn
    refine ⟨fun e hwalk => ?_, fun leaf size hwalk hroom hctxs hsns => ?_⟩
    · obtain ⟨u, hu, hmem, hcmds, hunit, hctx⟩ := pageWalk_faults hw hn hwalk
      refine ⟨u, hu, hmem, hcmds, by rw [hunit]; rfl, by rw [hunit]; rfl, fun q hout => ?_, fun q hq hj i a ha => ?_⟩
      · exact (hctx q).trans (if_neg fun hin => hout.elim (· hin.1) (· hin.2))
      · refine ⟨walkServed w.page (.error e) a, ?_, walkServed_error w.page e a⟩
        rw [hctx, if_pos ⟨hq, hj⟩, List.getElem?_map, ha]
        rfl
    · obtain ⟨u, hu, ⟨e, ⟨hjob, hleaf, hsize, hpage⟩, hwalked⟩, hacc⟩ := pageWalk_holds hw hn hwalk hroom hctxs hsns
      refine ⟨u, hu, hwalked.mem, hwalked.cmds, hwalked.walks, ⟨e, hwalked.leaf, hjob, hleaf, hsize, hpage⟩,
        fun q i a ha => ?_⟩
      obtain ⟨b, hb, hsame, htaken⟩ := hacc q i a ha
      refine ⟨b, hb, hsame, fun hst hq hj => ?_⟩
      obtain ⟨hacc, hdecided⟩ := htaken hst hq hj
      exact ⟨hacc, hdecided hj⟩
  case replicated =>
    intro n r hr hw hturn
    refine ⟨fun hother => ?_, replicatedWrite_both hr hw hturn⟩
    have hstep := replicaStep_of_turn hr hturn
    rw [if_neg (by rw [r.reach_done, hother]; exact Bool.false_ne_true)] at hstep
    exact ⟨_, congrArg Host.Outcome.next hstep, ⟨rfl, rfl⟩, rfl⟩
  case push =>
    rintro n a d x y p q h b cap cnt sc sp tail hplain hw hwait hf hins htask htgt ha hregions hverify rfl rfl hpow hfit rfl rfl rfl rfl hset hcount
      hback hspilled
    have hok : (hdrIn s.mem h).ok = true := ListHdr.ok_of hpow hfit hset hcount hback hspilled
    obtain ⟨hroom, hfull, hspill⟩ := workListOperation_push ⟨hplain, hw, hregions, hverify⟩ hwait hf htask hins htgt ha rfl hok
    refine ⟨fun hring hlist => ?_, fun hno => hfull ?_, fun hlist hring hnz hquarter => hspill ?_ ?_ ?_⟩
    · obtain ⟨u, hu, hmem, hcmds, hfound, hothers⟩ := hroom (Nat.ne_of_lt hlist) (Nat.ne_of_lt (Nat.sub_lt_right_of_lt_add hspilled hring))
      obtain ⟨hentry, htail, hframe⟩ := appended_words (hdrIn s.mem h) a.vb hw
      rw [← hmem] at hentry htail hframe
      exact ⟨u, hu, hentry, htail, hcmds, hfound, hothers, hframe⟩
    · refine hno.imp id fun ⟨hring, hnone⟩ => ⟨?_, ?_⟩
      · rw [show (hdrIn s.mem h).count = (hdrIn s.mem h).cap + (hdrIn s.mem h).spilled from hring, Nat.add_sub_cancel]
      · rw [← Bool.not_eq_true, ListHdr.canSpill_iff]
        exact fun ⟨hnz, hquarter⟩ => hnone.elim hnz (Nat.not_lt.mpr hquarter)
    · exact Nat.ne_of_lt hlist
    · rw [show (hdrIn s.mem h).count = (hdrIn s.mem h).cap + (hdrIn s.mem h).spilled from hring, Nat.add_sub_cancel]
    · exact (ListHdr.canSpill_iff _).mpr ⟨hnz, hquarter⟩
  case spill =>
    rintro n c e a d x y p q h b cap sc sp head tail spill key hplain hw hcmds hagent hst hkind - hpar hdone hctask hacc hins - htask htgt ha
      hregions hverify rfl rfl hpow hfit rfl rfl rfl hnz rfl rfl hset hring hquarter hinside hheld hjob hlow hhigh hvirt halign hbelow hleaf
    have hcount : (hdrIn s.mem h).count = (hdrIn s.mem h).cap + (hdrIn s.mem h).spilled := hring
    have hfits : (hdrIn s.mem h).spilled + (hdrIn s.mem h).cap / 4 ≤ (hdrIn s.mem h).spillcap := hquarter
    have hok : (hdrIn s.mem h).ok = true := ListHdr.ok_of hpow hfit hset (by omega) (by omega) (by omega)
    have hcap := ((hdrIn s.mem h).fits hok).1
    have hs : Spills s c (hdrIn s.mem h) := ⟨⟨hplain, hw, hregions, hverify⟩, hctask, hok, ha, hinside, by omega⟩
    have hb : Backed s c (hdrIn s.mem h) e key := ⟨hheld, hjob, hlow, hhigh, hvirt, halign, hbelow, hleaf⟩
    obtain ⟨u, hu, hmem, hnone, hfound, hothers⟩ := workListSpill_backed hs hb rfl ((ListHdr.canSpill_iff _).mpr ⟨hnz, hquarter⟩) hcount hcmds hst
      hagent hkind hpar hdone hacc hins htask htgt
    obtain ⟨hentry, htail, -⟩ := appended_words (hdrIn s.mem h).spillOn a.vb (wf_spillMem hw (hdrIn s.mem h) key)
    obtain ⟨hmoved, hspilled, hframe⟩ := appended_spillMem_words (l := hdrIn s.mem h) a.vb hw hs.room (BitVec.isLt _) hbelow hfits
    rw [← hmem] at hentry htail hmoved hspilled hframe
    exact ⟨u, hu, hmoved, hspilled, hentry, htail, hnone, hfound, hothers, hframe⟩
  case sparse =>
    intro id c p kd ka kb kc h cs k path hi s1 s2 s3 s4 t hf hjobs hst hkind hins haux hhdr hcs hkey hpath hset hpay hres hft
    exact ⟨_, exec_sparseOperation hf hjobs,
      sparseStep_spl_done hf hst hkind hins haux (spKeyOp_spl hins hhdr hcs hkey hpath hset hpay hres) hft⟩

end Sys2Proof.Machine
end

section
/-! PROOFS. spec/16_scheduling.md R346, R350 to R352, spec/13_memory.md R296, R297: the events of placement. -/

namespace Sys2Proof.Machine

open Sys2Proof.Safety

/-! The turn of the one share that has waiting tasks (R346, R351). -/

/-- The share runs a phase of single tasks on the die, and none of its indices is to run again or has aged; i is the next one. -/
def Share.Offers (h : Share) (die i : Nat) : Prop :=
  h.die = die ∧ h.st = .running ∧ h.failed = none ∧ h.redo = [] ∧ h.aged = [] ∧ h.hdr.coop = false ∧ h.next < h.count ∧
    h.first + h.next = i

theorem Share.Offers.head_eq {h : Share} {die i : Nat} (ho : h.Offers die i) : h.head = some i := by
  obtain ⟨-, -, -, hredo, -, -, hnext, rfl⟩ := ho
  rw [Share.head, hredo]
  exact if_pos hnext

theorem Share.Offers.headGroup_eq {h : Share} {die i : Nat} (ho : h.Offers die i) : h.headGroup = [i] := by
  have hhead := ho.head_eq
  obtain ⟨-, -, -, hredo, -, hcoop, -⟩ := ho
  simp [Share.headGroup, hhead, hcoop, hredo, upTo]

theorem Share.Offers.prioOf_eq {h : Share} {die i : Nat} (ho : h.Offers die i) : h.prioOf i = h.hdr.prio := by
  obtain ⟨-, -, -, -, haged, -⟩ := ho
  rw [Share.prioOf, haged]
  rfl

/-- What is left of the share once its head is taken. -/
theorem Share.Offers.taken_eq {h : Share} {die i : Nat} (ho : h.Offers die i) :
    { h.takeHead with aged := h.aged.filter (· != i) } = { h with next := h.next + 1 } := by
  obtain ⟨-, -, -, hredo, haged, hcoop, -⟩ := ho
  simp [Share.takeHead, hredo, haged, hcoop]

/-- The share has its turn at its own priority only. -/
theorem turnsAt_of_offers {s : State} {h : Share} {die i : Nat} (hjobs : s.jobs = []) (hs : s.shares = [h]) (ho : h.Offers die i) (p : Nat) :
    s.turnsAt die p = if h.hdr.prio = p then [h] else [] := by
  have hhead := ho.head_eq
  have hprio := ho.prioOf_eq
  obtain ⟨hdie, hst, hfailed, -⟩ := ho
  unfold State.turnsAt
  by_cases hp : h.hdr.prio = p
  · by_cases hlast : (s.die die).turns[p]?.getD 0 < h.id
    · simp [hs, hdie, hst, hfailed, jobOpen_of_no_jobs hjobs, hhead, hprio, hp, hlast]
    · simp [hs, hdie, hst, hfailed, jobOpen_of_no_jobs hjobs, hhead, hprio, hp, hlast, Nat.not_lt.mp hlast]
  · simp [hs, hhead, hprio, hp]

theorem turns_of_offers {s : State} {h : Share} {die i : Nat} (hjobs : s.jobs = []) (hs : s.shares = [h]) (ho : h.Offers die i)
    (hprio : h.hdr.prio ≤ 7) : [7, 6, 5, 4, 3, 2, 1, 0].flatMap (s.turnsAt die) = [h] := by
  rw [show s.turnsAt die = fun p => if h.hdr.prio = p then [h] else [] from funext (turnsAt_of_offers hjobs hs ho)]
  generalize h.hdr.prio = q at hprio
  interval_cases q <;> rfl

theorem gangPlacement_of_no_jobs {s : State} (h : s.jobs = []) (die : Nat) : s.gangPlacement die = s := by
  rw [State.gangPlacement, h]
  rfl

/-! A task without tiles is placed (R352). -/

theorem plan_of_no_tiles {s : State} {h : Share} (ht : h.hdr.tilesOf h.phase = []) (b : Bool) (l : List (Nat × Nat)) : s.plan h b l = [] := by
  rw [State.plan, ht]
  induction l with
  | nil => rfl
  | cons q l ih => exact ih

theorem planFor_of_no_tiles {s : State} {h : Share} (ht : h.hdr.tilesOf h.phase = []) (l : List (Nat × Nat)) : s.planFor h l = some [] := by
  rw [State.planFor, plan_of_no_tiles ht, plan_of_no_tiles ht]
  rfl

/-- Giving a core to another job changes memory and what cores keep, and no write, context or table beside them (R293). -/
theorem newJob_eq (s : State) (core job : Nat) : s.newJob core job = { s with
    mem := (s.newJob core job).mem, poison := (s.newJob core job).poison, pw := (s.newJob core job).pw, uo := (s.newJob core job).uo
    early := (s.newJob core job).early, cores := (s.newJob core job).cores } := by
  unfold State.newJob
  split <;> rfl

theorem lastJob_newJob (s : State) (core job : Nat) : ((s.newJob core job).coreAt core).lastJob = some job := by
  unfold State.newJob
  split
  · assumption
  · exact congrArg CoreSt.lastJob (State.coreAt_modCore_self _ _ _)

/-- The task of a single index that is Resident at once. -/
def State.residentTask (s : State) (h : Share) (i n : Nat) : Task :=
  { id := s.nextId, share := h.id, job := h.job, index := i, phase := h.phase, first := i, ltag := h.ltag, ctx := n, st := .resident
    since := s.now }

/-- A change of the newest task. -/
theorem tasks_modTask_last {s : State} {t : Task} {l : List Task} (f : Task → Task) (hs : s.tasks = l ++ [t])
    (hl : ∀ q, q ∈ l → q.id ≠ t.id) : (s.modTask t.id f).tasks = l ++ [f t] := by
  have hold : l.map (fun q => if q.id = t.id then f q else q) = l :=
    (List.map_congr_left fun q hq => if_neg (hl q hq)).trans (List.map_id l)
  show s.tasks.map (fun q => if q.id = t.id then f q else q) = _
  rw [hs, List.map_append, hold]
  simp

theorem newJob_keeps (s : State) (core job : Nat) : (s.newJob core job).tasks = s.tasks ∧ (s.newJob core job).nextId = s.nextId ∧
    (s.newJob core job).now = s.now := by
  rw [newJob_eq]
  exact ⟨rfl, rfl, rfl⟩

theorem placeTask_no_tiles {s : State} {h : Share} {i n : Nat} (hcoop : h.hdr.coop = false) (hids : ∀ t, t ∈ s.tasks → t.id < s.nextId) :
    (s.placeTask h i i n []).tasks = s.tasks ++ [s.residentTask h i n] := by
  obtain ⟨htasks, hid, hnow⟩ := newJob_keeps s (coreOf n) h.job
  have hplaced := tasks_modTask_last (s := { s.newJob (coreOf n) h.job with tasks := s.tasks ++ [{ s.residentTask h i n with st := .placed }]
                                                                            nextId := s.nextId + 1 })
    (t := { s.residentTask h i n with st := .placed }) (fun t => if t.reserves then { t with st := if t.ready then .resident else .filling } else t)
    rfl fun q hq => Nat.ne_of_lt (hids q hq)
  unfold State.placeTask
  simp only [htasks, hid, hnow, hcoop]
  exact hplaced

/-- The placed task's core serves its job; no context and no share changes. -/
theorem placeTask_no_tiles_frame (s : State) (h : Share) (i n : Nat) : (s.placeTask h i i n []).ctxs = s.ctxs ∧
    (s.placeTask h i i n []).shares = s.shares ∧ ((s.placeTask h i i n []).coreAt (coreOf n)).lastJob = some h.job := by
  refine ⟨?_, ?_, lastJob_newJob s (coreOf n) h.job⟩
  · exact (congrArg State.ctxs (newJob_eq s (coreOf n) h.job)).trans rfl
  · exact (congrArg State.shares (newJob_eq s (coreOf n) h.job)).trans rfl

/-- The head i of a share is taken: its group gives up a cluster that it kept, and the turn at its priority is its share's (R351). -/
def State.offered (s : State) (h : Share) (i : Nat) : State :=
  { s.putShare { h.takeHead with aged := h.aged.filter (· != i) } with
    clusters := s.clusters.map fun (k : Nat × ClusterSt) =>
      if k.2.reserved = some (h.id, i) then (k.1, { k.2 with reserved := none }) else k }.modDie
    h.die fun d => { d with turns := d.turns.set (h.prioOf i) h.id }

theorem offer_of_offers {s : State} {h : Share} {die i n : Nat} (ho : h.Offers die i) (ht : h.hdr.tilesOf h.phase = [])
    (hc : s.choose h i = some [n]) : s.offer h = some ((s.offered h i).placeTask h i i n []) := by
  unfold State.offer
  simp only [ho.head_eq, ho.headGroup_eq, hc, planFor_of_no_tiles ht]
  rfl

theorem taskPlacement_eq {s : State} {h : Share} {die i n : Nat} (hjobs : s.jobs = []) (hs : s.shares = [h]) (hfront : s.frontEnd = s)
    (ho : h.Offers die i) (hprio : h.hdr.prio ≤ 7) (ht : h.hdr.tilesOf h.phase = []) (hc : s.choose h i = some [n]) :
    exec (.taskPlacement die) s = .next ((s.offered h i).placeTask h i i n []) := by
  show Host.Outcome.next ((s.gangPlacement die).placement die) = _
  rw [gangPlacement_of_no_jobs hjobs, State.placement, hfront, turns_of_offers hjobs hs ho hprio, List.findSome?_singleton, offer_of_offers ho ht hc]

/-! The end of a fill (R296, R297, R350). -/

/-- The fill of a tile has ended with a status. -/
def Tile.filled (x : Tile) (tile : Nat) (st : BitVec 8) : Tile :=
  if x.desc = tile then { x with st := if st != 0 && st != 0x41 then .failed else .resident, status := st, cmd := none } else x

def Task.filled (t : Task) (tile : Nat) (st : BitVec 8) : Task := { t with tiles := t.tiles.map fun x => x.filled tile st }

/-- A fill that is over leaves the engines, and its tile has its status. -/
def State.fillEnded (s : State) (e : Cmd) (id tile : Nat) : State := (s.dropCmd e.id).modTask id fun t => t.filled tile e.status

theorem findCmd_dropCmd_self (s : State) (id : Nat) : (s.dropCmd id).findCmd id = none :=
  List.find?_eq_none.mpr fun d hd => by simpa using (mem_dropCmd hd).2

theorem findTask_fillEnded {s : State} {id : Nat} {t : Task} (ht : s.findTask id = some t) (e : Cmd) (tile : Nat) :
    (s.fillEnded e id tile).findTask id = some (t.filled tile e.status) :=
  findTask_modTask (s := s.dropCmd e.id) (f := fun t => t.filled tile e.status) (fun _ => rfl) ht

/-- The task as it goes on: Resident once each of its tiles is. -/
def Task.settled (t : Task) : Task := if t.reserves then { t with st := if t.ready then .resident else .filling } else t

theorem settled_of_reserves {t : Task} (h : t.reserves = true) : t.settled = { t with st := if t.ready then .resident else .filling } := if_pos h

theorem settled_not_failed {t : Task} (h : t.reserves = true) : t.settled.st ≠ .failed := by
  rw [settled_of_reserves h]
  dsimp only
  split <;> simp

theorem findTask_settleTask {s : State} {id : Nat} {t : Task} (ht : s.findTask id = some t) : (s.settleTask id).findTask id = some t.settled :=
  findTask_modTask (f := Task.settled) (fun k => by unfold Task.settled; split <;> rfl) ht

/-- A task that has not failed keeps its place. -/
theorem dropFailed_of_not_failed {s : State} {id : Nat} {t : Task} (ht : s.findTask id = some t) (hst : t.st ≠ .failed) : s.dropFailed id = s := by
  unfold State.dropFailed
  simp [ht, hst]

theorem onlyFront_dropFailed (s : State) (id : Nat) : OnlyFront s (s.dropFailed id) := by
  unfold State.dropFailed
  split
  · split <;> rfl
  · rfl

theorem tasks_dropFailed (s : State) (id : Nat) : (s.dropFailed id).tasks = s.tasks := by
  unfold State.dropFailed
  split
  · split <;> rfl
  · rfl

theorem tasks_failTask {s : State} {id : Nat} {t : Task} (ht : s.findTask id = some t) (ts : TaskSt) (st : BitVec 8) :
    (s.failTask id ts st).tasks = s.tasks.map fun t => if t.id = id then { t with st := ts } else t := by
  unfold State.failTask
  rw [ht]
  rfl

section
variable {s : State} {id tile : Nat} {t : Task} {e : Cmd} (hfill : s.cmds.find? (fun c => c.kind = .fill id tile) = some e)
  (he : s.findCmd e.id = some e) (hst : e.st = .done) (hset : EnginesSettled s e.agent)
include hfill he hst hset

/-- A fill that is over ends with its status: its task goes on, or fails and the front ends hear of it. -/
theorem fillComplete_eq : s.fillComplete id tile =
    if e.status != 0 && e.status != 0x41 then (((s.fillEnded e id tile).failTask id .failed e.status).dropFailed id).frontEnd
    else ((s.fillEnded e id tile).settleTask id).dropFailed id := by
  have hsettled : (s.dropCmd e.id).settleEng e.agent = s.dropCmd e.id := settleEng_of_settled hset
  unfold State.fillComplete
  simp only [hfill, runUnits_of_done he hst, he, hst, hsettled]
  rfl

variable (ht : s.findTask id = some t)
include ht

theorem fillComplete_good (hr : t.reserves = true) (hgood : e.status = 0 ∨ e.status = 0x41) :
    s.fillComplete id tile = (s.fillEnded e id tile).settleTask id := by
  rw [fillComplete_eq hfill he hst hset, if_neg (by rcases hgood with h | h <;> simp [h]),
    dropFailed_of_not_failed (findTask_settleTask (findTask_fillEnded ht e tile)) (settled_not_failed (t := t.filled tile e.status) hr)]

theorem fillComplete_bad (h0 : e.status ≠ 0) (h41 : e.status ≠ 0x41) : Beside s (s.fillComplete id tile) ∧
    ∀ q, q ∈ (s.fillComplete id tile).tasks → q.id = id → q.st = .failed := by
  rw [fillComplete_eq hfill he hst hset, if_pos (by simpa using ⟨h0, h41⟩)]
  obtain ⟨hfront, htasks, -⟩ := frontWork_frontEnd (((s.fillEnded e id tile).failTask id .failed e.status).dropFailed id)
  have hall := ((onlyFront_failTask _ _ _ _).trans (onlyFront_dropFailed _ id)).trans hfront
  refine ⟨⟨hall.mem, hall.ctxs⟩, fun q hq hid => ?_⟩
  have hmem := htasks hq
  rw [tasks_dropFailed, tasks_failTask (findTask_fillEnded ht e tile)] at hmem
  obtain ⟨k, -, rfl⟩ := List.mem_map.mp hmem
  by_cases hk : k.id = id
  · rw [if_pos hk]
  · rw [if_neg hk] at hid
    exact absurd hid hk

end

/-! Indices that wait (R351). -/

theorem findShare_id {s : State} {id : Nat} {h : Share} (hf : s.findShare id = some h) : h.id = id := by
  simpa using List.find?_some hf

theorem waitsFor_of {h : Share} {i : Nat} (hst : h.st = .running) (hf : h.failed = none)
    (hi : i ∈ h.redo ∨ (h.first + h.next ≤ i ∧ i < h.first + h.count)) (hg : h.hdr.coop = false ∨ (i - h.first) % max 1 h.hdr.gsize = 0) :
    h.waitsFor i = true := by
  simpa [Share.waitsFor, hst, hf] using And.intro hi hg

theorem ageTask_of_waits {s : State} {sh i : Nat} {h : Share} (hf : s.findShare sh = some h) (hw : h.waitsFor i = true) (hi : i ∉ h.aged)
    (ht : h.waitSince i + 2 ^ 20 ≤ s.now) : s.ageTask sh i = s.putShare { h with aged := h.aged ++ [i] } := by
  unfold State.ageTask
  rw [hf]
  exact if_pos (by simpa [hw, hi] using ht)

/-! The cluster that a group keeps (R351). -/

/-- The Free contexts of a cluster. -/
def State.freeIn (s : State) (cl : Nat) : Nat := ((List.range 16).filter fun j => (s.ctxAt (16 * cl + j)).st = .free).length

/-- The clusters of a die that no waiting group keeps. -/
def State.unkept (s : State) (die : Nat) : List Nat :=
  ((upTo 36).map (· + 36 * die)).filter fun cl => !((s.clusterAt cl).reserved.any s.groupHolds)

theorem mem_unkept {s : State} {die cl : Nat} : cl ∈ s.unkept die ↔ (36 * die ≤ cl ∧ cl < 36 * die + 36) ∧
    ¬∃ r, (s.clusterAt cl).reserved = some r ∧ s.groupHolds r = true := by
  have hrange : (∃ j, j < 36 ∧ j + 36 * die = cl) ↔ 36 * die ≤ cl ∧ cl < 36 * die + 36 :=
    ⟨fun ⟨j, hj, hcl⟩ => by omega, fun h => ⟨cl - 36 * die, by omega, by omega⟩⟩
  rw [State.unkept, List.mem_filter, Bool.not_eq_true', ← Bool.not_eq_true, Option.any_eq_true, List.mem_map]
  simp only [upTo, List.mem_range, hrange]

/-- Of the best cluster so far and the next one, the one with more Free contexts, the first of two with as many. -/
def moreFree (free : Nat → Nat) (b : Option Nat) (c : Nat) : Option Nat :=
  match b with
  | some d => if free d < free c then some c else b
  | none => some c

theorem foldl_moreFree (free : Nat → Nat) : ∀ (l : List Nat) (b : Nat), ∃ d, l.foldl (moreFree free) (some b) = some d ∧ d ∈ b :: l ∧
    ∀ c, c ∈ b :: l → free c ≤ free d
  | [], b => ⟨b, rfl, by simp, by simp⟩
  | a :: l, b => by
    rw [List.foldl_cons]
    show ∃ d, l.foldl (moreFree free) (if free b < free a then some a else some b) = _ ∧ _
    split
    · obtain ⟨d, hd, hmem, hmax⟩ := foldl_moreFree free l a
      refine ⟨d, hd, List.mem_cons_of_mem b hmem, fun c hc => ?_⟩
      obtain rfl | hc := List.mem_cons.mp hc
      · have := hmax a List.mem_cons_self
        omega
      · exact hmax c hc
    · obtain ⟨d, hd, hmem, hmax⟩ := foldl_moreFree free l b
      have hb := hmax b List.mem_cons_self
      refine ⟨d, hd, ?_, fun c hc => ?_⟩
      · simp only [List.mem_cons] at hmem ⊢
        tauto
      · obtain rfl | hc := List.mem_cons.mp hc
        · exact hb
        · obtain rfl | hc := List.mem_cons.mp hc
          · omega
          · exact hmax c (List.mem_cons_of_mem b hc)

/-- Of some clusters one is found that has the most Free contexts. -/
theorem exists_moreFree (free : Nat → Nat) {l : List Nat} (h : l ≠ []) : ∃ d, l.foldl (moreFree free) none = some d ∧ d ∈ l ∧
    ∀ c, c ∈ l → free c ≤ free d := by
  obtain ⟨a, l, rfl⟩ := List.exists_cons_of_ne_nil h
  exact foldl_moreFree free l a

/-- A group that has waited long enough keeps the cluster with the most Free contexts. -/
theorem reserveGroup_of_waits {s : State} {sh i : Nat} {h : Share} (hf : s.findShare sh = some h) (hcoop : h.hdr.coop = true)
    (hw : h.waitsFor i = true) (ht : h.waitSince i + 8192 ≤ s.now) (hnone : ∀ k, k ∈ s.clusters → k.2.reserved ≠ some (sh, i))
    (hex : s.unkept h.die ≠ []) : ∃ cl, s.reserveGroup sh i = s.setCluster cl { s.clusterAt cl with reserved := some (sh, i) } ∧
      cl ∈ s.unkept h.die ∧ ∀ k, k ∈ s.unkept h.die → s.freeIn k ≤ s.freeIn cl := by
  obtain ⟨cl, hbest, hmem, hmax⟩ := exists_moreFree s.freeIn hex
  have hany : s.clusters.any (fun k => k.2.reserved = some (sh, i)) = false := by
    rw [List.any_eq_false]
    exact fun k hk => by simpa using hnone k hk
  refine ⟨cl, ?_, hmem, hmax⟩
  have heq : s.reserveGroup sh i = match (s.unkept h.die).foldl (moreFree s.freeIn) none with
      | some cl => s.setCluster cl { s.clusterAt cl with reserved := some (sh, i) }
      | none => s := by
    unfold State.reserveGroup
    simp only [hf]
    exact if_pos (by simp [hcoop, hw, ht, hany])
  rw [heq, hbest]

/-- Settles O47: each event of placement, by the lemma about it. -/
theorem placementEvents : Obligations.PlacementEvents := by
  unfold Obligations.PlacementEvents
  intro s
  refine ⟨?placement, ?fill, ?waiting⟩
  case placement =>
    intro die h i n hjobs hs hfront hdie hst hfailed hredo haged hcoop hprio hnext hi htiles hchoose hids
    have ho : h.Offers die i := ⟨hdie, hst, hfailed, hredo, haged, hcoop, hnext, hi⟩
    obtain ⟨hctxs, hshares, hlast⟩ := placeTask_no_tiles_frame (s.offered h i) h i n
    refine ⟨_, taskPlacement_eq hjobs hs hfront ho hprio htiles hchoose, placeTask_no_tiles hcoop hids, ?_, hctxs, hlast⟩
    rw [hshares]
    show (s.putShare { h.takeHead with aged := h.aged.filter (· != i) }).shares = _
    rw [ho.taken_eq, State.putShare, hs]
    exact congrArg (fun g => [g]) (if_pos rfl)
  case fill =>
    intro id tile t e hfill he hst hset ht hr
    refine ⟨fun hgood => ?_, fun h0 h41 => ⟨_, rfl, fillComplete_bad hfill he hst hset ht h0 h41⟩⟩
    have hok : (e.status != 0 && e.status != 0x41) = false := by rcases hgood with h | h <;> simp [h]
    have hfound := findTask_settleTask (findTask_fillEnded ht e tile)
    rw [settled_of_reserves (t := t.filled tile e.status) hr] at hfound
    refine ⟨_, congrArg Host.Outcome.next (fillComplete_good hfill he hst hset ht hr hgood), ⟨rfl, rfl⟩,
      findCmd_dropCmd_self s e.id, _, hfound, ?_, rfl⟩
    simp only [Task.filled, Tile.filled, hok]
    rfl
  case waiting =>
    intro sh i h hf hst hfailed hi hg
    have hw := waitsFor_of hst hfailed hi hg
    refine ⟨fun hnew ht => ?_, fun hcoop ht hnone kept hkept hex => ?_⟩
    · have hage := ageTask_of_waits hf hw hnew ht
      rw [← findShare_id hf] at hage ⊢
      exact congrArg Host.Outcome.next hage
    · have hun : ∀ k, k ∈ s.unkept h.die ↔ (36 * h.die ≤ k ∧ k < 36 * h.die + 36) ∧ ¬kept k := fun k => by rw [mem_unkept, hkept]
      obtain ⟨k, hlo, hhi, hk⟩ := hex
      obtain ⟨cl, heq, hmem, hmax⟩ := reserveGroup_of_waits hf hcoop hw ht hnone (List.ne_nil_of_mem ((hun k).mpr ⟨⟨hlo, hhi⟩, hk⟩))
      obtain ⟨⟨hcllo, hclhi⟩, hclk⟩ := (hun cl).mp hmem
      exact ⟨_, congrArg Host.Outcome.next heq, ⟨rfl, rfl⟩, cl, hcllo, hclhi, hclk,
        congrArg ClusterSt.reserved (State.clusterAt_setCluster_self _ _ _), fun k hk => clusterAt_setCluster_ne _ _ hk,
        fun k hlo hhi hk => hmax k ((hun k).mpr ⟨⟨hlo, hhi⟩, hk⟩)⟩

end Sys2Proof.Machine
end

section
/-! PROOFS. spec/18_fabric.md R373, R376, R383, spec/16_scheduling.md R343, R411: the messages of launches, as they are taken up and as they
are sent. -/

namespace Sys2Proof.Machine

open Sys2Proof.Safety

/-! A message that has arrived. -/

/-- Without job control each die takes its messages up at once. -/
theorem keepsMsgs_of_stands {s : State} {m : Nat} {fl : Flight} (h : Stands s m fl) (die job : Nat) : s.keepsMsgs die job = false := by
  obtain ⟨-, hjobs⟩ := h
  unfold State.keepsMsgs State.jobCtl JobCtl.stOf
  rw [hjobs]
  simp

theorem atTarget_of_arrived {s : State} {m op : Nat} {fl : Flight} (h : Arrived s m fl) (hop : fl.pkt.op = op) : s.atTarget fl op = true := by
  obtain ⟨-, ⟨d, hloc | hloc⟩, hdest, -, -, hhead, hout, -⟩ := h <;>
    simp [State.atTarget, hloc, hdest, hop, hhead, hout]

theorem ctlHere_of_arrived {s : State} {m op : Nat} {fl : Flight} (h : Arrived s m fl) (hop : fl.pkt.op = op) (f : State → Flight → State) :
    s.ctlHere m op f = f s fl := by
  have hat := atTarget_of_arrived h hop
  obtain ⟨hf, -, -, hcrc, hfits, -⟩ := h
  unfold State.ctlHere
  simp [hf, hat, Packet.unfit, hcrc, hfits]

/-- A launch message that has arrived is taken up. -/
theorem launchMsg_of_stands {s : State} {m : Nat} {fl : Flight} (h : Stands s m fl) (hop : fl.pkt.op = 0x22) (f : State → Flight → State) :
    s.launchMsg m f = f s fl := by
  obtain ⟨harrived, -⟩ := h
  have hhere := ctlHere_of_arrived harrived hop f
  obtain ⟨hf, ⟨d, hloc | hloc⟩, -⟩ := harrived <;>
    simp [State.launchMsg, hf, hloc, hhere]

/-- One that stands here is kept at its die. -/
theorem keepMsg_of_stands {s : State} {m : Nat} {fl : Flight} (h : Stands s m fl) (die : Nat) :
    s.keepMsg fl die = s.moveFlight fl (.held die) fl.pkt := by
  obtain ⟨⟨-, ⟨d, hloc | hloc⟩, -⟩, -⟩ := h <;>
    simp [State.keepMsg, hloc]

theorem id_lt_of_stands {s : State} {m : Nat} {fl : Flight} (h : Stands s m fl) : m < s.fab.nextId := by
  obtain ⟨⟨-, -, -, -, -, -, -, hm⟩, -⟩ := h
  exact hm

theorem findFlight_dropFlight_self (s : State) (m : Nat) : (s.dropFlight m).findFlight m = none :=
  List.find?_eq_none.mpr fun g hg => by
    have := (List.mem_filter.mp hg).2
    simpa using this

/-! Messages sent: packets more in the device. -/

/-- t is s with packets more, that bear new numbers. -/
def Joins (s t : State) : Prop := ∃ l, t = s.joined l ∧ ∀ g, g ∈ l → s.fab.nextId ≤ g.id

namespace Joins

variable {s t u : State}

theorem refl (s : State) : Joins s s := ⟨[], by simp [State.joined], by simp⟩

theorem trans (h : Joins s t) (k : Joins t u) : Joins s u := by
  obtain ⟨l, rfl, hl⟩ := h
  obtain ⟨m, rfl, hm⟩ := k
  refine ⟨l ++ m, joined_joined s l m, fun g hg => ?_⟩
  obtain hg | hg := List.mem_append.mp hg
  · exact hl g hg
  · exact Nat.le_trans (Nat.le_add_right _ _) (hm g hg)

/-- Nothing but the packets changes. -/
theorem eq (h : Joins s t) : t = { s with fab := t.fab } := by
  obtain ⟨l, rfl, -⟩ := h
  rfl

theorem beside (h : Joins s t) : Beside s t := by
  rw [h.eq]
  exact ⟨rfl, rfl⟩

/-- Under an old number stands what stood there. -/
theorem findFlight (h : Joins s t) {m : Nat} (hm : m < s.fab.nextId) : t.findFlight m = s.findFlight m := by
  obtain ⟨l, rfl, hl⟩ := h
  have hnone : l.find? (fun g => decide (g.id = m)) = none := List.find?_eq_none.mpr fun g hg => by
    have := hl g hg
    simp only [decide_eq_true_eq]
    omega
  show (s.fab.flights ++ l).find? _ = s.fab.flights.find? _
  rw [List.find?_append, hnone, Option.or_none]

theorem sent (h : Joins s t) {die : Nat} {P : Packet → Prop} (hs : Sent s die P) : Sent t die P := by
  obtain ⟨l, rfl, -⟩ := h
  obtain ⟨g, hg, hP⟩ := hs
  exact ⟨g, List.mem_append_left l hg, hP⟩

end Joins

/-- A message that has been taken up is gone, whatever is sent after. -/
theorem Joins.findFlight_none {s t u : State} {m : Nat} {fl : Flight} (h : Joins t u) (hs : Stands s m fl) (ht : t.fab = (s.dropFlight m).fab) :
    u.findFlight m = none := by
  have hm := id_lt_of_stands hs
  rw [h.findFlight (by rw [ht]; exact hm), State.findFlight, ht]
  exact findFlight_dropFlight_self s m

/-- t holds a message that says c to the control unit of a device, in the injection queue of a die. -/
def Says (t : State) (die dev : Nat) (c : Ctl) : Prop := Sent t die fun q => q.dest = dev ∧ q.op = 0x22 ∧ q.ctl = c

theorem sendCtl_joins (s : State) (die dev job : Nat) (c : Ctl) : Joins s (s.sendCtl die dev 0x22 job c) ∧
    Says (s.sendCtl die dev 0x22 job c) die dev c :=
  ⟨⟨[_], send_eq _ _ _, fun g hg => by rw [List.mem_singleton.mp hg]; exact Nat.le_refl _⟩, _,
    List.mem_append_right _ List.mem_cons_self, rfl, rfl, rfl, rfl⟩

theorem tellOrigin_joins (s : State) (die : Nat) (k : LaunchKey) (c : Ctl) : Joins s (s.tellOrigin die k c) ∧
    Says (s.tellOrigin die k c) die (s.mapDev k.job k.dev) c := sendCtl_joins s die _ _ c

theorem Joins.mapDev {s t : State} (h : Joins s t) (j d : Nat) : t.mapDev j d = s.mapDev j d := by rw [h.eq]; rfl

/-- One message to each of some named dies. -/
theorem foldl_sendCtl_joins (die job : Nat) (f : Nat → Nat → Ctl) : ∀ (ps : List Part) (s : State),
    Joins s (ps.foldl (fun s p => s.sendCtl die (s.mapDev job p.dev) 0x22 job (f p.dev p.die)) s) ∧
    ∀ p, p ∈ ps → Says (ps.foldl (fun s p => s.sendCtl die (s.mapDev job p.dev) 0x22 job (f p.dev p.die)) s) die (s.mapDev job p.dev)
      (f p.dev p.die)
  | [], s => ⟨.refl s, by simp⟩
  | p :: ps, s => by
    obtain ⟨hfirst, hsays⟩ := sendCtl_joins s die (s.mapDev job p.dev) job (f p.dev p.die)
    obtain ⟨hrest, hall⟩ := foldl_sendCtl_joins die job f ps (s.sendCtl die (s.mapDev job p.dev) 0x22 job (f p.dev p.die))
    refine ⟨hfirst.trans hrest, fun q hq => ?_⟩
    obtain rfl | hq := List.mem_cons.mp hq
    · exact hrest.sent hsays
    · rw [← hfirst.mapDev]
      exact hall q hq

/-- The origin of a launch tells each die that the launch names (R343, R411). -/
theorem tellDies_joins (s : State) (l : Launch) (f : Nat → Nat → Ctl) : Joins s (s.tellDies l f) ∧
    ∀ p, p ∈ l.hdr.parts → Says (s.tellDies l f) l.die (s.mapDev l.job p.dev) (f p.dev p.die) :=
  foldl_sendCtl_joins l.die l.job f l.hdr.parts s

end Sys2Proof.Machine
end

section
/-! PROOFS. spec/16_scheduling.md R343, R344, R348 to R350: launches at their origin. -/

namespace Sys2Proof.Machine

open Sys2Proof.Safety

/-! A launch by its name. -/

theorem findLaunch_mem {s : State} {id : Nat} {l : Launch} (h : s.findLaunch id = some l) : l ∈ s.launches := List.mem_of_find?_eq_some h

theorem launchOf_mem {s : State} {k : LaunchKey} {l : Launch} (h : s.launchOf k = some l) : l ∈ s.launches := List.mem_of_find?_eq_some h

theorem launchOf_key {s : State} {k : LaunchKey} {l : Launch} (h : s.launchOf k = some l) : l.key = k := by
  simpa using List.find?_some h

/-- The launch that is put in place of one of its name is found there. -/
theorem launchOf_putLaunch {s : State} {l l' : Launch} (h : l ∈ s.launches) (hk : l'.key = l.key) : (s.putLaunch l').launchOf l.key = some l' := by
  have hpred : ((fun q : Launch => decide (q.key = l.key)) ∘ fun q => if q.key = l'.key then l' else q) = fun q => decide (q.key = l.key) := by
    funext q
    by_cases hq : q.key = l.key <;> simp [hq, hk]
  obtain ⟨q, hq⟩ := Option.isSome_iff_exists.mp (List.find?_isSome (p := fun q : Launch => decide (q.key = l.key)).mpr ⟨l, h, by simp⟩)
  have hqk : q.key = l'.key := by rw [hk]; simpa using List.find?_some hq
  show (s.launches.map fun q => if q.key = l'.key then l' else q).find? (fun q => decide (q.key = l.key)) = _
  rw [List.find?_map, hpred, hq, Option.map_some, if_pos hqk]

theorem mem_putLaunch {s : State} {l l' : Launch} (h : l ∈ s.launches) (hk : l'.key = l.key) : l' ∈ (s.putLaunch l').launches :=
  List.mem_map.mpr ⟨l, h, if_pos hk.symm⟩

theorem Joins.launchOf {s t : State} (h : Joins s t) (k : LaunchKey) : t.launchOf k = s.launchOf k := by rw [h.eq]; rfl

/-! The end of a launch (R343, R344). -/

theorem endToken_eq (s : State) (agent : Nat) (k : Tok) (rep : Nat) (st : BitVec 8) (va : Word) : s.endToken agent k rep st va =
    { s with ctxs := (s.endToken agent k rep st va).ctxs, cmds := (s.endToken agent k rep st va).cmds } := by
  unfold State.endToken
  split
  · rfl
  · dsimp only
    split <;> rfl

/-- s without the launches of l's name. -/
def State.withoutLaunch (s : State) (l : Launch) : State :=
  { s with launches := s.launches.filter fun m => !(m.id = l.id && m.job = l.job && m.die = l.die && m.jd = l.jd) }

theorem key_ne_of_mem_withoutLaunch {s : State} {l x : Launch} (h : x ∈ (s.withoutLaunch l).launches) : x.key ≠ l.key := by
  have hne := (List.mem_filter.mp h).2
  rintro hk
  obtain ⟨hjob, hjd, hdie, hid⟩ := LaunchKey.mk.inj hk
  simp [hjob, hjd, hdie, hid] at hne

/-- What the end of a launch with a status leaves: the launch and its command are gone, the token of the command is free, and where the
status is an error each named die is told of it. -/
structure LaunchOver (s u : State) (l : Launch) (c : Cmd) (st : BitVec 8) : Prop where
  mem : u.mem = s.mem
  gone : ∀ x, x ∈ u.launches → x.key ≠ l.key
  ended : u.findCmd c.id = none
  token : TokenEnds s u c st c.raceVa
  flights : ∀ m, m < s.fab.nextId → u.findFlight m = s.findFlight m
  told : st ≠ 0 → ∀ p, p ∈ l.hdr.parts → Says u l.die (s.mapDev l.job p.dev) (.ended l.key p.dev p.die st)

theorem LaunchOver.launchOf {s u : State} {l : Launch} {c : Cmd} {st : BitVec 8} (h : LaunchOver s u l c st) : u.launchOf l.key = none :=
  List.find?_eq_none.mpr fun x hx => by simpa using h.gone x hx

theorem LaunchOver.findFlight_none {s u : State} {m : Nat} {fl : Flight} {l : Launch} {c : Cmd} {st : BitVec 8}
    (h : LaunchOver (s.dropFlight m) u l c st) (hs : Stands s m fl) : u.findFlight m = none := by
  have hm := id_lt_of_stands hs
  exact (h.flights m hm).trans (findFlight_dropFlight_self s m)

/-- A launch that has not freed its token ends with its command. -/
theorem finishLaunch_of_slot {s : State} {l : Launch} {c : Cmd} (st : BitVec 8) (hc : s.findCmd l.cmd = some c) (hk : c.kind = .slot) :
    s.finishLaunch l st = (s.withoutLaunch l).endCmd c st := by
  have hc' : (s.withoutLaunch l).findCmd l.cmd = some c := hc
  unfold State.finishLaunch
  show (match (s.withoutLaunch l).findCmd l.cmd with | none => _ | some c => _) = _
  simp only [hc', hk]
  rfl

theorem endLaunch_over {s : State} {l : Launch} {c : Cmd} (st : BitVec 8) (hc : s.findCmd l.cmd = some c) (hk : c.kind = .slot)
    (hset : EnginesSettled s c.agent) : LaunchOver s (s.endLaunch l st) l c st := by
  have htell : ∃ t, Joins s t ∧ s.endLaunch l st = t.finishLaunch l st ∧
      (st ≠ 0 → ∀ p, p ∈ l.hdr.parts → Says t l.die (s.mapDev l.job p.dev) (.ended l.key p.dev p.die st)) := by
    obtain ⟨hjoins, hsays⟩ := tellDies_joins s l fun jd d => .ended l.key jd d st
    by_cases h0 : st = 0
    · exact ⟨s, .refl s, by rw [State.endLaunch, if_pos h0], fun h => absurd h0 h⟩
    · exact ⟨_, hjoins, by rw [State.endLaunch, if_neg h0], fun _ => hsays⟩
  obtain ⟨t, hjoins, heq, htold⟩ := htell
  have ht := hjoins.eq
  have hct : t.findCmd l.cmd = some c := by rw [ht]; exact hc
  have hsett : EnginesSettled (t.withoutLaunch l) c.agent := by rw [ht]; exact hset
  rw [heq, finishLaunch_of_slot st hct hk]
  have hend := endCmd_of_settled (s := t.withoutLaunch l) st hk hsett
  have hfab : ((t.withoutLaunch l).endCmd c st).fab = t.fab := by rw [hend, endToken_eq]; rfl
  have hlaunches : ((t.withoutLaunch l).endCmd c st).launches = (t.withoutLaunch l).launches := by rw [hend, endToken_eq]; rfl
  refine ⟨?_, fun x hx => ?_, ?_, ?_, fun m hm => ?_, fun h0 p hp => ?_⟩
  · rw [endCmd_mem st hk hsett]
    exact (congrArg State.mem ht).trans rfl
  · rw [hlaunches] at hx
    exact key_ne_of_mem_withoutLaunch hx
  · exact List.find?_eq_none.mpr fun d hd => by simpa using endCmd_gone st hk hsett hd
  · exact tokenEnds_endCmd st hk hsett ((congrArg State.ctxs ht).trans rfl)
  · rw [← hjoins.findFlight hm, State.findFlight, hfab]
    rfl
  · unfold Says Sent
    rw [hfab]
    exact htold h0 p hp

/-! A DETACH launch frees its token (R344). -/

theorem notify_kind (agent : Nat) (k : Tok) (st : BitVec 8) (va : Word) (c : Cmd) : (notify agent k st va c).kind = c.kind := by
  unfold notify
  split
  · rfl
  · dsimp only
    split <;> split <;> split <;> rfl

theorem findCmd_map {s : State} {f : Cmd → Cmd} {id : Nat} {c : Cmd} (hid : ∀ d, (f d).id = d.id) (h : s.findCmd id = some c) :
    { s with cmds := s.cmds.map f }.findCmd id = some (f c) := by
  have hpred : ((fun d : Cmd => decide (d.id = id)) ∘ f) = fun d => decide (d.id = id) := by
    funext d
    show decide ((f d).id = id) = _
    rw [hid]
  have h' : s.cmds.find? (fun d => decide (d.id = id)) = some c := h
  show (s.cmds.map f).find? (fun d => decide (d.id = id)) = _
  rw [List.find?_map, hpred, h', Option.map_some]

/-- The end of a token leaves each command its kind. -/
theorem findCmd_endToken {s : State} {id : Nat} {c : Cmd} (h : s.findCmd id = some c) (agent : Nat) (k : Tok) (rep : Nat) (st : BitVec 8)
    (va : Word) : ∃ d, (s.endToken agent k rep st va).findCmd id = some d ∧ d.kind = c.kind := by
  unfold State.endToken
  split
  · exact ⟨c, h, rfl⟩
  · dsimp only
    split
    · exact ⟨c, h, rfl⟩
    · exact ⟨_, findCmd_map (notify_id _ _ _ _) h, notify_kind _ _ _ _ _⟩

/-- The command of a DETACH launch stays to write its completion; its token is free. -/
def State.detach (s : State) (c : Cmd) : State := (s.putCmd { c with kind := .detach, kd := 0 }).endToken c.agent c.kd c.rep 0 0

theorem detach_eq (s : State) (c : Cmd) : s.detach c = { s with ctxs := (s.detach c).ctxs, cmds := (s.detach c).cmds } := by
  unfold State.detach
  rw [endToken_eq]
  rfl

theorem findCmd_detach {s : State} {id : Nat} {c : Cmd} (h : s.findCmd id = some c) :
    ∃ d, (s.detach c).findCmd c.id = some d ∧ d.kind = .detach := by
  obtain rfl := findCmd_id h
  exact findCmd_endToken (findCmd_putCmd (c' := { c with kind := .detach, kd := 0 }) h rfl) _ _ _ _ _

/-! A launch that is failing (R350). -/

/-- The launch as it fails with a status. -/
def Launch.failing (l : Launch) (st : BitVec 8) : Launch := { l with st := .failing, status := st }

/-- The launch is failing at its origin, and its dies are told. -/
def State.startFailing (s : State) (l : Launch) (st : BitVec 8) : State :=
  (s.putLaunch (l.failing st)).tellDies (l.failing st) fun jd d => .ended l.key jd d st

theorem startFailing_joins (s : State) (l : Launch) (st : BitVec 8) : Joins (s.putLaunch (l.failing st)) (s.startFailing l st) ∧
    ∀ p, p ∈ l.hdr.parts → Says (s.startFailing l st) l.die (s.mapDev l.job p.dev) (.ended l.key p.dev p.die st) :=
  tellDies_joins (s.putLaunch (l.failing st)) (l.failing st) _

theorem failLaunch_of_running {s : State} {l : Launch} (st : BitVec 8) (h : l.st = .running) :
    s.failLaunch l st = (s.startFailing l st, l.failing st) := by
  unfold State.failLaunch
  rw [if_neg (by rw [h]; decide)]
  rfl

/-! Phases (R343, R349). -/

/-- The launch stands at its origin as l, and its dies are told to start phase p. -/
def State.startPhase (s : State) (l : Launch) (p : Nat) : State := (s.putLaunch l).tellDies l fun jd d => .start l.key jd d p

theorem startPhase_joins (s : State) (l : Launch) (p : Nat) : Joins (s.putLaunch l) (s.startPhase l p) ∧
    ∀ q, q ∈ l.hdr.parts → Says (s.startPhase l p) l.die (s.mapDev l.job q.dev) (.start l.key q.dev q.die p) :=
  tellDies_joins (s.putLaunch l) l _

theorem phaseOver_waits {s : State} {l : Launch} (h : ∃ p, p ∈ l.hdr.parts ∧ (p.dev, p.die) ∉ l.reported) :
    s.phaseOver l = s.putLaunch l := by
  obtain ⟨p, hp, hn⟩ := h
  have hall : l.hdr.parts.all (fun p => l.reported.contains (p.dev, p.die)) = false := by
    rw [List.all_eq_false]
    exact ⟨p, hp, by simpa using hn⟩
  unfold State.phaseOver
  rw [hall]
  rfl

/-- Every die has reported a phase of a launch that runs: the next phase starts, or the launch ends. -/
theorem phaseOver_all {l : Launch} (h : ∀ p, p ∈ l.hdr.parts → (p.dev, p.die) ∈ l.reported) (hst : l.st = .running) (s : State) :
    s.phaseOver l = if l.phase + 1 < l.hdr.nphase then
        s.startPhase { l with phase := l.phase + 1, reported := [], since := s.now } (l.phase + 1)
      else s.endLaunch l 0 := by
  have hall : l.hdr.parts.all (fun p => l.reported.contains (p.dev, p.die)) = true := by
    rw [List.all_eq_true]
    exact fun p hp => by simpa using h p hp
  unfold State.phaseOver
  rw [hall, hst]
  rfl

end Sys2Proof.Machine
end

section
/-! PROOFS. spec/16_scheduling.md R343 to R350: the messages of launches at their origin. -/

namespace Sys2Proof.Machine

open Sys2Proof.Safety

/-- The launch that runs from now on, once die of job device jd has accepted it. -/
def Launch.started (l : Launch) (jd die now : Nat) : Launch :=
  { l with accepted := l.accepted ++ [(jd, die)], st := .running, since := now }

/-- The launch once die of job device jd has reported its phase. -/
def Launch.reportedBy (l : Launch) (jd die : Nat) : Launch := { l with reported := l.reported ++ [(jd, die)] }

section
variable {s : State} {m : Nat} {fl : Flight} {key : LaunchKey} {jd die : Nat} {l : Launch} (hs : Stands s m fl) (hop : fl.pkt.op = 0x22)
  (hl : s.launchOf key = some l)
include hs hop hl

/-! Acceptances (R343, R344, R349). -/

section
variable (hctl : fl.pkt.ctl = .accepted key jd die) (hst : l.st = .distributing)
include hctl hst

/-- With other dies still to answer, the origin notes the one that has accepted. -/
theorem acceptance_waits (h : ∃ p, p ∈ l.hdr.parts ∧ (p.dev, p.die) ∉ l.accepted ∧ (p.dev, p.die) ≠ (jd, die)) :
    s.acceptance m = (s.dropFlight m).putLaunch { l with accepted := l.accepted ++ [(jd, die)] } := by
  obtain ⟨p, hp, hnot, hne⟩ := h
  have hall : l.hdr.parts.all (fun p => (l.accepted ++ [(jd, die)]).contains (p.dev, p.die)) = false := by
    rw [List.all_eq_false]
    exact ⟨p, hp, by simpa [hnot] using hne⟩
  have hl' : (s.dropFlight m).launchOf key = some l := hl
  unfold State.acceptance
  rw [launchMsg_of_stands hs hop]
  simp only [hctl, keepsMsgs_of_stands hs, hl', hst, hall]
  rfl

/-- With the last one phase 0 starts, and a DETACH launch frees its token. -/
theorem acceptance_last {c : Cmd} (hc : s.findCmd l.cmd = some c)
    (h : ∀ p, p ∈ l.hdr.parts → (p.dev, p.die) ∈ l.accepted ∨ (p.dev, p.die) = (jd, die)) : s.acceptance m = if l.hdr.detach then
        ((s.dropFlight m).startPhase (l.started jd die s.now) 0).detach c
      else (s.dropFlight m).startPhase (l.started jd die s.now) 0 := by
  have hall : l.hdr.parts.all (fun p => (l.accepted ++ [(jd, die)]).contains (p.dev, p.die)) = true := by
    rw [List.all_eq_true]
    exact fun p hp => by simpa using h p hp
  have hl' : (s.dropFlight m).launchOf key = some l := hl
  have hc' : ((s.dropFlight m).startPhase (l.started jd die s.now) 0).findCmd l.cmd = some c := by
    rw [(startPhase_joins _ _ _).1.eq]
    exact hc
  have heq : s.acceptance m = match ((s.dropFlight m).startPhase (l.started jd die s.now) 0).findCmd l.cmd with
      | some c => if l.hdr.detach then ((s.dropFlight m).startPhase (l.started jd die s.now) 0).detach c
          else (s.dropFlight m).startPhase (l.started jd die s.now) 0
      | none => (s.dropFlight m).startPhase (l.started jd die s.now) 0 := by
    unfold State.acceptance
    rw [launchMsg_of_stands hs hop]
    simp only [hctl, keepsMsgs_of_stands hs, hl', hst, hall]
    rfl
  rw [heq, hc']

end

/-! Refusals and failures (R343, R350). -/

theorem refusal_refused {st : BitVec 8} (hctl : fl.pkt.ctl = .refused key jd die st) : s.refusal m =
    if l.st = .distributing then (s.dropFlight m).endLaunch l st else ((s.dropFlight m).failLaunch l st).1 := by
  have hl' : (s.dropFlight m).launchOf key = some l := hl
  unfold State.refusal
  rw [launchMsg_of_stands hs hop]
  simp only [hctl, keepsMsgs_of_stands hs, hl']
  rfl

/-! Reports (R343, R349, R350). -/

section
variable {p : Nat} {failed : Option (BitVec 8)} (hctl : fl.pkt.ctl = .report key jd die p failed) (hst : l.st = .running) (hp : l.phase = p)
include hctl hst hp

theorem phaseReport_good (hf : failed = none) : s.phaseReport m = (s.dropFlight m).phaseOver (l.reportedBy jd die) := by
  have hl' : (s.dropFlight m).launchOf key = some l := hl
  have hgo : (decide (l.st = .distributing) || l.phase != p) = false := by simp [hst, hp]
  unfold State.phaseReport
  rw [launchMsg_of_stands hs hop]
  simp only [hctl, keepsMsgs_of_stands hs, hl', hgo, hf]
  rfl

theorem phaseReport_failed {st : BitVec 8} (hf : failed = some st) : s.phaseReport m =
    ((s.dropFlight m).startFailing l st).phaseOver ((l.failing st).reportedBy jd die) := by
  have hl' : (s.dropFlight m).launchOf key = some l := hl
  have hgo : (decide (l.st = .distributing) || l.phase != p) = false := by simp [hst, hp]
  unfold State.phaseReport
  rw [launchMsg_of_stands hs hop]
  simp only [hctl, keepsMsgs_of_stands hs, hl', hgo, hf, failLaunch_of_running st hst]
  rfl

end

end

/-! Timeouts (R344, R350). -/

/-- The dies whose report is due and that no link reaches any more. -/
def State.unreachable (s : State) (l : Launch) : List (Nat × Nat) :=
  (l.hdr.parts.filter fun p => !l.reported.contains (p.dev, p.die) && !s.reaches (s.mapDev l.job p.dev)).map fun p => (p.dev, p.die)

theorem answerTimeout_distributing {s : State} {id : Nat} {l : Launch} (hl : s.findLaunch id = some l) (ht : l.since + s.timeout ≤ s.now)
    (hst : l.st = .distributing) : s.answerTimeout id = s.endLaunch l 0x40 := by
  unfold State.answerTimeout
  simp only [hl, hst, if_neg (Nat.not_lt.mpr ht), if_true]

theorem answerTimeout_running {s : State} {id : Nat} {l : Launch} (hl : s.findLaunch id = some l) (ht : l.since + s.timeout ≤ s.now)
    (hst : l.st = .running) (hgone : s.unreachable l ≠ []) : s.answerTimeout id =
      (s.startFailing l 0x40).phaseOver { l.failing 0x40 with reported := l.reported ++ s.unreachable l } := by
  have hemp : (s.unreachable l).isEmpty = false := by rw [List.isEmpty_eq_false_iff]; exact hgone
  unfold State.unreachable at hemp
  unfold State.answerTimeout
  simp only [hl, if_neg (Nat.not_lt.mpr ht), failLaunch_of_running _ hst, hemp]
  rw [hst]
  rfl

end Sys2Proof.Machine
end

section
/-! PROOFS. spec/16_scheduling.md R343, R344, R349, R350: the events of launches at their origin. -/

namespace Sys2Proof.Machine

open Sys2Proof.Safety

section
variable {s : State} {m : Nat} {fl : Flight} {key : LaunchKey} {jd die : Nat} {l : Launch} {c : Cmd} (hs : Stands s m fl)
  (hop : fl.pkt.op = 0x22) (hl : s.launchOf key = some l)
include hs hop hl

/-! Acceptances (R343, R344, R349). -/

theorem launchAcceptance_waits (hctl : fl.pkt.ctl = .accepted key jd die) (hst : l.st = .distributing)
    (h : ∃ p, p ∈ l.hdr.parts ∧ (p.dev, p.die) ∉ l.accepted ∧ (p.dev, p.die) ≠ (jd, die)) : Gives (exec (.launchAcceptance m) s) fun u =>
      Beside s u ∧ u.cmds = s.cmds ∧ u.findFlight m = none ∧ u.launchOf key = some { l with accepted := l.accepted ++ [(jd, die)] } := by
  obtain rfl := launchOf_key hl
  exact ⟨_, congrArg Host.Outcome.next (acceptance_waits hs hop hl hctl hst h), ⟨rfl, rfl⟩, rfl, findFlight_dropFlight_self s m,
    launchOf_putLaunch (s := s.dropFlight m) (launchOf_mem hl) rfl⟩

theorem launchAcceptance_last (hctl : fl.pkt.ctl = .accepted key jd die) (hst : l.st = .distributing) (hc : s.findCmd l.cmd = some c)
    (h : ∀ p, p ∈ l.hdr.parts → (p.dev, p.die) ∈ l.accepted ∨ (p.dev, p.die) = (jd, die)) : Gives (exec (.launchAcceptance m) s) fun u =>
      u.mem = s.mem ∧ u.findFlight m = none ∧ u.launchOf key = some (l.started jd die s.now) ∧
      (∀ p, p ∈ l.hdr.parts → Says u l.die (s.mapDev l.job p.dev) (.start key p.dev p.die 0)) ∧
      (l.hdr.detach = true → TokenEnds s u c 0 0 ∧ ∃ d, u.findCmd c.id = some d ∧ d.kind = .detach) ∧
      (l.hdr.detach = false → u.ctxs = s.ctxs ∧ u.cmds = s.cmds) := by
  obtain rfl := launchOf_key hl
  obtain ⟨hjoins, hsays⟩ := startPhase_joins (s.dropFlight m) (l.started jd die s.now) 0
  have hlast := acceptance_last hs hop hl hctl hst hc h
  generalize (s.dropFlight m).startPhase (l.started jd die s.now) 0 = t at hjoins hsays hlast
  have hgone : t.findFlight m = none := hjoins.findFlight_none hs rfl
  have hfound : t.launchOf l.key = some (l.started jd die s.now) :=
    (hjoins.launchOf l.key).trans (launchOf_putLaunch (s := s.dropFlight m) (launchOf_mem hl) rfl)
  have ht := hjoins.eq
  refine ⟨_, congrArg Host.Outcome.next hlast, ?_⟩
  cases hd : l.hdr.detach with
  | true =>
    have hcmd : t.findCmd l.cmd = some c := by rw [ht]; exact hc
    have hk : (t.ctxAt c.agent).k = (s.ctxAt c.agent).k := by rw [ht]; rfl
    have hu := detach_eq t c
    rw [if_pos rfl]
    refine ⟨?_, ?_, ?_, ?_, fun _ => ⟨tokenEnds_endToken (c := c) 0 0 hk, findCmd_detach hcmd⟩, nofun⟩
    · rw [hu, ht]
      rfl
    · rw [hu]
      exact hgone
    · rw [hu]
      exact hfound
    · rw [hu]
      exact hsays
  | false =>
    rw [if_neg Bool.false_ne_true]
    exact ⟨by rw [ht]; rfl, hgone, hfound, hsays, nofun, fun _ => by rw [ht]; exact ⟨rfl, rfl⟩⟩

/-! Refusals and failures (R343, R350). -/

theorem launchRefusal_distributing {st : BitVec 8} (hctl : fl.pkt.ctl = .refused key jd die st) (hc : s.findCmd l.cmd = some c)
    (hk : c.kind = .slot) (hset : EnginesSettled s c.agent) (hst : l.st = .distributing) :
    Gives (exec (.launchRefusal m) s) fun u => LaunchOver (s.dropFlight m) u l c st := by
  have heq := refusal_refused hs hop hl hctl
  rw [if_pos hst] at heq
  exact ⟨_, congrArg Host.Outcome.next heq, endLaunch_over st hc hk hset⟩

theorem launchRefusal_running {st : BitVec 8} (hctl : fl.pkt.ctl = .refused key jd die st) (hst : l.st = .running) :
    Gives (exec (.launchRefusal m) s) fun u => Beside s u ∧ u.cmds = s.cmds ∧ u.findFlight m = none ∧ u.launchOf key = some (l.failing st) ∧
      ∀ p, p ∈ l.hdr.parts → Says u l.die (s.mapDev l.job p.dev) (.ended key p.dev p.die st) := by
  obtain rfl := launchOf_key hl
  have heq := refusal_refused hs hop hl hctl
  rw [if_neg (by rw [hst]; decide), failLaunch_of_running st hst] at heq
  obtain ⟨hjoins, hsays⟩ := startFailing_joins (s.dropFlight m) l st
  exact ⟨_, congrArg Host.Outcome.next heq, hjoins.beside, by rw [hjoins.eq]; rfl,
    hjoins.findFlight_none hs rfl,
    (hjoins.launchOf l.key).trans (launchOf_putLaunch (s := s.dropFlight m) (launchOf_mem hl) rfl), hsays⟩

/-! Reports (R343, R349, R350). -/

section
variable {p : Nat} {failed : Option (BitVec 8)} (hctl : fl.pkt.ctl = .report key jd die p failed) (hst : l.st = .running) (hp : l.phase = p)
include hctl hst hp

/-- With other dies still to report, the origin notes the one that has; where its phase has failed, the launch is failing. -/
theorem phaseReport_waits (h : ∃ q, q ∈ l.hdr.parts ∧ (q.dev, q.die) ∉ l.reported ∧ (q.dev, q.die) ≠ (jd, die)) :
    Gives (exec (.phaseReport m) s) fun u => Beside s u ∧ u.findFlight m = none ∧
      (failed = none → u.launchOf key = some (l.reportedBy jd die)) ∧
      ∀ st, failed = some st → u.launchOf key = some ((l.failing st).reportedBy jd die) ∧
        ∀ q, q ∈ l.hdr.parts → Says u l.die (s.mapDev l.job q.dev) (.ended key q.dev q.die st) := by
  obtain rfl := launchOf_key hl
  obtain ⟨q, hq, hnot, hne⟩ := h
  have hopen : ∃ q, q ∈ l.hdr.parts ∧ (q.dev, q.die) ∉ l.reported ++ [(jd, die)] := ⟨q, hq, by simpa [hnot] using hne⟩
  cases hf : failed with
  | none =>
    have heq := (phaseReport_good hs hop hl hctl hst hp hf).trans (phaseOver_waits (l := l.reportedBy jd die) hopen)
    exact ⟨_, congrArg Host.Outcome.next heq, ⟨rfl, rfl⟩, findFlight_dropFlight_self s m,
      fun _ => launchOf_putLaunch (s := s.dropFlight m) (launchOf_mem hl) rfl, nofun⟩
  | some st =>
    have heq := (phaseReport_failed hs hop hl hctl hst hp hf).trans (phaseOver_waits (l := (l.failing st).reportedBy jd die) hopen)
    obtain ⟨hjoins, hsays⟩ := startFailing_joins (s.dropFlight m) l st
    have hmem : l.failing st ∈ ((s.dropFlight m).startFailing l st).launches := by
      rw [hjoins.eq]
      exact mem_putLaunch (s := s.dropFlight m) (launchOf_mem hl) rfl
    refine ⟨_, congrArg Host.Outcome.next heq, hjoins.beside, hjoins.findFlight_none hs rfl, nofun, ?_⟩
    rintro _ ⟨⟩
    exact ⟨launchOf_putLaunch (l := l.failing st) hmem rfl, hsays⟩

variable (hf : failed = none) (h : ∀ q, q ∈ l.hdr.parts → (q.dev, q.die) ∈ l.reported ∨ (q.dev, q.die) = (jd, die))
include hf h

theorem phaseReport_all : s.phaseReport m = if p + 1 < l.hdr.nphase then
      (s.dropFlight m).startPhase { l with phase := p + 1, reported := [], since := s.now } (p + 1)
    else (s.dropFlight m).endLaunch (l.reportedBy jd die) 0 := by
  have hall : ∀ q, q ∈ l.hdr.parts → (q.dev, q.die) ∈ l.reported ++ [(jd, die)] := fun q hq => by simpa using h q hq
  rw [phaseReport_good hs hop hl hctl hst hp hf, phaseOver_all (l := l.reportedBy jd die) hall hst, ← hp]
  rfl

theorem phaseReport_next (hn : p + 1 < l.hdr.nphase) : Gives (exec (.phaseReport m) s) fun u => Beside s u ∧ u.findFlight m = none ∧
    u.launchOf key = some { l with phase := p + 1, reported := [], since := s.now } ∧
    ∀ q, q ∈ l.hdr.parts → Says u l.die (s.mapDev l.job q.dev) (.start key q.dev q.die (p + 1)) := by
  obtain rfl := launchOf_key hl
  have heq := phaseReport_all hs hop hl hctl hst hp hf h
  rw [if_pos hn] at heq
  obtain ⟨hjoins, hsays⟩ := startPhase_joins (s.dropFlight m) { l with phase := p + 1, reported := [], since := s.now } (p + 1)
  exact ⟨_, congrArg Host.Outcome.next heq, hjoins.beside, hjoins.findFlight_none hs rfl,
    (hjoins.launchOf l.key).trans (launchOf_putLaunch (s := s.dropFlight m) (launchOf_mem hl) rfl), hsays⟩

theorem phaseReport_last (hc : s.findCmd l.cmd = some c) (hk : c.kind = .slot) (hset : EnginesSettled s c.agent) (hn : l.hdr.nphase ≤ p + 1) :
    Gives (exec (.phaseReport m) s) fun u => LaunchOver (s.dropFlight m) u l c 0 := by
  have heq := phaseReport_all hs hop hl hctl hst hp hf h
  rw [if_neg (Nat.not_lt.mpr hn)] at heq
  obtain ⟨hmem, hgone, hended, htoken, hflights, htold⟩ := endLaunch_over (s := s.dropFlight m) (l := l.reportedBy jd die) 0 hc hk hset
  exact ⟨_, congrArg Host.Outcome.next heq, hmem, hgone, hended, htoken, hflights, htold⟩

end

end

/-! Timeouts (R344, R350). -/

theorem launchAnswerTimeout_distributing {s : State} {id : Nat} {l : Launch} {c : Cmd} (hl : s.findLaunch id = some l)
    (ht : l.since + s.timeout ≤ s.now) (hc : s.findCmd l.cmd = some c) (hst : l.st = .distributing) (hk : c.kind = .slot)
    (hset : EnginesSettled s c.agent) : Gives (exec (.launchAnswerTimeout id) s) fun u => LaunchOver s u l c 0x40 :=
  ⟨_, congrArg Host.Outcome.next (answerTimeout_distributing hl ht hst), endLaunch_over 0x40 hc hk hset⟩

theorem launchAnswerTimeout_running {s : State} {id : Nat} {l : Launch} (hl : s.findLaunch id = some l) (ht : l.since + s.timeout ≤ s.now)
    (hst : l.st = .running) (hgone : s.unreachable l ≠ [])
    (h : ∃ q, q ∈ l.hdr.parts ∧ (q.dev, q.die) ∉ l.reported ∧ (q.dev, q.die) ∉ s.unreachable l) :
    Gives (exec (.launchAnswerTimeout id) s) fun u => Beside s u ∧ u.cmds = s.cmds ∧
      u.launchOf l.key = some { l.failing 0x40 with reported := l.reported ++ s.unreachable l } ∧
      ∀ p, p ∈ l.hdr.parts → Says u l.die (s.mapDev l.job p.dev) (.ended l.key p.dev p.die 0x40) := by
  obtain ⟨q, hq, hnot, hreach⟩ := h
  have heq := (answerTimeout_running hl ht hst hgone).trans
    (phaseOver_waits (l := { l.failing 0x40 with reported := l.reported ++ s.unreachable l }) ⟨q, hq, by simp [hnot, hreach]⟩)
  obtain ⟨hjoins, hsays⟩ := startFailing_joins s l 0x40
  have hmem : l.failing 0x40 ∈ (s.startFailing l 0x40).launches := by
    rw [hjoins.eq]
    exact mem_putLaunch (findLaunch_mem hl) rfl
  exact ⟨_, congrArg Host.Outcome.next heq, hjoins.beside, (congrArg State.cmds hjoins.eq).trans rfl,
    launchOf_putLaunch (l := l.failing 0x40) hmem rfl, hsays⟩

end Sys2Proof.Machine
end

section
/-! PROOFS. spec/16_scheduling.md R343 to R345, R348 to R350, R363: launches at the dies that they name; the events of launches together. -/

namespace Sys2Proof.Machine

open Sys2Proof.Safety

/-! Room for a launch (R312, R344). -/

/-- The message of a launch waits: its die is not the origin and its front end is full, or there is no launch tag for a verify launch. -/
def State.waitsForRoom (s : State) (key : LaunchKey) (die : Nat) (hdr : LaunchHdr) : Bool :=
  (!(s.launches.any fun l => l.key = key && l.die = die) && decide (64 ≤ s.frontEndLoad die)) || (hdr.verify && (s.freeTag key).isNone)

theorem waitsForRoom_iff {s : State} {key : LaunchKey} {die : Nat} {hdr : LaunchHdr} : s.waitsForRoom key die hdr = true ↔
    ((∀ l, l ∈ s.launches → l.key = key → l.die ≠ die) ∧ 64 ≤ s.frontEndLoad die) ∨ (hdr.verify = true ∧ s.freeTag key = none) := by
  simp [State.waitsForRoom]

theorem hasRoom {s : State} {key : LaunchKey} {die : Nat} {hdr : LaunchHdr}
    (h : (∃ l, l ∈ s.launches ∧ l.key = key ∧ l.die = die) ∨ s.frontEndLoad die < 64) (ht : hdr.verify = true → s.freeTag key ≠ none) :
    s.waitsForRoom key die hdr = false := by
  rw [← Bool.not_eq_true, waitsForRoom_iff]
  rintro (⟨hnot, hfull⟩ | ⟨hv, hnone⟩)
  · obtain ⟨l, hl, hk, hd⟩ | hload := h
    · exact hnot l hl hk hd
    · exact Nat.not_lt.mpr hfull hload
  · exact ht hv hnone

/-- The share of a die that accepts a launch. -/
def State.newShare (s : State) (key : LaunchKey) (jd die : Nat) (hdr : LaunchHdr) : Share :=
  { id := s.nextId, die := die, jd := jd, key := key, job := key.job, hdr := hdr, first := (shareOf hdr jd die).1, count := (shareOf hdr jd die).2
    ltag := if hdr.verify then s.freeTag key else none }

/-- Taking packets away brings none back. -/
theorem findFlight_none_of_subset {s t : State} {m : Nat} (h : t.fab.flights ⊆ s.fab.flights) (hm : s.findFlight m = none) :
    t.findFlight m = none :=
  List.find?_eq_none.mpr fun g hg => List.find?_eq_none.mp hm g (h hg)

section
variable {s : State} {m : Nat} {fl : Flight} {key : LaunchKey} {jd die : Nat} (hs : Stands s m fl) (hop : fl.pkt.op = 0x22)
include hs hop

/-! Distribution (R343 to R345, R348). -/

section
variable {hdr : LaunchHdr} (hctl : fl.pkt.ctl = .launch key jd die hdr)
include hctl

theorem distribute_refuses (hj : s.jobLaunchable key.job = false) :
    s.distribute m = (s.dropFlight m).tellOrigin die key (.refused key jd die 0x48) := by
  unfold State.distribute
  rw [launchMsg_of_stands hs hop]
  simp only [hctl, keepsMsgs_of_stands hs, hj]
  rfl

/-- A die where the job may run keeps the message, or accepts the launch. -/
theorem distribute_launchable (hj : s.jobLaunchable key.job = true) : s.distribute m =
    if s.waitsForRoom key die hdr then s.moveFlight fl (.held die) fl.pkt
    else State.tellOrigin { s.dropFlight m with shares := s.shares ++ [s.newShare key jd die hdr], nextId := s.nextId + 1 } die key
      (.accepted key jd die) := by
  unfold State.distribute
  rw [launchMsg_of_stands hs hop]
  simp only [hctl, keepsMsgs_of_stands hs, hj, keepMsg_of_stands hs]
  rfl

theorem launchDistribution_refuses (hj : s.jobLaunchable key.job = false) : Gives (exec (.launchDistribution m) s) fun u =>
    Beside s u ∧ u.shares = s.shares ∧ u.findFlight m = none ∧ Says u die (s.mapDev key.job key.dev) (.refused key jd die 0x48) := by
  obtain ⟨hjoins, hsays⟩ := tellOrigin_joins (s.dropFlight m) die key (.refused key jd die 0x48)
  exact ⟨_, congrArg Host.Outcome.next (distribute_refuses hs hop hctl hj), hjoins.beside, rfl, hjoins.findFlight_none hs rfl, hsays⟩

theorem launchDistribution_accepts (hj : s.jobLaunchable key.job = true) (hroom : s.waitsForRoom key die hdr = false) :
    Gives (exec (.launchDistribution m) s) fun u => Beside s u ∧ u.findFlight m = none ∧
      Says u die (s.mapDev key.job key.dev) (.accepted key jd die) ∧ u.shares = s.shares ++ [s.newShare key jd die hdr] := by
  have heq := distribute_launchable hs hop hctl hj
  rw [if_neg (by rw [hroom]; exact Bool.false_ne_true)] at heq
  obtain ⟨hjoins, hsays⟩ := tellOrigin_joins
    { s.dropFlight m with shares := s.shares ++ [s.newShare key jd die hdr], nextId := s.nextId + 1 } die key (.accepted key jd die)
  exact ⟨_, congrArg Host.Outcome.next heq, hjoins.beside, hjoins.findFlight_none hs rfl, hsays, rfl⟩

theorem launchDistribution_waits (hj : s.jobLaunchable key.job = true) (hwait : s.waitsForRoom key die hdr = true) :
    Gives (exec (.launchDistribution m) s) fun u => Beside s u ∧ u.shares = s.shares ∧ { fl with loc := .held die } ∈ u.fab.flights := by
  have heq := distribute_launchable hs hop hctl hj
  rw [if_pos hwait] at heq
  exact ⟨_, congrArg Host.Outcome.next heq, ⟨rfl, rfl⟩, rfl, List.mem_append_right _ List.mem_cons_self⟩

end

/-! Ends and starts (R343, R349, R350). -/

theorem launchRefusal_ended {st : BitVec 8} (hctl : fl.pkt.ctl = .ended key jd die st) : Gives (exec (.launchRefusal m) s) fun u =>
    Beside s u ∧ u.findFlight m = none ∧
    u.shares = (s.shares.filter fun h => !(h.key = key && h.jd = jd && h.die = die && h.st = .idle)).map fun h =>
      if h.key = key ∧ h.jd = jd ∧ h.die = die then { h with failed := some (h.failed.getD st), told := true } else h := by
  have heq : s.refusal m = (s.dropFlight m).shareEnded key jd die st := by
    unfold State.refusal
    rw [launchMsg_of_stands hs hop]
    simp only [hctl, keepsMsgs_of_stands hs]
    rfl
  refine ⟨_, congrArg Host.Outcome.next heq, ⟨rfl, rfl⟩,
    findFlight_none_of_subset (List.filter_subset_self _) (findFlight_dropFlight_self s m), ?_⟩
  refine List.map_congr_left fun h _ => ?_
  simp only [Bool.and_eq_true, decide_eq_true_eq, and_assoc]

theorem phaseStart_starts {p : Nat} (hctl : fl.pkt.ctl = .start key jd die p) : Gives (exec (.phaseStart m) s) fun u =>
    Beside s u ∧ u.findFlight m = none ∧
    u.shares = s.shares.map fun h => if h.key = key ∧ h.jd = jd ∧ h.die = die ∧ h.st = .idle then
      { h with st := .due, phase := p, done := [], next := 0, redo := [], waits := [], aged := [] } else h := by
  have heq : s.phaseStart m = { s.dropFlight m with shares := s.shares.map fun h => if h.key = key && h.jd = jd && h.die = die && h.st = .idle then
      { h with st := .due, phase := p, done := [], next := 0, redo := [], waits := [], aged := [] } else h } := by
    unfold State.phaseStart
    rw [launchMsg_of_stands hs hop]
    simp only [hctl, keepsMsgs_of_stands hs]
    rfl
  refine ⟨_, congrArg Host.Outcome.next heq, ⟨rfl, rfl⟩, findFlight_dropFlight_self s m, ?_⟩
  refine List.map_congr_left fun h _ => ?_
  simp only [Bool.and_eq_true, decide_eq_true_eq, and_assoc]

end

/-! The start step of a phase (R349, R363). -/

/-- A front end with nothing to tell leaves all as it is. -/
theorem frontEnd_quiet {s : State} (h : ∀ g, g ∈ s.shares → s.shareOver g = false ∧ (g.failed ≠ none → g.told = true)) :
    s.frontEnd = s := by
  have hone : ∀ g, g ∈ s.shares → s.frontEndShare g = s := by
    intro g hg
    obtain ⟨hover, htold⟩ := h g hg
    unfold State.frontEndShare
    cases hf : g.failed with
    | none => simp [hover]
    | some st => simp [hover, htold (by rw [hf]; nofun)]
  have hfold : ∀ l : List Share, l.foldl (fun s h => match s.findShare h.id with | some h => s.frontEndShare h | none => s) s = s := by
    intro l
    induction l with
    | nil => rfl
    | cons h l ih =>
      rw [List.foldl_cons]
      cases hf : s.findShare h.id with
      | none => exact ih
      | some g =>
        show l.foldl _ (s.frontEndShare g) = s
        rw [hone g (List.mem_of_find?_eq_some hf)]
        exact ih
  exact hfold s.shares

/-- Whether the phase is over in a share is a matter of the share and of the tasks. -/
theorem shareOver_congr {s t : State} (h : t.tasks = s.tasks) (g : Share) : t.shareOver g = s.shareOver g := by
  unfold State.shareOver
  rw [h]

/-- A word put together of two halves. -/
theorem bits_halves {a b : Nat} (ha : a < 2 ^ 32) (hb : b < 2 ^ 32) : (wordOfNat (a <<< 32 + b)).bits 0 32 = b ∧
    (wordOfNat (a <<< 32 + b)).bits 32 32 = a := by
  have hword : (wordOfNat (a <<< 32 + b)).toNat = a * 2 ^ 32 + b := by
    rw [wordOfNat, BitVec.toNat_ofNat, Nat.shiftLeft_eq]
    omega
  unfold BitVec.bits
  rw [hword, Nat.shiftRight_eq_div_pow, Nat.shiftRight_eq_div_pow]
  omega

/-- SCHEDSLIP counts the late phases in its low half and adds up their lateness in its high half; both saturate (R363). -/
theorem slipAdd_bits (old : Word) (late : Nat) : (slipAdd old late).bits 0 32 = min 0xFFFFFFFF (old.bits 0 32 + 1) ∧
    (slipAdd old late).bits 32 32 = min 0xFFFFFFFF (old.bits 32 32 + late) :=
  bits_halves (Nat.lt_of_le_of_lt (Nat.min_le_left _ _) (by decide)) (Nat.lt_of_le_of_lt (Nat.min_le_left _ _) (by decide))

/-- The share's phase runs from now on. -/
def Share.begun (h : Share) (now : Nat) : Share := { h with st := .running, since := now }

/-- The start step of a share's phase. -/
def Share.startStep (h : Share) : Nat := if h.hdr.steps.isEmpty then 0 else (h.hdr.steps[h.phase]?.getD 0).toNat

/-- SCHEDSLIP of a share's die after a phase that began late steps late. -/
def State.slipped (s : State) (h : Share) (late : Nat) : State :=
  if h.hdr.steps.isEmpty || late = 0 then s else s.modDie h.die fun d => { d with slip := slipAdd d.slip late }

theorem slipped_eq (s : State) (h : Share) (late : Nat) : s.slipped h late = { s with dies := (s.slipped h late).dies } := by
  unfold State.slipped
  split <;> rfl

theorem phaseBegin_eq {s : State} {id : Nat} {h : Share} {late : Nat} (hf : s.findShare id = some h) (hst : h.st = .due)
    (hlate : h.startStep + late = s.step64.toNat) : s.phaseBegin id = ((s.putShare (h.begun s.now)).slipped h late).frontEnd := by
  have hreached : ¬s.step64.toNat < h.startStep := by omega
  obtain rfl : s.step64.toNat - h.startStep = late := by omega
  unfold Share.startStep at hreached ⊢
  unfold State.phaseBegin
  simp only [hf, hst, hreached]
  rfl

/-- With nothing else to tell, the front end has nothing to tell once the phase has begun. -/
theorem frontEnd_begun {s : State} {h : Share} (hfailed : h.failed = none) (hdone : h.done.length ≠ h.count)
    (hquiet : ∀ g, g ∈ s.shares → s.shareOver g = false ∧ (g.failed ≠ none → g.told = true)) (late : Nat) :
    ((s.putShare (h.begun s.now)).slipped h late).frontEnd = (s.putShare (h.begun s.now)).slipped h late := by
  have heq := slipped_eq (s.putShare (h.begun s.now)) h late
  refine frontEnd_quiet fun g hg => ?_
  rw [shareOver_congr (s := s) ((congrArg State.tasks heq).trans rfl)]
  rw [heq] at hg
  obtain ⟨q, hq, rfl⟩ := List.mem_map.mp hg
  split
  · refine ⟨?_, fun hne => absurd hfailed hne⟩
    simp [State.shareOver, Share.begun, hfailed, hdone]
  · exact hquiet q hq

theorem phaseBegin_begins {s : State} {id : Nat} {h : Share} {late : Nat} (hf : s.findShare id = some h) (hst : h.st = .due)
    (hfailed : h.failed = none) (hdone : h.done.length ≠ h.count)
    (hquiet : ∀ g, g ∈ s.shares → s.shareOver g = false ∧ (g.failed ≠ none → g.told = true)) (hlate : h.startStep + late = s.step64.toNat) :
    exec (.phaseBegin id) s = .next ((s.putShare (h.begun s.now)).slipped h late) :=
  congrArg Host.Outcome.next ((phaseBegin_eq hf hst hlate).trans (frontEnd_begun hfailed hdone hquiet late))

/-! All of them. -/

/-- Settles O51: each event of launches, by the lemma about it. The status 0x48 of a refusal is Bad Launch (R247, R348, R383). -/
theorem launchEvents : Obligations.LaunchEvents := by
  unfold Obligations.LaunchEvents
  intro s m fl key jd die
  refine ⟨?distribution, ?acceptance, ?refusal, ?ended, ?start, ?begin, ?report, ?timeout⟩
  case distribution =>
    intro hdr hs hop hctl
    refine ⟨launchDistribution_refuses hs hop hctl, fun hj hroom htag => ?_, fun hj hwait => ?_⟩
    · obtain ⟨u, hu, hbeside, hgone, hsays, hshares⟩ := launchDistribution_accepts hs hop hctl hj (hasRoom hroom htag)
      exact ⟨u, hu, hbeside, hgone, hsays, _, hshares, rfl, rfl, rfl, rfl, rfl, rfl, rfl, rfl, rfl⟩
    · exact launchDistribution_waits hs hop hctl hj (waitsForRoom_iff.mpr hwait)
  case acceptance =>
    intro l c hs hop hctl hl hst hc
    exact ⟨launchAcceptance_waits hs hop hl hctl hst, launchAcceptance_last hs hop hl hctl hst hc⟩
  case refusal =>
    intro l c st hs hop hctl hl hc hk hset
    refine ⟨fun hst => ?_, launchRefusal_running hs hop hl hctl⟩
    obtain ⟨u, hu, hover⟩ := launchRefusal_distributing hs hop hl hctl hc hk hset hst
    obtain rfl := launchOf_key hl
    exact ⟨u, hu, hover.mem, hover.findFlight_none hs, hover.launchOf, hover.ended, hover.token,
      hover.told⟩
  case ended =>
    intro st hs hop hctl
    exact launchRefusal_ended hs hop hctl
  case start =>
    intro p hs hop hctl
    exact phaseStart_starts hs hop hctl
  case begin =>
    intro id h late at_ hf hst hfailed hdone hdie hquiet hat hlate
    obtain rfl := findShare_id hf
    obtain ⟨hnone, rfl⟩ | ⟨hsome, hlate⟩ := hlate
    · have hstep : h.startStep = 0 := by rw [Share.startStep, hnone]; rfl
      have hbegins := phaseBegin_begins hf hst hfailed hdone hquiet (late := s.step64.toNat) (by rw [hstep, Nat.zero_add])
      rw [State.slipped, hnone] at hbegins
      exact ⟨_, hbegins, ⟨rfl, rfl⟩, rfl, fun _ => rfl, fun h => absurd h (Nat.lt_irrefl 0)⟩
    · have hemp : h.hdr.steps.isEmpty = false := by rw [List.isEmpty_eq_false_iff]; exact hsome
      have hstep : h.startStep = at_ := by rw [Share.startStep, hemp]; exact hat
      have hbegins := phaseBegin_begins hf hst hfailed hdone hquiet (by rw [hstep]; exact hlate)
      have heq := slipped_eq (s.putShare (h.begun s.now)) h late
      refine ⟨_, hbegins, by rw [heq]; exact ⟨rfl, rfl⟩, by rw [heq]; rfl, fun h0 => ?_, fun h0 => ?_⟩
      · rw [State.slipped, h0, if_pos (by simp)]
        rfl
      · rw [State.slipped, hemp, if_neg (by simp; omega), die_modDie_self]
        exact slipAdd_bits _ _
  case report =>
    intro l c p failed hs hop hctl hl hst hp hc hk hset
    refine ⟨phaseReport_waits hs hop hl hctl hst hp, fun hall hf => ⟨phaseReport_next hs hop hl hctl hst hp hf hall, fun hn => ?_⟩⟩
    obtain ⟨u, hu, hover⟩ := phaseReport_last hs hop hl hctl hst hp hf hall hc hk hset hn
    obtain rfl := launchOf_key hl
    exact ⟨u, hu, hover.mem, hover.findFlight_none hs, hover.launchOf, hover.ended, hover.token⟩
  case timeout =>
    intro id l c hl ht hc
    refine ⟨fun hst hk hset => ?_, ?_⟩
    · obtain ⟨u, hu, hover⟩ := launchAnswerTimeout_distributing hl ht hc hst hk hset
      exact ⟨u, hu, hover.mem, hover.gone, hover.ended, hover.token, hover.told (by decide)⟩
    · rintro _ hst rfl hgone h
      exact launchAnswerTimeout_running hl ht hst hgone h

end Sys2Proof.Machine
end
